-- ==== Sys2Proof/Word.lean ====
section
/-!
DEFINITION. The word types of the CQ-9640 and nothing else: 64-bit scalar registers and stamps (R64, R30),
32-bit control words, bytes. Field and byte helpers that a test could prove wrong live in `Machine/Ops.lean`.
-/
namespace Sys2Proof

/-- A 64-bit value: a scalar register, a stamp, a CSR (R64). -/
abbrev Word := BitVec 64

/-- A 32-bit value: an instruction word, a 32-bit register, IMM32. -/
abbrev Half := BitVec 32

/-- One byte of memory or of a structure (R5). -/
abbrev Byte := BitVec 8

/-- One vector or mask register of 2,048 bits (R99). -/
abbrev VReg := BitVec 2048

end Sys2Proof
end

