-- ==== Sys2Proof/Syntax.lean ====
section
/-!
DEFINITION. The commands the engine takes: one constructor of `Instr` per row of spec/opcode_table.json, in the
table's order, with the row's operands.  Rows of the PP's instruction set carry the number of the pipeline processor
that executes them (`pp` = 4 × cluster + PP, 0–255) and the fields of their format (03 R67–R68, 04 R104); rows that are
events carry what the outside world decides (a value written, a completion's data, a reading).
-/
namespace Sys2Proof

/-- R format (03, field positions by format). -/
structure RF where
  rd  : BitVec 5
  rs1 : BitVec 5
  rs2 : BitVec 5
  rs3 : BitVec 5
  deriving DecidableEq, Repr

/-- I format: IMM16 is bits [31:16]. -/
structure IF where
  rd  : BitVec 5
  rs1 : BitVec 5
  imm : BitVec 16
  deriving DecidableEq, Repr

/-- S format: RS2 is the data, RS1 the base. -/
structure SF where
  rs2 : BitVec 5
  rs1 : BitVec 5
  imm : BitVec 16
  deriving DecidableEq, Repr

/-- B format. -/
structure BF where
  rs1 : BitVec 5
  rs2 : BitVec 5
  imm : BitVec 16
  deriving DecidableEq, Repr

/-- J and U formats: IMM21 is bits [31:11]. -/
structure JF where
  rd  : BitVec 5
  imm : BitVec 21
  deriving DecidableEq, Repr

/-- C format (64 bits): the word that holds the opcode, and IMM32.  UNIT and CMD come with the constructor. -/
structure CF where
  rd  : BitVec 5
  rs1 : BitVec 5
  rs2 : BitVec 5
  imm : BitVec 32
  deriving DecidableEq, Repr

/-- V format (04, Encoding).  `x` is FUNC6[5]; `md` is FUNC6[5:3] of a load or store. -/
structure VF where
  vd  : BitVec 5
  vs1 : BitVec 5
  vs2 : BitVec 5
  ms  : BitVec 3
  men : Bool
  s   : Bool
  x   : Bool
  md  : BitVec 3
  deriving DecidableEq, Repr

/-- The four functions of row MIN_MAX_MINU_MAXU, and of the vector minima and maxima. -/
inductive MinMax where
  | min | max | minu | maxu
  deriving DecidableEq, Repr

/-- Signed or unsigned form of a multi-name row. -/
inductive Sign where
  | signed | unsigned
  deriving DecidableEq, Repr

/-- VAND, VOR, VXOR, VANDN, and MAND, MOR, MXOR, MANDN. -/
inductive Logic where
  | and | or | xor | andn
  deriving DecidableEq, Repr

/-- VSLL, VSRL, VSRA. -/
inductive ShiftOp where
  | sll | srl | sra
  deriving DecidableEq, Repr

/-- VSADD, VSADDU, VSSUB, VSSUBU. -/
inductive SatOp where
  | add | addu | sub | subu
  deriving DecidableEq, Repr

/-- VFADD, VFSUB, VFMUL, VFDIV. -/
inductive FArith where
  | add | sub | mul | div
  deriving DecidableEq, Repr

/-- A pair of names in one row whose second is the negated or other form (VFMIN/VFMAX, VFABS/VFNEG, EQ/NE,
VRSUMX/VRSUMXS). -/
inductive Alt where
  | fst | snd
  deriving DecidableEq, Repr

/-- FEQ, FNE, FLT, FLE, FGT, FGE. -/
inductive FRel where
  | eq | ne | lt | le | gt | ge
  deriving DecidableEq, Repr

/-- VRAND, VROR, VRXOR. -/
inductive RLogic where
  | and | or | xor
  deriving DecidableEq, Repr

/-- What an ECC check found when a memory or the keep store was read (R349). -/
inductive Ecc where
  | clean | corrected | uncorrectable
  deriving DecidableEq, Repr

/-- R349: the error that a memory controller meets in a line: the most bits wrong in one 64-bit word (0 without an error), and the
devices and the 8-bit symbols of the subchannel that are wrong. -/
structure MemError where
  bits : Nat
  devices : Nat
  symbols : Nat
  deriving DecidableEq, Repr

/-- No error. -/
def MemError.none : MemError := { bits := 0, devices := 0, symbols := 0 }

/-- A requester of register space (R408, PM.REG_ERR.PATH and SOURCE). -/
inductive Requester where
  | hostPort (h : Nat)
  | core (k : Nat)
  | pp (n : Nat)
  | ccc (c : Nat)
  | relay (unit : Nat)
  deriving DecidableEq, Repr

/-- Who waits for a completion on a host port (R373). -/
inductive HostReq where
  | pp (n : Nat)
  | channel (c ch : Nat)
  | unit (c : Nat)
  | walk (c : Nat)
  | admin
  deriving DecidableEq, Repr

/-- How a completion ends (R373). -/
inductive CplStatus where
  | ok | refused | poisoned
  deriving DecidableEq, Repr

/-- A namespace that DRIVE_READY reports (R376): its LBAs, the bytes of data of each, and those of metadata. -/
structure NsInfo where
  nsid   : Nat
  blocks : Nat
  lba    : Nat
  metaBytes : Nat
  deriving DecidableEq, Repr

/-- R376: LBA data of 512 B or 4,096 B and no metadata. -/
def NsInfo.usable (n : NsInfo) : Bool := (n.lba == 512 || n.lba == 4096) && n.metaBytes == 0

/-- How a drive is lost (R385): its link goes down, or its controller reports a fatal status over a link that stays up. -/
structure DriveLoss where
  d     : Nat
  fatal : Bool
  deriving DecidableEq, Repr

/-- What the host does to MSI-X in configuration space and in the Vector Control words (R375): it masks or unmasks a vector, or sets or
clears MSI-X Enable. -/
inductive MsixEvent where
  | unmask (v : Nat)
  | mask (v : Nat)
  | enable (on : Bool)
  deriving DecidableEq, Repr

/-- What a link has come up with (R368, R371): its width in lanes, and whether the host has enabled VC1. -/
structure LinkIn where
  lanes : Nat
  vc1   : Bool
  deriving DecidableEq, Repr

/-- What a DIMM's SPD says (R339, R352): `rdimm` for a registered ECC RDIMM that is no LRDIMM and no 3DS DIMM, its capacity in GiB, its
package ranks, and whether its devices are x4. -/
structure Dimm where
  rdimm : Bool
  gib   : Nat
  ranks : Nat
  x4    : Bool
  deriving DecidableEq, Repr

/-- A reading of a DIMM's sensor, in tenths of a degree (R346). -/
structure DimmTemp where
  dimm : Nat
  temp : Int
  deriving DecidableEq, Repr

/-- The end of the read of SQ `q` without data; `timeout` when it was a completion timeout (R373). -/
structure FetchFail where
  q       : Nat
  timeout : Bool
  deriving DecidableEq, Repr

/-- What training finds on a DDR5 channel (R352): the DIMMs fitted, and the rate it trained at, 1–3 as in DC.TRAIN, or 0 when it has failed
at every rate. -/
structure DdrIn where
  dimms : List Dimm
  rate  : Nat
  deriving DecidableEq, Repr

/-- What boot finds outside the engine: straps (R369, R389, R445), image headers and the verdicts of their checks (R443),
training results (R352), and the keep store's spare blocks. -/
structure BootIn where
  /-- HPCFG0–HPCFG7. -/
  hpcfg      : BitVec 8
  mgmtPort   : Nat
  chainMode  : Nat
  smbAddr    : Nat
  /-- SVN of copies A and B, `none` when MAGIC, FORMAT, BODY_BYTES, key hash or signature fails (R443). -/
  svnA       : Option Nat
  svnB       : Option Nat
  commitSvn  : Bool
  hbmOk      : Bool
  hbmRepaired : List Nat
  ddr        : List DdrIn
  directed   : List Bool
  sparePct   : Nat
  /-- Keep store slots whose data are found not to match their DATA_CRC when they are read (R432, R436). -/
  ksBad      : List Nat
  /-- Level of the HUP_READY input. -/
  hupReady   : Bool
  deriving DecidableEq, Repr

/-- The commands (spec/opcode_table.json, one constructor per row). -/
inductive Instr where
  -- 02: epochs and fixes
  | epochTick
  | cutDone (c : Nat)
  | sealFix
  | epochOpenTimeout
  | epochApply
  | budget (pp : Nat)
  | legClose (leg : Nat)
  | fixReady (src n legs : Nat)
  | fix (n : Nat) (carry : Bool) (lost : Nat) (members : BitVec 16)
  | readyDeadline
  -- 03: scalar
  | add (pp : Nat) (f : RF)
  | sub (pp : Nat) (f : RF)
  | and (pp : Nat) (f : RF)
  | or (pp : Nat) (f : RF)
  | xor (pp : Nat) (f : RF)
  | andn (pp : Nat) (f : RF)
  | sll (pp : Nat) (f : RF)
  | srl (pp : Nat) (f : RF)
  | sra (pp : Nat) (f : RF)
  | ror (pp : Nat) (f : RF)
  | slt (pp : Nat) (f : RF)
  | sltu (pp : Nat) (f : RF)
  | minMax (pp : Nat) (k : MinMax) (f : RF)
  | mul (pp : Nat) (f : RF)
  | mulh (pp : Nat) (f : RF)
  | mulhu (pp : Nat) (f : RF)
  | div (pp : Nat) (f : RF)
  | divu (pp : Nat) (f : RF)
  | rem (pp : Nat) (f : RF)
  | remu (pp : Nat) (f : RF)
  | crc32cw (pp : Nat) (f : RF)
  | crc32c (pp : Nat) (f : RF)
  | clz (pp : Nat) (f : RF)
  | ctz (pp : Nat) (f : RF)
  | popc (pp : Nat) (f : RF)
  | bswap (pp : Nat) (f : RF)
  | sel (pp : Nat) (f : RF)
  | addw (pp : Nat) (f : RF)
  | subw (pp : Nat) (f : RF)
  | addi (pp : Nat) (f : IF)
  | andi (pp : Nat) (f : IF)
  | ori (pp : Nat) (f : IF)
  | xori (pp : Nat) (f : IF)
  | slti (pp : Nat) (f : IF)
  | sltiu (pp : Nat) (f : IF)
  | shi (pp : Nat) (f : IF)
  | uimm (pp : Nat) (f : JF)
  | pgaddr (pp : Nat) (f : JF)
  | lb (pp : Nat) (f : IF)
  | lh (pp : Nat) (f : IF)
  | lw (pp : Nat) (f : IF)
  | ld (pp : Nat) (f : IF)
  | lbu (pp : Nat) (f : IF)
  | lhu (pp : Nat) (f : IF)
  | lwu (pp : Nat) (f : IF)
  | ldnc (pp : Nat) (f : IF)
  | sb (pp : Nat) (f : SF)
  | sh (pp : Nat) (f : SF)
  | sw (pp : Nat) (f : SF)
  | sd (pp : Nat) (f : SF)
  | beq (pp : Nat) (f : BF)
  | bne (pp : Nat) (f : BF)
  | blt (pp : Nat) (f : BF)
  | bge (pp : Nat) (f : BF)
  | bltu (pp : Nat) (f : BF)
  | bgeu (pp : Nat) (f : BF)
  | jal (pp : Nat) (f : JF)
  | jalr (pp : Nat) (f : IF)
  | fadd (pp : Nat) (wide : Bool) (f : RF)
  | fswap (pp : Nat) (wide : Bool) (f : RF)
  | fcas (pp : Nat) (wide : Bool) (f : RF)
  | fmin (pp : Nat) (wide : Bool) (f : RF)
  | fmax (pp : Nat) (wide : Bool) (f : RF)
  | fminu (pp : Nat) (wide : Bool) (f : RF)
  | fmaxu (pp : Nat) (wide : Bool) (f : RF)
  | fand (pp : Nat) (wide : Bool) (f : RF)
  | farOr (pp : Nat) (wide : Bool) (f : RF)
  | push (pp : Nat) (f : RF)
  | pop (pp : Nat) (f : RF)
  | tpush (pp : Nat) (f : RF)
  | plevel (pp : Nat) (f : RF)
  | fenceC (pp : Nat) (f : RF)
  | fenceM (pp : Nat) (f : RF)
  | fenceI (pp : Nat) (f : RF)
  | csrr (pp : Nat) (f : IF)
  | csrw (pp : Nat) (f : IF)
  | csrs (pp : Nat) (f : IF)
  | csrc (pp : Nat) (f : IF)
  | exit (pp : Nat) (f : RF)
  | abort (pp : Nat) (f : RF)
  | brk (pp : Nat) (f : RF)
  | retire (pp : Nat) (f : RF)
  | obatch (pp : Nat) (f : RF)
  | pret (pp : Nat) (f : RF)
  | tlbld (pp : Nat) (f : RF)
  | tlbinv (pp : Nat) (f : RF)
  | walk (pp : Nat) (f : RF)
  | frec (pp : Nat) (f : RF)
  | scan (pp : Nat) (f : CF)
  | decode (pp : Nat) (f : CF)
  | build (pp : Nat) (f : CF)
  | probe (pp : Nat) (f : CF)
  | aggregate (pp : Nat) (f : CF)
  | flush (pp : Nat) (f : CF)
  | merge (pp : Nat) (f : CF)
  | topk (pp : Nat) (f : CF)
  | restore (pp : Nat) (f : CF)
  | compress (pp : Nat) (f : CF)
  | run (pp : Nat) (f : CF)
  | kick (pp : Nat) (f : CF)
  | search (pp : Nat) (f : CF)
  | next (pp : Nat) (f : CF)
  | update (pp : Nat) (f : CF)
  | digest (pp : Nat) (f : CF)
  | wait (pp : Nat) (unit : BitVec 5) (f : CF)
  | test (pp : Nat) (unit : BitVec 5) (f : CF)
  | drain (pp : Nat) (unit : BitVec 5) (f : CF)
  -- 04: vectors
  | vcfgi (pp : Nat) (f : IF)
  | vcfgr (pp : Nat) (f : VF)
  | vld (pp : Nat) (f : VF)
  | vlds (pp : Nat) (f : VF)
  | vldx (pp : Nat) (f : VF)
  | vldff (pp : Nat) (f : VF)
  | vldseg (pp : Nat) (f : VF)
  | vldsegs (pp : Nat) (f : VF)
  | vldm (pp : Nat) (f : VF)
  | vst (pp : Nat) (f : VF)
  | vsts (pp : Nat) (f : VF)
  | vstx (pp : Nat) (f : VF)
  | vstseg (pp : Nat) (f : VF)
  | vstsegs (pp : Nat) (f : VF)
  | vstm (pp : Nat) (f : VF)
  | vadd (pp : Nat) (f : VF)
  | vsub (pp : Nat) (f : VF)
  | vrsub (pp : Nat) (f : VF)
  | vlogic (pp : Nat) (k : Logic) (f : VF)
  | vshift (pp : Nat) (k : ShiftOp) (f : VF)
  | vminmax (pp : Nat) (k : MinMax) (f : VF)
  | vmul (pp : Nat) (f : VF)
  | vmulh (pp : Nat) (k : Sign) (f : VF)
  | vsat (pp : Nat) (k : SatOp) (f : VF)
  | vmerge (pp : Nat) (f : VF)
  | vmv (pp : Nat) (f : VF)
  | vid (pp : Nat) (f : VF)
  | vfarith (pp : Nat) (k : FArith) (f : VF)
  | vfminmax (pp : Nat) (k : Alt) (f : VF)
  | vfma (pp : Nat) (f : VF)
  | vfsqrt (pp : Nat) (f : VF)
  | vfcvtF (pp : Nat) (k : Sign) (f : VF)
  | vfcvtI (pp : Nat) (k : Sign) (f : VF)
  | vfabsneg (pp : Nat) (k : Alt) (f : VF)
  | vcmpEq (pp : Nat) (k : Alt) (f : VF)
  | vcmpLt (pp : Nat) (k : Sign) (f : VF)
  | vcmpLe (pp : Nat) (k : Sign) (f : VF)
  | vcmpGt (pp : Nat) (k : Sign) (f : VF)
  | vcmpGe (pp : Nat) (k : Sign) (f : VF)
  | vcmpAddo (pp : Nat) (f : VF)
  | vcmpSubo (pp : Nat) (f : VF)
  | vcmpF (pp : Nat) (k : FRel) (f : VF)
  | vrsum (pp : Nat) (f : VF)
  | vrminmax (pp : Nat) (k : MinMax) (f : VF)
  | vrlogic (pp : Nat) (k : RLogic) (f : VF)
  | vfrsum (pp : Nat) (f : VF)
  | vfrminmax (pp : Nat) (k : Alt) (f : VF)
  | vrsumx (pp : Nat) (k : Alt) (f : VF)
  | vcompress (pp : Nat) (f : VF)
  | vexpand (pp : Nat) (f : VF)
  | vextract (pp : Nat) (f : VF)
  | vinsert (pp : Nat) (f : VF)
  | mlogic (pp : Nat) (k : Logic) (f : VF)
  | mnot (pp : Nat) (f : VF)
  | mpopc (pp : Nat) (f : VF)
  | mfirst (pp : Nat) (f : VF)
  | vrd (pp : Nat) (f : VF)
  | vwr (pp : Nat) (f : VF)
  -- operator units
  | upuCommandStart (c : Nat)
  | upuCommandDone (c : Nat)
  | huCommandStart (c : Nat)
  | huCommandDone (c : Nat) (js : Ecc) (k : Nat)
  | suCommandStart (c : Nat)
  | suCommandDone (c : Nat)
  | compressorCommandStart (c : Nat)
  | compressorCommandDone (c : Nat)
  | asaSearchStart (b : Nat)
  | asaUpdateStart (b : Nat)
  | asaImageCommit (b : Nat)
  | asaFallbackReturn (b slot : Nat) (e : Ecc)
  | asaCommandDone (b : Nat) (update : Bool)
  | asaScrub (b slot : Nat)
  | duJobStart (u : Nat)
  | duPreempt (u : Nat)
  | duJobDone (u : Nat)
  | dmChronoTrigger (c ch : Nat)
  | dmBusErrorRetry (c ch : Nat) (addr : Word)
  | dmChannelDone (c ch : Nat)
  -- 11: queues and the administrative queue
  | sqDoorbell (q : Nat) (v : BitVec 32)
  | cqDoorbell (q : Nat) (v : BitVec 32)
  | sqFetchIssue (q : Nat)
  | sqFetchData (q : Nat) (data : List (BitVec 8))
  | sqFetchFail (q : FetchFail)
  | sqFetchReissue (q : Nat)
  | adminSqDoorbell (v : BitVec 32)
  | adminCqDoorbell (v : BitVec 32)
  | adminFetchIssue
  | adminFetchData (data : List (BitVec 8))
  | adminFetchRetry
  | adminNop (cid : BitVec 16) (idx : BitVec 32)
  | createPartition (cid : BitVec 16) (idx : BitVec 32) (pasid hostPort : Nat)
  | destroyPartition (cid : BitVec 16) (idx : BitVec 32) (p : Nat)
  | resetPartition (cid : BitVec 16) (idx : BitVec 32) (p : Nat)
  | quiescePartition (cid : BitVec 16) (idx : BitVec 32) (p : Nat)
  | quiesceDone (p : Nat)
  | resumePartition (cid : BitVec 16) (idx : BitVec 32) (p : Nat)
  | quenchPartition (cid : BitVec 16) (idx : BitVec 32) (p : Nat)
  | quenchNow (p : Nat)
  | quenchEffect (p : Nat)
  | createCq (cid : BitVec 16) (idx : BitVec 32) (p size : Nat) (base : Word) (event : Nat)
  | deleteCq (cid : BitVec 16) (idx : BitVec 32) (p ln : Nat)
  | createSq (cid : BitVec 16) (idx : BitVec 32) (p size : Nat) (base : Word)
  | deleteSq (cid : BitVec 16) (idx : BitVec 32) (p ln : Nat)
  | setResources (cid : BitVec 16) (idx : BitVec 32) (p : Nat) (clusters : Word) (classM : Bool) (ceiling : Nat)
  | allocJoinStore (cid : BitVec 16) (idx : BitVec 32) (p c : Nat) (granules : Word)
  | allocAsa (cid : BitVec 16) (idx : BitVec 32) (p first setLog2 width : Nat)
  | bindPipes (cid : BitVec 16) (idx : BitVec 32) (p c first count depthLog2 : Nat)
  | unbindPipes (cid : BitVec 16) (idx : BitVec 32) (p c first count : Nat)
  | setInbox (cid : BitVec 16) (idx : BitVec 32) (p inbox : Nat) (base : Word) (bytes : Nat)
  | mapEvent (cid : BitVec 16) (idx : BitVec 32) (source port vector : Nat) (enable : Bool)
  | readFixLog (cid : BitVec 16) (idx : BitVec 32) (firstFix : Word) (count : Nat) (dest : Word)
  | readPartitionFix (cid : BitVec 16) (idx : BitVec 32) (dest : Word)
  | sqRingApply (q : Nat) (w : BitVec 32)
  | cqRingApply (q : Nat) (w : BitVec 32)
  | adminApply (w : BitVec 32)
  | msixUnmask (port : Nat) (vector : MsixEvent)
  -- 12, 14
  | schedulerTick
  | legStart (pp : Nat)
  | xlatApply (p : Nat) (w : BitVec 32)
  | xlatInvGo (w : BitVec 32)
  | xlatInvDone
  -- 15, 16
  | l2WaycfgWrite (c : Nat) (w : Word)
  | l2WayWritebackDone (c : Nat)
  | clean (c : Nat) (addr : Word) (lines : Nat)
  | invalidate (c : Nat) (addr : Word) (lines : Nat)
  | cleanInv (c : Nat) (addr : Word) (lines : Nat)
  | cleanAll (c : Nat)
  | invAll (c : Nat)
  | l2MaintDone (c : Nat)
  | l2Disable (c : Nat)
  | l2DrainDone (c : Nat)
  | l2Fill (c : Nat) (line : Nat)
  | memRequestServe (n ch : Nat) (openHits : List Nat) (bank row : Nat) (e : MemError)
  | refreshDue (n rank : Nat)
  | actTableClear (n : Nat)
  | memScrub (n : Nat) (line : Nat) (e : MemError)
  | correctedWriteback (n : Nat)
  | hotChange (n : Nat) (temp : DimmTemp)
  -- 18
  | hostLinkDown (h : Nat)
  | hostLinkUp (h speed : Nat) (width : LinkIn)
  | hostPortReset (h : Nat)
  | hostUnclaimed (h : Nat) (posted : Bool)
  | hostCompletionTimeout (h : Nat) (r : HostReq) (dpa : Word)
  | driveLinkUp (d speed width : Nat)
  | driveReady (d queuePairs mqes xferLimit : Nat) (ns : List NsInfo)
  | driveLinkDown (d : DriveLoss)
  | driveStray (d : Nat) (addr : Word)
  | grantApply (g : Nat) (w : Word)
  | ringPass (g : Nat)
  | nvmeCmdComplete (cmd : Nat) (sc : BitVec 16) (data : List (BitVec 8))
  | npPushRetry (req : Nat)
  | nvmeCmdTimeout (cmd : Nat)
  -- 19
  | enumerate
  | enum (value : Nat) (maxStamp maxFix : Word)
  | enumEnd (count : Nat) (excess : Bool) (maxStamp maxFix : Word)
  | enumTimeout
  | tick (link n : Nat) (stamp : Word) (lenUs units : Nat) (ring last : Bool) (members : BitVec 16) (lost : Nat) (sendStamp : Word)
  | tickLate
  | chainDown (src cause : Nat) (lastFix : Word)
  | orphaned
  | shuffleData (src part inbox rw : Nat) (stream : BitVec 32) (first : Nat) (records : List (BitVec 8))
  | remoteCompletion (src : Nat) (stream : BitVec 32) (first accepted status : Nat)
  | adminRelay (src : Nat) (token : BitVec 16) (write wide : Bool) (offset : BitVec 32) (data : Word)
  | adminRelayReply (src : Nat) (token : BitVec 16) (status : Nat) (data : Word)
  | relayGo (w : BitVec 32)
  | relayTimeout
  | data (link : Nat) (flit : List (BitVec 8))
  | nak (link : Nat) (flit : List (BitVec 8))
  | replayTimeout (link : Nat)
  | linkRetrain (link : Nat)
  | linkRetrainFail (link : Nat)
  | probeReply (link : Nat) (rtt turnaround : Nat)
  -- 20
  | registerWrite (r : Requester) (offset width : Nat) (value : Word)
  | replyTimer (r : Requester)
  -- 21, 22
  | throttle (mv : Nat)
  | throttleLift (mv : Nat)
  | pfail (pin : Bool) (mv : Nat)
  | saveDone (ok : Bool) (saveUs : Nat) (poison : List Nat)
  | hupReadyFall
  | ksReserveAppend
  | mgmtCoreStop (k : Nat)
  | powerOnReset
  | resetN
  | pwrgoodFall
  | deviceReset (w : BitVec 32)
  | bootStart (b : BootIn)
  | bootDone (ms : Nat)
  | ppReset (pp : Nat)
  | refclkLost
  | setEndpointId (eid : BitVec 8)
  | getEndpointId
  | getMctpVersionSupport (msgType : BitVec 8)
  | getMessageTypeSupport
  | getBootState (body : List (BitVec 8))
  | getThermal (body : List (BitVec 8))
  | getPower (body : List (BitVec 8))
  | readErrorLog (body : List (BitVec 8))
  | mctpDeviceReset (body : List (BitVec 8))
  -- 23
  | extest (scan : List Bool)
  | samplePreload (scan : List Bool)
  | idcode
  | bypass (bit : Bool)
  | dbgStatus
  | dbgNonce
  | dbgAuth (scope : BitVec 8) (secret : BitVec 128)
  | dbgClose
  | dbgLock
  | trstN
  | nonceExpiry
  | dbgNop
  | regRead (wide : Bool) (addr : BitVec 48)
  | logRead (addr : BitVec 48)
  | regWrite (wide : Bool) (addr : BitVec 48) (d : Word)
  | memRead (addr : BitVec 48)
  | memWrite (addr : BitVec 48) (d : Word)
  | ppHalt (addr : BitVec 48)
  | ppResume (addr : BitVec 48)
  | ppStep (addr : BitVec 48)
  | ppState (addr : BitVec 48)
  | haltOnBreak (d : Word)
  | dbgDeviceReset
  | fuseHash (addr : BitVec 48) (d : Word)
  -- 25 and the rows added by the reader
  | thermalSample (temps : List Int) (powerDw : Nat)
  | tripNoPfail
  | hostCompletion (h : Nat) (r : HostReq) (dpa : Word) (st : CplStatus) (data : List (BitVec 8))
  | registerRead (r : Requester) (offset width : Nat)
  | chainLinkUp (link : Nat)
  | idle (link : Nat) (flit : List (BitVec 8))
  | probeFlit (link : Nat)
  | driveCompletionTimeout (cmd : Nat)
  deriving DecidableEq, Repr

end Sys2Proof
end

