-- ==== Sys2Proof/Config.lean ====
section
/-!
DEFINITION. What the spec leaves open or an implementation fixes: constants without a body, so that a statement that
mentions one holds for every value of it (log entries 12 and 16).
-/
namespace Sys2Proof

/-- A free number: cycle counts, replacement choices, orders the spec leaves open (R12, R92, R312, R482).  Log entry 12. -/
opaque Config.freeNat : Nat → Nat

/-- R343, R347: what the spec leaves open of one controller's work, by controller and by turn: the row hits of requests served because a
queue is full, and whether a row is opened, and which, where no command names it.  Log entry 14. -/
opaque Config.dcFree : Nat → Nat → Nat

/-- R345: how far the controller has come with the owed refreshes of a rank or pseudo-channel for which nothing waits, by controller,
rank and burst.  Log entry 14. -/
opaque Config.owedFree : Nat → Nat → Nat → Nat

/-- R341: the rank that the place in a DDR5 channel belongs to; the map is fixed by the controller and not given.  Log entry 14. -/
opaque Config.rankOf : Nat → Nat → Nat

/-- R454: nonces from the random source.  Log entry 12. -/
opaque Config.freeNonce : Nat → BitVec 256

/-- R450: UNLOCK_KEY, which no path can read.  Log entry 16. -/
opaque Config.unlockKey : BitVec 256

/-- R450: SERIAL.  Log entry 16. -/
opaque Config.serial : BitVec 64

/-- A free 64-bit value (log entry 12). -/
opaque Config.freeWord : Nat → BitVec 64

end Sys2Proof
end

