-- ==== Sys2Proof/Machine/State.lean ====
section
/-!
DEFINITION. The state of the engine as plain data: every register, queue, buffer, counter, mode and pin the spec names,
the memory of the 48-bit DPA space (01 R14), the queue of waiting commands, and the two stop types.  A field cites the
chapter and rule that name it; a value the model adds of its own says so and names its log entry.
-/
namespace Sys2Proof.Machine

/-- A sparse map of numbered things: pairs with rising keys; a number not listed holds the thing's reset value. -/
abbrev Table (α : Type) := List (Nat × α)

/-! ### The pipeline processors (03, 04, 14) -/

/-- R65: a PP is in leg mode or in pilot mode. -/
inductive PpMode where
  | pilot | leg
  deriving DecidableEq, Repr

/-- What an instruction that has not taken place waits for; it is presented again later (R80, R82, R84, R373). -/
inductive Block where
  | none
  | push (c i : Nat)       -- a full pipe
  | pop (c i : Nat)        -- an empty pipe
  | queueFull
  | wait | drain
  | hostLoad
  | fence
  deriving DecidableEq, Repr

/-- R458: halted for debug, by PP_HALT or by BREAK; `step` runs one instruction and halts again (R456 PP_STEP). -/
inductive DbgHalt where
  | no | byHalt | byBreak | step
  deriving DecidableEq, Repr

/-- The PP executes nothing. -/
def DbgHalt.stops : DbgHalt → Bool
  | .byHalt => true
  | .byBreak => true
  | _ => false

/-- One PP. -/
structure Pp where
  mode     : PpMode
  running  : Option Nat            -- R278 running slot: the leg's number
  nextSlot : Option Nat            -- R278 next-slot
  pc       : Word                  -- 03 Processor model
  x        : Table Word            -- R64 X1–X31; X0 is never stored
  v        : Table VReg            -- R99
  m        : Table VReg            -- R99
  vl       : BitVec 32             -- R99
  vcfg     : BitVec 32
  vresume  : BitVec 32
  vfault   : BitVec 32
  csr      : Table Word            -- R89, R313: CSRs by number, except those that read from elsewhere
  tlb      : Table (Word × Word)   -- R307: valid slots
  l1d      : Table Nat             -- R324: lines present in the L1D and their ways (data equal to the L2's, R325)
  l1dPlru  : Table Nat             -- tree bits per set
  l1i      : Table (Nat × List Byte)  -- R324: lines in the L1I with their ways and the bytes fetched
  l1iPlru  : Table Nat
  halted   : Bool                  -- R93 double trap
  dbg      : DbgHalt               -- R458
  stopPend : Bool                  -- R43, R95: a cut held until PRET
  blocked  : Block                 -- R43 row "blocked on a pipe push or pop", R82, R84
  hostReady : Option (Nat × Bool)  -- R373: DPA line whose host read has returned, and whether it failed
  hostAt   : Option (Nat × Nat)    -- the host read that is out for the instruction that waits: port and DPA
  hostDrop : List (Nat × Nat)      -- R42: port and DPA of abandoned host reads whose completions are still to come
  hostDev  : Bool                  -- R42: the host read that is out is from a page with DEVICE = 1
  ffPast   : Bool                  -- R119: a VLDFF that waits has met an active element
  l1Bad    : List (Bool × Nat)     -- R338: L1I (true) and L1D lines whose parity is wrong
  hostSeen : List (Nat × Nat × Nat)  -- R373: reads already answered of the instruction that waits, in order: DPA, bytes, 0 data, 1 failed, 2 poisoned
  hostLeft : List (Nat × Nat × Nat)  -- those of them that the present attempt has not used yet
  eltAt    : Nat                   -- R121: a pilot-mode vector access that waits has performed the elements below this one
  charged  : Nat                   -- R37: cycles charged in this epoch
  walked   : Option (Word × Word)  -- R322: PPA and entry of the WALK whose result stands in XWSTAT; none after a trap's cause
  deriving DecidableEq, Repr

/-- Blocked in PUSH or POP. -/
def Block.onPipe : Block → Bool
  | .push _ _ => true
  | .pop _ _ => true
  | _ => false

def Pp.reset : Pp :=
  { mode := .pilot, running := none, nextSlot := none, pc := 0, x := [], v := [], m := [], vl := 0, vcfg := 0,
    vresume := 0, vfault := 0, csr := [], tlb := [], l1d := [], l1dPlru := [], l1i := [], l1iPlru := [], halted := false, dbg := .no,
    stopPend := false, blocked := .none, hostReady := none, hostAt := none, hostDrop := [], hostDev := false, ffPast := false, hostSeen := [], hostLeft := [], eltAt := 0, l1Bad := [], charged := 0, walked := none }

/-! ### Legs (02, 11, 12) -/

/-- R266: the fields of a LEG entry; `inlineBlk` is the second slot's 128 bytes (R267). -/
structure LegEntry where
  part      : Nat
  sq        : Nat
  seq       : BitVec 32
  priority  : Nat
  release   : Bool
  inl       : Bool
  cqLocal   : Nat        -- local number of the target CQ
  cq        : Nat        -- its device-wide number, as found when the entry was read and again at admission
  cluster   : Nat        -- 0–63, or 255
  budget    : BitVec 32
  tag       : BitVec 32
  code      : Word
  argp      : Word
  indesc    : Word
  outdesc   : Word
  scratch   : Word
  scratchBytes : Nat
  releaseTime  : Nat
  inlineBlk : List Byte
  deriving DecidableEq, Repr

/-- Where a leg is (R43, R278). -/
inductive LegPlace where
  | ready (c : Nat)
  | delay (q : Nat)
  | next (n : Nat)
  | running (n : Nat)
  | held (c : Nat)
  | closing (n : Nat)     -- exit executed on PP n, close not yet accepted
  | closed (n : Nat)      -- in the closed set of epoch n, or ended in error in it
  deriving DecidableEq, Repr

/-- R46: why a leg is held. -/
inductive HoldKind where
  | quiesce | pilot | stopAll
  deriving DecidableEq, Repr

/-- R57: the place reserved for a completion. -/
inductive Reserv where
  | slot | holding
  deriving DecidableEq, Repr

/-- R82–R84: one of a leg's 16 ticket slots. -/
structure Ticket where
  gen    : Nat
  held   : Bool
  unit   : Nat
  status : Option Word
  deriving DecidableEq, Repr

/-- R268: one output descriptor as firmware read it. -/
structure OutDesc where
  kind : Nat
  rowRetire : Bool
  addr : Word
  bytes : Word
  bvt : Word
  batchCap : Nat
  rowCap : Nat
  rrc : Word
  deriving DecidableEq, Repr

/-- R48: a captured waypoint. -/
structure Waypoint where
  pc : Word
  budgetLeft : Nat
  carries : Nat
  flags : Nat
  snapshot : Word
  startStamp : Word
  stopStamp : Word
  vl : BitVec 32
  vcfg : BitVec 32
  vresume : BitVec 32
  vfault : BitVec 32
  x : Table Word
  csr : Table Word
  v : Table VReg
  m : Table VReg
  deriving DecidableEq, Repr

/-- One leg, from its placement by the LS to the release of its completion. -/
structure Leg where
  entry    : LegEntry
  place    : LegPlace
  home     : Nat               -- cluster of the list, PP, held slot or close
  order    : Nat               -- R279 placement order; R46 hold order
  started  : Bool              -- its first instruction has begun (R51)
  stopped  : Bool              -- R43: stopped by a cut, waiting for the opening of an epoch
  hold     : Option HoldKind
  holdOver : Bool              -- R46: the hold has ended
  used     : Nat               -- R92 BUDGET_USED
  usedAtOpen : Nat             -- R38: cycles used when the charge was made
  charge   : Nat               -- R37: charged in this epoch, 0 while uncharged
  snapshot : Word              -- R51
  startStamp : Word
  batchSeq : Nat               -- R60
  carries  : Nat               -- R48
  tickets  : Table Ticket      -- R82
  retire   : List (Nat × Nat)  -- R88: input descriptor index, row
  batches  : List Nat          -- R158: DPA of each output batch's version entry
  stagedRows : List Nat        -- R50: DPAs of the RETIRE_FIX written when the leg was staged
  outs     : List OutDesc      -- R268
  resv     : Option Reserv     -- R57
  resvOrder : Nat              -- R58: "the slot reservation made last"
  wpSlot   : Option (Nat × Nat) -- R47: cluster and slot
  waypoint : Option Waypoint
  status   : Nat               -- R270
  userCode : Nat               -- R86
  closeStamp : Word            -- R40
  deriving DecidableEq, Repr

/-! ### Operator units (05–10) -/

/-- R81: an accepted operator command. -/
structure UnitCmd where
  leg  : Nat
  part : Nat
  slot : Nat               -- ticket slot
  pp   : Nat
  cmd  : Nat
  desc : Word              -- X[rs1]
  arg  : Word              -- X[rs2]
  imm  : BitVec 32
  order : Nat              -- order of acceptance
  deriving DecidableEq, Repr

/-- R156, R168, R191, R240: a unit's command queue and its running command. -/
structure CmdUnit where
  queue   : List UnitCmd
  running : Option UnitCmd
  done    : Nat            -- the DONE field of the unit's STATE register
  limit   : Nat            -- what DONE may reach before the running command ends
  deriving DecidableEq, Repr

def CmdUnit.reset : CmdUnit := { queue := [], running := none, done := 0, limit := 0 }

/-- R179: one accumulator of an aggregation table. -/
structure AccSpec where
  kind : Nat
  off  : Nat
  typ  : Nat
  nullBit : Nat
  deriving DecidableEq, Repr

/-- R164, R165: one of the HU's 32 table contexts. -/
structure HuTable where
  part : Nat
  num  : Nat
  agg  : Bool
  base : Nat
  granules : Nat
  seed : Word
  kw : Nat
  pw : Nat
  classes : List Nat       -- R171 key classes
  nullable : Bool
  accs : List AccSpec
  legScope : Option Nat    -- R183
  poisoned : Bool          -- R185
  deriving DecidableEq, Repr

/-- R288, R289: a mover channel. -/
structure Channel where
  state    : Nat           -- DM.CH_STATE.STATE
  leg      : Nat
  part     : Nat
  slot     : Nat
  trigger  : Nat
  mode     : Nat
  level    : Nat
  afterCh  : Nat
  count    : Nat
  src      : Word
  dst      : Word
  rowBytes : Nat
  srcStride : Word
  dstStride : Word
  trigArg  : Word
  high     : Nat
  low      : Nat
  rows     : Nat           -- rows or entries moved whole
  off      : Nat           -- bytes moved on the contiguous side of a list
  pos      : Nat           -- bytes moved of the row or entry under way
  item     : Option (Nat × Nat)  -- the list entry under way (ADDR, BYTES), or the popped source of the row (R294)
  buf      : List Byte     -- what the burst under way has read (R290, R300)
  put      : Nat           -- bytes of it already written
  wait     : Bool          -- waits for a completion on a host port (R373)
  mid      : Bool          -- R300: its burst has been granted the port, and the first read of it waits
  retry    : Nat
  drain    : Bool          -- R294
  status   : Nat           -- code once ended
  deriving DecidableEq, Repr

/-- R211: an entry image as the ASA stores it. -/
structure AsaImg where
  prio   : Nat
  result : Nat
  value  : BitVec 256
  mask   : BitVec 256
  deriving DecidableEq, Repr

/-- R211, R221, R223: one slot of a bank: the array with its attribute store, the ECC copy, the two canonical records
and the selector of the current one. -/
structure AsaEntry where
  valid : Bool
  quarantined : Bool
  arr   : AsaImg
  ecc   : AsaImg
  eccState : Ecc
  canon0 : Option AsaImg
  canon1 : Option AsaImg
  sel   : Bool
  fbs : List Bool          -- R223: the canonical records that fallback reads are outstanding for, oldest first
  deriving DecidableEq, Repr

/-- R216. -/
structure AsaCursor where
  leg  : Nat
  name : Word
  first : Nat
  part : Nat
  key  : BitVec 256
  pos  : Option (Nat × Nat)
  order : Nat
  stale : Bool := false    -- R217: the set has changed owner since
  deriving DecidableEq, Repr

/-- The command queues of one ASA set, held under its first bank. -/
structure AsaSet where
  sq : List UnitCmd
  srun : Option UnitCmd
  uq : List UnitCmd
  urun : Option UnitCmd
  sdesc : Option (List Byte)  -- the running SEARCH's or NEXT's descriptor, once it has passed its start checks
  sidx : Nat               -- keys or steps done
  ssel : Nat               -- ROWS_SELECTED so far
  sdisc : List Nat         -- R223: entries discarded for the current key
  sprop : Option (Nat × AsaEntry)  -- entry whose fallback read the search waits for, as the search cycle read it
  slist : List (Nat × Nat × AsaEntry)  -- the proposals of that cycle behind it: rank, key, entry
  sres : Option (Nat × Option AsaImg)  -- what that read came to: the image that confirmed it, or none
  udesc : Option (List Byte)
  uidx : Nat               -- images committed by the running UPDATE
  ustop : Option Nat       -- code at which it stopped
  deriving DecidableEq, Repr

def AsaSet.reset : AsaSet := 
  { sq := [], srun := none, uq := [], urun := none, sdesc := none, sidx := 0, ssel := 0, sdisc := [], sprop := none, slist := [],
    sres := none, udesc := none, uidx := 0, ustop := none }

/-- R247: the fields of a DIGEST descriptor. -/
structure DigD where
  algo : Nat
  list : Nat
  bytes : Nat
  addr : Nat
  out : Nat
  deriving DecidableEq, Repr

/-- R252: what a digest unit holds of a job at a block boundary: its descriptor, the bytes absorbed, the gather entry to be read next,
what is left of the entry reached, and the chaining state. -/
structure DuCtx where
  d : DigD
  count : Nat
  next : Nat
  addr : Nat
  left : Nat
  chain : List Word
  deriving DecidableEq, Repr

/-- R247–R252: a digest job. -/
structure DuJob where
  leg  : Nat
  part : Nat
  slot : Nat
  desc : Word
  cls  : Nat
  capped : Bool
  bad : Bool               -- RS2 above 3 or IMM32 not zero (R247)
  preempted : Bool
  start : Option Word      -- when it first began on a unit (R252)
  ctx : Option DuCtx       -- none until a unit saves it
  order : Nat
  deriving DecidableEq, Repr

/-- R252: a digest unit with its saved contexts. -/
structure DuUnit where
  running : Option DuJob
  saved : List DuJob
  blocks : Nat             -- BLOCKS_DONE of the running job
  limit : Nat              -- the most that it can show
  bytes : Nat
  deriving DecidableEq, Repr

def DuUnit.reset : DuUnit := { running := none, saved := [], blocks := 0, limit := 0, bytes := 0 }

/-! ### Caches and clusters (15) -/

/-- R324: an L2 line. -/
structure L2Line where
  way : Nat
  dirty : Bool
  poison : Bool
  data : List Byte             -- 64 bytes
  deriving DecidableEq, Repr

/-- R332: a pipe. -/
structure Pipe where
  part : Nat
  depthLog2 : Nat
  way : Nat
  set : Nat
  entries : List Word
  head    : Nat            -- place of the oldest entry in its lines
  flaws   : List Nat       -- R338: positions of uncorrectable entries, oldest entry 0
  deriving DecidableEq, Repr

/-- R328: a stream of the prefetcher. -/
structure Stream where
  req : Nat
  last : Nat
  up : Bool
  confirmed : Bool
  deriving DecidableEq, Repr

/-- R312: a walk cache entry: partition, stage (0, 1; 2 for the STT), entry address and the entry. -/
structure WalkEntry where
  part : Nat
  stage : Nat
  addr : Nat
  entry : Word
  deriving DecidableEq, Repr

/-- R315: a cached translation of a unit TLB or of the STU. -/
structure XEntry where
  part : Nat
  va : Nat
  ppa : Nat            -- what the first stage gives; the address itself in the STU
  sizeLog2 : Nat
  dpa : Nat
  r : Bool
  w : Bool
  x : Bool
  device : Bool
  vcol : Bool
  deriving DecidableEq, Repr

/-- R333: a maintenance operation. -/
inductive MaintOp where
  | clean | invalidate | cleanInv | cleanAll | invAll
  deriving DecidableEq, Repr

/-- One cluster (01 R8). -/
structure Cluster where
  wayCfg   : Word              -- QC.L2_WAYCFG (R330)
  waysOut  : List Nat          -- ways leaving NORMAL, while WAY_BUSY
  l2       : Table L2Line      -- by line number (DPA / 64)
  plru     : Table Nat         -- tree pseudo-LRU bits per set (R324)
  side     : List (Nat × List Byte)  -- prefetch side buffer, least recently filled first (R328)
  streams  : List Stream       -- R328
  fills    : List Nat          -- prefetch reads in flight (R328)
  l2En     : Bool              -- QC.L2_CTL.ENABLE (R337)
  drained  : Bool
  prefetch : Bool
  pfDepth  : Nat
  maintAddr : Word             -- QC.L2_MAINT_ADDR
  maintOp  : Nat               -- QC.L2_MAINT_CTL.OP
  maintLines : Nat
  maintDone : Bool
  maintWait : Option (MaintOp × Nat × Nat)   -- R337: a GO waiting for DRAINED
  flaws    : Table Nat         -- R338: L2 lines in which a corrected (1) or uncorrectable (2) error stands
  sideBad  : List Nat          -- side buffer lines whose parity is wrong
  errL1    : Nat               -- QC.L2_ERR (R338)
  errCorr  : Nat
  errUnc   : Nat
  pipes    : Table Pipe        -- R332
  walk     : List WalkEntry    -- R312
  walkMiss : Nat               -- QC.WALK_CACHE.MISSES
  unitTlb  : List XEntry       -- R315
  upu      : CmdUnit
  upuRows  : Nat               -- UPU.ROWS_EXAMINED
  decodeOut : Nat              -- UPU.DECODE_OUT
  hu       : CmdUnit
  huRows   : Nat               -- HU.ROWS_TREATED
  huRel    : List (Nat × Nat)  -- R183: releases in the HU's command order: the closed leg, and the order of acceptance they follow
  huSent   : Nat               -- R175: the record behind the last one that the running command has sent
  huFault  : Option (Ecc × Nat) -- R185: the join store error that the running command has met, and its record
  tables   : List HuTable      -- R164
  owner    : Table (BitVec 32) -- HU.GRANULE_OWNER (R163)
  store    : Table Word        -- join store by word, 8 words a line (R165); a word of 0 is not listed
  firsts   : List Nat          -- R179: words of FIRST accumulators that have taken a value
  su       : CmdUnit
  suOut    : Nat               -- SU.RECORDS_OUT
  cmp      : CmdUnit
  cmpPhase : Nat               -- QC.CMP_STATE.PHASE
  cmpStamp : Word              -- R238 STAMP: when the compressor began the running block
  cmpComp  : Nat               -- QC.CMP_BLOCKS
  cmpRaw   : Nat
  cmpFail  : Nat               -- QC.CMP_VERIFY_FAIL
  dm       : Table Channel     -- R288
  dmRetryMax : Nat             -- DM.CTL
  dmBytes  : Nat
  dmRetries : Nat
  dmHold   : Option Nat        -- R300: the channel whose burst holds the grant
  dmTurn   : Table Nat         -- R300: channel granted last at each level; 8 for firmware's channels
  admitted : Nat               -- LS.ADMITTED
  deriving DecidableEq, Repr

def Cluster.reset : Cluster :=
  { wayCfg := 0, waysOut := [], l2 := [], plru := [], side := [], streams := [], fills := [], l2En := true,
    drained := true, prefetch := true, pfDepth := 3, maintAddr := 0, maintOp := 0, maintLines := 0, maintDone := true,
    maintWait := none, flaws := [], sideBad := [], errL1 := 0, errCorr := 0, errUnc := 0, pipes := [], walk := [], walkMiss := 0, unitTlb := [],
    upu := .reset, upuRows := 0, decodeOut := 0, hu := .reset, huRows := 0, huRel := [], huSent := 0, huFault := none, tables := [], owner := [], store := [], firsts := [],
    su := .reset, suOut := 0, cmp := .reset, cmpPhase := 0, cmpStamp := 0, cmpComp := 0, cmpRaw := 0, cmpFail := 0, dm := [],
    dmRetryMax := 3, dmBytes := 0, dmRetries := 0, dmHold := none, dmTurn := [], admitted := 0 }

/-! ### Queues, partitions and the administrative pair (11, 14, 17) -/

/-- R480, R373: a fetch of SQ entries in flight or waiting to be issued again. -/
structure Fetch where
  first : BitVec 32
  count : Nat
  fails : Nat
  waiting : Bool               -- failed, waits for its retry (1 µs) or for the link
  upTo : BitVec 32             -- P when the read was issued
  dpa : Nat                    -- where the first slot lies
  linkDown : Bool
  deriving DecidableEq, Repr

/-- R257–R265: a submission or completion queue. -/
structure Queue where
  exist : Bool
  part  : Nat
  ln    : Nat
  event : Nat
  enable : Bool
  base  : Word                 -- live ring base
  sizeLog2 : Nat               -- live size
  shBase : Word                -- shadow (RWS)
  shSize : Nat
  applyErr : Bool
  p     : BitVec 32
  c     : BitVec 32
  fetch : Option Fetch
  slots : List (List Byte)         -- R262, R282: slots read once and not yet passed, from index C on
  deriving DecidableEq, Repr

def Queue.reset : Queue :=
  { exist := false, part := 0, ln := 0, event := 0, enable := false, base := 0, sizeLog2 := 0, shBase := 0, shSize := 0,
    applyErr := false, p := 0, c := 0, fetch := none, slots := [] }

/-- R269: a completion entry on its way to a CQ. -/
structure Completion where
  part : Nat
  sq : Nat
  seq : BitVec 32
  status : Nat
  userCode : Nat
  tag : BitVec 32
  fix : Word
  stamp : Word
  cq : Nat
  deriving DecidableEq, Repr

/-- R306: the live translation set of a partition. -/
structure Xlat where
  enable : Bool
  compat : Bool
  faultLog2 : Nat
  s1 : Word
  s2 : Word
  stt : Word
  fb : Word
  deriving DecidableEq, Repr

def Xlat.reset : Xlat := { enable := false, compat := false, faultLog2 := 0, s1 := 0, s2 := 0, stt := 0, fb := 0 }

/-- R405: a shuffle inbox. -/
structure Inbox where
  base : Word
  bytes : Nat
  fill : Nat
  records : Nat
  deriving DecidableEq, Repr

/-- R360, R361: a quiesce in progress: the fix that must be sealed first, and the commands that complete with it. -/
structure Quiesce where
  tick : Nat
  cids : List (BitVec 16 × BitVec 32)
  resume : List (BitVec 16 × BitVec 32)   -- R362: RESUMEs waiting for it
  deriving DecidableEq, Repr

/-- One partition (R354, QM.PART_STATE, QM.PART_CFG). -/
structure Part where
  exist : Bool
  quiesced : Bool
  quenched : Bool
  halted : Bool
  haltCause : Nat
  haltQueue : Nat
  haltIndex : BitVec 32
  pasid : Nat
  hostPort : Nat
  clusters : Word
  classM : Bool
  ceiling : Nat
  quiesce : Option Quiesce
  quenching : List (BitVec 16 × BitVec 32)   -- R274: QUENCH_PARTITIONs that wait for the effect
  quenchGo : Bool                            -- R274: a quench has started and has not taken effect
  xlat : Xlat                  -- live set
  shXlat : Xlat                -- shadow
  xlatErr : Bool
  faultN : Nat                 -- R322
  holding : List Completion    -- R57, R58: completion holding buffer, oldest first
  linkHeld : List (Completion × Reserv)   -- R483: completions not yet posted because the link is down, with their reservations
  inboxes : Table Inbox
  deriving DecidableEq, Repr

def Part.reset : Part :=
  { exist := false, quiesced := false, quenched := false, halted := false, haltCause := 0, haltQueue := 0, haltIndex := 0,
    pasid := 0, hostPort := 0, clusters := 0, classM := false, ceiling := 0, quiesce := none, quenching := [],
    quenchGo := false, xlat := .reset, shXlat := .reset, xlatErr := false, faultN := 0, holding := [], linkHeld := [],
    inboxes := [] }

/-- R272: an administrative completion that waits to be posted. -/
structure AdminCpl where
  cid : BitVec 16
  status : Nat
  opcode : Nat
  result : Word
  stamp : Word
  idx : BitVec 32
  deriving DecidableEq, Repr

/-- The administrative pair (R271, R272, QM.ADMIN_*). -/
structure Admin where
  sqBase : Word
  cqBase : Word
  sqSize : Nat
  cqSize : Nat
  shSqBase : Word
  shCqBase : Word
  shSqSize : Nat
  shCqSize : Nat
  enable : Bool
  applyErr : Bool
  failStopped : Bool
  faultCause : Nat
  sqP : BitVec 32
  sqC : BitVec 32
  cqP : BitVec 32
  cqC : BitVec 32
  resv : Nat                   -- CQ slots reserved for fetched commands
  fetch : Option Fetch
  waiting : List AdminCpl      -- ready, not yet posted
  deriving DecidableEq, Repr

def Admin.reset : Admin :=
  { sqBase := 0, cqBase := 0, sqSize := 0, cqSize := 0, shSqBase := 0, shCqBase := 0, shSqSize := 0, shCqSize := 0,
    enable := false, applyErr := false, failStopped := false, faultCause := 0, sqP := 0, sqC := 0, cqP := 0, cqC := 0,
    resv := 0, fetch := none, waiting := [] }

/-! ### The fix coordinator (02, 19) -/

/-- R34: a checked set of group EPOCH; the share table by partition (R359). -/
structure EpochSet where
  lenUs : Nat
  run : Bool
  deadline : Nat
  lostFixes : Nat
  share : Table Nat
  deriving DecidableEq, Repr

def EpochSet.reset : EpochSet := { lenUs := 100, run := false, deadline := 8000, lostFixes := 4, share := [] }

/-- R484: a fix whose tick has been cut and which is not yet sealed. -/
structure Fix where
  tickStamp : Word
  lenUs : Nat
  cut : List Nat               -- clusters that have not reported their cut done (R42)
  carriedLegs : Nat            -- LEGS_CARRIED
  newSet : Bool                -- FLAGS[3]
  readySent : Bool             -- R400
  fixIn : Option (Bool × Nat × BitVec 16)   -- R61: FIX(N) received: carry, lost, members
  last : Bool                  -- the last tick (R35, R277, R398 LAST)
  deriving DecidableEq, Repr

/-- The FC. -/
structure Fc where
  chrono : Word                -- FC.CHRONO (R30)
  live : EpochSet
  sh : EpochSet                -- shadow of group EPOCH (RWS)
  pending : Option (EpochSet × Bool)   -- R34; the flag: APPLY older than the last TICK sent (R399)
  applyErr : Bool
  ticking : Bool
  epoch : Nat                  -- number of the running epoch
  epochLen : Nat               -- LEN_US in force for it
  cclk : Nat                   -- CCLK in MHz now (R26, R423)
  capMhz : Nat                 -- CCLK in MHz that holds for the running epoch's capacities (R36, R423)
  open' : Bool                 -- R286: the epoch has opened
  lastTick : Word              -- TICK_STAMP(epoch − 1)
  nextTick : Word              -- TICK_STAMP(epoch)
  tickLast : Bool              -- R398: the TICK held for this epoch carries LAST
  tickHeld : Bool              -- a TICK(epoch) is held (member)
  fixes : Table Fix
  sealed : Word                -- FC.SEALED_FIX (R51)
  sealedIn : Nat               -- R361: the epoch in which a fix that is no chain carry was last sealed
  prevCrc : BitVec 32          -- CRC of the record written last (R53)
  late : Bool                  -- R434: E_KS_RESERVE_LATE logged for the fix held
  noSeal : Bool                -- R417, R463: the engine seals no further fix
  ready : Table (BitVec 16)    -- R61: units whose FIX_READY(N) the head holds
  misses : Table Nat           -- R63: consecutive carries each unit has caused
  downSeen : BitVec 16         -- R402: units whose CHAIN_DOWN the head has received
  noFix : Nat                  -- R401: consecutive ticks without a FIX
  lostFixes : Nat              -- R398: LOST_FIXES of the TICK held last
  fixEarly : Table (Bool × Nat × BitVec 16)  -- FIX received before the unit's own tick
  tickEarly : Option (Nat × Word × Nat × Bool × Nat)  -- TICK received before the unit's own tick: N, stamp, LEN_US, LAST, LOST_FIXES
  slew : Int                   -- R398: ns that the chronometer has still to gain or lose
  slewHold : Bool              -- the chronometer has just stood still for 1 ns
  deriving DecidableEq, Repr

/-! ### Ports, drives, chain (18, 19) -/

/-- One host port (R368, R375, HP.*). -/
structure HostPort where
  lanes : Nat                  -- R369: lanes of the link the straps give the port; 0 none
  linkUp : Bool
  speed : Nat
  width : Nat
  mgmt : Bool
  vc1 : Bool
  timeouts : Nat
  cplTimeout : Nat
  roData : Bool
  msixEn : Bool
  unmasked : List Nat          -- R375: vectors whose Vector Control does not mask them
  msixTab : Table (BitVec 32)  -- R370: the address and data words of the MSI-X table, by word of BAR4
  pba : List Nat
  deriving DecidableEq, Repr

def HostPort.reset : HostPort :=
  { lanes := 0, linkUp := false, speed := 0, width := 0, mgmt := false, vc1 := false, timeouts := 0, cplTimeout := 200, roData := true,
    msixEn := false, unmasked := [], msixTab := [], pba := [] }

/-- One drive port (R376, NP.PORT_STATE). -/
structure Drive where
  linkUp : Bool
  speed : Nat
  width : Nat
  ready : Bool
  ioq : Nat
  depth : Nat
  xfer : Nat
  unusable : Bool
  commands : Nat
  ns : List NsInfo
  deriving DecidableEq, Repr

def Drive.reset : Drive :=
  { linkUp := false, speed := 0, width := 0, ready := false, ioq := 0, depth := 0, xfer := 0, unusable := false,
    commands := 0, ns := [] }

/-- R378: the fields of a grant set. -/
structure GrantSet where
  nsid : Nat
  port : Nat
  part : Nat
  sizeLog2 : Nat
  writeOk : Bool
  enable : Bool
  ring : Word
  first : Word
  count : Word
  deriving DecidableEq, Repr

def GrantSet.reset : GrantSet :=
  { nsid := 0, port := 0, part := 0, sizeLog2 := 0, writeOk := false, enable := false, ring := 0, first := 0, count := 0 }

/-- One grant (R378–R380). -/
structure Grant where
  live : GrantSet
  sh : GrantSet
  applyErr : Bool
  head : BitVec 32
  ctl : Nat                    -- DPA of the control line
  notified : Bool              -- R380: a pass is due
  deriving DecidableEq, Repr

def Grant.reset : Grant := { live := .reset, sh := .reset, applyErr := false, head := 0, ctl := 0, notified := false }

/-- R381: a drive request that has been read. -/
structure DriveReq where
  grant : Nat
  idx : BitVec 32
  op : Nat
  part : Nat
  lba : Nat
  blocks : Nat
  buf : Word
  result : Word
  fua : Bool                   -- R387
  nsid : Nat
  push : Bool
  pipe : Word
  tag : Word
  status : Nat                 -- STATUS so far
  statusLba : Nat              -- LBA of the command that set it (R383)
  sc : Nat
  bytes : Nat
  issue : Option Word          -- ISSUE_STAMP, once a command has been issued
  open' : Nat                  -- commands outstanding
  pushWait : Bool              -- R382: the push waits for a full pipe
  deriving DecidableEq, Repr

/-- A command of a request: outstanding on a drive, or waiting for room on its queue pair (R377, R381). -/
structure DriveCmd where
  drive : Nat
  qp : Nat                     -- R377: grant number mod IOQ
  issued : Bool
  win : Nat                    -- R377: base of its window of drive-side bus addresses, a free value
  req : Nat
  lba : Nat
  bytes : Nat
  pages : List (Nat × Nat)     -- the window: pieces of the buffer as (DPA, bytes)
  deriving DecidableEq, Repr

/-- A DATA flit as sent: its FIRST, LAST and CLASS, and its payload (R393). -/
structure TxFlit where
  first : Bool
  last : Bool
  cls : Nat
  payload : List Byte
  deriving DecidableEq, Repr

/-- What waits to be sent on a link: a message of a class, or the rest of one that another link has held (R394). -/
structure TxMsg where
  cls : Nat
  flits : List TxFlit
  resent : Bool                -- flits of a failed link; their SEND_STAMP stands
  deriving DecidableEq, Repr

/-- One chain link (R393–R395, CL.LINK_STATE). -/
structure Link where
  up : Bool
  latency : Nat
  retrains : Nat
  replays : Nat
  txSeq : Nat                  -- next SEQ to send
  rxSeq : Nat                  -- next SEQ expected
  unacked : List (Nat × TxFlit) -- flits kept, with their SEQ (R394)
  txQ : List TxMsg             -- messages that wait for credit
  credits : List Nat           -- credits held for classes 0–2 (R395)
  owed : List Nat              -- credits to return (R393 RC0–RC2)
  rx : List (List Byte)        -- payloads of the message being received
  rxClass : Nat
  rxHold : Table (List (List Byte)) -- R394: by class, the part of a message that a failed link of the bundle had received
  noProgress : Nat             -- consecutive resends without progress
  training : Bool
  probes : Nat                 -- PROBE exchanges done
  rttSum : Nat
  deriving DecidableEq, Repr

def Link.reset : Link :=
  { up := false, latency := 0, retrains := 0, replays := 0, txSeq := 0, rxSeq := 0, unacked := [], txQ := [],
    credits := [0, 0, 0], owed := [0, 0, 0],
    rx := [], rxClass := 0, rxHold := [], noProgress := 0, training := false, probes := 0, rttSum := 0 }

/-- R175: a shuffle whose acknowledgements are outstanding. -/
structure ShuffleWait where
  cluster : Nat
  stream : BitVec 32
  unit : Nat
  first : Nat
  count : Nat
  deriving DecidableEq, Repr

/-- The chain block (CL.*). -/
structure Chain where
  mode : Nat                   -- CL.STATE.MODE: 0 standalone, 1 head, 2 member
  status : Nat                 -- CL.STATE.STATUS
  address : Nat
  units : Nat
  size : Nat                   -- units at enumeration (R390)
  fresh : Bool                 -- no TICK has been sent or taken since the chain reset (R390 steps 4 and 5, R398)
  ring : Bool
  members : BitVec 16
  carries : Nat
  replayMax : Nat
  links : Table Link
  shuffles : List ShuffleWait
  shuffleEnd : List (BitVec 32 × Nat × Nat)  -- STREAM, first record not delivered, status code (R175)
  refused : List (Nat × Nat)   -- R406: (unit, STREAM) whose later records are refused
  maxStamp : Word              -- R390: token values
  maxFix : Word
  relayAddr : Word
  relayData : Word
  relayUnit : Nat
  relayWrite : Bool
  relayWide : Bool
  relayOutW : Bool             -- WRITE of the outstanding request (R407)
  relayDone : Bool
  relayStatus : Nat
  token : BitVec 16
  deriving DecidableEq, Repr

/-! ### Memory controllers (16) -/

/-- R343: a request in a controller queue. -/
structure MemReq where
  id : Nat
  ch   : Nat                   -- pseudo-channel of the stack, or subchannel of the channel
  rank : Nat                   -- R345: the rank of the channel, or the pseudo-channel again
  line : Nat
  write : Bool
  stamp : Word
  cluster : Nat                -- who receives the fill
  known : Bool                 -- what it finds was settled when it was accepted: an uncorrectable line, or a far atomic
  deriving DecidableEq, Repr

/-- R347: an entry of an activate tracking table. -/
structure ActEntry where
  row : Nat
  count : Nat
  deriving DecidableEq, Repr

/-- One controller (DC.*). -/
structure Dc where
  state : Nat
  rate : Nat
  dimms : Nat
  x4 : Bool
  repaired : Nat
  capGib : Nat
  ranks : Nat                  -- DDR5 ranks of the channel
  threshold : Nat
  directed : Bool
  owed : Table Nat             -- by rank or pseudo-channel (R345)
  hot : Bool                   -- the doubled rate in force
  hotNext : Bool               -- takes effect from the next tREFI (R346)
  temps : Table Int            -- R346: the readings of the channel's DIMMs, or of the stack (0), in 0.1 °C
  targeted : Nat
  corrected : Nat
  uncorrectable : Nat
  poisonWrites : Nat
  errLine : Nat
  errValid : Bool
  act : Table (List ActEntry)  -- by bank
  queue : List MemReq
  draining : List Nat          -- channels whose write drain has started (R343)
  fixups : List Nat            -- corrected lines waiting to be written back (R350)
  turns : Nat                  -- the model's: free values of the controller used so far (log entry 14)
  bursts : Table Nat           -- the model's: bursts of owed refreshes ended so far, by rank or pseudo-channel (log entry 14)
  deriving DecidableEq, Repr

def Dc.reset : Dc :=
  { state := 0, rate := 0, dimms := 0, x4 := false, repaired := 0, capGib := 0, ranks := 0, threshold := 0x400, directed := false,
    owed := [], hot := false, hotNext := false, temps := [], targeted := 0, corrected := 0, uncorrectable := 0, poisonWrites := 0,
    errLine := 0, errValid := false, act := [], queue := [], draining := [], fixups := [], turns := 0, bursts := [] }

/-! ### Errors, events and register access (20, 24) -/

/-- R460. -/
structure ErrEntry where
  code : Nat
  severity : Nat
  restored : Bool
  inst : Nat
  part : Nat
  count : Nat
  detail : Word
  first : Word
  last : Word
  deriving DecidableEq, Repr

/-- The error log and QM.ERRLOG_IDX. -/
structure ErrLog where
  slots : Table ErrEntry
  newest : BitVec 32
  writes : BitVec 32
  deriving DecidableEq, Repr

/-- R414, R415: a requester's latches; a tag is the register's offset. -/
structure Latch where
  who : Requester
  readTag : Option Nat
  readHi : BitVec 32
  writeTag : Option Nat
  writeHi : BitVec 32
  deriving DecidableEq, Repr

/-- R419: an access that waits at the fabric. -/
structure Stall where
  who : Requester
  offset : Nat
  width : Nat
  write : Bool
  value : Word
  timed : Bool                 -- the reply timer runs for it (R420)
  made : Bool                  -- an access of a PP's instruction, which completes with that instruction
  token : Option (BitVec 16)   -- R407: TOKEN of a relayed access that another unit sent
  deriving DecidableEq, Repr

/-- PM.REG_ERR. -/
structure RegErr where
  cause : Nat
  write : Bool
  path : Nat
  source : Nat
  valid : Bool
  offset : Nat
  count : Nat
  deriving DecidableEq, Repr

/-- What leaves the engine: posted writes, messages, pins and answers that no register holds. -/
inductive Out where
  | hostWrite (port : Nat) (pasid : Option Nat) (addr : Nat) (bytes : List Byte) (ro vc1 : Bool)
  | hostRead (port : Nat) (pasid : Option Nat) (addr len : Nat) (vc1 : Bool)
  | hostUr (port : Nat)
  | msix (port vector : Nat)
  | flit (link : Nat) (kind : Nat) (bytes : List Byte)
  | reg (who : Requester) (value : Word)
  | regBusError (who : Requester)
  | mctp (code : Nat) (body : List Byte)
  | tap (bits : Nat)
  | pin (name : String) (level : Bool)
  | drive (port qp nsid op : Nat) (fua : Bool) (lba bytes win : Nat)
  | driveUr (port : Nat)
  | leak (name : String)
  deriving DecidableEq, Repr

/-- A non-posted read on a host port (R17, R373): its requester, port, PASID, DPA and bytes. -/
structure HostRead where
  req  : HostReq
  port : Nat
  pasid : Option Nat
  dpa  : Nat
  len  : Nat
  deriving DecidableEq, Repr

/-! ### Power, keep store, boot, debug (21–23, 25) -/

/-- The power manager, reset sequencer and boot state (PM.*). -/
structure Pm where
  throttled : Bool
  pfail : Bool
  pfailCause : Nat
  senseMv : Nat
  hupReady : Bool
  throttles : Nat
  frozen : Bool                -- R426: frozen, or every clock stopped (R479)
  saving : Bool
  saveDone : Bool
  resetWait : Option Nat       -- R439: cause of a device reset requested before SAVE_DONE
  inReset : Bool               -- held in reset, boot not started
  resetPin : Bool              -- RESET_N low
  gated : List Nat             -- quadrants whose CCLK gate is closed (R419)
  coresDown : List Nat         -- R11
  stage : Nat                  -- PM.BOOT_STATE
  bootDone : Bool
  copy : Nat
  svn : Nat
  minSvn : Nat                 -- fused minimum (R443)
  svnCommit : Bool             -- COMMIT_SVN of the image booted (R443)
  resetCause : Nat
  refLost : Bool
  bootMs : Nat
  temps : List Int             -- R476: last readings in 0.1 °C
  tripped : Bool               -- THERMTRIP_N held low (R479)
  powerDw : Nat                -- package power in 0.1 W (R445)
  smbAddr : Nat
  eid : BitVec 8               -- MCTP endpoint ID
  cclkBase : Nat               -- CCLK before throttle, MHz (R26, R28)
  deriving DecidableEq, Repr

/-- The registers of the KS block. -/
structure KsRegs where
  armed : Bool
  protOff : Bool
  current : Nat
  erasing : Bool
  sparePct : Nat
  resFix : Word                -- KS.RESERVED_FIX: H
  resStamp : Word              -- KS.RESERVED_STAMP: TH
  outcome : Nat                -- KS.RESTORE
  slotNo : Nat
  poison : Nat
  saveUs : Nat
  seq : Word                   -- KS.SAVE_SEQ
  deriving DecidableEq, Repr

/-- The configuration registers of one cluster (R330, R333, R163, R299). -/
structure ClusterCfg where
  wayCfg : Word
  l2En : Bool
  prefetch : Bool
  pfDepth : Nat
  maintAddr : Word
  maintOp : Nat
  maintLines : Nat
  owner : Table (BitVec 32)
  dmRetryMax : Nat
  deriving DecidableEq, Repr

/-- R428: the on-die state that a save captures at the freeze: both copies of every configuration register (plain registers, group EPOCH,
the rings, the administrative pair, the translation sets, grants, ports, controllers, the event map, the ASA's banks and the clusters),
the error log, the PM, KS and CL state, FC.SEALED_FIX and the chronometer. -/
structure OnDie where
  regs : Table Word
  epochLive : EpochSet
  epochSh : EpochSet
  admin : Admin
  parts : Table Part
  sqs : Table Queue
  cqs : Table Queue
  grants : Table Grant
  hps : Table HostPort
  dcs : Table Dc
  evtMap : Table (BitVec 32)
  asaCfg : Table (BitVec 32)
  clusters : Table ClusterCfg
  err : ErrLog
  pm : Pm
  ks : KsRegs
  chain : Chain
  sealed : Word
  chrono : Word
  deriving DecidableEq, Repr

/-- R432: a slot header. -/
structure SlotHdr where
  cause : Nat
  seq : Word
  lastFix : Word
  saveUs : Nat
  poison : Nat
  crc : BitVec 32              -- DATA_CRC
  unit : Nat
  units : Nat
  hdrCrc : BitVec 32           -- CRC
  deriving DecidableEq, Repr

/-- R432: what a keep store slot holds. -/
structure KsSlot where
  programmed : Bool
  hdr : Option SlotHdr
  keep : List Host.Cell        -- the keep region
  poisoned : List Nat
  onDie : Option OnDie         -- R428
  dataCrc : BitVec 32          -- CRC-32C of the data as they read
  deriving DecidableEq, Repr

def KsSlot.reset : KsSlot := { programmed := false, hdr := none, keep := [], poisoned := [], onDie := none, dataCrc := 0 }

/-- The keep store controller (KS.*). -/
structure Ks where
  armed : Bool
  protOff : Bool
  current : Nat
  erasing : Bool
  sparePct : Nat
  resFix : Word                -- KS.RESERVED_FIX: H
  resStamp : Word              -- KS.RESERVED_STAMP: TH
  logged : Option (Word × Word) -- reservation log in the keep store: H and TH
  outcome : Nat                -- KS.RESTORE
  slotNo : Nat
  poison : Nat
  saveUs : Nat
  seq : Word                   -- KS.SAVE_SEQ
  slot0 : KsSlot
  slot1 : KsSlot
  captured : Option OnDie      -- R426, R428: on-die state as it stood at the freeze
  prior : Option OnDie         -- R431: what the prior-state area holds
  deriving DecidableEq, Repr

/-- R450–R456. -/
structure Dbg where
  ir : Nat                     -- TAP instruction register (R452); IDCODE at TRST (log entry 25)
  scan : List Bool             -- boundary-scan register, as last shifted in (R452)
  fieldLock : Bool
  lockSeen : Bool              -- PM.DBG_STATE.FIELD_LOCK and HASH_SET: the fuses as firmware loaded them at boot
  hashSeen : Bool
  obsHash : BitVec 256
  hashParts : Table Word       -- FUSE_HASH parts written so far
  scope : Nat                  -- 0 CLOSED, 1 OBSERVE, 2 FULL
  fails : Nat
  lockedOut : Bool
  nonce : Option (BitVec 256 × Word)   -- live nonce and its capture stamp
  attempts : Nat
  op : Nat                     -- result of the last DBG_ACCESS command
  status : Nat
  done : Bool
  data : Word
  deriving DecidableEq, Repr

/-! ### The whole engine -/

structure State where
  pending : List Instr         -- commands that wait, first in first out
  freeSeq : Nat                -- the model's own: index of the next free value (entry 12)
  mem     : List Host.Cell     -- 01 R14: the DPA space; canonical (entry 1)
  bad     : List Nat           -- R350: lines (DPA / 64) that read as uncorrectable
  hostBad : Table Nat          -- host-window lines whose last completion failed (1) or was poisoned (2) (R373)
  hostWant : List HostRead     -- R373: reads out on a host port for a requester other than a waiting PP
  hostGot : List (HostRead × Nat)  -- those that have returned and are not yet used: 0 data, 1 failed, 2 poisoned
  hostMiss : Option HostRead   -- the model's own: the read that the command under way lacks; none between commands (entry 9)
  regs    : Table Word         -- plain RW registers by register-space offset (R409); reset values in Registers
  latches : List Latch         -- R414, R415
  stalls  : List Stall         -- R419
  parity  : List Nat           -- R417: 32-bit words whose stored parity is wrong
  parityLive : List Nat        -- R417: words of staged fields, by offset, whose live copy has wrong parity
  regErr  : RegErr
  pps     : Table Pp
  legs    : Table Leg
  nextLeg : Nat                -- number of the next leg record
  order   : Nat                -- placement and acceptance order (R279, R156)
  cls     : Table Cluster
  ioWalk  : List WalkEntry     -- I/O walk cache (302 table)
  ioTlb   : List XEntry        -- I/O unit TLB
  stu     : List XEntry        -- STU slots (R316)
  stuWalk : List WalkEntry     -- STU walk cache
  xinvDone : Bool              -- QM.XLAT_INV_CTL.DONE
  fc      : Fc
  fcClose : Option Nat         -- R50: the leg whose close the FC is staging while a read for it is out
  schedTick : Nat              -- R279 scheduler tick number last run
  sqs     : Table Queue
  cqs     : Table Queue
  admin   : Admin
  parts   : Table Part
  quenchDone : Bool            -- QM.QUENCH_NOW.DONE
  quenchWait : Option Nat      -- partition of the QUENCH_NOW in progress
  copies  : List (Nat × List Byte)   -- R483: copies of READ_* that the management port could not send
  err     : ErrLog
  evtMap  : Table (BitVec 32)  -- QM.EVT_MAP
  evtPend : List Nat           -- QM.EVT_PEND: pending sources, rising
  asaCfg  : Table (BitVec 32)  -- ASA.BANK_CFG
  asa     : Table AsaEntry     -- by bank × 8192 + slot
  asaSets : Table AsaSet
  cursors : List AsaCursor
  asaErr  : List Nat           -- ASA.SOFT_ERR counters 0–3
  duQueue : List DuJob
  dus     : Table DuUnit
  duPreempts : Nat
  dcs     : Table Dc
  ddrSet  : List Nat           -- R352: channels of the interleave set
  ddrGib  : Nat                -- capacity of each
  hps     : Table HostPort
  drives  : Table Drive
  grants  : Table Grant
  reqs    : Table DriveReq
  cmds    : Table DriveCmd
  nextReq : Nat
  chain   : Chain
  pm      : Pm
  ks      : Ks
  dbg     : Dbg
  out     : List Out           -- everything sent, newest first
  deriving DecidableEq, Repr

/-- The stops of a command that may not run.  Nothing in this model raises one (NOTES.md, Stops). -/
inductive Fault where
  /-- Raised by no command: the spec gives every command of the table an effect.  Safe. -/
  | none
  deriving DecidableEq, Repr

/-- Why a command has no meaning here. -/
inductive Refusal where
  /-- An arm whose meaning is not written yet.  Raised by `exec` alone.  Safe. -/
  | notModelled (mnemonic : String)
  deriving DecidableEq, Repr

def Fc.reset : Fc :=
  { chrono := 0, live := .reset, sh := .reset, pending := none, applyErr := false, ticking := false,
    epoch := 1, epochLen := 100, cclk := 1800, capMhz := 1800, open' := false, lastTick := 0, nextTick := 0, tickLast := false,
    tickHeld := false, fixes := [], sealed := 0, sealedIn := 0, prevCrc := 0, late := false, noSeal := false, ready := [], misses := [], downSeen := 0,
    noFix := 0, lostFixes := 4, fixEarly := [], tickEarly := none,
    slew := 0, slewHold := false }

def Chain.reset : Chain :=
  { mode := 0, status := 0, address := 0, units := 1, size := 1, fresh := true, ring := false, members := 0, carries := 0, replayMax := 8, links := [],
    shuffles := [], shuffleEnd := [], refused := [], maxStamp := 0, maxFix := 0, relayAddr := 0, relayData := 0, relayUnit := 0,
    relayWrite := false, relayWide := false, relayOutW := false, relayDone := true, relayStatus := 0, token := 0 }

def Pm.reset : Pm :=
  { throttled := false, pfail := false, pfailCause := 0, senseMv := 0, hupReady := false, throttles := 0, frozen := false,
    saving := false, saveDone := false, resetWait := none, inReset := false, resetPin := false, gated := [], coresDown := [],
    stage := 0, bootDone := false, copy := 0, svn := 0, minSvn := 0, svnCommit := false, resetCause := 0, refLost := false, bootMs := 0,
    temps := [], tripped := false, powerDw := 0, smbAddr := 0, eid := 0, cclkBase := 1800 }

def Ks.reset : Ks :=
  { armed := false, protOff := false, current := 0, erasing := false, sparePct := 0, resFix := 0, resStamp := 0,
    logged := none, outcome := 0, slotNo := 0, poison := 0, saveUs := 0, seq := 0, slot0 := .reset, slot1 := .reset, captured := none, prior := none }

def Dbg.reset : Dbg :=
  { ir := 2, scan := [], fieldLock := false, lockSeen := false, hashSeen := false, obsHash := 0, hashParts := [], scope := 0, fails := 0, lockedOut := false, nonce := none, attempts := 0,
    op := 0, status := 0, done := true, data := 0 }

/-- The engine right after reset: every register at the Reset column of its table; where the spec gives none, the value
of log entry 5. -/
def State.reset : State :=
  { pending := [], freeSeq := 0, mem := [], bad := [], hostBad := [], hostWant := [], hostGot := [], hostMiss := none, regs := [], latches := [], stalls := [], parity := [], parityLive := [],
    regErr := { cause := 0, write := false, path := 0, source := 0, valid := false, offset := 0, count := 0 },
    pps := [], legs := [], nextLeg := 0, order := 0, cls := [], ioWalk := [], ioTlb := [], stu := [], stuWalk := [],
    xinvDone := true, fc := .reset, fcClose := none, schedTick := 0, sqs := [], cqs := [], admin := .reset, parts := [], quenchDone := true,
    quenchWait := none, copies := [],
    err := { slots := [], newest := 0xFFFFFFFF, writes := 0 }, evtMap := [], evtPend := [], asaCfg := [], asa := [],
    asaSets := [], cursors := [], asaErr := [0, 0, 0, 0], duQueue := [], dus := [], duPreempts := 0, dcs := [], ddrSet := [],
    ddrGib := 0, hps := [], drives := [], grants := [], reqs := [], cmds := [], nextReq := 0, chain := .reset, pm := .reset,
    ks := .reset, dbg := .reset, out := [] }

end Sys2Proof.Machine
end

