-- ==== Sys2Proof/Machine/Ops.lean ====
section
/-!
DEFINITION. The named operations on tables, bytes, memory, the error log, events and a PP's registers, and the taking of
a trap (03 R93), which every family shares.
-/
namespace Sys2Proof.Machine

open Sys2Proof

/-! ### Tables -/

def tget? {α : Type} : Table α → Nat → Option α
  | [], _ => none
  | (k, v) :: t, n => if k = n then some v else tget? t n

def tgetD {α : Type} (t : Table α) (n : Nat) (d : α) : α := (tget? t n).getD d

/-- Writes entry `n`, keeping the keys rising. -/
def tput {α : Type} : Table α → Nat → α → Table α
  | [], n, a => [(n, a)]
  | (k, v) :: t, n, a =>
    if n < k then (n, a) :: (k, v) :: t
    else if n = k then (n, a) :: t
    else (k, v) :: tput t n a

def tdel {α : Type} (t : Table α) (n : Nat) : Table α := t.filter (fun e => e.1 ≠ n)

/-- Applies `f` to every entry. -/
def tmap {α : Type} (t : Table α) (f : Nat → α → α) : Table α := t.map (fun e => (e.1, f e.1 e.2))

/-! ### Bytes (R5: little-endian) -/

def leNat : List Byte → Nat
  | [] => 0
  | b :: t => b.toNat + 256 * leNat t

def leBytes : Nat → Nat → List Byte
  | 0, _ => []
  | n + 1, v => BitVec.ofNat 8 v :: leBytes n (v / 256)

/-- Field of `n` bytes at offset `o` of a structure. -/
def fld (bs : List Byte) (o n : Nat) : Nat := leNat ((bs.drop o).take n)

/-- Bits [hi:lo] of a number. -/
def bits (v hi lo : Nat) : Nat := (v >>> lo) % 2 ^ (hi + 1 - lo)

def bit (v i : Nat) : Bool := v.testBit i

def zeros (n : Nat) : List Byte := List.replicate n 0

def b2n (b : Bool) : Nat := if b then 1 else 0

/-- Saturating count. -/
def satInc (v lim : Nat) : Nat := if v < lim then v + 1 else lim

/-- Ceiling division. -/
def cdiv (a b : Nat) : Nat := (a + b - 1) / b

def alignDown (a n : Nat) : Nat := a / n * n

/-! ### CRC-32C (polynomial 0x1EDC_6F41, least significant bit first; R53, R70) -/

def crcBit (c : BitVec 32) : BitVec 32 :=
  if c.getLsbD 0 then (c >>> 1) ^^^ 0x82F63B78#32 else c >>> 1

def crcByte (c : BitVec 32) (b : Byte) : BitVec 32 :=
  let c0 := c ^^^ b.setWidth 32
  crcBit (crcBit (crcBit (crcBit (crcBit (crcBit (crcBit (crcBit c0)))))))

/-- The state after the bytes, least significant first. -/
def crcBytes (c : BitVec 32) (bs : List Byte) : BitVec 32 := bs.foldl crcByte c

/-- The CRC field of R53: state 0xFFFF_FFFF at the start, inverted at the end. -/
def crc32c (bs : List Byte) : BitVec 32 := ~~~ (crcBytes 0xFFFFFFFF#32 bs)

/-! ### Memory -/

/-- A byte of memory; an unlisted address reads 0 (log entry 1). -/
def memGet : List Host.Cell → Nat → Byte
  | [], _ => 0
  | (k, v) :: t, a => if k = a then v else memGet t a

/-- Lists a non-zero byte. -/
def memIns : List Host.Cell → Nat → Byte → List Host.Cell
  | [], a, b => [(a, b)]
  | (k, v) :: t, a, b =>
    if a < k then (a, b) :: (k, v) :: t
    else if a = k then (a, b) :: t
    else (k, v) :: memIns t a b

/-- Writes one byte; writing 0 unlists the address, so equal memories are equal lists. -/
def memPut (m : List Host.Cell) (a : Nat) (b : Byte) : List Host.Cell :=
  if b = 0 then m.filter (fun c => c.1 ≠ a) else memIns m a b

def readBytes (m : List Host.Cell) (a : Nat) : Nat → List Byte
  | 0 => []
  | n + 1 => memGet m a :: readBytes m (a + 1) n

def writeBytes (m : List Host.Cell) (a : Nat) : List Byte → List Host.Cell
  | [] => m
  | b :: t => writeBytes (memPut m a b) (a + 1) t

def readNat (m : List Host.Cell) (a n : Nat) : Nat := leNat (readBytes m a n)

/-- Addresses strictly rise and no listed byte is 0. -/
def memWfFrom : Option Nat → List Host.Cell → Bool
  | _, [] => true
  | lo, (k, v) :: t => (match lo with | none => true | some l => decide (l < k)) && decide (v ≠ 0) && memWfFrom (some k) t

/-- The canonical form of memory. -/
def Memory.wf (m : List Host.Cell) : Bool := memWfFrom none m

/-! ### The DPA map (R14) -/

/-- Where a DPA lies.  `unmapped` is every range that R16 covers. -/
inductive Region where
  | keep
  | engine (k : Nat)
  | hbm
  | ddr
  | host
  | reg
  | unmapped
  deriving DecidableEq, Repr

def hostBase : Nat := 0x800000000000
def regBase : Nat := 0xF00000000000
def ddrBase : Nat := 0x010000000000

/-- R14, R17 (host bus addresses at and above 0x7000_0000_0000 lie at DPA 0xF000_…), R341. -/
def region (s : State) (d : Nat) : Region :=
  if d < 0x10000000 then .keep
  else if d < 0x40000000 then .engine (d / 0x10000000)
  else if d < 0x2400000000 then .hbm
  else if d < ddrBase then .unmapped
  else if d < 0x050000000000 then
    if d - ddrBase < s.ddrSet.length * (s.ddrGib * 0x40000000) then .ddr else .unmapped
  else if d < hostBase then .unmapped
  else if d < regBase then .host
  else if d < 0x1000000000000 then .reg
  else .unmapped

/-! ### Free values -/

/-- A free number and the state that has used it up (log entry 12). -/
def State.free (s : State) : Nat × State := (Config.freeNat s.freeSeq, { s with freeSeq := s.freeSeq + 1 })

/-! ### Parts by number -/

def State.pp (s : State) (n : Nat) : Pp := tgetD s.pps n .reset
def State.setPp (s : State) (n : Nat) (p : Pp) : State := { s with pps := tput s.pps n p }
def State.cl (s : State) (c : Nat) : Cluster := tgetD s.cls c .reset
def State.setCl (s : State) (c : Nat) (k : Cluster) : State := { s with cls := tput s.cls c k }
def State.leg? (s : State) (l : Nat) : Option Leg := tget? s.legs l
def State.setLeg (s : State) (l : Nat) (g : Leg) : State := { s with legs := tput s.legs l g }
def State.part (s : State) (p : Nat) : Part := tgetD s.parts p .reset
def State.setPart (s : State) (p : Nat) (q : Part) : State := { s with parts := tput s.parts p q }
def State.sq (s : State) (q : Nat) : Queue := tgetD s.sqs q .reset
def State.setSq (s : State) (q : Nat) (k : Queue) : State := { s with sqs := tput s.sqs q k }
def State.cq (s : State) (q : Nat) : Queue := tgetD s.cqs q .reset
def State.setCq (s : State) (q : Nat) (k : Queue) : State := { s with cqs := tput s.cqs q k }
def State.hp (s : State) (h : Nat) : HostPort := tgetD s.hps h .reset
def State.setHp (s : State) (h : Nat) (k : HostPort) : State := { s with hps := tput s.hps h k }
def State.dc (s : State) (n : Nat) : Dc := tgetD s.dcs n .reset
def State.setDc (s : State) (n : Nat) (k : Dc) : State := { s with dcs := tput s.dcs n k }
def State.drive (s : State) (d : Nat) : Drive := tgetD s.drives d .reset
def State.setDrive (s : State) (d : Nat) (k : Drive) : State := { s with drives := tput s.drives d k }
def State.grant (s : State) (g : Nat) : Grant := tgetD s.grants g .reset
def State.setGrant (s : State) (g : Nat) (k : Grant) : State := { s with grants := tput s.grants g k }
def State.link (s : State) (l : Nat) : Link := tgetD s.chain.links l .reset
def State.setLink (s : State) (l : Nat) (k : Link) : State :=
  { s with chain := { s.chain with links := tput s.chain.links l k } }
def State.du (s : State) (u : Nat) : DuUnit := tgetD s.dus u .reset
def State.setDu (s : State) (u : Nat) (k : DuUnit) : State := { s with dus := tput s.dus u k }
def State.asaSet (s : State) (b : Nat) : AsaSet := tgetD s.asaSets b .reset
def State.setAsaSet (s : State) (b : Nat) (k : AsaSet) : State := { s with asaSets := tput s.asaSets b k }
def State.emit (s : State) (o : Out) : State := { s with out := o :: s.out }

/-- The chronometer as a number. -/
def State.now (s : State) : Nat := s.fc.chrono.toNat

/-- Clocks other than AONCLK are stopped, or the engine is held in reset (R426, R439, R479): nothing runs. -/
def State.frozen (s : State) : Bool := s.pm.frozen || s.pm.inReset

/-- R352, R369: boot has failed, and the engine takes no command. -/
def State.bootFailed (s : State) : Bool := s.pm.stage == 7

/-- The engine takes no command and ignores doorbells (R277). -/
def State.failStopped (s : State) : Bool := s.admin.failStopped

def quadrant (c : Nat) : Nat := c / 16
def ppCluster (n : Nat) : Nat := n / 4

/-- R389, R390: the engine is in a chain: STATUS is IN_CHAIN. -/
def State.inChain (s : State) : Bool := decide (s.chain.status = 3)

/-! ### Events (R366, R367, R375) -/

def setAdd (l : List Nat) (n : Nat) : List Nat := if l.contains n then l else n :: l

/-- The port sends the message, or holds it with its PBA bit set (R367, R375); a frozen engine sends none (R426). -/
def State.msix (s : State) (port vector : Nat) : State :=
  let h := s.hp port
  if h.linkUp && h.msixEn && h.unmasked.contains vector && !s.frozen then s.emit (.msix port vector)
  else s.setHp port { h with pba := setAdd h.pba vector }

/-- Hands a source's message over when its remap entry is enabled (R367). -/
def State.handOver (s : State) (src : Nat) : State :=
  let e := tgetD s.evtMap src 0
  if e.getLsbD 14 then
    let key := e.setWidth 14
    let s1 := { s with evtPend := s.evtPend.filter (fun k => !((tgetD s.evtMap k 0).getLsbD 14
      && (tgetD s.evtMap k 0).setWidth 14 == key)) }
    s1.msix (bits e.toNat 13 12) (bits e.toNat 11 0)
  else s

/-- Raises a source: its pending bit sets, and an enabled entry hands a message over (R367). -/
def State.raise (s : State) (src : Nat) : State :=
  State.handOver { s with evtPend := setAdd s.evtPend src } src

/-- Source k of partition p (R366). -/
def State.raisePart (s : State) (p k : Nat) : State := s.raise (32 * p + k)

/-! ### The error log (R459, R460, R462) -/

/-- Severity of a code by the catalogue; E_MGMT_CORE_STOP of core 3 and E_REG_PARITY of a partition are named by the
caller through `logSev`. -/
def errSev (code : Nat) : Nat :=
  if code ∈ [0x0401, 0x0404, 0x0502, 0x0503, 0x0505, 0x0506, 0x0801, 0x0802, 0x0901, 0x0903] then 1
  else if code ∈ [0x0102, 0x0103, 0x0104, 0x0302, 0x0402, 0x0403, 0x0405, 0x0601, 0x0803, 0x0902, 0x0904] then 3
  else if code = 0x0204 then 4
  else if code ∈ [0x0504, 0x0906, 0x0B05, 0x0C01, 0x0C02, 0x0C07, 0x0C08, 0x0E01, 0x0E04, 0x0F01, 0x0F02] then 5
  else if code ∈ [0x0205, 0x0303, 0x0703, 0x0905, 0x0A01, 0x0C09, 0x0D02, 0x0E05, 0x0E07, 0x0E08] then 6
  else 2

/-- R460: merges with the newest entry or writes the next slot. -/
def ErrLog.add (g : ErrLog) (code sev inst part : Nat) (detail now : Word) : ErrLog :=
  let slot := g.newest.toNat % 4096
  match tget? g.slots slot with
  | some e =>
    if e.code = code ∧ e.part = part ∧ e.inst = inst ∧ e.restored = false ∧ g.newest ≠ 0xFFFFFFFF then
      { g with slots := tput g.slots slot { e with count := satInc e.count 0xFFFF, last := now, detail := detail },
               writes := g.writes + 1 }
    else
      { slots := tput g.slots ((g.newest + 1).toNat % 4096)
          { code := code, severity := sev, restored := false, inst := inst, part := part, count := 1, detail := detail,
            first := now, last := now },
        newest := g.newest + 1, writes := g.writes + 1 }
  | none =>
    { slots := tput g.slots ((g.newest + 1).toNat % 4096)
        { code := code, severity := sev, restored := false, inst := inst, part := part, count := 1, detail := detail,
          first := now, last := now },
      newest := g.newest + 1, writes := g.writes + 1 }

def State.logSev (s : State) (code sev inst part : Nat) (detail : Word) : State :=
  State.raise { s with err := s.err.add code sev inst part detail s.fc.chrono } (16384 + code / 256)

/-- R459: logs a code and raises its group's device source. -/
def State.log (s : State) (code inst part : Nat) (detail : Word) : State := s.logSev code (errSev code) inst part detail

def noPart : Nat := 0xFFFF
def noInst : Nat := 0xFF

/-! ### Writes to host memory (R17, R356, R372, R483) -/

/-- R17: host bus addresses from here on cannot be reached. -/
def hostLimit : Nat := 0x700000000000

/-- A posted write of `bytes` to host bus address `a` on `port`, with Relaxed Ordering or without, on VC1 or VC0 (R371): true when the
port has sent it. -/
def State.hostSend (s : State) (port : Nat) (pasid : Option Nat) (a : Nat) (bytes : List Byte) (ro vc1 : Bool) : Bool × State :=
  if (s.hp port).linkUp then
    (true, State.emit { s with mem := writeBytes s.mem (hostBase + a) bytes } (.hostWrite port pasid a bytes ro vc1))
  else (false, s)

/-- A write that is never relaxed (R372). -/
def State.hostPost (s : State) (port : Nat) (pasid : Option Nat) (a : Nat) (bytes : List Byte) : Bool × State :=
  s.hostSend port pasid a bytes false false

/-- A write of mover or operator-unit data, relaxed while the port's RO_DATA is 1 (R372). -/
def State.hostPostData (s : State) (port : Nat) (pasid : Option Nat) (a : Nat) (bytes : List Byte) : Bool × State :=
  s.hostSend port pasid a bytes (s.hp port).roData false

/-- The management port (R369). -/
def State.mgmtPort (s : State) : Nat :=
  if (s.hp 1).mgmt then 1 else if (s.hp 2).mgmt then 2 else if (s.hp 3).mgmt then 3 else 0

/-! ### Reads of host memory (R17, R373) -/

/-- HP.STATE.TIMEOUTS of port `h` counts a completion timeout (R373). -/
def State.countTimeout (s : State) (h : Nat) (timeout : Bool) : State :=
  if timeout then s.setHp h { s.hp h with timeouts := satInc (s.hp h).timeouts 0xFFFF } else s

/-- R17: the port and the PASID of an access made for a partition.  One without a partition carries no PASID; which port it
goes out on the spec does not say, and the model takes the management port (DESIGN CHOICE, log entry 9). -/
def State.hostPath (s : State) (part : Option Nat) : Nat × Option Nat :=
  match part with
  | some p => ((s.part p).hostPort, some (s.part p).pasid)
  | none => (s.mgmtPort, none)

/-- A read at a DPA of the host window by a requester that does not wait in an instruction: 1 when it fails, 2 when its data are
poisoned.  One that has not been made yet is noted in `hostMiss`, and what the command does from then on is not kept
(`State.settle`). -/
def State.hostTake (s : State) (r : HostReq) (part : Option Nat) (d len : Nat) : Except Nat (List Byte) × State :=
  let (port, pasid) := s.hostPath part
  let x : HostRead := { req := r, port := port, pasid := pasid, dpa := d, len := len }
  if s.hostMiss.isSome then (.ok (zeros len), s)
  else
    match s.hostGot.find? (fun y => y.1 == x) with
    | some y =>
      let s1 := { s with hostGot := s.hostGot.erase y }
      if y.2 = 0 then (.ok (readBytes s.mem d len), s1) else (.error y.2, s1)
    | none => if (s.hp port).linkUp then (.ok (zeros len), { s with hostMiss := some x }) else (.error 1, s)

/-- R368: the non-posted requests that are outstanding on port `h`: reads of units, of PPs, abandoned ones of PPs, and fetches of
entries. -/
def State.portReads (s : State) (h : Nat) : Nat :=
  (s.hostWant.filter (fun x => x.port == h)).length
    + (s.pps.map (fun e => b2n (e.2.blocked = .hostLoad && e.2.hostReady.isNone && e.2.hostAt.any (fun x => x.1 == h))
        + (e.2.hostDrop.filter (fun x => x.1 == h)).length)).sum
    + (s.sqs.filter (fun e => e.2.exist && (s.part e.2.part).hostPort == h
        && e.2.fetch.any (fun f => !f.waiting && decide (hostBase ≤ f.dpa)))).length
    + b2n (h == s.mgmtPort && s.admin.fetch.any (fun f => !f.waiting))

/-- R368: a port holds up to 1,024 of them; a further read goes out once one of them has ended. -/
def State.portFull (s : State) (h : Nat) : Bool := decide (1024 ≤ s.portReads h)

/-- A state in which the command under way has lacked no read yet. -/
def State.asking (s : State) : State := { s with hostMiss := none }

/-- The end of a command that went from `s.asking` to `t` and may read host memory for the requesters `rs`.  When a read of it has
not returned, the read goes out, nothing else takes place, and the command is presented again after its completion (log entry 9). -/
def State.settled (s : State) (rs : List HostReq) (t : State) : State :=
  match t.hostMiss with
  | none => { t with hostMiss := s.hostMiss, hostGot := t.hostGot.filter (fun x => !rs.contains x.1.req) }
  | some x =>
    if s.hostWant.contains x || s.portFull x.port then s
    else State.emit { s with hostWant := s.hostWant ++ [x] } (.hostRead x.port x.pasid (x.dpa - hostBase) x.len false)

/-- A command `f` that may read host memory. -/
def State.settle (s : State) (rs : List HostReq) (f : State → State) : State := s.settled rs (f s.asking)

/-- R373: the oldest read of a requester at an address has returned, with an outcome. -/
def State.hostReturn (s : State) (r : HostReq) (d st : Nat) : State :=
  match s.hostWant.find? (fun x => x.req == r && x.dpa == d) with
  | some x => { s with hostWant := s.hostWant.erase x, hostGot := s.hostGot ++ [(x, st)] }
  | none => s

/-- R374: reads that are out on a port whose link goes down fail. -/
def State.hostLost (s : State) (port : Nat) : State :=
  { s with hostWant := s.hostWant.filter (fun x => x.port ≠ port),
           hostGot := s.hostGot ++ (s.hostWant.filter (fun x => x.port = port)).map (fun x => (x, 1)) }

/-- A requester's reads are abandoned. -/
def State.hostForget (s : State) (r : HostReq) : State :=
  { s with hostWant := s.hostWant.filter (fun x => x.req ≠ r), hostGot := s.hostGot.filter (fun x => x.1.req ≠ r) }

/-! ### A PP's registers (R64, R89, R99) -/

/-- X[r]; X0 reads as zero. -/
def Pp.getX (p : Pp) (r : BitVec 5) : Word := if r = 0 then 0 else tgetD p.x r.toNat 0

/-- A write to X0 is discarded. -/
def Pp.setX (p : Pp) (r : BitVec 5) (v : Word) : Pp := if r = 0 then p else { p with x := tput p.x r.toNat v }

def Pp.getV (p : Pp) (r : Nat) : VReg := tgetD p.v r 0
def Pp.setV (p : Pp) (r : Nat) (v : VReg) : Pp := { p with v := tput p.v r v }
def Pp.getM (p : Pp) (r : Nat) : VReg := tgetD p.m r 0
def Pp.setM (p : Pp) (r : Nat) (v : VReg) : Pp := { p with m := tput p.m r v }
def Pp.getCsr (p : Pp) (r : Nat) : Word := tgetD p.csr r 0
def Pp.setCsr (p : Pp) (r : Nat) (v : Word) : Pp := { p with csr := tput p.csr r v }

def csrPSTATUS : Nat := 0x100
def csrPCAUSE : Nat := 0x101
def csrPEPC : Nat := 0x102
def csrPTVAL : Nat := 0x103
def csrPCAUSE2 : Nat := 0x104
def csrPEPC2 : Nat := 0x105
def csrPTVAL2 : Nat := 0x106
def csrPVEC : Nat := 0x107
def csrXWSTAT : Nat := 0x180
def csrXWADDR : Nat := 0x181
def csrXWDPA : Nat := 0x182
def csrXVICTIM : Nat := 0x185

/-- PSTATUS.NEST. -/
def Pp.nest (p : Pp) : Bool := (p.getCsr csrPSTATUS).getLsbD 0

/-! ### Taking a trap and returning from one (R93, R94) -/

def trapIllegal : Nat := 0x01
def trapPrivileged : Nat := 0x02
def trapMisaligned : Nat := 0x03
def trapTlbFetch : Nat := 0x04
def trapTlbLoad : Nat := 0x05
def trapTlbStore : Nat := 0x06
def trapAccess : Nat := 0x07
def trapBus : Nat := 0x08
def trapMemory : Nat := 0x09
def trapBudget : Nat := 0x0A
def trapPipe : Nat := 0x0B
def trapTicket : Nat := 0x0C
def trapVector : Nat := 0x0D
def trapOutRange : Nat := 0x0E
def trapRetireRange : Nat := 0x0F
def trapRetireLimit : Nat := 0x10
def trapBreak : Nat := 0x11
def trapStop : Nat := 0x20

/-- R42: the host reads whose completions are to be discarded once the read that is out is abandoned too. -/
def Pp.abandoned (p : Pp) : List (Nat × Nat) :=
  match p.hostAt with
  | some x => if p.blocked = .hostLoad && p.hostReady.isNone then p.hostDrop ++ [x] else p.hostDrop
  | none => p.hostDrop

/-- The instruction that waits is given up, with the host read that is out for it. -/
def Pp.giveUp (p : Pp) : Pp :=
  { p with blocked := .none, hostReady := none, hostAt := none, hostDrop := p.abandoned, hostSeen := [], hostLeft := [], eltAt := 0 }

/-- R93 on the PP: from leg mode, from pilot mode with NEST clear, and the double trap, which halts the PP. -/
def Pp.takeTrap (p0 : Pp) (cause : Nat) (value : Word) : Pp :=
  let p := p0.giveUp
  match p.mode with
  | .leg =>
    { ((p.setCsr csrPEPC p.pc).setCsr csrPCAUSE (BitVec.ofNat 64 cause)).setCsr csrPTVAL value with
      mode := .pilot, pc := p.getCsr csrPVEC + BitVec.ofNat 64 (cause * 0x40) }
  | .pilot =>
    if p.nest then { p with halted := true }
    else
      { (((p.setCsr csrPEPC2 p.pc).setCsr csrPCAUSE2 (BitVec.ofNat 64 cause)).setCsr csrPTVAL2 value).setCsr csrPSTATUS
          (p.getCsr csrPSTATUS ||| 1) with
        pc := p.getCsr csrPVEC + BitVec.ofNat 64 (cause * 0x40) }

/-- The double trap of R93. -/
def Pp.doubleTrap (p : Pp) : Bool := p.mode = .pilot && p.nest

/-- R94: PRET clears NEST and goes on at PEPC2, or goes on at PEPC in leg mode. -/
def Pp.pret (p : Pp) : Pp :=
  if p.nest then
    { p.setCsr csrPSTATUS (p.getCsr csrPSTATUS &&& ~~~ 1#64) with pc := p.getCsr csrPEPC2 }
  else { p with mode := .leg, pc := p.getCsr csrPEPC }

/-! ### Time -/

/-- R398: a member may correct its chronometer by a nanosecond now: at most once per microsecond. -/
def Fc.slewDue (f : Fc) : Bool := decide (f.chrono.toNat % 1000 = 0) && decide (f.slew ≠ 0) && !f.slewHold

/-- R30: one nanosecond passes.  With `fix`, a member that corrects its chronometer counts one nanosecond more or less (R398). -/
def Fc.count (f : Fc) (fix : Bool) : Fc :=
  if !fix then { f with chrono := f.chrono + 1, slewHold := false }
  else if f.slew < 0 then { f with slew := f.slew + 1, slewHold := true }
  else { f with chrono := f.chrono + 2, slew := f.slew - 1, slewHold := false }

/-- A unit's running command goes on by a free amount (R156, R190, R206). -/
def CmdUnit.goOn (q : CmdUnit) (k : Nat) : CmdUnit :=
  if q.running.isSome then { q with done := q.done + k % (q.limit + 1 - q.done) } else q

/-- The compressor's running command goes on, or enters a later phase, the header write being the last (R245). -/
def Cluster.cmpGoOn (k : Cluster) (a b : Nat) : Cluster :=
  if k.cmp.running.isNone then k
  else
    let ph := k.cmpPhase + a % (4 - k.cmpPhase)
    if ph = k.cmpPhase then { k with cmp := k.cmp.goOn b }
    else { k with cmpPhase := ph, cmp := { k.cmp with done := 0, limit := if ph = 3 then 0 else k.cmp.limit } }

/-- A digest unit's running job goes on by a free amount (R254). -/
def DuUnit.goOn (d : DuUnit) (k : Nat) : DuUnit :=
  if d.running.isSome then { d with blocks := d.blocks + k % (d.limit + 1 - d.blocks) } else d

def Cluster.busy (k : Cluster) : Bool := k.upu.running.isSome || k.hu.running.isSome || k.su.running.isSome || k.cmp.running.isSome

/-- How far the running commands of the units come as time passes: five free values a cluster and one a digest unit. -/
def State.unitsGoOn (s : State) : State :=
  if s.cls.any (fun e => e.2.busy) || s.dus.any (fun e => e.2.running.isSome) then
    { s with freeSeq := s.freeSeq + 336,
             dus := tmap s.dus (fun u d => d.goOn (Config.freeNat (s.freeSeq + 320 + u))),
             cls := tmap s.cls (fun c k =>
               let v := fun i => Config.freeNat (s.freeSeq + 5 * c + i)
               if s.pm.gated.contains (c / 16) then k
               else Cluster.cmpGoOn { k with upu := k.upu.goOn (v 0), hu := k.hu.goOn (v 1), su := k.su.goOn (v 2) } (v 3) (v 4)) }
  else s

/-- An idle nanosecond, unless every clock is stopped.  R398 bounds the correction of a member's chronometer by 1 ns per microsecond
and fixes no rate: whether the nanosecond is taken at a microsecond is a free value (log entry 2). -/
def idleOp (s0 : State) : State :=
  if s0.frozen then s0
  else
    let s := s0.unitsGoOn
    if s.fc.slewDue then
      let (k, s1) := s.free
      { s1 with fc := s1.fc.count (k % 2 = 1) }
    else { s with fc := s.fc.count false }

/-- The instant of a time-driven command: the chronometer reaches `t`, and never goes back (log entry 3). -/
def State.reach (s : State) (t : Word) : State :=
  if s.fc.chrono.toNat < t.toNat then { s with fc := { s.fc with chrono := t } } else s

end Sys2Proof.Machine
end

