-- ==== Sys2Proof/Machine/Float.lean ====
section
/-!
DEFINITION. Floating point on bit patterns (04 R124): values are taken apart exactly, computed exactly and rounded once, to
nearest, ties to even.  `wide` names F64; otherwise F32.
-/
namespace Sys2Proof.Machine

/-- A value taken apart: (−1)^s × m × 2^e. -/
inductive FVal where
  | nan
  | inf (s : Bool)
  | fin (s : Bool) (m : Nat) (e : Int)
  deriving DecidableEq, Repr

/-- Precision: significant bits. -/
def fP (wide : Bool) : Nat := if wide then 53 else 24
/-- log2 of the smallest subnormal. -/
def fMinE (wide : Bool) : Int := if wide then -1074 else -149
/-- The pattern of +∞. -/
def fInf (wide : Bool) : Nat := if wide then 0x7FF0000000000000 else 0x7F800000
def fSignBit (wide : Bool) : Nat := if wide then 2 ^ 63 else 2 ^ 31
/-- The canonical quiet NaN. -/
def fNan (wide : Bool) : Nat := if wide then 0x7FF8000000000000 else 0x7FC00000

def fUnpack (wide : Bool) (b : Nat) : FVal :=
  let s := decide (fSignBit wide ≤ b)
  let a := b % fSignBit wide
  let h := 2 ^ (fP wide - 1)
  if fInf wide < a then .nan
  else if a = fInf wide then .inf s
  else if a < h then .fin s a (fMinE wide)
  else .fin s (a % h + h) (fMinE wide + ((a / h : Nat) : Int) - 1)

def fSigned (wide s : Bool) (a : Nat) : Nat := if s then a + fSignBit wide else a

/-- Rounds m × 2^e, or a little more when `sticky`, to the format. -/
def fRound (wide s : Bool) (m : Nat) (e : Int) (sticky : Bool) : Nat :=
  if m = 0 then fSigned wide s 0
  else
    let q := max (e + ((Nat.log2 m + 1 : Nat) : Int) - ((fP wide : Nat) : Int)) (fMinE wide)
    let sh := q - e
    let mant :=
      if sh ≤ 0 then m <<< (-sh).toNat
      else
        let k := sh.toNat
        let t := m >>> k
        let r := m % 2 ^ k
        if 2 ^ (k - 1) < r ∨ (r = 2 ^ (k - 1) ∧ (sticky ∨ t % 2 = 1)) then t + 1 else t
    let b := mant + (q - fMinE wide).toNat * 2 ^ (fP wide - 1)
    fSigned wide s (if fInf wide ≤ b then fInf wide else b)

def fPack (wide : Bool) : FVal → Nat
  | .nan => fNan wide
  | .inf s => fSigned wide s (fInf wide)
  | .fin s m e => fRound wide s m e false

def sInt (s : Bool) (m : Nat) : Int := if s then -(m : Int) else (m : Int)

/-- The exact sum. -/
def FVal.add : FVal → FVal → FVal
  | .nan, _ => .nan
  | _, .nan => .nan
  | .inf s, .inf t => if s = t then .inf s else .nan
  | .inf s, _ => .inf s
  | _, .inf t => .inf t
  | .fin s m e, .fin t n f =>
    let q := min e f
    let v := sInt s (m <<< (e - q).toNat) + sInt t (n <<< (f - q).toNat)
    if v = 0 then .fin (s && t) 0 q else .fin (decide (v < 0)) v.natAbs q

/-- The exact product. -/
def FVal.mul : FVal → FVal → FVal
  | .nan, _ => .nan
  | _, .nan => .nan
  | .inf s, .inf t => .inf (s != t)
  | .inf s, .fin t n _ => if n = 0 then .nan else .inf (s != t)
  | .fin s m _, .inf t => if m = 0 then .nan else .inf (s != t)
  | .fin s m e, .fin t n f => .fin (s != t) (m * n) (e + f)

def FVal.neg : FVal → FVal
  | .nan => .nan
  | .inf s => .inf (!s)
  | .fin s m e => .fin (!s) m e

def fAdd (wide : Bool) (a b : Nat) : Nat := fPack wide ((fUnpack wide a).add (fUnpack wide b))
def fSub (wide : Bool) (a b : Nat) : Nat := fPack wide ((fUnpack wide a).add (fUnpack wide b).neg)
def fMul (wide : Bool) (a b : Nat) : Nat := fPack wide ((fUnpack wide a).mul (fUnpack wide b))

/-- a × b + c with one rounding. -/
def fFma (wide : Bool) (a b c : Nat) : Nat :=
  fPack wide (((fUnpack wide a).mul (fUnpack wide b)).add (fUnpack wide c))

def fDiv (wide : Bool) (a b : Nat) : Nat :=
  match fUnpack wide a, fUnpack wide b with
  | .nan, _ => fNan wide
  | _, .nan => fNan wide
  | .inf _, .inf _ => fNan wide
  | .inf s, .fin t _ _ => fSigned wide (s != t) (fInf wide)
  | .fin s _ _, .inf t => fSigned wide (s != t) 0
  | .fin s m e, .fin t n f =>
    if n = 0 then (if m = 0 then fNan wide else fSigned wide (s != t) (fInf wide))
    else
      let k := fP wide + 3 + Nat.log2 n
      fRound wide (s != t) ((m <<< k) / n) (e - f - ((k : Nat) : Int)) (decide ((m <<< k) % n ≠ 0))

/-- ⌊√m⌋, bit by bit from bit `i` down. -/
def isqrtFrom (m : Nat) : Nat → Nat → Nat
  | 0, r => r
  | i + 1, r => if (r + 2 ^ i) * (r + 2 ^ i) ≤ m then isqrtFrom m i (r + 2 ^ i) else isqrtFrom m i r

def fSqrt (wide : Bool) (a : Nat) : Nat :=
  match fUnpack wide a with
  | .nan => fNan wide
  | .inf s => if s then fNan wide else fInf wide
  | .fin s m e =>
    if m = 0 then a
    else if s then fNan wide
    else
      let k := 2 * fP wide + 4 + (e % 2).toNat
      let n := m <<< k
      let r := isqrtFrom n (Nat.log2 n / 2 + 1) 0
      fRound wide false r ((e - ((k : Nat) : Int)) / 2) (decide (r * r ≠ n))

/-! ### Order -/

def fIsNan (wide : Bool) (b : Nat) : Bool := decide (fInf wide < b % fSignBit wide)

/-- Rising with the value; −0 lies just below +0. -/
def fKeyT (wide : Bool) (b : Nat) : Int :=
  if fSignBit wide ≤ b then -((b % fSignBit wide : Nat) : Int) - 1 else ((b : Nat) : Int)

/-- Rising with the value; −0 equals +0. -/
def fKeyV (wide : Bool) (b : Nat) : Int :=
  if fSignBit wide ≤ b then -((b % fSignBit wide : Nat) : Int) else ((b : Nat) : Int)

/-- R124 VFMIN and VFMAX. -/
def fMinMax (wide mx : Bool) (a b : Nat) : Nat :=
  if fIsNan wide a then (if fIsNan wide b then fNan wide else b)
  else if fIsNan wide b then a
  else if mx then (if fKeyT wide a < fKeyT wide b then b else a)
  else (if fKeyT wide b < fKeyT wide a then b else a)

/-! ### Conversions -/

def fOfInt (wide : Bool) (v : Int) : Nat := fRound wide (decide (v < 0)) v.natAbs 0 false

/-- Towards zero, saturating to [lo, hi]; NaN gives 0. -/
def fToInt (wide : Bool) (b : Nat) (lo hi : Int) : Int :=
  match fUnpack wide b with
  | .nan => 0
  | .inf s => if s then lo else hi
  | .fin s m e =>
    let t := if 0 ≤ e then m <<< e.toNat else m >>> (-e).toNat
    max lo (min hi (sInt s t))

/-- F32 to F64, exactly. -/
def f32to64 (b : Nat) : Nat := fPack true (fUnpack false b)

end Sys2Proof.Machine
end

