-- ==== Sys2Proof/Machine/Lanistail.lean ====
section
/-!
DEFINITION. The chain links (19): flits and their CRC, the keeping and resending of flits, credits, the routing of messages
and their sending.
-/
namespace Sys2Proof.Machine

open Sys2Proof

/-! ### Flits (R393) -/

/-- CRC-64 with polynomial 0x42F0_E1EB_A9EA_3693, most significant bit first, from zero (log entry 17). -/
def crc64Bit (c : BitVec 64) : BitVec 64 := if c.getLsbD 63 then (c <<< 1) ^^^ 0x42F0E1EBA9EA3693#64 else c <<< 1

def crc64Byte (c : BitVec 64) (b : Byte) : BitVec 64 :=
  let c0 := c ^^^ (b.setWidth 64 <<< 56)
  crc64Bit (crc64Bit (crc64Bit (crc64Bit (crc64Bit (crc64Bit (crc64Bit (crc64Bit c0)))))))

def crc64 (bs : List Byte) : BitVec 64 := bs.foldl crc64Byte 0

/-- A 256-byte flit. -/
def flitBytes (ftype first last cls seq ack rc0 rc1 rc2 : Nat) (payload : List Byte) : List Byte :=
  let hdr := ftype + first * 2 ^ 4 + last * 2 ^ 5 + cls * 2 ^ 6 + seq * 2 ^ 8 + ack * 2 ^ 20 + rc0 * 2 ^ 32 + rc1 * 2 ^ 40 + rc2 * 2 ^ 48
  let body := leBytes 8 hdr ++ payload.take 240 ++ zeros (240 - payload.length)
  body ++ leBytes 8 (crc64 body).toNat

/-- SEQ of the last DATA flit received in order. -/
def Link.ack (k : Link) : Nat := (k.rxSeq + 4095) % 4096

/-- The flit goes out on link `l` with ACK and the credits to return. -/
def State.sendFlit (s : State) (l ftype : Nat) (f : TxFlit) (seq : Nat) : State :=
  let k := s.link l
  let rc := fun (i : Nat) => min 255 (k.owed.getD i 0)
  let bs := flitBytes ftype (b2n f.first) (b2n f.last) f.cls seq k.ack (rc 0) (rc 1) (rc 2) f.payload
  (s.setLink l { k with owed := k.owed.map (fun n => n - min 255 n) }).emit (.flit l ftype bs)

/-- A flit other than DATA. -/
def State.sendPlain (s : State) (l ftype : Nat) (payload : List Byte) : State :=
  s.sendFlit l ftype { first := false, last := false, cls := 0, payload := payload } 0

/-! ### Sending DATA flits (R394, R395) -/

/-- A DATA flit takes the next SEQ, uses a credit and is kept until it is acknowledged. -/
def State.sendData (s : State) (l : Nat) (f : TxFlit) : State :=
  let k := s.link l
  let s1 := s.setLink l { k with txSeq := (k.txSeq + 1) % 4096, unacked := k.unacked ++ [(k.txSeq, f)],
                                 credits := k.credits.set f.cls (k.credits.getD f.cls 0 - 1) }
  s1.sendFlit l 1 f k.txSeq

/-- The flits of a message: 240 bytes each, FIRST to LAST. -/
def flitsOf (cls : Nat) (bs : List Byte) : List TxFlit :=
  let n := cdiv bs.length 240
  (List.range n).map (fun i => { first := i == 0, last := i + 1 == n, cls := cls, payload := (bs.drop (i * 240)).take 240 })

/-- The first waiting message of the lowest class that has credit for all its flits: class 0 never waits behind another. -/
def Link.nextMsg (k : Link) : Option TxMsg :=
  (List.range 3).findSome? (fun c =>
    match k.txQ.find? (fun m => m.cls == c) with
    | some m => if m.flits.length ≤ k.credits.getD c 0 then some m else none
    | none => none)

/-- The first flit of a message takes SEND_STAMP as it is transmitted (R396). -/
def TxMsg.stamped (m : TxMsg) (now : Nat) : List TxFlit :=
  match m.flits with
  | f :: t =>
    if m.resent then m.flits else { f with payload := f.payload.take 8 ++ leBytes 8 now ++ f.payload.drop 16 } :: t
  | [] => []

/-- Sends waiting messages while the link is up and has credit.  Flits that another link has held count as resent. -/
def State.pump (s : State) (l : Nat) : Nat → State
  | 0 => s
  | f + 1 =>
    let k := s.link l
    if !k.up then s
    else
      match k.nextMsg with
      | none => s
      | some m =>
        let k1 := { k with txQ := k.txQ.erase m,
                           replays := if m.resent then min 0xFFFFFFFF (k.replays + m.flits.length) else k.replays }
        State.pump ((m.stamped s.now).foldl (fun t x => t.sendData l x) (s.setLink l k1)) l f

/-! ### Routing (R388, R396) -/

/-- Links of the NEXT bundle, or of PREV. -/
def bundle (next : Bool) : List Nat := if next then [0, 1, 2, 3] else [4, 5, 6, 7]

/-- The lowest-numbered link of a bundle that is up (log entry 21). -/
def State.bundleLink (s : State) (next : Bool) : Option Nat := (bundle next).find? (fun l => (s.link l).up)

/-- The link holds flits of a class that are not acknowledged, or waiting. -/
def Link.holds (k : Link) (c : Nat) : Bool := k.unacked.any (fun e => e.2.cls == c) || k.txQ.any (fun m => m.cls == c)

/-- The link of a bundle that a message of class `c` takes: the one that holds messages of the class still, so that they keep their
order (R396), even while it retrains; or else the lowest-numbered one that is up, or that retrains (log entry 21). -/
def State.msgLink (s : State) (next : Bool) (c : Nat) : Option Nat :=
  match (bundle next).find? (fun l => (s.link l).holds c && ((s.link l).up || (s.link l).training)) with
  | some l => some l
  | none => (s.bundleLink next).or ((bundle next).find? (fun l => (s.link l).training))

/-- A unit of the ring has been declared lost. -/
def Chain.broken (c : Chain) : Bool := (List.range c.size).any (fun u => !c.members.getLsbD u)

/-- No lost unit lies between this unit and `dest` in the direction named. -/
def Chain.clear (c : Chain) (next : Bool) (dest : Nat) : Bool :=
  let d := if next then (dest + c.size - c.address) % c.size else (c.address + c.size - dest) % c.size
  (List.range d).all (fun i => decide (i = 0) || c.members.getLsbD (if next then (c.address + i) % c.size else (c.address + c.size - i) % c.size))

/-- The bundle towards a single destination, and the hops. -/
def Chain.route (c : Chain) (dest : Nat) : Bool × Nat :=
  if !c.ring then (decide (c.address < dest), max dest c.address - min dest c.address)
  else
    let d := (dest + c.size - c.address) % c.size
    let next := decide (d < c.size - d) || (decide (d = c.size - d) && decide (c.address % 2 = 0))
    let go := if c.clear next dest then next else !next
    (go, if go then d else c.size - d)

/-- TTL of a broadcast towards NEXT or PREV; a ring with a lost unit is a line (log entry 21). -/
def Chain.ttl (c : Chain) (next : Bool) : Nat :=
  if c.ring && !c.broken then (if next then c.size / 2 else (c.size - 1) / 2) else c.size - 1

def msgClass (kind : Nat) : Nat := if kind = 4 ∨ kind = 5 then 1 else if kind = 6 then 2 else 0

/-- The message header of R396 with its body; SEND_STAMP is filled in as the message is transmitted. -/
def msgBytes (kind dest src ttl : Nat) (body : List Byte) : List Byte :=
  leBytes 1 kind ++ leBytes 1 dest ++ leBytes 1 src ++ leBytes 1 ttl ++ leBytes 4 body.length ++ zeros 8 ++ body

/-- Hands a message to a bundle; with no link of it in use it is lost with the bundle (R403). -/
def State.sendOn (s : State) (next : Bool) (kind dest src ttl : Nat) (body : List Byte) : State :=
  match s.msgLink next (msgClass kind) with
  | none => s
  | some l =>
    let k := s.link l
    let m : TxMsg := { cls := msgClass kind, flits := flitsOf (msgClass kind) (msgBytes kind dest src ttl body), resent := false }
    State.pump (s.setLink l { k with txQ := k.txQ ++ [m] }) l 64

/-- R396: sends a message of this unit; 0xFF is every unit. -/
def State.sendMsg (s : State) (kind dest : Nat) (body : List Byte) : State :=
  let c := s.chain
  if dest = 0xFF then
    let s1 := if c.ttl true = 0 then s else s.sendOn true kind dest c.address (c.ttl true) body
    if c.ttl false = 0 then s1 else s1.sendOn false kind dest c.address (c.ttl false) body
  else
    let (next, hops) := c.route dest
    s.sendOn next kind dest c.address hops body

/-- The body of CHAIN_DOWN. -/
def downBody (cause lastFix : Nat) : List Byte := leBytes 1 cause ++ zeros 7 ++ leBytes 8 lastFix

/-! ### Receiving at the link level (R394) -/

/-- Flits kept after the one that `ack` names; unchanged when no kept flit has that SEQ. -/
def dropAcked (ack : Nat) (l : List (Nat × TxFlit)) : List (Nat × TxFlit) :=
  if l.any (fun e => e.1 == ack) then (l.dropWhile (fun e => e.1 != ack)).drop 1 else l

/-- ACK and the returned credits of a received flit. -/
def State.takeAck (s : State) (l : Nat) (flit : List Byte) : State :=
  let k := s.link l
  let ack := bits (fld flit 0 8) 31 20
  let left := dropAcked ack k.unacked
  let credits := [k.credits.getD 0 0 + fld flit 4 1, k.credits.getD 1 0 + fld flit 5 1, k.credits.getD 2 0 + fld flit 6 1]
  State.pump (s.setLink l { k with unacked := left, credits := credits,
                                   noProgress := if left.length < k.unacked.length then 0 else k.noProgress }) l 64

/-- Resends every flit kept, in order, with its own SEQ. -/
def State.resend (s : State) (l : Nat) : State :=
  let k := s.link l
  if k.unacked.isEmpty || !k.up then s
  else
    let s1 := s.setLink l { k with replays := min 0xFFFFFFFF (k.replays + k.unacked.length), noProgress := k.noProgress + 1 }
    k.unacked.foldl (fun t e => t.sendFlit l 1 e.2 e.1) s1

/-- A flit that is whole: 256 bytes, its CRC, a listed FTYPE and CLASS. -/
def flitOk (flit : List Byte) : Bool :=
  let h := fld flit 0 8
  flit.length == 256 && (crc64 (flit.take 248)).toNat == fld flit 248 8 && decide (bits h 3 0 ≤ 6)
  && !(bits h 3 0 == 1 && bits h 7 6 == 3)

/-- The receiver's NAK: its last in-order SEQ is in ACK. -/
def State.sendNak (s : State) (l : Nat) : State := s.sendPlain l 2 []

end Sys2Proof.Machine
end

