-- ==== Sys2Proof/Machine/Cache.lean ====
section
/-!
DEFINITION. The memory controllers' acceptance of requests (16), the L1 and L2 caches of a cluster, the prefetch side
buffer (15), and the accesses that use them (R326).
-/
namespace Sys2Proof.Machine

open Sys2Proof

/-! ### Where a DPA lies in memory (R340, R341) -/

/-- R340: pseudo-channel 0–127 of a DPA in general HBM. -/
def hbmPc (d : Nat) : Nat :=
  let g := (d - 0x40000000) >>> 8
  (g ^^^ (g >>> 7) ^^^ (g >>> 14)) % 128

/-- R340: pseudo-channel of a DPA in the keep region or an engine region. -/
def reservedPc (d : Nat) : Nat :=
  let g := (d % 0x10000000) >>> 8
  32 * (d / 0x10000000) + (g ^^^ (g >>> 5)) % 32

/-- R340: the offset in its pseudo-channel of a DPA in general HBM, above the 8 MiB of the reserved region. -/
def hbmOffset (d : Nat) : Nat := 0x800000 + ((d - 0x40000000) >>> 15) * 256 + (d - 0x40000000) % 256

/-- R340: the offset in its pseudo-channel of a DPA in the keep region or an engine region. -/
def reservedOffset (d : Nat) : Nat := ((d % 0x10000000) >>> 13) * 256 + d % 256

/-- R341: the offset in its channel of a DPA in the DDR5 window, `n` channels in the set. -/
def ddrOffset (n d : Nat) : Nat := ((d - ddrBase) >>> 8) / n * 256 + (d - ddrBase) % 256

/-- R340, R341: the offset of a DPA in its pseudo-channel or channel. -/
def State.offsetOf (s : State) (d : Nat) : Nat :=
  if d < 0x40000000 then reservedOffset d else if d < ddrBase then hbmOffset d else ddrOffset s.ddrSet.length d

/-- Controller 0–15 and the pseudo-channel or subchannel of a DPA (R339–R341).  The subchannel of a DDR5 channel is not
given; the model takes bit 6 of the address (log entry 14). -/
def State.ctrlOf (s : State) (d : Nat) : Nat × Nat :=
  if d < 0x40000000 then (reservedPc d / 32, reservedPc d % 32)
  else if d < ddrBase then (hbmPc d / 32, hbmPc d % 32)
  else (4 + s.ddrSet.getD (((d - ddrBase) >>> 8) % s.ddrSet.length) 0, d / 64 % 2)

/-- R345: what is refreshed by itself: the pseudo-channel, or the rank of the DDR5 channel, which the controller's fixed map gives. -/
def State.rankAt (s : State) (n ch d : Nat) : Nat := if n < 4 then ch else Config.rankOf n (s.offsetOf d) % max 1 (s.dc n).ranks

/-! ### Activates and owed refreshes (R345, R347) -/

/-- R347 `activate`: the table after an activate of row `x`, with the counts before and after. -/
def actTouch (tab : List ActEntry) (x : Nat) : List ActEntry × Nat × Nat :=
  match tab.find? (fun e => e.row == x) with
  | some e => (tab.map (fun a => if a.row = x then { a with count := a.count + 1 } else a), e.count, e.count + 1)
  | none =>
    if tab.length < 8 then (tab ++ [{ row := x, count := 1 }], 0, 1)
    else
      let m := (tab.map (·.count)).foldl min (match tab with | e :: _ => e.count | [] => 0)
      let i := tab.findIdx (fun e => e.count == m)
      (tab.set i { row := x, count := m + 1 }, m, m + 1)

/-- An activate of row `x` of a bank; a targeted refresh when the count passes a multiple of THRESHOLD (R347). -/
def Dc.activate (k : Dc) (bank x : Nat) : Dc :=
  let (tab, old, new) := actTouch (tgetD k.act bank []) x
  let hit := decide (old / k.threshold < new / k.threshold)
  { k with act := tput k.act bank tab, targeted := if hit then satInc k.targeted 0xFFFFFFFF else k.targeted }

/-- A command that opens a row the manual does not name the place of (a scrub read, the writing back of a corrected line) reaches the
table too: whether a row has to be opened, its bank and its number are free values (log entry 14). -/
def Dc.opens (k : Dc) (n : Nat) : Dc :=
  let x := fun (i : Nat) => Config.dcFree n (k.turns + i)
  let k1 := { k with turns := k.turns + 3 }
  if x 0 % 2 = 1 then k1.activate (x 1) (x 2) else k1

/-- R345: requests wait for the rank or pseudo-channel. -/
def Dc.demand (k : Dc) (rank : Nat) : Bool := k.queue.any (fun r => r.rank == rank)

/-- R345: OWED of a rank now.  With nothing queued for it the owed refreshes go out back to back; how many have, is a free value. -/
def Dc.owedNow (k : Dc) (n rank : Nat) : Nat :=
  let o := tgetD k.owed rank 0
  if k.demand rank then o else o - Config.owedFree n rank (tgetD k.bursts rank 0) % (o + 1)

/-- R345: a request or a refresh that falls due stops a burst of owed refreshes where it stands. -/
def Dc.burst (k : Dc) (n rank : Nat) : Dc :=
  if k.demand rank || tgetD k.owed rank 0 == 0 then k
  else { k with owed := tput k.owed rank (k.owedNow n rank), bursts := tput k.bursts rank (tgetD k.bursts rank 0 + 1) }

/-! ### Controller queues (R342, R343) -/

def Dc.nextId (k : Dc) : Nat := match k.queue.getLast? with | some r => r.id + 1 | none => 0

/-- R343 `pick` on one queue, oldest first: a promoted request, then a row hit, then the oldest. -/
def pickReq (q : List MemReq) (now : Nat) (hits : List Nat) : Option MemReq :=
  match q.find? (fun r => decide (now - r.stamp.toNat ≥ 2000)) with
  | some r => some r
  | none =>
    match q.find? (fun r => hits.contains r.id) with
    | some r => some r
    | none => q.head?

/-- R342: no older request to the same line waits. -/
def Dc.first (k : Dc) (r : MemReq) : Bool := !k.queue.any (fun x => x.line == r.line && decide (x.id < r.id))

/-- R343: which queue is served, and whether a write drain is on. -/
def Dc.useWrites (k : Dc) (now ch : Nat) : Bool :=
  let rs := k.queue.filter (fun r => r.ch = ch && !r.write)
  let ws := k.queue.filter (fun r => r.ch = ch && r.write)
  ws.any k.first && (!rs.any k.first || decide (ws.length ≥ 48) || (k.draining.contains ch && decide (ws.length > 16))
    || (match ws.head? with | some w => decide (now - w.stamp.toNat ≥ 2000) | none => false))

/-- R343: the next request of pseudo-channel or subchannel `ch`. -/
def Dc.pick (k : Dc) (now ch : Nat) (hits : List Nat) : Option MemReq :=
  let w := k.useWrites now ch
  pickReq (k.queue.filter (fun r => r.ch = ch && r.write = w && k.first r)) now hits

/-- Removes a served request; a drain lasts until 16 or fewer writes remain. -/
def Dc.served (k : Dc) (r : MemReq) : Dc :=
  let q := k.queue.filter (fun x => x.id ≠ r.id)
  let left := (q.filter (fun x => x.ch = r.ch && x.write)).length
  let dr := if r.write && decide (left > 16) then setAdd k.draining r.ch
            else if decide (left ≤ 16) then k.draining.filter (· ≠ r.ch) else k.draining
  { k with queue := q, draining := dr }

/-- A full queue makes room: the controller serves requests of the channel by R343 until it has.  Which of them hit an open row, and the
bank and row of an activate, are free values; no error is found (log entry 14). -/
def Dc.makeRoom (n ch now : Nat) (write : Bool) : Nat → Dc → Dc
  | 0, k => k
  | f + 1, k =>
    if (k.queue.filter (fun r => r.ch = ch && r.write = write)).length < 64 then k
    else
      let x := fun (i : Nat) => Config.dcFree n (k.turns + i)
      let hits := (k.queue.map (·.id)).filter (fun i => (x 0).testBit i)
      match k.pick now ch hits with
      | none => k
      | some r =>
        let k1 := { k.served r with turns := k.turns + 3 }
        makeRoom n ch now write f (if hits.contains r.id then k1 else k1.activate (x 1) (x 2))

/-- Accepts a request (R342).  A read of a line with a write waiting is answered from that write. -/
def State.dcTake (s : State) (d : Nat) (write : Bool) (cluster : Nat) (known : Bool) : State :=
  let (n, ch) := s.ctrlOf d
  let k := s.dc n
  let line := d / 64
  if !write && k.queue.any (fun r => r.line = line && r.write) then s
  else
    let rank := s.rankAt n ch d
    let k1 := Dc.makeRoom n ch s.now write 128 (k.burst n rank)
    let r : MemReq :=
      { id := k1.nextId, ch := ch, rank := rank, line := line, write := write, stamp := s.fc.chrono, cluster := cluster, known := known }
    s.setDc n { k1 with queue := k1.queue ++ [r] }

def State.dcAccept (s : State) (d : Nat) (write : Bool) (cluster : Nat) : State := s.dcTake d write cluster false

/-- R350, uncorrectable error: the counter, DC.ERR_ADDR and the log. -/
def State.memUncorrectable (s : State) (d : Nat) : State :=
  let n := (s.ctrlOf d).1
  let k := s.dc n
  let s1 := s.setDc n { k with uncorrectable := satInc k.uncorrectable 0xFFFF, errLine := d / 64, errValid := true }
  s1.log (if n < 4 then 0x0902 else 0x0904) n noPart (BitVec.ofNat 64 d)

/-- R350, corrected error: the counter, the log and the line to write back. -/
def State.memCorrected (s : State) (d : Nat) : State :=
  let n := (s.ctrlOf d).1
  let k := s.dc n
  let s1 := s.setDc n { k with corrected := satInc k.corrected 0xFFFFFFFF, fixups := k.fixups ++ [d / 64] }
  s1.log (if n < 4 then 0x0901 else 0x0903) n noPart (BitVec.ofNat 64 d)

/-- Reads one 64-byte line of HBM or DDR5; none when it is uncorrectable. -/
def State.memRead (s : State) (line cluster : Nat) : Option (List Byte) × State :=
  if s.bad.contains line then (none, (s.dcTake (line * 64) false cluster true).memUncorrectable (line * 64))
  else (some (readBytes s.mem (line * 64) 64), s.dcAccept (line * 64) false cluster)

/-- An ordinary write inside one line; it replaces poison (R350). -/
def State.memWrite (s : State) (d : Nat) (bs : List Byte) : State :=
  State.dcAccept { s with mem := writeBytes s.mem d bs, bad := s.bad.filter (· ≠ d / 64) } d true 64

/-- R24, R342: a far atomic inside one line is one request of the write queue, a read followed by a write; none, with nothing written,
when the line is uncorrectable.  `g` gives the bytes written from those read. -/
def State.memFar (s : State) (d size cluster : Nat) (g : List Byte → List Byte) : Option (List Byte) × State :=
  let s1 := s.dcTake d true cluster true
  if s.bad.contains (d / 64) then (none, s1.memUncorrectable (d / 64 * 64))
  else
    let old := readBytes s.mem d size
    (some old, { s1 with mem := writeBytes s1.mem d (g old) })

/-- R350: a write that carries poison. -/
def State.memWritePoison (s : State) (line : Nat) (bs : List Byte) : State :=
  let s1 := State.dcAccept { s with mem := writeBytes s.mem (line * 64) bs, bad := setAdd s.bad line } (line * 64) true 64
  let n := (s.ctrlOf (line * 64)).1
  let k := s1.dc n
  s1.setDc n { k with poisonWrites := satInc k.poisonWrites 0xFFFF }

/-! ### Tree pseudo-LRU (R324; bit 0 names the lower half, log entry 11) -/

def underNode (n w node : Nat) : Bool := (List.range 5).any (fun k => (n + w) >>> k == node)

/-- The way that the tree bits name, among the ways `ok` allows, from `node` down. -/
def plruWalk (bits n : Nat) (ok : Nat → Bool) : Nat → Nat → Nat
  | 0, node => node - n
  | f + 1, node =>
    if node ≥ n then node - n
    else
      let l := 2 * node
      let any := fun (b : Nat) => (List.range n).any (fun w => ok w && underNode n w b)
      let go := if bits.testBit node then (if any (l + 1) then l + 1 else l) else (if any l then l else l + 1)
      plruWalk bits n ok f go

def plruVictim (bits n : Nat) (ok : Nat → Bool) : Nat := plruWalk bits n ok 5 1

/-- Points every node on the way's path away from it. -/
def plruTouchFrom (bits : Nat) : Nat → Nat → Nat
  | 0, _ => bits
  | f + 1, node =>
    if node ≤ 1 then bits
    else
      let p := node / 2
      let b := if node % 2 = 0 then bits ||| (1 <<< p) else (if bits.testBit p then bits ^^^ (1 <<< p) else bits)
      plruTouchFrom b f p

def plruTouch (bits n w : Nat) : Nat := plruTouchFrom bits 5 (n + w)

/-! ### L1 caches -/

/-- The way a line goes to in a set: the lowest way without a line, or the victim. -/
def pickWay (used : List Nat) (bits n : Nat) (ok : Nat → Bool) : Nat :=
  match (List.range n).find? (fun w => ok w && !used.contains w) with
  | some w => w
  | none => plruVictim bits n ok

def Pp.l1dTouch (p : Pp) (line w : Nat) : Pp :=
  { p with l1dPlru := tput p.l1dPlru (line % 128) (plruTouch (tgetD p.l1dPlru (line % 128) 0) 8 w) }

def Pp.l1iTouch (p : Pp) (line w : Nat) : Pp :=
  { p with l1iPlru := tput p.l1iPlru (line % 128) (plruTouch (tgetD p.l1iPlru (line % 128) 0) 4 w) }

/-- R324: a load hit touches the line, a load miss allocates it. -/
def Pp.l1dLoad (p : Pp) (line : Nat) : Pp :=
  match tget? p.l1d line with
  | some w => p.l1dTouch line w
  | none =>
    let used := (p.l1d.filter (fun e => e.1 % 128 = line % 128)).map (·.2)
    let w := pickWay used (tgetD p.l1dPlru (line % 128) 0) 8 (fun _ => true)
    let kept := p.l1d.filter (fun e => !(e.1 % 128 == line % 128 && e.2 == w))
    Pp.l1dTouch { p with l1d := tput kept line w, l1Bad := p.l1Bad.filter (· != (false, line)) } line w

def Pp.l1iFetch (p : Pp) (line : Nat) (bs : List Byte) : Pp :=
  let used := (p.l1i.filter (fun e => e.1 % 128 = line % 128)).map (·.2.1)
  let bits := tgetD p.l1iPlru (line % 128) 0
  let w := pickWay used bits 4 (fun _ => true)
  let kept := p.l1i.filter (fun e => !(e.1 % 128 == line % 128 && e.2.1 == w))
  { p with l1i := tput kept line (w, bs), l1Bad := p.l1Bad.filter (· != (true, line)), l1iPlru := tput p.l1iPlru (line % 128) (plruTouch bits 4 w) }

/-- Applies `f` to the four PPs of cluster `c`. -/
def State.onPps (s : State) (c : Nat) (f : Pp → Pp) : State :=
  (List.range 4).foldl (fun t i => t.setPp (4 * c + i) (f (t.pp (4 * c + i)))) s

/-- R325: the line leaves the cluster's L1Ds. -/
def State.l1dDrop (s : State) (c line : Nat) : State :=
  if (List.range 4).any (fun i => (tget? (s.pp (4 * c + i)).l1d line).isSome) then
    s.onPps c (fun p => { p with l1d := tdel p.l1d line })
  else s

/-- R24, R326: the line leaves the cluster's L1Is. -/
def State.l1iDrop (s : State) (c line : Nat) : State :=
  if (List.range 4).any (fun i => (tget? (s.pp (4 * c + i)).l1i line).isSome) then
    s.onPps c (fun p => { p with l1i := tdel p.l1i line })
  else s

/-- R338: a parity error found in an L1 line (`i`: the L1I); the line goes, and the access reads it again from the L2. -/
def State.l1Scrub (s : State) (n : Nat) (i : Bool) (line : Nat) : State :=
  let p := s.pp n
  if p.l1Bad.contains (i, line) && (if i then (tget? p.l1i line).isSome else (tget? p.l1d line).isSome) then
    let p1 := { p with l1Bad := p.l1Bad.erase (i, line), l1i := if i then tdel p.l1i line else p.l1i,
                       l1d := if i then p.l1d else tdel p.l1d line }
    let k := s.cl (ppCluster n)
    ((s.setPp n p1).setCl (ppCluster n) { k with errL1 := satInc k.errL1 0xFFFF }).log 0x0801 (ppCluster n) noPart
      (BitVec.ofNat 64 (line % 128 + n % 4 * 2 ^ 48))
  else s

/-- R10: a store reaches the L2; the other three L1Ds lose the line. -/
def State.l1dDropOthers (s : State) (c line keep : Nat) : State :=
  (List.range 4).foldl (fun t i =>
    if 4 * c + i = keep then t
    else
      let p := t.pp (4 * c + i)
      if (tget? p.l1d line).isSome then t.setPp (4 * c + i) { p with l1d := tdel p.l1d line } else t) s

/-! ### The L2 (R324, R330, R331, R337) -/

inductive WayMode where
  | normal | locked | pipe | preload
  deriving DecidableEq, Repr

def wayMode (cfg : Word) (w : Nat) : WayMode :=
  match bits cfg.toNat (2 * w + 1) (2 * w) with
  | 0 => .normal
  | 1 => .locked
  | 2 => .pipe
  | _ => .preload

/-- The L2 allocates (R337). -/
def Cluster.allocates (k : Cluster) : Bool := k.l2En && k.drained

def Cluster.used (k : Cluster) (set : Nat) : List Nat := (k.l2.filter (fun e => e.1 % 2048 = set)).map (·.2.way)

/-- R331: the way an allocation of `line` takes; `pilot` for a pilot-mode PP's or the CCC's. -/
def Cluster.allocWay (k : Cluster) (line : Nat) (pilot : Bool) : Nat :=
  let set := line % 2048
  let free := fun w => !k.waysOut.contains w
  let pre := (List.range 16).filter (fun w => wayMode k.wayCfg w = .preload && free w)
  let used := k.used set
  if pilot && !pre.isEmpty then
    match pre.find? (fun w => !used.contains w) with
    | some w => w
    | none => pre.headD 0
  else pickWay used (tgetD k.plru set 0) 16 (fun w => wayMode k.wayCfg w = .normal && free w)

def Cluster.touch (k : Cluster) (line w : Nat) : Cluster :=
  { k with plru := tput k.plru (line % 2048) (plruTouch (tgetD k.plru (line % 2048) 0) 16 w) }

/-- R338: an uncorrectable case is logged with the cluster, the way and the set; way 16 names the side buffer (log entry 34). -/
def State.l2Bad (s : State) (c line way : Nat) : State := s.log 0x0803 c noPart (BitVec.ofNat 64 (line % 2048 + way * 2 ^ 48))

/-- Writes a dirty line back, with its poison. -/
def State.writeBackLine (s : State) (c line : Nat) (e : L2Line) : State :=
  if e.poison then (s.l2Bad c line e.way).memWritePoison line e.data else s.memWrite (line * 64) e.data

/-- Removes a line from the L2 and the L1Ds, dirty data discarded. -/
def State.l2DropLine (s : State) (c line : Nat) : State :=
  State.l1dDrop (s.setCl c { s.cl c with l2 := tdel (s.cl c).l2 line, flaws := tdel (s.cl c).flaws line }) c line

def Cluster.sideGet (k : Cluster) (line : Nat) : Option (List Byte) := tget? k.side line

/-- R338: an error that stands in a line of the side buffer is found, and the line goes. -/
def State.sideScrub (s : State) (c line : Nat) : State :=
  let k := s.cl c
  if k.sideBad.contains line && (k.sideGet line).isSome then
    (s.setCl c { k with sideBad := k.sideBad.erase line, side := k.side.filter (fun e => e.1 ≠ line),
                        errUnc := satInc k.errUnc 0xFFFF }).l2Bad c line 16
  else s

/-- R338: an error that stands in a line of the L2 is found: it is corrected, or a clean line goes and a dirty one is poisoned.
What meets the poison logs it. -/
def State.l2Scrub (s0 : State) (c line : Nat) : State :=
  let s := s0.sideScrub c line
  match tget? (s.cl c).flaws line, tget? (s.cl c).l2 line with
  | some f, some e =>
    let k := { s.cl c with flaws := tdel (s.cl c).flaws line }
    if f = 1 then
      (s.setCl c { k with errCorr := satInc k.errCorr 0xFFFF }).log 0x0802 c noPart (BitVec.ofNat 64 (line % 2048 + e.way * 2 ^ 48))
    else
      let k1 := { k with errUnc := satInc k.errUnc 0xFFFF }
      if e.dirty then s.setCl c { k1 with l2 := tput k1.l2 line { e with poison := true } }
      else ((s.setCl c k1).l2Bad c line e.way).l2DropLine c line
  | _, _ => s

/-- R338: an access looks up a line: true when it meets poison, which is logged. -/
def State.l2Meets (s : State) (c line : Nat) : Bool × State :=
  let s1 := s.l2Scrub c line
  match tget? (s1.cl c).l2 line with
  | some e => if e.poison then (true, s1.l2Bad c line e.way) else (false, s1)
  | none => (false, s1)

/-- Writes back the cluster's copy of a line when it is dirty; the line stays valid. -/
def State.l2CleanLine (s0 : State) (c line : Nat) : State :=
  let s := s0.l2Scrub c line
  match tget? (s.cl c).l2 line with
  | some e =>
    if e.dirty then
      State.writeBackLine (s.setCl c { s.cl c with l2 := tput (s.cl c).l2 line { e with dirty := false } }) c line e
    else s
  | none => s

/-- Evicts a line (R325). -/
def State.l2Evict (s : State) (c line : Nat) : State := (s.l2CleanLine c line).l2DropLine c line

/-- Puts a line into the L2, evicting the victim. -/
def State.l2Alloc (s : State) (c line : Nat) (bs : List Byte) (dirty poison pilot : Bool) : State :=
  let k := s.cl c
  let w := k.allocWay line pilot
  let s1 := match k.l2.find? (fun e => e.1 % 2048 == line % 2048 && e.2.way == w) with
    | some e => s.l2Evict c e.1
    | none => s
  let k1 := s1.cl c
  s1.setCl c (Cluster.touch { k1 with l2 := tput k1.l2 line { way := w, dirty := dirty, poison := poison, data := bs } } line w)

/-! ### Prefetch (R328, R329) -/

def Cluster.sideDrop (k : Cluster) (line : Nat) : Cluster := { k with side := k.side.filter (fun e => e.1 ≠ line) }

/-- A demand miss of requester `req` at `line` trains the streams and asks for lines ahead (R328). -/
def Cluster.train (k : Cluster) (s : State) (req line : Nat) : Cluster :=
  let page := fun (l : Nat) => l / 64
  let near := fun (t : Stream) => t.req = req && page t.last = page line
  let (st, rest) : Stream × List Stream :=
    match k.streams.find? near with
    | some t =>
      let up := decide (line = t.last + 1)
      let dn := decide (line + 1 = t.last)
      ({ req := req, last := line, up := up, confirmed := up || dn }, k.streams.filter (fun x => !near x))
    | none => ({ req := req, last := line, up := true, confirmed := false },
        if k.streams.length < 8 then k.streams else k.streams.drop 1)
  let ahead := if st.confirmed && k.prefetch then
      ((List.range (k.pfDepth + 1)).map (fun i => if st.up then line + 1 + i else line - 1 - i)).filter (fun l =>
        decide (page l = page line) && (region s (l * 64) = .hbm || region s (l * 64) = .ddr)
        && (tget? k.l2 l).isNone && (tget? k.side l).isNone && !k.fills.contains l)
    else []
  { k with streams := rest ++ [st], fills := k.fills ++ ahead }

/-- L2_FILL: a prefetch read in flight returns; an error is discarded without a report (R329). -/
def State.sideFill (s : State) (c line : Nat) : State :=
  let k := s.cl c
  if k.fills.contains line then
    let k1 := { k with fills := k.fills.filter (· ≠ line) }
    if s.bad.contains line || (tget? k.l2 line).isSome || !k.allocates then s.setCl c k1
    else
      let side := if k1.side.length < 32 then k1.side else k1.side.drop 1
      State.dcAccept (s.setCl c { k1 with side := side ++ [(line, readBytes s.mem (line * 64) 64)],
                                          sideBad := k1.sideBad.filter (· ≠ line) }) (line * 64) false c
  else s

/-! ### Accesses (R326) -/

/-- A demand read that looks up the L2 and allocates; none when the data are uncorrectable. -/
def State.l2Read (s0 : State) (c line req : Nat) (pilot : Bool) : Option (List Byte) × State :=
  let (poison, s) := s0.l2Meets c line
  let k := s.cl c
  match tget? k.l2 line with
  | some e => (if poison then none else some e.data, s.setCl c (k.touch line e.way))
  | none =>
    if !k.allocates then s.memRead line c
    else
      match k.sideGet line with
      | some bs => (some bs, State.l2Alloc (s.setCl c ((k.sideDrop line).train s req line)) c line bs false false pilot)
      | none =>
        match State.memRead (s.setCl c (k.train s req line)) line c with
        | (some bs, s1) => (some bs, s1.l2Alloc c line bs false false pilot)
        | (none, s1) => (none, s1)

/-- A PP load of one line: a line that the L1D holds, whose bytes are the L2's (R325), else the L2.  The L1D takes a line that the L2
holds, while ENABLE is 1 (R337). -/
def State.ppLoadLine (s0 : State) (n line : Nat) (pilot : Bool) : Option (List Byte) × State :=
  let s := s0.l1Scrub n false line
  let c := ppCluster n
  match tget? (s.pp n).l1d line, tget? (s.cl c).l2 line with
  | some w, some e =>
    if e.poison || (tget? (s.cl c).flaws line).isSome then s.l2Read c line n pilot else (some e.data, s.setPp n ((s.pp n).l1dTouch line w))
  | _, _ =>
    match s.l2Read c line n pilot with
    | (some bs, s1) =>
      (some bs, if (s1.cl c).l2En && (tget? (s1.cl c).l2 line).isSome then s1.setPp n ((s1.pp n).l1dLoad line) else s1)
    | r => r

/-- A PP fetch of one line: the L1I keeps what it read until it is invalidated. -/
def State.ppFetchLine (s0 : State) (n line : Nat) (pilot : Bool) : Option (List Byte) × State :=
  let s := s0.l1Scrub n true line
  match tget? (s.pp n).l1i line with
  | some e => (some e.2, s.setPp n ((s.pp n).l1iTouch line e.1))
  | none =>
    match s.l2Read (ppCluster n) line n pilot with
    | (some bs, s1) =>
      (some bs, if (s1.cl (ppCluster n)).l2En then s1.setPp n ((s1.pp n).l1iFetch line bs) else s1)
    | r => r

/-- The bytes of a line with `bs` laid over it at offset `o`. -/
def patch (line : List Byte) (o : Nat) (bs : List Byte) : List Byte := line.take o ++ bs ++ line.drop (o + bs.length)

/-- A store inside one line reaches the L2 of cluster `c`: a PP store, or an operator unit's (`keep` ≥ 256).  During a drain a hit
updates the line and memory (R337); a miss is a demand miss of the prefetcher (R328, R329).  The caller has looked for poison
(`l2Meets`). -/
def State.l2Store (s : State) (c keep d : Nat) (bs : List Byte) (pilot : Bool) : State :=
  let line := d / 64
  let s0 := s.l1dDropOthers c line keep
  let k := s0.cl c
  match tget? k.l2 line with
  | some e =>
    let s1 := s0.setCl c (Cluster.touch { k with
      l2 := tput k.l2 line { e with dirty := k.allocates || e.dirty, data := patch e.data (d % 64) bs } } line e.way)
    if k.allocates then s1 else s1.memWrite d bs
  | none =>
    if !k.allocates then State.memWrite (s0.setCl c (k.sideDrop line)) d bs
    else
      match k.sideGet line with
      | some old =>
        State.l2Alloc (s0.setCl c ((k.sideDrop line).train s0 keep line)) c line (patch old (d % 64) bs) true false pilot
      | none =>
        match State.memRead (s0.setCl c (k.train s0 keep line)) line c with
        | (some old, s1) => s1.l2Alloc c line (patch old (d % 64) bs) true false pilot
        | (none, s1) => s1.l2Alloc c line (patch (readBytes s1.mem (line * 64) 64) (d % 64) bs) true true pilot

/-- An operator-unit read: looks up the L2 and the side buffer, never allocates. -/
def State.unitReadLine (s0 : State) (c line : Nat) : Option (List Byte) × State :=
  let (poison, s) := s0.l2Meets c line
  match tget? (s.cl c).l2 line with
  | some e => (if poison then none else some e.data, s)
  | none =>
    match (s.cl c).sideGet line with
    | some bs => (some bs, s)
    | none => s.memRead line c

/-- R73: a read that bypasses the caches after writing back a dirty copy (LDNC, walk reads, version columns). -/
def State.bypassRead (s : State) (c line : Nat) : Option (List Byte) × State := (s.l2CleanLine c line).memRead line c

/-- A mover write inside one line: L1D copies go, a line the L2 holds is updated, and during a drain memory too, otherwise memory
(R326, R337). -/
def State.dmStore (s : State) (c d : Nat) (bs : List Byte) : State :=
  let line := d / 64
  let s0 := s.l1dDrop c line
  let k := (s0.cl c).sideDrop line
  match tget? k.l2 line with
  | some e =>
    let s1 := s0.setCl c { k with l2 := tput k.l2 line { e with dirty := k.allocates || e.dirty, data := patch e.data (d % 64) bs } }
    if k.allocates then s1 else s1.memWrite d bs
  | none => State.memWrite (s0.setCl c k) d bs

/-- R301: a write by a mover channel of cluster `c`, line by line. -/
def State.dmStores (s : State) (c d : Nat) (bs : List Byte) : Nat → State
  | 0 => s
  | f + 1 =>
    if bs.isEmpty then s
    else
      let n := 64 - d % 64
      (s.dmStore c d (bs.take n)).dmStores c (d + n) (bs.drop n) f

/-- The lines of the L2 of cluster `c` that lie in [d, d + len). -/
def State.l2Within (s : State) (c d len : Nat) : List Nat :=
  ((s.cl c).l2.filter (fun e => decide (d / 64 ≤ e.1) && decide (e.1 < (d + len + 63) / 64))).map (·.1)

/-- R288, R301, R326: what firmware's mover channel of cluster `c` writes at a line's start: lines that the L2 holds are updated, and
the rest goes to memory, in one transfer. -/
def State.wpWrite (s : State) (c d : Nat) (bs : List Byte) : State :=
  if (s.l2Within c d bs.length).isEmpty then
    { s with mem := writeBytes s.mem d bs,
             bad := s.bad.filter (fun b => !(decide (d / 64 ≤ b) && decide (b < d / 64 + bs.length / 64))) }
  else s.dmStores c d bs (bs.length / 64 + 2)

/-- R288, R301, R326: what firmware's mover channel of cluster `c` reads of whole lines: from the L2 where it holds a line, or from
memory; none when a line cannot be returned. -/
def State.wpRead (s : State) (c d len : Nat) : Option (List Byte) × State :=
  let held := s.l2Within c d len
  let (poison, s1) := held.foldl (fun (a : Bool × State) l => let (b, t) := a.2.l2Meets c l; (a.1 || b, t)) (false, s)
  if poison then (none, s1)
  else
    match (List.range (len / 64)).find? (fun i => s1.bad.contains (d / 64 + i) && (tget? (s1.cl c).l2 (d / 64 + i)).isNone) with
    | some i => (none, s1.memUncorrectable (d + 64 * i))
    | none =>
      if held.isEmpty then (some (readBytes s1.mem d len), s1)
      else
        (some ((List.range (len / 64)).flatMap (fun i =>
          match tget? (s1.cl c).l2 (d / 64 + i) with
          | some e => e.data
          | none => readBytes s1.mem (d + 64 * i) 64)), s1)

/-- A far atomic's cache action: a dirty copy is written back, then the issuing cluster's L1 and L2 copies go (R24, R326). -/
def State.farCaches (s : State) (c line : Nat) : State :=
  let s1 := (s.l2Evict c line).l1iDrop c line
  s1.setCl c ((s1.cl c).sideDrop line)

/-- Lines of [a, a + len). -/
def linesOf (a len : Nat) : List Nat :=
  if len = 0 then [] else (List.range ((a + len - 1) / 64 + 1 - a / 64)).map (· + a / 64)

/-- Writes back the dirty lines of the L2 for which `p` holds; true when one of them carried poison. -/
def State.cleanWhere (s : State) (c : Nat) (p : Nat → Bool) : Bool × State :=
  ((s.cl c).l2.filter (fun e => p e.1 && e.2.dirty)).foldl
    (fun (b, t) e =>
      let t1 := t.l2Scrub c e.1
      (b || (match tget? (t1.cl c).l2 e.1 with | some x => x.poison | none => false), t1.l2CleanLine c e.1)) (false, s)

/-- R23, R74: writes back the dirty lines wholly or partly in [a, a + len). -/
def State.cleanRange (s : State) (c a len : Nat) : Bool × State :=
  if len = 0 then (false, s) else s.cleanWhere c (fun l => decide (a / 64 ≤ l ∧ l ≤ (a + len - 1) / 64))

end Sys2Proof.Machine
end

