-- ==== Sys2Proof/Machine/Translate.lean ====
section
/-!
DEFINITION. Address translation (14): the table format, walks through the walk caches, the unit TLBs and the STU, fault
records, the PP TLB and the dropping of cached translations.
-/
namespace Sys2Proof.Machine

open Sys2Proof

/-! ### Entries (R303–R305, R316) -/

inductive Stage where
  | one | two | stt
  deriving DecidableEq, Repr

def Stage.tag : Stage → Nat
  | .one => 0
  | .two => 1
  | .stt => 2

def ptV (e : Word) : Bool := e.getLsbD 0
def ptT (e : Word) : Bool := e.getLsbD 1
def ptR (e : Word) : Bool := e.getLsbD 2
def ptW (e : Word) : Bool := e.getLsbD 3
def ptX (e : Word) : Bool := e.getLsbD 4
def ptSpan (e : Word) : Nat := bits e.toNat 10 5
def ptDevice (e : Word) : Bool := e.getLsbD 11
def ptAddr (e : Word) : Nat := bits e.toNat 47 12 * 4096
def ptVcol (e : Word) : Bool := e.getLsbD 48

/-- log2 of the leaf size at a level: 30, 21, 12. -/
def leafLog (level : Nat) : Nat := 39 - 9 * level

/-- Index of `a` at a level. -/
def ptIndex (a level : Nat) : Nat := bits a (47 - 9 * level) (39 - 9 * level)

def inHostWindow (d : Nat) : Bool := decide (hostBase ≤ d ∧ d < regBase)

/-- R304, R316: a valid entry breaks the format. -/
def badFormat (st : Stage) (level : Nat) (e : Word) : Bool :=
  let leaf := !ptT e
  decide (bits e.toNat 63 49 ≠ 0)
  || (ptVcol e && (ptT e || st ≠ .two))
  || (leaf && st = .two && ptVcol e && (ptDevice e || !ptR e))
  || (leaf && decide (level = 0)) || (ptT e && decide (level = 3))
  || (leaf && decide (ptAddr e % 2 ^ leafLog level ≠ 0))
  || (leaf && st = .one && ptDevice e)
  || (leaf && st ≠ .one && ptDevice e && !inHostWindow (ptAddr e))
  || (st = .stt && leaf && (decide (level ≠ 3) || decide (bits e.toNat 10 6 ≠ 0)))

/-- R305: log2 of a leaf's effective size at input address `a`. -/
def effLog (e : Word) (level a : Nat) : Nat :=
  let v := ptSpan e
  if 12 ≤ v ∧ v ≤ 40 ∧ leafLog level ≤ v ∧ (a / 4096 * 4096) % 2 ^ v = (ptAddr e + a % 2 ^ leafLog level) / 4096 * 4096 % 2 ^ v
  then v else leafLog level

/-- The leaf's output for input `a`. -/
def leafOut (e : Word) (level a : Nat) : Nat := ptAddr e + a % 2 ^ leafLog level

/-! ### Faults -/

/-- R313, R322: what stopped a translation. -/
structure XFault where
  cause : Nat
  level : Nat          -- 0xFF when no walk stopped
  stage : Bool
  s1Fetch : Bool
  s1Level : Nat
  table : Nat          -- XWADDR
  dpa : Nat            -- XWDPA
  entry : Word
  ppa : Nat
  hit : Bool           -- the entry came from the walk cache
  deriving DecidableEq, Repr

/-- A fault outside any walk. -/
def XFault.plain (cause ppa : Nat) : XFault :=
  { cause := cause, level := 0xFF, stage := false, s1Fetch := false, s1Level := 0xFF, table := 0, dpa := 0, entry := 0,
    ppa := ppa, hit := false }

/-- A fault outside any walk of an STT agent: STAGE is 1 for the STT (R322). -/
def XFault.ofStt (cause ppa : Nat) : XFault := { XFault.plain cause ppa with stage := true }

def xcTranslation : Nat := 1
def xcPermission : Nat := 2
def xcFormat : Nat := 3
def xcAddressSize : Nat := 4
def xcDevice : Nat := 5
def xcUnmapped : Nat := 6
def xcReserved : Nat := 7
def xcMemory : Nat := 8
def xcRefused : Nat := 9
def xcOff : Nat := 10

/-- A table entry could not be read. -/
def XFault.uncorrectable (f : XFault) : Bool := f.cause == xcMemory

/-! ### Walk caches (R302, R312) -/

/-- Which walker's cache. -/
inductive WSel where
  | cluster (c : Nat)
  | io
  | stu
  deriving DecidableEq, Repr

def State.walkList (s : State) : WSel → List WalkEntry
  | .cluster c => (s.cl c).walk
  | .io => s.ioWalk
  | .stu => s.stuWalk

def State.setWalk (s : State) : WSel → List WalkEntry → State
  | .cluster c, l => s.setCl c { s.cl c with walk := l }
  | .io, l => { s with ioWalk := l }
  | .stu, l => { s with stuWalk := l }

def WSel.cap : WSel → Nat
  | .cluster _ => 1024
  | .io => 512
  | .stu => 256

def WSel.num : WSel → Nat
  | .cluster c => c
  | _ => 64

/-- INSTANCE of a walker's log entries. -/
def WSel.inst : WSel → Nat
  | .cluster c => c
  | _ => noInst

/-- Takes out one entry, chosen by a free value (log entry 11). -/
def dropOne {α : Type} (l : List α) (k : Nat) : List α := l.eraseIdx (k % l.length)

/-- R312: sets of the cluster walk cache.  Which bits of the entry address select the set the spec does not say (DESIGN CHOICE,
log entry 11). -/
def WalkEntry.set (e : WalkEntry) : Nat := e.addr / 8 % 128

/-- The entries among which a new one is kept, and how many may be: a cluster's cache has 128 sets of 8 ways (R312); of the
I/O and STU caches only the size is given (R302, R316). -/
def WSel.rivals (sel : WSel) (e : WalkEntry) (l : List WalkEntry) : List WalkEntry × Nat :=
  match sel with
  | .cluster _ => (l.filter (fun x => x.set == e.set), 8)
  | _ => (l, sel.cap)

def State.walkKeep (s : State) (sel : WSel) (e : WalkEntry) : State :=
  let l := s.walkList sel
  let (mine, ways) := sel.rivals e l
  if mine.length < ways then s.setWalk sel (e :: l)
  else
    let (k, s1) := s.free
    s1.setWalk sel (e :: l.erase (mine.getD (k % mine.length) e))

def State.walkMissed (s : State) : WSel → State
  | .cluster c => s.setCl c { s.cl c with walkMiss := satInc (s.cl c).walkMiss 0xFFFFFFFF }
  | _ => s

/-- R311, R373: reads a table entry of 8 bytes at DPA `d`; `dev` when its stage-2 leaf has DEVICE, `host` when the table may lie in
the host window.  Answers the fault cause, or the entry and whether the walk cache held it.  A read of an unpopulated range is
logged (R16).  Whether a read refused with WALK_RESERVED also logs E_DPA_RESERVED the spec leaves open; it logs nothing here
(DESIGN CHOICE, log entry 34). -/
def State.readEntry (s : State) (sel : WSel) (part : Nat) (st : Stage) (tag d : Nat) (dev host : Bool) :
    Except Nat (Word × Bool) × State :=
  match region s d with
  | .reg => (.error xcDevice, s)
  | .unmapped => (.error xcUnmapped, s.log 0x0104 sel.inst part (BitVec.ofNat 64 d))
  | .keep => (.error xcReserved, s)
  | .engine _ => (.error xcReserved, s)
  | r =>
    if r = .host && (dev || !host) then (.error xcDevice, s)
    else
      match (s.walkList sel).find? (fun e => e.part == part && e.stage == st.tag && e.addr == tag) with
      | some e => (.ok (e.entry, true), s)
      | none =>
        let s1 := s.walkMissed sel
        if r = .host then
          match s1.hostTake (.walk sel.num) (some part) d 8 with
          | (.ok bs, s2) => (.ok (BitVec.ofNat 64 (leNat bs), false), s2)
          | (.error k, s2) => (.error (if k = 1 then xcUnmapped else xcMemory), s2)
        else
          let rd := match sel with
            | .cluster c => s1.bypassRead c (d / 64)
            | _ => s1.memRead (d / 64) 64
          match rd with
          | (some bs, s2) => (.ok (BitVec.ofNat 64 (fld bs (d % 64) 8), false), s2)
          | (none, s2) => (.error xcMemory, s2)

/-- Checks a table entry that was read, and keeps it when it is valid (R303, R304, R312). -/
def State.checkEntry (s : State) (sel : WSel) (part : Nat) (st : Stage) (level tag : Nat) (e : Word) (hit : Bool) :
    Option Nat × State :=
  if !ptV e then (some xcTranslation, s)
  else if badFormat st level e then (some xcFormat, s)
  else (none, if hit then s else s.walkKeep sel { part := part, stage := st.tag, addr := tag, entry := e })

/-- One level of a stage-2 or STT walk. -/
def State.stepS2 (s : State) (sel : WSel) (part : Nat) (st : Stage) (a level table : Nat) :
    Except XFault (Word × Bool) × State :=
  let d := table + 8 * ptIndex a level
  let flt := fun (cause : Nat) (e : Word) (hit : Bool) =>
    ({ cause := cause, level := level, stage := true, s1Fetch := false, s1Level := 0xFF, table := d, dpa := 0, entry := e,
       ppa := a, hit := hit } : XFault)
  match s.readEntry sel part st d d false false with
  | (.error c, s1) => (.error (flt c 0 false), s1)
  | (.ok (e, hit), s1) =>
    match s1.checkEntry sel part st level d e hit with
    | (some c, s2) => (.error (flt c e hit), s2)
    | (none, s2) => (.ok (e, hit), s2)

/-- A stage-2 or STT walk from `level`: the leaf, its level and its address. -/
def State.walkS2At (s : State) (sel : WSel) (part : Nat) (st : Stage) (a : Nat) :
    Nat → Nat → Nat → Except XFault (Word × Nat × Nat) × State
  | 0, _, _ => (.error (XFault.plain xcFormat a), s)
  | f + 1, level, table =>
    match s.stepS2 sel part st a level table with
    | (.error x, s1) => (.error x, s1)
    | (.ok (e, _), s1) =>
      if ptT e then s1.walkS2At sel part st a f (level + 1) (ptAddr e) else (.ok (e, level, table + 8 * ptIndex a level), s1)

/-- R307: whether the entry at which a stage-2 walk ends comes from the walk cache. -/
def State.leafHit (s : State) (sel : WSel) (part : Nat) (st : Stage) (a : Nat) : Nat → Nat → Nat → Bool
  | 0, _, _ => false
  | f + 1, level, table =>
    match s.stepS2 sel part st a level table with
    | (.error _, _) => false
    | (.ok (e, hit), s1) => if ptT e then s1.leafHit sel part st a f (level + 1) (ptAddr e) else hit

/-- A stage-2 or STT walk: the leaf and its level. -/
def State.walkS2 (s : State) (sel : WSel) (part : Nat) (st : Stage) (a f level table : Nat) : Except XFault (Word × Nat) × State :=
  match s.walkS2At sel part st a f level table with
  | (.error x, s1) => (.error x, s1)
  | (.ok (e, l, _), s1) => (.ok (e, l), s1)

/-- A complete stage-2 walk of `part` from its live root. -/
def State.stage2 (s : State) (sel : WSel) (part ppa : Nat) : Except XFault (Word × Nat) × State :=
  s.walkS2 sel part .two ppa 4 0 (ptAddr (s.part part).xlat.s2)

/-- R310: one level of stage 1; the entry's PPA goes through stage 2, which needs R. -/
def State.stepS1 (s : State) (sel : WSel) (part a level table : Nat) : Except XFault (Word × Bool × Nat) × State :=
  let p := table + 8 * ptIndex a level
  match s.walkS2At sel part .two p 4 0 (ptAddr (s.part part).xlat.s2) with
  | (.error x, s1) =>
    (.error { x with s1Fetch := true, s1Level := level, table := p, dpa := x.table, ppa := p }, s1)
  | (.ok (f, fl, leaf), s1) =>
    let d := leafOut f fl p
    if !ptR f then
      (.error { cause := xcPermission, level := fl, stage := true, s1Fetch := true, s1Level := level, table := p, dpa := leaf,
                entry := f, ppa := p, hit := s.leafHit sel part .two p 4 0 (ptAddr (s.part part).xlat.s2) }, s1)
    else
      let flt := fun (cause : Nat) (e : Word) (hit : Bool) =>
        ({ cause := cause, level := level, stage := false, s1Fetch := false, s1Level := 0xFF, table := p, dpa := d, entry := e,
           ppa := 0, hit := hit } : XFault)
      match s1.readEntry sel part .one p d (ptDevice f) true with
      | (.error c, s2) => (.error (flt c 0 false), s2)
      | (.ok (e, hit), s2) =>
        match s2.checkEntry sel part .one level p e hit with
        | (some c, s3) => (.error (flt c e hit), s3)
        | (none, s3) => (.ok (e, hit, d), s3)

/-- A stage-1 walk from `level`: the leaf, its level and its address. -/
def State.walkS1 (s : State) (sel : WSel) (part va : Nat) : Nat → Nat → Nat → Except XFault (Word × Nat × Nat) × State
  | 0, _, _ => (.error (XFault.plain xcFormat 0), s)
  | f + 1, level, table =>
    match s.stepS1 sel part va level table with
    | (.error x, s1) => (.error x, s1)
    | (.ok (e, _, _), s1) => if ptT e then s1.walkS1 sel part va f (level + 1) (ptAddr e)
      else (.ok (e, level, table + 8 * ptIndex va level), s1)

/-! ### Unit TLBs (R315) -/

def XEntry.hits (x : XEntry) (part a : Nat) : Bool := x.part = part && x.va >>> x.sizeLog2 = a >>> x.sizeLog2

def XEntry.out (x : XEntry) (a : Nat) : Nat := x.dpa + a % 2 ^ x.sizeLog2

/-- R322: the PPA reached for address `a`. -/
def XEntry.reached (x : XEntry) (a : Nat) : Nat := x.ppa + a % 2 ^ x.sizeLog2

def State.unitTlb (s : State) : WSel → List XEntry
  | .cluster c => (s.cl c).unitTlb
  | .io => s.ioTlb
  | .stu => s.stu

def State.setUnitTlb (s : State) : WSel → List XEntry → State
  | .cluster c, l => s.setCl c { s.cl c with unitTlb := l }
  | .io, l => { s with ioTlb := l }
  | .stu, l => { s with stu := l }

def State.tlbKeep (s : State) (sel : WSel) (cap : Nat) (x : XEntry) : State :=
  let l := s.unitTlb sel
  if l.length < cap then s.setUnitTlb sel (x :: l)
  else
    let (k, s1) := s.free
    s1.setUnitTlb sel (x :: dropOne l k)

/-- The unit TLB entry for a pair of leaves, sized as firmware's handler does (R314). -/
def joinLeaves (part va : Nat) (e : Word) (el : Nat) (f : Word) (fl ppa : Nat) : XEntry :=
  let k := min (effLog e el va) (effLog f fl ppa)
  { part := part, va := alignDown va (2 ^ k), ppa := alignDown ppa (2 ^ k), sizeLog2 := k, dpa := alignDown (leafOut f fl ppa) (2 ^ k),
    r := ptR e && ptR f, w := ptW e && ptW f, x := ptX e && ptX f, device := ptDevice f, vcol := ptVcol f }

/-- What an access needs (R302). -/
structure Need where
  r : Bool
  w : Bool
  x : Bool
  deriving DecidableEq, Repr

def needR : Need := { r := true, w := false, x := false }
def needW : Need := { r := false, w := true, x := false }
def needX : Need := { r := false, w := false, x := true }
def needRW : Need := { r := true, w := true, x := false }

/-- A leaf's permissions. -/
def ptPermits (e : Word) (n : Need) : Bool := (!n.r || ptR e) && (!n.w || ptW e) && (!n.x || ptX e)

def XEntry.permits (x : XEntry) (n : Need) : Bool := (!n.r || x.r) && (!n.w || x.w) && (!n.x || x.x)

/-- VA → DPA by both stages through a unit TLB and its walker (R302, R315).  A write whose translation carries VCOL is left to
its caller to refuse, whatever W says (R22). -/
def State.xlateUnit (s : State) (sel : WSel) (part va : Nat) (need : Need) : Except XFault XEntry × State :=
  if va ≥ 2 ^ 48 then (.error (XFault.plain xcAddressSize 0), s)
  else if !(s.part part).xlat.enable then (.error (XFault.plain xcOff 0), s)
  else
    let cap := match sel with | .cluster _ => 256 | _ => 512
    let fin := fun (x : XEntry) (s1 : State) =>
      if x.permits need || (need.w && x.vcol) then (Except.ok x, s1)
      else (Except.error (XFault.plain xcPermission (x.reached va)), s1)
    match (s.unitTlb sel).find? (fun x => x.hits part va) with
    | some x => fin x s
    | none =>
      match s.walkS1 sel part va 4 0 (ptAddr (s.part part).xlat.s1) with
      | (.error f, s1) => (.error f, s1)
      | (.ok (e, el, _), s1) =>
        let ppa := leafOut e el va
        match s1.stage2 sel part ppa with
        | (.error f, s2) => (.error f, s2)
        | (.ok (f, fl), s2) =>
          let x := joinLeaves part va e el f fl ppa
          fin x (s2.tlbKeep sel cap x)

/-! ### The system translation table (R316, R318) -/

/-- PPA → DPA for the agents of R302's table; slots are kept most recently used first. -/
def State.sttXlate (s : State) (part ppa : Nat) (need : Need) : Except XFault Nat × State :=
  if ppa ≥ 2 ^ 48 then (.error (XFault.ofStt xcAddressSize ppa), s)
  else if !(s.part part).xlat.enable then (.error (XFault.ofStt xcOff ppa), s)
  else
    let fin := fun (x : XEntry) (s1 : State) =>
      if x.permits need then (Except.ok (x.out ppa), s1) else (Except.error (XFault.ofStt xcPermission ppa), s1)
    match s.stu.find? (fun x => x.hits part ppa) with
    | some x => fin x { s with stu := x :: s.stu.filter (· ≠ x) }
    | none =>
      match s.walkS2 .stu part .stt ppa 4 0 (ptAddr (s.part part).xlat.stt) with
      | (.error f, s1) => (.error f, s1)
      | (.ok (e, _), s1) =>
        let page := ppa / 4096 * 4096
        let base := ptAddr e - page % 65536
        let wide := e.getLsbD 5 && decide (page % 65536 ≤ ptAddr e) && decide (base % 65536 = 0)
        let x : XEntry :=
          { part := part, va := if wide then alignDown ppa 65536 else page, ppa := if wide then alignDown ppa 65536 else page, sizeLog2 := if wide then 16 else 12,
            dpa := if wide then base else ptAddr e, r := ptR e, w := ptW e, x := false, device := ptDevice e, vcol := false }
        fin x { s1 with stu := (x :: s1.stu).take 1024 }

/-- R15, R16, R18 for a request that originates in a partition: true when it is refused; the refusal is logged. -/
def State.dpaRefused (s : State) (part inst d : Nat) : Bool × State :=
  match region s d with
  | .keep => (true, s.log 0x0103 inst part (BitVec.ofNat 64 d))
  | .engine _ => (true, s.log 0x0103 inst part (BitVec.ofNat 64 d))
  | .reg => (true, s.log 0x0103 inst part (BitVec.ofNat 64 d))
  | .unmapped => (true, s.log 0x0104 inst part (BitVec.ofNat 64 d))
  | _ => (false, s)

/-- An STT translation followed by the refusals of R15, R16 and R18. -/
def State.sttAccess (s : State) (part ppa : Nat) (need : Need) : Except XFault Nat × State :=
  match s.sttXlate part ppa need with
  | (.error f, s1) => (.error f, s1)
  | (.ok d, s1) =>
    match s1.dpaRefused part noInst d with
    | (true, s2) => (.error (XFault.ofStt xcRefused ppa), s2)
    | (false, s2) => (.ok d, s2)

/-! ### Fault records (R321–R323) -/

/-- Who faulted. -/
structure FaultCtx where
  part : Nat
  sq : Nat
  seq : BitVec 32
  agent : Nat
  cluster : Nat
  pp : Nat
  deriving DecidableEq, Repr

def nativeFault (c : FaultCtx) (f : XFault) (write exec : Bool) (addr n : Nat) (stamp : Word) : List Byte :=
  leBytes 2 c.part ++ leBytes 2 c.sq ++ leBytes 4 c.seq.toNat ++ leBytes 1 f.cause
    ++ leBytes 1 (b2n write + 2 * b2n exec + 4 * b2n f.s1Fetch + 8 * b2n f.stage) ++ leBytes 1 f.level
    ++ leBytes 1 (if f.s1Fetch then f.s1Level else 0xFF) ++ leBytes 1 c.agent ++ leBytes 1 c.cluster ++ leBytes 1 c.pp
    ++ leBytes 1 1 ++ leBytes 8 addr ++ leBytes 8 f.ppa ++ leBytes 8 f.table ++ leBytes 8 f.entry.toNat
    ++ leBytes 8 stamp.toNat ++ leBytes 4 n ++ zeros 4

def compatCode : Nat → Nat
  | 1 => 1
  | 2 => 2
  | 3 => 3
  | 4 => 4
  | 5 => 5
  | 6 => 5
  | 7 => 5
  | 8 => 5
  | 9 => 6
  | _ => 1

def compatFault (f : XFault) (write : Bool) (addr : Nat) : List Byte :=
  leBytes 1 (compatCode f.cause + 16 * (if f.level = 0xFF then 0 else f.level) + 64 * b2n f.stage + 128 * b2n write)
    ++ leBytes 1 1 ++ leBytes 6 addr ++ leBytes 6 f.ppa ++ zeros 2

/-- R322: makes record n of the partition; a fault on the ring write drops it (R318). -/
def State.faultRecord (s : State) (c : FaultCtx) (f : XFault) (write exec : Bool) (addr : Nat) : State :=
  let p := s.part c.part
  let n := p.faultN
  let s1 := s.setPart c.part { p with faultN := n + 1 }
  let size := if p.xlat.compat then 16 else 64
  let ppa := ptAddr p.xlat.fb + n % 2 ^ p.xlat.faultLog2 * size
  let bs := if p.xlat.compat then compatFault f write addr else nativeFault c f write exec addr n s.fc.chrono
  let lost := fun (t : State) => t.log 0x0704 noInst c.part 0
  match s1.sttAccess c.part ppa needW with
  | (.error _, s2) => lost s2
  | (.ok d, s2) =>
    match region s2 d with
    | .host =>
      match s2.hostPost p.hostPort (some p.pasid) (d - hostBase) bs with
      | (true, s3) => s3.raisePart c.part 28
      | (false, s3) => lost s3
    | _ => (s2.memWrite d bs).raisePart c.part 28

/-! ### Dropping cached translations (R306, R309, R319) -/

def rangesMeet (a la b lb : Nat) : Bool := decide (a < b + lb) && decide (b < a + la)

/-- R307: the fields of a TLB slot. -/
def tlbVa (e : Word × Word) : Nat := bits e.1.toNat 47 12 * 4096
def tlbPart (e : Word × Word) : Nat := bits e.1.toNat 56 48
def tlbLog (e : Word × Word) : Nat := bits e.1.toNat 62 57
def tlbDpa (e : Word × Word) : Nat := bits e.2.toNat 47 12 * 4096
def tlbVcol (e : Word × Word) : Bool := e.2.getLsbD 4
def tlbDevice (e : Word × Word) : Bool := e.2.getLsbD 3
def tlbPermits (e : Word × Word) (n : Need) : Bool :=
  (!n.r || e.2.getLsbD 0) && (!n.w || e.2.getLsbD 1) && (!n.x || e.2.getLsbD 2)

def tlbHits (e : Word × Word) (part a : Nat) : Bool := tlbPart e = part && tlbVa e >>> tlbLog e = (a % 2 ^ 48) >>> tlbLog e

/-- The entry that matches (R307). -/
def Pp.tlbFind (p : Pp) (part a : Nat) : Option (Word × Word) := (p.tlb.find? (fun e => tlbHits e.2 part a)).map (·.2)

/-- Drops p's entries in every PP TLB, unit TLB and walk cache: all of them, or with a range those that overlap it. -/
def State.dropStages (s : State) (p : Nat) (range : Option (Nat × Nat)) : State :=
  let keepT := fun (part va len : Nat) => part ≠ p || (match range with | some (a, l) => !rangesMeet va len a l | none => false)
  { s with
    pps := tmap s.pps (fun _ q => { q with tlb := q.tlb.filter (fun e => keepT (tlbPart e.2) (tlbVa e.2) (2 ^ tlbLog e.2)) }),
    cls := tmap s.cls (fun _ k => { k with
      walk := k.walk.filter (fun e => e.part ≠ p),
      unitTlb := k.unitTlb.filter (fun x => keepT x.part x.va (2 ^ x.sizeLog2)) }),
    ioTlb := s.ioTlb.filter (fun x => keepT x.part x.va (2 ^ x.sizeLog2)),
    ioWalk := s.ioWalk.filter (fun e => e.part ≠ p) }

/-- Drops p's STU slots and STU walk cache entries. -/
def State.dropStu (s : State) (p : Nat) (range : Option (Nat × Nat)) : State :=
  { s with
    stu := s.stu.filter (fun x => x.part ≠ p || (match range with | some (a, l) => !rangesMeet x.va (2 ^ x.sizeLog2) a l | none => false)),
    stuWalk := s.stuWalk.filter (fun e => e.part ≠ p) }

/-- Partition of the PP's current or interrupted leg. -/
def State.ppPart (s : State) (q : Pp) : Option Nat :=
  match q.running with
  | some l => (s.leg? l).map (·.entry.part)
  | none => none

/-- R314: sets XWSTAT.STALE in every PP whose leg belongs to p. -/
def State.setStale (s : State) (p : Nat) : State :=
  { s with pps := tmap s.pps (fun _ q =>
      if s.ppPart q = some p then q.setCsr csrXWSTAT (q.getCsr csrXWSTAT ||| 0x8000#64) else q) }

/-- R319 SCOPE 0b00, R306. -/
def State.dropAllOf (s : State) (p : Nat) : State := ((s.dropStages p none).dropStu p none).setStale p

end Sys2Proof.Machine
end

