-- ==== Sys2Proof/Machine/Legs.lean ====
section
/-!
DEFINITION. Legs between placement and completion: capacity and charges (R36–R38), waypoint slots and records (R47, R48),
completion reservations and posting (R57–R59, R483), admission (R283, R284), tickets (R82–R85), mover channels' ends
(R293, R296, R299), the end of a leg in error (R43, R97), partition halts (R276) and the fail-stop (R277).
-/
namespace Sys2Proof.Machine

open Sys2Proof

/-! ### Queries -/

def insertBy {α : Type} (key : α → Nat) (a : α) : List α → List α
  | [] => [a]
  | b :: t => if key a ≤ key b then a :: b :: t else b :: insertBy key a t

/-- Stable insertion sort by a number: equal keys keep their order. -/
def sortBy {α : Type} (key : α → Nat) : List α → List α
  | [] => []
  | a :: t => insertBy key a (sortBy key t)

def Leg.left (g : Leg) : Nat := g.entry.budget.toNat - g.used

/-- R36. -/
def State.cap (s : State) : Nat := s.fc.epochLen * s.fc.capMhz

def State.uncharged (s : State) (n : Nat) : Nat := s.cap - (s.pp n).charged

/-- R283 CHARGED(p, c). -/
def State.chargedOf (s : State) (p c : Nat) : Nat :=
  ((s.legs.filter (fun e => e.2.entry.part = p && e.2.home = c)).map (fun e => e.2.charge)).sum

/-- R359. -/
def State.share (s : State) (p c : Nat) : Nat :=
  if (s.part p).clusters.getLsbD c then 4 * s.cap * tgetD s.fc.live.share p 0 / 1000 else 0

/-- R284. -/
def State.choosePp (s : State) (c ch : Nat) : Option Nat :=
  ((List.range 4).map (· + 4 * c)).foldl (fun best n =>
    if (s.pp n).nextSlot.isSome || decide (s.uncharged n < ch) then best
    else match best with
      | none => some n
      | some b => if s.uncharged b < s.uncharged n then some n else best) none

/-- R47: the lowest-numbered free waypoint slot of a cluster. -/
def State.freeWaypoint (s : State) (c : Nat) : Option Nat :=
  (List.range 64).find? (fun k => !s.legs.any (fun e => e.2.wpSlot == some (c, k)))

def Queue.count (q : Queue) : Nat := (q.p - q.c).toNat
def Queue.size (q : Queue) : Nat := 2 ^ q.sizeLog2

/-- Slot reservations of a CQ: admitted legs', and those of completions kept while they cannot be posted (R57, R483). -/
def State.slotResv (s : State) (q : Nat) : Nat :=
  (s.legs.filter (fun e => e.2.resv == some .slot && e.2.entry.cq == q)).length
    + ((s.part (s.cq q).part).linkHeld.filter (fun x => x.1.cq == q && x.2 == .slot)).length

/-- Entries of a partition's holding buffer, occupied or reserved. -/
def State.holdUsed (s : State) (p : Nat) : Nat :=
  (s.part p).holding.length + ((s.part p).linkHeld.filter (fun x => x.2 == .holding)).length
    + (s.legs.filter (fun e => e.2.entry.part == p && e.2.resv == some .holding)).length

def State.cqWaits (s : State) (q : Nat) : Bool :=
  (s.part (s.cq q).part).holding.any (fun c => c.cq == q)
  || (s.part (s.cq q).part).linkHeld.any (fun x => x.1.cq == q && x.2 == .holding)

/-- The CQ of partition `p` with local number `ln` (R264). -/
def State.cqLocal (s : State) (p ln : Nat) : Option Nat :=
  (s.cqs.find? (fun e => e.2.exist && e.2.part = p && e.2.ln = ln)).map (·.1)

/-- R57: the place that can be reserved in CQ `q` of partition `p`. -/
def State.reserveIn (s : State) (p q : Nat) : Option Reserv :=
  if s.slotResv q + (s.cq q).count < (s.cq q).size && !s.cqWaits q then some .slot
  else if s.holdUsed p < 256 then some .holding
  else none

/-- R57, R266: the CQ that the entry names by its local number, and the place that can be reserved in it.  While no such CQ exists,
which R273 allows, no reservation can be made (DESIGN CHOICE, log entry 30). -/
def State.reserveFor (s : State) (g : Leg) : Option (Nat × Reserv) :=
  (s.cqLocal g.entry.part g.entry.cqLocal).bind (fun q => (s.reserveIn g.entry.part q).map (fun r => (q, r)))

/-- R283, R360: eligible partitions. -/
def State.eligible (s : State) (p : Nat) : Bool :=
  let q := s.part p
  q.exist && !q.halted && !q.quiesced && q.quiesce.isNone && s.fc.ticking && !s.failStopped

/-- R35, R281, R360: the LS may admit a leg of partition `p` whose hold has ended. -/
def State.lsMay (s : State) (p : Nat) : Bool :=
  !(s.part p).quiesced && (s.part p).quiesce.isNone && s.fc.ticking && !s.failStopped

/-! ### Admission (R283–R285) -/

def State.chargeLeg (s : State) (l n ch : Nat) : State :=
  match s.leg? l with
  | some g =>
    let p := s.pp n
    let k := s.cl (ppCluster n)
    ((s.setLeg l { g with charge := ch, usedAtOpen := g.used, home := ppCluster n }).setPp n { p with charged := p.charged + ch }).setCl
      (ppCluster n) { k with admitted := k.admitted + 1 }
  | none => s

/-- X1 at the leg's start: its argument block (R267). -/
def LegEntry.args (e : LegEntry) : Word := if e.inl then e.scratch else e.argp

/-- R285: prefetch of 256 B of code and 128 B of the argument block through the PP's TLB; a miss is dropped. -/
def State.prefetchLeg (s : State) (n : Nat) (g : Leg) : State :=
  let one := fun (t : State) (va : Nat) (code : Bool) =>
    match (t.pp n).tlbFind g.entry.part va with
    | some e =>
      let d := tlbDpa e + va % 2 ^ tlbLog e
      if tlbVcol e || !tlbPermits e (if code then needX else needR) then t
      else if region t d = .hbm || region t d = .ddr then
        (if code then (t.ppFetchLine n (d / 64) true).2 else (t.ppLoadLine n (d / 64) true).2)
      else t
    | none => t
  let s1 := (linesOf g.entry.code.toNat 256).foldl (fun t l => one t (l * 64) true) s
  (linesOf g.entry.args.toNat 128).foldl (fun t l => one t (l * 64) false) s1

/-- Moves a leg to a next-slot and charges it: its admission to the epoch (R37), with the prefetch of R285. -/
def State.admitTo (s : State) (l : Nat) (g : Leg) (n ch : Nat) : State :=
  State.prefetchLeg (State.chargeLeg ((s.setLeg l { g with place := .next n, home := ppCluster n, hold := none, holdOver := false }).setPp n
    { s.pp n with nextSlot := some l }) l n ch) n g

def legOnReady (c : Nat) (g : Leg) : Bool := g.place = .ready c
def legHeldDone (c : Nat) (g : Leg) : Bool := g.place = .held c && g.holdOver

/-- Ready legs of a cluster: by level, then placement order. -/
def State.readyList (s : State) (c : Nat) : List (Nat × Leg) :=
  sortBy (fun e => e.2.entry.priority) (sortBy (fun e => e.2.order) (s.legs.filter (fun e => legOnReady c e.2)))

/-! ### Waypoints (R47, R48) -/

def waypointBase (c slot : Nat) : Nat := (if c < 32 then 0x10000000 else 0x20000000) + ((c % 32) * 64 + slot) * 12288

def vregBytes (v : VReg) : List Byte := leBytes 256 v.toNat

def Waypoint.bytes (w : Waypoint) (part sq : Nat) (seq : BitVec 32) : List Byte :=
  leBytes 2 part ++ leBytes 2 sq ++ leBytes 4 seq.toNat ++ leBytes 8 w.pc.toNat ++ leBytes 4 w.budgetLeft
    ++ leBytes 2 w.carries ++ leBytes 2 w.flags ++ leBytes 8 w.snapshot.toNat ++ leBytes 8 w.startStamp.toNat
    ++ leBytes 8 w.stopStamp.toNat ++ leBytes 4 w.vl.toNat ++ leBytes 4 w.vcfg.toNat ++ leBytes 4 w.vresume.toNat
    ++ leBytes 4 w.vfault.toNat
    ++ ((List.range 32).map (fun i => leBytes 8 (tgetD w.x i 0).toNat)).flatten
    ++ ((List.range 32).map (fun i => leBytes 8 (tgetD w.csr i 0).toNat)).flatten
    ++ ((List.range 32).map (fun i => vregBytes (tgetD w.v i 0))).flatten
    ++ ((List.range 8).map (fun i => vregBytes (tgetD w.m i 0))).flatten
    ++ zeros 1472

/-- A leg that R360 has returned to a ready list after it had started keeps its waypoint with its entry; the slot that it reserves
again takes the record (DESIGN CHOICE, log entry 30). -/
def State.wpPlace (s : State) (c k : Nat) (g : Leg) : State :=
  match g.started, g.waypoint with
  | true, some w => s.wpWrite c (waypointBase c k) (w.bytes g.entry.part g.entry.sq g.entry.seq)
  | _, _ => s

/-- R283, one ready leg. -/
def State.tryAdmit (s : State) (c : Nat) (within : Bool) (e : Nat × Leg) : Option State :=
  let (l, g) := e
  let ch := min g.left s.cap
  if !s.eligible g.entry.part then none
  else if within && decide (s.share g.entry.part c < s.chargedOf g.entry.part c + ch) then none
  else
    match s.choosePp c ch with
    | none => none
    | some n =>
      match s.freeWaypoint c, s.reserveFor g with
      | some k, some (q, r) =>
        let s1 := { s with order := s.order + 1 }
        let g1 := { g with wpSlot := some (c, k), resv := some r, resvOrder := s.order, entry := { g.entry with cq := q } }
        some ((s1.admitTo l g1 n ch).wpPlace c k g1)
      | _, _ => none

/-- R283 `admit_one`. -/
def State.admitOne (s : State) (c : Nat) : Option State :=
  let held := sortBy (fun (e : Nat × Leg) => e.2.order)
    (s.legs.filter (fun e => legHeldDone c e.2 && s.lsMay e.2.entry.part))
  match held.findSome? (fun (e : Nat × Leg) =>
      match s.choosePp c (min e.2.left s.cap) with
      | some n => some (s.admitTo e.1 e.2 n (min e.2.left s.cap))
      | none => none) with
  | some t => some t
  | none =>
    match (s.readyList c).findSome? (s.tryAdmit c true) with
    | some t => some t
    | none => (s.readyList c).findSome? (s.tryAdmit c false)

def State.admitLoop (s : State) (c : Nat) : Nat → State
  | 0 => s
  | f + 1 => match s.admitOne c with | some t => t.admitLoop c f | none => s

/-- An uncharged leg in a next-slot is charged at the first moment it fits (R286). -/
def State.chargeWaiting (s : State) (c : Nat) : State :=
  (List.range 4).foldl (fun t i =>
    let n := 4 * c + i
    match (t.pp n).nextSlot with
    | some l =>
      match t.leg? l with
      | some g =>
        let ch := min g.left t.cap
        if g.charge = 0 && decide (ch ≤ t.uncharged n) then t.chargeLeg l n ch else t
      | none => t
    | none => t) s

/-- An admission pass of a cluster (R283); none between a tick and the opening of the epoch (R286).  After a fail-stop legs in
next-slots are still charged, and none is admitted (R281). -/
def State.letIn (s : State) (c : Nat) : State :=
  if s.fc.open' && s.fc.ticking then
    let s1 := s.chargeWaiting c
    if s1.failStopped then s1 else s1.admitLoop c 4
  else s

def State.admitAll (s : State) : State := (List.range 64).foldl (fun t c => t.letIn c) s

/-! ### Posting completions (R58, R261, R483) -/

def Completion.bytes (c : Completion) : List Byte :=
  leBytes 2 c.part ++ leBytes 2 c.sq ++ leBytes 4 c.seq.toNat ++ leBytes 2 c.status ++ leBytes 2 c.userCode
    ++ leBytes 4 c.tag.toNat ++ leBytes 8 c.fix.toNat ++ leBytes 8 c.stamp.toNat

/-- Removes the legs of a list, without completions. -/
def State.dropLegs (s : State) (ls : List Nat) : State := { s with legs := s.legs.filter (fun e => !ls.contains e.1) }

def LegPlace.onList : LegPlace → Bool
  | .ready _ => true
  | .delay _ => true
  | _ => false

/-- R276: halts partition p. -/
def State.haltPart (s : State) (p cause queue : Nat) (index : BitVec 32) : State :=
  if (s.part p).halted then s
  else
    let s1 := s.setPart p { s.part p with halted := true, haltCause := cause, haltQueue := queue, haltIndex := index }
    let s2 := { s1 with
      legs := s1.legs.filter (fun e => !(e.2.entry.part == p && e.2.place.onList)),
      sqs := tmap s1.sqs (fun _ q => if q.part = p && q.exist then { q with slots := [], fetch := none } else q) }
    (s2.raisePart p 29).log 0x0204 noInst p 0

/-- R402: a head that fail-stops now has still to send the FIX of its last tick. -/
def State.finalFixDue (s : State) : Bool :=
  s.fc.ticking && !s.fc.noSeal && !s.fc.fixes.any (fun e => e.2.last && e.2.fixIn.isSome)

/-- R277: the engine fail-stops; the last fix follows at the next tick.  A chain member tells the chain, and so does a head once its
final fix is out, or now when there is none to come (R402). -/
def State.failStop (s : State) (cause : Nat) : State :=
  if s.admin.failStopped then s
  else
    let s1 := { s with admin := { s.admin with failStopped := true, faultCause := cause, fetch := none },
                       sqs := tmap s.sqs (fun _ q => { q with fetch := none, slots := [] }) }
    if s.inChain && s.chain.mode = 2 then s1.sendMsg 7 0xFF (downBody 2 s.fc.sealed.toNat)
    else if s.inChain && s.chain.mode = 1 && !s.finalFixDue then s1.sendMsg 7 0xFF (downBody 4 s.fc.sealed.toNat)
    else s1

def State.isHead (s : State) : Bool := s.inChain && decide (s.chain.mode = 1)

/-! ### Parity of configuration words (R417, R418) -/

/-- The FC seals no further fix, and ticking ends at the tick of the fail-stop (R417, R463).  A head has then no final fix to send, and
tells the chain at once (R402). -/
def State.sealsNoMore (s : State) : State :=
  let s1 := if s.isHead && s.failStopped && s.finalFixDue then s.sendMsg 7 0xFF (downBody 4 s.fc.sealed.toNat) else s
  { s1 with fc := { s1.fc with open' := false, fixes := [], noSeal := true } }

/-- R417: the parity check of the configuration word at offset `o` has failed; `owner` is the partition of a register of partition
scope. -/
def State.parityHit (s : State) (owner : Option Nat) (o : Nat) : State :=
  match owner with
  | some p => (s.logSev 0x0D02 4 noInst p (BitVec.ofNat 64 o)).haltPart p 0x10 0 (BitVec.ofNat 32 o)
  | none =>
    let s1 := (s.logSev 0x0D02 6 noInst noPart (BitVec.ofNat 64 o)).failStop 0x10
    if o < 0x10000 then s1.sealsNoMore else s1

/-- R417, R418: the owning block uses the words of [o, o + n): those of a register, or with `live` the live copies of staged fields. -/
def State.parityUse (s : State) (live : Bool) (owner : Option Nat) (o n : Nat) : State :=
  match (if live then s.parityLive else s.parity).find? (fun w => decide (o ≤ w) && decide (w < o + n)) with
  | some w => s.parityHit owner w
  | none => s

/-- A word of the staged registers of group EPOCH. -/
def epochWord (o : Nat) : Bool := decide (8 ≤ o ∧ o < 0x10) || o == 0x28 || decide (0x1000 ≤ o ∧ o < 0x1800)

/-- The FC uses the set of group EPOCH: its live copy at a tick, its shadow at an APPLY (R417); the words of EPOCH_SHARE[p] are
partition p's. -/
def State.epochUse (s : State) (live : Bool) : State :=
  ((if live then s.parityLive else s.parity).filter epochWord).foldl
    (fun t w => t.parityHit (if w < 0x1000 then none else some ((w - 0x1000) / 4)) w) s

/-- The live words of [o, o + n) are written whole, by an APPLY (R418). -/
def State.parityTaken (s : State) (o n : Nat) : State :=
  { s with parityLive := s.parityLive.filter (fun w => !(decide (o ≤ w) && decide (w < o + n))) }

def offXlatRoot (p : Nat) : Nat := 0x408000 + 0x20 * p
def offXlatCtl (p : Nat) : Nat := 0x40C000 + 4 * p
def offSq (q : Nat) : Nat := 0x500000 + 0x20 * q
def offCq (q : Nat) : Nat := 0x600000 + 0x20 * q

/-- A translation of partition `p` uses the live roots and XLAT_CTL[p] (R417). -/
def State.xlatUse (s : State) (p : Nat) : State :=
  (s.parityUse true (some p) (offXlatRoot p) 0x20).parityUse true (some p) (offXlatCtl p) 4

/-- What became of a completion given to its CQ. -/
inductive Posted where
  | done | kept | faulted
  deriving DecidableEq, Repr

/-- Writes one completion entry and advances P (R261).  It is kept while the link is down (R483), and while the CQ is not in use, has no
free slot after a change of its ring, or is no longer the partition's (R256, R265; log entry 30).  The event is raised by the caller,
once a batch. -/
def State.postOne (s0 : State) (c : Completion) : Posted × State :=
  let s := (s0.parityUse true (some (s0.cq c.cq).part) (offCq c.cq) 0x20).xlatUse c.part
  let q := s.cq c.cq
  let ppa := bits q.base.toNat 47 12 * 4096 + (q.p.toNat % q.size) * 32
  if !q.enable || !q.exist || q.part ≠ c.part || decide (q.size ≤ q.count) then (.kept, s)
  else
    match s.sttAccess c.part ppa needW with
    | (.error f, s1) =>
      let ctx : FaultCtx := { part := c.part, sq := 0xFFFF, seq := 0, agent := 9, cluster := 0xFF, pp := 0xFF }
      (.faulted, (s1.faultRecord ctx f true false ppa).haltPart c.part 0x12 c.cq q.p)
    | (.ok d, s1) =>
      let adv := fun (t : State) => t.setCq c.cq { t.cq c.cq with p := q.p + 1 }
      match region s1 d with
      | .host =>
        match s1.hostPost (s1.part c.part).hostPort (some (s1.part c.part).pasid) (d - hostBase) c.bytes with
        | (true, s2) => (.done, adv s2)
        | (false, s2) => (.kept, s2)
      | _ => (.done, adv (s1.memWrite d c.bytes))

def State.holdCpl (s : State) (c : Completion) : State :=
  s.setPart c.part { s.part c.part with holding := (s.part c.part).holding ++ [c] }

def State.linkCpl (s : State) (c : Completion) (r : Reserv) : State :=
  s.setPart c.part { s.part c.part with linkHeld := (s.part c.part).linkHeld ++ [(c, r)] }

/-- R58: the slot reservation of a CQ made last becomes a holding buffer reservation. -/
def State.convertLast (s : State) (q : Nat) : State :=
  let mine := s.legs.filter (fun e => e.2.resv == some .slot && e.2.entry.cq == q)
  match mine.foldl (fun (best : Option (Nat × Leg)) e =>
      match best with | none => some e | some b => if b.2.resvOrder < e.2.resvOrder then some e else best) none with
  | some (l, g) => s.setLeg l { g with resv := some .holding }
  | none => s

/-- R58: a post that leaves a CQ fewer free slots than slot reservations converts the last one made. -/
def State.convertOver (s : State) (q : Nat) : State :=
  if decide ((s.cq q).size < (s.cq q).count + s.slotResv q) then s.convertLast q else s

/-- R58: one completion of C(N), whose reservation is `r`; true when an entry was posted.  One that the link keeps back goes out before
every later completion for its CQ (R483). -/
def State.releaseOne (s : State) (c : Completion) (r : Reserv) : Bool × State :=
  let q := c.cq
  let behind := (s.part c.part).linkHeld.any (fun x => x.1.cq == q)
  match r with
  | .slot =>
    if behind || s.cqWaits q then (false, s.linkCpl c .slot)
    else
      match s.postOne c with
      | (.done, s1) => (true, s1)
      | (.kept, s1) => (false, s1.linkCpl c .slot)
      | (.faulted, s1) => (false, s1.holdCpl c)
  | .holding =>
    if behind then (false, s.linkCpl c .holding)
    else if s.cqWaits q || decide ((s.cq q).size ≤ (s.cq q).count) then (false, s.holdCpl c)
    else
      match s.postOne c with
      | (.done, s1) => (true, s1.convertOver q)
      | (.kept, s1) => (false, s1.linkCpl c .holding)
      | (.faulted, s1) => (false, s1.holdCpl c)

/-- R58, R366: raises the events of the CQs posted to, once each. -/
def State.raiseCqs (s : State) (qs : List Nat) : State :=
  qs.eraseDups.foldl (fun t q => t.raisePart (t.cq q).part (t.cq q).event) s

/-- R58: moves held completions of one CQ into it, oldest first. -/
def State.moveHeld (s : State) (q : Nat) : Nat → Bool × State
  | 0 => (false, s)
  | f + 1 =>
    let p := (s.cq q).part
    match (s.part p).holding.find? (fun c => c.cq == q) with
    | some c =>
      if (s.part p).linkHeld.any (fun x => x.1.cq == q) || decide ((s.cq q).size ≤ (s.cq q).count) then (false, s)
      else
        match s.postOne c with
        | (.done, s1) =>
          let (_, s2) := State.moveHeld (s1.setPart p { s1.part p with holding := (s1.part p).holding.erase c }) q f
          (true, s2)
        | (_, s1) => (false, s1)
    | none => (false, s)

/-- Posts the completions of partition `p` that are kept, in order; one that cannot go holds back the later ones of its CQ (R483). -/
def State.postKeptList (p : Nat) : List (Completion × Reserv) → List Nat → List Nat × State → List Nat × State
  | [], _, r => r
  | (c, k) :: t, blocked, (posted, s) =>
    if blocked.contains c.cq then State.postKeptList p t blocked (posted, s)
    else
      match s.postOne c with
      | (.done, s1) =>
        let s2 := s1.setPart p { s1.part p with linkHeld := (s1.part p).linkHeld.erase (c, k) }
        State.postKeptList p t blocked (c.cq :: posted, if k = .holding then s2.convertOver c.cq else s2)
      | (_, s1) => State.postKeptList p t (c.cq :: blocked) (posted, s1)

/-- What partition `p` has kept for its CQs goes out as far as it can: first what the link or the ring kept back, then what the holding
buffer holds (R58, R483); each CQ's event follows the writes of all its entries (R261). -/
def State.postKept (s : State) (p : Nat) : State :=
  let cqs := (((s.part p).linkHeld.map (fun x => x.1.cq)) ++ ((s.part p).holding.map (fun c => c.cq))).eraseDups
  let (posted, s1) := State.postKeptList p (s.part p).linkHeld [] ([], s)
  let (all, s2) := cqs.foldl (fun (a : List Nat × State) q =>
    let (b, t) := a.2.moveHeld q 256
    (if b then q :: a.1 else a.1, t)) (posted, s1)
  s2.raiseCqs all

/-- After a CQ's C has advanced: kept and held completions move in, and reservations that freed let legs in (R58, R283). -/
def State.cqFreed (s : State) (q : Nat) : State := (s.postKept (s.cq q).part).admitAll

/-! ### Tickets (R82–R85) -/

def ticketCode (code result : Nat) : Word := BitVec.ofNat 64 (code + result * 65536)

/-- A command of a leg has completed: its ticket slot takes the status (R84). -/
def State.endTicket (s : State) (l slot : Nat) (st : Word) : State :=
  match s.leg? l with
  | some g =>
    match tget? g.tickets slot with
    | some t => s.setLeg l { g with tickets := tput g.tickets slot { t with status := some st } }
    | none => s
  | none => s

/-- R299: a channel has ended, and its ticket has its status. -/
def State.dmStop (s : State) (c ch code : Nat) : State :=
  match tget? (s.cl c).dm ch with
  | some k =>
    (s.setCl c { s.cl c with dm := tput (s.cl c).dm ch { k with state := 4, status := code, drain := false } }).endTicket
      k.leg k.slot (ticketCode code k.rows)
  | none => s

/-- R299, R293: a channel ends; its ticket completes, and channels that wait on it start or end. -/
def State.dmEnd : Nat → State → Nat → Nat → Nat → State
  | 0, s, _, _, _ => s
  | f + 1, s, c, ch, code =>
    match tget? (s.cl c).dm ch with
    | some k =>
      let s1 := s.dmStop c ch code
      ((s1.cl c).dm.filter (fun e => e.2.state = 1 && e.2.trigger = 3 && e.2.afterCh = ch && e.2.leg = k.leg)).foldl
        (fun t e =>
          if code = 0 then t.setCl c { t.cl c with dm := tput (t.cl c).dm e.1 { e.2 with state := 2 } }
          else State.dmEnd f t c e.1 0x0509) s1
    | none => s

/-- R296, R297: the channels of a leg or of a partition that have not started or are paused end with `code`, all at once: one that
waits on another of them ends with `code` like the other. -/
def State.dmCancelWhere (s : State) (p : Channel → Bool) (code : Nat) : State :=
  s.cls.foldl (fun t e =>
    (e.2.dm.filter (fun x => (x.2.state = 1 || x.2.state = 3) && p x.2)).foldl (fun u x => u.dmStop e.1 x.1 code) t) s

/-- R288: channels of the leg that have ended are free once its tickets are. -/
def State.dmFreeLeg (s : State) (l : Nat) : State :=
  { s with cls := tmap s.cls (fun _ k => { k with dm := k.dm.filter (fun e => !(e.2.leg == l && e.2.state == 4)) }) }

/-- R288: freeing a RUN's ticket frees its channel. -/
def State.dmFreeSlot (s : State) (l slot : Nat) : State :=
  { s with cls := tmap s.cls (fun _ k =>
      { k with dm := k.dm.filter (fun e => !(e.2.leg == l && e.2.slot == slot && e.2.state == 4)) }) }

/-- The unit queues and running commands of a cluster that belong to a leg. -/
def Cluster.unitCmds (k : Cluster) : List UnitCmd :=
  let of := fun (u : CmdUnit) => u.queue ++ (match u.running with | some r => [r] | none => [])
  of k.upu ++ of k.hu ++ of k.su ++ of k.cmp

def AsaSet.cmds (a : AsaSet) : List UnitCmd :=
  a.sq ++ a.uq ++ (match a.srun with | some r => [r] | none => []) ++ (match a.urun with | some r => [r] | none => [])

/-- The HU's commands that are accepted and not done. -/
def Cluster.huCmds (k : Cluster) : List UnitCmd := k.hu.queue ++ (match k.hu.running with | some r => [r] | none => [])

/-- R183: the releases that no command accepted before them holds up. -/
def Cluster.huDue (k : Cluster) : List (Nat × Nat) := k.huRel.filter (fun r => !k.huCmds.any (fun u => decide (u.order < r.2)))

/-- The HU performs the releases that are due: the tables of those legs go. -/
def Cluster.huSweep (k : Cluster) : Cluster :=
  { k with huRel := k.huRel.filter (fun r => !k.huDue.contains r),
           tables := k.tables.filter (fun t => !k.huDue.any (fun r => t.legScope == some r.1)) }

/-- R183: at the close of leg `l` the HU places the release of its tables in its command order. -/
def State.dropLegTables (s : State) (c l : Nat) : State :=
  let k := s.cl c
  if k.huCmds.any (fun u => u.leg = l) || k.tables.any (fun t => t.legScope = some l) then
    State.setCl { s with order := s.order + 1 } c (Cluster.huSweep { k with huRel := k.huRel ++ [(l, s.order)] })
  else s

def csrLEGID : Nat := 0
def csrARGP : Nat := 1
def csrINDESC : Nat := 2
def csrOUTDESC : Nat := 3
def csrSNAPSHOT : Nat := 4
def csrBUDGET : Nat := 5
def csrUSED : Nat := 6
def csrLEFT : Nat := 7
def csrCHRONO : Nat := 8
def csrSTART : Nat := 9
def csrBATCH : Nat := 10
def csrCARRIES : Nat := 11
def csrSEALED : Nat := 12
def csrWHERE : Nat := 13
def csrTICKETS : Nat := 14
def csrRETIRED : Nat := 15

/-- R89 TICKETS: held slots, and held slots whose command has completed. -/
def Leg.ticketBits (g : Leg) : Nat :=
  g.tickets.foldl (fun b e => if e.2.held then b + 2 ^ e.1 + (if e.2.status.isSome then 2 ^ (16 + e.1) else 0) else b) 0

/-- R92: cycles the leg has used since they were last looked at: a free number that leaves it below its budget
(log entry 12).  Only cycles in leg mode count. -/
def State.sample (s : State) (n : Nat) : State :=
  let p := s.pp n
  if p.mode = .pilot then s else
  let used := (p.getCsr csrUSED).toNat
  let lim := (p.getCsr csrBUDGET).toNat - 1
  let (k, s1) := s.free
  s1.setPp n (p.setCsr csrUSED (BitVec.ofNat 64 (max used (min lim (used + k)))))

/-- The PP's counts go back into the leg. -/
def Leg.fromPp (g : Leg) (p : Pp) : Leg :=
  { g with used := (p.getCsr csrUSED).toNat, batchSeq := (p.getCsr csrBATCH).toNat, carries := (p.getCsr csrCARRIES).toNat,
           snapshot := p.getCsr csrSNAPSHOT, startStamp := p.getCsr csrSTART }

/-- Firmware's answer to STOP: the waypoint is written into the leg's slot (R48), at pc `pc`, through one of firmware's mover channels
(R288); the transfer is whole within the command. -/
def State.capture (s : State) (n l : Nat) (pc : Word) (pipeOp : Bool) : State :=
  match s.leg? l with
  | some g =>
    let p := s.pp n
    let g1 := g.fromPp p
    let carries := satInc g1.carries 65535
    let w : Waypoint :=
      { pc := pc, budgetLeft := g1.left, carries := carries,
        flags := b2n (decide (p.vresume ≠ 0)) + 2 * b2n pipeOp, snapshot := g1.snapshot,
        startStamp := g1.startStamp, stopStamp := s.fc.chrono, vl := p.vl, vcfg := p.vcfg, vresume := p.vresume, vfault := p.vfault,
        x := p.x, v := p.v, m := p.m,
        csr := tput (tput (tput (tput (tput (tput (p.csr.filter (fun e => e.1 < 32)) csrLEFT (BitVec.ofNat 64 g1.left))
          csrCHRONO s.fc.chrono) csrSEALED s.fc.sealed) csrWHERE (BitVec.ofNat 64 (ppCluster n + n % 4 * 64)))
          csrTICKETS (BitVec.ofNat 64 g1.ticketBits)) csrCARRIES (BitVec.ofNat 64 carries) }
    let g2 := { g1 with carries := carries, waypoint := some w }
    let s1 := s.setLeg l g2
    match g.wpSlot with
    | some (c, k) =>
      let q := s1.cl (ppCluster n)
      (s1.setCl (ppCluster n) { q with dmBytes := q.dmBytes + 12288 }).wpWrite (ppCluster n) (waypointBase c k)
        (w.bytes g.entry.part g.entry.sq g.entry.seq)
    | none => s1
  | none => s

/-! ### The end of a leg -/

/-- Frees the PP that a leg occupied (R91).  Its mode stays: only a trap enters pilot mode (R65), and with no leg a PP in leg mode
executes nothing. -/
def State.freePp (s : State) (n : Nat) : State :=
  (s.setPp n { (s.pp n).giveUp with running := none, stopPend := false }).hostForget (.pp n)

/-- R38: cycles of the charge that were not used return to the PP. -/
def State.returnCharge (s : State) (l n : Nat) : State :=
  match s.leg? l with
  | some g =>
    let spent := min g.charge (g.used - g.usedAtOpen)
    let p := s.pp n
    (s.setLeg l { g with charge := spent }).setPp n { p with charged := p.charged - (g.charge - spent) }
  | none => s

/-- LEN_US of the epoch that follows the next tick: of a pending set that becomes live there (R34, R399), of TICK(N + 1) where a member
holds it, or that of the running epoch. -/
def State.lenAfter (s : State) : Nat :=
  let f := s.fc
  if s.inChain && s.chain.mode = 2 then
    match f.tickEarly with
    | some (n, _, len, _, _) => if n = f.epoch + 1 then len else f.epochLen
    | none => f.epochLen
  else
    match f.pending with
    | some (e, older) => if s.inChain && !older then f.epochLen else e.lenUs
    | none => f.epochLen

/-- The epoch of a close or of an error that falls now: the running one, or the one after a tick that is due and has not been
presented (R40, R43; log entry 3). -/
def State.closeEpoch (s : State) : Nat :=
  let f := s.fc
  if f.ticking && decide (f.nextTick.toNat ≤ f.chrono.toNat) then
    f.epoch + 1 + (f.chrono.toNat - f.nextTick.toNat) / (s.lenAfter * 1000)
  else f.epoch

/-- R41: commands of the leg have not completed. -/
def Leg.waits (g : Leg) : Bool := g.tickets.any (fun t => t.2.held && t.2.status.isNone)

/-- The close of a leg that has ended in error: it belongs to the closed set of the epoch in which it falls (R43). -/
def State.closeErr (s : State) (l : Nat) : State :=
  match s.leg? l with
  | some g =>
    let s1 := s.setLeg l { g with place := .closed s.closeEpoch, closeStamp := s.fc.chrono }
    ({ s1 with cursors := s1.cursors.filter (fun c => c.leg ≠ l) }.dmFreeLeg l).dropLegTables g.home l
  | none => s

/-- R97, R43: the leg ends in error, with no outputs.  Its channels that have not started or are paused are cancelled, and its close
waits for its other commands (R41, R85, R296): at once when it has none, else at LEG_CLOSE.  A leg that has executed EXIT keeps its
user code (R269). -/
def State.errLeg (s : State) (l status userCode : Nat) : State :=
  match s.leg? l with
  | some g =>
    let (pp, s1) : Nat × State := match g.place with
      | .running n => (n, (State.returnCharge (s.setLeg l (g.fromPp (s.pp n))) l n).freePp n)
      | .next n =>
        let s0 := s.returnCharge l n
        (n, s0.setPp n { s0.pp n with nextSlot := none })
      | .closing n => (n, s)
      | _ => (4 * g.home, s)
    match s1.leg? l with
    | some g1 =>
      let code := match g.place with | .closing _ => g.userCode | _ => userCode
      let g2 : Leg :=
        { g1 with stagedRows := [], place := .closing pp, status := status, userCode := code, retire := [], outs := [],
                  batches := [], wpSlot := none, waypoint := none, stopped := false, hold := none, holdOver := false }
      let s2 := (s1.setLeg l g2).dmCancelWhere (fun k => k.leg = l) 0x050A
      let s3 := if (s2.leg? l).any Leg.waits then s2 else s2.closeErr l
      s3.letIn g1.home
    | none => s1
  | none => s

/-- R270: the status of a leg ended by a trap. -/
def trapStatus (cause : Nat) : Option Nat :=
  if cause = trapIllegal then some 0x06
  else if cause = trapPrivileged then some 0x07
  else if cause = trapMisaligned then some 0x08
  else if cause = trapAccess then some 0x09
  else if cause = trapBus then some 0x0B
  else if cause = trapMemory then some 0x0A
  else if cause = trapBudget then some 0x02
  else if cause = trapPipe then some 0x0C
  else if cause = trapTicket then some 0x0D
  else if cause = trapVector then some 0x0E
  else if cause = trapOutRange then some 0x0F
  else if cause = trapRetireRange then some 0x10
  else if cause = trapRetireLimit then some 0x11
  else if cause = trapBreak then some 0x12
  else none

/-- The fault context of a leg's own access (AGENT 0). -/
def legCtx (g : Leg) (n : Nat) : FaultCtx :=
  { part := g.entry.part, sq := g.entry.sq, seq := g.entry.seq, agent := 0, cluster := ppCluster n, pp := n % 4 }

/-- R96: a BREAK that halts the PP for the debug port, in either mode. -/
def Pp.breakHalts (p : Pp) (cause : Nat) : Bool := decide (cause = trapBreak) && (p.getCsr csrPSTATUS).getLsbD 1

/-- R98: the status under which firmware ends a leg whose trap of cause `cause` in pilot mode it cannot recover: the outcome of the cause
that led to pilot mode. -/
def Pp.nestStatus (p : Pp) (cause : Nat) : Option Nat :=
  match trapStatus cause with
  | some _ =>
    let c := (p.getCsr csrPCAUSE).toNat
    if c = trapTlbFetch ∨ c = trapTlbLoad ∨ c = trapTlbStore then some 0x09 else trapStatus c
  | none => none

/-- R98: firmware recovers the trap in its handler, or ends the leg: which, the spec leaves to it, a free value (log entry 7). -/
def State.nestEnd (s : State) (l : Nat) (st : Option Nat) : State :=
  match st with
  | some st =>
    let (k, s1) := s.free
    if k % 2 = 1 then s1.errLeg l st 0 else s1
  | none => s

/-- R93, R96, R97 (log entry 7): the PP takes the trap; a trap that ends the leg ends it in the same step, as firmware
does, and the double trap ends it with ENGINE_FAULT. -/
def State.trap (s : State) (n cause : Nat) (value : Word) : State :=
  let s0 := if (s.pp n).mode = .leg then s.sample n else s
  let p := s0.pp n
  let s1 := s0.setPp n (p.takeTrap cause value)
  match p.running with
  | some l =>
    if p.doubleTrap then (s1.log 0x0302 (ppCluster n) noPart 0).errLeg l 0x0B 0
    else if p.breakHalts cause then s1.setPp n { s1.pp n with dbg := .byBreak }
    else if p.mode = .leg then (match trapStatus cause with | some st => s1.errLeg l st 0 | none => s1)
    else if cause = trapBus then s1.errLeg l 0x0B 0
    else s1.nestEnd l (p.nestStatus cause)
  | none =>
    if p.doubleTrap then s1.log 0x0302 (ppCluster n) noPart 0
    else if p.breakHalts cause then s1.setPp n { s1.pp n with dbg := .byBreak }
    else s1

/-- R307: the cause of R321 goes into XWSTAT before the trap; LEVEL, STAGE and HIT read 0, STALE stays. -/
def Pp.xwCause (p : Pp) (cause : Nat) : Pp :=
  { p.setCsr csrXWSTAT ((p.getCsr csrXWSTAT &&& 0x8000#64) ||| BitVec.ofNat 64 cause) with walked := none }

/-- R307: a TLB miss. -/
def State.tlbMiss (s : State) (n cause va : Nat) : State :=
  (s.setPp n ((s.pp n).xwCause xcTranslation)).trap n cause (BitVec.ofNat 64 va)

/-- R307, R321: ACCESS_FAULT with its cause in XWSTAT and, for a leg, firmware's fault record. -/
def State.accessFault (s : State) (n cause va : Nat) (write exec : Bool) : State :=
  let p := s.pp n
  let s1 := s.setPp n (p.xwCause cause)
  let s2 := match p.running with
    | some l => match s1.leg? l with
      | some g => if p.mode = PpMode.leg then s1.faultRecord (legCtx g n) (XFault.plain cause 0) write exec va else s1
      | none => s1
    | none => s1
  s2.trap n trapAccess (BitVec.ofNat 64 va)

/-! ### Loading the PP TLB (R308), and firmware's miss handler (R314) -/

/-- R308 steps 1 to 3: the TLB with the entry, the slot, whether a valid entry was replaced. -/
def Pp.tlbLoad (p : Pp) (w0 w1 : Word) : Pp × Nat × Bool :=
  let e := (w0, w1)
  let keep := p.tlb.filter (fun x => !(tlbPart x.2 == tlbPart e
    && rangesMeet (tlbVa x.2) (2 ^ tlbLog x.2) (tlbVa e) (2 ^ tlbLog e)))
  match (List.range 512).find? (fun k => (tget? keep k).isNone) with
  | some k => ({ p with tlb := tput keep k e }, k, false)
  | none =>
    let v := (p.getCsr csrXVICTIM).toNat % 512
    (Pp.setCsr { p with tlb := tput keep v e } csrXVICTIM (BitVec.ofNat 64 ((v + 1) % 512)), v, true)

def tlbWord0 (x : XEntry) : Word := BitVec.ofNat 64 (x.va + x.part * 2 ^ 48 + x.sizeLog2 * 2 ^ 57)
def tlbWord1 (x : XEntry) : Word :=
  BitVec.ofNat 64 (b2n x.r + 2 * b2n x.w + 4 * b2n x.x + 8 * b2n x.device + 16 * b2n x.vcol + x.dpa)

/-- What FREC records when firmware finds that the leaf it has read lacks a permission. -/
def XFault.lacks (table ppa : Nat) (leaf : Word) : XFault := { XFault.plain xcPermission ppa with table := table, entry := leaf }

/-- A leg-mode translation made by firmware for the leg: the PP TLB, or the walk of R314's handler, which loads it. -/
def State.fwXlate (s0 : State) (n part va : Nat) (need : Need) : Except XFault (Nat × Bool) × State :=
  let s := s0.xlatUse part
  if va ≥ 2 ^ 48 then (.error (XFault.plain xcAddressSize 0), s)
  else
    match (s.pp n).tlbFind part va with
    | some e =>
      if tlbPermits e need then (.ok (tlbDpa e + va % 2 ^ tlbLog e, tlbVcol e), s)
      else (.error (XFault.plain xcPermission 0), s)
    | none =>
      let sel := WSel.cluster (ppCluster n)
      if !(s.part part).xlat.enable then (.error (XFault.plain xcOff 0), s)
      else
        match s.walkS1 sel part va 4 0 (ptAddr (s.part part).xlat.s1) with
        | (.error f, s1) => (.error f, s1)
        | (.ok (e, el, ea), s1) =>
          let ppa := leafOut e el va
          if !ptPermits e need then (.error (XFault.lacks ea 0 e), s1)
          else
            match s1.walkS2At sel part .two ppa 4 0 (ptAddr (s1.part part).xlat.s2) with
            | (.error f, s2) => (.error f, s2)
            | (.ok (f, fl, fa), s2) =>
              if !ptPermits f need then (.error (XFault.lacks fa ppa f), s2)
              else
                let x := joinLeaves part va e el f fl ppa
                (.ok (x.out va, x.vcol), s2.setPp n ((s2.pp n).tlbLoad (tlbWord0 x) (tlbWord1 x)).1)

/-- Outcome of a read that firmware makes for a leg (R51, R268). -/
inductive FwRead where
  | ok (bs : List Byte)
  | fault (f : XFault)
  | bad
  deriving DecidableEq, Repr

/-- A leg-mode read inside one line, made by firmware for the leg. -/
def State.fwRead (s : State) (n part va len : Nat) : FwRead × State :=
  match s.fwXlate n part va needR with
  | (.error f, s1) => (.fault f, s1)
  | (.ok (d, vcol), s1) =>
    match s1.dpaRefused part (ppCluster n) d with
    | (true, s2) => (.fault (XFault.plain xcRefused 0), s2)
    | (false, s2) =>
      match region s2 d with
      | .host =>
        match s2.hostTake (.pp n) (some part) d len with
        | (.ok bs, s3) => (.ok bs, s3)
        | (.error k, s3) => (if k = 1 then .fault (XFault.plain xcRefused 0) else .bad, s3)
      | _ =>
        match (if vcol then s2.bypassRead (ppCluster n) (d / 64) else s2.ppLoadLine n (d / 64) false) with
        | (some line, s3) => (.ok ((line.drop (d % 64)).take len), s3)
        | (none, s3) => (.bad, s3)

end Sys2Proof.Machine
end

