-- ==== Sys2Proof/Machine/Operands.lean ====
section
/-!
DEFINITION. The instruction formats (03, Field positions by format; R67, R68), immediates, instruction word 0 as traps
report it, and when a PP executes.
-/
namespace Sys2Proof.Machine

open Sys2Proof

/-! ### Words -/

def encR (maj fn : Nat) (f : RF) : Word :=
  BitVec.ofNat 64 (maj + f.rd.toNat * 2 ^ 6 + f.rs1.toNat * 2 ^ 11 + f.rs2.toNat * 2 ^ 16 + f.rs3.toNat * 2 ^ 21 + fn * 2 ^ 26)

def encI (maj : Nat) (f : IF) : Word :=
  BitVec.ofNat 64 (maj + f.rd.toNat * 2 ^ 6 + f.rs1.toNat * 2 ^ 11 + f.imm.toNat * 2 ^ 16)

def encC (unit cmd : Nat) (f : CF) : Word :=
  BitVec.ofNat 64 (0x3F + f.rd.toNat * 2 ^ 6 + f.rs1.toNat * 2 ^ 11 + f.rs2.toNat * 2 ^ 16 + unit * 2 ^ 21 + cmd * 2 ^ 26)

/-- A CSR instruction: OP in IMM16[15:12]. -/
def encCsr (op : Nat) (f : IF) : Word :=
  BitVec.ofNat 64 (0x2B + f.rd.toNat * 2 ^ 6 + f.rs1.toNat * 2 ^ 11 + (f.imm.toNat % 4096 + op * 4096) * 2 ^ 16)

/-- IMM16, sign-extended. -/
def imm16 (i : BitVec 16) : Word := i.signExtend 64

/-- IMM21, sign-extended. -/
def imm21 (i : BitVec 21) : Word := i.signExtend 64

/-- R67: the branch displacement. -/
def disp16 (i : BitVec 16) : Word := imm16 i <<< 2
def disp21 (i : BitVec 21) : Word := imm21 i <<< 2

/-! ### When a PP executes -/

/-- The PP's clock runs, it is not halted, and it is in pilot mode or in leg mode for a leg that is not stopped; a load from
a DEVICE page of the host window that is out at the tick still completes (R42). -/
def State.ppCan (s : State) (n : Nat) : Bool :=
  let p := s.pp n
  decide (n < 256) && !p.halted && !p.dbg.stops && !s.frozen && !s.pm.gated.contains (n / 64)
  && (p.mode = .pilot || match p.running with
      | some l => (match s.leg? l with | some g => !g.stopped || (p.blocked = .hostLoad && p.hostDev) | none => false)
      | none => false)

/-- The PP can take a leg: its clock runs, it is not halted, and it runs none. -/
def State.ppIdle (s : State) (n : Nat) : Bool :=
  let p := s.pp n
  decide (n < 256) && !p.halted && !p.dbg.stops && !s.frozen && !s.pm.gated.contains (n / 64) && p.running.isNone

/-- The partition and the number of the leg for which PP `n` is in leg mode. -/
def State.ppLeg (s : State) (n : Nat) : Option (Nat × Leg) :=
  match (s.pp n).mode, (s.pp n).running with
  | .leg, some l => (s.leg? l).map (fun g => (l, g))
  | _, _ => none

/-- R338: a fetch checks the parity of the L1I line that it hits; one that goes on to the L2 finds an error that stands there. -/
def State.fetchScrub (s : State) (n line : Nat) : State :=
  let s1 := s.l1Scrub n true line
  if (tget? (s1.pp n).l1i line).isSome then s1 else s1.l2Scrub (ppCluster n) line

/-- A fetch at DPA `d` that finds uncorrectable data traps; an L1I hit reads no memory (R350). -/
def State.fetchBad (s0 : State) (n d : Nat) (va : Word) : Option State :=
  let line := d / 64
  let s := s0.fetchScrub n line
  if (tget? (s.pp n).l1i line).isSome then none
  else
    match tget? (s.cl (ppCluster n)).l2 line with
    | some e => if e.poison then some ((s.l2Bad (ppCluster n) line e.way).trap n trapMemory va) else none
    | none =>
      if s.bad.contains line && ((s.cl (ppCluster n)).sideGet line).isNone then
        some ((s.memUncorrectable d).trap n trapMemory va)
      else none

/-- A pilot-mode fetch at DPA `pc` (R65, R16). -/
def State.fetchStopPilot (s : State) (n : Nat) (pc : Word) : Option State :=
  let d := pc.toNat
  match region s d with
  | .unmapped => some ((s.log 0x0104 (ppCluster n) noPart pc).trap n trapBus pc)
  | .reg => some (s.trap n trapBus pc)
  | .host =>
    if !(s.hp s.mgmtPort).linkUp || tgetD s.hostBad (d / 64) 0 = 1 then some (s.trap n trapBus pc)
    else if tgetD s.hostBad (d / 64) 0 = 2 then some (s.trap n trapMemory pc)
    else none
  | _ => s.fetchBad n d pc

/-- A leg-mode fetch at VA `pc` (R65, R302, R307). -/
def State.fetchStopLeg (s : State) (n : Nat) (g : Leg) (pc : Word) : Option State :=
  let va := pc.toNat
  if va ≥ 2 ^ 48 then some (s.accessFault n xcAddressSize va false true)
  else
    match (s.pp n).tlbFind g.entry.part va with
    | none => some (s.tlbMiss n trapTlbFetch va)
    | some e =>
      if !tlbPermits e needX then some (s.accessFault n xcPermission va false true)
      else
        let d := tlbDpa e + va % 2 ^ tlbLog e
        match s.dpaRefused g.entry.part (ppCluster n) d with
        | (true, s1) => some (s1.accessFault n xcRefused va false true)
        | (false, _) =>
          match region s d with
          | .host =>
            if !(s.hp (s.part g.entry.part).hostPort).linkUp || tgetD s.hostBad (d / 64) 0 = 1 then
              some (s.accessFault n xcRefused va false true)
            else if tgetD s.hostBad (d / 64) 0 = 2 then some (s.trap n trapMemory pc)
            else none
          | _ => s.fetchBad n d pc

/-- The trap that the fetch of the word at `pc` takes, if any.  The fetch itself moves no cache line (log entry 15). -/
def State.fetchStop (s : State) (n : Nat) (pc : Word) : Option State :=
  match s.ppLeg n with
  | some (_, g) => s.fetchStopLeg n g pc
  | none => s.fetchStopPilot n pc

/-- The DPA that the PP fetches from at `pc`, when the fetch takes place. -/
def State.fetchDpa (s : State) (n : Nat) (pc : Word) : Nat :=
  match s.ppLeg n with
  | some (_, g) =>
    match (s.pp n).tlbFind g.entry.part pc.toNat with
    | some e => tlbDpa e + pc.toNat % 2 ^ tlbLog e
    | none => pc.toNat
  | none => pc.toNat

/-- The state after the fetch at `pc`: an error that it has found in a cache is dealt with (R338), and nothing else changes. -/
def State.fetched (s : State) (n : Nat) (pc : Word) : State := s.fetchScrub n (s.fetchDpa n pc / 64)

/-- R456 PP_STEP: the PP halts again once its one instruction has taken place. -/
def State.stepDone (s : State) (n : Nat) : State :=
  if (s.pp n).dbg = .step ∧ (s.pp n).blocked = .none then s.setPp n { s.pp n with dbg := .byHalt } else s

/-- R420: an access of the PP to register space waits at the fabric. -/
def State.ppStall (s : State) (n : Nat) : Option Stall := s.stalls.find? (fun a => a.who == .pp n)

/-- The fetch of an instruction of PP `n`, and the instruction. -/
def ppGo (s : State) (n : Nat) (f : State → State) : State :=
  match s.fetchStop n (s.pp n).pc with
  | some t => t.stepDone n
  | none => (f (s.fetched n (s.pp n).pc)).stepDone n

/-- An instruction of PP `n`: when the PP executes, its fetch traps or the instruction runs; otherwise nothing happens
(log entry 4).  A PP whose access waits at the fabric stays stalled: only the instruction that made the access is presented again, and
takes place once the access no longer waits (R420). -/
def ppRun (s : State) (n : Nat) (f : State → State) : State :=
  if s.ppCan n then
    match s.ppStall n with
    | some a => if (ppGo s n f).stalls.contains a then s else ppGo s n f
    | none => ppGo s n f
  else s

/-- A 64-bit form: its second word is fetched too (R69). -/
def ppRun2 (s : State) (n : Nat) (f : State → State) : State :=
  ppRun s n (fun s =>
    match s.fetchStop n ((s.pp n).pc + 4) with
    | some t => t
    | none => f (s.fetched n ((s.pp n).pc + 4)))

/-- Goes on at the next instruction, `k` bytes on. -/
def Pp.advance (p : Pp) (k : Word) : Pp :=
  { p with pc := p.pc + k, blocked := .none, hostAt := none, hostSeen := [], hostLeft := [], eltAt := 0 }

/-- Writes X[rd] and goes on. -/
def State.wr (s : State) (n : Nat) (rd : BitVec 5) (v : Word) : State := s.setPp n ((((s.pp n).setX rd v)).advance 4)

/-- ILLEGAL_INSTR with instruction word 0. -/
def State.illegal (s : State) (n : Nat) (w : Word) : State := s.trap n trapIllegal w

end Sys2Proof.Machine
end

