-- ==== Sys2Proof/Machine/Units.lean ====
section
/-!
DEFINITION. What the operator units share: command queues and their starts (R81, R156), accesses made for a leg
(R155, R302, R315, R326), and status words (R84).
-/
namespace Sys2Proof.Machine

open Sys2Proof

/-- Why an access or a command stops. -/
inductive UErr where
  | access
  | mem
  | bus
  | code (c : Nat)
  deriving DecidableEq, Repr

/-- A unit's work: it may stop with an error, and the state holds what was done until then. -/
abbrev UM (α : Type) := ExceptT UErr (StateM State) α

/-- On whose behalf a unit accesses memory. -/
structure UCtx where
  agent : Nat
  sel   : WSel
  part  : Nat
  leg   : Nat
  chan  : Nat := 0     -- a mover's channel, the ASA set's first bank, or the digest unit
  deriving DecidableEq, Repr

def UCtx.cluster (u : UCtx) : Nat := match u.sel with | .cluster c => c | _ => 0xFF

/-- The operator unit `n` (its cluster, ASA set or digest unit number) of agent code `agent` as a host requester; the NVMe engine is
66, and management core 0 for the debug port 67. -/
def unitReq (agent n : Nat) : HostReq := .unit (128 * agent + n)

/-- Who waits for a completion of a unit's read (R373): a mover channel, or the unit itself. -/
def UCtx.hostReq (u : UCtx) : HostReq :=
  match u.sel with
  | .cluster c => if u.agent = 5 then .channel c u.chan else unitReq u.agent c
  | _ => unitReq u.agent u.chan

/-- The requesters of a unit's command: itself and its walker. -/
def UCtx.hostReqs (u : UCtx) : List HostReq := [u.hostReq, .walk u.sel.num]

/-- The requesters of a command of the UPU (agent 1), HU (2), SU (3) or compressor (4) of cluster `c`. -/
def clReqs (agent c : Nat) : List HostReq := [unitReq agent c, .walk c]

/-- Those of a command of the ASA queues of bank `b`, and of a job of digest unit `u`. -/
def asaReqs (b : Nat) : List HostReq := [unitReq 6 b, .walk 64]
def duReqs (u : Nat) : List HostReq := [unitReq 7 u, .walk 64]

def UCtx.fault (u : UCtx) (s : State) : FaultCtx :=
  match s.leg? u.leg with
  | some g => { part := u.part, sq := g.entry.sq, seq := g.entry.seq, agent := u.agent, cluster := u.cluster, pp := 0xFF }
  | none => { part := u.part, sq := 0xFFFF, seq := 0, agent := u.agent, cluster := u.cluster, pp := 0xFF }

/-- Translates and checks one address; a fault is recorded and ends the command with its ACCESS status (R315).  A write to a
page with VCOL is refused and logged as R15 has it, whatever W says (R22). -/
def State.unitDpa (s : State) (u : UCtx) (va : Nat) (need : Need) : Except UErr XEntry × State :=
  match (s.xlatUse u.part).xlateUnit u.sel u.part va need with
  | (.error f, s1) => (.error .access, s1.faultRecord (u.fault s1) f need.w false va)
  | (.ok x, s1) =>
    let d := x.out va
    if need.w && x.vcol then
      let s2 := s1.log 0x0103 u.cluster u.part (BitVec.ofNat 64 d)
      (.error .access, s2.faultRecord (u.fault s2) (XFault.plain xcRefused (x.reached va)) true false va)
    else if u.agent = 5 && region s1 d = .unmapped then
      let s2 := s1.log 0x0104 u.cluster u.part (BitVec.ofNat 64 d)
      (.error .bus, s2)
    else
      match s1.dpaRefused u.part u.cluster d with
      | (true, s2) => (.error .access, s2.faultRecord (u.fault s2) (XFault.plain xcRefused (x.reached va)) need.w false va)
      | (false, s2) => (.ok x, s2)

/-- The cluster whose caches a unit's data accesses use: its own, or for a unit of the I/O tile the cluster of the leg it works for
(R155: data that the cluster has written are read current, and output is an ordinary store of the leg). -/
def State.dataCluster (s : State) (u : UCtx) : Option Nat :=
  match u.sel with
  | .cluster c => some c
  | _ => (s.leg? u.leg).map (fun g => g.home)

/-- Reads `len` bytes inside one 64-byte line; `bypass` for the visibility port. -/
def State.unitReadIn (s : State) (u : UCtx) (va len : Nat) (bypass : Bool) : Except UErr (List Byte) × State :=
  match s.unitDpa u va needR with
  | (.error e, s1) => (.error e, s1)
  | (.ok x, s1) =>
    let d := x.out va
    match region s1 d with
    | .host =>
      match s1.hostTake u.hostReq (some u.part) d len with
      | (.ok bs, s2) => (.ok bs, s2)
      | (.error k, s2) => (.error (if k = 1 then .bus else .mem), s2)
    | _ =>
      let rd := match s1.dataCluster u with
        | some c => if bypass || x.vcol then s1.bypassRead c (d / 64) else s1.unitReadLine c (d / 64)
        | none => s1.memRead (d / 64) 64
      match rd with
      | (some line, s2) => (.ok ((line.drop (d % 64)).take len), s2)
      | (none, s2) => (.error .mem, s2)

/-- Writes bytes inside one 64-byte line, as a unit's output store. -/
def State.unitWriteIn (s : State) (u : UCtx) (va : Nat) (bs : List Byte) : Except UErr Unit × State :=
  match s.unitDpa u va needW with
  | (.error e, s1) => (.error e, s1)
  | (.ok x, s1) =>
    let d := x.out va
    match region s1 d with
    | .host =>
      match s1.hostPostData (s1.part u.part).hostPort (some (s1.part u.part).pasid) (d - hostBase) bs with
      | (true, s2) => (.ok (), s2)
      | (false, s2) => (.error .bus, s2)
    | _ =>
      match s1.dataCluster u with
      | some c =>
        match s1.l2Meets c (d / 64) with
        | (true, s2) => (.error .mem, s2)
        | (false, s2) => (.ok (), if u.agent = 5 then s2.dmStore c d bs else s2.l2Store c (256 + u.agent) d bs false)
      | none => (.ok (), s1.memWrite d bs)

/-- Checks that bytes of one line can be written, without writing them: the translation, the link of a host port, and the line held
in the L2 (R155, R483, R338). -/
def State.unitCanWrite (s : State) (u : UCtx) (va : Nat) : Except UErr Unit × State :=
  match s.unitDpa u va needW with
  | (.error e, s1) => (.error e, s1)
  | (.ok x, s1) =>
    let d := x.out va
    match region s1 d, s1.dataCluster u with
    | .host, _ => (if (s1.hp (s1.part u.part).hostPort).linkUp then .ok () else .error .bus, s1)
    | _, some c =>
      match s1.l2Meets c (d / 64) with
      | (true, s2) => (.error .mem, s2)
      | (false, s2) => (.ok (), s2)
    | _, none => (.ok (), s1)

/-- The pieces of [va, va + len) that lie in one line each. -/
def lineChunks : Nat → Nat → Nat → List (Nat × Nat)
  | 0, _, _ => []
  | f + 1, va, len =>
    if len = 0 then []
    else
      let n := min len (64 - va % 64)
      (va, n) :: lineChunks f (va + n) (len - n)

def chunksOf (va len : Nat) : List (Nat × Nat) := lineChunks (len / 64 + 2) va len

def uReadWith (u : UCtx) (bypass : Bool) : List (Nat × Nat) → UM (List Byte)
  | [] => pure []
  | (va, n) :: t => do
    let bs ← ExceptT.mk (fun s => (s.unitReadIn u va n bypass))
    let rest ← uReadWith u bypass t
    pure (bs ++ rest)

/-- Reads bytes at a tenant virtual address. -/
def uRead (u : UCtx) (va len : Nat) : UM (List Byte) := uReadWith u false (chunksOf va len)

/-- Reads bytes through the visibility port (R147). -/
def uReadVis (u : UCtx) (va len : Nat) : UM (List Byte) := uReadWith u true (chunksOf va len)

def uReadNat (u : UCtx) (va len : Nat) : UM Nat := do return leNat (← uRead u va len)

def uWriteChunks (u : UCtx) : List (Nat × Nat) → List Byte → UM Unit
  | [], _ => pure ()
  | (va, n) :: t, bs => do
    ExceptT.mk (fun s => s.unitWriteIn u va (bs.take n))
    uWriteChunks u t (bs.drop n)

/-- Writes bytes at a tenant virtual address. -/
def uWrite (u : UCtx) (va : Nat) (bs : List Byte) : UM Unit := uWriteChunks u (chunksOf va bs.length) bs

/-- Checks that an address can be written (R155). -/
def uProbeW (u : UCtx) (va : Nat) : UM Unit := do
  let _ ← ExceptT.mk (fun s => s.unitDpa u va needW)
  pure ()

/-- Writes a whole piece of output: every line is checked before any is written. -/
def uWriteWhole (u : UCtx) (va : Nat) (bs : List Byte) : UM Unit := do
  (chunksOf va bs.length).forM (fun c => ExceptT.mk (fun s => s.unitCanWrite u c.1))
  uWrite u va bs

/-- A line that a unit has read: its number in the tenant's address space, and its bytes. -/
abbrev LineBuf := Option (Nat × List Byte)

/-- Reads pieces through a line buffer: a line is read once, when the buffer refills (R205). -/
def uReadBuf (u : UCtx) : List (Nat × Nat) → LineBuf → UM (List Byte × LineBuf)
  | [], b => pure ([], b)
  | (va, n) :: t, b => do
    let line ← (match b with
      | some (l, bs) => if l = va / 64 then pure bs else uRead u (va / 64 * 64) 64
      | none => uRead u (va / 64 * 64) 64 : UM (List Byte))
    let (rest, b1) ← uReadBuf u t (some (va / 64, line))
    pure ((line.drop (va % 64)).take n ++ rest, b1)

def uModify (f : State → State) : UM Unit := ExceptT.mk (fun s => (.ok (), f s))

def uFail {α : Type} (c : Nat) : UM α := throw (.code c)

def uCheck (b : Bool) (c : Nat) : UM Unit := if b then pure () else throw (.code c)

/-- Runs a unit's work and keeps whatever it did. -/
def uRun {α : Type} (m : UM α) (s : State) : Except UErr α × State := m.run s

/-- The unit's code for an error: its own ACCESS and MEMORY_ERROR codes, or the code named. -/
def UErr.status (e : UErr) (access mem : Nat) : Nat :=
  match e with
  | .access => access
  | .bus => access
  | .mem => mem
  | .code c => c

/-- Does every piece of work, whatever becomes of the others; the first error. -/
def uRunAll : List (UM Unit) → State → Option UErr × State
  | [], s => (none, s)
  | m :: t, s =>
    match uRun m s with
    | (.ok _, s1) => uRunAll t s1
    | (.error e, s1) => (some e, (uRunAll t s1).2)

/-- A field of zero bytes. -/
def zeroAt (bs : List Byte) (o n : Nat) : Bool := ((bs.drop o).take n).all (· == 0)

/-- R82: a descriptor at a 64-byte-aligned address. -/
def uDesc (u : UCtx) (va bytes invalid : Nat) : UM (List Byte) := do
  uCheck (va % 64 == 0) invalid
  uRead u va bytes

/-- [a, a + la) and [b, b + lb) share an address; empty ranges share none. -/
def overlap (a la b lb : Nat) : Bool := decide (0 < la) && decide (0 < lb) && rangesMeet a la b lb

/-! ### Command queues (R156, R168, R191, R240) -/

/-- The unit takes its oldest command when it is free.  How far the command has come, as its unit's STATE register shows it while
the command runs, begins at 0 and rises by free amounts as time passes, to `limit` at most: the model does a command's work when it
ends (log entries 12, 13). -/
def CmdUnit.start (q : CmdUnit) (limit : Nat) : CmdUnit :=
  match q.running, q.queue with
  | none, c :: t => { queue := t, running := some c, done := 0, limit := limit }
  | _, _ => q

/-- What a command's descriptor says, without any effect of the read; 0 when it is not valid.  A descriptor in host memory is read for
the command, which uses that read when its work is done (log entry 9). -/
def State.peekDesc (s : State) (u : UCtx) (va bytes : Nat) (f : List Byte → Nat) : Nat × State :=
  match uRun (uDesc u va bytes 0) s with
  | (.ok b, s1) => (f b, { s with hostMiss := s1.hostMiss })
  | (.error _, s1) => (0, { s with hostMiss := s1.hostMiss })

/-- A unit takes a command when it can; `bound` is the most its progress can show. -/
def State.startUnit (s : State) (q : CmdUnit) (bound : UnitCmd → State → Nat × State) : CmdUnit × State :=
  match q.running, q.queue with
  | none, c :: _ =>
    let (n, s1) := bound c s
    (q.start n, s1)
  | _, _ => (q, s)

/-- The units run: the cluster's clock is on. -/
def State.unitsOn (s : State) (c : Nat) : Bool := decide (c < 64) && !s.frozen && !s.pm.gated.contains (c / 16)

/-- A command ends: its ticket takes the status, and tables of leg scope may go (R183). -/
def State.cmdEnd (s : State) (u : UnitCmd) (st : Word) : State := s.endTicket u.leg u.slot st

end Sys2Proof.Machine
end

