-- ==== Sys2Proof/Machine/Scan.lean ====
section
/-!
DEFINITION. Data types, encodings, predicate terms, visibility and the SCAN command of the UPU (05).
-/
namespace Sys2Proof.Machine

open Sys2Proof

/-! ### Data types (R130, R131) -/

/-- A decoded value. -/
inductive Val where
  | int (v : Int)
  | flt (wide : Bool) (raw : Nat)
  | str (bs : List Byte)
  deriving DecidableEq, Repr

/-- Plain width in bytes; 0 for STR and BOOL. -/
def typeWidth (t : Nat) : Nat :=
  match t with
  | 0x01 => 1 | 0x02 => 2 | 0x03 => 4 | 0x04 => 8
  | 0x05 => 1 | 0x06 => 2 | 0x07 => 4 | 0x08 => 8
  | 0x09 => 4 | 0x0A => 8 | 0x0B => 16 | 0x0C => 4 | 0x0D => 8
  | _ => 0

def typeOk (t : Nat) : Bool := decide (1 ≤ t ∧ t ≤ 0x0F)
def typeSigned (t : Nat) : Bool := decide (t ≤ 4) || t == 0x0B || t == 0x0C
/-- Integers, DATE32 and TS64. -/
def typeInt (t : Nat) : Bool := decide (1 ≤ t ∧ t ≤ 8) || t == 0x0C || t == 0x0D
def tySTR : Nat := 0x0E
def tyBOOL : Nat := 0x0F
def tyDEC : Nat := 0x0B

/-- A number of `n` bits as two's complement. -/
def toSigned (v n : Nat) : Int := if v.testBit (n - 1) then (v : Int) - (2 : Int) ^ n else v

/-- A plain value of a type from its bits. -/
def plainVal (t raw : Nat) : Val :=
  let n := 8 * typeWidth t
  if t = 0x09 then .flt false (raw % 2 ^ 32)
  else if t = 0x0A then .flt true (raw % 2 ^ 64)
  else if t = tyBOOL then .int ((raw % 2 : Nat) : Int)
  else if typeSigned t then Val.int (toSigned (raw % 2 ^ n) n)
  else .int ((raw % 2 ^ n : Nat) : Int)

/-- The bits of a plain value. -/
def Val.raw (v : Val) (n : Nat) : Nat :=
  match v with
  | .int i => (i % (2 : Int) ^ n).toNat
  | .flt _ r => r
  | .str _ => 0

/-- Sign-magnitude order of IEEE values; none for a NaN. -/
def fltKey (wide : Bool) (r : Nat) : Option Int :=
  let m : Nat := if wide then r % 2 ^ 63 else r % 2 ^ 31
  let nan := if wide then decide (m > 0x7FF0000000000000) else decide (m > 0x7F800000)
  let neg := if wide then r.testBit 63 else r.testBit 31
  if nan then none else some (if neg then -(m : Int) else m)

def bytesCmp : List Byte → List Byte → Ordering
  | [], [] => .eq
  | [], _ => .lt
  | _, [] => .gt
  | a :: s, b :: t => if a.toNat < b.toNat then .lt else if b.toNat < a.toNat then .gt else bytesCmp s t

def intCmp (a b : Int) : Ordering := if a < b then .lt else if b < a then .gt else .eq

/-- R131: none when a NaN is compared. -/
def Val.cmp (a b : Val) : Option Ordering :=
  match a, b with
  | .int x, .int y => some (intCmp x y)
  | .flt w x, .flt _ y =>
    match fltKey w x, fltKey w y with
    | some i, some j => some (intCmp i j)
    | _, _ => none
  | .str x, .str y => some (bytesCmp x y)
  | _, _ => none

/-! ### Structures as read -/

/-- R134. -/
structure Seg where
  rows : Nat
  columns : Nat
  versioned : Bool
  rowRetire : Bool
  cols : Nat
  batches : Nat
  bstart : Nat
  bvt : Nat
  rrc : Nat
  deriving DecidableEq, Repr

def Seg.ofBytes (b : List Byte) : Seg :=
  { rows := fld b 0 4, columns := fld b 4 2, versioned := bit (fld b 6 2) 0, rowRetire := bit (fld b 6 2) 1,
    cols := fld b 8 8, batches := fld b 16 4, bstart := fld b 24 8, bvt := fld b 32 8, rrc := fld b 40 8 }

/-- R134: the descriptor's own checks. -/
def segOk (b : List Byte) : Bool :=
  let g := Seg.ofBytes b
  decide (1 ≤ g.columns ∧ g.columns ≤ 64) && decide (fld b 6 2 < 4) && (!g.rowRetire || g.versioned)
  && decide (g.cols % 64 = 0) && zeroAt b 20 4 && zeroAt b 48 16
  && (if g.versioned && decide (g.rows > 0) then decide (g.batches ≥ 1) else decide (g.batches = 0))
  && (if g.versioned then decide (g.bstart % 4 = 0 ∧ g.bvt % 16 = 0) else decide (g.bstart = 0 ∧ g.bvt = 0))
  && (if g.rowRetire then decide (g.rrc % 8 = 0) else decide (g.rrc = 0))

/-- R137. -/
structure Chunk where
  ty : Nat
  enc : Nat
  w : Nat
  nulls : Bool
  data : Nat
  bytes : Nat
  nullAddr : Nat
  aux : Nat
  auxCount : Nat
  base : Nat
  baseHi : Nat
  deriving DecidableEq, Repr

def Chunk.ofBytes (b : List Byte) : Chunk :=
  { ty := fld b 0 1, enc := fld b 1 1, w := fld b 2 1, nulls := bit (fld b 4 2) 0, data := fld b 8 8, bytes := fld b 16 8,
    nullAddr := fld b 24 8, aux := fld b 32 8, auxCount := fld b 40 4, base := fld b 48 8, baseHi := fld b 56 8 }

def Chunk.isDict (k : Chunk) : Bool := k.enc == 3

/-- R139. -/
def encOk (k : Chunk) : Bool :=
  let n := 8 * typeWidth k.ty
  match k.enc with
  | 0 => k.w == 0
  | 1 => typeInt k.ty && decide (1 ≤ k.w ∧ k.w ≤ n)
  | 2 => (typeInt k.ty && decide (1 ≤ k.w ∧ k.w ≤ n)) || ((k.ty == 0x09 || k.ty == 0x0A) && decide (k.w = n))
  | 3 => k.ty ≠ tyBOOL && decide (1 ≤ k.w ∧ k.w ≤ 24) && decide (1 ≤ k.auxCount ∧ k.auxCount ≤ 2 ^ k.w)
  | 4 => typeInt k.ty && decide (1 ≤ k.w ∧ k.w ≤ n)
  | 5 => (typeInt k.ty && decide (1 ≤ k.w ∧ k.w ≤ n)) || (k.ty == tyDEC && decide (1 ≤ k.w ∧ k.w ≤ 64))
  | _ => false

/-- R137, R139: a chunk descriptor's fields. -/
def chunkOk (b : List Byte) : Bool :=
  let k := Chunk.ofBytes b
  let plainStr := k.enc = 0 && k.ty = tySTR
  let usesAux := k.enc = 2 || k.enc = 3 || plainStr
  let usesBase := k.enc = 4 || k.enc = 5 || (k.enc = 3 && k.ty = tySTR)
  typeOk k.ty && encOk k && (if k.ty = tyDEC then decide (fld b 3 1 ≤ 38) else decide (fld b 3 1 = 0))
  && decide (fld b 4 2 < 2) && zeroAt b 6 2 && decide (k.data % 64 = 0) && (k.nulls || k.nullAddr == 0)
  && (usesAux || (k.aux == 0 && k.auxCount == 0)) && zeroAt b 44 4 && (usesBase || k.base == 0)
  && ((k.enc = 5 && k.ty = tyDEC) || k.baseHi == 0)

/-- R140: the length that the encoding implies. -/
def Chunk.implied (k : Chunk) (rows : Nat) : Nat :=
  match k.enc with
  | 0 => if k.ty = tyBOOL then cdiv rows 8 else if k.ty = tySTR then (rows + 1) * 4 else rows * typeWidth k.ty
  | 2 => cdiv (k.auxCount * k.w) 8
  | _ => cdiv (rows * k.w) 8

/-- R143. -/
structure Term where
  col : Nat
  op : Nat
  group : Nat
  negate : Bool
  nullTrue : Bool
  count : Nat
  operand : Nat
  deriving DecidableEq, Repr

def Term.ofBytes (b : List Byte) : Term :=
  { col := fld b 0 1, op := fld b 1 1, group := fld b 2 1 % 8, negate := bit (fld b 2 1) 3, nullTrue := bit (fld b 2 1) 4,
    count := fld b 4 4, operand := fld b 8 8 }

/-- R143 and the listed OPs. -/
def termLayoutOk (b : List Byte) : Bool :=
  let t := Term.ofBytes b
  decide (fld b 2 1 < 32) && zeroAt b 3 1 && decide (1 ≤ t.op ∧ t.op ≤ 0x0D)
  && (if t.op = 8 then decide (t.count ≤ 4096) else t.count == 0)

/-- The operand is given by address. -/
def Term.byAddr (t : Term) (k : Chunk) : Bool :=
  match t.op with
  | 7 => true
  | 8 => true
  | 11 => true
  | 9 => false
  | 10 => false
  | 12 => false
  | 13 => false
  | _ => k.ty = tyDEC || k.ty = tySTR

/-- R143: an operand given by address is aligned; `k` is the term's column, where the segment has it. -/
def termAligned (t : Term) (k : Option Chunk) : Bool :=
  match k with
  | some c => !(t.byAddr c) || t.operand % (if c.ty = tyDEC then 16 else 8) == 0
  | none => !(t.op == 7 || t.op == 8 || t.op == 11) || t.operand % 8 == 0

/-- R144, R131: types and operands. -/
def termTypeOk (t : Term) (k : Chunk) : Bool :=
  (match t.op with
    | 1 => k.ty ≠ tySTR || k.isDict
    | 2 => k.ty ≠ tySTR || k.isDict
    | 3 => k.ty ≠ tyBOOL && (k.ty ≠ tySTR || k.isDict)
    | 4 => k.ty ≠ tyBOOL && (k.ty ≠ tySTR || k.isDict)
    | 5 => k.ty ≠ tyBOOL && (k.ty ≠ tySTR || k.isDict)
    | 6 => k.ty ≠ tyBOOL && (k.ty ≠ tySTR || k.isDict)
    | 7 => k.ty ≠ tyBOOL && k.ty ≠ tySTR
    | 8 => k.ty ≠ tyBOOL && k.ty ≠ tySTR
    | 9 => decide (1 ≤ k.ty ∧ k.ty ≤ 8)
    | 10 => decide (1 ≤ k.ty ∧ k.ty ≤ 8)
    | 11 => k.isDict
    | _ => t.operand == 0 && !t.nullTrue)
  && (!(k.ty = tyBOOL && decide (t.op ≤ 2)) || decide (t.operand % 256 ≤ 1))

/-! ### Terms in evaluable form -/

/-- A term with its operands read (the start reads of R154). -/
structure RTerm where
  t : Term
  vals : List Val
  mask : Nat
  /-- Code bitmap for a DICT column (R146), or the CODESET bitmap. -/
  codes : Option (List Bool)
  deriving Repr

def relHolds (op : Nat) (o : Option Ordering) : Bool :=
  match op, o with
  | 1, some .eq => true
  | 2, some .eq => false
  | 2, _ => true
  | 3, some .lt => true
  | 4, some .lt => true
  | 4, some .eq => true
  | 5, some .gt => true
  | 6, some .gt => true
  | 6, some .eq => true
  | _, _ => false

/-- R144: the operation on a non-null decoded value, before NEGATE. -/
def RTerm.holds (r : RTerm) (v : Val) (n : Nat) : Bool :=
  match r.t.op with
  | 7 => relHolds 6 (v.cmp (r.vals.getD 0 (.int 0))) && relHolds 4 (v.cmp (r.vals.getD 1 (.int 0)))
  | 8 => r.vals.any (fun c => relHolds 1 (v.cmp c))
  | 9 => decide (v.raw n &&& r.mask ≠ 0)
  | 10 => decide (v.raw n &&& r.mask = r.mask)
  | op => relHolds op (v.cmp (r.vals.getD 0 (.int 0)))

/-! ### Columns as the UPU walks them -/

/-- Where the UPU stands in an RLE or DELTA chunk; `ends` run ends have been read, so the run at hand is `ends − 1`. -/
structure ColPos where
  ends : Nat
  runEnd : Nat
  next : Nat
  acc : Nat
  deriving DecidableEq, Repr

def ColPos.start (k : Chunk) : ColPos := { ends := 0, runEnd := 0, next := 0, acc := k.base }

/-- Value i of the packed stream at `addr` of width `w` (R138). -/
def uPacked (u : UCtx) (addr w i : Nat) : UM Nat := do
  let b0 := i * w / 8
  let b1 := (i * w + w - 1) / 8
  let raw ← uReadNat u (addr + b0) (b1 + 1 - b0)
  return (raw >>> (i * w % 8)) % 2 ^ w

/-- Offset and length of string i of an STR chunk (R132). -/
def uStr (u : UCtx) (offs i : Nat) (limit : Option Nat) : UM (Nat × Nat) := do
  let a ← uReadNat u (offs + 4 * i) 4
  let b ← uReadNat u (offs + 4 * i + 4) 4
  uCheck (decide (a ≤ b)) 0x0108
  match limit with
  | some l => uCheck (decide (b ≤ l)) 0x0108
  | none => pure ()
  return (a, b - a)

/-- Dictionary entry `code`. -/
def uDict (u : UCtx) (k : Chunk) (code : Nat) : UM Val := do
  if k.ty = tySTR then
    let (a, l) ← uStr u k.aux code none
    let bs ← uRead u (k.base + a) l
    return .str bs
  else
    let w := typeWidth k.ty
    let raw ← uReadNat u (k.aux + w * code) w
    return plainVal k.ty raw

/-- Moves an RLE chunk's position to the run that holds row i, checking the run ends (R140). -/
def uRunTo (u : UCtx) (k : Chunk) (rows i : Nat) : Nat → ColPos → UM ColPos
  | 0, _ => uFail 0x0106
  | f + 1, p =>
    if i < p.runEnd then pure p
    else do
      uCheck (decide (p.ends < k.auxCount)) 0x0106
      let e ← uReadNat u (k.aux + 4 * p.ends) 4
      uCheck (p.ends == 0 || decide (p.runEnd < e)) 0x0106
      uCheck (p.ends + 1 != k.auxCount || e == rows) 0x0106
      uRunTo u k rows i f { p with ends := p.ends + 1, runEnd := e }

/-- Adds deltas up to and including row i (R138). -/
def uDeltaTo (u : UCtx) (k : Chunk) (i : Nat) : Nat → ColPos → UM ColPos
  | 0, p => pure p
  | f + 1, p =>
    if i < p.next then pure p
    else do
      let n := 8 * typeWidth k.ty
      let d ← uPacked u k.data k.w p.next
      let acc := ((p.acc : Int) + toSigned d k.w) % (2 : Int) ^ n
      uDeltaTo u k i f { p with next := p.next + 1, acc := acc.toNat }

/-- What a row of a column holds: the value, and the code or offset and length that PROJECT may need. -/
structure Cell where
  val : Val
  code : Nat
  off : Nat
  len : Nat
  deriving DecidableEq, Repr

def Cell.of (v : Val) : Cell := { val := v, code := 0, off := 0, len := 0 }

/-- Advances a column over row i without decoding it: the data of RLE and DELTA are read through, also where a batch is skipped
(R147); of an RLE chunk, a run's end and its value. -/
def uPass (u : UCtx) (k : Chunk) (rows i : Nat) (p : ColPos) : UM ColPos :=
  match k.enc with
  | 2 => do
    let q ← uRunTo u k rows i (k.auxCount + 2) p
    if q.ends = p.ends then pure q
    else
      let _ ← uPacked u k.data k.w (q.ends - 1)
      pure q
  | 4 => uDeltaTo u k i (i + 1) p
  | _ => pure p

/-- Row i of a non-null column (R138); `p` already stands at row i.  `deep` reads the dictionary entry.  The bytes of a PLAIN
string are not read: no term compares them (R144), and PROJECT writes their offset and length (R153). -/
def uCell (u : UCtx) (k : Chunk) (i : Nat) (p : ColPos) (deep : Bool) : UM Cell := do
  match k.enc with
  | 0 =>
    if k.ty = tyBOOL then
      let b ← uReadNat u (k.data + i / 8) 1
      return Cell.of (.int (b2n (b.testBit (i % 8))))
    else if k.ty = tySTR then
      let (a, l) ← uStr u k.data i (some k.auxCount)
      return { val := .str [], code := 0, off := a, len := l }
    else
      let w := typeWidth k.ty
      let raw ← uReadNat u (k.data + w * i) w
      return Cell.of (plainVal k.ty raw)
  | 1 =>
    let v ← uPacked u k.data k.w i
    return Cell.of (plainVal k.ty v)
  | 2 =>
    let v ← uPacked u k.data k.w (p.ends - 1)
    return Cell.of (plainVal k.ty v)
  | 3 =>
    let c ← uPacked u k.data k.w i
    uCheck (decide (c < k.auxCount)) 0x0105
    if deep then
      let v ← uDict u k c
      return { val := v, code := c, off := 0, len := 0 }
    else return { val := .int 0, code := c, off := 0, len := 0 }
  | 4 => return Cell.of (plainVal k.ty p.acc)
  | _ =>
    let v ← uPacked u k.data k.w i
    return Cell.of (plainVal k.ty (k.base + (if k.ty = tyDEC then k.baseHi * 2 ^ 64 else 0) + v))

def uNull (u : UCtx) (k : Chunk) (i : Nat) : UM Bool := do
  if k.nulls then
    let b ← uReadNat u (k.nullAddr + i / 8) 1
    return b.testBit (i % 8)
  else return false

/-! ### The command -/

/-- R150. -/
structure ScanD where
  seg : Nat
  terms : Nat
  outkind : Nat
  proj : Nat
  rowStart : Nat
  rowCount : Nat
  pred : Nat
  out : Nat
  cap : Nat
  list : List Byte
  deriving DecidableEq, Repr

def ScanD.ofBytes (b : List Byte) : ScanD :=
  { seg := fld b 0 1, terms := fld b 1 1, outkind := fld b 2 1, proj := fld b 3 1, rowStart := fld b 8 4, rowCount := fld b 12 4,
    pred := fld b 16 8, out := fld b 24 8, cap := fld b 32 4, list := (b.drop 40).take 8 }

def scanOk (b : List Byte) : Bool :=
  let d := ScanD.ofBytes b
  decide (d.terms ≤ 16) && decide (d.outkind ≤ 3) && (if d.outkind = 3 then decide (1 ≤ d.proj ∧ d.proj ≤ 8) else d.proj == 0)
  && zeroAt b 4 4 && (if d.terms = 0 then d.pred == 0 else d.pred % 16 == 0)
  && (if d.outkind = 0 then d.out == 0 && d.cap == 0
      else d.out % 64 == 0 && decide (16 ≤ d.cap) && (d.outkind ≠ 2 || decide (16 + cdiv d.rowCount 8 ≤ d.cap)))
  && zeroAt b 36 4 && (d.list.drop d.proj).all (· == 0) && zeroAt b 48 16

/-- A column that the SCAN references. -/
structure ColRef where
  idx : Nat
  k : Chunk
  deriving Repr

/-- Everything the SCAN knows once its start reads are done. -/
structure ScanCfg where
  u : UCtx
  d : ScanD
  g : Seg
  snap : Nat
  cols : List ColRef
  terms : List RTerm
  deriving Repr

def ScanCfg.chunk (c : ScanCfg) (i : Nat) : Chunk :=
  match c.cols.find? (fun r => r.idx == i) with
  | some r => r.k
  | none => Chunk.ofBytes []

/-- R146: evaluated by code bitmap. -/
def bitmapFits (k : Chunk) : Bool := decide (k.auxCount ≤ 524288)

/-- Reads the operands of one term, and the code bitmap of a DICT column. -/
def uTerm (u : UCtx) (t : Term) (k : Chunk) : UM RTerm := do
  let w := typeWidth k.ty
  let n := 8 * w
  let mask := t.operand % 2 ^ n
  let vals ← (do
    if t.op = 7 then
      let a ← uReadNat u t.operand w
      let b ← uReadNat u (t.operand + w) w
      return [plainVal k.ty a, plainVal k.ty b]
    else if t.op = 8 then
      (List.range t.count).mapM (fun i => do
        let a ← uReadNat u (t.operand + w * i) w
        return plainVal k.ty a)
    else if decide (t.op ≤ 6) then
      if k.ty = tySTR then
        let l ← uReadNat u t.operand 4
        let bs ← uRead u (t.operand + 4) l
        return [Val.str bs]
      else if k.ty = tyDEC then
        let a ← uReadNat u t.operand 16
        return [plainVal k.ty a]
      else return [plainVal k.ty t.operand]
    else return [] : UM (List Val))
  let base : RTerm := { t := t, vals := vals, mask := mask, codes := none }
  if t.op = 11 then
    let bs ← uRead u t.operand (cdiv k.auxCount 8)
    return { base with codes := some ((List.range k.auxCount).map (fun i => ((bs.getD (i / 8) 0).getLsbD (i % 8)))) }
  else if k.isDict && bitmapFits k && decide (t.op ≤ 10) then
    let cs ← (List.range k.auxCount).mapM (fun i => do
      let v ← uDict u k i
      return base.holds v n)
    return { base with codes := some cs }
  else return base

/-- What the SCAN carries from row to row. -/
structure ScanSt where
  pos : Table ColPos
  batch : Nat
  bfirst : Nat
  bend : Nat
  skip : Bool
  perRow : Bool
  sel : Nat
  outOff : Nat
  bmap : Nat
  late : Option Nat := none   -- BITMAP: the first byte that could not be written, where none of its rows was selected
  deriving DecidableEq, Repr

/-- R135, R136, R147: moves to the batch of row r.  An entry before the last that is at or above ROWS breaks R135 only through a later
entry, and is taken as it is until that one is reached (DESIGN CHOICE, log entry 13). -/
def uBatchTo (c : ScanCfg) (r : Nat) : Nat → ScanSt → UM ScanSt
  | 0, _ => uFail 0x0107
  | f + 1, st =>
    if r < st.bend then pure st
    else do
      let first := st.bend = 0
      if first then
        let z ← uReadNatVis c.g.bstart
        uCheck (z == 0) 0x0107
      let b := if first then 0 else st.batch + 1
      uCheck (decide (b < c.g.batches)) 0x0107
      let e ← uReadNatVis (c.g.bstart + 4 * (b + 1))
      uCheck (decide (st.bend < e)) 0x0107
      uCheck (b + 1 != c.g.batches || e == c.g.rows) 0x0107
      if e ≤ r then uBatchTo c r f { st with batch := b, bfirst := st.bend, bend := e }
      else
        let v ← uReadVis c.u (c.g.bvt + 16 * b) 16
        let create := fld v 0 8
        let minr := fld v 8 8
        pure { st with batch := b, bfirst := st.bend, bend := e, skip := decide (c.snap < create),
                       perRow := c.g.rowRetire && decide (minr ≤ c.snap) }
where
  uReadNatVis (a : Nat) : UM Nat := do return leNat (← uReadVis c.u a 4)

/-- R142, R144–R146: a term on one row. -/
def uTermRow (c : ScanCfg) (row : Nat) (st : ScanSt) (r : RTerm) : UM Bool := do
  let k := c.chunk r.t.col
  let null ← uNull c.u k row
  if r.t.op = 12 then return (null != r.t.negate)
  else if r.t.op = 13 then return ((!null) != r.t.negate)
  else if null then return r.t.nullTrue
  else
    let pos := tgetD st.pos r.t.col (ColPos.start k)
    let cell ← uCell c.u k row pos r.codes.isNone
    let v := match r.codes with
      | some cs => cs.getD cell.code false
      | none => r.holds cell.val (8 * typeWidth k.ty)
    return (v != r.t.negate)

/-- R145: AND over groups of OR within a group. -/
def groupsHold (ts : List (Nat × Bool)) : Bool :=
  ts.all (fun x => ts.any (fun y => y.1 == x.1 && y.2))

/-- R153: size and bytes of a projected field. -/
def fieldSize (k : Chunk) : Nat :=
  if k.ty = tyBOOL then 1
  else if k.ty = tySTR then (if k.isDict then 4 else 8)
  else typeWidth k.ty

def padTo (bs : List Byte) (n : Nat) : List Byte := bs ++ zeros (cdiv bs.length n * n - bs.length)

def fieldBytes (k : Chunk) (cell : Cell) : List Byte :=
  if k.ty = tySTR then (if k.isDict then leBytes 4 cell.code else leBytes 4 cell.off ++ leBytes 4 cell.len)
  else leBytes (fieldSize k) (cell.val.raw (8 * fieldSize k))

/-- R153: the record of one row. -/
def uRecord (c : ScanCfg) (row : Nat) (st : ScanSt) : UM (List Byte) := do
  let fs ← (List.range c.d.proj).mapM (fun j => do
    let col := (c.d.list.getD j 0).toNat
    let k := c.chunk col
    let null ← uNull c.u k row
    if null then return (true, zeros (fieldSize k), fieldSize k)
    else
      let cell ← uCell c.u k row (tgetD st.pos col (ColPos.start k)) (k.ty ≠ tySTR)
      return (false, fieldBytes k cell, fieldSize k))
  let nulls := (List.range c.d.proj).foldl (fun m j => if (fs.getD j (false, [], 1)).1 then m + 2 ^ j else m) 0
  let body := fs.foldl (fun acc f => padTo acc f.2.2 ++ f.2.1) (leBytes 4 row ++ leBytes 1 nulls ++ zeros 3)
  let wide := (List.range c.d.proj).any (fun j => (c.chunk (c.d.list.getD j 0).toNat).ty == tyDEC)
  return padTo body (if wide then 16 else 8)

/-- BITMAP (R152): stores the byte at offset `j`.  A failure stops the SCAN at a selected row (R155); at a row not selected it is
held back, and stops the SCAN only after the last row, when no selected row has met one (DESIGN CHOICE, log entry 13). -/
def uBitmap (c : ScanCfg) (st : ScanSt) (j acc : Nat) (hit : Bool) : UM ScanSt :=
  ExceptT.mk fun s =>
    match uRun (uWrite c.u (c.d.out + 16 + j) (leBytes 1 acc)) s with
    | (.ok _, s1) => (.ok st, s1)
    | (.error e, s1) =>
      if hit || s1.hostMiss.isSome then (.error e, s1) else (.ok { st with late := st.late.or (some j) }, s)

/-- Every referenced non-null row that is read keeps CODE_RANGE and OFFSET_RANGE, visible or not (R146, R140). -/
def uRowChecks (c : ScanCfg) (row : Nat) (st : ScanSt) : UM Unit :=
  c.cols.forM (fun r => do
    let null ← uNull c.u r.k row
    if !null && (r.k.isDict || (r.k.enc = 0 && r.k.ty = tySTR)) then
      let _ ← uCell c.u r.k row (tgetD st.pos r.idx (ColPos.start r.k)) false
      pure ()
    else pure ())

/-- One row of the range (R141–R147, R152).  The values of a row that is not visible, and those of a projected column at a row that is not
selected, are not read, so a page of theirs that cannot be read stops nothing; a PROJECT record that crosses into a page that cannot be
written is written up to it (DESIGN CHOICES, log entry 13). -/
def scanRow (c : ScanCfg) (row : Nat) (st0 : ScanSt) : UM ScanSt := do
  let st1 ← (if c.g.versioned then uBatchTo c row (c.g.batches + 2) st0 else pure st0)
  let st2 ← c.cols.foldlM (fun (st : ScanSt) r => do
    let p ← uPass c.u r.k c.g.rows row (tgetD st.pos r.idx (ColPos.start r.k))
    return { st with pos := tput st.pos r.idx p }) st1
  let vis ← (do
    if c.g.versioned && st2.skip then return false
    else if c.g.versioned && st2.perRow then
      let v ← uReadVis c.u (c.g.rrc + 8 * row) 8
      return decide (c.snap < leNat v)
    else return true : UM Bool)
  if !(c.g.versioned && st2.skip) then uRowChecks c row st2
  let hit ← (do
    if !vis then return false
    else
      let ts ← c.terms.mapM (fun r => do
        let b ← uTermRow c row st2 r
        return (r.t.group, b))
      return groupsHold ts : UM Bool)
  let i := row - c.d.rowStart
  match c.d.outkind with
  | 1 =>
    if hit then
      uCheck (decide (16 + 4 * (st2.sel + 1) ≤ c.d.cap)) 0x0109
      uWrite c.u (c.d.out + 16 + 4 * st2.sel) (leBytes 4 row)
      return { st2 with sel := st2.sel + 1 }
    else return st2
  | 2 =>
    let acc := (if i % 8 = 0 then 0 else st2.bmap) + (if hit then 2 ^ (i % 8) else 0)
    let st3 ← uBitmap c st2 (i / 8) acc hit
    return { st3 with sel := st3.sel + b2n hit, bmap := acc }
  | 3 =>
    if hit then
      let rec_ ← uRecord c row st2
      uCheck (decide (16 + st2.outOff + rec_.length ≤ c.d.cap)) 0x0109
      uWrite c.u (c.d.out + 16 + st2.outOff) rec_
      return { st2 with sel := st2.sel + 1, outOff := st2.outOff + rec_.length }
    else return st2
  | _ => return { st2 with sel := st2.sel + b2n hit }

/-- Rows in ascending order; stops at the first row not fully evaluated. -/
def scanLoop (c : ScanCfg) : Nat → Nat → ScanSt → State → (ScanSt × Nat × Option UErr) × State
  | 0, row, st, s =>
    match st.late with
    | none => ((st, row, none), s)
    | some j =>
      match uRun (uWrite c.u (c.d.out + 16 + j) (leBytes 1 0)) s with
      | (.ok _, s1) => ((st, row, none), s1)
      | (.error e, s1) => ((st, row, some e), s1)
  | f + 1, row, st, s =>
    match uRun (scanRow c row st) s with
    | (.ok st1, s1) => scanLoop c f (row + 1) st1 s1
    | (.error e, s1) => ((st, row, some e), s1)

def dedup (l : List Nat) : List Nat := l.foldl (fun a x => if a.contains x then a else a ++ [x]) []

/-- R150: the checks in their order, and the reads before the first row (R154); none for an empty range (R151).  Which of several failing
start reads is reported the spec does not say: the operands and dictionaries are read first, and the output header is translated last
(DESIGN CHOICE, log entry 13). -/
def scanStart (u : UCtx) (g : Leg) (cmd : UnitCmd) : UM (Option ScanCfg) := do
  uCheck (cmd.arg == 0 && cmd.imm == 0) 0x0101
  let b ← uDesc u cmd.desc.toNat 64 0x0101
  uCheck (scanOk b) 0x0101
  let d := ScanD.ofBytes b
  uCheck (g.entry.indesc != 0) 0x0101
  let h ← uReadNat u g.entry.indesc.toNat 2
  uCheck (decide (d.seg < min h 64)) 0x0101
  let sb ← uRead u (g.entry.indesc.toNat + 64 + 64 * d.seg) 64
  uCheck (segOk sb) 0x0101
  let seg := Seg.ofBytes sb
  uCheck ((d.list.take d.proj).all (fun x => decide (x.toNat < seg.columns))) 0x0101
  uCheck (decide (d.rowStart + d.rowCount ≤ seg.rows)) 0x0102
  let tbs ← (List.range d.terms).mapM (fun i => uRead u (d.pred + 16 * i) 16)
  let want := dedup (sortBy id (tbs.map (fun b => (Term.ofBytes b).col) ++ ((d.list.take d.proj).map (·.toNat))))
  let cols ← (want.filter (fun i => decide (i < seg.columns))).mapM (fun i => do
    let kb ← uRead u (seg.cols + 64 * i) 64
    uCheck (chunkOk kb) 0x0101
    let k := Chunk.ofBytes kb
    uCheck (k.bytes == k.implied seg.rows) 0x0103
    return ({ idx := i, k := k } : ColRef))
  let look := fun (i : Nat) => (cols.find? (fun r => r.idx == i)).map (·.k)
  tbs.forM (fun b => do
    uCheck (termLayoutOk b) 0x0101
    let t := Term.ofBytes b
    uCheck (termAligned t (look t.col)) 0x0101
    match look t.col with
    | some k => uCheck (termTypeOk t k) 0x0104
    | none => uFail 0x0104)
  if d.rowCount = 0 then return none
  else
    let terms ← tbs.mapM (fun b => do
      let t := Term.ofBytes b
      match look t.col with
      | some k => uTerm u t k
      | none => uFail 0x0104)
    if d.outkind ≠ 0 then uProbeW u d.out
    return some { u := u, d := d, g := seg, snap := g.snapshot.toNat, cols := cols, terms := terms }

/-- The whole SCAN: its status code, its result and the rows examined.  A header that cannot be written fails a SCAN that had not
stopped (R155, R483). -/
def scanRun (c : Nat) (g : Leg) (cmd : UnitCmd) (s : State) : Nat × Nat × Nat × State :=
  let u : UCtx := { agent := 1, sel := .cluster c, part := cmd.part, leg := cmd.leg }
  match uRun (scanStart u g cmd) s with
  | (.error e, s1) => (e.status 0x010A 0x010B, 0, 0, s1)
  | (.ok none, s1) => (0, 0, 0, s1)
  | (.ok (some cfg), s1) =>
    let st0 : ScanSt :=
      { pos := [], batch := 0, bfirst := 0, bend := 0, skip := false, perRow := false, sel := 0, outOff := 0, bmap := 0 }
    match scanLoop cfg cfg.d.rowCount cfg.d.rowStart st0 s1 with
    | ((st, row, e), s2) =>
      let seen := row - cfg.d.rowStart
      let hdr := leBytes 4 seen ++ leBytes 4 st.sel ++ leBytes 4 row ++ leBytes 4 (b2n e.isNone)
      let (h, s3) := if cfg.d.outkind = 0 then (.ok (), s2) else uRun (uWrite u cfg.d.out hdr) s2
      let code := match e, h with
        | some x, _ => x.status 0x010A 0x010B
        | none, .error x => x.status 0x010A 0x010B
        | none, .ok _ => 0
      (code, st.sel, seen, s3)

end Sys2Proof.Machine
end

