-- ==== Sys2Proof/Machine/Hash.lean ====
section
/-!
DEFINITION. The hash unit (06): CH64, the join store and its tables, BUILD, PROBE, AGGREGATE and FLUSH, radix spill and the
shuffle's messages.
-/
namespace Sys2Proof.Machine

open Sys2Proof

/-! ### CH64 (R160–R162) -/

def chM1 : Word := 0x9E3779B97F4A7C15
def chM2 : Word := 0x8F3D5B27C1E964AD

def chMix (x0 : Word) : Word :=
  let x1 := (x0 ^^^ (x0 >>> 32)) * chM2
  let x2 := (x1 ^^^ (x1 >>> 29)) * chM1
  x2 ^^^ (x2 >>> 32)

def ch64 (ws : List Word) (seed : Word) : Word :=
  chMix (ws.foldl (fun h w => chMix (h ^^^ w) + chM1) (seed ^^^ (BitVec.ofNat 64 ws.length * chM1)))

def chTag (h : Word) : Nat := bits h.toNat 46 40
def chPart (h : Word) (radix : Nat) : Nat := bits h.toNat 63 16 % 2 ^ radix
def chUnit (h : Word) (units : Nat) : Nat := (bits h.toNat 63 48 * units) >>> 16

/-! ### Fields of a record (R161, R170) -/

structure KeyF where
  off : Nat
  ty  : Nat
  nb  : Nat
  deriving DecidableEq, Repr

/-- Bytes a field of a type takes in a record: a STR is its U32 code, a BOOL a U8. -/
def recSize (t : Nat) : Nat :=
  if t = tySTR then 4 else if t = tyBOOL then 1
  else if t = 1 ∨ t = 5 then 1 else if t = 2 ∨ t = 6 then 2 else if t = 3 ∨ t = 7 ∨ t = 9 ∨ t = 0x0C then 4
  else if t = tyDEC then 16 else 8

/-- R171: 0 signed, 1 unsigned, 2 floating, 3 DEC128. -/
def keyClass (t : Nat) : Nat :=
  if t = tyDEC then 3 else if t = 9 ∨ t = 0x0A then 2 else if t ≤ 4 ∨ t = 0x0C then 0 else 1

def keyWords (t : Nat) : Nat := if t = tyDEC then 2 else 1

def fieldOk (f : KeyF) (rc nullsOff : Nat) : Bool :=
  typeOk f.ty && f.off % recSize f.ty == 0 && decide (f.off + recSize f.ty ≤ rc)
  && (decide (f.nb < 8) || f.nb == 0xFF) && !(f.nb != 0xFF && nullsOff == 0xFF)

def fieldNull (f : KeyF) (nullsOff : Nat) (rc : List Byte) : Bool :=
  f.nb != 0xFF && bit (fld rc nullsOff 1) f.nb

def f64Word (b : Nat) : Word :=
  if fIsNan true b then BitVec.ofNat 64 (fNan true) else if b = 2 ^ 63 then 0 else BitVec.ofNat 64 b

/-- R161: the words of one field. -/
def fieldWords (f : KeyF) (nullsOff : Nat) (rc : List Byte) : List Word :=
  if fieldNull f nullsOff rc then List.replicate (keyWords f.ty) 0
  else
    let n := recSize f.ty
    let v := fld rc f.off n
    match keyClass f.ty with
    | 0 => [BitVec.ofInt 64 (toSigned v (8 * n))]
    | 1 => [BitVec.ofNat 64 v]
    | 2 => [f64Word (if f.ty = 9 then f32to64 v else v)]
    | _ => [BitVec.ofNat 64 v, BitVec.ofNat 64 (v / 2 ^ 64)]

/-- Key words, with the null-mask word when `mask`. -/
def rowKey (fs : List KeyF) (nullsOff : Nat) (mask : Bool) (rc : List Byte) : List Word :=
  let base := (fs.map (fun f => fieldWords f nullsOff rc)).flatten
  let m := (List.range fs.length).foldl (fun a j =>
    match fs[j]? with | some f => if fieldNull f nullsOff rc then a + 2 ^ j else a | none => a) 0
  if mask then base ++ [BitVec.ofNat 64 m] else base

/-! ### Descriptor (R169) -/

structure HuD where
  flags : Nat
  kind : Nat
  nkey : Nat
  payWords : Nat
  nullsOff : Nat
  recB : Nat
  inAddr : Nat
  rowStart : Nat
  rowCount : Nat
  keys : List KeyF
  payOff : Nat
  radix : Nat
  select : Nat
  resLo : Nat
  resHi : Nat
  spillAddr : Nat
  out : Nat
  cap : Nat
  base : Nat
  granules : Nat
  accCount : Nat
  stats : Nat
  seed : Word
  accs : List AccSpec
  shufAddr : Nat
  deriving DecidableEq, Repr

def HuD.ofBytes (b : List Byte) : HuD :=
  { flags := fld b 0 2, kind := fld b 2 1, nkey := fld b 3 1, payWords := fld b 4 1, nullsOff := fld b 5 1, recB := fld b 6 2,
    inAddr := fld b 8 8, rowStart := fld b 16 4, rowCount := fld b 20 4,
    keys := (List.range (min (fld b 3 1) 4)).map (fun i =>
      { off := fld b (24 + 4 * i) 1, ty := fld b (25 + 4 * i) 1, nb := fld b (26 + 4 * i) 1 }),
    payOff := fld b 40 2, radix := fld b 42 1, select := fld b 43 1, resLo := fld b 44 2, resHi := fld b 46 2,
    spillAddr := fld b 48 8, out := fld b 56 8, cap := fld b 64 4, base := fld b 68 1, granules := fld b 69 1,
    accCount := fld b 70 1, stats := fld b 72 8, seed := BitVec.ofNat 64 (fld b 80 8),
    accs := (List.range (min (fld b 70 1) 6)).map (fun i =>
      { kind := fld b (88 + 4 * i) 1, off := fld b (89 + 4 * i) 1, typ := fld b (90 + 4 * i) 1, nullBit := fld b (91 + 4 * i) 1 }),
    shufAddr := fld b 112 8 }

def cBUILD : Nat := 1
def cPROBE : Nat := 2
def cAGG : Nat := 3
def cFLUSH : Nat := 4

def HuD.init (d : HuD) : Bool := bit d.flags 0
def HuD.legScope (d : HuD) : Bool := bit d.flags 1
def HuD.release (d : HuD) : Bool := bit d.flags 2
def HuD.spill (d : HuD) : Bool := bit d.flags 3
def HuD.shuffle (d : HuD) : Bool := bit d.flags 4
def HuD.mark (d : HuD) : Bool := bit d.flags 5
def HuD.nullable (d : HuD) : Bool := d.keys.any (fun f => f.nb != 0xFF)
/-- R172: no partition is resident; the command uses no table. -/
def HuD.noTable (d : HuD) : Bool := d.spill && decide (d.resHi < d.resLo)
def HuD.keyWords (d : HuD) : Nat := (d.keys.map (fun f => Machine.keyWords f.ty)).sum

def accWords (a : AccSpec) : Nat := if a.kind = 6 then 2 else 1

/-- R179: an accumulator's kind, source type and field. -/
def accOk (a : AccSpec) (rc nullsOff : Nat) : Bool :=
  let f : KeyF := { off := a.off, ty := a.typ, nb := a.nullBit }
  let sgn := decide (1 ≤ a.typ ∧ a.typ ≤ 4) || a.typ == 0x0C
  let uns := decide (5 ≤ a.typ ∧ a.typ ≤ 8) || a.typ == 0x0D || a.typ == tyBOOL
  let flt := a.typ == 9 || a.typ == 0x0A
  if a.kind = 1 then a.off == 0 && a.typ == 0 && a.nullBit == 0xFF
  else
    fieldOk f rc nullsOff
    && (match a.kind with
        | 2 => true
        | 3 => sgn
        | 4 => uns
        | 5 => flt
        | 6 => a.typ == tyDEC
        | 7 => sgn
        | 8 => sgn
        | 9 => uns
        | 10 => uns
        | 11 => flt
        | 12 => flt
        | 13 => decide (recSize a.typ ≤ 8)
        | _ => false)

/-- R169, R170, R172, R177, R179, R182: every check on the descriptor's bytes. -/
def huDescOk (cmd : Nat) (b : List Byte) : Bool :=
  let d := HuD.ofBytes b
  let row := cmd != cFLUSH
  let fmask := if cmd = cBUILD then 0x1B else if cmd = cPROBE then 0x38 else if cmd = cAGG then 0x1B else 0x04
  let anyDec := d.keys.any (fun f => f.ty == tyDEC) || d.accs.any (fun a => a.typ == tyDEC)
  let flagsOk := decide (d.flags &&& fmask = d.flags) && (d.init || !d.legScope)
  let kindOk := if cmd = cPROBE then decide (d.kind ≤ 3) else d.kind == 0
  let rowOk := if row then
      decide (1 ≤ d.nkey ∧ d.nkey ≤ 4) && decide (8 ≤ d.recB ∧ d.recB ≤ 256) && d.recB % 8 == 0
      && (d.nullsOff == 0xFF || decide (d.nullsOff < d.recB)) && d.inAddr % (if anyDec then 16 else 8) == 0
      && d.keys.all (fun f => fieldOk f d.recB d.nullsOff) && zeroAt b (24 + 4 * d.nkey) (16 - 4 * d.nkey)
      && (List.range d.nkey).all (fun i => fld b (27 + 4 * i) 1 == 0)
      && decide (d.radix ≤ 10) && decide (d.resHi < 2 ^ d.radix) && decide (d.keyWords ≤ 5)
      && (d.spill || (d.resLo == 0 && d.resHi == 2 ^ d.radix - 1)) && !(d.noTable && d.init) && d.stats % 32 == 0
    else d.nkey == 0 && d.recB == 0 && d.nullsOff == 0 && d.inAddr == 0 && d.rowCount == 0 && zeroAt b 24 16 && d.radix == 0
      && d.resLo == 0 && d.resHi == 0 && d.stats == 0 && d.seed == 0
  let payOk := if cmd = cBUILD then decide (d.payWords ≤ 6) && d.payOff % 8 == 0 && decide (d.payOff + 8 * d.payWords ≤ d.recB)
    else d.payWords == 0 && d.payOff == 0
  let selOk := if cmd = cFLUSH then decide (d.select ≤ 2) else d.select == 0
  let outOk := if cmd = cPROBE then d.out % 64 == 0 && decide (16 ≤ d.cap)
    else if cmd = cFLUSH then
      (if d.out = 0 then d.release && d.cap == 0 else d.out % 64 == 0 && decide (16 ≤ d.cap))
    else d.out == 0 && d.cap == 0
  let initOk := if d.init then decide (d.base ≤ 63) && [1, 2, 4, 8, 16, 32, 64].contains d.granules else d.base == 0 && d.granules == 0
  let accsOk := if cmd = cAGG ∧ d.init then
      decide (1 ≤ d.accCount ∧ d.accCount ≤ 6) && d.accs.all (fun a => accOk a d.recB d.nullsOff)
      && zeroAt b (88 + 4 * d.accCount) (24 - 4 * d.accCount)
    else d.accCount == 0 && zeroAt b 88 24
  let kw := d.keyWords + b2n (cmd == cAGG && d.nullable)
  let pw := if cmd = cAGG then (d.accs.map accWords).sum else d.payWords
  let shapeOk := decide (kw ≤ 5) && (!d.init || decide (kw + pw ≤ 7))
  flagsOk && kindOk && rowOk && payOk && selOk && outOk && initOk && accsOk && (!row || shapeOk)
  && (d.spill || d.spillAddr == 0) && (d.shuffle || d.shufAddr == 0) && zeroAt b 71 1 && zeroAt b 120 8

/-! ### Tables and buckets (R163–R166) -/

def HuTable.nb (t : HuTable) : Nat := t.granules * 1024
def HuTable.e (t : HuTable) : Nat := t.kw + t.pw
def HuTable.cap (t : HuTable) : Nat := 7 / t.e
/-- Store word 0 of bucket `b`. -/
def HuTable.word (t : HuTable) (b : Nat) : Nat := (t.base * 1024 + b) * 8

def Cluster.jsGet (k : Cluster) (w : Nat) : Word := tgetD k.store w 0
def Cluster.jsPut (k : Cluster) (w : Nat) (v : Word) : Cluster :=
  { k with store := if v = 0 then tdel k.store w else tput k.store w v }
def Cluster.jsPutAll (k : Cluster) (w : Nat) : List Word → Cluster
  | [] => k
  | v :: t => Cluster.jsPutAll (k.jsPut w v) (w + 1) t

def bkCount (h : Word) : Nat := bits h.toNat 58 56
def bkOvf (h : Word) : Bool := h.getLsbD 59
def bkTag (h : Word) (i : Nat) : Nat := bits h.toNat (8 * i + 6) (8 * i)
def bkMark (h : Word) (i : Nat) : Bool := h.getLsbD (8 * i + 7)

def Cluster.words (k : Cluster) (w n : Nat) : List Word := (List.range n).map (fun j => k.jsGet (w + j))

/-- R166 insert: the store word of the new slot, and bucket visits beyond the first; none when no bucket has room. -/
def huInsert (t : HuTable) (h : Word) (ws : List Word) : Nat → Nat → Cluster → Option Nat × Nat × Cluster
  | 0, _, k => (none, 63, k)
  | f + 1, s, k =>
    let b := (h.toNat + s) % t.nb
    let w := t.word b
    let hd := k.jsGet w
    let n := bkCount hd
    if n < t.cap then
      let slot := w + 1 + n * t.e
      let clear := hd &&& ~~~ (0xFF#64 <<< (8 * n)) &&& ~~~ (7#64 <<< 56)
      let hd1 := clear ||| BitVec.ofNat 64 (chTag h <<< (8 * n)) ||| BitVec.ofNat 64 ((n + 1) <<< 56)
      let k1 := { k with firsts := k.firsts.filter (fun x => x < slot ∨ slot + t.e ≤ x) }
      (some slot, s, (k1.jsPut w hd1).jsPutAll slot ws)
    else huInsert t h ws f (s + 1) (k.jsPut w (hd ||| 1#64 <<< 59))

/-- R166 lookup: matches as (bucket word, slot number), and bucket visits beyond the first. -/
def huLookup (t : HuTable) (h : Word) (key : List Word) (k : Cluster) : Nat → Nat → List (Nat × Nat) → List (Nat × Nat) × Nat
  | 0, _, acc => (acc, 63)
  | f + 1, s, acc =>
    let w := t.word ((h.toNat + s) % t.nb)
    let hd := k.jsGet w
    let ms := ((List.range (bkCount hd)).filter (fun i =>
      bkTag hd i == chTag h && k.words (w + 1 + i * t.e) t.kw == key)).map (fun i => (w, i))
    if bkOvf hd then huLookup t h key k f (s + 1) (acc ++ ms) else (acc ++ ms, s)

def Cluster.table? (k : Cluster) (part num : Nat) : Option HuTable := k.tables.find? (fun t => t.part == part && t.num == num)
def Cluster.dropTable (k : Cluster) (part num : Nat) : Cluster :=
  { k with tables := k.tables.filter (fun t => !(t.part == part && t.num == num)) }
def Cluster.putTable (k : Cluster) (t : HuTable) : Cluster := { k.dropTable t.part t.num with tables := t :: (k.dropTable t.part t.num).tables }

/-- R163: granule `g` written to zero. -/
def Cluster.zeroGranule (k : Cluster) (g : Nat) : Cluster :=
  { k with store := k.store.filter (fun e => e.1 / 8192 ≠ g), firsts := k.firsts.filter (fun w => w / 8192 ≠ g) }

def Cluster.owns (k : Cluster) (part g : Nat) : Bool :=
  let o := tgetD k.owner g 0
  o.getLsbD 15 && bits o.toNat 8 0 == part

/-! ### Shuffle (R174) -/

structure ShufD where
  units : Nat
  self : Nat
  dest : List (Nat × Nat)      -- chain address, inbox
  deriving DecidableEq, Repr

def shufOk (b : List Byte) : Bool :=
  let u := fld b 0 1
  decide (1 ≤ u ∧ u ≤ 16) && decide (fld b 1 1 < u) && zeroAt b 2 14 && zeroAt b (16 + 2 * u) (32 - 2 * u)
  && (List.range u).all (fun i => decide (fld b (16 + 2 * i) 1 < 16))

def ShufD.ofBytes (b : List Byte) : ShufD :=
  { units := fld b 0 1, self := fld b 1 1,
    dest := (List.range (fld b 0 1)).map (fun i => (fld b (16 + 2 * i) 1, fld b (17 + 2 * i) 1)) }

/-- A message of consecutive records to one unit. -/
structure ShufMsg where
  unit : Nat
  first : Nat
  recs : List (List Byte)
  deriving DecidableEq, Repr

/-! ### Running a command -/

structure HuCfg where
  u : UCtx
  cl : Nat
  cmd : Nat
  num : Nat
  d : HuD
  spill : List (Nat × Nat)     -- BUF_ADDR, CAP_BYTES by partition
  shuf : Option ShufD
  limit : Option (Nat × Nat)   -- R175: first record not delivered, code
  js : Ecc
  jsAt : Nat                   -- record of the range at which the join store's check answers `js`
  deriving DecidableEq, Repr

structure HuSt where
  fills : Table Nat
  out : Nat                    -- output bytes after the header
  res : Nat                    -- MATCHES of R189
  table : Nat
  spilled : Nat
  shuffled : Nat
  nulls : Nat
  overs : Nat
  extra : Nat
  msgs : List ShufMsg          -- latest first
  met : Bool := false          -- R185: the word in error has been met
  deriving DecidableEq, Repr

/-- R165, R171, R185: the table the command works on; INIT binds it.  A BUILD or AGGREGATE on a bound table is held to the
record layout that the table's payload and accumulators need (R169, R170). -/
def huBind (u : UCtx) (c num cmd : Nat) (d : HuD) : UM Unit := do
  let s ← getThe State
  let k := s.cl c
  let t? := k.table? u.part num
  let kw := d.keyWords + b2n (cmd == cAGG && d.nullable)
  if d.noTable then pure ()
  else if d.init then
    uCheck (t?.isSome || decide (k.tables.length < 32)) 0x0203
    let gs := (List.range d.granules).map (· + d.base)
    uCheck (gs.all (fun g => decide (g < 64) && k.owns u.part g)) 0x0204
    uCheck (!k.tables.any (fun t => t.part == u.part && t.num != num && gs.any (fun g => decide (t.base ≤ g ∧ g < t.base + t.granules)))) 0x0205
    let t : HuTable :=
      { part := u.part, num := num, agg := cmd == cAGG, base := d.base, granules := d.granules, seed := d.seed, kw := kw,
        pw := if cmd = cAGG then (d.accs.map accWords).sum else d.payWords,
        classes := d.keys.map (fun f => keyClass f.ty), nullable := cmd == cAGG && d.nullable, accs := d.accs,
        legScope := if d.legScope then some u.leg else none, poisoned := false }
    let lo := d.base * 8192
    let hi := lo + d.granules * 8192
    uModify (fun s => s.setCl c (Cluster.putTable { s.cl c with
      store := (s.cl c).store.filter (fun e => !(decide (lo ≤ e.1 ∧ e.1 < hi) && e.1 % 8 == 0)),
      firsts := (s.cl c).firsts.filter (fun w => w < lo ∨ hi ≤ w) } t))
  else
    match t? with
    | none => uFail 0x0202
    | some t =>
      let row := cmd != cFLUSH
      let kwp := d.keyWords + b2n (if cmd = cPROBE then t.nullable else cmd == cAGG && d.nullable)
      let bad := (row && (t.seed != d.seed || t.kw != kwp || t.classes != d.keys.map (fun f => keyClass f.ty)))
        || (cmd == cBUILD && t.agg) || (cmd == cAGG && !t.agg) || (cmd == cPROBE && d.mark && t.agg)
        || (cmd == cBUILD && d.payWords != 0 && d.payWords != t.pw)
      uCheck (!bad) 0x0206
      uCheck (!t.poisoned || (cmd == cFLUSH && d.out == 0 && d.release)) 0x0207
      uCheck (cmd != cBUILD || decide (d.payOff + 8 * t.pw ≤ d.recB)) 0x0201
      uCheck (cmd != cAGG || (t.accs.all (fun a => accOk a d.recB d.nullsOff)
        && (d.inAddr % 16 == 0 || t.accs.all (fun a => a.typ != tyDEC)))) 0x0201

/-- The start of a command: everything checked before any record is read; of the spill entries those of resident partitions are
ignored, and not read (R173).  Chapter 06 names no outcome for an IMM32 other than 0, which the model takes as DESC_INVALID, and none for
a BUF_ADDR that is not 8-byte aligned, which it uses as it is (DESIGN CHOICE, log entry 13). -/
def huStart (u : UCtx) (c : Nat) (cmd : UnitCmd) : UM HuCfg := do
  uCheck (decide (cmd.arg.toNat < 16) && cmd.imm == 0) 0x0201
  let b ← uDesc u cmd.desc.toNat 128 0x0201
  uCheck (huDescOk cmd.cmd b) 0x0201
  let d := HuD.ofBytes b
  let shuf ← (if d.shuffle then do
      let sb ← uRead u d.shufAddr 48
      uCheck (shufOk sb) 0x0201
      let s ← getThe State
      uCheck (s.inChain || decide (fld sb 0 1 ≤ 1)) 0x0201
      return some (ShufD.ofBytes sb)
    else return none : UM (Option ShufD))
  let sp ← (if d.spill then (List.range (2 ^ d.radix)).mapM (fun i =>
      if d.resLo ≤ i ∧ i ≤ d.resHi then return zeros 16 else uRead u (d.spillAddr + 16 * i) 16) else return [] : UM (List (List Byte)))
  if d.out ≠ 0 then uProbeW u d.out
  huBind u c cmd.arg.toNat cmd.cmd d
  return { u := u, cl := c, cmd := cmd.cmd, num := cmd.arg.toNat, d := d,
           spill := sp.map (fun e => (fld e 0 8, fld e 8 4)), shuf := shuf, limit := none, js := .clean, jsAt := 0 }

def HuCfg.table (c : HuCfg) (s : State) : HuTable :=
  ((s.cl c.cl).table? c.u.part c.num).getD
    { part := 0, num := 0, agg := false, base := 0, granules := 1, seed := 0, kw := 1, pw := 0, classes := [], nullable := false,
      accs := [], legScope := none, poisoned := false }

/-- R185: the join store's check where the command meets a word in error. -/
def huEcc (c : HuCfg) (here : Bool) : UM Unit :=
  if here then
    match c.js with
    | .clean => pure ()
    | .corrected => uModify (fun s => s.log 0x0401 c.cl c.u.part 0)
    | .uncorrectable => do
      uModify (fun s =>
        let s1 := s.log 0x0402 c.cl c.u.part 0
        s1.setCl c.cl ((s1.cl c.cl).putTable { c.table s1 with poisoned := true }))
      uFail 0x020E
  else pure ()

/-- R179–R181: one accumulator updated; the flag says that it overflowed. -/
def accUpdate (a : AccSpec) (seen : Bool) (nullsOff : Nat) (rc : List Byte) (old : List Word) : List Word × Bool :=
  let n := recSize a.typ
  let v := fld rc a.off n
  let sv := toSigned v (8 * n)
  let o := old.headD 0
  let fv := if a.typ = 9 then f32to64 v else v
  if a.kind = 1 then ([o + 1], false)
  else if fieldNull { off := a.off, ty := a.typ, nb := a.nullBit } nullsOff rc then (old, false)
  else
    match a.kind with
    | 2 => ([o + 1], false)
    | 3 =>
      let r := o.toInt + sv
      ([BitVec.ofInt 64 r], decide (r < -(2 ^ 63 : Int) ∨ (2 ^ 63 : Int) ≤ r))
    | 4 => ([BitVec.ofNat 64 (o.toNat + v)], decide (2 ^ 64 ≤ o.toNat + v))
    | 5 => ([BitVec.ofNat 64 (fAdd true o.toNat fv)], false)
    | 6 =>
      let x := toSigned (o.toNat + (old.getD 1 0).toNat * 2 ^ 64) 128
      let r := x + sv
      let lim : Int := 10 ^ 38 - 1
      let w := (r % (2 : Int) ^ 128).toNat
      ([BitVec.ofNat 64 w, BitVec.ofNat 64 (w / 2 ^ 64)], decide (lim < sv ∨ sv < -lim ∨ lim < r ∨ r < -lim))
    | 7 => ([if sv < o.toInt then BitVec.ofInt 64 sv else o], false)
    | 8 => ([if o.toInt < sv then BitVec.ofInt 64 sv else o], false)
    | 9 => ([if v < o.toNat then BitVec.ofNat 64 v else o], false)
    | 10 => ([if o.toNat < v then BitVec.ofNat 64 v else o], false)
    | 11 => ([BitVec.ofNat 64 (fMinMax true false o.toNat fv)], false)
    | 12 => ([BitVec.ofNat 64 (fMinMax true true o.toNat fv)], false)
    | _ => ([if seen then o else BitVec.ofNat 64 v], false)

def accInit (a : AccSpec) : List Word :=
  match a.kind with
  | 6 => [0, 0]
  | 7 => [0x7FFFFFFFFFFFFFFF]
  | 8 => [0x8000000000000000]
  | 9 => [0xFFFFFFFFFFFFFFFF]
  | 11 => [0x7FF0000000000000]
  | 12 => [0xFFF0000000000000]
  | _ => [0]

/-- Updates every accumulator of the entry at store word `w`; answers how many overflowed. -/
def huAccs (t : HuTable) (nullsOff : Nat) (rc : List Byte) : List AccSpec → Nat → Nat → Cluster → Nat × Cluster
  | [], _, n, k => (n, k)
  | a :: rest, w, n, k =>
    let (ws, o) := accUpdate a (k.firsts.contains w) nullsOff rc (k.words w (accWords a))
    let took := a.kind = 13 && !fieldNull { off := a.off, ty := a.typ, nb := a.nullBit } nullsOff rc && !k.firsts.contains w
    let k1 := k.jsPutAll w ws
    huAccs t nullsOff rc rest (w + accWords a) (n + b2n o) (if took then { k1 with firsts := w :: k1.firsts } else k1)

/-- R176: BUILD of a resident record. -/
def huBuildRow (c : HuCfg) (key : List Word) (rc : List Byte) (st : HuSt) : UM HuSt := do
  let s ← getThe State
  let t := c.table s
  let h := ch64 key c.d.seed
  let pay := (List.range t.pw).map (fun j => BitVec.ofNat 64 (fld rc (c.d.payOff + 8 * j) 8))
  let (r, x, k1) := huInsert t h (key ++ pay) 64 0 (s.cl c.cl)
  uModify (fun s => s.setCl c.cl k1)
  uCheck r.isSome 0x0208
  return { st with res := st.res + 1, table := st.table + 1, extra := st.extra + x }

/-- R179: AGGREGATE of a resident record. -/
def huAggRow (c : HuCfg) (key : List Word) (rc : List Byte) (st : HuSt) : UM HuSt := do
  let s ← getThe State
  let t := c.table s
  let h := ch64 key c.d.seed
  let (ms, x) := huLookup t h key (s.cl c.cl) 64 0 []
  let upd := fun (k : Cluster) (slot : Nat) =>
    let (n, k1) := huAccs t c.d.nullsOff rc t.accs (slot + t.kw) 0 k
    let hw := slot / 8 * 8
    let i := (slot - hw - 1) / t.e
    (n, if n = 0 then k1 else k1.jsPut hw (k1.jsGet hw ||| 1#64 <<< (8 * i + 7)))
  match ms with
  | (w, i) :: _ =>
    let (n, k1) := upd (s.cl c.cl) (w + 1 + i * t.e)
    uModify (fun s => s.setCl c.cl k1)
    return { st with table := st.table + 1, extra := st.extra + x, overs := st.overs + n }
  | [] =>
    let (r, y, k1) := huInsert t h (key ++ (t.accs.map accInit).flatten) 64 0 (s.cl c.cl)
    match r with
    | none => do
      uModify (fun s => s.setCl c.cl k1)
      uFail 0x0208
    | some slot =>
      let (n, k2) := upd k1 slot
      uModify (fun s => s.setCl c.cl k2)
      return { st with res := st.res + 1, table := st.table + 1, extra := st.extra + x + y, overs := st.overs + n }

/-- R177: one output record. -/
def probeRec (row flags : Nat) (pay : List Word) : List Byte :=
  leBytes 4 row ++ leBytes 4 flags ++ (pay.map (fun w => leBytes 8 w.toNat)).flatten

/-- R178: the output of one input record, wholly or not at all. -/
def huEmit (c : HuCfg) (recs : List (List Byte)) (st : HuSt) : UM HuSt := do
  let bs := recs.flatten
  uCheck (decide (16 + st.out + bs.length ≤ c.d.cap)) 0x020A
  uWriteWhole c.u (c.d.out + 16 + st.out) bs
  return { st with out := st.out + bs.length, res := st.res + recs.length }

/-- Payload words of an unmatched row.  A PROBE that uses no table has no PW: the model writes none (DESIGN CHOICE, log entry 13). -/
def HuCfg.blank (c : HuCfg) (s : State) : List Word :=
  if c.d.kind = 1 then List.replicate (if c.d.noTable then 0 else (c.table s).pw) 0 else []

def huProbeNull (c : HuCfg) (row : Nat) (st : HuSt) : UM HuSt := do
  let s ← getThe State
  if c.d.kind = 1 ∨ c.d.kind = 3 then huEmit c [probeRec row 2 (c.blank s)] st else return st

/-- R177: PROBE of a resident record. -/
def huProbeRow (c : HuCfg) (row : Nat) (key : List Word) (st : HuSt) : UM HuSt := do
  let s ← getThe State
  let t := c.table s
  let k := s.cl c.cl
  let (ms, x) := huLookup t (ch64 key c.d.seed) key k 64 0 []
  let full := ms.map (fun m => probeRec row 1 (k.words (m.1 + 1 + m.2 * t.e + t.kw) t.pw))
  let recs :=
    match c.d.kind with
    | 0 => full
    | 1 => if ms.isEmpty then [probeRec row 0 (c.blank s)] else full
    | 2 => if ms.isEmpty then [] else [probeRec row 1 []]
    | _ => if ms.isEmpty then [probeRec row 0 []] else []
  let st1 ← huEmit c recs st
  if c.d.mark then
    uModify (fun s => s.setCl c.cl (ms.foldl (fun k m => k.jsPut m.1 (k.jsGet m.1 ||| 1#64 <<< (8 * m.2 + 7))) (s.cl c.cl)))
  return { st1 with table := st.table + 1, extra := st.extra + x }

/-- R173: a record appended to its spill buffer. -/
def huSpill (c : HuCfg) (p : Nat) (rc : List Byte) (st : HuSt) : UM HuSt := do
  let (addr, cap) := c.spill.getD p (0, 0)
  let f := tgetD st.fills p 0
  uCheck (decide (f + rc.length ≤ cap)) 0x0209
  uWriteWhole c.u (addr + f) rc
  return { st with fills := tput st.fills p (f + rc.length), spilled := st.spilled + 1 }

/-- R396, R406: a record joins the last message when it follows on and fits. -/
def huSend (unit row : Nat) (rc : List Byte) (st : HuSt) : HuSt :=
  let st1 := { st with shuffled := st.shuffled + 1 }
  match st.msgs with
  | m :: t =>
    if m.unit = unit ∧ m.first + m.recs.length = row ∧ 16 + (m.recs.length + 1) * rc.length ≤ 4064 then
      { st1 with msgs := { m with recs := m.recs ++ [rc] } :: t }
    else { st1 with msgs := { unit := unit, first := row, recs := [rc] } :: st.msgs }
  | [] => { st1 with msgs := [{ unit := unit, first := row, recs := [rc] }] }

/-- R172: one record of the range. -/
def huRow (c : HuCfg) (row : Nat) (st : HuSt) : UM HuSt := do
  match c.limit with
  | some (k, code) => if row = k then uFail code else pure ()
  | none => pure ()
  let rc ← uRead c.u (c.d.inAddr + row * c.d.recB) c.d.recB
  let s ← getThe State
  let null := c.d.keys.any (fun f => fieldNull f c.d.nullsOff rc)
  if c.cmd ≠ cAGG ∧ null then
    let st1 ← (if c.cmd = cPROBE then huProbeNull c row st else return st : UM HuSt)
    return { st1 with nulls := st.nulls + 1 }
  else
    let mask := if c.cmd = cPROBE then !c.d.noTable && (c.table s).nullable else c.cmd == cAGG && c.d.nullable
    let key := rowKey c.d.keys c.d.nullsOff mask rc
    let h := ch64 key c.d.seed
    let away := match c.shuf with
      | some f => if chUnit h f.units = f.self then none else some (chUnit h f.units)
      | none => none
    match away with
    | some u => return huSend u row rc st
    | none =>
      let p := chPart h c.d.radix
      if c.d.resLo ≤ p ∧ p ≤ c.d.resHi then
        let here := !st.met && decide (c.jsAt ≤ row - c.d.rowStart)
        huEcc c here
        let st0 := { st with met := st.met || here }
        if c.cmd = cBUILD then huBuildRow c key rc st0
        else if c.cmd = cPROBE then huProbeRow c row key st0
        else huAggRow c key rc st0
      else huSpill c p rc st

def huLoop (c : HuCfg) : Nat → Nat → HuSt → State → (HuSt × Nat × Option UErr) × State
  | 0, row, st, s => ((st, row, none), s)
  | f + 1, row, st, s =>
    match uRun (huRow c row st) s with
    | (.error e, s1) => ((st, row, some e), s1)
    | (.ok st1, s1) => huLoop c f (row + 1) st1 s1

def outHeader (seen sel next : Nat) (complete : Bool) : List Byte :=
  leBytes 4 seen ++ leBytes 4 sel ++ leBytes 4 next ++ leBytes 4 (b2n complete)

/-- R182: FLUSH from cursor `cur` on; answers records written, the next cursor and an error.  The check of the join store's words is
tried at every cursor, whose header it reads (R185). -/
def huFlushLoop (c : HuCfg) (t : HuTable) : Nat → Nat → Nat → State → (Nat × Nat × Option UErr) × State
  | 0, cur, n, s => ((n, cur, none), s)
  | f + 1, cur, n, s =>
    if t.nb * 8 ≤ cur then ((n, cur, none), s)
    else
      let k := s.cl c.cl
      let w := t.word (cur / 8)
      let i := cur % 8
      let hd := k.jsGet w
      let want := match c.d.select with | 0 => true | 1 => !bkMark hd i | _ => bkMark hd i
      match uRun (huEcc c (cur - c.d.rowStart == c.jsAt)) s with
      | (.error e, s1) => ((n, cur, some e), s1)
      | (.ok _, s) =>
      if decide (i < bkCount hd) && want then
        let rc := leBytes 4 (b2n (bkMark hd i)) ++ zeros 4 ++ ((k.words (w + 1 + i * t.e) t.e).map (fun x => leBytes 8 x.toNat)).flatten
        let work : UM Unit := do
          uCheck (decide (16 + (n + 1) * rc.length ≤ c.d.cap)) 0x020A
          uWriteWhole c.u (c.d.out + 16 + n * rc.length) rc
        match uRun work s with
        | (.error e, s1) => ((n, cur, some e), s1)
        | (.ok _, s1) => huFlushLoop c t f (cur + 1) (n + 1) s1
      else huFlushLoop c t f (cur + 1) n s

/-- FLUSH once it has passed its start checks: its status code and result. -/
def huFlush (c : HuCfg) (s : State) : Nat × Nat × State :=
  let t := c.table s
  let drop := fun (x : State) => x.setCl c.cl ((x.cl c.cl).dropTable c.u.part c.num)
  if c.d.out = 0 then (0, 0, drop s)
  else
    match huFlushLoop c t (t.nb * 8) c.d.rowStart 0 s with
    | ((n, cur, e), s1) =>
      let nxt := if e.isNone then t.nb * 8 else cur
      let (hr, s2) := uRun (uWrite c.u c.d.out (outHeader (nxt - c.d.rowStart) n nxt e.isNone)) s1
      let code := match e, hr with
        | some x, _ => x.status 0x020D 0x020E
        | none, .error x => x.status 0x020D 0x020E
        | none, .ok _ => 0
      (code, n, if c.d.release && code == 0 then drop s2 else s2)

def huSt0 : HuSt :=
  { fills := [], out := 0, res := 0, table := 0, spilled := 0, shuffled := 0, nulls := 0, overs := 0, extra := 0, msgs := [] }

def u32s (v : Nat) : List Byte := leBytes 4 (min v 0xFFFFFFFF)

/-- A row command once it has passed its start checks.  What it writes at its end is written piece by piece, whatever becomes of the
others: every FILL_BYTES that has moved (R173), the statistics (R189), and a PROBE's header, with COMPLETE = 1 when nothing has failed
(R188).  ROWS_READ counts the records before the one at which the command stops (DESIGN CHOICE, log entry 13). -/
def huRows (c : HuCfg) (s : State) : Nat × Nat × Nat × List ShufMsg × State :=
  let d := c.d
  if d.rowCount = 0 then (0, 0, 0, [], s)
  else
    let read := fun (i : Nat) (x : State) => (uRun (uReadNat c.u (d.spillAddr + 16 * i + 12) 4) x)
    let (fills, s0) := ((List.range c.spill.length).filter (fun i => !decide (d.resLo ≤ i ∧ i ≤ d.resHi))).foldl (fun (acc : Table Nat × State) i =>
      match read i acc.2 with
      | (.ok v, x) => (tput acc.1 i v, x)
      | (.error _, x) => (acc.1, x)) ([], s)
    match huLoop c d.rowCount d.rowStart { huSt0 with fills := fills } s0 with
    | ((st, row, e), s1) =>
      let moved := (List.range c.spill.length).filter (fun i => tgetD st.fills i 0 ≠ tgetD fills i 0)
      let stats := u32s (row - d.rowStart) ++ u32s st.table ++ u32s st.spilled ++ u32s st.shuffled ++ u32s st.nulls
        ++ u32s st.res ++ u32s st.overs ++ u32s st.extra
      let (w, s2) := uRunAll (moved.map (fun i => uWrite c.u (d.spillAddr + 16 * i + 12) (leBytes 4 (tgetD st.fills i 0)))
        ++ (if d.stats ≠ 0 then [uWrite c.u d.stats stats] else [])) s1
      let (h, s3) := uRunAll (if c.cmd = cPROBE then
        [uWrite c.u d.out (outHeader (row - d.rowStart) st.res row (e.or w).isNone)] else []) s2
      let code := match (e.or w).or h with
        | some x => x.status 0x020D 0x020E
        | none => 0
      (code, st.res, row - d.rowStart, st.msgs.reverse, s3)

def huCtx (c : Nat) (cmd : UnitCmd) : UCtx := { agent := 2, sel := .cluster c, part := cmd.part, leg := cmd.leg }

/-- The whole command: code, result, records treated, messages and the state. -/
def huRun (c : Nat) (cmd : UnitCmd) (limit : Option (Nat × Nat)) (js : Ecc) (at' : Nat) (s : State) :
    Nat × Nat × Nat × List ShufMsg × Option HuCfg × State :=
  match uRun (huStart (huCtx c cmd) c cmd) s with
  | (.error e, s1) => (e.status 0x020D 0x020E, 0, 0, [], none, s1)
  | (.ok cfg, s1) =>
    let cfg1 := { cfg with limit := limit, js := js, jsAt := at' }
    if cmd.cmd = cFLUSH then
      let (code, n, s2) := huFlush cfg1 s1
      (code, n, 0, [], some cfg1, s2)
    else
      let (code, n, rows, ms, s2) := huRows cfg1 s1
      (code, n, rows, ms, some cfg1, s2)

/-! ### Sending and waiting (R175, R406) -/

/-- STREAM: the sending cluster and ticket slot. -/
def streamOf (c : Nat) (cmd : UnitCmd) : BitVec 32 := BitVec.ofNat 32 (c + cmd.slot * 256)

/-- The first message of the running command that starts at or after record `from'` is sent, and its acknowledgement awaited.
The command is run on a copy of the state to find it: a command that stops earlier sends no more.  What it has read of host
memory is kept for its end (log entry 9).  A unit that is no member of the
chain gets nothing: the command stops there with CHAIN_LOST (R175, R403; DESIGN CHOICE, log entry 29). -/
def State.shuffleNext (s : State) (c from' : Nat) : State :=
  match (s.cl c).hu.running with
  | none => s
  | some cmd =>
    let (js, k) := (s.cl c).huFault.getD (.clean, 0)
    let (cfg, s1) := uRun (huStart (huCtx c cmd) c cmd) s
    let shuf := match cfg with | .ok x => x.shuf | .error _ => none
    let (_, _, _, ms, _, s2) := if shuf.isSome then huRun c cmd none js k s else (0, 0, 0, [], none, s1)
    if s2.hostMiss.isSome then { s with hostMiss := s2.hostMiss }
    else
      match cfg, shuf, ms.find? (fun m => decide (from' ≤ m.first)) with
      | .ok cfg, some f, some m =>
        let (addr, inbox) := f.dest.getD m.unit (0, 0)
        if !s.chain.members.getLsbD addr then
          { s with chain := { s.chain with shuffleEnd := s.chain.shuffleEnd ++ [(streamOf c cmd, m.first, 0x020C)] } }
        else
        let body := leBytes 2 cmd.part ++ leBytes 1 inbox ++ leBytes 1 (cfg.d.recB / 8) ++ leBytes 4 (streamOf c cmd).toNat
          ++ leBytes 4 m.first ++ leBytes 2 m.recs.length ++ zeros 2 ++ m.recs.flatten
        let w : ShuffleWait := { cluster := c, stream := streamOf c cmd, unit := addr, first := m.first, count := m.recs.length }
        let sent := m.first + m.recs.length
        let hu := (s.cl c).hu
        let s1 := s.setCl c { s.cl c with huSent := sent, hu := { hu with done := max hu.done (min hu.limit (sent - cfg.d.rowStart)) } }
        State.sendMsg { s1 with chain := { s1.chain with shuffles := s1.chain.shuffles ++ [w] } } 4 addr body
      | _, _, _ => s

/-- R190: ROWS_DONE of a row command goes no further than ROW_COUNT; a FLUSH treats no record. -/
def huBound (c : Nat) (cmd : UnitCmd) (s : State) : Nat × State :=
  s.peekDesc (huCtx c cmd) cmd.desc.toNat 128 (fun b => if cmd.cmd ≠ cFLUSH && huDescOk cmd.cmd b then (HuD.ofBytes b).rowCount else 0)

/-- HU_COMMAND_START: the HU takes its oldest command; one that shuffles sends its first records. -/
def doHuStart (c : Nat) (s : State) : State :=
  if s.unitsOn c && (s.cl c).hu.running.isNone && !(s.cl c).hu.queue.isEmpty then
    let (q, s1) := s.startUnit (s.cl c).hu (huBound c)
    State.shuffleNext (s1.setCl c { s1.cl c with hu := q, huSent := 0, huFault := none }) c 0
  else s

/-- R185: where the running command meets the join store error that HU_COMMAND_DONE brings: at record `k` of its range, or at the first
that it has not gone past; an error that it has kept comes first (DESIGN CHOICE, log entry 31). -/
def Cluster.huMeets (k : Cluster) (cmd : UnitCmd) (start : Nat) (js : Ecc) (at' : Nat) : Ecc × Nat :=
  match k.huFault with
  | some x => x
  | none => (js, if cmd.cmd = cFLUSH then at' else max at' (k.huSent - start))

/-- The first record of the running command's range. -/
def State.huFirst (s : State) (c : Nat) (cmd : UnitCmd) : Nat :=
  match uRun (huStart (huCtx c cmd) c cmd) s with
  | (.ok cfg, _) => cfg.d.rowStart
  | _ => 0

/-- HU_COMMAND_DONE: once no acknowledgement is awaited, the command's effects and its status (R188).  While one is awaited, a corrected
error of the join store that the row brings is logged, and an uncorrectable one is kept: the command goes no further than its record
(R185). -/
def doHuDone (c : Nat) (js : Ecc) (k : Nat) (s : State) : State :=
  if s.unitsOn c then
    match (s.cl c).hu.running with
    | none => s
    | some cmd =>
      let st := streamOf c cmd
      let met := (s.cl c).huMeets cmd (s.huFirst c cmd) js k
      if s.chain.shuffles.any (fun w => w.stream == st) then
        (match js with
         | .clean => s
         | .corrected => s.log 0x0401 c cmd.part 0
         | .uncorrectable => s.setCl c { s.cl c with huFault := some met })
      else
        let limit := (s.chain.shuffleEnd.find? (fun e => e.1 == st)).map (·.2)
        let s0 := { s with chain := { s.chain with shuffleEnd := s.chain.shuffleEnd.filter (fun e => e.1 != st) } }
        let (code, res, rows, _, _, s1) := huRun c cmd limit met.1 met.2 s0
        let kc := s1.cl c
        let k2 := Cluster.huSweep { kc with hu := { kc.hu with running := none }, huRows := kc.huRows + rows, huSent := 0, huFault := none }
        (s1.setCl c k2).cmdEnd cmd (ticketCode code res)
  else s

def execHuCommandStart (c : Nat) (s : State) : Host.Outcome State Fault Refusal :=
  .next (s.settle [] (doHuStart c))
def execHuCommandDone (c : Nat) (js : Ecc) (k : Nat) (s : State) : Host.Outcome State Fault Refusal :=
  .next (s.settle (clReqs 2 c) (doHuDone c js k))

end Sys2Proof.Machine
end

