-- ==== Sys2Proof/Machine/Asa.lean ====
section
/-!
DEFINITION. The associative search array (08): sets, matching and confirmation, SEARCH, NEXT and UPDATE, fallback reads and
the scrub.
-/
namespace Sys2Proof.Machine

open Sys2Proof

/-! ### Banks and sets (R207–R209) -/

/-- A set: its first bank, SET_LOG2, W, and owner. -/
structure AsaGroup where
  first : Nat
  log2 : Nat
  w : Nat
  part : Nat
  deriving DecidableEq, Repr

def AsaGroup.epb (g : AsaGroup) : Nat := 8192 / g.w
def AsaGroup.size (g : AsaGroup) : Nat := 2 ^ g.log2 * g.epb
/-- The entry key (bank × 8192 + slot) of set index `i`. -/
def AsaGroup.key (g : AsaGroup) (i : Nat) : Nat := (g.first + i / g.epb) * 8192 + i % g.epb
/-- The set index of entry key `k`. -/
def AsaGroup.index (g : AsaGroup) (k : Nat) : Nat := (k / 8192 - g.first) * g.epb + k % 8192
def AsaGroup.has (g : AsaGroup) (k : Nat) : Bool :=
  decide (g.first ≤ k / 8192 ∧ k / 8192 < g.first + 2 ^ g.log2 ∧ k % 8192 < g.epb)

/-- Bank `x` is owned, and the set that its word would form breaks R208. -/
def asaBreaks (cfg : Table (BitVec 32)) (x : Nat) : Bool :=
  let e := (tgetD cfg x 0).toNat % 32768
  let lg := bits e 14 12
  bit e 9 && (decide (5 < lg)
    || !(List.range (2 ^ lg)).all (fun i => (tgetD cfg (alignDown x (2 ^ lg) + i) 0).toNat % 32768 == e))

/-- Bank `b` lies in a would-be set that breaks R208: it acts as unowned (R208, R210). -/
def asaBroken (cfg : Table (BitVec 32)) (b : Nat) : Bool :=
  (List.range 32).any (fun x =>
    let n := 2 ^ bits ((tgetD cfg x 0).toNat % 32768) 14 12
    asaBreaks cfg x && alignDown x n == alignDown b n)

/-- The set that bank `b` belongs to; none when the bank is unowned or acts as unowned (ASA.BANK_CFG). -/
def asaGroup (cfg : Table (BitVec 32)) (b : Nat) : Option AsaGroup :=
  let e := (tgetD cfg b 0).toNat % 32768
  let lg := bits e 14 12
  if b < 32 ∧ bit e 9 ∧ bits e 11 10 ≠ 3 ∧ asaBroken cfg b = false then
    some { first := alignDown b (2 ^ lg), log2 := lg, w := 2 ^ bits e 11 10, part := bits e 8 0 }
  else none

/-- R82: the ticket value of a command. -/
def ticketName (slot unit gen : Nat) : Word := BitVec.ofNat 64 (slot + unit * 256 + gen * 65536)

/-- The name that a cursor of the command would have: the ticket value that it returned (R216); none once its leg is closed. -/
def State.cursorName (s : State) (cmd : UnitCmd) : Option Word :=
  match s.leg? cmd.leg with
  | some l => (match l.place with
    | .closed _ => none
    | _ => (tget? l.tickets cmd.slot).map (fun t => ticketName cmd.slot 5 t.gen))
  | none => none

/-- The set whose queues hold the SEARCH that is to make the cursor `arg` of `leg`. -/
def State.cursorToBe (s : State) (leg : Nat) (arg : Word) : Option Nat :=
  (s.asaSets.find? (fun e => e.2.cmds.any (fun u => u.cmd == 1 && u.leg == leg && s.cursorName u == some arg))).map (·.1)

/-- The queues a command of `leg` joins: its set's, by the set's first bank, which for a NEXT is the set of its cursor or of the
SEARCH that is to make it; for a bank without a set, that bank's own, and bank 0's when no bank or cursor is named (log entry 18). -/
def State.asaQueueOf (s : State) (leg cmd : Nat) (arg : Word) : Nat :=
  if cmd = 2 then
    match s.cursors.find? (fun k => k.leg == leg && k.name == arg) with
    | some k => k.first
    | none => (s.cursorToBe leg arg).getD 0
  else if arg.toNat < 32 then
    match asaGroup s.asaCfg arg.toNat with
    | some g => g.first
    | none => arg.toNat
  else 0

/-! ### Matching (R211–R213) -/

def AsaImg.matches (m : AsaImg) (k : BitVec 256) : Bool := (k ^^^ m.value) &&& m.mask == 0

def asaKey (bs : List Byte) : BitVec 256 := BitVec.ofNat 256 (leNat bs)

def AsaEntry.empty : AsaEntry :=
  let z : AsaImg := { prio := 0, result := 0, value := 0, mask := 0 }
  { valid := false, quarantined := false, arr := z, ecc := z, eccState := .clean, canon0 := none, canon1 := none, sel := false,
    fbs := [] }

def AsaEntry.canon (e : AsaEntry) (r : Bool) : Option AsaImg := if r then e.canon1 else e.canon0

/-- Order of R213 as one number. -/
def asaRank (prio index : Nat) : Nat := prio * 2 ^ 20 + index

/-- Candidates that the array proposes, in the order of R213: rank, entry key and entry. -/
def State.asaProposals (s : State) (g : AsaGroup) (k : BitVec 256) (after : Option Nat) : List (Nat × Nat × AsaEntry) :=
  let c := (s.asa.filter (fun e => g.has e.1 && e.2.valid && !e.2.quarantined && e.2.arr.matches k)).map
    (fun e => (asaRank e.2.arr.prio (g.index e.1), e.1, e.2))
  sortBy (fun x => x.1) (match after with | some a => c.filter (fun x => a < x.1) | none => c)

/-! ### Confirmation (R223) -/

def State.asaCount (s : State) (i : Nat) : State :=
  { s with asaErr := (List.range 4).map (fun j => let v := s.asaErr.getD j 0; if j = i then satInc v 0xFFFF else v) }

def State.asaLog (s : State) (code key : Nat) (part : Nat) : State :=
  s.log code (key / 8192) part (BitVec.ofNat 64 (key % 8192 * 2 ^ 48))

def State.asaPut (s : State) (key : Nat) (e : AsaEntry) : State := { s with asa := tput s.asa key e }

/-- A hit that its copy does not confirm: logged, and the array refreshed from the current canonical record. -/
def State.asaFalse (s : State) (key part : Nat) : State :=
  let e := tgetD s.asa key .empty
  let s1 := (s.asaCount 0).asaLog 0x0505 key part
  s1.asaPut key (match e.canon e.sel with | some m => { e with arr := m } | none => { e with valid := false })

/-- What one look for a match comes to. -/
inductive AsaAns where
  | hit (key : Nat) (m : AsaImg) (fallback : Bool)
  | miss
  | wait
  deriving DecidableEq, Repr

/-- An uncorrectable ECC copy is logged, and a fallback read of the entry's canonical record `r` starts, or one that is outstanding
serves here too. -/
def State.asaFallback (s : State) (key : Nat) (r : Bool) (part : Nat) : State :=
  let e := tgetD s.asa key .empty
  ((s.asaCount 2).asaLog 0x0503 key part).asaPut key { e with fbs := if e.fbs.contains r then e.fbs else e.fbs ++ [r] }

/-- What a search waits for: the candidate, and the proposals of its cycle behind it. -/
abbrev AsaWait := (Nat × AsaEntry) × List (Nat × Nat × AsaEntry)

/-- Goes through the proposals of one search cycle, with their copies as that cycle read them, until one is confirmed, none is
left, or a fallback read is needed. -/
def asaLook (g : AsaGroup) (k : BitVec 256) : List (Nat × Nat × AsaEntry) → List Nat → State → AsaAns × List Nat × Option AsaWait × State
  | [], disc, s => (.miss, disc, none, s)
  | (_, key, e) :: t, disc, s =>
    match e.eccState with
    | .uncorrectable => (.wait, disc, some ((key, e), t), s.asaFallback key e.sel g.part)
    | st =>
      let now := tgetD s.asa key .empty
      let s1 := if st = .corrected then
          ((s.asaCount 1).asaLog 0x0502 key g.part).asaPut key (if now.sel = e.sel then { now with eccState := .clean } else now)
        else s
      if e.ecc.matches k && e.ecc.prio == e.arr.prio then (.hit key e.ecc false, disc, none, s1)
      else asaLook g k t (disc ++ [key]) (s1.asaFalse key g.part)

/-- The current key's search.  After a fallback read it goes on with the proposals of the cycle in which it was made: a commit in
between is seen by later keys alone (R221, R222). -/
def asaFind (g : AsaGroup) (k : BitVec 256) (after : Option Nat) (a : AsaSet) (s : State) :
    AsaAns × List Nat × Option AsaWait × State :=
  match a.sprop, a.sres with
  | some p, none => (.wait, a.sdisc, some (p, a.slist), s)
  | some _, some (key, some m) => (.hit key m true, a.sdisc, none, s)
  | some _, some (key, none) => asaLook g k a.slist (a.sdisc ++ [key]) s
  | none, _ => asaLook g k (s.asaProposals g k after) a.sdisc s

/-- The set's search waits, with what it has read so far. -/
def AsaSet.waitOn (a : AsaSet) (disc : List Nat) (w : Option AsaWait) : AsaSet :=
  { a with sdisc := disc, sprop := w.map (·.1), slist := (w.map (·.2)).getD [], sres := none }

/-- The set's search has ended its key or step. -/
def AsaSet.endKey (a : AsaSet) : AsaSet := { a with sdisc := [], sprop := none, slist := [], sres := none }

/-- The search waits for canonical record `r` of entry `key`. -/
def AsaSet.waitsFor (a : AsaSet) (key : Nat) (r : Bool) : Bool :=
  match a.sprop with
  | some p => p.1 == key && p.2.sel == r && a.sres.isNone
  | none => false

/-- The queues whose SEARCH or NEXT waits for that record: its set's own, and another's that works on the set (R217). -/
def State.asaWaiting (s : State) (key : Nat) (r : Bool) : List Nat :=
  (s.asaSets.filter (fun e => e.2.waitsFor key r)).map (·.1)

/-- The record that queue `q`'s search waited for has come, correct or not: the end of its confirmation (R223). -/
def State.asaConfirm (s : State) (key part : Nat) (c : Option AsaImg) (lost : Bool) (q : Nat) : State :=
  let a := s.asaSet q
  let kbits := asaKey ((a.sdesc.getD []).drop 64)
  let ok := match c, a.sprop with
    | some m, some (_, p) => !lost && m.matches kbits && m.prio == p.arr.prio
    | _, _ => false
  let s1 := if ok then s else if lost then s.asaCount 0 else (s.asaCount 0).asaLog 0x0505 key part
  s1.setAsaSet q { a with sres := some (key, if ok then c else none) }

/-- What a read of canonical record `r` makes of the entry: a refresh or rewrite is dropped when the entry has committed an UPDATE
since the read began (R224); the quarantine of R223 is not. -/
def AsaEntry.afterRead (e : AsaEntry) (r lost : Bool) : AsaEntry :=
  if lost then { e with quarantined := true }
  else if e.sel != r then e
  else
    match e.canon r with
    | some m => { e with arr := m, ecc := m, eccState := .clean }
    | none => { e with valid := false, eccState := .clean }

/-- ASA_FALLBACK_RETURN: the canonical record of the oldest read arrives (R223, R224). -/
def doAsaFallback (b slot : Nat) (ec : Ecc) (s : State) : State :=
  let key := b * 8192 + slot
  let e := tgetD s.asa key .empty
  match e.fbs with
  | [] => s
  | r :: more =>
    if s.frozen then s
    else
      let part := match asaGroup s.asaCfg b with | some g => g.part | none => noPart
      let lost := ec == .uncorrectable
      let s1 := if lost then (s.asaCount 3).asaLog 0x0504 key part else s
      let s2 := s1.asaPut key (AsaEntry.afterRead { e with fbs := more } r lost)
      (s2.asaWaiting key r).foldl (State.asaConfirm · key part (e.canon r) lost ·) s2

/-! ### SEARCH (R214, R215) -/

structure SearchD where
  cursor : Bool
  form : Nat
  stride : Nat
  count : Nat
  keyAddr : Nat
  out : Nat
  cap : Nat
  miss : Nat
  deriving DecidableEq, Repr

def SearchD.ofBytes (b : List Byte) : SearchD :=
  { cursor := bit (fld b 0 1) 0, form := fld b 1 1, stride := fld b 2 2, count := fld b 4 4, keyAddr := fld b 8 8,
    out := fld b 16 8, cap := fld b 24 4, miss := fld b 28 4 }

def SearchD.each (d : SearchD) : Nat := if d.form = 0 then 16 else 4

def searchOk (b : List Byte) : Bool :=
  let d := SearchD.ofBytes b
  decide (fld b 0 1 ≤ 1) && decide (d.form ≤ 1) && (!d.cursor || d.count == 1) && d.stride % 8 == 0 && decide (d.stride ≤ 4096)
  && decide (d.count ≤ 1048576) && d.keyAddr % 8 == 0 && d.out % 64 == 0 && zeroAt b 32 32

/-- R214: the set's checks. -/
def asaBank (s : State) (part : Nat) (arg : Word) : Except Nat AsaGroup :=
  if 31 < arg.toNat then .error 0x0601
  else
    match asaGroup s.asaCfg arg.toNat with
    | none => .error 0x0602
    | some g => if g.part ≠ part then .error 0x0602 else if g.first ≠ arg.toNat then .error 0x0603 else .ok g

def uBank (part : Nat) (arg : Word) : UM AsaGroup := do
  let s ← getThe State
  match asaBank s part arg with
  | .ok g => pure g
  | .error c => uFail c

def searchStart (u : UCtx) (cmd : UnitCmd) : UM (List Byte) := do
  uCheck (cmd.imm == 0 && decide (cmd.arg.toNat < 32)) 0x0601
  let b ← uDesc u cmd.desc.toNat 64 0x0601
  uCheck (searchOk b) 0x0601
  let d := SearchD.ofBytes b
  let g ← uBank u.part cmd.arg
  uCheck (d.stride == 0 || decide (g.w * 8 ≤ d.stride)) 0x0601
  uCheck (decide (16 + d.count * d.each ≤ d.cap)) 0x0604
  if d.count ≠ 0 then uProbeW u d.out
  return b

/-- The record of R215. -/
def asaRec (index prio flags result : Nat) : List Byte :=
  leBytes 4 index ++ leBytes 2 prio ++ leBytes 2 flags ++ leBytes 4 result ++ zeros 4

/-- R216: keeps a cursor; the flag says that none could be kept. -/
def State.keepCursor (s : State) (k : AsaCursor) : Bool × State :=
  let mine := s.cursors.filter (fun c => c.leg == k.leg)
  if 4 ≤ mine.length then
    let old := (sortBy (fun (c : AsaCursor) => c.order) mine).headD k
    (false, { s with cursors := s.cursors.filter (· ≠ old) ++ [{ k with order := s.order }], order := s.order + 1 })
  else if s.cursors.length < 1024 then
    (false, { s with cursors := s.cursors ++ [{ k with order := s.order }], order := s.order + 1 })
  else (true, s)

/-- How far a SEARCH or NEXT has come. -/
inductive AsaRun where
  | wait
  | ended (code : Nat)
  deriving DecidableEq, Repr

/-- Saves the running command's key behind its descriptor, where a fallback return finds it. -/
def AsaSet.withKey (a : AsaSet) (k : List Byte) : AsaSet := { a with sdesc := a.sdesc.map (fun b => b.take 64 ++ k) }

/-- Keys from `sidx` on. -/
def searchLoop (u : UCtx) (cmd : UnitCmd) (g : AsaGroup) (d : SearchD) : Nat → AsaSet → State → AsaRun × AsaSet × State
  | 0, a, s => (.ended 0, a, s)
  | f + 1, a, s =>
    let stride := if d.stride = 0 then g.w * 8 else d.stride
    let key := if a.sprop.isSome then (.ok ((a.sdesc.getD []).drop 64), s) else uRun (uRead u (d.keyAddr + a.sidx * stride) (g.w * 8)) s
    match key with
    | (.error e, s1) => (.ended (e.status 0x0609 0x060A), a, s1)
    | (.ok kb, s1) =>
      match asaFind g (asaKey kb) none a s1 with
      | (.wait, disc, w, s2) => (.wait, (a.waitOn disc w).withKey kb, s2)
      | (ans, disc, _, s2) =>
        let fl := fun (h fb nc : Bool) => b2n h + 2 * b2n fb + 4 * b2n (!disc.isEmpty) + 8 * b2n nc
        let pos := match ans with | .hit key m _ => some (m.prio, g.index key) | _ => none
        let nc : AsaCursor := { leg := cmd.leg, name := 0, first := g.first, part := g.part, key := asaKey kb, pos := pos, order := 0 }
        let cur := match d.cursor, s2.cursorName cmd with
          | true, some name => s2.keepCursor { nc with name := name }
          | c, _ => (c, s2)
        let rc := match ans with
          | .hit key m fb => if d.form = 0 then asaRec (g.index key) m.prio (fl true fb cur.1) m.result else leBytes 4 m.result
          | _ => if d.form = 0 then asaRec 0xFFFFFFFF 0xFFFF (fl false false cur.1) 0 else leBytes 4 d.miss
        match uRun (uWrite u (d.out + 16 + a.sidx * d.each) rc) cur.2 with
        | (.error e, s3) => (.ended (e.status 0x0609 0x060A), a, { s3 with cursors := s2.cursors })
        | (.ok _, s3) =>
          searchLoop u cmd g d f { a.endKey with sidx := a.sidx + 1, ssel := a.ssel + b2n pos.isSome } s3

/-! ### NEXT (R217, R218) -/

structure NextD where
  count : Nat
  out : Nat
  cap : Nat
  deriving DecidableEq, Repr

def NextD.ofBytes (b : List Byte) : NextD := { count := fld b 4 4, out := fld b 16 8, cap := fld b 24 4 }

def nextStart (u : UCtx) (cmd : UnitCmd) : UM (List Byte) := do
  uCheck (cmd.imm == 0) 0x0601
  let b ← uDesc u cmd.desc.toNat 64 0x0601
  let d := NextD.ofBytes b
  uCheck (zeroAt b 0 4 && zeroAt b 8 8 && zeroAt b 28 36 && decide (d.count ≤ 256) && d.out % 64 == 0) 0x0601
  let s ← getThe State
  match s.cursors.find? (fun k => k.leg == cmd.leg && k.name == cmd.arg) with
  | none => uFail 0x0605
  | some k =>
    match asaGroup s.asaCfg k.first with
    | none => uFail 0x0602
    | some g =>
      uCheck (!k.stale && g.part == k.part && g.first == k.first && k.part == u.part) 0x0602
      uCheck (decide (16 + 16 * d.count ≤ d.cap)) 0x0604
      if d.count ≠ 0 then uProbeW u d.out
      return b

/-- Steps from `sidx` on; the search stops early when no match is left. -/
def nextLoop (u : UCtx) (cmd : UnitCmd) (g : AsaGroup) (d : NextD) : Nat → AsaSet → State → AsaRun × AsaSet × State
  | 0, a, s => (.ended 0, a, s)
  | f + 1, a, s =>
    match s.cursors.find? (fun k => k.leg == cmd.leg && k.name == cmd.arg) with
    | none => (.ended 0, a, s)
    | some k =>
      let after := k.pos.map (fun p => asaRank p.1 p.2)
      match asaFind g k.key after a s with
      | (.wait, disc, w, s2) =>
        (.wait, (a.waitOn disc w).withKey (leBytes 32 k.key.toNat), s2)
      | (.miss, disc, _, s2) => (.ended 0, { a.endKey with sdisc := disc }, s2)
      | (.hit key m fb, disc, _, s2) =>
        let rc := asaRec (g.index key) m.prio (1 + 2 * b2n fb + 4 * b2n (!disc.isEmpty)) m.result
        match uRun (uWrite u (d.out + 16 + 16 * a.sidx) rc) s2 with
        | (.error e, s3) => (.ended (e.status 0x0609 0x060A), a, s3)
        | (.ok _, s3) =>
          let k1 := { k with pos := some (m.prio, g.index key) }
          let s4 := { s3 with cursors := s3.cursors.map (fun c => if c = k then k1 else c) }
          nextLoop u cmd g d f { a.endKey with sidx := a.sidx + 1, ssel := a.ssel + 1 } s4

/-! ### UPDATE (R219–R221) -/

structure UpdD where
  op : Nat
  count : Nat
  img : Nat
  deriving DecidableEq, Repr

def UpdD.ofBytes (b : List Byte) : UpdD := { op := fld b 0 1, count := fld b 4 4, img := fld b 8 8 }

def updateStart (u : UCtx) (cmd : UnitCmd) : UM (List Byte) := do
  uCheck (cmd.imm == 0 && decide (cmd.arg.toNat < 32)) 0x0601
  let b ← uDesc u cmd.desc.toNat 64 0x0601
  let d := UpdD.ofBytes b
  uCheck (decide (d.op ≤ 2) && zeroAt b 1 3 && decide (d.count ≤ 65536) && d.img % 32 == 0 && zeroAt b 16 48) 0x0601
  let _ ← uBank u.part cmd.arg
  return b

/-- R211. -/
def imgOk (w : Nat) (b : List Byte) : Bool :=
  zeroAt b 6 2 && zeroAt b 12 20 && zeroAt b (32 + 8 * w) (32 - 8 * w) && zeroAt b (64 + 8 * w) (32 - 8 * w)
  && (asaKey ((b.drop 32).take 32) &&& ~~~ asaKey ((b.drop 64).take 32)) == 0

def AsaImg.ofBytes (b : List Byte) : AsaImg :=
  { prio := fld b 4 2, result := fld b 8 4, value := asaKey ((b.drop 32).take 32), mask := asaKey ((b.drop 64).take 32) }

/-- R221: an image commits: the canonical record that is not current, then array, attributes, ECC copy and selector. -/
def AsaEntry.commit (e : AsaEntry) (m : Option AsaImg) : AsaEntry :=
  let e1 := if e.sel then { e with canon0 := m } else { e with canon1 := m }
  match m with
  | some i => { e1 with valid := true, quarantined := false, arr := i, ecc := i, eccState := .clean, sel := !e.sel }
  | none => { e1 with valid := false, quarantined := false, eccState := .clean, sel := !e.sel }

/-- The entry's record that is not current is being read by a fallback: an UPDATE waits (R224). -/
def AsaEntry.held (e : AsaEntry) : Bool := e.fbs.contains (!e.sel)

/-- ASA_IMAGE_COMMIT: the next image of the running UPDATE commits, or stops the command. -/
def doAsaCommit (b : Nat) (s : State) : State :=
  let a := s.asaSet b
  match a.urun, a.udesc with
  | some cmd, some db =>
    let d := UpdD.ofBytes db
    if s.frozen || a.ustop.isSome || decide (d.count ≤ a.uidx) then s
    else
      match asaGroup s.asaCfg b with
      | none => s.setAsaSet b { a with ustop := some 0x0602 }
      | some g =>
        let u : UCtx := { agent := 6, sel := .io, part := cmd.part, leg := cmd.leg, chan := b }
        let va := d.img + 96 * a.uidx
        let stop := fun (t : State) (c : Nat) => t.setAsaSet b { a with ustop := some c }
        let put := fun (t : State) (i : Nat) (m : Option AsaImg) =>
          (t.asaPut (g.key i) ((tgetD t.asa (g.key i) .empty).commit m)).setAsaSet b { a with uidx := a.uidx + 1 }
        match uRun (uRead u va (if d.op = 2 then 4 else 96)) s with
        | (.error e, s1) => stop s1 (e.status 0x0609 0x060A)
        | (.ok im, s1) =>
          let idx := fld im 0 4
          if d.op = 1 then
            if !imgOk g.w im then stop s1 0x0606
            else
              match (List.range g.size).find? (fun i =>
                  let e := tgetD s1.asa (g.key i) .empty
                  !e.valid && !e.quarantined) with
              | none => stop s1 0x0608
              | some i =>
                if (tgetD s1.asa (g.key i) .empty).held then s
                else
                  match uRun (uWrite u va (leBytes 4 i)) s1 with
                  | (.error e, s2) => stop s2 (e.status 0x0609 0x060A)
                  | (.ok _, s2) => put s2 i (some (AsaImg.ofBytes im))
          else if d.op = 0 ∧ !imgOk g.w im then stop s1 0x0606
          else if g.size ≤ idx then stop s1 0x0607
          else
            let e := tgetD s1.asa (g.key idx) .empty
            if e.held then s
            else if d.op = 0 then put s1 idx (some (AsaImg.ofBytes im))
            else if e.valid || e.quarantined then put s1 idx none
            else s1.setAsaSet b { a with uidx := a.uidx + 1 }
  | _, _ => s

/-! ### Commands -/

def doAsaSearchStart (b : Nat) (s : State) : State :=
  let a := s.asaSet b
  match a.srun, a.sq with
  | none, c :: t =>
    if s.frozen then s
    else s.setAsaSet b { a.endKey with sq := t, srun := some c, sdesc := none, sidx := 0, ssel := 0 }
  | _, _ => s

/-- ASA_UPDATE_START: the set takes its oldest UPDATE and makes its start checks (R220). -/
def doAsaUpdateStart (b : Nat) (s : State) : State :=
  let a := s.asaSet b
  match a.urun, a.uq with
  | none, c :: t =>
    if s.frozen then s
    else
      let u : UCtx := { agent := 6, sel := .io, part := c.part, leg := c.leg, chan := b }
      let a1 : AsaSet := { a with uq := t, urun := some c, udesc := none, uidx := 0, ustop := none }
      match uRun (updateStart u c) s with
      | (.ok db, s1) => s1.setAsaSet b { a1 with udesc := some db }
      | (.error e, s1) => s1.setAsaSet b { a1 with ustop := some (e.status 0x0609 0x060A) }
  | _, _ => s

def AsaSet.freeS (a : AsaSet) : AsaSet := { a.endKey with srun := none, sdesc := none }

/-- The first bank of the set that a SEARCH or NEXT of bank `b`'s queue works on: for a NEXT, the set of its cursor (R217). -/
def State.asaOn (s : State) (b : Nat) (cmd : UnitCmd) : Nat :=
  if cmd.cmd = 2 then
    match s.cursors.find? (fun k => k.leg == cmd.leg && k.name == cmd.arg) with
    | some k => k.first
    | none => b
  else b

/-- A SEARCH or NEXT runs on the set whose first bank is `first`, from whichever queue (R217). -/
def State.asaSearching (s : State) (first : Nat) : Bool :=
  s.asaSets.any (fun e => match e.2.srun with | some c => s.asaOn e.1 c == first | none => false)

/-- A command is queued or running on the set of bank `b`. -/
def State.asaBusy (s : State) (b : Nat) : Bool :=
  let first := match asaGroup s.asaCfg b with | some g => g.first | none => b
  !(s.asaSet first).cmds.isEmpty || s.asaSets.any (fun e => e.2.cmds.any (fun c => c.cmd == 2 && s.asaOn e.1 c == first))

/-- The end of a SEARCH or NEXT, with the header of R152. -/
def searchEnd (u : UCtx) (cmd : UnitCmd) (b out code : Nat) (a : AsaSet) (s : State) : State :=
  let (r, s1) := uRun (uWrite u out (outHeader a.sidx a.ssel a.sidx (code == 0))) s
  let code1 := match r with | .error e => if code = 0 then e.status 0x0609 0x060A else code | .ok _ => code
  (s1.setAsaSet b a.freeS).cmdEnd cmd (ticketCode code1 a.ssel)

/-- A running SEARCH or NEXT goes on to its end, or waits for a fallback read. -/
def doSearchDone (b : Nat) (cmd : UnitCmd) (s : State) : State :=
  let u : UCtx := { agent := 6, sel := .io, part := cmd.part, leg := cmd.leg, chan := b }
  let a0 := s.asaSet b
  let begin' : Except UErr (List Byte) × State := match a0.sdesc with
    | some db => (.ok db, s)
    | none => uRun (if cmd.cmd = 1 then searchStart u cmd else nextStart u cmd) s
  match begin' with
  | (.error e, s1) => (s1.setAsaSet b (s1.asaSet b).freeS).cmdEnd cmd (ticketCode (e.status 0x0609 0x060A) 0)
  | (.ok db, s1) =>
    match asaGroup s1.asaCfg (s1.asaOn b cmd) with
    | none => (s1.setAsaSet b (s1.asaSet b).freeS).cmdEnd cmd (ticketCode 0x0602 0)
    | some g =>
      let a := { a0 with sdesc := some db }
      if cmd.cmd = 1 then
        let d := SearchD.ofBytes db
        if d.count = 0 then (s1.setAsaSet b a.freeS).cmdEnd cmd 0
        else
          match searchLoop u cmd g d (d.count - a.sidx) a s1 with
          | (.wait, a1, s2) => s2.setAsaSet b a1
          | (.ended code, a1, s2) => searchEnd u cmd b d.out code a1 s2
      else
        let d := NextD.ofBytes db
        if d.count = 0 then (s1.setAsaSet b a.freeS).cmdEnd cmd 0
        else
          match nextLoop u cmd g d (d.count - a.sidx) a s1 with
          | (.wait, a1, s2) => s2.setAsaSet b a1
          | (.ended code, a1, s2) => searchEnd u cmd b d.out code a1 s2

/-- ASA_COMMAND_DONE: of the set's SEARCH or NEXT, or of its UPDATE. -/
def doAsaDone (b : Nat) (update : Bool) (s : State) : State :=
  if s.frozen then s
  else
    let a := s.asaSet b
    if update then
      match a.urun with
      | none => s
      | some cmd =>
        let whole := match a.udesc with | some db => decide ((UpdD.ofBytes db).count ≤ a.uidx) | none => false
        if a.ustop.isSome || whole then
          (s.setAsaSet b { a with urun := none, udesc := none, ustop := none }).cmdEnd cmd (ticketCode (a.ustop.getD 0) a.uidx)
        else s
    else
      match a.srun with
      | none => s
      | some cmd => doSearchDone b cmd s

/-- ASA_SCRUB: one entry, valid or not, against its ECC copy (R226). -/
def doAsaScrub (b slot : Nat) (s : State) : State :=
  let key := b * 8192 + slot
  match tget? s.asa key with
  | none => s
  | some e =>
    if s.frozen then s
    else
      let part := match asaGroup s.asaCfg b with | some g => g.part | none => noPart
      match e.eccState with
      | .uncorrectable => s.asaFallback key e.sel part
      | st =>
        let s1 := if st = .corrected then
            ((s.asaCount 1).asaLog 0x0502 key part).asaPut key { e with eccState := .clean } else s
        if e.arr = e.ecc then s1
        else (s1.asaLog 0x0506 key part).asaPut key { tgetD s1.asa key .empty with arr := e.ecc }

/-- R209, R210: every entry of a bank becomes invalid and its canonical records zero. -/
def State.asaClearBank (s : State) (b : Nat) : State := { s with asa := s.asa.filter (fun e => e.1 / 8192 ≠ b) }

def execAsaSearchStart (b : Nat) (s : State) : Host.Outcome State Fault Refusal :=
  .next (s.settle (asaReqs b) (doAsaSearchStart b))
def execAsaUpdateStart (b : Nat) (s : State) : Host.Outcome State Fault Refusal :=
  .next (s.settle (asaReqs b) (doAsaUpdateStart b))
def execAsaImageCommit (b : Nat) (s : State) : Host.Outcome State Fault Refusal :=
  .next (s.settle (asaReqs b) (doAsaCommit b))
def execAsaFallbackReturn (b slot : Nat) (e : Ecc) (s : State) : Host.Outcome State Fault Refusal :=
  .next (s.settle (asaReqs b) (doAsaFallback b slot e))
def execAsaCommandDone (b : Nat) (u : Bool) (s : State) : Host.Outcome State Fault Refusal :=
  .next (s.settle (asaReqs b) (doAsaDone b u))
def execAsaScrub (b slot : Nat) (s : State) : Host.Outcome State Fault Refusal :=
  .next (s.settle (asaReqs b) (doAsaScrub b slot))

end Sys2Proof.Machine
end

