-- ==== Sys2Proof/Machine/Digest.lean ====
section
/-!
DEFINITION. The digest units (10): SHA-256, SHA-512 and SHA3-256, the DIGEST job, and how the jobs share the units.  The
spec names FIPS 180-4 and FIPS 202 and does not restate them; their contents are PRESUMED (log entry 17).
-/
namespace Sys2Proof.Machine

open Sys2Proof

/-! ### SHA-2 (FIPS 180-4) -/

def sha256KA : List (BitVec 32) :=
  [0x428A2F98, 0x71374491, 0xB5C0FBCF, 0xE9B5DBA5, 0x3956C25B, 0x59F111F1, 0x923F82A4, 0xAB1C5ED5, 0xD807AA98,
   0x12835B01, 0x243185BE, 0x550C7DC3, 0x72BE5D74, 0x80DEB1FE, 0x9BDC06A7, 0xC19BF174, 0xE49B69C1, 0xEFBE4786,
   0x0FC19DC6, 0x240CA1CC, 0x2DE92C6F, 0x4A7484AA, 0x5CB0A9DC, 0x76F988DA, 0x983E5152, 0xA831C66D, 0xB00327C8,
   0xBF597FC7, 0xC6E00BF3, 0xD5A79147, 0x06CA6351, 0x14292967]

def sha256KB : List (BitVec 32) :=
  [0x27B70A85, 0x2E1B2138, 0x4D2C6DFC, 0x53380D13, 0x650A7354, 0x766A0ABB, 0x81C2C92E, 0x92722C85, 0xA2BFE8A1,
   0xA81A664B, 0xC24B8B70, 0xC76C51A3, 0xD192E819, 0xD6990624, 0xF40E3585, 0x106AA070, 0x19A4C116, 0x1E376C08,
   0x2748774C, 0x34B0BCB5, 0x391C0CB3, 0x4ED8AA4A, 0x5B9CCA4F, 0x682E6FF3, 0x748F82EE, 0x78A5636F, 0x84C87814,
   0x8CC70208, 0x90BEFFFA, 0xA4506CEB, 0xBEF9A3F7, 0xC67178F2]

def sha256K : List (BitVec 32) := sha256KA ++ sha256KB

def sha256H : List (BitVec 32) :=
  [0x6A09E667, 0xBB67AE85, 0x3C6EF372, 0xA54FF53A, 0x510E527F, 0x9B05688C, 0x1F83D9AB, 0x5BE0CD19]

def sha512KA : List Word :=
  [0x428A2F98D728AE22, 0x7137449123EF65CD, 0xB5C0FBCFEC4D3B2F, 0xE9B5DBA58189DBBC, 0x3956C25BF348B538,
   0x59F111F1B605D019, 0x923F82A4AF194F9B, 0xAB1C5ED5DA6D8118, 0xD807AA98A3030242, 0x12835B0145706FBE,
   0x243185BE4EE4B28C, 0x550C7DC3D5FFB4E2, 0x72BE5D74F27B896F, 0x80DEB1FE3B1696B1, 0x9BDC06A725C71235,
   0xC19BF174CF692694, 0xE49B69C19EF14AD2, 0xEFBE4786384F25E3, 0x0FC19DC68B8CD5B5, 0x240CA1CC77AC9C65]

def sha512KB : List Word :=
  [0x2DE92C6F592B0275, 0x4A7484AA6EA6E483, 0x5CB0A9DCBD41FBD4, 0x76F988DA831153B5, 0x983E5152EE66DFAB,
   0xA831C66D2DB43210, 0xB00327C898FB213F, 0xBF597FC7BEEF0EE4, 0xC6E00BF33DA88FC2, 0xD5A79147930AA725,
   0x06CA6351E003826F, 0x142929670A0E6E70, 0x27B70A8546D22FFC, 0x2E1B21385C26C926, 0x4D2C6DFC5AC42AED,
   0x53380D139D95B3DF, 0x650A73548BAF63DE, 0x766A0ABB3C77B2A8, 0x81C2C92E47EDAEE6, 0x92722C851482353B]

def sha512KC : List Word :=
  [0xA2BFE8A14CF10364, 0xA81A664BBC423001, 0xC24B8B70D0F89791, 0xC76C51A30654BE30, 0xD192E819D6EF5218,
   0xD69906245565A910, 0xF40E35855771202A, 0x106AA07032BBD1B8, 0x19A4C116B8D2D0C8, 0x1E376C085141AB53,
   0x2748774CDF8EEB99, 0x34B0BCB5E19B48A8, 0x391C0CB3C5C95A63, 0x4ED8AA4AE3418ACB, 0x5B9CCA4F7763E373,
   0x682E6FF3D6B2B8A3, 0x748F82EE5DEFB2FC, 0x78A5636F43172F60, 0x84C87814A1F0AB72, 0x8CC702081A6439EC]

def sha512KD : List Word :=
  [0x90BEFFFA23631E28, 0xA4506CEBDE82BDE9, 0xBEF9A3F7B2C67915, 0xC67178F2E372532B, 0xCA273ECEEA26619C,
   0xD186B8C721C0C207, 0xEADA7DD6CDE0EB1E, 0xF57D4F7FEE6ED178, 0x06F067AA72176FBA, 0x0A637DC5A2C898A6,
   0x113F9804BEF90DAE, 0x1B710B35131C471B, 0x28DB77F523047D84, 0x32CAAB7B40C72493, 0x3C9EBE0A15C9BEBC,
   0x431D67C49C100D4C, 0x4CC5D4BECB3E42B6, 0x597F299CFC657E2A, 0x5FCB6FAB3AD6FAEC, 0x6C44198C4A475817]

def sha512K : List Word := sha512KA ++ sha512KB ++ sha512KC ++ sha512KD

def sha512H : List Word :=
  [0x6A09E667F3BCC908, 0xBB67AE8584CAA73B, 0x3C6EF372FE94F82B, 0xA54FF53A5F1D36F1, 0x510E527FADE682D1,
   0x9B05688C2B3E6C1F, 0x1F83D9ABFB41BD6B, 0x5BE0CD19137E2179]

/-- A big-endian number. -/
def beNat (bs : List Byte) : Nat := bs.foldl (fun a b => a * 256 + b.toNat) 0

def beBytes (n v : Nat) : List Byte := (leBytes n v).reverse

/-- The message schedule: the last 16 words, latest first, and the words so far, latest first. -/
def shaSched {w : Nat} (s0 s1 : BitVec w → BitVec w) : Nat → List (BitVec w) → List (BitVec w)
  | 0, ws => ws
  | n + 1, ws => shaSched s0 s1 n ((s1 (ws.getD 1 0) + ws.getD 6 0 + s0 (ws.getD 14 0) + ws.getD 15 0) :: ws)

/-- Working variables a–h. -/
structure Sha (w : Nat) where
  a : BitVec w
  b : BitVec w
  c : BitVec w
  d : BitVec w
  e : BitVec w
  f : BitVec w
  g : BitVec w
  h : BitVec w

def shaRound {w : Nat} (b0 b1 : BitVec w → BitVec w) (x : Sha w) (k m : BitVec w) : Sha w :=
  let t1 := x.h + b1 x.e + ((x.e &&& x.f) ^^^ (~~~ x.e &&& x.g)) + k + m
  let t2 := b0 x.a + ((x.a &&& x.b) ^^^ (x.a &&& x.c) ^^^ (x.b &&& x.c))
  { a := t1 + t2, b := x.a, c := x.b, d := x.c, e := x.d + t1, f := x.e, g := x.f, h := x.g }

def shaRounds {w : Nat} (b0 b1 : BitVec w → BitVec w) : List (BitVec w) → List (BitVec w) → Sha w → Sha w
  | k :: ks, m :: ms, x => shaRounds b0 b1 ks ms (shaRound b0 b1 x k m)
  | _, _, x => x

def Sha.add {w : Nat} (x y : Sha w) : Sha w :=
  { a := x.a + y.a, b := x.b + y.b, c := x.c + y.c, d := x.d + y.d, e := x.e + y.e, f := x.f + y.f, g := x.g + y.g, h := x.h + y.h }

def Sha.words {w : Nat} (x : Sha w) : List (BitVec w) := [x.a, x.b, x.c, x.d, x.e, x.f, x.g, x.h]

def Sha.ofList {w : Nat} (l : List (BitVec w)) : Sha w :=
  { a := l.getD 0 0, b := l.getD 1 0, c := l.getD 2 0, d := l.getD 3 0, e := l.getD 4 0, f := l.getD 5 0, g := l.getD 6 0,
    h := l.getD 7 0 }

/-- Blocks of a padded message, `wb` bytes a word. -/
def shaBlocks {w : Nat} (wb extra : Nat) (s0 s1 b0 b1 : BitVec w → BitVec w) (ks : List (BitVec w)) : Nat → List Byte → Sha w → Sha w
  | 0, _, x => x
  | n + 1, msg, x =>
    let ws := (List.range 16).map (fun i => BitVec.ofNat w (beNat ((msg.drop (wb * i)).take wb)))
    let sched := (shaSched s0 s1 extra ws.reverse).reverse
    shaBlocks wb extra s0 s1 b0 b1 ks n (msg.drop (16 * wb)) (x.add (shaRounds b0 b1 ks sched x))

/-- What follows a message of `n` bytes, for blocks of `bb` bytes and a length field of `lb` bytes. -/
def shaEnd (bb lb n : Nat) : List Byte :=
  let z := (bb - (n + 1 + lb) % bb) % bb
  [0x80] ++ zeros z ++ beBytes lb (8 * n)

def sha256Blocks (n : Nat) (msg : List Byte) (x : Sha 32) : Sha 32 :=
  let r := fun (x : BitVec 32) (n : Nat) => x.rotateRight n
  shaBlocks 4 48 (fun x => r x 7 ^^^ r x 18 ^^^ (x >>> 3)) (fun x => r x 17 ^^^ r x 19 ^^^ (x >>> 10))
    (fun x => r x 2 ^^^ r x 13 ^^^ r x 22) (fun x => r x 6 ^^^ r x 11 ^^^ r x 25) sha256K n msg x

def sha512Blocks (n : Nat) (msg : List Byte) (x : Sha 64) : Sha 64 :=
  let r := fun (x : Word) (n : Nat) => x.rotateRight n
  shaBlocks 8 64 (fun x => r x 1 ^^^ r x 8 ^^^ (x >>> 7)) (fun x => r x 19 ^^^ r x 61 ^^^ (x >>> 6))
    (fun x => r x 28 ^^^ r x 34 ^^^ r x 39) (fun x => r x 14 ^^^ r x 18 ^^^ r x 41) sha512K n msg x

/-- The words of a digest, each in the byte order of FIPS 180-4. -/
def Sha.bytes {w : Nat} (x : Sha w) (wb : Nat) : List Byte := (x.words.map (fun v => beBytes wb v.toNat)).flatten

def sha256 (msg : List Byte) : List Byte :=
  let p := msg ++ shaEnd 64 8 msg.length
  (sha256Blocks (p.length / 64) p (Sha.ofList sha256H)).bytes 4

def sha512 (msg : List Byte) : List Byte :=
  let p := msg ++ shaEnd 128 16 msg.length
  (sha512Blocks (p.length / 128) p (Sha.ofList sha512H)).bytes 8

/-! ### SHA3-256 (FIPS 202)

The 1,600 bits are five planes of five lanes: plane y holds the lanes (0, y) to (4, y). -/

/-- One step of the shift register that the round constants come from: x^8 + x^6 + x^5 + x^4 + 1, bit 0 going out. -/
def lfsrStep (r : BitVec 8) : BitVec 8 := if r.getLsbD 7 then (r <<< 1) ^^^ 0x71 else r <<< 1

/-- The constant of a round, bit 2^j - 1 of it for each j the register's next output, and the register after it. -/
def iotaWord (r : BitVec 8) : List Nat → Word × BitVec 8
  | [] => (0, r)
  | j :: js =>
    let (w, r1) := iotaWord (lfsrStep r) js
    (if r.getLsbD 0 then w ||| BitVec.ofNat 64 (2 ^ (2 ^ j - 1)) else w, r1)

/-- The elements of a list moved `k` places down, the first ones to its end. -/
def turned {α : Type} (k : Nat) (l : List α) : List α := l.drop k ++ l.take k

def xorLanes (p q : List Word) : List Word := List.zipWith (fun v w => v ^^^ w) p q

/-- θ: each lane takes in the parities of the column before it and, turned by a bit, of the column after it. -/
def theta (planes : List (List Word)) : List (List Word) :=
  let par := planes.foldl xorLanes [0, 0, 0, 0, 0]
  let mix := xorLanes (turned 4 par) ((turned 1 par).map (fun v => v.rotateLeft 1))
  planes.map (fun p => xorLanes p mix)

def laneOf (planes : List (List Word)) (x y : Nat) : Word := (planes.getD y []).getD x 0

/-- ρ and π on the lanes other than (0, 0): the walk from (1, 0) that goes from (x, y) to (y, 2x + 3y), lane number t of it turned by
(t + 1)(t + 2) / 2 bits and put where the next one stood. -/
def rhoPiWalk (planes : List (List Word)) : Nat → Nat → Nat → Nat → List ((Nat × Nat) × Word)
  | 0, _, _, _ => []
  | n + 1, t, x, y =>
    let y1 := (2 * x + 3 * y) % 5
    ((y, y1), (laneOf planes x y).rotateLeft ((t + 1) * (t + 2) / 2 % 64)) :: rhoPiWalk planes n (t + 1) y y1

def rhoPi (planes : List (List Word)) : List (List Word) :=
  let to1 := ((0, 0), laneOf planes 0 0) :: rhoPiWalk planes 24 0 1 0
  (List.range 5).map (fun y => (List.range 5).map (fun x => ((to1.find? (fun e => e.1 == (x, y))).map (·.2)).getD 0))

/-- χ within one plane. -/
def chi (p : List Word) : List Word := xorLanes p (List.zipWith (fun v w => ~~~ v &&& w) (turned 1 p) (turned 2 p))

/-- ι: the round constant goes into lane (0, 0). -/
def iota (w : Word) : List (List Word) → List (List Word)
  | (v :: vs) :: ps => ((v ^^^ w) :: vs) :: ps
  | ps => ps

/-- The rounds of the permutation, the register of the constants beside the planes. -/
def spongeRounds : Nat → BitVec 8 → List (List Word) → List (List Word)
  | 0, _, planes => planes
  | n + 1, r, planes =>
    let (w, r1) := iotaWord r (List.range 7)
    spongeRounds n r1 (iota w ((rhoPi (theta planes)).map chi))

/-- The planes of 25 lanes in a row. -/
def planesOf (l : List Word) : List (List Word) := (List.range 5).map (fun y => (l.drop (5 * y)).take 5)

/-- A block of 136 bytes goes into the first 17 of the 25 lanes, and the permutation follows. -/
def sha3Absorb (lanes : List Word) (block : List Byte) : List Word :=
  let ins := (List.range 17).map (fun i => BitVec.ofNat 64 (fld block (8 * i) 8))
  (spongeRounds 24 1 (planesOf (xorLanes lanes (ins ++ List.replicate 8 0)))).flatten

/-- What follows the last whole block: the bytes left, the two suffix bits of SHA-3 and the padding. -/
def sha3Last (tail : List Byte) : List Byte :=
  if tail.length = 135 then tail ++ [0x86] else tail ++ [0x06] ++ zeros (134 - tail.length) ++ [0x80]

def sha3Blocks : Nat → List Byte → List Word → List Word
  | 0, msg, lanes => sha3Absorb lanes (sha3Last msg)
  | n + 1, msg, lanes => sha3Blocks n (msg.drop 136) (sha3Absorb lanes (msg.take 136))

def sha3Out (lanes : List Word) : List Byte := (lanes.take 4).flatMap (fun w => leBytes 8 w.toNat)

def sha3_256 (msg : List Byte) : List Byte := sha3Out (sha3Blocks (msg.length / 136) msg (List.replicate 25 0))

/-! ### The job (R246–R250) -/

def DigD.ofBytes (b : List Byte) : DigD :=
  { algo := fld b 0 1, list := fld b 4 4, bytes := fld b 8 8, addr := fld b 16 8, out := fld b 24 8 }

def digestOk (b : List Byte) : Bool :=
  let d := DigD.ofBytes b
  decide (d.algo ≤ 2) && zeroAt b 1 3 && decide (d.list ≤ 65536) && (d.list != 0 || d.bytes == 0) && decide (d.bytes < 2 ^ 48)
  && (if d.list = 0 then d.addr == 0 else d.addr % 16 == 0) && d.out % 32 == 0 && zeroAt b 32 32

/-- R246: the bytes of a message block. -/
def digestBlock (algo : Nat) : Nat :=
  match algo with
  | 0 => 64
  | 1 => 128
  | _ => 136

/-- The chaining state before the first block. -/
def digestInit (algo : Nat) : List Word :=
  match algo with
  | 0 => sha256H.map (fun v => v.setWidth 64)
  | 1 => sha512H
  | _ => List.replicate 25 0

/-- A chaining state of SHA-256, of 32-bit words. -/
def sha256State (chain : List Word) : Sha 32 := Sha.ofList (chain.map (fun v => v.setWidth 32))

/-- One whole block goes into the chaining state. -/
def digestAbsorb (algo : Nat) (chain : List Word) (block : List Byte) : List Word :=
  match algo with
  | 0 => (sha256Blocks 1 block (sha256State chain)).words.map (fun v => v.setWidth 64)
  | 1 => (sha512Blocks 1 block (Sha.ofList chain)).words
  | _ => sha3Absorb chain block

/-- The digest of a message of `n` bytes, of which `tail` follows the last whole block (R246: in the standard's byte order). -/
def digestEnd (algo : Nat) (chain : List Word) (n : Nat) (tail : List Byte) : List Byte :=
  match algo with
  | 0 =>
    let p := tail ++ shaEnd 64 8 n
    (sha256Blocks (p.length / 64) p (sha256State chain)).bytes 4
  | 1 =>
    let p := tail ++ shaEnd 128 16 n
    (sha512Blocks (p.length / 128) p (Sha.ofList chain)).bytes 8
  | _ => sha3Out (sha3Absorb chain (sha3Last tail))

def DuJob.uctx (j : DuJob) (u : Nat) : UCtx := { agent := 7, sel := .io, part := j.part, leg := j.leg, chan := u }

/-- R247: the job's descriptor, read and checked when the job first runs; a job resumed goes on from its saved context. -/
def digestStart (u : Nat) (j : DuJob) : UM DuCtx :=
  match j.ctx with
  | some c => pure c
  | none => do
    uCheck (!j.bad) 0x0701
    let b ← uDesc (j.uctx u) j.desc.toNat 64 0x0701
    uCheck (digestOk b) 0x0701
    let d := DigD.ofBytes b
    return { d := d, count := 0, next := 0, addr := 0, left := 0, chain := digestInit d.algo }

/-- Up to `want` more source bytes (R248): entries in ascending order, each read when it is reached.  Beside the bytes and the place
reached, why the gathering stopped before `want` bytes or the message's end. -/
def gather (u : UCtx) : Nat → Nat → List Byte → DuCtx → State → (List Byte × DuCtx × Option UErr) × State
  | 0, _, acc, c, s => ((acc, c, none), s)
  | f + 1, want, acc, c, s =>
    let room := min want (c.d.bytes - c.count)
    if room = 0 then ((acc, c, none), s)
    else if c.left = 0 then
      if c.next = c.d.list then ((acc, c, some (.code 0x0703)), s)
      else
        match uRun (uRead u (c.d.addr + 16 * c.next) 16) s with
        | (.error e, s1) => ((acc, c, some e), s1)
        | (.ok eb, s1) =>
          if zeroAt eb 12 4 then gather u f want acc { c with next := c.next + 1, addr := fld eb 0 8, left := fld eb 8 4 } s1
          else ((acc, c, some (.code 0x0702)), s1)
    else
      let n := min room c.left
      match uRun (uRead u c.addr n) s with
      | (.error e, s1) => ((acc, c, some e), s1)
      | (.ok bs, s1) => gather u f (want - n) (acc ++ bs) { c with count := c.count + n, addr := c.addr + n, left := c.left - n } s1

/-- Entries and bytes are steps of `gather`: as many as can come before a block is full. -/
def gatherBlock (u : UCtx) (c : DuCtx) (s : State) : (List Byte × DuCtx × Option UErr) × State :=
  gather u (c.d.list - c.next + digestBlock c.d.algo + 1) (digestBlock c.d.algo) [] c s

/-- The rest of the message, block after block: the place reached, the bytes after the last whole block, and why it stopped short. -/
def absorbAll (u : UCtx) : Nat → DuCtx → State → (DuCtx × List Byte × Option UErr) × State
  | 0, c, s => ((c, [], none), s)
  | f + 1, c, s =>
    match gatherBlock u c s with
    | ((bs, c1, e), s1) =>
      if e.isNone && bs.length = digestBlock c.d.algo then
        absorbAll u f { c1 with chain := digestAbsorb c.d.algo c.chain bs } s1
      else ((c1, bs, e), s1)

/-- Up to `k` whole blocks, stopping before one that the message ends in or that stops the job. -/
def absorbSome (u : UCtx) : Nat → DuCtx → State → DuCtx × State
  | 0, c, s => (c, s)
  | k + 1, c, s =>
    match gatherBlock u c s with
    | ((bs, c1, e), s1) =>
      if s1.hostMiss.isSome then (c, s1)
      else if e.isNone && bs.length = digestBlock c.d.algo then
        absorbSome u k { c1 with chain := digestAbsorb c.d.algo c.chain bs } s1
      else (c, s)

/-- The job to its end: its code and result, and the bytes it absorbed since it last started or resumed. -/
def digestRun (u : Nat) (j : DuJob) (s : State) : Nat × Nat × Nat × State :=
  match uRun (digestStart u j) s with
  | (.error e, s1) => (e.status 0x0704 0x0705, 0, 0, s1)
  | (.ok c0, s1) =>
    match absorbAll (j.uctx u) (c0.d.bytes / digestBlock c0.d.algo + 2) c0 s1 with
    | ((c, _, some e), s2) =>
      let code := e.status 0x0704 0x0705
      (code, if code = 0x0702 ∨ code = 0x0703 then min c.count 0xFFFFFFFF else 0, c.count - c0.count, s2)
    | ((c, tail, none), s2) =>
      match uRun (uWriteWhole (j.uctx u) c.d.out (digestEnd c.d.algo c.chain c.count tail)) s2 with
      | (.error e, s3) => (e.status 0x0704 0x0705, 0, c.count - c0.count, s3)
      | (.ok _, s3) =>
        (0, b2n (c.left != 0 || decide (c.next < c.d.list)) + 2 * b2n j.capped + 4 * b2n j.preempted, c.count - c0.count, s3)

/-! ### Sharing (R251, R252) -/

def bestJob (l : List DuJob) : Option DuJob :=
  l.foldl (fun (b : Option DuJob) j => match b with
    | none => some j
    | some x => if x.cls < j.cls ∨ (x.cls = j.cls ∧ j.order < x.order) then some j else some x) none

/-- The oldest saved context of the highest class. -/
def bestSaved (l : List DuJob) : Option DuJob :=
  l.foldl (fun (b : Option DuJob) j => match b with
    | none => some j
    | some x => if x.cls < j.cls then some j else some x) none

def State.duIdle (s : State) (u : Nat) : Bool := (s.du u).running.isNone

/-- A job begins or goes on on unit `u`, with the blocks that its saved context has absorbed; the count rises by free amounts as time
passes, to those of its message at most (log entries 12, 13). -/
def State.duBegin (s : State) (u : Nat) (d : DuUnit) (j : DuJob) : State :=
  match j.ctx with
  | some c => s.setDu u { d with running := some j, blocks := c.count / digestBlock c.d.algo, limit := c.d.bytes / digestBlock c.d.algo }
  | none =>
    let (n, s1) := s.peekDesc (j.uctx u) j.desc.toNat 64 (fun b =>
      if !j.bad && digestOk b then (DigD.ofBytes b).bytes / digestBlock (DigD.ofBytes b).algo else 0)
    s1.setDu u { d with running := some j, blocks := 0, limit := n }

/-- DU_JOB_START: a free unit takes its next job. -/
def doDuStart (u : Nat) (s : State) : State :=
  let d := s.du u
  if s.frozen || decide (16 ≤ u) || !s.duIdle u then s
  else
    let q := bestJob s.duQueue
    let v := bestSaved d.saved
    let saved := match q, v with
      | some a, some b => decide (a.cls ≤ b.cls)
      | none, some _ => true
      | _, none => false
    if saved then
      match v with
      | some j => s.duBegin u { d with saved := d.saved.erase j } j
      | none => s
    else
      match q with
      | some j =>
        if (List.range u).any (fun k => s.duIdle k) then s
        else
          State.duBegin { s with duQueue := s.duQueue.erase j } u d { j with start := some s.fc.chrono }
      | none => s

/-- R252: the unit whose job gives way to a job of class `cls`. -/
def State.duVictim (s : State) (cls : Nat) : Option Nat :=
  let run := (List.range 16).filterMap (fun u => (s.du u).running.map (fun j => (u, j)))
  let low := run.foldl (fun m e => min m e.2.cls) 4
  (run.filter (fun e => e.2.cls = low && decide (e.2.cls < cls) && decide ((s.du e.1).saved.length < 4))).foldl
    (fun (b : Option (Nat × DuJob)) e => match b with
      | none => some e
      | some x => if (x.2.start.getD 0).toNat < (e.2.start.getD 0).toNat then some e else some x) none |>.map (·.1)

/-- The job of unit `u` gives the unit up at a block boundary, a free number of blocks beyond those it has shown, its context saved
(R252): the job as it is saved, and the bytes that it absorbed. -/
def duSave (u : Nat) (j : DuJob) (s : State) : (DuJob × Nat) × State :=
  let (k, s1) := s.free
  match uRun (digestStart u j) s1 with
  | (.error _, s2) => (({ j with preempted := true }, 0), if s2.hostMiss.isSome then s2 else s1)
  | (.ok c0, s2) =>
    let size := digestBlock c0.d.algo
    let shown := (s.du u).blocks - c0.count / size
    let (c, s3) := absorbSome (j.uctx u) (shown + k % (c0.d.bytes / size + 1)) c0 s2
    (({ j with preempted := true, ctx := some c }, c.count - c0.count), s3)

/-- DU_PREEMPT: at the block boundary the victim's context is saved and the queued job starts. -/
def doDuPreempt (u : Nat) (s : State) : State :=
  if s.frozen || (List.range 16).any (fun k => s.duIdle k) then s
  else
    match bestJob s.duQueue, (s.du u).running with
    | some j, some v =>
      if s.duVictim j.cls = some u then
        let ((v1, n), s1) := duSave u v s
        let d := s1.du u
        State.duBegin { s1 with duQueue := s1.duQueue.erase j, duPreempts := s1.duPreempts + 1 } u
          { d with saved := d.saved ++ [v1], bytes := d.bytes + n } { j with start := some s1.fc.chrono }
      else s
    | _, _ => s

/-- DU_JOB_DONE: the running job's digest or stop, and its status (R254). -/
def doDuDone (u : Nat) (s : State) : State :=
  match (s.du u).running with
  | none => s
  | some j =>
    if s.frozen then s
    else
      let (code, res, n, s1) := digestRun u j s
      let s2 := if code = 0x0705 then s1.log 0x0601 noInst j.part 0 else s1
      let d := s2.du u
      (s2.setDu u { d with running := none, bytes := d.bytes + n }).endTicket j.leg j.slot (ticketCode code res)

/-- R253: a RESET or DESTROY of partition `p`.  The bytes a running job has absorbed by its next block boundary are a free value. -/
def State.duAbort (s : State) (p : Nat) : State :=
  let s1 := { s with duQueue := s.duQueue.filter (fun j => j.part ≠ p) }
  (List.range 16).foldl (fun t u =>
    let d := t.du u
    let d1 := { d with saved := d.saved.filter (fun j => j.part ≠ p) }
    match d.running with
    | some j =>
      if j.part = p then
        let (n, t1) := t.free
        (t1.setDu u { d1 with running := none, bytes := d.bytes + n }).endTicket j.leg j.slot (ticketCode 0x0706 0)
      else t.setDu u d1
    | none => if d = d1 then t else t.setDu u d1) s1

def execDuJobStart (u : Nat) (s : State) : Host.Outcome State Fault Refusal :=
  .next (s.settle (duReqs u) (doDuStart u))
def execDuPreempt (u : Nat) (s : State) : Host.Outcome State Fault Refusal :=
  .next (s.settle (duReqs u) (doDuPreempt u))
def execDuJobDone (u : Nat) (s : State) : Host.Outcome State Fault Refusal :=
  .next (s.settle (duReqs u) (doDuDone u))

end Sys2Proof.Machine
end

