-- ==== Sys2Proof/Machine/Mover.lean ====
section
/-!
DEFINITION. The data movers (13): RUN and KICK, the movement of rows and list entries in bursts, PIPE channels, the
triggers, retries and the quench of channels.
-/
namespace Sys2Proof.Machine

open Sys2Proof

/-! ### The descriptor (R289) -/

structure DmD where
  trigger : Nat
  mode : Nat
  prio : Nat
  after : Nat
  count : Nat
  src : Nat
  dst : Nat
  row : Nat
  srcStride : Nat
  dstStride : Nat
  arg : Nat
  high : Nat
  low : Nat
  deriving DecidableEq, Repr

def DmD.ofBytes (b : List Byte) : DmD :=
  { trigger := fld b 0 1, mode := fld b 1 1, prio := fld b 2 1, after := fld b 3 1, count := fld b 4 4, src := fld b 8 8,
    dst := fld b 16 8, row := fld b 24 4, srcStride := fld b 32 8, dstStride := fld b 40 8, arg := fld b 48 8,
    high := fld b 56 2, low := fld b 58 2 }

def dmDescOk (ch : Nat) (b : List Byte) : Bool :=
  let d := DmD.ofBytes b
  let str := d.mode == 0
  let pipe := d.trigger == 4
  decide (d.trigger ≤ 4) && decide (d.mode ≤ 2) && (!pipe || str) && decide (d.prio < 8)
  && (if d.trigger = 3 then decide (d.after ≤ 59) && d.after != ch else d.after == 0)
  && decide (d.count ≤ 16777216)
  && (if str then decide (1 ≤ d.row ∧ d.row ≤ 16777216) else d.row == 0 && d.srcStride == 0 && d.dstStride == 0)
  && (!pipe || (d.src == 0 && d.srcStride == 0))
  && (d.mode != 1 || d.src % 16 == 0) && (d.mode != 2 || d.dst % 16 == 0)
  && (d.trigger == 2 || pipe || d.arg == 0)
  && (if pipe then decide (1 ≤ d.high) && decide (d.low < d.high) else d.high == 0 && d.low == 0)
  && zeroAt b 28 4 && zeroAt b 60 4

/-! ### The channels of a cluster -/

def State.chan (s : State) (c ch : Nat) : Option Channel := tget? (s.cl c).dm ch
def State.setChan (s : State) (c ch : Nat) (k : Channel) : State := s.setCl c { s.cl c with dm := tput (s.cl c).dm ch k }

def Channel.ctx (k : Channel) (c ch : Nat) : UCtx := { agent := 5, sel := .cluster c, part := k.part, leg := k.leg, chan := ch }

/-- After a channel's end: it is free when its leg has closed (R288). -/
def State.dmTidy (s : State) (l : Nat) : State :=
  match s.leg? l with
  | some g => match g.place with | .closed _ => s.dmFreeLeg l | _ => s
  | none => s.dmFreeLeg l

def State.dmFinish (s : State) (c ch code : Nat) : State :=
  match s.chan c ch with
  | some k => (s.dmEnd 64 c ch code).dmTidy k.leg
  | none => s

/-- R360: from the acceptance of a quiesce, a channel of p that comes to wait for its trigger or to pause ends with CANCELLED. -/
def State.dmWaits (s : State) (c ch : Nat) : State :=
  match s.chan c ch with
  | some k => if (k.state = 1 || k.state = 3) && (s.part k.part).quiesce.isSome then s.dmFinish c ch 0x050A else s
  | none => s

/-! ### Movement (R290, R298) -/

/-- The row or entry under way: source, destination and length.  A list entry is known once it has been read, and the source of a
PIPE row once it has been popped. -/
def Channel.span (k : Channel) : Option (Nat × Nat × Nat) :=
  if k.mode = 0 then
    let dst := (k.dst.toNat + k.rows * k.dstStride.toNat) % 2 ^ 64
    if k.trigger = 4 then k.item.map (fun e => (e.1, dst, k.rowBytes))
    else some ((k.src.toNat + k.rows * k.srcStride.toNat) % 2 ^ 64, dst, k.rowBytes)
  else if k.mode = 1 then k.item.map (fun e => (e.1, k.dst.toNat + k.off, e.2))
  else k.item.map (fun e => (k.src.toNat + k.off, e.1, e.2))

/-- The burst under way: it ends at the first 256-byte boundary of either side, or with the row or entry. -/
def Channel.burst (k : Channel) : Option (Nat × Nat × Nat) :=
  k.span.map (fun x =>
    let src := (x.1 + k.pos) % 2 ^ 64
    let dst := (x.2.1 + k.pos) % 2 ^ 64
    (src, dst, min (x.2.2 - k.pos) (min (256 - src % 256) (256 - dst % 256))))

/-- Address of the entry that a list channel reads next. -/
def Channel.listAddr (k : Channel) : Nat := ((if k.mode = 1 then k.src.toNat else k.dst.toNat) + 16 * k.rows) % 2 ^ 64

/-- The bytes that one beat moves, at most the rest of a 64-byte line (R300). -/
def beatLen (addr left : Nat) : Nat := min left (64 - addr % 64)

/-- Address of the next access of a channel. -/
def Channel.nextAddr (k : Channel) : Nat :=
  match k.burst with
  | none => k.listAddr
  | some (src, dst, n) => if k.buf.length < n then (src + k.buf.length) % 2 ^ 64 else (dst + k.put) % 2 ^ 64

/-- The burst under way reads or writes the address. -/
def Channel.touches (k : Channel) (addr : Nat) : Bool :=
  match k.burst with
  | none => false
  | some (src, dst, n) => (decide (src ≤ addr) && decide (addr < src + n)) || (decide (dst ≤ addr) && decide (addr < dst + n))

/-- A row or entry whose bytes have all been moved counts as moved (R299). -/
def Channel.rowEnd (k : Channel) : Channel :=
  match k.span with
  | some (_, _, n) => if n ≤ k.pos then { k with rows := k.rows + 1, off := k.off + n, pos := 0, item := none } else k
  | none => k

/-- One beat of a channel: the next entry of its list, or up to 64 bytes of its burst, which is read wholly before it is written. -/
def dmWork (u : UCtx) (c : Nat) (k : Channel) : UM Channel :=
  match k.burst with
  | none => do
    let e ← uRead u k.listAddr 16
    uCheck (zeroAt e 12 4) 0x0508
    return { k with item := some (fld e 0 8, fld e 8 4), retry := 0 }
  | some (src, dst, n) =>
    if n = 0 then return k
    else if k.buf.length < n then do
      let a := (src + k.buf.length) % 2 ^ 64
      let bs ← uRead u a (beatLen a (n - k.buf.length))
      return { k with buf := k.buf ++ bs, mid := false }
    else do
      let a := (dst + k.put) % 2 ^ 64
      let m := beatLen a (n - k.put)
      uWrite u a ((k.buf.drop k.put).take m)
      uModify (fun s => s.setCl c { s.cl c with dmBytes := (s.cl c).dmBytes + m })
      return if k.put + m < n then { k with put := k.put + m } else { k with pos := k.pos + n, buf := [], put := 0, retry := 0 }

/-- R298: the code a channel ends with. -/
def dmCode (e : UErr) : Nat :=
  match e with
  | .access => 0x0505
  | .mem => 0x0507
  | .bus => 0x0506
  | .code c => c

/-- A bus error at `addr`: the burst is made again at its next turn, or the channel halts (R298). -/
def State.dmBus (s : State) (c ch addr : Nat) : State :=
  match s.chan c ch with
  | none => s
  | some k =>
    if k.retry < (s.cl c).dmRetryMax then
      let s1 := s.setChan c ch { k with retry := k.retry + 1, buf := [], put := 0, mid := false }
      s1.setCl c { s1.cl c with dmRetries := (s1.cl c).dmRetries + 1 }
    else (s.log 0x0405 c k.part (BitVec.ofNat 64 (addr % 2 ^ 48 + ch * 2 ^ 48))).dmFinish c ch 0x0506

/-! ### PIPE channels (R294) -/

/-- The pipe that a handle names, bound to `part`. -/
def State.pipeOf (s : State) (handle : Word) (part : Nat) : Option (Nat × Nat × Pipe) :=
  let c := bits handle.toNat 13 8
  let i := bits handle.toNat 7 0
  if handle.toNat < 2 ^ 14 then
    match tget? (s.cl c).pipes i with
    | some p => if p.part = part then some (c, i, p) else none
    | none => none
  else none

def Pipe.depth (p : Pipe) : Nat := 2 ^ p.depthLog2

/-- An entry has been taken: the others move up (R338). -/
def Pipe.popped (k : Pipe) : Pipe := { k with head := (k.head + 1) % k.depth, flaws := (k.flaws.filter (· ≠ 0)).map (· - 1) }

/-- The set that holds the oldest entry: eight entries a line, from the pipe's first set on. -/
def Pipe.headSet (k : Pipe) : Nat := k.set + k.head % k.depth / 8

/-- The oldest entry is uncorrectable: it is logged with its way and set (R338). -/
def State.pipeBad (s : State) (c : Nat) (k : Pipe) : State :=
  State.l2Bad (s.setCl c { s.cl c with errUnc := satInc (s.cl c).errUnc 0xFFFF }) c k.headSet k.way

/-- A PIPE channel between two rows pops the source of its next row, or pauses: at LOW without a drain, or at an empty pipe. -/
def State.dmPop (s : State) (c ch : Nat) (k : Channel) : State :=
  let i := bits k.trigArg.toNat 7 0
  let pause := fun (_ : Unit) => (s.setChan c ch { k with state := 3, drain := false }).dmWaits c ch
  match (tget? (s.cl c).pipes i).filter (fun p => p.part == k.part) with
  | none => s.dmFinish c ch 0x0504
  | some p =>
    match p.entries with
    | [] => pause ()
    | e :: rest =>
      if !k.drain && decide (p.entries.length ≤ k.low) then pause ()
      else
        let s1 := s.setCl c { s.cl c with pipes := tput (s.cl c).pipes i { p.popped with entries := rest } }
        if p.flaws.contains 0 then (s1.pipeBad c p).dmFinish c ch 0x0507
        else if 2 ^ 48 ≤ e.toNat then s1.dmFinish c ch 0x0505 else s1.setChan c ch { k with item := some (e.toNat, k.rowBytes) }

/-! ### Turns (R300) -/

/-- R358: the allocation class in force: S, M or L. -/
def Part.classOf (q : Part) : Nat :=
  if 16 ≤ (List.range 64).countP (fun c => q.clusters.getLsbD c) then 2 else b2n q.classM

/-- The rank of a channel: firmware's first, then the level that R358 gives its partition's class. -/
def State.dmRank (s : State) (ch : Nat) (k : Channel) : Nat :=
  if 60 ≤ ch then 0 else 1 + (if (s.part k.part).classOf = 0 then max k.level 4 else k.level)

/-- The channel whose burst was under way at the last grant. -/
def Cluster.dmHolder (k : Cluster) : Option (Nat × Channel) :=
  match k.dmHold with
  | some h => match tget? k.dm h with | some x => if x.state = 2 && (!x.buf.isEmpty || x.mid) then some (h, x) else none | none => none
  | none => none

/-- The channel that is granted the next beat.  A burst of class S or M keeps the grant against every leg channel, one of class L
loses it to a higher level, and firmware's channels come before all. -/
def State.dmPick (s : State) (c : Nat) : Option Nat :=
  let k := s.cl c
  let ready := k.dm.filter (fun e => e.2.state == 2 && !e.2.wait)
  if !s.unitsOn c then none
  else
    match (ready.map (fun e => s.dmRank e.1 e.2)).min? with
    | none => none
    | some m =>
      let best := (ready.filter (fun e => s.dmRank e.1 e.2 == m)).map Prod.fst
      let next := match best.find? (fun x => decide (tgetD k.dmTurn m 63 < x)) with | some x => some x | none => best.head?
      match k.dmHolder with
      | none => next
      | some (h, x) =>
        if m < s.dmRank h x && (m == 0 || (s.part x.part).classOf == 2) then next else if x.wait then none else some h

/-- The grant of one beat to channel `ch`, and the beat.  A read of host memory goes out and the channel waits for it (R373). -/
def State.dmBeat (s : State) (c ch : Nat) : State :=
  match s.chan c ch with
  | none => s
  | some k =>
    let s0 := s.setCl c { s.cl c with dmHold := some ch, dmTurn := tput (s.cl c).dmTurn (s.dmRank ch k) ch }
    if k.count ≤ k.rows then s0.dmFinish c ch 0
    else if k.trigger = 4 && k.item.isNone then s0.dmPop c ch k
    else
      match uRun (dmWork (k.ctx c ch) c k) s0.asking with
      | (r, s1) =>
        let s2 := s0.settled (k.ctx c ch).hostReqs s1
        if s1.hostMiss.isSome then s2.setChan c ch { k with wait := true, mid := k.burst.isSome && k.buf.isEmpty }
        else
          match r with
          | .ok k1 => s2.setChan c ch k1.rowEnd
          | .error .bus => s2.dmBus c ch k.nextAddr
          | .error e => s2.dmFinish c ch (dmCode e)

/-- Beats in the arbiter's order until channel `ch` has moved its rows or stopped, waits for host memory, or meets `stop`. -/
def State.dmGo (c ch : Nat) (stop : Channel → Bool) : Nat → State → State
  | 0, s => s
  | f + 1, s =>
    match s.chan c ch with
    | none => s
    | some k =>
      if k.state != 2 || decide (k.count ≤ k.rows) || k.wait || stop k then s
      else
        match s.dmPick c with
        | some x => State.dmGo c ch stop f (s.dmBeat c x)
        | none => s

/-- More beats than the channels of a cluster can have: at most 2^24 rows or entries of 2^32 bytes each. -/
def dmFuel : Nat := 2 ^ 72

/-- A running channel goes on until it ends, pauses or waits for host memory. -/
def State.dmRunTo (s : State) (c ch : Nat) : State :=
  let t := s.dmGo c ch (fun _ => false) dmFuel
  match t.chan c ch with
  | some k => if k.state = 2 ∧ k.count ≤ k.rows then t.dmFinish c ch 0 else t
  | none => t

/-- DM_CHANNEL_DONE: a running channel moves everything it has to move, and ends. -/
def doDmDone (c ch : Nat) (s : State) : State := if s.unitsOn c then s.dmRunTo c ch else s

/-- DM_BUS_ERROR_RETRY: the burst of a running channel that covers `addr` meets a bus error; it is made again, or the channel
ends (R298). -/
def doDmRetry (c ch : Nat) (addr : Word) (s : State) : State :=
  let t := s.dmGo c ch (fun k => k.touches addr.toNat) dmFuel
  match t.chan c ch with
  | none => s
  | some k =>
    if !s.unitsOn c || k.state ≠ 2 then s
    else if k.wait then t
    else if k.touches addr.toNat then t.dmBus c ch addr.toNat
    else s

/-- DM_CHRONO_TRIGGER: the chronometer reaches START_TIME (R292). -/
def doDmChrono (c ch : Nat) (s : State) : State :=
  match s.chan c ch with
  | none => s
  | some k =>
    if !s.unitsOn c || k.state ≠ 1 || k.trigger ≠ 2 then s
    else (s.reach k.trigArg).setChan c ch { k with state := 2 }

/-- A PIPE channel looks at its pipe: it ends when the pipe is no longer bound, in whatever state it is, and one that waits runs when the
level has reached HIGH or a drain is set (R294). -/
def State.dmPipe (s : State) (c ch : Nat) : State :=
  match s.chan c ch with
  | none => s
  | some k =>
    if k.trigger ≠ 4 || k.state = 4 then s
    else
      match (tget? (s.cl c).pipes (bits k.trigArg.toNat 7 0)).filter (fun p => p.part == k.part) with
      | none => s.dmFinish c ch 0x0504
      | some p =>
        if k.state = 2 then s
        else if k.drain || decide (k.high ≤ p.entries.length) then (s.setChan c ch { k with state := 2 }).dmRunTo c ch else s

/-- Channels of a cluster that wait for host memory have their turns again; a PIPE channel goes on by itself. -/
def State.dmWake (s : State) (c : Nat) : State :=
  if (s.cl c).dm.any (fun e => e.2.wait) then
    let s1 := s.setCl c { s.cl c with dm := tmap (s.cl c).dm (fun _ k => { k with wait := false }) }
    ((s1.cl c).dm.filter (fun e => e.2.trigger == 4 && e.2.state == 2)).foldl (fun t e => t.dmRunTo c e.1) s1
  else s

def State.dmWakeAll (s : State) : State := s.cls.foldl (fun t e => t.dmWake e.1) s

/-- Every PIPE channel of a cluster that watches pipe `i`. -/
def State.dmWatch (s : State) (c i : Nat) : State :=
  ((s.cl c).dm.filter (fun e => e.2.trigger == 4 && bits e.2.trigArg.toNat 7 0 == i)).foldl (fun t e => t.dmPipe c e.1) s

/-! ### RUN and KICK (R289, R291–R295) -/

/-- A channel that has been loaded: a PIPE channel whose level already stands at HIGH runs (R294), and under a quiesce or a quench
of its partition no channel stays waiting (R297, R360).  That a RUN accepted under a quench ends with QUENCHED before its first
burst is a DESIGN CHOICE (log entry 31). -/
def State.dmLoaded (s : State) (c ch part : Nat) : State :=
  if (s.part part).quenched then s.dmFinish c ch 0x050B else (s.dmPipe c ch).dmWaits c ch

/-- RUN at its acceptance: the status when it completes at once.  The number of the channel is looked at before the descriptor, and
the descriptor's alignment with the rest of its checks (DESIGN CHOICE: R82 and R289 give no order; log entry 31).  A descriptor read
that meets a bus error is no burst of R298: the ticket ends with BUS_ERROR, with no retry and no E_DM_HALT (DESIGN CHOICE, log entry
31). -/
def State.dmRun (s : State) (c : Nat) (cmd : UnitCmd) : Option Word × State :=
  let ch := cmd.arg.toNat
  let u : UCtx := { agent := 5, sel := .cluster c, part := cmd.part, leg := cmd.leg, chan := ch }
  let at' := fun (code : Nat) (t : State) => (some (ticketCode code 0), t)
  if 63 < ch ∨ cmd.imm ≠ 0 then at' 0x0501 s
  else if 60 ≤ ch then at' 0x0503 s
  else if (s.chan c ch).isSome then at' 0x0502 s
  else
    match uRun (uDesc u cmd.desc.toNat 64 0x0501) s with
    | (.error e, s1) => at' (dmCode e) s1
    | (.ok b, s1) =>
      let d := DmD.ofBytes b
      let up := if d.trigger = 3 then s1.chan c d.after else none
      let upOk := match up with | some k => decide (k.leg = cmd.leg) | none => false
      let pipe := s1.pipeOf (BitVec.ofNat 64 d.arg) cmd.part
      if !dmDescOk ch b || (d.trigger == 3 && !upOk) then at' 0x0501 s1
      else
        let pipeBad := d.trigger == 4 && (match pipe with | some (pc, _, _) => pc != c | none => true)
        let highBad := d.trigger == 4 && (match pipe with | some (_, _, p) => decide (p.depth < d.high) | none => false)
        if pipeBad then at' 0x0504 s1
        else if highBad then at' 0x0501 s1
        else
          let upEnd := fun (ok : Bool) => match up with
            | some k => k.state == 4 && (k.status == 0) == ok
            | none => false
          let now := d.trigger == 0 || (d.trigger == 2 && decide (d.arg ≤ s1.now)) || (d.trigger == 3 && upEnd true)
          let halted := d.trigger == 3 && upEnd false
          let k : Channel :=
            { state := if now then 2 else 1, leg := cmd.leg, part := cmd.part, slot := cmd.slot, trigger := d.trigger, mode := d.mode,
              level := d.prio, afterCh := d.after, count := d.count, src := BitVec.ofNat 64 d.src, dst := BitVec.ofNat 64 d.dst,
              rowBytes := d.row, srcStride := BitVec.ofNat 64 d.srcStride, dstStride := BitVec.ofNat 64 d.dstStride,
              trigArg := BitVec.ofNat 64 d.arg, high := d.high, low := d.low, rows := 0, off := 0, pos := 0, item := none, buf := [],
              put := 0, wait := false, mid := false, retry := 0, drain := false, status := 0 }
          let s2 := s1.setChan c ch k
          if d.count = 0 then (some 0, s2.setChan c ch { k with state := 4 })
          else if halted then (some (ticketCode 0x0509 0), s2.setChan c ch { k with state := 4, status := 0x0509 })
          else (none, s2.dmLoaded c ch cmd.part)

/-- KICK: its status, and the state (R295). -/
def State.dmKick (s : State) (c : Nat) (cmd : UnitCmd) : Word × State :=
  if cmd.desc ≠ 0 ∨ cmd.imm ≠ 0 then (ticketCode 0x0501 0, s)
  else
    match s.chan c cmd.arg.toNat with
    | none => (ticketCode 0x050C 0, s)
    | some k =>
      if k.leg ≠ cmd.leg then (ticketCode 0x050C 0, s)
      else if k.trigger = 1 ∧ k.state = 1 then (0, s.setChan c cmd.arg.toNat { k with state := 2 })
      else if k.trigger = 4 ∧ k.state ≠ 4 then
        (0, (s.setChan c cmd.arg.toNat { k with drain := true }).dmPipe c cmd.arg.toNat)
      else (ticketCode 0x050C 0, s)

/-! ### Quench (R297) -/

/-- The burst in progress is finished; a bus error leaves it, since no further burst is issued, and so does a read of host memory that
has not returned (DESIGN CHOICE, log entry 31). -/
def State.dmBurstEnd (c ch : Nat) : Nat → State → State
  | 0, s => s
  | f + 1, s =>
    match s.chan c ch with
    | some k => if k.state = 2 && !k.buf.isEmpty && !k.wait then State.dmBurstEnd c ch f (s.dmBeat c ch) else s
    | none => s

/-- A number of turns of the arbiter. -/
def State.dmTurns (c : Nat) : Nat → State → State
  | 0, s => s
  | n + 1, s => match s.dmPick c with | some x => State.dmTurns c n (s.dmBeat c x) | none => s

/-- A channel of the partition finishes its burst and ends with QUENCHED; the row counts if that boundary is its end. -/
def State.dmQuenchOne (s : State) (c ch : Nat) : State :=
  let t := s.dmBurstEnd c ch 16
  match t.chan c ch with
  | some k => if k.state = 4 then t else t.dmFinish c ch 0x050B
  | none => t

/-- The running channels of p in one cluster: how far they have come when the quench takes effect is a free number of turns (log
entry 12). -/
def State.dmQuenchIn (s : State) (c p : Nat) : State :=
  let mine := (s.cl c).dm.filter (fun x => x.2.part == p && x.2.state == 2)
  if mine.isEmpty then s
  else
    let (n, s1) := s.free
    mine.foldl (fun t x => t.dmQuenchOne c x.1) (State.dmTurns c n s1)

/-- The channels of p that wait or are paused end at once, and the running ones at their burst boundary. -/
def State.dmQuench (s : State) (p : Nat) : State :=
  s.cls.foldl (fun t e => t.dmQuenchIn e.1 p) (s.dmCancelWhere (fun k => k.part = p) 0x050B)

def execDmChronoTrigger (c ch : Nat) (s : State) : Host.Outcome State Fault Refusal := .next (doDmChrono c ch s)
def execDmBusErrorRetry (c ch : Nat) (addr : Word) (s : State) : Host.Outcome State Fault Refusal := .next (doDmRetry c ch addr s)
def execDmChannelDone (c ch : Nat) (s : State) : Host.Outcome State Fault Refusal := .next (doDmDone c ch s)

end Sys2Proof.Machine
end

