-- ==== Sys2Proof/Machine/L2.lean ====
section
/-!
DEFINITION. Commands on a cluster's L2 (15): way configuration, the lines of pipes, maintenance operations, disabling and
draining, and the return of prefetch reads.
-/
namespace Sys2Proof.Machine

open Sys2Proof

/-! ### Way configuration (R330) -/

def Cluster.outside (w : Word) : Nat := (List.range 16).countP (fun i => decide (wayMode w i ≠ .normal))

/-- Writes back and invalidates every line of the ways. -/
def State.evictWays (s : State) (c : Nat) (ws : List Nat) : State :=
  ((s.cl c).l2.filter (fun e => ws.contains e.2.way)).foldl (fun t e => t.l2Evict c e.1) s

def doWayCfg (c : Nat) (w : Word) (s : State) : State :=
  if !s.unitsOn c then s
  else
    let k := s.cl c
    let v := w &&& 0xFFFFFFFF#64
    let bad := fun (i : Nat) =>
      (wayMode k.wayCfg i == .pipe && wayMode v i != .pipe && k.pipes.any (fun e => e.2.way == i))
      || (wayMode v i == .pipe && wayMode k.wayCfg i != .pipe && wayMode k.wayCfg i != .normal)
    if 12 < Cluster.outside v || (List.range 16).any bad || !k.waysOut.isEmpty then s.log 0x0804 c noPart 0
    else
      let out := (List.range 16).filter (fun i => wayMode k.wayCfg i == .normal && wayMode v i != .normal)
      s.setCl c { k with wayCfg := v, waysOut := out }

/-- L2_WAY_WRITEBACK_DONE: the ways that left NORMAL hold no line. -/
def doWayDone (c : Nat) (s : State) : State :=
  if !s.unitsOn c then s
  else
    let s1 := s.evictWays c (s.cl c).waysOut
    s1.setCl c { s1.cl c with waysOut := [] }

/-! ### Lines of pipes (R332) -/

def pipeLines (depthLog2 : Nat) : Nat := 2 ^ depthLog2 / 8

/-- The first set of way `w` with room for `n` lines. -/
def Cluster.pipeFit (k : Cluster) (w n : Nat) : Option Nat :=
  (List.range (2049 - n)).find? (fun a =>
    !k.pipes.any (fun e => e.2.way == w && rangesMeet e.2.set (pipeLines e.2.depthLog2) a n))

def Cluster.pipePlace (k : Cluster) (n : Nat) : Option (Nat × Nat) :=
  (List.range 16).findSome? (fun w =>
    if wayMode k.wayCfg w = .pipe then (k.pipeFit w n).map (fun a => (w, a)) else none)

def setMode (cfg : Word) (w m : Nat) : Word := (cfg &&& ~~~ (BitVec.ofNat 64 (3 * 4 ^ w))) ||| BitVec.ofNat 64 (m * 4 ^ w)

/-- Firmware converts the highest-numbered NORMAL way, and waits for its writeback. -/
def State.convertWay (s : State) (c : Nat) : Option State :=
  let k := s.cl c
  match ((List.range 16).filter (fun w => wayMode k.wayCfg w = .normal)).getLast? with
  | some w =>
    if 12 ≤ Cluster.outside k.wayCfg then none
    else
      let s1 := s.evictWays c [w]
      some (s1.setCl c { s1.cl c with wayCfg := setMode k.wayCfg w 2 })
  | none => none

def State.bindPipe (s : State) (p c i dl : Nat) : Option State :=
  let put := fun (t : State) (w a : Nat) =>
    let q : Pipe := { part := p, depthLog2 := dl, way := w, set := a, entries := [], head := 0, flaws := [] }
    t.setCl c { t.cl c with pipes := tput (t.cl c).pipes i q }
  match (s.cl c).pipePlace (pipeLines dl) with
  | some (w, a) => some (put s w a)
  | none =>
    match s.convertWay c with
    | some t => match (t.cl c).pipePlace (pipeLines dl) with
      | some (w, a) => some (put t w a)
      | none => none
    | none => none

def State.bindPipes (s : State) (p c dl : Nat) : List Nat → Option State
  | [] => some s
  | i :: t => match s.bindPipe p c i dl with | some u => u.bindPipes p c dl t | none => none

/-- Frees pipe `i`: its lines, and its way when it was the last there; channels under PIPE that watch it end (R294). -/
def State.unbindPipe (s : State) (c i : Nat) : State :=
  let k := s.cl c
  match tget? k.pipes i with
  | some q =>
    let ps := tdel k.pipes i
    let cfg := if ps.any (fun e => e.2.way == q.way) then k.wayCfg else setMode k.wayCfg q.way 0
    (s.setCl c { k with pipes := ps, wayCfg := cfg }).dmWatch c i
  | none => s

/-! ### Maintenance (R333–R335) -/

/-- Invalidates every line for which `f` holds: `g` says which lines of the L2 are concerned as well.  A prefetch read in flight for
such a line is not kept (R335). -/
def State.invWhere (s : State) (c : Nat) (f : Nat → Bool) (g : L2Line → Bool) : State :=
  let k := s.cl c
  let k1 := { k with l2 := k.l2.filter (fun e => !(f e.1 && g e.2)), side := k.side.filter (fun e => !f e.1),
                     fills := k.fills.filter (fun l => !f l),
                     flaws := k.flaws.filter (fun e => !(f e.1 && (match tget? k.l2 e.1 with | some x => g x | none => true))),
                     sideBad := k.sideBad.filter (fun l => !f l) }
  (s.setCl c k1).onPps c (fun p => { p with l1d := p.l1d.filter (fun e => !f e.1), l1i := p.l1i.filter (fun e => !f e.1) })

def State.maintRun (s : State) (c : Nat) (op : MaintOp) (line n : Nat) : State :=
  let rng := fun (l : Nat) => decide (line ≤ l ∧ l < line + n)
  match op with
  | .clean => (s.cleanWhere c rng).2
  | .invalidate => s.invWhere c rng (fun _ => true)
  | .cleanInv => (s.cleanWhere c rng).2.invWhere c rng (fun _ => true)
  | .cleanAll => (s.cleanWhere c (fun _ => true)).2
  | .invAll =>
    let cfg := (s.cl c).wayCfg
    s.invWhere c (fun _ => true) (fun e => wayMode cfg e.way != .locked)

def MaintOp.code : MaintOp → Nat
  | .clean => 0
  | .invalidate => 1
  | .cleanInv => 2
  | .cleanAll => 3
  | .invAll => 4

def MaintOp.ranged : MaintOp → Bool
  | .cleanAll => false
  | .invAll => false
  | _ => true

/-- GO of an operation on the lines from ADDR; one during a drain waits for DRAINED (R337). -/
def doMaint (c : Nat) (op : MaintOp) (addr : Word) (n : Nat) (s : State) : State :=
  if !s.unitsOn c then s
  else
    let k := s.cl c
    let line := addr.toNat % 2 ^ 48 / 64
    if !k.maintDone then s.log 0x0805 c noPart 0
    else
      let k1 := { k with maintAddr := BitVec.ofNat 64 (line * 64), maintOp := op.code, maintLines := n }
      if op.ranged && n = 0 then s.setCl c k1
      else if !k.drained then s.setCl c { k1 with maintDone := false, maintWait := some (op, line, n) }
      else (s.setCl c { k1 with maintDone := false }).maintRun c op line n

def doMaintDone (c : Nat) (s : State) : State :=
  if !s.unitsOn c || (s.cl c).maintWait.isSome then s else s.setCl c { s.cl c with maintDone := true }

/-! ### Disabling (R337) -/

def doL2Disable (c : Nat) (s : State) : State :=
  if !s.unitsOn c || !(s.cl c).l2En then s
  else
    (s.setCl c { s.cl c with l2En := false, drained := false }).onPps c (fun p => { p with l1d := [], l1i := [] })

/-- The end of a drain: no valid line is left outside PIPE ways, nor in an L1D (R325); a waiting maintenance operation starts. -/
def doDrainDone (c : Nat) (s : State) : State :=
  if !s.unitsOn c || (s.cl c).drained then s
  else
    let s1 := (s.cleanWhere c (fun _ => true)).2
    let s2 := (s1.setCl c { s1.cl c with l2 := [], side := [], flaws := [], sideBad := [], drained := true }).onPps c
      (fun p => { p with l1d := [] })
    match (s2.cl c).maintWait with
    | some (op, line, n) => State.maintRun (s2.setCl c { s2.cl c with maintWait := none }) c op line n
    | none => s2

def execL2WaycfgWrite (c : Nat) (w : Word) (s : State) : Host.Outcome State Fault Refusal := .next (doWayCfg c w s)
def execL2WayWritebackDone (c : Nat) (s : State) : Host.Outcome State Fault Refusal := .next (doWayDone c s)
def execClean (c : Nat) (addr : Word) (lines : Nat) (s : State) : Host.Outcome State Fault Refusal :=
  .next (doMaint c .clean addr lines s)
def execInvalidate (c : Nat) (addr : Word) (lines : Nat) (s : State) : Host.Outcome State Fault Refusal :=
  .next (doMaint c .invalidate addr lines s)
def execCleanInv (c : Nat) (addr : Word) (lines : Nat) (s : State) : Host.Outcome State Fault Refusal :=
  .next (doMaint c .cleanInv addr lines s)
def execCleanAll (c : Nat) (s : State) : Host.Outcome State Fault Refusal := .next (doMaint c .cleanAll (s.cl c).maintAddr (s.cl c).maintLines s)
def execInvAll (c : Nat) (s : State) : Host.Outcome State Fault Refusal := .next (doMaint c .invAll (s.cl c).maintAddr (s.cl c).maintLines s)
def execL2MaintDone (c : Nat) (s : State) : Host.Outcome State Fault Refusal := .next (doMaintDone c s)
def execL2Disable (c : Nat) (s : State) : Host.Outcome State Fault Refusal := .next (doL2Disable c s)
def execL2DrainDone (c : Nat) (s : State) : Host.Outcome State Fault Refusal := .next (doDrainDone c s)
/-- R327–R329: a prefetch read returns.  A demand fill returns with its access (log entry 10). -/
def execL2Fill (c : Nat) (line : Nat) (s : State) : Host.Outcome State Fault Refusal :=
  .next (if s.unitsOn c then s.sideFill c line else s)

end Sys2Proof.Machine
end

