-- ==== Sys2Proof/Machine/Ls.lean ====
section
/-!
DEFINITION. The leg scheduler (12): placement on ready and delay lists, room and quotas, the scheduler tick, and the start
or resumption of the leg in a next-slot, with the reads and the write made for it before its first instruction
(R51, R90, R101, R267, R268, R285).
-/
namespace Sys2Proof.Machine

open Sys2Proof

/-! ### Lists and room (R278, R282) -/

def offLsQuota : Nat := 0x10000

def State.lsQuota (s : State) : Nat := (tgetD s.regs offLsQuota 0x000FFFFF).toNat
def State.readyQuota (s : State) : Nat := bits s.lsQuota 7 0 + 1
def State.delayQuota (s : State) : Nat := bits s.lsQuota 19 8 + 1

/-- Entries on a list, and those of partition p. -/
def State.listUsed (s : State) (pl : LegPlace) : Nat := (s.legs.filter (fun e => e.2.place = pl)).length
def State.listOf (s : State) (pl : LegPlace) (p : Nat) : Nat :=
  (s.legs.filter (fun e => e.2.place = pl && e.2.entry.part = p)).length

def State.readyRoom (s : State) (p c : Nat) : Bool :=
  decide (s.listUsed (.ready c) < 256) && decide (s.listOf (.ready c) p < s.readyQuota)

def State.delayRoom (s : State) (p q : Nat) : Bool :=
  decide (s.listUsed (.delay q) < 4096) && decide (s.listOf (.delay q) p < s.delayQuota)

/-- The number with the least `key`, the lowest one of a tie. -/
def leastBy (key : Nat → Nat) : List Nat → Option Nat
  | [] => none
  | a :: t => match leastBy key t with
    | none => some a
    | some b => if key b < key a then some b else some a

/-- R279: the cluster whose ready list a leg goes to, when it has room; `cluster` 255 is any cluster that p holds. -/
def State.readyDest (s : State) (p cluster : Nat) : Option Nat :=
  if cluster ≠ 255 then (if s.readyRoom p cluster then some cluster else none)
  else leastBy (fun c => s.listOf (.ready c) p)
    ((List.range 64).filter (fun c => (s.part p).clusters.getLsbD c && s.readyRoom p c))

/-- Free entries of a delay list within p's quota. -/
def State.delayFree (s : State) (p q : Nat) : Nat :=
  min (4096 - s.listUsed (.delay q)) (s.delayQuota - s.listOf (.delay q) p)

/-- R279: the quadrant whose delay list a leg goes to, when it has room. -/
def State.delayDest (s : State) (p cluster : Nat) : Option Nat :=
  if cluster ≠ 255 then (if s.delayRoom p (quadrant cluster) then some (quadrant cluster) else none)
  else if (s.part p).clusters = 0 then none
  else leastBy (fun q => 4096 - s.delayFree p q) ((List.range 4).filter (s.delayRoom p))

/-- R280: ⌈RELEASE_TIME / 1,000 ns⌉. -/
def LegEntry.releaseTick (e : LegEntry) : Nat := cdiv e.releaseTime 1000

/-! ### Placement (R279) -/

def Leg.ofEntry (e : LegEntry) (pl : LegPlace) (home order : Nat) : Leg :=
  { entry := e, place := pl, home := home, order := order, started := false, stopped := false, hold := none, holdOver := false,
    used := 0, usedAtOpen := 0, charge := 0, snapshot := 0, startStamp := 0, batchSeq := 0, carries := 0, tickets := [],
    retire := [], batches := [], stagedRows := [], outs := [], resv := none, resvOrder := 0, wpSlot := none, waypoint := none,
    status := 0, userCode := 0, closeStamp := 0 }

def State.addLeg (s : State) (g : Leg) : State :=
  { s with legs := tput s.legs s.nextLeg g, nextLeg := s.nextLeg + 1, order := s.order + 1 }

/-- R279, R282: the LS accepts an entry and places it, or refuses it for want of room. -/
def State.placeEntry (s : State) (e : LegEntry) : Option State :=
  if e.release && decide (s.now / 1000 < e.releaseTick) then
    (s.delayDest e.part e.cluster).map (fun q => s.addLeg (Leg.ofEntry e (.delay q) q s.order))
  else
    (s.readyDest e.part e.cluster).map (fun c => (s.addLeg (Leg.ofEntry e (.ready c) c s.order)).letIn c)

/-! ### The scheduler tick (R280) -/

/-- Matured entries of a delay list, in list order. -/
def State.matured (s : State) (q k : Nat) : List (Nat × Leg) :=
  sortBy (fun e => e.2.entry.releaseTick) (sortBy (fun e => e.2.order)
    (s.legs.filter (fun e => e.2.place = .delay q && decide (e.2.entry.releaseTick ≤ k))))

/-- R279, R280: the cluster for a matured entry: not one whose list had no room for an earlier entry. -/
def State.matureDest (s : State) (full : List Nat) (p cluster : Nat) : Option Nat :=
  if cluster ≠ 255 then (if s.readyRoom p cluster && !full.contains cluster then some cluster else none)
  else leastBy (fun c => s.listOf (.ready c) p)
    ((List.range 64).filter (fun c => (s.part p).clusters.getLsbD c && s.readyRoom p c && !full.contains c))

/-- Moves one matured entry; one without room keeps its cluster from later entries (R280). -/
def matureOne (a : List Nat × State) (e : Nat × Leg) : List Nat × State :=
  let (full, s) := a
  match s.matureDest full e.2.entry.part e.2.entry.cluster with
  | some c =>
      let s1 := s.setLeg e.1 { e.2 with place := .ready c, home := c, order := s.order }
      (full, { s1 with order := s.order + 1 })
  | none => (if e.2.entry.cluster = 255 then full else setAdd full e.2.entry.cluster, s)

/-- SCHEDULER_TICK: the next multiple of 1,000 ns.  Nothing matures between a tick and the opening of the epoch (R286). -/
def doSchedTick (s : State) : State :=
  if s.frozen then s
  else
    let k := max (s.now / 1000) (s.schedTick + 1)
    let s1 := { s.reach (BitVec.ofNat 64 (k * 1000)) with schedTick := k }
    if s1.fc.ticking && !s1.fc.open' then s1
    else State.admitAll ((List.range 4).foldl (fun t q => ((t.matured q k).foldl matureOne ([], t)).2) s1)

/-! ### Before the first instruction (R51, R267, R268) -/

def fetcherCtx (g : Leg) : FaultCtx :=
  { part := g.entry.part, sq := g.entry.sq, seq := g.entry.seq, agent := 8, cluster := 0xFF, pp := 0xFF }

/-- One line of the argument block, written for the leg by the queue fetcher (agent 8): the status of a write that fails, its fault
recorded.  A line held poisoned is not written (R338); that the leg then ends with MEMORY_ERROR is DEDUCED (log entry 34). -/
def State.inlineLine (s : State) (g : Leg) (c va : Nat) (bs : List Byte) : Option Nat × State :=
  let fail := fun (f : XFault) (t : State) => (some 0x09, t.faultRecord (fetcherCtx g) f true false va)
  match (s.xlatUse g.entry.part).xlateUnit .io g.entry.part va needW with
  | (.error f, s1) => fail f s1
  | (.ok x, s1) =>
    let refused := XFault.plain xcRefused (x.reached va)
    if x.vcol then fail refused s1
    else
      let d := x.out va
      match s1.dpaRefused g.entry.part noInst d with
      | (true, s2) => fail refused s2
      | (false, s2) =>
        match region s2 d with
        | .host =>
          match s2.hostPost (s2.part g.entry.part).hostPort (some (s2.part g.entry.part).pasid) (d - hostBase) bs with
          | (true, s3) => (none, s3)
          | (false, s3) => fail refused s3
        | _ =>
          match s2.l2Meets c (d / 64) with
          | (true, s3) => (some 0x0A, s3)
          | (false, s3) => (none, s3.l2Store c (256 + 8) d bs false)

/-- R267: the 128-byte block into the first 128 B of the scratch range; the status of a write that failed. -/
def State.inlineWrite (s : State) (g : Leg) (c : Nat) : Option Nat × State :=
  if !g.entry.inl then (none, s)
  else
    let a := g.entry.scratch.toNat
    match s.inlineLine g c a (g.entry.inlineBlk.take 64) with
    | (some st, s1) => (some st, s1)
    | (none, s1) => s1.inlineLine g c (a + 64) (g.entry.inlineBlk.drop 64)

/-- A read that firmware makes for the leg: the status that ends it, or the bytes. -/
def State.legRead (s : State) (n : Nat) (g : Leg) (va len : Nat) : Except Nat (List Byte) × State :=
  match s.fwRead n g.entry.part va len with
  | (.ok bs, s1) => (.ok bs, s1)
  | (.fault f, s1) => (.error 0x09, s1.faultRecord (legCtx g n) f false false va)
  | (.bad, s1) => (.error 0x0A, s1)

def bsZero (bs : List Byte) : Bool := bs.all (· == 0)

def OutDesc.ofBytes (b : List Byte) : OutDesc :=
  { kind := fld b 0 1, rowRetire := bit (fld b 1 1) 0, addr := BitVec.ofNat 64 (fld b 8 8), bytes := BitVec.ofNat 64 (fld b 16 8),
    bvt := BitVec.ofNat 64 (fld b 24 8), batchCap := fld b 32 4, rowCap := fld b 36 4, rrc := BitVec.ofNat 64 (fld b 40 8) }

/-- R268: the table of an output descriptor holds. -/
def outDescOk (b : List Byte) : Bool :=
  let d := OutDesc.ofBytes b
  decide (d.kind ≤ 1) && decide (fld b 1 1 ≤ 1) && (!d.rowRetire || d.kind == 1) && bsZero ((b.drop 2).take 6)
  && decide (d.addr.toNat % 64 = 0) && decide (d.bytes.toNat % 64 = 0) && decide (d.bytes ≠ 0)
  && (if d.kind = 1 then decide (d.bvt.toNat % 16 = 0) && decide (d.bvt ≠ 0) && decide (1 ≤ d.batchCap)
      else decide (d.bvt = 0) && decide (d.batchCap = 0))
  && (if d.rowRetire then decide (1 ≤ d.rowCap) && decide (d.rrc.toNat % 8 = 0) && decide (d.rrc ≠ 0)
      else decide (d.rowCap = 0) && decide (d.rrc = 0))
  && bsZero ((b.drop 48).take 16)

def State.readOutDescs (s : State) (n : Nat) (g : Leg) (va : Nat) : Nat → Except Nat (List OutDesc) × State
  | 0 => (.ok [], s)
  | k + 1 =>
    match s.legRead n g va 64 with
    | (.error e, s1) => (.error e, s1)
    | (.ok b, s1) =>
      if !outDescOk b then (.error 0x13, s1)
      else
        match s1.readOutDescs n g (va + 64) k with
        | (.ok r, s2) => (.ok (OutDesc.ofBytes b :: r), s2)
        | r => r

/-- R268: the output descriptor table as firmware reads it. -/
def State.readOuts (s : State) (n : Nat) (g : Leg) : Except Nat (List OutDesc) × State :=
  let a := g.entry.outdesc.toNat
  if a = 0 then (.ok [], s)
  else
    match s.legRead n g a 64 with
    | (.error e, s1) => (.error e, s1)
    | (.ok h, s1) =>
      if 64 < fld h 0 2 || !bsZero (h.drop 2) then (.error 0x13, s1)
      else s1.readOutDescs n g (a + 64) (fld h 0 2)

def never : Nat := 0xFFFFFFFFFFFFFFFF

/-- R51: the snapshot that the leg reads as of. -/
def State.readSnapshot (s : State) (n : Nat) (g : Leg) : Except Nat Word × State :=
  let a := g.entry.indesc.toNat
  if a = 0 then (.ok s.fc.sealed, s)
  else
    match s.legRead n g a 64 with
    | (.error e, s1) => (.error e, s1)
    | (.ok h, s1) =>
      let f := fld h 8 8
      if f = never then (.ok s1.fc.sealed, s1)
      else if s1.fc.sealed.toNat < f then (.error 0x04, s1)
      else (.ok (BitVec.ofNat 64 f), s1)

/-! ### Entry and resumption (R46, R48, R90, R101) -/

/-- CSR LEGID. -/
def legId (e : LegEntry) : Word := BitVec.ofNat 64 (e.seq.toNat + e.sq % 8192 * 2 ^ 32 + e.part % 512 * 2 ^ 48)

/-- End of the scratch range, or zero. -/
def LegEntry.scratchEnd (e : LegEntry) : Word := if e.scratch = 0 then 0 else e.scratch + BitVec.ofNat 64 e.scratchBytes

/-- Pilot CSRs of the PP, which no leg changes. -/
def Pp.pilotCsr (p : Pp) : Table Word :=
  let c := p.csr.filter (fun e => decide (32 ≤ e.1))
  match tget? c csrPSTATUS with
  | some w => tput c csrPSTATUS (w &&& ~~~ 1#64)
  | none => c

/-- The PP at a leg's first instruction (R90, R101). -/
def Pp.enter (p : Pp) (l : Nat) (e : LegEntry) (snap now : Word) : Pp :=
  let csr := tput (tput (tput (tput (tput (tput (tput p.pilotCsr csrLEGID (legId e)) csrARGP e.args) csrINDESC e.indesc)
    csrOUTDESC e.outdesc) csrSNAPSHOT snap) csrBUDGET (e.budget.setWidth 64)) csrSTART now
  { p with mode := .leg, running := some l, pc := e.code,
           x := tput (tput (tput (tput [] 1 e.args) 2 e.indesc) 3 e.outdesc) 31 e.scratchEnd,
           v := [], m := [], vl := 0, vcfg := 0, vresume := 0, vfault := 0, csr := csr, blocked := .none, stopPend := false }

def vregOf (bs : List Byte) : VReg := BitVec.ofNat 2048 (leNat bs)

def tableOf {α : Type} (n : Nat) (f : Nat → α) : Table α := (List.range n).map (fun i => (i, f i))

/-- R48: a waypoint record as memory holds it. -/
def Waypoint.ofBytes (b : List Byte) : Waypoint :=
  { pc := BitVec.ofNat 64 (fld b 8 8), budgetLeft := fld b 16 4, carries := fld b 20 2, flags := fld b 22 2,
    snapshot := BitVec.ofNat 64 (fld b 24 8), startStamp := BitVec.ofNat 64 (fld b 32 8),
    stopStamp := BitVec.ofNat 64 (fld b 40 8), vl := BitVec.ofNat 32 (fld b 48 4), vcfg := BitVec.ofNat 32 (fld b 52 4),
    vresume := BitVec.ofNat 32 (fld b 56 4), vfault := BitVec.ofNat 32 (fld b 60 4),
    x := tableOf 32 (fun i => BitVec.ofNat 64 (fld b (64 + 8 * i) 8)),
    csr := tableOf 32 (fun i => BitVec.ofNat 64 (fld b (320 + 8 * i) 8)),
    v := tableOf 32 (fun i => vregOf ((b.drop (576 + 256 * i)).take 256)),
    m := tableOf 8 (fun i => vregOf ((b.drop (8768 + 256 * i)).take 256)) }

/-- The PP with the registers of a waypoint. -/
def Pp.resume (p : Pp) (l : Nat) (w : Waypoint) : Pp :=
  { p with mode := .leg, running := some l, pc := w.pc, x := w.x, v := w.v, m := w.m, vl := w.vl, vcfg := w.vcfg,
           vresume := w.vresume, vfault := w.vfault, csr := w.csr ++ p.pilotCsr, blocked := .none, stopPend := false }

/-- Resumes leg `l` on PP `n` from its record, read through one of firmware's mover channels (R288); a line of it that cannot be
returned ends the leg (log entry 7). -/
def State.resumeLeg (s : State) (n l : Nat) : State :=
  match s.leg? l with
  | some g =>
    match g.wpSlot with
    | some (c, k) =>
      match s.wpRead (ppCluster n) (waypointBase c k) 12288 with
      | (none, s1) => s1.errLeg l 0x0A 0
      | (some bs, s1) =>
        (s1.setLeg l { g with place := .running n, stopped := false, waypoint := none }).setPp n ((s1.pp n).resume l (Waypoint.ofBytes bs))
    | none => s
  | none => s

/-- The start of a leg that has not yet run. -/
def State.enterLeg (s : State) (n l : Nat) (g : Leg) : State :=
  match s.inlineWrite g (ppCluster n) with
  | (some st, s1) => s1.errLeg l st 0
  | (none, s1) =>
    match s1.readOuts n g with
    | (.error e, s2) => s2.errLeg l e 0
    | (.ok outs, s2) =>
      match s2.readSnapshot n g with
      | (.error e, s3) => s3.errLeg l e 0
      | (.ok snap, s3) =>
        let s4 := s3.setPp n (Pp.enter { s3.pp n with nextSlot := none } l g.entry snap s3.fc.chrono)
        match s4.leg? l with
        | some g4 =>
          let g5 := { g4 with place := .running n, started := true, outs := outs, snapshot := snap, startStamp := s4.fc.chrono }
          (s4.setLeg l g5).letIn (ppCluster n)
        | none => s4

/-- LEG_START: the leg of a next-slot, charged for the running epoch, moves to the empty running slot (R285). -/
def doLegStart (n : Nat) (s : State) : State :=
  let p := s.pp n
  match p.nextSlot with
  | some l =>
    match s.leg? l with
    | some g =>
      if !s.ppIdle n || g.charge = 0 then s
      else if g.started then
        (State.resumeLeg (s.setPp n { p with nextSlot := none }) n l).letIn (ppCluster n)
      else s.enterLeg n l g
    | none => s
  | none => s

/-- The reads that firmware and the queue fetcher make for the leg may go to host memory (R51, R267, R268). -/
def execLegStart (pp : Nat) (s : State) : Host.Outcome State Fault Refusal :=
  .next (s.settle [.pp pp, .walk (ppCluster pp), .walk 64] (doLegStart pp))

end Sys2Proof.Machine
end

