-- ==== Sys2Proof/Machine/Fc.lean ====
section
/-!
DEFINITION. The fix coordinator (02): ticks, the cut, staging and close, the seal of a fix and the release of its completions,
the opening of an epoch, and the two-phase fix of a chain (R61–R63, R400–R403).
-/
namespace Sys2Proof.Machine

open Sys2Proof

/-! ### Chain messages (R396) -/

def tickBody (n stamp lenUs units : Nat) (ring last : Bool) (members : BitVec 16) (lost : Nat) : List Byte :=
  leBytes 8 n ++ leBytes 8 stamp ++ leBytes 2 lenUs ++ leBytes 1 units ++ leBytes 1 (b2n ring + 2 * b2n last)
    ++ leBytes 2 members.toNat ++ leBytes 1 lost ++ zeros 3

def fixReadyBody (n legs : Nat) : List Byte := leBytes 8 n ++ leBytes 4 legs ++ zeros 4

def fixBody (n : Nat) (carry : Bool) (lost : Nat) (members : BitVec 16) : List Byte :=
  leBytes 8 n ++ leBytes 1 (b2n carry) ++ leBytes 1 lost ++ leBytes 2 members.toNat ++ zeros 4

def popBits (m : BitVec 16) : Nat := (List.range 16).countP (fun i => m.getLsbD i)

def State.isMember (s : State) : Bool := s.inChain && decide (s.chain.mode = 2)
def State.orphan (s : State) : Bool := decide (s.chain.status = 4)

/-- R398: the head broadcasts TICK of the running epoch; a pending set is then older than that message (R399). -/
def State.sendTick (s : State) : State :=
  let last := s.failStopped || (match s.fc.pending with | some (e, _) => !e.run | none => false)
  let f := s.fc
  let pend := f.pending.map (fun (x : EpochSet × Bool) => (x.1, true))
  State.sendMsg { s with fc := { f with tickLast := last, pending := pend }, chain := { s.chain with fresh := false } } 1 0xFF
    (tickBody f.epoch f.nextTick.toNat f.epochLen s.chain.units s.chain.ring last s.chain.members f.live.lostFixes)

/-! ### EPOCH_APPLY (R34, R35) -/

def EpochSet.deadlineOk (e : EpochSet) : Bool :=
  decide (1000 ≤ e.deadline ∧ e.deadline ≤ 65535) && decide (2 * e.deadline < e.lenUs * 1000)
  && decide (1 ≤ e.lostFixes ∧ e.lostFixes ≤ 15)

/-- The check of R34 on the shadow of group EPOCH. -/
def State.epochOk (s : State) : Bool :=
  let e := s.fc.sh
  decide ((if s.inChain && decide (2 ≤ s.chain.units) then 20 else 10) ≤ e.lenUs ∧ e.lenUs ≤ 1000) && (!s.inChain || e.deadlineOk)
  && e.share.all (fun x => decide (x.2 ≤ 1000))
  && !(!e.run && s.fc.live.run && s.parts.any (fun x => x.2.exist && !x.2.quiesced))

def State.quiescing (s : State) (p : Nat) : Bool := (s.part p).quiesce.isSome || (s.part p).quiesced

/-- R46: a leg held by a quiesce that has been lifted since the previous opening. -/
def State.holdEnds (s : State) (g : Leg) : Bool := g.hold == some .quiesce && !g.holdOver && !s.quiescing g.entry.part

def LegPlace.held? : LegPlace → Bool
  | .held _ => true
  | _ => false

/-- A leg that was stopped at a tick and whose waypoint has been captured, on its PP. -/
def Leg.stoppedOn (g : Leg) : Option Nat :=
  match g.place with
  | .running n => if g.stopped then some n else none
  | _ => none

/-- The opening of an epoch: every carried leg is charged and resumes, one whose cut is still under way when its cut is done
(`doCutDone`), unless its partition quiesces and the cut will hold it; then come the held legs of partitions resumed since the previous opening, and the admission passes, which charge the
legs left in next-slots first (R286).  A leg whose resumption fails frees its cycles before the passes. -/
def State.openLegs (s : State) : State :=
  let carried := s.legs.filter (fun e => match e.2.stoppedOn with
    | some n => (s.pp n).mode = .pilot || !(s.quiescing e.2.entry.part)
    | none => false)
  let s1 := carried.foldl (fun t e =>
    match (t.leg? e.1).bind (fun g => g.stoppedOn.map (fun n => (n, g))) with
    | some (n, g) => t.chargeLeg e.1 n (min g.left t.cap)
    | none => t) s
  let s2 := carried.foldl (fun t e =>
    match (t.leg? e.1).bind Leg.stoppedOn with
    | some n => if (t.pp n).mode = .pilot then t.resumeLeg n e.1 else t
    | none => t) s1
  let ended := sortBy (fun (e : Nat × Leg) => e.2.order) (s2.legs.filter (fun e => e.2.place.held? && s2.holdEnds e.2))
  let s3 := { s2 with fc := { s2.fc with open' := true },
                      legs := tmap s2.legs (fun _ g => if s2.holdEnds g then { g with holdOver := true } else g) }
  let s4 := ended.foldl (fun t e =>
    match t.leg? e.1 with
    | some g =>
      match (if t.failStopped then none else t.choosePp g.home (min g.left t.cap)) with
      | some n => t.admitTo e.1 g n (min g.left t.cap)
      | none => t
    | none => t) s3
  s4.admitAll

/-- R35: ticks start at once.  The first epoch opens with the held legs of partitions that have been resumed (R46). -/
def State.startTicking (s : State) (e : EpochSet) : State :=
  let f := s.fc
  let n := f.sealed.toNat + 1
  let s1 := { s with
    fc := { f with live := e, pending := none, applyErr := false, ticking := true, epoch := n, epochLen := e.lenUs, capMhz := f.cclk,
                   open' := false, lastTick := f.chrono, nextTick := f.chrono + BitVec.ofNat 64 (e.lenUs * 1000), tickLast := false,
                   tickHeld := false },
    pps := tmap s.pps (fun _ p => { p with charged := 0 }),
    legs := tmap s.legs (fun _ g => { g with charge := 0 }) }
  (if s1.isHead then s1.sendTick else s1).openLegs

/-- R390: a member that waits for the token ticks not at all: a set that passes waits as the pending set. -/
def State.waitsEnum (s : State) : Bool := decide (s.chain.mode = 2) && decide (s.chain.status = 1)

/-- EPOCH_APPLY.  APPLY_ERR says whether the last APPLY failed, so one that passes clears it (log entry 30). -/
def doEpochApply (s0 : State) : State :=
  let s := s0.epochUse false
  if s0.frozen then s0
  else if !s.epochOk then
    State.log { s with fc := { s.fc with applyErr := true } } 0x0101 noInst noPart 0
  else if !s.fc.ticking && s.fc.sh.run && !s.isMember && !s.orphan && !s.waitsEnum then
    State.startTicking { s with parityLive := s.parityLive.filter (fun w => !epochWord w) } s.fc.sh
  else { s with fc := { s.fc with pending := some (s.fc.sh, false), applyErr := false } }

/-! ### The tick (R43, R52, R484) -/

/-- A leg back at the head of its level (R360); what its waypoint holds stays with its entry (log entry 30). -/
def State.toReadyHead (s : State) (l c n : Nat) (g : Leg) : State :=
  let legs := tmap s.legs (fun _ x => if legOnReady c x then { x with order := x.order + 1 } else x)
  let g1 := { g with place := .ready c, home := c, order := 0, resv := none, wpSlot := none, charge := 0 }
  { s with legs := tput legs l g1, order := s.order + 1, pps := tput s.pps n { s.pp n with nextSlot := none } }

/-- A held leg (R46). -/
def State.toHeld (s : State) (l c : Nat) (g : Leg) (k : HoldKind) (carry : Bool) : State :=
  let g1 := { g with place := .held c, home := c, order := s.order, hold := some k, holdOver := carry, stopped := false, charge := 0 }
  { s with legs := tput s.legs l g1, order := s.order + 1 }

/-- What the tick does to one leg before the clusters cut (R43, R360): the cycles of a leg that it stops count up to here.  After the
last tick no leg stays in a next-slot (R287). -/
def tickLeg (last : Bool) (s : State) (l : Nat) : State :=
  match s.leg? l with
  | none => s
  | some g0 =>
    let g := { g0 with charge := 0, usedAtOpen := g0.used }
    match g.place with
    | .running n =>
      let p := s.pp n
      if g.stopped then s.setLeg l g
      else if p.mode = .leg && !p.dbg.stops then
        let s1 := s.sample n
        let g1 := g.fromPp (s1.pp n)
        s1.setLeg l { g1 with stopped := true, usedAtOpen := g1.used }
      else (s.setLeg l g).setPp n { p with stopPend := true }
    | .next n => if s.quiescing g.entry.part || s.orphan || last then s.toReadyHead l (ppCluster n) n g else s.setLeg l g
    | _ => s.setLeg l g

def LegPlace.inPp : LegPlace → Option Nat
  | .running n => some n
  | .next n => some n
  | _ => none

/-- R277, R281: at the tick of a fail-stop the lists are discarded and running legs are not carried. -/
def State.tickDiscard (s : State) : State :=
  let gone := s.legs.filter (fun e => e.2.place.onList || e.2.place.inPp.isSome)
  let s1 := s.dropLegs (gone.map (·.1))
  gone.foldl (fun t e => match e.2.place with
    | .running n => t.freePp n
    | .next n => t.setPp n { t.pp n with nextSlot := none }
    | _ => t) s1

/-- PM.SAG_CFG.THROTTLE_MHZ in MHz. -/
def offSagCfg : Nat := 0x90000
def sagCfgReset : Word := 0x398 + 0x370 * 0x400 + 0xA * 0x100000 + 0x2000000
def State.throttleMhz (s : State) : Nat := bits (tgetD s.regs offSagCfg sagCfgReset).toNat 24 20 * 100

/-- R476, R478: step-down temperature of reading `i`, in 0.1 °C. -/
def stepDown (i : Nat) : Int := if i < 3 then 1000 else 950

/-- R26, R28, R478: the power manager's CCLK for the epoch that begins at this tick, before the throttle.  Whether the
package leaves room for a rise above 1.8 GHz is a free value (log entry 12). -/
def State.nextBase (s : State) : Nat × State :=
  let ts := s.pm.temps.zipIdx
  let b := s.pm.cclkBase
  if ts.any (fun (x : Int × Nat) => decide (stepDown x.2 < x.1)) then (max 1000 (b - 100), s)
  else if b < 1800 then
    (if ts.all (fun (x : Int × Nat) => decide (x.1 ≤ stepDown x.2 - 50)) then min 1800 (b + 100) else b, s)
  else if s.pm.powerDw < 7600 then
    let (k, s1) := s.free
    (if k % 2 = 1 then min 2000 (b + 100) else 1800, s1)
  else (1800, s)

/-- R26, R422, R423, R478. -/
def State.tickClock (s : State) : State :=
  let (b, s1) := s.nextBase
  let f := if s1.pm.throttled && !s1.pm.pfail then min b s1.throttleMhz else b
  { s1 with pm := { s1.pm with cclkBase := b }, fc := { s1.fc with cclk := f, capMhz := f } }

def allClusters (s : State) : List Nat := (List.range 64).filter (fun c => !s.pm.gated.contains (c / 16))

/-- A TICK that came before the unit's own tick is held now (R398). -/
def State.takeEarly (s : State) : State :=
  match s.fc.tickEarly with
  | some (n, stamp, len, last, lost) =>
    if n = s.fc.epoch then
      { s with fc := { s.fc with nextTick := stamp, epochLen := len, tickHeld := true, tickLast := last, lostFixes := lost,
                                 tickEarly := none } }
    else { s with fc := { s.fc with tickEarly := none } }
  | none => s

/-- After the last fix: ticking ends; a fail-stop abandons the administrative commands in progress (R35, R277). -/
def State.endTicking (s : State) : State :=
  let s1 := { s with fc := { s.fc with ticking := false, open' := false } }
  if s1.failStopped then
    { s1 with admin := { s1.admin with resv := s1.admin.waiting.length },
              parts := tmap s1.parts (fun p q => { q with
                quiesce := none, quenching := [], quenchGo := q.quenchGo && s1.quenchWait == some p }) }
  else s1

/-- Tick N of an engine that ticks; `late` when a member ticks without TICK(N) (R398).  The FC uses its live set, or the one that it takes
(R417). -/
def State.tick (sa : State) : State :=
  let s0 := sa.epochUse true
  let f0 := s0.fc
  let n := f0.epoch
  let live := match f0.pending with
    | some (e, older) => if s0.isHead && !older then none else some e
    | none => none
  let set := live.getD f0.live
  let last := s0.failStopped || (if s0.isMember then f0.tickLast else (s0.isHead && f0.tickLast) || !set.run)
  let s1 := (s0.reach f0.nextTick)
  let s2 := s1.legs.foldl (fun t e => tickLeg last t e.1) s1
  let s3 := { s2 with pps := tmap s2.pps (fun _ p => { p with charged := 0 }) }
  let s4 := if s3.failStopped then s3.tickDiscard else s3
  let len := if s0.isMember then f0.epochLen else set.lenUs
  let fixIn := tget? f0.fixEarly n
  let x : Fix :=
    { tickStamp := f0.nextTick, lenUs := f0.epochLen, cut := allClusters s4, carriedLegs := 0, newSet := live.isSome,
      readySent := false, fixIn := fixIn, last := last }
  let f := s4.fc
  let s5 := { s4 with
    parityLive := if live.isSome then s4.parityLive.filter (fun w => !epochWord w) else s4.parityLive,
    fc := { f with live := set, pending := if live.isSome then none else f0.pending, fixes := tput f.fixes n x, epoch := n + 1,
                   epochLen := len, open' := false, lastTick := f0.nextTick,
                   nextTick := f0.nextTick + BitVec.ofNat 64 (len * 1000), tickLast := false, tickHeld := false,
                   fixEarly := tdel f.fixEarly n, noFix := if s0.isMember then f.noFix + 1 else f.noFix } }
  let s6 := State.takeEarly s5.tickClock
  if last && s6.fc.noSeal then State.endTicking { s6 with fc := { s6.fc with fixes := [] } }
  else if s6.isHead && !last then s6.sendTick else s6

/-- R401: at its next tick an orphaned unit only cuts, and ticking ends.  Its legs are held as by a quiesce (R47, R361; log entry
30), and a fail-stopped one discards them (R281). -/
def State.orphanTick (s0 : State) : State :=
  let s1 := s0.reach s0.fc.nextTick
  let cut := s1.legs.foldl (fun t e => tickLeg true t e.1) s1
  let s2 := if cut.failStopped then cut.tickDiscard else cut
  let x : Fix :=
    { tickStamp := s0.fc.nextTick, lenUs := s0.fc.epochLen, cut := allClusters s2, carriedLegs := 0, newSet := false,
      readySent := true, fixIn := none, last := true }
  { s2 with fc := { s2.fc with fixes := tput s2.fc.fixes s0.fc.epoch x, ticking := false, open' := false } }

/-- Ticks go on until the last one has fallen. -/
def State.tickDue (s : State) : Bool := s.fc.ticking && !s.frozen && !s.fc.fixes.any (fun e => e.2.last)

def doEpochTick (s : State) : State :=
  if !s.tickDue then s
  else if s.orphan then s.orphanTick
  else if s.isMember && !s.fc.tickHeld then s
  else s.tick

/-- TICK_LATE: P(N) is reached without TICK(N) (R398). -/
def doTickLate (s : State) : State :=
  if !s.tickDue || !s.isMember || s.fc.tickHeld then s
  else (s.tick).log 0x0C06 noInst noPart 0

/-! ### Opening an epoch (R46, R286) -/

def State.openEpoch (s : State) : State :=
  if s.fc.open' || !s.fc.ticking || s.orphan || s.fc.fixes.any (fun e => e.2.last) then s else s.openLegs

def doEpochOpenTimeout (s : State) : State :=
  if s.inChain && s.fc.ticking && !s.fc.open' && !s.frozen then
    State.openEpoch (s.reach (s.fc.lastTick + 2000))
  else s

/-! ### The cut (R42, R43, R95) -/

/-- Firmware's STOP on a PP whose leg is in leg mode: the trap and the waypoint.  A host load in flight is abandoned (R42). -/
def State.stopPp (s : State) (n l : Nat) (stamp : Word) : State :=
  let p := s.pp n
  let s1 := s.capture n l p.pc p.blocked.onPipe
  s1.setPp n ((s1.pp n).takeTrap trapStop stamp)

/-- R48: a carry of a leg that the opening of no epoch has resumed. -/
def State.recarry (s : State) (l : Nat) : State :=
  match s.leg? l with
  | some g =>
    match g.wpSlot with
    | some (c, k) =>
      let d := waypointBase c k
      let carries := satInc g.carries 65535
      let w := fun (t : State) (o n v : Nat) => t.dmStores g.home (d + o) (leBytes n v) 2
      (w (w (w s 20 2 carries) 40 8 s.now) (320 + 8 * csrCARRIES) 8 carries).setLeg l
        { g with carries := carries, waypoint := g.waypoint.map (fun x => { x with carries := carries, stopStamp := s.fc.chrono,
                                                                                   csr := tput x.csr csrCARRIES (BitVec.ofNat 64 carries) }) }
    | none => s
  | none => s

/-- A captured leg of a partition that quiesces, or of an orphaned unit, is held, and its PP is free (R360, R401). -/
def State.holdIfQuiescing (s : State) (n l : Nat) : State :=
  match s.leg? l with
  | some g =>
    if s.quiescing g.entry.part || s.orphan then State.toHeld (s.freePp n) l (ppCluster n) g .quiesce false else s
  | none => s

/-- One PP of a cluster at the cut; answers whether a waypoint was captured. -/
def State.cutPp (s : State) (n : Nat) (stamp : Word) : Nat × State :=
  match (s.pp n).running with
  | some l =>
    match s.leg? l with
    | some g =>
      if !g.stopped then (0, s)
      else
        let s1 := if (s.pp n).mode = .leg then s.stopPp n l stamp else s.recarry l
        (1, s1.holdIfQuiescing n l)
    | none => (0, s)
  | none => (0, s)

/-- A PP of the cluster still waits for a load from a page with DEVICE = 1 that it issued before the tick (R42); any other load is
abandoned and made again at resume. -/
def State.cutWaits (s : State) (c : Nat) : Bool :=
  (List.range 4).any (fun i =>
    let p := s.pp (4 * c + i)
    p.mode = .leg && p.blocked = .hostLoad && p.hostDev && (match p.running with
      | some l => (match s.leg? l with | some g => g.stopped | none => false)
      | none => false))

def State.closedLegs (s : State) (n : Nat) : List (Nat × Leg) := s.legs.filter (fun e => e.2.place = .closed n)

/-- The head sends FIX(N), which also reaches itself.  One that has fail-stopped follows its final fix with CHAIN_DOWN (R402). -/
def State.sendFix (s : State) (n : Nat) (carry : Bool) (lost : Nat) (members : BitVec 16) : State :=
  let s1 := s.sendMsg 3 0xFF (fixBody n carry lost members)
  let final := (match tget? s1.fc.fixes n with | some x => x.last | none => false)
  let s2 := if s1.failStopped && final then s1.sendMsg 7 0xFF (downBody 4 s1.fc.sealed.toNat) else s1
  match tget? s2.fc.fixes n with
  | some x =>
    let s3 := { s2 with fc := { s2.fc with fixes := tput s2.fc.fixes n { x with fixIn := some (carry, lost, members) },
                                           ready := tdel s2.fc.ready n, misses := if carry then s2.fc.misses else [] } }
    if s3.fc.epoch = n + 1 then s3.openEpoch else s3
  | none => s2

/-- R61: FIX(N) goes out once the head holds FIX_READY(N) from every member. -/
def State.headCheck (s : State) (n : Nat) : State :=
  match tget? s.fc.fixes n with
  | some x =>
    if s.isHead && x.fixIn.isNone && (tgetD s.fc.ready n 0) &&& s.chain.members = s.chain.members then
      s.sendFix n false 0xFF s.chain.members
    else s
  | none => s

/-- R61, R400: FIX_READY of the lowest unsealed fix, once its cut is done. -/
def State.sendReady (s : State) : State :=
  let n := s.fc.sealed.toNat + 1
  match tget? s.fc.fixes n with
  | some x =>
    if s.inChain && x.cut.isEmpty && !x.readySent then
      let s1 := { s with fc := { s.fc with fixes := tput s.fc.fixes n { x with readySent := true } } }
      if s1.isHead then
        State.headCheck { s1 with fc := { s1.fc with ready := tput s1.fc.ready n (tgetD s1.fc.ready n 0 ||| 1) } } n
      else s1.sendMsg 2 0 (fixReadyBody n (s1.closedLegs n).length)
    else s
  | none => s

/-- Legs of a cluster that were charged at an opening before their cut was done (R42, R286): when they resume the spec does not say,
and the model resumes them with the cut (DESIGN CHOICE, log entry 30). -/
def State.resumeCut (s : State) (c : Nat) : State :=
  if !s.fc.open' || s.fc.fixes.any (fun e => e.2.cut.contains c) then s
  else
    (List.range 4).foldl (fun t i =>
      let n := 4 * c + i
      match (t.pp n).running with
      | some l =>
        match t.leg? l with
        | some g => if g.stoppedOn.isSome && (t.pp n).mode = .pilot && g.charge ≠ 0 then t.resumeLeg n l else t
        | none => t
      | none => t) s

/-- CUT_DONE: cluster `c` reports its cut for the oldest tick that waits for it. -/
def doCutDone (c : Nat) (s : State) : State :=
  match s.fc.fixes.find? (fun e => e.2.cut.contains c) with
  | some (n, x) =>
    if s.frozen || s.cutWaits c then s
    else
      let (k, s1) := (List.range 4).foldl (fun (a : Nat × State) i =>
        let (k, t) := a.2.cutPp (4 * c + i) x.tickStamp
        (a.1 + k, t)) (0, s)
      match tget? s1.fc.fixes n with
      | some y =>
        let z := { y with cut := y.cut.filter (· ≠ c), carriedLegs := y.carriedLegs + k }
        State.sendReady (State.resumeCut { s1 with fc := { s1.fc with fixes := tput s1.fc.fixes n z } } c)
      | none => s1
  | none => s

/-! ### The seal (R52–R55, R62) -/

def keepEnd : Nat := 0x10000000
def keepLog : Nat := 0x100000
def logRing : Nat := 2097152

/-- R53: the record of fix `n`. -/
def fixRecord (flags unit units lenUs n : Nat) (tick sealAt : Word) (closed carried retired parts : Nat) (prev : BitVec 32) :
    List Byte :=
  let b := leBytes 2 0x4658 ++ leBytes 1 1 ++ leBytes 1 flags ++ leBytes 1 unit ++ leBytes 1 units ++ leBytes 2 lenUs
    ++ leBytes 8 n ++ leBytes 8 tick.toNat ++ leBytes 8 sealAt.toNat ++ leBytes 4 closed ++ leBytes 4 carried
    ++ leBytes 4 (min retired 0xFFFFFFFF) ++ leBytes 2 parts ++ zeros 2 ++ leBytes 4 prev.toNat ++ zeros 8
  b ++ leBytes 4 (crc32c b).toNat

/-- A version location written by the FC (R22). -/
def State.fcWrite (s : State) (d : Nat) (v : Nat) (p : Nat) : State :=
  match region s d with
  | .host => (s.hostPost (s.part p).hostPort (some (s.part p).pasid) (d - hostBase) (leBytes 8 v)).2
  | _ => s.memWrite d (leBytes 8 v)

/-- R62: restages C(N) with N + 1. -/
def State.restage (s : State) (n : Nat) : State :=
  let s1 := (s.closedLegs n).foldl (fun t e =>
    let t1 := e.2.batches.foldl (fun u d => u.fcWrite d (n + 1) e.2.entry.part) t
    let t2 := e.2.stagedRows.foldl (fun u d => u.fcWrite d (n + 1) e.2.entry.part) t1
    t2.setLeg e.1 { e.2 with place := .closed (n + 1) }) s
  let next := fun (q : Quiesce) => if q.tick = n then { q with tick := n + 1 } else q
  { s1 with parts := tmap s1.parts (fun _ q => { q with quiesce := q.quiesce.map next }),
            chain := { s1.chain with carries := satInc s1.chain.carries 0xFFFFFFFF } }

/-- Whether the STU's system context refuses a request: it passes what lies in the keep region (R317). -/
def sysRefused (d len : Nat) : Bool := decide (keepEnd < d + len)

/-- R463: a refusal of the system context. -/
def State.sysRefuse (s : State) : State := (s.log 0x0703 noInst noPart 0).failStop 0x11

/-- Writes of the fix log writer through the system context (R317); false at the first that is refused. -/
def State.sysWrites (s : State) : List (Nat × List Byte) → Bool × State
  | [] => (true, s)
  | (d, bs) :: t => if sysRefused d bs.length then (false, s.sysRefuse) else (s.memWrite d bs).sysWrites t

/-- The fix log record of fix `n`, and what step 3 writes: the record and the partition fix table entries (R53). -/
def State.fixWrites (s : State) (n : Nat) (x : Fix) (carry : Bool) : List Byte × List (Nat × List Byte) :=
  let legs := s.closedLegs n
  let parts := (legs.map (fun e => e.2.entry.part)).eraseDups
  let rows := (legs.map (fun e => e.2.stagedRows.length)).sum
  let flags := b2n s.inChain + 2 * b2n carry + 4 * b2n (s.parts.any (fun e => !e.2.holding.isEmpty)) + 8 * b2n x.newSet
    + 16 * b2n s.ks.protOff
  let rc := fixRecord flags (if s.inChain then s.chain.address else 0) (if s.inChain then popBits s.chain.members else 1) x.lenUs n
    x.tickStamp s.fc.chrono legs.length x.carriedLegs rows parts.length s.fc.prevCrc
  (rc, (keepLog + n % logRing * 64, rc) :: parts.map (fun p => (0x1000 + 16 * p, leBytes 8 n ++ leBytes 8 x.tickStamp.toNat)))

/-- Steps 3 and 4 for fix `n`: the record, the partition fix table entries, and FC.SEALED_FIX; false when a write was refused, and
the fix is not sealed (R463). -/
def State.sealRecord (s : State) (n : Nat) (x : Fix) (carry : Bool) : Bool × State :=
  let (rc, ws) := s.fixWrites n x carry
  match s.sysWrites ws with
  | (false, s1) => (false, s1.sealsNoMore)
  | (true, s2) =>
    (true, { s2 with fc := { s2.fc with sealed := BitVec.ofNat 64 n, prevCrc := BitVec.ofNat 32 (fld rc 60 4),
                                        sealedIn := if carry then s2.fc.sealedIn else s2.fc.epoch,
                                        fixes := tdel s2.fc.fixes n, late := false } })

/-- Commands of units, channels or jobs still belong to the leg. -/
def State.legBusy (s : State) (l : Nat) : Bool :=
  s.cls.any (fun e => e.2.unitCmds.any (fun u => u.leg = l) || e.2.dm.any (fun k => k.2.leg = l && k.2.state ≠ 4))
  || s.asaSets.any (fun e => e.2.cmds.any (fun u => u.leg = l))
  || s.duQueue.any (fun j => j.leg = l)
  || s.dus.any (fun e => (match e.2.running with | some j => decide (j.leg = l) | none => false) || e.2.saved.any (fun j => j.leg = l))

/-- Legs whose completion is out and whose commands have all completed leave the table. -/
def State.sweepLegs (s : State) : State :=
  { s with legs := s.legs.filter (fun e => !((match e.2.place with | .closed _ => true | _ => false) && e.2.resv.isNone
      && !s.legBusy e.1)) }

def Leg.completion (g : Leg) (n : Nat) (stamp : Word) : Completion :=
  { part := g.entry.part, sq := g.entry.sq, seq := g.entry.seq, status := g.status, userCode := g.userCode, tag := g.entry.tag,
    fix := BitVec.ofNat 64 n, stamp := stamp, cq := g.entry.cq }

/-- Step 5: the completions of C(N), in order of close stamp (R58); of two with one close stamp the leg listed first comes first (DESIGN
CHOICE, log entry 30). -/
def State.releaseFix (s : State) (n : Nat) (stamp : Word) : State :=
  let legs := sortBy (fun (e : Nat × Leg) => e.2.closeStamp.toNat) ((s.closedLegs n).filter (fun e => e.2.resv.isSome))
  let (qs, s1) := legs.foldl (fun (a : List Nat × State) e =>
    match (a.2.leg? e.1).bind (·.resv) with
    | some r =>
      let t := a.2.setLeg e.1 { e.2 with resv := none }
      let (b, u) := t.releaseOne (e.2.completion n stamp) r
      (if b then a.1 ++ [e.2.entry.cq] else a.1, u)
    | none => a) ([], s)
  (s1.raiseCqs qs).sweepLegs

/-- The conditions of steps 3 and 4 for the lowest unsealed fix, save for the reservation of R434. -/
def State.sealReady (s : State) : Option (Nat × Fix) :=
  let n := s.fc.sealed.toNat + 1
  match tget? s.fc.fixes n with
  | some x =>
    if !x.cut.isEmpty || s.orphan || s.fc.noSeal || (s.inChain && x.fixIn.isNone) then none else some (n, x)
  | none => none

def Fix.carry (x : Fix) : Bool := match x.fixIn with | some (c, _, _) => c | none => false

/-- SEAL_FIX: HBM stack 0 acknowledges the records of the lowest unsealed fix. -/
def doSealFix (s : State) : State :=
  match s.sealReady with
  | none => s
  | some (n, x) =>
    if s.frozen then s
    else if !s.ks.protOff && decide (s.ks.resFix.toNat < n) then
      (if s.fc.late then s else State.log { s with fc := { s.fc with late := true } } 0x0F01 noInst noPart 0)
    else
      match (if x.carry then s.restage n else s).sealRecord n x x.carry with
      | (false, s1) => s1
      | (true, s1) =>
        let s2 := (s1.releaseFix n x.tickStamp).admitAll
        let s3 := if x.last then s2.endTicking else s2
        let s4 := if s3.fc.epoch = n + 1 then s3.openEpoch else s3
        s4.sendReady

/-! ### FIX_READY, FIX and the deadline (R61–R63, R400–R403) -/

def doFixReady (src n _legs : Nat) (s : State) : State :=
  if s.isHead && !s.frozen && decide (src < 16) && s.chain.members.getLsbD src && decide (s.fc.sealed.toNat < n) then
    State.headCheck { s with fc := { s.fc with ready := tput s.fc.ready n (tgetD s.fc.ready n 0 ||| (1#16 <<< src)) } } n
  else s

/-- R403: what a unit does on a FIX that names a lost unit. -/
def State.loseUnit (s : State) (u : Nat) (members : BitVec 16) : State :=
  let gone := s.chain.shuffles.filter (fun w => w.unit = u)
  let ends := s.chain.shuffleEnd ++ gone.map (fun w => (w.stream, w.first, 0x020C))
  let left := s.chain.shuffles.filter (fun w => w.unit ≠ u)
  { s with chain := { s.chain with members := members, units := popBits members, shuffles := left, shuffleEnd := ends } }

/-- R401: the unit becomes orphaned.  Ticking ends at its next tick, or here when its last tick has fallen. -/
def State.becomeOrphan (s : State) : State :=
  if s.orphan then s
  else
    let s1 := { s with chain := { s.chain with status := 4 },
                       fc := { s.fc with open' := false, ticking := s.fc.ticking && !s.fc.fixes.any (fun e => e.2.last) } }
    (s1.sendMsg 7 0xFF (downBody 3 s1.fc.sealed.toNat)).log 0x0C09 noInst noPart 0

/-- FIX(N) at a unit. -/
def doFix (n : Nat) (carry : Bool) (lost : Nat) (members : BitVec 16) (s : State) : State :=
  if !s.isMember || s.frozen then s
  else if !members.getLsbD s.chain.address then s.becomeOrphan
  else if n ≤ s.fc.sealed.toNat then s
  else
    let s1 := { s with fc := { s.fc with noFix := 0 } }
    let s2 := if lost < 16 then s1.loseUnit lost members else { s1 with chain := { s1.chain with members := members, units := popBits members } }
    match tget? s2.fc.fixes n with
    | some x =>
      let s3 := { s2 with fc := { s2.fc with fixes := tput s2.fc.fixes n { x with fixIn := some (carry, lost, members) } } }
      if s3.fc.epoch = n + 1 then s3.openEpoch else s3
    | none => { s2 with fc := { s2.fc with fixEarly := tput s2.fc.fixEarly n (carry, lost, members) } }

/-- READY_DEADLINE: the oldest fix of the head that waits for FIX_READY (R62, R63).  When several units may be declared lost at one
deadline, FIX has room for one: the model names the lowest-numbered, and the others at the fixes that follow (DESIGN CHOICE, log
entry 30). -/
def doReadyDeadline (s : State) : State :=
  match s.fc.fixes.find? (fun e => e.2.fixIn.isNone) with
  | some (n, x) =>
    if !s.isHead || s.frozen then s
    else
      let s0 := s.reach (x.tickStamp + BitVec.ofNat 64 s.fc.live.deadline)
      let have' := tgetD s0.fc.ready n 0
      let missing := (List.range 16).filter (fun u => s0.chain.members.getLsbD u && !have'.getLsbD u)
      if missing.isEmpty then s0
      else
        let misses := (List.range 16).foldl (fun t u => tput t u (if missing.contains u then tgetD s0.fc.misses u 0 + 1 else 0)) []
        let gone := missing.find? (fun u => decide (u ≠ s0.chain.address)
          && (decide (s0.fc.live.lostFixes ≤ tgetD misses u 0) || s0.fc.downSeen.getLsbD u))
        let s1 := { s0 with fc := { s0.fc with misses := misses } }
        match gone with
        | some u =>
          let m := s1.chain.members &&& ~~~ (1#16 <<< u)
          ((s1.log 0x0C08 noInst noPart 0).loseUnit u m).sendFix n true u m
        | none => s1.sendFix n true 0xFF s1.chain.members
  | none => s

/-! ### BUDGET (R39, R92) -/

def doBudget (n : Nat) (s : State) : State :=
  let p := s.pp n
  match p.running with
  | some l =>
    match s.leg? l with
    | some g =>
      if !s.ppCan n || p.mode ≠ .leg || g.stopped || p.blocked.onPipe then s
      else
        let b := g.entry.budget.setWidth 64
        let s1 := s.setPp n (p.setCsr csrUSED b)
        (s1.log 0x0102 noInst g.entry.part 0).trap n trapBudget b
    | none => s
  | none => s

/-! ### Close (R23, R41, R50) -/

/-- Writes back the lines of an output range (R23); true when one of them could not be written: poison went with it, or the tables
that place it could not be read.  A page that no longer translates for another reason holds no line of the leg and is passed over
(DESIGN CHOICE, log entry 26). -/
def State.cleanOut (s : State) (c p : Nat) : Nat → Nat → Nat → Bool × State
  | 0, _, _ => (false, s)
  | f + 1, va, len =>
    if len = 0 then (false, s)
    else
      let k := min len (4096 - va % 4096)
      let (b, s1) : Bool × State :=
        match s.xlateUnit (.cluster c) p va { r := false, w := false, x := false } with
        | (.error e, s1) => (e.uncorrectable, s1)
        | (.ok x, s1) => s1.cleanRange c (x.out va) k
      let (b2, s2) := s1.cleanOut c p f (va + k) (len - k)
      (b || b2, s2)

def State.cleanOuts (s : State) (c p : Nat) : List OutDesc → Bool × State
  | [] => (false, s)
  | d :: t =>
    let (b, s1) := s.cleanOut c p (d.bytes.toNat / 4096 + 2) d.addr.toNat d.bytes.toNat
    let (b2, s2) := s1.cleanOuts c p t
    (b || b2, s2)

/-- The FC's translation of a version location or of what it reads to stage (R22, R302): none when it cannot be used. -/
def State.fcDpa (s : State) (p va : Nat) (vcol : Bool) : Option Nat × State :=
  match (s.xlatUse p).xlateUnit .io p va needR with
  | (.error _, s1) => (none, s1)
  | (.ok x, s1) =>
    if vcol && !x.vcol then (none, s1)
    else
      match s1.dpaRefused p noInst (x.out va) with
      | (true, s2) => (none, s2)
      | (false, s2) => (some (x.out va), s2)

/-- A read inside one line at a DPA: the bytes, or the status that rejects the leg. -/
def State.fcReadAt (s : State) (p d len : Nat) : Except Nat (List Byte) × State :=
  match region s d with
  | .host =>
    match s.hostTake (.walk 64) (some p) d len with
    | (.ok bs, s1) => (.ok bs, s1)
    | (.error k, s1) => (.error (if k = 1 then 0x0F else 0x0A), s1)
  | _ =>
    match s.memRead (d / 64) 64 with
    | (some line, s1) => (.ok ((line.drop (d % 64)).take len), s1)
    | (none, s1) => (.error 0x0A, s1)

/-- The FC's work for a close: a status rejects the leg. -/
abbrev FM (α : Type) := ExceptT Nat (StateM State) α

def fcLoc (p va : Nat) (vcol : Bool) : FM Nat := do
  match ← ExceptT.mk (fun s => let (r, t) := s.fcDpa p va vcol; (.ok r, t)) with
  | some d => pure d
  | none => throw 0x0F

def fcRead (p va len : Nat) (vcol : Bool) : FM (List Byte) := do
  let d ← fcLoc p va vcol
  ExceptT.mk (fun s => s.fcReadAt p d len)

/-- The batch of row `r`, walked from entry 0 (R135, R136); none when the array gives none. -/
def fcBatch (p bs batches rows r : Nat) : Nat → Nat → Nat → FM (Option Nat)
  | 0, _, _ => pure none
  | f + 1, b, lo => do
    if batches ≤ b then return none
    let e := leNat (← fcRead p (bs + 4 * (b + 1)) 4 false)
    if e ≤ lo || (b + 1 = batches && e ≠ rows) then return none
    if r < e then return some b
    fcBatch p bs batches rows r f (b + 1) e

/-- One retired row: its RETIRE_FIX location, its batch's version entry and MIN_RETIRE there, and whether R50 rejects it. -/
def fcRow (p indesc : Nat) (x : Nat × Nat) : FM (Nat × Nat × Nat × Bool) := do
  let seg ← fcRead p (indesc + 64 + 64 * x.1) 64 false
  let g := Seg.ofBytes seg
  let loc ← fcLoc p (g.rrc + 8 * x.2) true
  let rf ← ExceptT.mk (fun s => s.fcReadAt p loc 8)
  let batch ← (if g.bstart % 4 ≠ 0 then pure none
    else do
      let b0 := leNat (← fcRead p g.bstart 4 false)
      if b0 ≠ 0 then pure none else fcBatch p g.bstart g.batches g.rows x.2 (g.batches + 1) 0 0)
  match batch with
  | none => return (loc, 0, 0, true)
  | some b =>
    let e ← fcLoc p (g.bvt + 16 * b) true
    let entry ← ExceptT.mk (fun s => s.fcReadAt p e 16)
    return (loc, e, leNat (entry.drop 8), leNat rf != never || leNat (entry.take 8) == never)

/-- R50: staging with the number `n`: every read comes before the first write; the staged RETIRE_FIX locations. -/
def fcStage (g : Leg) (n : Nat) : FM (List Nat) := do
  let p := g.entry.part
  let rows := g.retire.eraseDups
  let _ ← rows.mapM (fun x => do
    let seg ← fcRead p (g.entry.indesc.toNat + 64 + 64 * x.1) 64 false
    fcLoc p ((Seg.ofBytes seg).rrc + 8 * x.2) true)
  let plan ← rows.mapM (fcRow p g.entry.indesc.toNat)
  if plan.any (fun x => x.2.2.2) then throw 0x03
  for b in g.batches do
    ExceptT.mk (fun s => (.ok (), s.fcWrite b n p))
  for x in plan do
    ExceptT.mk (fun s => (.ok (), s.fcWrite x.1 n p))
    ExceptT.mk (fun s => (.ok (), s.fcWrite (x.2.1 + 8) (min x.2.2.1 n) p))
  return (plan.map (·.1)).eraseDups

/-- The FC accepts the close. -/
def State.acceptClose (s : State) (l n : Nat) (rows : List Nat) : State :=
  match s.leg? l with
  | some g =>
    let g1 := { g with place := .closed s.closeEpoch, stagedRows := rows, closeStamp := s.fc.chrono, wpSlot := none, waypoint := none }
    let s1 := (s.setLeg l g1).returnCharge l n
    let s2 := { s1 with cursors := s1.cursors.filter (fun c => c.leg ≠ l) }
    ((s2.dmFreeLeg l).dropLegTables g.home l).letIn g.home
  | none => s

def doLegClose (l : Nat) (s : State) : State :=
  match s.leg? l with
  | some g =>
    match g.place with
    | .closing n =>
      let c := ppCluster n
      if !s.unitsOn c || g.waits then s
      else if g.status ≠ 0 then (s.closeErr l).letIn g.home
      else
        match s.cleanOuts c g.entry.part g.outs with
        | (true, s1) => State.errLeg (s1.returnCharge l n) l 0x0A 0
        | (false, s1) =>
          match (fcStage g s1.closeEpoch).run s1 with
          | (.error e, s2) => (s2.returnCharge l n).errLeg l e 0
          | (.ok rows, s2) => s2.acceptClose l n rows
    | _ => s
  | none => s

/-- SCHEDULER_TICK; the scheduler uses LS.QUOTA (R417). -/
def execSchedulerTick (s : State) : Host.Outcome State Fault Refusal :=
  .next (doSchedTick (if s.frozen then s else s.parityUse false none offLsQuota 4))
def execEpochTick (s : State) : Host.Outcome State Fault Refusal := .next (doEpochTick s)
def execTickLate (s : State) : Host.Outcome State Fault Refusal := .next (doTickLate s)
def execCutDone (c : Nat) (s : State) : Host.Outcome State Fault Refusal := .next (doCutDone c s)
def execSealFix (s : State) : Host.Outcome State Fault Refusal := .next (doSealFix s)
def execEpochOpenTimeout (s : State) : Host.Outcome State Fault Refusal := .next (doEpochOpenTimeout s)
def execEpochApply (s : State) : Host.Outcome State Fault Refusal := .next (doEpochApply s)
def execBudget (pp : Nat) (s : State) : Host.Outcome State Fault Refusal := .next (doBudget pp s)
/-- The requesters of a close: the walker of the leg's cluster, and the FC's reads through the STU (log entry 9). -/
def State.closeReqs (s : State) (l : Nat) : List HostReq :=
  match s.leg? l with
  | some g => match g.place with | .closing n => [.walk (ppCluster n), .walk 64] | _ => []
  | none => []

/-- R50: the FC stages one leg at a time: leg `l` waits while a read for the close of another is out. -/
def State.closeTurn (s : State) (l : Nat) : Bool :=
  match s.fcClose with
  | some m => m = l || !((s.leg? m).any (fun g => match g.place with | .closing _ => true | _ => false))
  | none => true

/-- LEG_CLOSE: the close request that the FC takes next. -/
def takeLegClose (l : Nat) (s : State) : State :=
  if !s.closeTurn l then s
  else
    { s.settle (s.closeReqs l) (doLegClose l) with fcClose := if (doLegClose l s.asking).hostMiss.isSome then some l else none }

def execLegClose (leg : Nat) (s : State) : Host.Outcome State Fault Refusal := .next (takeLegClose leg s)
def execFixReady (src n legs : Nat) (s : State) : Host.Outcome State Fault Refusal := .next (doFixReady src n legs s)
def execFix (n : Nat) (carry : Bool) (lost : Nat) (members : BitVec 16) (s : State) : Host.Outcome State Fault Refusal :=
  .next (doFix n carry lost members s)
def execReadyDeadline (s : State) : Host.Outcome State Fault Refusal := .next (doReadyDeadline s)

end Sys2Proof.Machine
end

