-- ==== Sys2Proof/Machine/Qm.lean ====
section
/-!
DEFINITION. The queue manager (11): doorbells, the fetch of submission entries, their checks and their offer to the LS, and the
APPLY of ring configurations.
-/
namespace Sys2Proof.Machine

open Sys2Proof

/-! ### Doorbells (R258, R259, R264) -/

/-- A doorbell write that the engine ignores, with its reason's report. -/
def State.dropDoorbell (s : State) (p : Nat) : State := s.log 0x0201 noInst p 0

def doSqDoorbell (q : Nat) (v : BitVec 32) (s : State) : State :=
  let k := s.sq q
  if s.frozen || s.failStopped then s
  else if !k.exist then s.dropDoorbell noPart
  else if !k.enable || (s.part k.part).halted then s.dropDoorbell k.part
  else
    let d := (v - k.c).toNat
    let old := (k.p - k.c).toNat
    if k.size < d then s.haltPart k.part 0x0D q v
    else if d < old then s.haltPart k.part 0x0E q v
    else if d = old then s
    else s.setSq q { k with p := v }

def doCqDoorbell (q : Nat) (v : BitVec 32) (s : State) : State :=
  let k := s.cq q
  if s.frozen || s.failStopped then s
  else if !k.exist then s.dropDoorbell noPart
  else if !k.enable || (s.part k.part).halted then s.dropDoorbell k.part
  else
    let e := (v - k.c).toNat
    if e = 0 then s
    else if e ≤ k.count then (s.setCq q { k with c := v }).cqFreed q
    else s.haltPart k.part 0x0F q v

/-! ### Submission entries (R266, R275) -/

def spanOf (b : List Byte) : Nat := fld b 1 1
def inlineOf (b : List Byte) : Bool := bit (fld b 2 2) 4

def addrForm (a al : Nat) : Bool := decide (a < 2 ^ 48) && decide (a % al = 0)

/-- What a LEG entry breaks, in the order of the cause numbers. -/
def State.legCauses (s : State) (k : Queue) (b : List Byte) (idx upTo : BitVec 32) : List (Nat × Bool) :=
  let flags := fld b 2 2
  let inl := inlineOf b
  let scr := fld b 48 8
  let sb := fld b 56 4
  [ (0x02, decide (32 ≤ flags) || !zeroAt b 6 2 || !zeroAt b 60 4 || !zeroAt b 72 56 || (!bit flags 3 && decide (fld b 64 8 ≠ 0))
      || (inl && decide (fld b 24 8 ≠ 0))),
    (0x03, decide (spanOf b ≠ (if inl then 2 else 1))),
    (0x04, decide (k.size < idx.toNat % k.size + spanOf b)),
    (0x05, decide ((upTo - idx).toNat < spanOf b)),
    (0x06, decide (fld b 8 4 = 0)),
    (0x07, (s.cqLocal k.part (fld b 4 1)).isNone),
    (0x08, decide (fld b 5 1 ≠ 255) && !(decide (fld b 5 1 < 64) && (s.part k.part).clusters.getLsbD (fld b 5 1))),
    (0x09, !addrForm (fld b 16 8) 4 || !addrForm (fld b 24 8) 1 || !addrForm (fld b 32 8) 64 || !addrForm (fld b 40 8) 64
      || !addrForm scr 64),
    (0x0A, decide (sb % 64 ≠ 0) || (decide (sb = 0) != decide (scr = 0)) || decide (2 ^ 48 < scr + sb) || (inl && decide (sb < 128))) ]

/-- R275: the cause that an entry is malformed for. -/
def State.entryCause (s : State) (k : Queue) (b : List Byte) (idx upTo : BitVec 32) : Option Nat :=
  let op := fld b 0 1
  if op = 0 then (if !zeroAt b 2 126 then some 0x02 else if spanOf b ≠ 1 then some 0x03 else none)
  else if op = 1 then ((s.legCauses k b idx upTo).find? (·.2)).map (·.1)
  else some 0x01

def State.legEntry (s : State) (q : Nat) (k : Queue) (b blk : List Byte) (idx : BitVec 32) : LegEntry :=
  let flags := fld b 2 2
  { part := k.part, sq := q, seq := idx, priority := flags % 8, release := bit flags 3, inl := bit flags 4,
    cq := (s.cqLocal k.part (fld b 4 1)).getD 0, cqLocal := fld b 4 1, cluster := fld b 5 1, budget := BitVec.ofNat 32 (fld b 8 4),
    tag := BitVec.ofNat 32 (fld b 12 4), code := BitVec.ofNat 64 (fld b 16 8), argp := BitVec.ofNat 64 (fld b 24 8),
    indesc := BitVec.ofNat 64 (fld b 32 8), outdesc := BitVec.ofNat 64 (fld b 40 8), scratch := BitVec.ofNat 64 (fld b 48 8),
    scratchBytes := fld b 56 4, releaseTime := fld b 64 8, inlineBlk := blk }

/-- Checks and offers the slots read, in order, until one is refused for want of room, the partition halts, or an entry's
second slot has not been read (R262, R281, R282). -/
def State.takeSlots (q : Nat) (upTo : BitVec 32) : Nat → State → State
  | 0, s => s
  | f + 1, s =>
    let k := s.sq q
    match k.slots with
    | [] => s
    | b :: rest =>
      if (s.part k.part).halted || s.failStopped then s
      else
        match s.entryCause k b k.c upTo with
        | some cause => s.haltPart k.part cause q k.c
        | none =>
          if fld b 0 1 = 0 then State.takeSlots q upTo f (s.setSq q { k with slots := rest, c := k.c + 1 })
          else
            let two := inlineOf b
            match two, rest with
            | true, [] => s
            | _, _ =>
              match s.placeEntry (s.legEntry q k b (if two then rest.headD [] else []) k.c) with
              | none => s
              | some s1 =>
                let k1 := s1.sq q
                let n : BitVec 32 := if two then 2 else 1
                State.takeSlots q upTo f (s1.setSq q { k1 with slots := k1.slots.drop n.toNat, c := k1.c + n })

/-- FETCH_HELD of the doorbell page (R263): the first entry in the fetch slot is a leg that the LS has no room for. -/
def State.fetchHeld (s : State) (q : Nat) : Bool :=
  let k := s.sq q
  match k.slots with
  | [] => false
  | b :: rest =>
    k.exist && k.enable && !(s.part k.part).halted && decide (fld b 0 1 = 1) && !(inlineOf b && rest.isEmpty)
    && (s.placeEntry (s.legEntry q k b (if inlineOf b then rest.headD [] else []) k.c)).isNone

/-! ### Fetching (R262, R480, R373) -/

/-- Nothing holds the SQ: no quench, quiesce, halt or fail-stop. -/
def State.sqFetches (s : State) (q : Nat) : Bool :=
  let k := s.sq q
  let p := s.part k.part
  k.exist && k.enable && p.exist && !p.halted && !p.quenched && !p.quenchGo && !p.quiesced && p.quiesce.isNone && !s.failStopped
  && !s.frozen

def slotsOf : Nat → List Byte → List (List Byte)
  | 0, _ => []
  | n + 1, bs => (bs.take 128 ++ zeros (128 - (bs.take 128).length)) :: slotsOf n (bs.drop 128)

/-- Issues a read: to the host port of the partition, where it waits while 1,024 reads are out (R368), or to memory. -/
def State.issueRead (s : State) (q : Nat) (f : Fetch) : State :=
  let k := s.sq q
  let p := s.part k.part
  match region s f.dpa with
  | .host =>
    if s.portFull p.hostPort then s.setSq q { k with fetch := some { f with waiting := true, linkDown := false } }
    else if (s.hp p.hostPort).linkUp then
      (s.setSq q { k with fetch := some { f with waiting := false, linkDown := false } }).emit
        (.hostRead p.hostPort (some p.pasid) (f.dpa - hostBase) (f.count * 128) false)
    else s.setSq q { k with fetch := some { f with waiting := true, linkDown := true } }
  | _ => s.setSq q { k with fetch := some { f with waiting := false, linkDown := false } }

/-- Slots that one read covers: as far as P, the ring's end and the end of the page (log entry 20). -/
def Queue.readCount (k : Queue) (first : BitVec 32) (ppa : Nat) : Nat :=
  min (k.p - first).toNat (min (k.size - first.toNat % k.size) ((4096 - ppa % 4096) / 128))

def doFetchIssue (q : Nat) (s0 : State) : State :=
  let s := (s0.parityUse true (some (s0.sq q).part) (offSq q) 0x20).xlatUse (s0.sq q).part
  if !s0.sqFetches q then s0
  else
    let s1 := State.takeSlots q (s.sq q).p 65536 s
    let k := s1.sq q
    let first := k.c + BitVec.ofNat 32 k.slots.length
    let more := match k.slots with | [] => true | [b] => inlineOf b && decide (fld b 0 1 = 1) | _ => false
    if !s1.sqFetches q || k.fetch.isSome || first = k.p || !more then s1
    else
      let ppa := bits k.base.toNat 47 12 * 4096 + first.toNat % k.size * 128
      let n := k.readCount first ppa
      match s1.sttAccess k.part ppa needR with
      | (.error f, s2) =>
        let ctx : FaultCtx := { part := k.part, sq := 0xFFFF, seq := 0, agent := 8, cluster := 0xFF, pp := 0xFF }
        (s2.faultRecord ctx f false false ppa).haltPart k.part 0x12 q first
      | (.ok d, s2) =>
        s2.issueRead q { first := first, count := n, fails := 0, waiting := false, linkDown := false, upTo := k.p, dpa := d }

/-- The bytes of one line of memory; those of an uncorrectable line are free values (log entry 12). -/
def State.lineOrFree (s : State) (line : Nat) : List Byte × State :=
  match s.memRead line 64 with
  | (some bs, s1) => (bs, s1)
  | (none, s1) =>
    ((List.range 8).flatMap (fun i => leBytes 8 (Config.freeWord (s1.freeSeq + i)).toNat), { s1 with freeSeq := s1.freeSeq + 8 })

def State.linesOrFree (s : State) (line : Nat) : Nat → List Byte × State
  | 0 => ([], s)
  | n + 1 =>
    let (a, s1) := s.lineOrFree line
    let (b, s2) := s1.linesOrFree (line + 1) n
    (a ++ b, s2)

/-- SQ_FETCH_DATA: the data of a read arrive: from the host, or from memory. While ENABLE is 0 nothing is taken from them: they
stay in the fetch slot (R265; DESIGN CHOICE, log entry 20). -/
def doFetchData (q : Nat) (data : List Byte) (s : State) : State :=
  match (s.sq q).fetch with
  | some f =>
    if s.frozen || f.waiting then s
    else
      let (bs, s1) := if region s f.dpa = .host then (data, s) else s.linesOrFree (f.dpa / 64) (2 * f.count)
      let k := s1.sq q
      let s2 := s1.setSq q { k with fetch := none, slots := k.slots ++ slotsOf f.count bs }
      if k.enable then State.takeSlots q f.upTo 65536 s2 else s2
  | none => s

/-- SQ_FETCH_FAIL: an error, or a timeout, which HP.STATE.TIMEOUTS counts; a failure for want of the link is not counted (R373,
R374). -/
def doFetchFail (q : Nat) (timeout : Bool) (s : State) : State :=
  let k := s.sq q
  let h := (s.part k.part).hostPort
  match k.fetch with
  | some f =>
    if s.frozen || f.waiting then s
    else if !(s.hp h).linkUp then s.setSq q { k with fetch := some { f with waiting := true, linkDown := true } }
    else
      let s1 := s.countTimeout h timeout
      if 2 ≤ f.fails then (s1.setSq q { k with fetch := none }).haltPart k.part 0x13 q f.first
      else s1.setSq q { k with fetch := some { f with fails := f.fails + 1, waiting := true } }
  | none => s

/-- SQ_FETCH_REISSUE: the retry interval is over, or the link is up again. A hold of the SQ, and ENABLE = 0, keep the read
back like any other (R265, R274, R360). -/
def doFetchReissue (q : Nat) (s : State) : State :=
  match (s.sq q).fetch with
  | some f => if !f.waiting || !s.sqFetches q then s else s.issueRead q f
  | none => s

/-! ### Ring configuration (R265) -/

/-- A write of QM.SQ_CTL[q] or QM.CQ_CTL[q]; `ev` is the EVENT field of a CQ. -/
def Queue.writeCtl (k : Queue) (w : BitVec 32) (ev : Nat) : Bool × Queue :=
  let k1 := { k with shSize := bits w.toNat 4 0, applyErr := k.applyErr && !w.getLsbD 7 }
  let bad := k.enable || decide (k1.shSize < 4) || decide (16 < k1.shSize)
  let k2 := if !w.getLsbD 6 then k1
    else if bad then { k1 with applyErr := true }
    else { k1 with applyErr := false, base := k1.shBase, sizeLog2 := k1.shSize, p := 0, c := 0, slots := [], fetch := none }
  (w.getLsbD 6 && bad, { k2 with enable := w.getLsbD 5, ln := bits w.toNat 13 8, part := bits w.toNat 24 16, event := ev })

def doSqCtl (q : Nat) (w : BitVec 32) (s : State) : State :=
  if s.frozen then s
  else
    let s0 := if w.getLsbD 6 then s.parityUse false (some (s.sq q).part) (offSq q) 0x20 else s
    let (bad, k) := (s0.sq q).writeCtl w 0
    let s1 := (if w.getLsbD 6 && !bad then s0.parityTaken (offSq q) 0x20 else s0).setSq q k
    if bad then s1.log 0x0202 noInst k.part 0 else s1

def doCqCtl (q : Nat) (w : BitVec 32) (s : State) : State :=
  if s.frozen then s
  else
    let s0 := if w.getLsbD 6 then s.parityUse false (some (s.cq q).part) (offCq q) 0x20 else s
    let (bad, k) := (s0.cq q).writeCtl w (bits w.toNat 29 25)
    let s1 := (if w.getLsbD 6 && !bad then s0.parityTaken (offCq q) 0x20 else s0).setCq q k
    if bad then s1.log 0x0202 noInst k.part 0 else (s1.postKept k.part).admitAll

def execSqDoorbell (q : Nat) (v : BitVec 32) (s : State) : Host.Outcome State Fault Refusal := .next (doSqDoorbell q v s)
def execCqDoorbell (q : Nat) (v : BitVec 32) (s : State) : Host.Outcome State Fault Refusal := .next (doCqDoorbell q v s)
def execSqFetchIssue (q : Nat) (s : State) : Host.Outcome State Fault Refusal := .next (doFetchIssue q s)
def execSqFetchData (q : Nat) (data : List (BitVec 8)) (s : State) : Host.Outcome State Fault Refusal := .next (doFetchData q data s)
def execSqFetchFail (q : FetchFail) (s : State) : Host.Outcome State Fault Refusal := .next (doFetchFail q.q q.timeout s)
def execSqFetchReissue (q : Nat) (s : State) : Host.Outcome State Fault Refusal := .next (doFetchReissue q s)
def execSqRingApply (q : Nat) (w : BitVec 32) (s : State) : Host.Outcome State Fault Refusal := .next (doSqCtl q w s)
def execCqRingApply (q : Nat) (w : BitVec 32) (s : State) : Host.Outcome State Fault Refusal := .next (doCqCtl q w s)

end Sys2Proof.Machine
end

