-- ==== Sys2Proof/Machine/Xlat.lean ====
section
/-!
DEFINITION. The translation registers' commands (14): APPLY of a group XLAT[p] (R306) and the invalidation of QM.XLAT_INV (R319).
-/
namespace Sys2Proof.Machine

open Sys2Proof

def offXinvAddr : Nat := 0x400050
def offXinvCtl : Nat := 0x400058
def xinvCtlReset : Word := 0xC * 0x800

/-- General HBM or installed DDR5. -/
def State.general (s : State) (d : Nat) : Bool := region s d = .hbm || region s d = .ddr

/-- R306: whether the shadow of XLAT[p] may become live. -/
def State.xlatOk (s : State) (p : Nat) : Bool :=
  let q := s.part p
  let x := q.shXlat
  (q.quiesced || !q.xlat.enable) && decide (4 ≤ x.faultLog2 ∧ x.faultLog2 ≤ 10)
  && (!x.enable || (s.general (ptAddr x.s2) && s.general (ptAddr x.stt)))

def State.xlatApply (s0 : State) (p : Nat) : State :=
  let s := s0.parityUse false (some p) (offXlatRoot p) 0x20
  let q := s.part p
  if s.xlatOk p then
    State.dropAllOf (((s.parityTaken (offXlatRoot p) 0x20).parityTaken (offXlatCtl p) 4).setPart p { q with xlat := q.shXlat, faultN := 0, xlatErr := false }) p
  else
    State.log (s.setPart p { q with xlatErr := true }) 0x0701 noInst p 0

/-- A write of QM.XLAT_CTL[p]. -/
def doXlatCtl (p : Nat) (w : BitVec 32) (s : State) : State :=
  if s.frozen then s
  else
    let q := s.part p
    let x := { q.shXlat with enable := w.getLsbD 0, compat := w.getLsbD 1, faultLog2 := bits w.toNat 5 2 }
    let s1 := s.setPart p { q with shXlat := x, xlatErr := q.xlatErr && !w.getLsbD 7 }
    if w.getLsbD 6 then s1.xlatApply p else s1

/-- A write of QM.XLAT_INV_CTL: its RW fields, and an invalidation when GO is set (R319).  The entries are dropped at once;
DONE sets with XLAT_INV_DONE. -/
def doXinvCtl (w : BitVec 32) (s : State) : State :=
  if s.frozen then s
  else
    let s1 := { s with regs := tput s.regs offXinvCtl ((w &&& 0x1FFFF#32).setWidth 64) }
    if !w.getLsbD 17 then s1
    else
      let p := bits w.toNat 8 0
      let k := bits w.toNat 16 11
      if !s.xinvDone || k < 12 || 48 < k then s1.log 0x0702 noInst p 0
      else
        let a := alignDown ((tgetD s1.regs offXinvAddr 0).toNat % 2 ^ 48) (2 ^ k)
        let s2 := { s1 with xinvDone := false }
        match bits w.toNat 10 9 with
        | 0 => s2.dropAllOf p
        | 1 => (s2.dropStages p (some (a, 2 ^ k))).setStale p
        | 2 => (s2.dropStages p none).setStale p
        | _ => s2.dropStu p (some (a, 2 ^ k))

def doXinvDone (s : State) : State := if s.frozen then s else { s with xinvDone := true }

def execXlatApply (p : Nat) (w : BitVec 32) (s : State) : Host.Outcome State Fault Refusal := .next (doXlatCtl p w s)
def execXlatInvGo (w : BitVec 32) (s : State) : Host.Outcome State Fault Refusal := .next (doXinvCtl w s)
def execXlatInvDone (s : State) : Host.Outcome State Fault Refusal := .next (doXinvDone s)

end Sys2Proof.Machine
end

