-- ==== Sys2Proof/Machine/Admin.lean ====
section
/-!
DEFINITION. The administrative pair and its commands (11 R271–R277), with what they do to partitions (17): creation, quiesce,
resume, quench, reset, destruction, queues, clusters, granules, banks, pipes, inboxes, events and the reading of the fix log.
-/
namespace Sys2Proof.Machine

open Sys2Proof

/-! ### Posting (R272, R483) -/

def Admin.count (a : Admin) : Nat := (a.cqP - a.cqC).toNat
def Admin.sqLen (a : Admin) : Nat := 2 ^ a.sqSize
def Admin.cqLen (a : Admin) : Nat := 2 ^ a.cqSize

def AdminCpl.bytes (c : AdminCpl) : List Byte :=
  leBytes 2 c.cid.toNat ++ leBytes 2 c.status ++ leBytes 1 c.opcode ++ zeros 3 ++ leBytes 8 c.result.toNat ++ leBytes 8 c.stamp.toNat
    ++ leBytes 4 c.idx.toNat ++ zeros 4

/-- Copies of READ_* that the management port could not send. -/
def State.sendCopies : Nat → State → Bool × State
  | 0, s => (true, s)
  | f + 1, s =>
    match s.copies with
    | [] => (true, s)
    | (a, bs) :: t =>
      match s.hostPost s.mgmtPort none a bs with
      | (true, s1) => State.sendCopies f { s1 with copies := t }
      | (false, s1) => (false, s1.log 0x0A03 s1.mgmtPort noPart 0)

/-- An administrative completion entry, on VC1 when the host has enabled it (R371). -/
def State.hostAdmin (s : State) (a : Nat) (bytes : List Byte) : Bool × State :=
  s.hostSend s.mgmtPort none a bytes false (s.hp s.mgmtPort).vc1

/-- Posts the waiting completions in order; true when an entry was posted.  An entry of a ring that runs past what can be reached (R17)
cannot be sent (DESIGN CHOICE, log entry 20). -/
def State.adminPosts : Nat → State → Bool × State
  | 0, s => (false, s)
  | f + 1, s =>
    let a := s.admin
    match a.waiting with
    | [] => (false, s)
    | c :: t =>
      if !a.enable || a.cqLen ≤ a.count then (false, s)
      else
        let at' := a.cqBase.toNat + a.cqP.toNat % a.cqLen * 32
        match (if hostLimit < at' + 32 then (false, s) else s.hostAdmin at' c.bytes) with
        | (true, s1) =>
          let (_, s2) := State.adminPosts f { s1 with admin := { a with waiting := t, cqP := a.cqP + 1, resv := a.resv - 1 } }
          (true, s2)
        | (false, s1) => (false, s1.log 0x0A03 s1.mgmtPort noPart 0)

/-- Sends what waits for the management port; a batch of posts raises device source 16,401 (R464). -/
def State.adminPost (s : State) : State :=
  match s.sendCopies (s.copies.length + 1) with
  | (false, s1) => s1
  | (true, s1) =>
    match s1.adminPosts (s1.admin.waiting.length + 1) with
    | (true, s2) => s2.raise 16401
    | (false, s2) => s2

/-- A command completes. -/
def State.adminDone (s : State) (cid : BitVec 16) (idx : BitVec 32) (op status : Nat) (result : Word) : State :=
  let c : AdminCpl := { cid := cid, status := status, opcode := op, result := result, stamp := s.fc.chrono, idx := idx }
  State.adminPost { s with admin := { s.admin with waiting := s.admin.waiting ++ [c] } }

def State.adminDoneAll (s : State) (op status : Nat) (l : List (BitVec 16 × BitVec 32)) : State :=
  l.foldl (fun t x => t.adminDone x.1 x.2 op status 0) s

/-! ### Partitions: create, quiesce, resume, quench (R274, R354, R360–R362) -/

def doCreatePartition (cid : BitVec 16) (idx : BitVec 32) (pasid hostPort : Nat) (s : State) : State :=
  match (List.range 512).find? (fun p => !(s.part p).exist) with
  | none => s.adminDone cid idx 0x01 0x8001 0
  | some p =>
    if s.parts.any (fun e => e.2.exist && e.2.pasid == pasid) then s.adminDone cid idx 0x01 0x8009 0
    else
      let o := s.part p
      let q := { Part.reset with exist := true, quiesced := true, pasid := pasid, hostPort := hostPort, xlat := { o.xlat with enable := false },
                                 shXlat := { o.shXlat with enable := false }, xlatErr := o.xlatErr, faultN := o.faultN }
      (s.setPart p q).adminDone cid idx 0x01 0 (BitVec.ofNat 64 p)

def State.quenchStart (s : State) (p : Nat) : State := s.setPart p { s.part p with quenchGo := true }

def doQuench (cid : BitVec 16) (idx : BitVec 32) (p : Nat) (s : State) : State :=
  let q := s.part p
  if !q.exist then s.adminDone cid idx 0x06 0x8002 0
  else (s.setPart p { q with quenching := q.quenching ++ [(cid, idx)] }).quenchStart p

/-- A GO of QM.QUENCH_NOW. -/
def doQuenchNow (p : Nat) (s : State) : State :=
  if s.frozen then s
  else if !(s.part p).exist then State.log { s with quenchDone := true, quenchWait := none } 0x0203 noInst noPart 0
  else State.quenchStart { s with quenchDone := false, quenchWait := some p } p

/-- QUENCH_EFFECT: fetchers, channels and drive commands of p have stopped. A quench that is under way when p is resumed, reset
or destroyed takes effect first, so that its command completes (R274; DESIGN CHOICE, log entry 19). -/
def doQuenchEffect (p : Nat) (s : State) : State :=
  if s.frozen || !(s.part p).quenchGo then s
  else
    let s1 := s.dmQuench p
    let q := s1.part p
    let s2 := s1.setPart p { q with quenchGo := false, quenched := true, quenching := [] }
    let s3 := if s2.quenchWait = some p then { s2 with quenchDone := true, quenchWait := none } else s2
    (s3.adminDoneAll 0x06 0 q.quenching).raisePart p 30

/-- R362: the partition goes back into service. -/
def State.resumePart (s : State) (p : Nat) (l : List (BitVec 16 × BitVec 32)) : State :=
  if l.isEmpty then s
  else if (s.part p).halted then s.adminDoneAll 0x05 0x8004 l
  else
    let s := doQuenchEffect p s
    let s0 := s.setPart p { s.part p with quiesced := false, quenched := false }
    let s1 := { s0 with grants := tmap s0.grants (fun _ g => if g.live.part = p && g.live.enable then { g with notified := true } else g) }
    ((s1.adminDoneAll 0x05 0 l).raisePart p 30).admitAll

def doResume (cid : BitVec 16) (idx : BitVec 32) (p : Nat) (s : State) : State :=
  let q := s.part p
  if !q.exist then s.adminDone cid idx 0x05 0x8002 0
  else if q.halted then s.adminDone cid idx 0x05 0x8004 0
  else
    match q.quiesce with
    | some k => s.setPart p { q with quiesce := some { k with resume := k.resume ++ [(cid, idx)] } }
    | none => s.resumePart p [(cid, idx)]

def doQuiesce (cid : BitVec 16) (idx : BitVec 32) (p : Nat) (s : State) : State :=
  let q := s.part p
  if !q.exist then s.adminDone cid idx 0x04 0x8002 0
  else if q.quiesced then (s.adminDone cid idx 0x04 0 0).raisePart p 30
  else
    match q.quiesce with
    | some k => s.setPart p { q with quiesce := some { k with cids := k.cids ++ [(cid, idx)] } }
    | none =>
      let s1 := s.setPart p { q with quiesce := some { tick := s.fc.epoch, cids := [(cid, idx)], resume := [] } }
      let s1 := { s1 with legs := tmap s1.legs (fun _ g =>
        if g.entry.part = p && g.hold.isSome then { g with hold := some .quiesce, holdOver := false } else g) }
      s1.dmCancelWhere (fun k => k.part = p) 0x050A

/-- R361: every condition of a quiesce of p. -/
def State.quiesceMet (s : State) (p : Nat) : Bool :=
  let q := s.part p
  let mine := s.legs.filter (fun e => e.2.entry.part = p)
  match q.quiesce with
  | none => false
  | some k =>
    (!s.fc.ticking || s.orphan || decide (k.tick < s.fc.sealedIn))
    && mine.all (fun e => e.2.place.inPp.isNone)
    && mine.all (fun e => match e.2.place with | .closing _ => false | .closed _ => e.2.resv.isNone | _ => true)
    && q.linkHeld.isEmpty
    && s.cls.all (fun e => e.2.dm.all (fun x => x.2.part ≠ p || x.2.state = 4) && e.2.unitCmds.all (fun u => u.part ≠ p))
    && s.asaSets.all (fun e => e.2.cmds.all (fun u => u.part ≠ p))
    && s.cmds.all (fun e => match tget? s.reqs e.2.req with | some r => r.part ≠ p || !e.2.issued | none => true)
    && s.sqs.all (fun e => !(e.2.exist && e.2.part = p && e.2.fetch.any (fun f => !f.waiting)))

def doQuiesceDone (p : Nat) (s : State) : State :=
  if s.frozen || !s.quiesceMet p then s
  else
    match (s.part p).quiesce with
    | none => s
    | some k =>
      let s1 := s.setPart p { s.part p with quiesce := none, quiesced := true }
      ((s1.adminDoneAll 0x04 0 k.cids).raisePart p 30).resumePart p k.resume

/-! ### Queues (R264, R273) -/

def isPage (a : Word) : Bool := decide (a.toNat % 4096 = 0) && decide (a.toNat < 2 ^ 48)

/-- Lowest local number that no queue of p in the table has. -/
def freeLocal (t : Table Queue) (p : Nat) : Option Nat :=
  (List.range 64).find? (fun n => !t.any (fun e => e.2.exist && e.2.part = p && e.2.ln = n))

/-- R264: the pair for local number `n`: the one that `other` already holds for it, or the lowest free one. -/
def State.pairFor (s : State) (other : Table Queue) (p n : Nat) : Option Nat :=
  match other.find? (fun e => e.2.exist && e.2.part = p && e.2.ln = n) with
  | some e => some e.1
  | none => (List.range 8192).find? (fun q => !(s.sq q).exist && !(s.cq q).exist)

def Queue.made (p n size event : Nat) (base : Word) : Queue :=
  { Queue.reset with exist := true, part := p, ln := n, event := event, enable := true, base := base, sizeLog2 := Nat.log2 size,
                     shBase := base, shSize := Nat.log2 size }

/-- CREATE_CQ and CREATE_SQ. -/
def State.createQueue (s : State) (cid : BitVec 16) (idx : BitVec 32) (op p size : Nat) (base : Word) (event : Nat) (sq : Bool) : State :=
  let fail := fun (st : Nat) (r : Word) => s.adminDone cid idx op st r
  if !(s.part p).exist then fail 0x8002 0
  else
    match freeLocal (if sq then s.sqs else s.cqs) p with
    | none => fail 0x8005 0
    | some n =>
      match s.pairFor (if sq then s.cqs else s.sqs) p n with
      | none => fail 0x8005 1
      | some q =>
        if !isPage base then fail 0x800A 0
        else
          let k := Queue.made p n size event base
          (if sq then s.setSq q k else s.setCq q k).adminDone cid idx op 0 (BitVec.ofNat 64 (q + n * 65536))

def doCreateCq (cid : BitVec 16) (idx : BitVec 32) (p size : Nat) (base : Word) (event : Nat) (s : State) : State :=
  s.createQueue cid idx 0x10 p size base event false

def doCreateSq (cid : BitVec 16) (idx : BitVec 32) (p size : Nat) (base : Word) (s : State) : State :=
  s.createQueue cid idx 0x12 p size base 0 true

/-- A reservation or a held completion names the CQ. -/
def State.cqUsed (s : State) (q : Nat) : Bool :=
  s.legs.any (fun e => e.2.resv.isSome && e.2.entry.cq == q) || s.cqWaits q || (s.part (s.cq q).part).linkHeld.any (fun x => x.1.cq == q)

def doDeleteCq (cid : BitVec 16) (idx : BitVec 32) (p ln : Nat) (s : State) : State :=
  if !(s.part p).exist then s.adminDone cid idx 0x11 0x8002 0
  else
    match s.cqLocal p ln with
    | none => s.adminDone cid idx 0x11 0x8006 0
    | some q =>
      if s.cqUsed q then s.adminDone cid idx 0x11 0x8008 0
      else State.adminDone { s with cqs := tdel s.cqs q } cid idx 0x11 0 0

/-- A leg fetched from the SQ has not had its completion posted. -/
def State.sqBusy (s : State) (q : Nat) : Bool :=
  let p := s.part (s.sq q).part
  s.legs.any (fun e => e.2.entry.sq == q && !((match e.2.place with | .closed _ => true | _ => false) && e.2.resv.isNone))
  || p.holding.any (fun c => c.sq == q) || p.linkHeld.any (fun x => x.1.sq == q) || (s.sq q).slots.any (fun b => fld b 0 1 = 1)

def doDeleteSq (cid : BitVec 16) (idx : BitVec 32) (p ln : Nat) (s : State) : State :=
  if !(s.part p).exist then s.adminDone cid idx 0x13 0x8002 0
  else
    match s.sqs.find? (fun e => e.2.exist && e.2.part = p && e.2.ln = ln) with
    | none => s.adminDone cid idx 0x13 0x8006 0
    | some (q, _) =>
      if s.sqBusy q then s.adminDone cid idx 0x13 0x8007 0
      else State.adminDone { s with sqs := tdel s.sqs q } cid idx 0x13 0 0

/-! ### Resources (R163, R208, R209, R287, R332, R357, R405, R465) -/

/-- R287, R357: cluster c is taken from p. -/
def State.removeCluster (s : State) (p c : Nat) : State :=
  let gone := s.legs.filter (fun e => e.2.entry.part = p && (match e.2.place with
    | .ready d => decide (d = c)
    | .held d => decide (d = c)
    | .delay _ => decide (e.2.entry.cluster = c)
    | _ => false))
  let s1 := s.dropLegs (gone.map (·.1))
  let s2 := if gone.isEmpty then s1 else s1.log 0x0301 noInst p (BitVec.ofNat 64 gone.length)
  let k := s2.cl c
  let s3 := s2.setCl c { k with tables := k.tables.filter (fun t => t.part ≠ p) }
  let s4 := (k.pipes.filter (fun e => e.2.part = p)).foldl (fun t e => t.unbindPipe c e.1) s3
  (List.range 64).foldl (fun t g =>
    if (t.cl c).owns p g then t.setCl c { (t.cl c).zeroGranule g with owner := tdel (t.cl c).owner g } else t) s4

def State.removeClusters (s : State) (p : Nat) (old new : Word) : State :=
  (List.range 64).foldl (fun t c => if old.getLsbD c && !new.getLsbD c then t.removeCluster p c else t) s

def doSetResources (cid : BitVec 16) (idx : BitVec 32) (p : Nat) (clusters : Word) (classM : Bool) (ceiling : Nat) (s : State) : State :=
  let q := s.part p
  if !q.exist then s.adminDone cid idx 0x20 0x8002 0
  else if clusters ≠ q.clusters && !q.quiesced then s.adminDone cid idx 0x20 0x8003 0
  else
    let s1 := s.removeClusters p q.clusters clusters
    ((s1.setPart p { s1.part p with clusters := clusters, classM := classM, ceiling := ceiling }).adminDone cid idx 0x20 0 0).admitAll

/-- R163: the granule's bound tables. -/
def Cluster.granuleUsed (k : Cluster) (g : Nat) : Bool :=
  k.tables.any (fun t => decide (t.base ≤ g ∧ g < t.base + t.granules) && k.owns t.part g)

def ownerWord (p : Nat) : BitVec 32 := if p = 0xFFFF then 0 else BitVec.ofNat 32 (p % 512 + 0x8000)

def Cluster.giveGranule (k : Cluster) (p g : Nat) : Cluster :=
  if (if p = 0xFFFF then !(tgetD k.owner g 0).getLsbD 15 else k.owns p g) then k
  else { k.zeroGranule g with owner := if p = 0xFFFF then tdel k.owner g else tput k.owner g (ownerWord p) }

def doAllocJoin (cid : BitVec 16) (idx : BitVec 32) (p c : Nat) (granules : Word) (s : State) : State :=
  let gs := (List.range 64).filter (fun g => granules.getLsbD g)
  if p ≠ 0xFFFF && !(s.part p).exist then s.adminDone cid idx 0x21 0x8002 0
  else if gs.any (s.cl c).granuleUsed then s.adminDone cid idx 0x21 0x800B 0
  else (s.setCl c (gs.foldl (fun k g => k.giveGranule p g) (s.cl c))).adminDone cid idx 0x21 0 0

/-- R209: writes ASA.BANK_CFG of one bank; a change empties it.  The cursors of a set that changes owner are of no use from then
on (R217). -/
def State.setBank (s : State) (b : Nat) (w : BitVec 32) : State :=
  let o := tgetD s.asaCfg b 0
  if o = w then s
  else
    let first := match asaGroup s.asaCfg b with | some g => g.first | none => b
    let s1 := if o.toNat % 1024 = w.toNat % 1024 then s
      else { s with cursors := s.cursors.map (fun k => if k.first = first then { k with stale := true } else k) }
    State.asaClearBank { s1 with asaCfg := tput s1.asaCfg b w } b

def doAllocAsa (cid : BitVec 16) (idx : BitVec 32) (p first lg width : Nat) (s : State) : State :=
  let n := 2 ^ lg
  let banks := (List.range n).map (· + first)
  let part' := fun (b : Nat) => match asaGroup s.asaCfg b with
    | some g => decide (g.first < first) || decide (first + n < g.first + 2 ^ g.log2)
    | none => false
  if p ≠ 0xFFFF && !(s.part p).exist then s.adminDone cid idx 0x22 0x8002 0
  else if banks.any s.asaBusy then s.adminDone cid idx 0x22 0x800C 0
  else if first % n ≠ 0 || 32 < first + n || banks.any part' then s.adminDone cid idx 0x22 0x800A 0
  else
    let w : BitVec 32 := BitVec.ofNat 32 ((if p = 0xFFFF then 0 else p % 512 + 512) + width * 1024 + lg * 4096)
    (banks.foldl (fun t b => t.setBank b w) s).adminDone cid idx 0x22 0 0

def doBindPipes (cid : BitVec 16) (idx : BitVec 32) (p c first count dl : Nat) (s : State) : State :=
  let is := (List.range count).map (· + first)
  if !(s.part p).exist then s.adminDone cid idx 0x23 0x8002 0
  else if 256 < first + count then s.adminDone cid idx 0x23 0x800A 0
  else if is.any (fun i => (tget? (s.cl c).pipes i).isSome) then s.adminDone cid idx 0x23 0x800E 0
  else
    match s.bindPipes p c dl is with
    | some t => t.adminDone cid idx 0x23 0 0
    | none => s.adminDone cid idx 0x23 0x800D 0

/-- A leg is blocked on one of the pipes. -/
def State.pipeBlocked (s : State) (c first count : Nat) : Bool :=
  s.pps.any (fun e => match e.2.blocked with
    | .push d i => d == c && decide (first ≤ i ∧ i < first + count)
    | .pop d i => d == c && decide (first ≤ i ∧ i < first + count)
    | _ => false)

def doUnbindPipes (cid : BitVec 16) (idx : BitVec 32) (p c first count : Nat) (s : State) : State :=
  let is := (List.range count).map (· + first)
  let mine := fun (i : Nat) => match tget? (s.cl c).pipes i with | some q => decide (q.part = p) | none => false
  if !(s.part p).exist then s.adminDone cid idx 0x24 0x8002 0
  else if 256 < first + count || !is.all mine then s.adminDone cid idx 0x24 0x800A 0
  else if s.pipeBlocked c first count then s.adminDone cid idx 0x24 0x800F 0
  else (is.foldl (fun t i => t.unbindPipe c i) s).adminDone cid idx 0x24 0 0

/-- R406: bytes of an inbox, translated through the partition's STT, line by line; true when all were written. -/
def State.inboxWrite (s : State) (p : Nat) : List (Nat × Nat) → List Byte → Bool × State
  | [], _ => (true, s)
  | (a, n) :: t, bs =>
    match s.sttAccess p a needW with
    | (.error f, s1) =>
      let ctx : FaultCtx := { part := p, sq := 0xFFFF, seq := 0, agent := 10, cluster := 0xFF, pp := 0xFF }
      (false, s1.faultRecord ctx f true false a)
    | (.ok d, s1) =>
      let s2 := match region s1 d with
        | .host => (s1.hostPost (s1.part p).hostPort (some (s1.part p).pasid) (d - hostBase) (bs.take n)).2
        | _ => s1.memWrite d (bs.take n)
      s2.inboxWrite p t (bs.drop n)

/-- R405: the header of an inbox, written by the engine; false when its page cannot be written (log entry 29). -/
def State.inboxHeader (s : State) (p : Nat) (b : Inbox) : Bool × State :=
  s.inboxWrite p (chunksOf b.base.toNat 64) (leBytes 4 b.fill ++ leBytes 4 b.records ++ zeros 56)

def inboxSizeOk (n : Nat) : Bool := n = 0 || (decide (n % 64 = 0) && decide (128 ≤ n ∧ n ≤ 0xFFFFFFC0))

def doSetInbox (cid : BitVec 16) (idx : BitVec 32) (p inbox : Nat) (base : Word) (bytes : Nat) (s : State) : State :=
  let q := s.part p
  if !q.exist then s.adminDone cid idx 0x25 0x8002 0
  else if s.chain.status ≠ 3 then s.adminDone cid idx 0x25 0x8011 0
  else if base.toNat % 64 ≠ 0 || 2 ^ 48 ≤ base.toNat || !inboxSizeOk bytes then s.adminDone cid idx 0x25 0x800A 0
  else
    let b : Inbox := { base := base, bytes := bytes, fill := 0, records := 0 }
    let s1 := s.setPart p { q with inboxes := tput q.inboxes inbox b }
    (if bytes = 0 then s1 else (s1.inboxHeader p b).2).adminDone cid idx 0x25 0 0

def doMapEvent (cid : BitVec 16) (idx : BitVec 32) (source port vector : Nat) (enable : Bool) (s : State) : State :=
  let w : BitVec 32 := BitVec.ofNat 32 (vector % 4096 + port % 4 * 4096 + 16384 * b2n enable)
  let s1 := { s with evtMap := tput s.evtMap source w }
  (if s1.evtPend.contains source then s1.handOver source else s1).adminDone cid idx 0x26 0 0

/-! ### Reset and destruction (R363, R364) -/

/-- The word at offset `o` belongs to a queue or a grant register of partition `p` (R409, R265, R378). -/
def State.ownWord (s : State) (p o : Nat) : Bool :=
  (decide (0x500000 ≤ o ∧ o < 0x540000) && (s.sq ((o - 0x500000) / 0x20)).exist && (s.sq ((o - 0x500000) / 0x20)).part == p)
  || (decide (0x600000 ≤ o ∧ o < 0x640000) && (s.cq ((o - 0x600000) / 0x20)).exist && (s.cq ((o - 0x600000) / 0x20)).part == p)
  || (decide (0x70000 ≤ o ∧ o < 0x78000) && (s.grant ((o - 0x70000) / 0x20)).live.part == p)

/-- R418: firmware rewrites the queue and grant registers of a partition that parity has halted. -/
def State.parityRewrite (s : State) (p : Nat) : State :=
  if (s.part p).halted && (s.part p).haltCause == 0x10 then
    { s with parity := s.parity.filter (fun o => !s.ownWord p o), parityLive := s.parityLive.filter (fun o => !s.ownWord p o) }
  else s

/-- What RESET_PARTITION does to a quiesced partition. -/
def State.resetPart (s : State) (p : Nat) : State :=
  let s := (doQuenchEffect p s).parityRewrite p
  let s1 := s.dropLegs ((s.legs.filter (fun e => e.2.entry.part = p && (e.2.place.onList || (match e.2.place with
    | .held _ => true
    | _ => false)))).map (·.1))
  let wipe := fun (k : Queue) => if k.exist && k.part = p then { k with p := 0, c := 0, slots := [], fetch := none } else k
  let s2 := { s1 with
    sqs := tmap s1.sqs (fun _ k => wipe k), cqs := tmap s1.cqs (fun _ k => wipe k),
    cls := tmap s1.cls (fun _ k => { k with
      tables := k.tables.filter (fun t => t.part ≠ p),
      pipes := tmap k.pipes (fun _ x => if x.part = p then { x with entries := [], flaws := [] } else x) }),
    cursors := s1.cursors.filter (fun c => c.part ≠ p),
    evtPend := s1.evtPend.filter (fun e => e / 32 ≠ p || decide (16384 ≤ e)) }
  let s3 := s2.setPart p { s2.part p with halted := false, haltCause := 0, haltQueue := 0, haltIndex := 0, quenched := false,
                                          holding := [], linkHeld := [] }
  let s4 := (List.range 32).foldl (fun t b => match asaGroup t.asaCfg b with
    | some g => if g.part = p then t.asaClearBank b else t
    | none => t) s3
  (s4.duAbort p).dropAllOf p

def doResetPartition (cid : BitVec 16) (idx : BitVec 32) (p : Nat) (s : State) : State :=
  let q := s.part p
  if !q.exist then s.adminDone cid idx 0x03 0x8002 0
  else if !q.quiesced then s.adminDone cid idx 0x03 0x8003 0
  else (((s.resetPart p).adminDone cid idx 0x03 0 0).raisePart p 30).admitAll

/-- Partition `p`'s drive requests and their commands, and its queues, go. -/
def State.dropQueues (s : State) (p : Nat) : State :=
  { s with reqs := s.reqs.filter (fun e => e.2.part ≠ p),
           cmds := s.cmds.filter (fun e => match tget? s.reqs e.2.req with | some q => q.part ≠ p | none => false),
           sqs := s.sqs.filter (fun e => e.2.part ≠ p), cqs := s.cqs.filter (fun e => e.2.part ≠ p) }

/-- Its ASA banks are freed. -/
def State.dropBanks (s : State) (p : Nat) : State :=
  (List.range 32).foldl (fun t b =>
    let w := tgetD t.asaCfg b 0
    if w.getLsbD 9 && bits w.toNat 8 0 = p then t.setBank b 0 else t) s

/-- Its grants are disabled, and so are its event sources. -/
def State.dropShares (s : State) (p : Nat) : State :=
  { s with grants := tmap s.grants (fun _ g =>
             if g.live.part = p then { g with live := { g.live with enable := false }, notified := false } else g),
           evtMap := tmap s.evtMap (fun e w => if e / 32 = p && decide (e < 16384) then w &&& ~~~ 0x4000#32 else w) }

def State.destroyPart (s : State) (p : Nat) : State :=
  let s1 := ((((s.resetPart p).dropQueues p).removeClusters p (BitVec.allOnes 64) 0).dropBanks p).dropShares p
  let o := s1.part p
  s1.setPart p { Part.reset with xlat := { o.xlat with enable := false }, shXlat := { o.shXlat with enable := false },
                                 xlatErr := o.xlatErr, faultN := o.faultN }

def doDestroyPartition (cid : BitVec 16) (idx : BitVec 32) (p : Nat) (s : State) : State :=
  let q := s.part p
  if !q.exist then s.adminDone cid idx 0x02 0x8002 0
  else if !q.quiesced then s.adminDone cid idx 0x02 0x8003 0
  else ((s.destroyPart p).adminDone cid idx 0x02 0 0).admitAll

/-! ### Reading the fix log (R53, R273) -/

def destOk (dest : Word) (n : Nat) : Bool := decide (dest.toNat % 64 = 0) && decide (dest.toNat + n ≤ 0x700000000000)

/-- The records of fixes `n` onward, as far as the first that is not retained. -/
def State.fixRecords (s : State) : Nat → Nat → List (List Byte)
  | 0, _ => []
  | k + 1, n =>
    let r := readBytes s.mem (keepLog + n % logRing * 64) 64
    if s.fc.sealed.toNat < n || fld r 0 2 ≠ 0x4658 || fld r 8 8 ≠ n then [] else r :: s.fixRecords k (n + 1)

def State.copyOut (s : State) (dest : Word) (bs : List Byte) : State := { s with copies := s.copies ++ [(dest.toNat, bs)] }

def doReadFixLog (cid : BitVec 16) (idx : BitVec 32) (firstFix : Word) (count : Nat) (dest : Word) (s : State) : State :=
  let rs := s.fixRecords count firstFix.toNat
  if !destOk dest (64 * count) then s.adminDone cid idx 0x30 0x800A 0
  else if rs.isEmpty then s.adminDone cid idx 0x30 0x8010 0
  else (s.copyOut dest rs.flatten).adminDone cid idx 0x30 0 (BitVec.ofNat 64 rs.length)

def doReadPartFix (cid : BitVec 16) (idx : BitVec 32) (dest : Word) (s : State) : State :=
  if !destOk dest 8192 then s.adminDone cid idx 0x31 0x800A 0
  else (s.copyOut dest (readBytes s.mem 0x1000 8192)).adminDone cid idx 0x31 0 0

/-! ### Entries (R272, R273, R275) -/

/-- The parameter fields of an opcode: offset and bytes. -/
def adminFields (op : Nat) : Option (List (Nat × Nat)) :=
  match op with
  | 0x00 => some []
  | 0x01 => some [(8, 4), (12, 1)]
  | 0x02 => some [(8, 2)]
  | 0x03 => some [(8, 2)]
  | 0x04 => some [(8, 2)]
  | 0x05 => some [(8, 2)]
  | 0x06 => some [(8, 2)]
  | 0x10 => some [(8, 2), (12, 4), (16, 8), (24, 1)]
  | 0x11 => some [(8, 2), (10, 1)]
  | 0x12 => some [(8, 2), (12, 4), (16, 8)]
  | 0x13 => some [(8, 2), (10, 1)]
  | 0x20 => some [(8, 2), (16, 8), (24, 1), (25, 1)]
  | 0x21 => some [(8, 2), (10, 1), (16, 8)]
  | 0x22 => some [(8, 2), (10, 1), (11, 1), (12, 1)]
  | 0x23 => some [(8, 2), (10, 1), (11, 1), (12, 2), (14, 1)]
  | 0x24 => some [(8, 2), (10, 1), (11, 1), (12, 2)]
  | 0x25 => some [(8, 2), (10, 1), (16, 8), (24, 4)]
  | 0x26 => some [(8, 2), (10, 1), (12, 2), (14, 1)]
  | 0x30 => some [(8, 8), (16, 4), (24, 8)]
  | 0x31 => some [(24, 8)]
  | _ => none

/-- Every byte of 4–127 outside the named fields is zero. -/
def adminZero (b : List Byte) (fs : List (Nat × Nat)) : Bool :=
  (List.range 124).all (fun i => fs.any (fun f => decide (f.1 ≤ i + 4 ∧ i + 4 < f.1 + f.2)) || b.getD (i + 4) 0 == 0)

def ringSizeOk (n : Nat) : Bool := decide (16 ≤ n ∧ n ≤ 65536) && decide (2 ^ Nat.log2 n = n)

/-- Numbers outside the ranges of R273. -/
def adminRange (op : Nat) (b : List Byte) : Bool :=
  let p := decide (511 < fld b 8 2)
  let own := decide (511 < fld b 8 2) && decide (fld b 8 2 ≠ 0xFFFF)
  let by' := fun (o lim : Nat) => decide (lim < fld b o 1)
  match op with
  | 0x00 => false
  | 0x01 => by' 12 3
  | 0x10 => p || by' 24 31
  | 0x11 => p || by' 10 63
  | 0x12 => p
  | 0x13 => p || by' 10 63
  | 0x20 => p || by' 24 1 || by' 25 3
  | 0x21 => own || by' 10 63
  | 0x22 => own || by' 10 31 || by' 11 5 || by' 12 2
  | 0x23 => p || by' 10 63 || decide (fld b 12 2 < 1) || decide (256 < fld b 12 2) || decide (fld b 14 1 < 4) || by' 14 14
  | 0x24 => p || by' 10 63 || decide (fld b 12 2 < 1) || decide (256 < fld b 12 2)
  | 0x26 => decide (16895 < fld b 8 2) || by' 10 3 || decide (4095 < fld b 12 2) || by' 14 1
  | 0x30 => decide (fld b 16 4 < 1) || decide (65536 < fld b 16 4)
  | 0x31 => false
  | _ => p

/-- R275 on an administrative entry. -/
def adminCause (b : List Byte) : Option Nat :=
  let op := fld b 0 1
  match adminFields op with
  | none => some 0x01
  | some fs =>
    if !adminZero b fs || (op == 1 && decide (2 ^ 20 ≤ fld b 8 4)) then some 0x02
    else if fld b 1 1 ≠ 1 then some 0x03
    else if (op == 0x10 || op == 0x12) && !ringSizeOk (fld b 12 4) then some 0x0B
    else if adminRange op b then some 0x0C
    else none

/-- The command of a well-formed entry starts. -/
def State.adminStart (s : State) (b : List Byte) (idx : BitVec 32) : State :=
  let cid := BitVec.ofNat 16 (fld b 2 2)
  let p := fld b 8 2
  let w := fun (o : Nat) => BitVec.ofNat 64 (fld b o 8)
  match fld b 0 1 with
  | 0x00 => s.adminDone cid idx 0 0 0
  | 0x01 => doCreatePartition cid idx (fld b 8 4) (fld b 12 1) s
  | 0x02 => doDestroyPartition cid idx p s
  | 0x03 => doResetPartition cid idx p s
  | 0x04 => doQuiesce cid idx p s
  | 0x05 => doResume cid idx p s
  | 0x06 => doQuench cid idx p s
  | 0x10 => doCreateCq cid idx p (fld b 12 4) (w 16) (fld b 24 1) s
  | 0x11 => doDeleteCq cid idx p (fld b 10 1) s
  | 0x12 => doCreateSq cid idx p (fld b 12 4) (w 16) s
  | 0x13 => doDeleteSq cid idx p (fld b 10 1) s
  | 0x20 => doSetResources cid idx p (w 16) (fld b 24 1 == 1) (fld b 25 1) s
  | 0x21 => doAllocJoin cid idx p (fld b 10 1) (w 16) s
  | 0x22 => doAllocAsa cid idx p (fld b 10 1) (fld b 11 1) (fld b 12 1) s
  | 0x23 => doBindPipes cid idx p (fld b 10 1) (fld b 11 1) (fld b 12 2) (fld b 14 1) s
  | 0x24 => doUnbindPipes cid idx p (fld b 10 1) (fld b 11 1) (fld b 12 2) s
  | 0x25 => doSetInbox cid idx p (fld b 10 1) (w 16) (fld b 24 4) s
  | 0x26 => doMapEvent cid idx p (fld b 10 1) (fld b 12 2) (fld b 14 1 == 1) s
  | 0x30 => doReadFixLog cid idx (w 8) (fld b 16 4) (w 24) s
  | 0x31 => doReadPartFix cid idx (w 24) s
  | _ => s

/-- R277: a malformation on the administrative pair. -/
def State.adminMalformed (s : State) (cause : Nat) : State := (s.failStop cause).log 0x0205 noInst noPart 0

/-! ### The administrative pair (R258, R259, R271, R272, R481) -/

def doAdminSqDb (v : BitVec 32) (s : State) : State :=
  let a := s.admin
  if s.frozen || s.failStopped || s.bootFailed then s
  else if !a.enable then s.dropDoorbell noPart
  else
    let d := (v - a.sqC).toNat
    let old := (a.sqP - a.sqC).toNat
    if a.sqLen < d then s.adminMalformed 0x0D
    else if d < old then s.adminMalformed 0x0E
    else { s with admin := { a with sqP := v } }

def doAdminCqDb (v : BitVec 32) (s : State) : State :=
  let a := s.admin
  if s.frozen || s.failStopped || s.bootFailed then s
  else if !a.enable then s.dropDoorbell noPart
  else
    let e := (v - a.cqC).toNat
    if e = 0 then s
    else if e ≤ a.count then State.adminPost { s with admin := { a with cqC := v } } else s.adminMalformed 0x0F

/-- The read of an administrative entry goes out, on VC1 when the host has enabled it (R371), or waits for the link.  One of an entry
past what can be reached (R17) fails at once, as a bus error does (DESIGN CHOICE, log entry 20). -/
def State.adminRead (s : State) (f : Fetch) : State :=
  if hostBase + hostLimit < f.dpa + 128 then
    State.log { s with admin := { s.admin with fetch := some { f with waiting := true, linkDown := false } } } 0x0A03 s.mgmtPort noPart 0
  else if (s.hp s.mgmtPort).linkUp then
    State.emit { s with admin := { s.admin with fetch := some { f with waiting := false, linkDown := false } } }
      (.hostRead s.mgmtPort none (f.dpa - hostBase) 128 (s.hp s.mgmtPort).vc1)
  else { s with admin := { s.admin with fetch := some { f with waiting := true, linkDown := true } } }

/-- The QM uses the live registers of group ADMIN (R417). -/
def State.adminUse (s : State) (live : Bool) : State := s.parityUse live none 0x400000 0x14

def doAdminFetchIssue (s0 : State) : State :=
  let s := if s0.frozen || !s0.admin.enable then s0 else s0.adminUse true
  let a := s.admin
  if s.frozen || s.failStopped || s.bootFailed || !a.enable || a.fetch.isSome || a.sqP = a.sqC || a.cqLen ≤ a.count + a.resv then s
  else
    State.adminRead { s with admin := { a with resv := a.resv + 1 } }
      { first := a.sqC, count := 1, fails := 0, waiting := false, linkDown := false, upTo := a.sqP,
        dpa := hostBase + a.sqBase.toNat + a.sqC.toNat % a.sqLen * 128 }

/-- Data that arrive while ENABLE is 0 are dropped, with the slot kept for their completion: the entry is fetched again once the
queue is enabled (R265; DESIGN CHOICE, log entry 20). -/
def doAdminFetchData (data : List Byte) (s : State) : State :=
  let a := s.admin
  match a.fetch with
  | some f =>
    if s.frozen || s.failStopped || f.waiting then s
    else if !a.enable then { s with admin := { a with fetch := none, resv := a.resv - 1 } }
    else
      let b := data.take 128 ++ zeros (128 - data.length)
      match adminCause b with
      | some cause => State.adminMalformed { s with admin := { a with fetch := none, resv := a.resv - 1 } } cause
      | none => State.adminStart { s with admin := { a with fetch := none, sqC := a.sqC + 1 } } b f.first
  | none => s

/-- R373: the read of an administrative entry has failed: it is logged, and waits for its retry. -/
def State.adminFails (s : State) : State :=
  match s.admin.fetch with
  | some f =>
    if f.waiting then s
    else State.log { s with admin := { s.admin with fetch := some { f with waiting := true, linkDown := false } } } 0x0A03 s.mgmtPort noPart 0
  | none => s

/-- ADMIN_FETCH_RETRY: what failed on the management port is issued again (R373, R483). -/
def doAdminRetry (s : State) : State :=
  if s.frozen then s
  else
    let s1 := s.adminPost
    match s1.admin.fetch with
    | some f =>
      if s1.failStopped || !s1.admin.enable || !f.waiting then s1 else s1.adminRead f
    | none => s1

/-- A write of QM.ADMIN_CTL: the sizes' shadow, APPLY of group ADMIN, and ENABLE (R265, R272). An APPLY drops a read that is in
flight, with its reservation: the entry it asked for belongs to the old ring (R256; DESIGN CHOICE, log entry 20). -/
def doAdminCtl (w : BitVec 32) (s0 : State) : State :=
  if s0.frozen || s0.bootFailed then s0
  else
    let s := if w.getLsbD 17 then s0.adminUse false else s0
    let a := s.admin
    let a1 := { a with shSqSize := bits w.toNat 4 0, shCqSize := bits w.toNat 12 8, applyErr := a.applyErr && !w.getLsbD 18 }
    let kept := a1.resv - b2n a1.fetch.isSome
    let bad := !s.pm.bootDone || a.enable || decide (a1.shSqSize < 4) || decide (16 < a1.shSqSize) || decide (a1.shCqSize < 4) || decide (16 < a1.shCqSize)
      || decide (hostLimit ≤ a1.shSqBase.toNat) || decide (hostLimit ≤ a1.shCqBase.toNat) || decide (2 ^ a1.shCqSize < kept)
    let a2 := if !w.getLsbD 17 then a1
      else if bad then { a1 with applyErr := true }
      else { a1 with applyErr := false, fetch := none, resv := kept, sqBase := a1.shSqBase, cqBase := a1.shCqBase, sqSize := a1.shSqSize, cqSize := a1.shCqSize, sqP := 0, sqC := 0,
                     cqP := 0, cqC := 0 }
    let t := if w.getLsbD 17 && !bad then s.parityTaken 0x400000 0x14 else s
    let s1 := { t with admin := { a2 with enable := w.getLsbD 16 } }
    State.adminPost (if w.getLsbD 17 && bad then s1.log 0x0202 noInst noPart 0 else s1)

/-! ### The rows that name a command: its entry has been read, and a completion slot is kept for it (log entry 19) -/

/-- The first cause of R275 that the numbers of an entry meet, each given with its test. -/
def firstCause (l : List (Bool × Nat)) : Option Nat := (l.find? (·.1)).map (·.2)

/-- The engine takes administrative commands; an entry whose numbers lie outside the ranges of R273 is malformed (R275, R277). -/
def adminRow (bad : List (Bool × Nat)) (f : State → State) (s : State) : State :=
  if s.frozen || s.failStopped || s.bootFailed then s
  else
    match firstCause bad with
    | some c => s.adminMalformed c
    | none => f { s with admin := { s.admin with resv := s.admin.resv + 1 } }

def noPartOf (p : Nat) : Bool × Nat := (decide (511 < p), 0x0C)
def noOwner (p : Nat) : Bool × Nat := (decide (511 < p) && decide (p ≠ 0xFFFF), 0x0C)
def above (v lim : Nat) : Bool × Nat := (decide (lim < v), 0x0C)
def below (v lim : Nat) : Bool × Nat := (decide (v < lim), 0x0C)

def execAdminSqDoorbell (v : BitVec 32) (s : State) : Host.Outcome State Fault Refusal := .next (doAdminSqDb v s)
def execAdminCqDoorbell (v : BitVec 32) (s : State) : Host.Outcome State Fault Refusal := .next (doAdminCqDb v s)
def execAdminFetchIssue (s : State) : Host.Outcome State Fault Refusal := .next (doAdminFetchIssue s)
def execAdminFetchData (data : List (BitVec 8)) (s : State) : Host.Outcome State Fault Refusal := .next (doAdminFetchData data s)
def execAdminFetchRetry (s : State) : Host.Outcome State Fault Refusal := .next (doAdminRetry s)
def execAdminNop (cid : BitVec 16) (idx : BitVec 32) (s : State) : Host.Outcome State Fault Refusal :=
  .next (adminRow [] (fun t => t.adminDone cid idx 0 0 0) s)
def execCreatePartition (cid : BitVec 16) (idx : BitVec 32) (pasid hostPort : Nat) (s : State) : Host.Outcome State Fault Refusal :=
  .next (adminRow [(decide (2 ^ 20 ≤ pasid), 0x02), above hostPort 3] (doCreatePartition cid idx pasid hostPort) s)
def execDestroyPartition (cid : BitVec 16) (idx : BitVec 32) (p : Nat) (s : State) : Host.Outcome State Fault Refusal :=
  .next (adminRow [noPartOf p] (doDestroyPartition cid idx p) s)
def execResetPartition (cid : BitVec 16) (idx : BitVec 32) (p : Nat) (s : State) : Host.Outcome State Fault Refusal :=
  .next (adminRow [noPartOf p] (doResetPartition cid idx p) s)
def execQuiescePartition (cid : BitVec 16) (idx : BitVec 32) (p : Nat) (s : State) : Host.Outcome State Fault Refusal :=
  .next (adminRow [noPartOf p] (doQuiesce cid idx p) s)
def execQuiesceDone (p : Nat) (s : State) : Host.Outcome State Fault Refusal := .next (doQuiesceDone p s)
def execResumePartition (cid : BitVec 16) (idx : BitVec 32) (p : Nat) (s : State) : Host.Outcome State Fault Refusal :=
  .next (adminRow [noPartOf p] (doResume cid idx p) s)
def execQuenchPartition (cid : BitVec 16) (idx : BitVec 32) (p : Nat) (s : State) : Host.Outcome State Fault Refusal :=
  .next (adminRow [noPartOf p] (doQuench cid idx p) s)
def execQuenchNow (p : Nat) (s : State) : Host.Outcome State Fault Refusal := .next (doQuenchNow p s)
def execQuenchEffect (p : Nat) (s : State) : Host.Outcome State Fault Refusal := .next (doQuenchEffect p s)
def execCreateCq (cid : BitVec 16) (idx : BitVec 32) (p size : Nat) (base : Word) (event : Nat) (s : State) :
    Host.Outcome State Fault Refusal := .next (adminRow [(!ringSizeOk size, 0x0B), noPartOf p, above event 31] (doCreateCq cid idx p size base event) s)
def execDeleteCq (cid : BitVec 16) (idx : BitVec 32) (p ln : Nat) (s : State) : Host.Outcome State Fault Refusal :=
  .next (adminRow [noPartOf p, above ln 63] (doDeleteCq cid idx p ln) s)
def execCreateSq (cid : BitVec 16) (idx : BitVec 32) (p size : Nat) (base : Word) (s : State) : Host.Outcome State Fault Refusal :=
  .next (adminRow [(!ringSizeOk size, 0x0B), noPartOf p] (doCreateSq cid idx p size base) s)
def execDeleteSq (cid : BitVec 16) (idx : BitVec 32) (p ln : Nat) (s : State) : Host.Outcome State Fault Refusal :=
  .next (adminRow [noPartOf p, above ln 63] (doDeleteSq cid idx p ln) s)
def execSetResources (cid : BitVec 16) (idx : BitVec 32) (p : Nat) (clusters : Word) (classM : Bool) (ceiling : Nat) (s : State) :
    Host.Outcome State Fault Refusal := .next (adminRow [noPartOf p, above ceiling 3] (doSetResources cid idx p clusters classM ceiling) s)
def execAllocJoinStore (cid : BitVec 16) (idx : BitVec 32) (p c : Nat) (granules : Word) (s : State) :
    Host.Outcome State Fault Refusal := .next (adminRow [noOwner p, above c 63] (doAllocJoin cid idx p c granules) s)
def execAllocAsa (cid : BitVec 16) (idx : BitVec 32) (p first setLog2 width : Nat) (s : State) : Host.Outcome State Fault Refusal :=
  .next (adminRow [noOwner p, above first 31, above setLog2 5, above width 2] (doAllocAsa cid idx p first setLog2 width) s)
def execBindPipes (cid : BitVec 16) (idx : BitVec 32) (p c first count depthLog2 : Nat) (s : State) :
    Host.Outcome State Fault Refusal := .next (adminRow [noPartOf p, above c 63, above first 255, below count 1, above count 256, below depthLog2 4, above depthLog2 14] (doBindPipes cid idx p c first count depthLog2) s)
def execUnbindPipes (cid : BitVec 16) (idx : BitVec 32) (p c first count : Nat) (s : State) : Host.Outcome State Fault Refusal :=
  .next (adminRow [noPartOf p, above c 63, above first 255, below count 1, above count 256] (doUnbindPipes cid idx p c first count) s)
def execSetInbox (cid : BitVec 16) (idx : BitVec 32) (p inbox : Nat) (base : Word) (bytes : Nat) (s : State) :
    Host.Outcome State Fault Refusal := .next (adminRow [noPartOf p, above inbox 255, above bytes 0xFFFFFFFF] (doSetInbox cid idx p inbox base bytes) s)
def execMapEvent (cid : BitVec 16) (idx : BitVec 32) (source port vector : Nat) (enable : Bool) (s : State) :
    Host.Outcome State Fault Refusal := .next (adminRow [above source 16895, above port 3, above vector 4095] (doMapEvent cid idx source port vector enable) s)
def execReadFixLog (cid : BitVec 16) (idx : BitVec 32) (firstFix : Word) (count : Nat) (dest : Word) (s : State) :
    Host.Outcome State Fault Refusal := .next (adminRow [below count 1, above count 65536] (doReadFixLog cid idx firstFix count dest) s)
def execReadPartitionFix (cid : BitVec 16) (idx : BitVec 32) (dest : Word) (s : State) : Host.Outcome State Fault Refusal :=
  .next (adminRow [] (doReadPartFix cid idx dest) s)
def execAdminApply (w : BitVec 32) (s : State) : Host.Outcome State Fault Refusal := .next (doAdminCtl w s)

end Sys2Proof.Machine
end

