-- ==== Sys2Proof/Machine/Host.lean ====
section
/-!
DEFINITION. The host ports (18): links going up and down, the reset of a port, completions and timeouts of the engine's reads,
requests that hit no BAR, and the messages of MSI-X.
-/
namespace Sys2Proof.Machine

open Sys2Proof

/-! ### MSI-X (R375) -/

/-- Sends the held messages of the vectors for which `f` holds, when the port can send. -/
def State.msixFlush (s : State) (h : Nat) (f : Nat → Bool) : State :=
  let k := s.hp h
  if k.linkUp && k.msixEn then
    let go := sortBy id (k.pba.filter (fun v => f v && k.unmasked.contains v))
    go.foldl (fun t v => t.emit (.msix h v)) (s.setHp h { k with pba := k.pba.filter (fun v => !go.contains v) })
  else s

/-- MSIX_UNMASK: the host masks or unmasks a vector, or sets or clears MSI-X Enable. -/
def doMsixUnmask (h : Nat) (x : MsixEvent) (s : State) : State :=
  if s.frozen || decide (4 ≤ h) then s
  else
    let k := s.hp h
    match x with
    | .unmask v =>
      if v < 4096 then State.msixFlush (s.setHp h { k with unmasked := setAdd k.unmasked v }) h (fun x => x == v) else s
    | .mask v => s.setHp h { k with unmasked := k.unmasked.filter (fun x => x ≠ v) }
    | .enable on => State.msixFlush (s.setHp h { k with msixEn := on }) h (fun _ => true)

/-! ### Links (R374, R483) -/

/-- The port that a PP's host access goes out on (R17).  Which port a pilot-mode access takes the spec does not say; the model takes
the management port (DESIGN CHOICE, log entry 9). -/
def State.ppPort (s : State) (n : Nat) : Nat :=
  match s.ppLeg n with
  | some (_, g) => (s.part g.entry.part).hostPort
  | none => s.mgmtPort

/-- The PP waits for a host read that is out on port `h`. -/
def Pp.outOn (p : Pp) (h : Nat) : Bool := p.blocked = .hostLoad && p.hostReady.isNone && p.hostAt.any (fun x => x.1 == h)

/-- R374: reads of PPs that are out on port `h` fail, abandoned ones among them. -/
def State.failPps (s : State) (h : Nat) : State :=
  { s with pps := tmap s.pps (fun _ p =>
      let q := { p with hostDrop := p.hostDrop.filter (fun x => x.1 ≠ h) }
      if p.outOn h then { q with hostReady := some (0, true) } else q) }

/-- R374: fetches on port `h` wait for the link; they are not counted. -/
def State.failFetches (s : State) (h : Nat) : State :=
  let wait := fun (f : Fetch) => { f with waiting := true, linkDown := true }
  let s1 := { s with sqs := tmap s.sqs (fun _ q =>
      match q.fetch with
      | some f => if q.exist && (s.part q.part).hostPort == h && region s f.dpa == .host then { q with fetch := some (wait f) } else q
      | none => q) }
  if h = s.mgmtPort then { s1 with admin := { s1.admin with fetch := s1.admin.fetch.map wait } } else s1

def State.linkFalls (s : State) (h : Nat) : State :=
  ((s.setHp h { s.hp h with linkUp := false, speed := 0, width := 0 }).failPps h).failFetches h |>.hostLost h |>.dmWakeAll

/-- While the engine is frozen nothing of it is out on the port, and only the link falls (R427). -/
def doHostLinkDown (h : Nat) (s : State) : State :=
  if !(s.hp h).linkUp then s
  else if s.frozen then s.setHp h { s.hp h with linkUp := false, speed := 0, width := 0 }
  else s.linkFalls h

/-- R368: the rates and widths that a link of `lanes` lanes comes up at. -/
def linkFits (lanes speed width : Nat) : Bool :=
  decide (1 ≤ speed ∧ speed ≤ 6) && decide (width ≤ lanes) && [1, 2, 4, 8, 16].contains width

/-- The link is up: what waited for it goes out.  A port whose lanes are powered down or that the straps do not enable has no link
(R369). -/
def doHostLinkUp (h speed : Nat) (x : LinkIn) (s : State) : State :=
  if s.frozen || (s.hp h).linkUp || decide (4 ≤ h) || !linkFits (s.hp h).lanes speed x.lanes then s
  else
    let s1 := (s.setHp h { s.hp h with linkUp := true, speed := speed, width := x.lanes, vc1 := x.vc1 && h == s.mgmtPort }).msixFlush h
      (fun _ => true)
    let s2 := s1.parts.foldl (fun t e => if e.2.exist && e.2.hostPort == h then t.postKept e.1 else t) s1 |>.admitAll
    let s3 := s2.sqs.foldl (fun t e =>
      match e.2.fetch with
      | some f => if f.waiting && f.linkDown && (t.part e.2.part).hostPort == h && t.sqFetches e.1 then t.issueRead e.1 f else t
      | none => t) s2
    if h = s3.mgmtPort then
      match s3.admin.fetch with
      | some f => if f.waiting && f.linkDown && !s3.failStopped && s3.admin.enable then s3.adminRead f else s3
      | none => s3
    else s3

/-- R441: a reset of the port. -/
def doHostPortReset (h : Nat) (s : State) : State :=
  if s.frozen || decide (4 ≤ h) then s
  else
    let s1 := s.linkFalls h
    s1.setHp h { s1.hp h with msixEn := false, unmasked := [], msixTab := [], pba := [], vc1 := false }

/-- R370: a request that hits no BAR. -/
def doHostUnclaimed (h : Nat) (posted : Bool) (s : State) : State :=
  if s.frozen || !(s.hp h).linkUp then s
  else if posted then s.log 0x0A02 h noPart 0 else s.emit (.hostUr h)

/-! ### Completions of reads (R373) -/

/-- R373: a read of requester `r` at DPA `d` is out on port `h`. -/
def State.hostOut (s : State) (h : Nat) (r : HostReq) (d : Nat) : Bool :=
  s.hostWant.any (fun x => x.req == r && x.port == h && x.dpa == d)
  || match r with
     | .pp n => (s.pp n).hostDrop.contains (h, d) || ((s.pp n).outOn h && (s.pp n).hostAt == some (h, d))
     | .admin => h == s.mgmtPort && s.admin.fetch.any (fun f => !f.waiting && f.dpa == d)
     | _ => false

/-- A host read of PP `n` at DPA `d` on port `h` has come back: that of an abandoned load is discarded (R42); of two at one address
the older one comes first. -/
def State.ppHostDone (s : State) (n h d : Nat) (failed : Bool) : State :=
  let p := s.pp n
  if p.hostDrop.contains (h, d) then s.setPp n { p with hostDrop := p.hostDrop.erase (h, d) }
  else if p.outOn h && p.hostAt == some (h, d) then s.setPp n { p with hostReady := some (d / 64, failed) }
  else s

/-- A read has come back with an outcome (0 data, 1 failure, 2 poisoned data), and its requester goes on as R373 states: a load of a
PP at once, a mover channel at its next turn, an administrative fetch at its retry or with ADMIN_FETCH_DATA, and another command when it is
presented again (log entry 9). -/
def State.hostDone (s : State) (h : Nat) (r : HostReq) (d st : Nat) : State :=
  match r with
  | .pp n => if s.hostWant.any (fun x => x.req == r && x.dpa == d) then s.hostReturn r d st else s.ppHostDone n h d (st == 1)
  | .admin => if st = 0 then s else s.adminFails
  | .channel c _ => (s.hostReturn r d st).dmWake c
  | .walk c => (s.hostReturn r d st).dmWake c
  | .unit _ => s.hostReturn r d st

/-- A failed read. -/
def State.hostFail (s : State) (h : Nat) (r : HostReq) (d : Nat) : State :=
  State.hostDone { s with hostBad := tput s.hostBad (d / 64) 1 } h r d 1

def doHostTimeout (h : Nat) (r : HostReq) (dpa : Word) (s : State) : State :=
  if s.frozen || !(s.hp h).linkUp || !inHostWindow dpa.toNat || !s.hostOut h r dpa.toNat then s
  else (s.countTimeout h true).hostFail h r dpa.toNat

/-- A completion of a read that is out: its data become what the model knows of the lines, or the failure is kept (log entry 9). -/
def doHostCompletion (h : Nat) (r : HostReq) (dpa : Word) (st : CplStatus) (data : List Byte) (s : State) : State :=
  let d := dpa.toNat
  if s.frozen || !(s.hp h).linkUp || !inHostWindow d || !inHostWindow (d + data.length) || !s.hostOut h r d then s
  else
    match st with
    | .refused => s.hostFail h r d
    | _ =>
      let lines := linesOf d (max data.length 1)
      let s1 : State :=
        { s with mem := writeBytes s.mem d data,
                 hostBad := lines.foldl (fun t l => if st = .poisoned then tput t l 2 else tdel t l) s.hostBad }
      s1.hostDone h r d (if st = .poisoned then 2 else 0)

def execMsixUnmask (h : Nat) (v : MsixEvent) (s : State) : Host.Outcome State Fault Refusal := .next (doMsixUnmask h v s)
def execHostLinkDown (h : Nat) (s : State) : Host.Outcome State Fault Refusal := .next (doHostLinkDown h s)
def execHostLinkUp (h speed : Nat) (width : LinkIn) (s : State) : Host.Outcome State Fault Refusal :=
  .next (doHostLinkUp h speed width s)
def execHostPortReset (h : Nat) (s : State) : Host.Outcome State Fault Refusal := .next (doHostPortReset h s)
def execHostUnclaimed (h : Nat) (posted : Bool) (s : State) : Host.Outcome State Fault Refusal := .next (doHostUnclaimed h posted s)
def execHostCompletionTimeout (h : Nat) (r : HostReq) (dpa : Word) (s : State) : Host.Outcome State Fault Refusal :=
  .next (doHostTimeout h r dpa s)
def execHostCompletion (h : Nat) (r : HostReq) (dpa : Word) (st : CplStatus) (data : List (BitVec 8)) (s : State) :
    Host.Outcome State Fault Refusal := .next (doHostCompletion h r dpa st data s)

end Sys2Proof.Machine
end

