-- ==== Sys2Proof/Machine/Nvme.lean ====
section
/-!
DEFINITION. The drive ports and the NVMe engine (18): drives, grants, request rings, drive commands and their results.
-/
namespace Sys2Proof.Machine

open Sys2Proof

/-! ### Statuses (R383) -/

def nsInvalid : Nat := 0x0901
def nsRange : Nat := 0x0902
def nsNotPermitted : Nat := 0x0903
def nsAccess : Nat := 0x0904
def nsError : Nat := 0x0905
def nsShort : Nat := 0x0906
def nsTimeout : Nat := 0x0907
def nsLost : Nat := 0x0908

/-- The fault context of the NVMe engine (AGENT 11). -/
def npCtx (p : Nat) : FaultCtx := { part := p, sq := 0xFFFF, seq := 0, agent := 11, cluster := 0xFF, pp := 0xFF }

/-- An STT access of the NVMe engine; a fault leaves a record (R318). -/
def State.npDpa (s : State) (p ppa : Nat) (need : Need) : Option Nat × State :=
  match (s.xlatUse p).sttAccess p ppa need with
  | (.ok d, s1) => (some d, s1)
  | (.error f, s1) => (none, s1.faultRecord (npCtx p) f need.w false ppa)

/-- Writes inside one page, to memory or on the partition's host port; a port that cannot send loses the bytes (R483). -/
def State.npWrite (s : State) (p d : Nat) (bs : List Byte) : State :=
  match region s d with
  | .host => (s.hostPost (s.part p).hostPort (some (s.part p).pasid) (d - hostBase) bs).2
  | _ =>
    ((chunksOf d bs.length).foldl (fun (t : State × List Byte) c => (t.1.memWrite c.1 (t.2.take c.2), t.2.drop c.2)) (s, bs)).1

/-! ### Results (R382) -/

def npRecord (q : DriveReq) (issue done : Word) : List Byte :=
  leBytes 2 q.status ++ leBytes 2 q.sc ++ leBytes 4 q.bytes ++ leBytes 4 q.idx.toNat ++ zeros 4 ++ leBytes 8 issue.toNat
    ++ leBytes 8 done.toNat

/-- The result record; the stamps of a request that issued no command are free values (log entry 12). -/
def State.npResult (s : State) (q : DriveReq) : State :=
  let (issue, done, s1) : Word × Word × State := match q.issue with
    | some w => (w, s.fc.chrono, s)
    | none => (Config.freeWord s.freeSeq, Config.freeWord (s.freeSeq + 1), { s with freeSeq := s.freeSeq + 2 })
  let lost := fun (t : State) => t.log 0x0B04 noInst q.part (BitVec.ofNat 64 (q.idx.toNat + q.grant * 2 ^ 48))
  if q.result.toNat % 32 ≠ 0 then lost s1
  else
    match s1.npDpa q.part q.result.toNat needW with
    | (none, s2) => lost s2
    | (some d, s2) =>
      match region s2 d with
      | .host =>
        match s2.hostPost (s2.part q.part).hostPort (some (s2.part q.part).pasid) (d - hostBase) (npRecord q issue done) with
        | (true, s3) => s3
        | (false, s3) => lost s3
      | _ => s2.memWrite d (npRecord q issue done)

def State.grantOpen (s : State) (g : Nat) : Nat := (s.reqs.filter (fun e => e.2.grant = g)).length

/-- The request is over; a freed slot of the in-flight limit notifies the engine (R380). -/
def State.npRemove (s : State) (r g : Nat) : State :=
  State.setGrant { s with reqs := tdel s.reqs r } g { s.grant g with notified := true }

/-- Pushes TAG (R382); a full pipe delays it. -/
def State.npPush (s : State) (r : Nat) (q : DriveReq) : State :=
  if !q.push then s.npRemove r q.grant
  else
    match s.pipeOf q.pipe q.part with
    | none => (s.log 0x0B03 noInst q.part 0).npRemove r q.grant
    | some (c, i, p) =>
      if p.entries.length < p.depth then
        State.npRemove ((s.setCl c { s.cl c with pipes := tput (s.cl c).pipes i { p with entries := p.entries ++ [q.tag] } }).dmWatch c i)
          r q.grant
      else { s with reqs := tput s.reqs r { q with pushWait := true } }

/-- Every command of the request has completed. -/
def State.npFinish (s : State) (r : Nat) (q : DriveReq) : State := (s.npResult q).npPush r q

/-- A request that issues no command. -/
def State.npEndNow (s : State) (r : Nat) (q : DriveReq) (status : Nat) : State :=
  State.npFinish { s with reqs := tput s.reqs r { q with status := status } } r { q with status := status }

/-! ### Reading the ring (R379–R381) -/

/-- R379: the fields keep to the table. -/
def npEntryOk (b : List Byte) (lba : Nat) : Bool :=
  let op := fld b 0 1
  let fl := fld b 1 1
  let blocks := fld b 4 4
  let push := bit fl 1
  decide (1 ≤ op ∧ op ≤ 3) && decide (fl < 4) && (!bit fl 0 || op == 2) && zeroAt b 2 2 && zeroAt b 48 12
  && decide (blocks ≤ 4096) && decide (blocks * lba ≤ 16777216)
  && (if op = 3 then blocks == 0 && fld b 16 8 == 0 else fld b 16 8 % 64 == 0)
  && (push || fld b 32 8 == 0)

/-- Pieces of [a, a + n) that lie in one 4 KiB page each. -/
def pageChunks : Nat → Nat → Nat → List (Nat × Nat)
  | 0, _, _ => []
  | f + 1, a, n =>
    if n = 0 then []
    else
      let k := min n (4096 - a % 4096)
      (a, k) :: pageChunks f (a + k) (n - k)

/-- Translates a buffer whole. -/
def State.npBuffer (s : State) (p : Nat) (need : Need) : List (Nat × Nat) → Option (List (Nat × Nat)) × State
  | [] => (some [], s)
  | (a, n) :: t =>
    match s.npDpa p a need with
    | (none, s1) => (none, s1)
    | (some d, s1) =>
      match s1.npBuffer p need t with
      | (some l, s2) => (some ((d, n) :: l), s2)
      | (none, s2) => (none, s2)

/-- The part [o, o + n) of a translated buffer. -/
def windowOf : List (Nat × Nat) → Nat → Nat → List (Nat × Nat)
  | [], _, _ => []
  | (d, k) :: t, o, n =>
    if n = 0 then []
    else if k ≤ o then windowOf t (o - k) n
    else
      let m := min n (k - o)
      (d + o, m) :: windowOf t 0 (n - m)

/-- The commands of a request, in ascending LBA order, each by LBA, offset in the buffer and bytes.  They wait for room on the queue
pair of their grant (R377). -/
def State.npQueue (s : State) (d qp r : Nat) (win : List (Nat × Nat)) : List (Nat × Nat × Nat) → State
  | [] => s
  | (lba, o, n) :: t =>
    let k : DriveCmd :=
      { drive := d, qp := qp, issued := false, win := 0, req := r, lba := lba, bytes := n, pages := windowOf win o n }
    State.npQueue { s with cmds := tput s.cmds s.nextReq k, nextReq := s.nextReq + 1 } d qp r win t

/-- The reading of partition p's rings, and the issue of its commands, are stopped (R386). -/
def State.npStops (s : State) (p : Nat) : Bool :=
  let k := s.part p
  k.quenched || k.quenchGo || k.quiesced || k.quiesce.isSome

/-- A queue pair takes another command: one fewer than its depth are outstanding at most (PRESUMED of NVMe, log entry 28). -/
def State.npRoom (s : State) (d qp : Nat) : Bool :=
  decide ((s.cmds.filter (fun e => e.2.drive == d && e.2.qp == qp && e.2.issued)).length < max 1 ((s.drive d).depth - 1))

/-- What the drive reads of the buffer of a WRITE: pieces in the host window on the partition's port (R356), and lines of memory, whose
uncorrectable ones are reported (R350).  The model lets the drive read the buffer when the command is issued (DESIGN CHOICE, log entry
28). -/
def State.npFetch (s : State) (p : Nat) : List (Nat × Nat) → State
  | [] => s
  | (d, n) :: t =>
    let k := s.part p
    let s1 := match region s d with
      | .host => if (s.hp k.hostPort).linkUp then s.emit (.hostRead k.hostPort (some k.pasid) (d - hostBase) n false) else s
      | _ => (s.bad.filter (fun l => decide (d / 64 ≤ l ∧ l < (d + n + 63) / 64))).foldl (fun t l => t.memUncorrectable (l * 64)) s
    s1.npFetch p t

/-- Issues command `cmd` of request `q`: it names its namespace, its FUA, and its window of drive-side bus addresses, whose base is a free
value (R376, R377, R387). -/
def State.npIssue (s : State) (cmd : Nat) (k : DriveCmd) (q : DriveReq) : State :=
  let win := (Config.freeWord s.freeSeq).toNat
  let s1 : State := { s with freeSeq := s.freeSeq + 1, cmds := tput s.cmds cmd { k with issued := true, win := win },
                             reqs := tput s.reqs k.req { q with issue := some (q.issue.getD s.fc.chrono) } }
  let s2 := s1.emit (.drive k.drive k.qp q.nsid q.op q.fua k.lba k.bytes win)
  let s3 := s2.setDrive k.drive { s2.drive k.drive with commands := satInc (s2.drive k.drive).commands 0xFFFFFFFF }
  if q.op = 2 then s3.npFetch q.part k.pages else s3

/-- Issues the waiting commands of drive `d` for which there is room, oldest first (R377, R381). -/
def State.npKick (s : State) (d : Nat) : State :=
  (s.cmds.filter (fun e => e.2.drive == d && !e.2.issued)).foldl (fun t e =>
    match tget? t.reqs e.2.req with
    | some q => if !t.npStops q.part && t.npRoom d e.2.qp then t.npIssue e.1 e.2 q else t
    | none => t) s

/-- The split into commands that each lie within the transfer limit. -/
def npSplit (per lbaSize first : Nat) : Nat → Nat → Nat → List (Nat × Nat × Nat)
  | 0, _, _ => []
  | f + 1, i, blocks =>
    if blocks = 0 then []
    else
      let n := min per blocks
      (first + i, i * lbaSize, n * lbaSize) :: npSplit per lbaSize first f (i + n) (blocks - n)

/-- An entry that has been read becomes a request (R381, R383). -/
def State.npRequest (s : State) (g : Nat) (idx : BitVec 32) (b : List Byte) : State :=
  let gr := (s.grant g).live
  let drv := s.drive gr.port
  let ns := drv.ns.find? (fun n => n.nsid == gr.nsid)
  let lba := match ns with | some n => n.lba | none => 512
  let op := fld b 0 1
  let blocks := fld b 4 4
  let r := s.nextReq
  let q : DriveReq :=
    { grant := g, idx := idx, op := op, part := gr.part, lba := fld b 8 8, blocks := blocks, buf := BitVec.ofNat 64 (fld b 16 8),
      result := BitVec.ofNat 64 (fld b 24 8), fua := bit (fld b 1 1) 0, nsid := gr.nsid, push := bit (fld b 1 1) 1, pipe := BitVec.ofNat 64 (fld b 32 8),
      tag := BitVec.ofNat 64 (fld b 40 8), status := 0, statusLba := 0, sc := 0, bytes := 0, issue := none, open' := 0,
      pushWait := false }
  let s0 := { s with nextReq := r + 1, reqs := tput s.reqs r q }
  if !npEntryOk b lba then s0.npEndNow r q nsInvalid
  else if gr.count.toNat < q.lba + blocks then s0.npEndNow r q nsRange
  else if op ≠ 1 && !gr.writeOk then s0.npEndNow r q nsNotPermitted
  else if !drv.ready then s0.npEndNow r q nsLost
  else if op ≠ 3 && blocks = 0 then s0.npEndNow r q 0
  else
    match s0.npBuffer gr.part (if op = 1 then needW else needR) (pageChunks 4097 q.buf.toNat (blocks * lba)) with
    | (none, s1) => s1.npEndNow r q nsAccess
    | (some win, s1) =>
      let first := gr.first.toNat + q.lba
      let per := max 1 (drv.xfer / lba)
      let parts := if op = 3 then [(first, 0, 0)] else npSplit per lba first 4097 0 blocks
      (State.npQueue { s1 with reqs := tput s1.reqs r { q with open' := parts.length } } gr.port (g % drv.ioq) r win parts).npKick gr.port

/-- A ring entry at DPA `d`.  A read of host memory that fails ends the pass (R373 does not say; DESIGN CHOICE, log entry 28). -/
def State.npEntry (s : State) (p d : Nat) : Option (List Byte) × State :=
  if region s d = .host then
    match s.hostTake (.unit 66) (some p) d 64 with
    | (.ok b, s1) => (some b, s1)
    | (.error _, s1) => (none, s1)
  else (some (s.lineOrFree (d / 64)).1, (s.lineOrFree (d / 64)).2)

/-- One pass from HEAD: at most `f` entries. -/
def State.npPass (s : State) (g : Nat) : Nat → State
  | 0 => s
  | f + 1 =>
    let k := s.grant g
    let gr := k.live
    if 256 ≤ s.grantOpen g then s
    else
      let ppa := gr.ring.toNat + 128 + 64 * (k.head.toNat % 2 ^ gr.sizeLog2)
      match s.npDpa gr.part ppa needR with
      | (none, s1) => s1
      | (some d, s1) =>
        match s1.npEntry gr.part d with
        | (none, s2) => s2
        | (some b, s2) =>
          if fld b 60 4 ≠ k.head.toNat then s2
          else
            let s3 := s2.setGrant g { k with head := k.head + 1 }
            let s4 := match s3.npDpa gr.part (gr.ring.toNat + 64) needW with
              | (some h, t) => t.npWrite gr.part h (leBytes 4 (k.head + 1).toNat)
              | (none, t) => t
            State.npPass (s4.npRequest g k.head b) g f

/-- RING_PASS: a notified grant's ring is read, unless its partition is quenched or quiesced (R380, R386); commands of its drive that a
quench or quiesce has held back go first.  The pass uses the live copy of the grant's registers (R417). -/
def doRingPass (g : Nat) (s0 : State) : State :=
  let k0 := s0.grant g
  if s0.frozen || s0.failStopped || !k0.notified || !k0.live.enable || s0.npStops k0.live.part then s0
  else
    let s := (s0.parityUse true (some k0.live.part) (0x70000 + 0x20 * g) 32).npKick k0.live.port
    if (s.part k0.live.part).halted then s
    else State.npPass (s.setGrant g { s.grant g with notified := false }) g (2 ^ k0.live.sizeLog2)

/-! ### Grants (R378) -/

def GrantSet.ofCtl (g : GrantSet) (w : Word) : GrantSet :=
  { g with nsid := bits w.toNat 31 0, port := bits w.toNat 36 32, part := bits w.toNat 45 37, sizeLog2 := bits w.toNat 49 46,
           writeOk := w.getLsbD 50, enable := w.getLsbD 51 }

/-- R378: the shadow may become live; the DPA of its control line. -/
def State.grantCheck (s : State) (k : Grant) : Option Nat × State :=
  let g := k.sh
  let drv := s.drive g.port
  let nsOk := match drv.ns.find? (fun n => n.nsid == g.nsid) with
    | some n => n.usable && decide (g.first.toNat + g.count.toNat ≤ n.blocks)
    | none => false
  if k.live.enable || !(s.part g.part).exist || !drv.ready || !nsOk || g.count = 0 || g.sizeLog2 < 4 || 12 < g.sizeLog2 then (none, s)
  else
    match s.sttXlate g.part g.ring.toNat needRW with
    | (.ok d, s1) => (some d, s1)
    | (.error f, s1) => (none, s1.faultRecord (npCtx g.part) f true false g.ring.toNat)

/-- A write of NP.GRANT_CTL[g]. -/
def doGrantCtl (g : Nat) (w : Word) (s : State) : State :=
  if s.frozen || decide (1024 ≤ g) then s
  else
    let k0 := s.grant g
    let k : Grant := { k0 with sh := k0.sh.ofCtl w, applyErr := k0.applyErr && !w.getLsbD 53 }
    let s1 := s.setGrant g k
    let s1 := if w.getLsbD 52 then s1.parityUse false (some k.sh.part) (0x70000 + 0x20 * g) 0x20 else s1
    if !w.getLsbD 52 then s1
    else if !k.sh.enable then (s1.parityTaken (0x70000 + 0x20 * g) 0x20).setGrant g { k with live := k.sh, notified := false, applyErr := false }
    else
      match s1.grantCheck k with
      | (some d, s2) =>
        ((s2.npWrite k.sh.part (d + 64) (leBytes 4 0)).parityTaken (0x70000 + 0x20 * g) 0x20).setGrant g
          { k with live := k.sh, head := 0, ctl := d, notified := true, applyErr := false }
      | (none, s2) => (s2.setGrant g { k with applyErr := true }).log 0x0B02 noInst noPart 0

/-- A far atomic on DPA `d` notifies the grants whose control line it hit (R380). -/
def State.notifyGrants (s : State) (d : Nat) : State :=
  { s with grants := tmap s.grants (fun _ k => if k.live.enable && k.ctl / 64 = d / 64 then { k with notified := true } else k) }

/-! ### Commands ending (R381–R385) -/

/-- Spreads the data of a command over its window. -/
def State.npDeliver (s : State) (p : Nat) : List (Nat × Nat) → List Byte → State
  | [], _ => s
  | (d, n) :: t, bs => if bs.isEmpty then s else State.npDeliver (s.npWrite p d (bs.take n)) p t (bs.drop n)

/-- Bytes that the model cannot know: old or new data, byte by byte (R385). -/
def State.npScramble (s : State) (p : Nat) (k : DriveCmd) : State :=
  let n := (k.bytes + 7) / 8
  let bs := (List.range n).flatMap (fun i => leBytes 8 (Config.freeWord (s.freeSeq + i)).toNat)
  State.npDeliver { s with freeSeq := s.freeSeq + n } p k.pages (bs.take k.bytes)

/-- The command is over: its request takes the status of the failing command with the lowest LBA, and ends with its last
command. -/
def State.npCmdEnd (s : State) (cmd : Nat) (k : DriveCmd) (status sc bytes : Nat) : State :=
  let s1 := { s with cmds := tdel s.cmds cmd }
  match tget? s1.reqs k.req with
  | none => s1
  | some q =>
    let worse := decide (status ≠ 0) && (decide (q.status = 0) || decide (k.lba < q.statusLba))
    let q1 : DriveReq :=
      { q with open' := q.open' - 1, bytes := q.bytes + bytes, status := if worse then status else q.status,
               statusLba := if worse then k.lba else q.statusLba,
               sc := if decide (sc ≠ 0) && decide (q.sc = 0) then sc else q.sc }
    let s2 := { s1 with reqs := tput s1.reqs k.req q1 }
    State.npKick (if q1.open' = 0 then s2.npFinish k.req q1 else s2) k.drive

/-- NVME_CMD_COMPLETE: `sc` is the completion's status word. -/
def doNvmeComplete (cmd : Nat) (sc : BitVec 16) (data : List Byte) (s : State) : State :=
  match tget? s.cmds cmd with
  | none => s
  | some k =>
    if s.frozen || !k.issued then s
    else
      match tget? s.reqs k.req with
      | none => { s with cmds := tdel s.cmds cmd }
      | some q =>
        let st := sc.toNat / 2
        let read := decide (q.op = 1)
        let bs := data.take k.bytes
        let s1 := if read then s.npDeliver q.part k.pages bs else s
        let moved := if read then bs.length else if st = 0 then k.bytes else bs.length
        let status := if st ≠ 0 then nsError else if read && decide (bs.length < k.bytes) then nsShort else 0
        s1.npCmdEnd cmd k status st moved

/-- A command ends for want of an answer or of its drive.  How many of its bytes had moved the spec does not say: a free value
(log entry 12).  A command that had still to be issued has moved none. -/
def State.npAbort (s : State) (cmd status : Nat) : State :=
  match tget? s.cmds cmd with
  | none => s
  | some k =>
    if !k.issued then s.npCmdEnd cmd k status 0 0
    else
    let (n, s0) := s.free
    let s1 := match tget? s0.reqs k.req with
      | some q => if q.op = 1 then s0.npScramble q.part k else s0
      | none => s0
    s1.npCmdEnd cmd k status 0 (n % (k.bytes + 1))

/-- The command is issued and has not ended. -/
def State.npOut (s : State) (cmd : Nat) : Bool := (tget? s.cmds cmd).any (·.issued)

def doNvmeTimeout (cmd : Nat) (s : State) : State := if s.frozen || !s.npOut cmd then s else s.npAbort cmd nsTimeout

/-- DRIVE_COMPLETION_TIMEOUT: a read of the drive that command `cmd` needed fails as a bus error.  The spec does not say with
which status the command then ends: one of DRIVE_ERROR, TIMEOUT and DRIVE_LOST, by a free value (log entry 12). -/
def doDriveCplTimeout (cmd : Nat) (s : State) : State :=
  if s.frozen || !s.npOut cmd then s
  else
    let (k, s1) := s.free
    s1.npAbort cmd (match k % 3 with | 0 => nsError | 1 => nsTimeout | _ => nsLost)

def doPushRetry (r : Nat) (s : State) : State :=
  match tget? s.reqs r with
  | some q => if s.frozen || !q.pushWait then s else s.npPush r { q with pushWait := false }
  | none => s

/-! ### Drives (R376, R377, R385) -/

/-- A x4 port with the rates of R368. -/
def doDriveLinkUp (d speed width : Nat) (s : State) : State :=
  if s.frozen || decide (32 ≤ d) || (s.drive d).linkUp || !decide (1 ≤ speed ∧ speed ≤ 6) || !([1, 2, 4].contains width) then s
  else s.setDrive d { s.drive d with linkUp := true, speed := speed, width := width }

/-- R377; which namespaces are usable follows from their LBA size and metadata (R376). -/
def doDriveReady (d qp mqes xfer : Nat) (ns : List NsInfo) (s : State) : State :=
  if s.frozen || !(s.drive d).linkUp || (s.drive d).ready then s
  else
    s.setDrive d { s.drive d with ready := true, ioq := min 64 qp, depth := min 1024 (mqes + 1), xfer := xfer, ns := ns,
                                  unusable := ns.any (fun n => !n.usable) }

/-- R385: the link goes down, or with `fatal` the controller reports a fatal status and the link stays up. -/
def doDriveLinkDown (x : DriveLoss) (s : State) : State :=
  let d := x.d
  if s.frozen || !(s.drive d).linkUp then s
  else
    let k := { s.drive d with ready := false, ioq := 0, depth := 0 }
    let s1 := s.setDrive d (if x.fatal then k else { k with linkUp := false, speed := 0, width := 0 })
    let s2 := (s1.cmds.filter (fun e => e.2.drive = d)).foldl (fun t e => t.npAbort e.1 nsLost) s1
    s2.log 0x0B05 d noPart 0

/-- A drive-side bus address lies in the window of an issued command of drive `d`. -/
def State.inWindow (s : State) (d a : Nat) : Bool :=
  s.cmds.any (fun e => e.2.drive == d && e.2.issued && decide (e.2.win ≤ a ∧ a < e.2.win + e.2.bytes))

/-- R377: a request outside every live window. -/
def doDriveStray (d : Nat) (addr : Word) (s : State) : State :=
  if s.frozen || !(s.drive d).linkUp || s.inWindow d addr.toNat then s else (s.emit (.driveUr d)).log 0x0B01 d noPart 0

def execDriveLinkUp (d speed width : Nat) (s : State) : Host.Outcome State Fault Refusal := .next (doDriveLinkUp d speed width s)
def execDriveReady (d qp mqes xfer : Nat) (ns : List NsInfo) (s : State) : Host.Outcome State Fault Refusal :=
  .next (doDriveReady d qp mqes xfer ns s)
def execDriveLinkDown (d : DriveLoss) (s : State) : Host.Outcome State Fault Refusal := .next (doDriveLinkDown d s)
def execDriveStray (d : Nat) (addr : Word) (s : State) : Host.Outcome State Fault Refusal := .next (doDriveStray d addr s)
def execGrantApply (g : Nat) (w : Word) (s : State) : Host.Outcome State Fault Refusal := .next (doGrantCtl g w s)
def execRingPass (g : Nat) (s : State) : Host.Outcome State Fault Refusal :=
  .next (s.settle [.unit 66] (doRingPass g))
def execNvmeCmdComplete (cmd : Nat) (sc : BitVec 16) (data : List (BitVec 8)) (s : State) : Host.Outcome State Fault Refusal :=
  .next (doNvmeComplete cmd sc data s)
def execNpPushRetry (r : Nat) (s : State) : Host.Outcome State Fault Refusal := .next (doPushRetry r s)
def execNvmeCmdTimeout (cmd : Nat) (s : State) : Host.Outcome State Fault Refusal := .next (doNvmeTimeout cmd s)
def execDriveCompletionTimeout (cmd : Nat) (s : State) : Host.Outcome State Fault Refusal := .next (doDriveCplTimeout cmd s)

end Sys2Proof.Machine
end

