-- ==== Sys2Proof/Machine/Chain.lean ====
section
/-!
DEFINITION. The chain (19): enumeration, TICK at a member, CHAIN_DOWN and the orphaned state, shuffle inboxes and their answers,
and the links' training, probing and resending.
-/
namespace Sys2Proof.Machine

open Sys2Proof

/-! ### Enumeration (R390–R392) -/

def State.chainUpd (s : State) (f : Chain → Chain) : State := { s with chain := f s.chain }

/-- The payload of ENUM or ENUM_END. -/
def enumPayload (value : Nat) (excess : Bool) (stamp fix : Word) : List Byte :=
  leBytes 1 value ++ leBytes 1 (b2n excess) ++ leBytes 8 stamp.toNat ++ leBytes 8 fix.toNat

/-- An ENUM (3) or ENUM_END (4) flit on a bundle. -/
def State.sendEnum (s : State) (next : Bool) (ftype value : Nat) (excess : Bool) (stamp fix : Word) : State :=
  match s.bundleLink next with
  | some l => s.sendPlain l ftype (enumPayload value excess stamp fix)
  | none => s

/-- The link of a bundle that a frame error is logged with, where no command names the link: its lowest one that is up (log entry 21). -/
def State.linkOf (s : State) (next : Bool) : Nat := (s.bundleLink next).getD noInst

/-- Step 1: a chain reset. -/
def State.enumStart (s : State) : State :=
  (s.chainUpd (fun c => { c with status := 2, address := 0, fresh := true, refused := [] })).sendEnum true 3 1 false s.fc.chrono s.fc.sealed

/-- ENUMERATE: a chain reset, from CL.CTL.ENUMERATE or the end of boot. -/
def doEnumerate (s : State) : State :=
  if s.frozen then s
  else if s.chain.mode = 2 then s.log 0x0C04 noInst noPart 0
  else if s.chain.mode ≠ 1 then s
  else if s.fc.ticking then s.log 0x0C04 noInst noPart 0
  else s.enumStart

def maxW (a b : Word) : Word := if a.toNat < b.toNat then b else a

/-- Step 4 at the head: the chain of `n` units is formed. -/
def State.enumDone (s : State) (n : Nat) (ring : Bool) (stamp fix : Word) : State :=
  let s1 := s.chainUpd (fun c => { c with status := 3, units := n, size := n, ring := ring,
                                          members := BitVec.ofNat 16 (2 ^ n - 1), maxStamp := stamp, maxFix := fix })
  let up := stamp + 1000000
  { s1 with fc := { s1.fc with chrono := if s1.fc.chrono.toNat < stamp.toNat + 1000000 then up else s1.fc.chrono,
                               sealed := maxW s1.fc.sealed fix, ready := [], misses := [], downSeen := 0 } }

/-- ENUM received on PREV.  A head takes it as the return of its own token while it enumerates: one that comes straight from another
head has VALUE = 1, and is a frame error (R389, R397). -/
def doEnum (value : Nat) (stamp fix : Word) (s : State) : State :=
  if s.frozen then s
  else if s.chain.mode = 1 then
    (if s.chain.status = 2 && decide (2 ≤ value) then s.enumDone value true stamp fix else s.log 0x0C05 (s.linkOf false) noPart 0)
  else if s.chain.mode ≠ 2 || !(s.chain.status = 1 || (s.chain.status = 3 && !s.fc.ticking)) then s
  else if 16 ≤ value then
    let s1 := (s.sendEnum false 4 16 true stamp fix).log 0x0C02 noInst noPart 0
    s1.chainUpd (fun c => { c with status := 5,
                                   links := tmap c.links (fun _ k => { Link.reset with retrains := k.retrains, replays := k.replays }) })
  else
    let st := maxW stamp s.fc.chrono
    let fx := maxW fix s.fc.sealed
    let s1 := s.chainUpd (fun c => { c with status := 3, address := value, units := value + 1, fresh := true, refused := [], maxStamp := st, maxFix := fx })
    if (s1.bundleLink true).isSome then s1.sendEnum true 3 (value + 1) false st fx
    else s1.sendEnum false 4 (value + 1) false st fx

/-- ENUM_END received on NEXT. -/
def doEnumEnd (count : Nat) (excess : Bool) (stamp fix : Word) (s : State) : State :=
  if s.frozen then s
  else if s.chain.mode = 1 then
    if s.chain.status ≠ 2 then s
    else
      let s1 := if excess then s.log 0x0C03 noInst noPart 0 else s
      s1.enumDone count false stamp fix
  else if s.chain.mode = 2 then s.sendEnum false 4 count excess stamp fix
  else s

/-- ENUM_TIMEOUT: 10 ms have passed without an end. -/
def doEnumTimeout (s : State) : State :=
  if s.frozen || s.chain.mode ≠ 1 || s.chain.status ≠ 2 then s else (s.log 0x0C01 noInst noPart 0).enumStart

/-! ### TICK (R398–R401) -/

/-- R398: what the chronometer has to gain, or to lose. -/
def State.tickSlew (s : State) (l : Nat) (sendStamp : Word) : Int :=
  let here : Int := s.fc.chrono.toNat
  let there : Int := sendStamp.toNat + (s.link l).latency
  there - here

/-- A TICK that a member receives while it does not tick: it ticks from here.  At the first one since the chain reset (`fresh`) it takes
the head's chronometer (R390); at a later one it corrects its own as at any TICK (R398). -/
def State.firstTick (s : State) (fresh : Bool) (l n : Nat) (stamp : Word) (len : Nat) (last : Bool) (lost : Nat) (sendStamp : Word) : State :=
  let c := if fresh then maxW s.fc.chrono (sendStamp + BitVec.ofNat 64 (s.link l).latency) else s.fc.chrono
  let s1 : State := { s with
    fc := { s.fc with chrono := c, sealed := maxW s.fc.sealed (BitVec.ofNat 64 (n - 1)), ticking := true, epoch := n, epochLen := len,
                      capMhz := s.fc.cclk, open' := false, lastTick := c, nextTick := stamp, tickLast := last, tickHeld := true, lostFixes := lost,
                      noFix := 0, fixEarly := [], tickEarly := none, slew := if fresh then 0 else s.tickSlew l sendStamp, slewHold := false },
    pps := tmap s.pps (fun _ p => { p with charged := 0 }),
    legs := tmap s.legs (fun _ g => { g with charge := 0 }) }
  s1.openLegs

/-- TICK(N) at a member that ticks already. -/
def State.laterTick (s : State) (l n : Nat) (stamp : Word) (len : Nat) (last : Bool) (lost : Nat) (sendStamp : Word) : State :=
  let f := { s.fc with slew := s.tickSlew l sendStamp }
  if n = f.epoch then
    { s with fc := { f with nextTick := stamp, epochLen := len, tickHeld := true, tickLast := last, lostFixes := lost } }
  else if n = f.epoch + 1 then { s with fc := { f with tickEarly := some (n, stamp, len, last, lost) } }
  else s

def doTick (l n : Nat) (stamp : Word) (len units : Nat) (ring last : Bool) (members : BitVec 16) (lost : Nat) (sendStamp : Word)
    (s : State) : State :=
  if s.frozen || s.chain.mode ≠ 2 || s.chain.status ≠ 3 then s
  else if !members.getLsbD s.chain.address then s.becomeOrphan
  else
    let s1 := s.chainUpd (fun c => { c with members := members, units := units, ring := ring, size := if c.fresh then units else c.size,
                                            fresh := false })
    if s1.fc.ticking then s1.laterTick l n stamp len last lost sendStamp else s1.firstTick s.chain.fresh l n stamp len last lost sendStamp

/-- R402 at the head; R401 at a member when the head is the sender. -/
def doChainDown (src _cause : Nat) (_lastFix : Word) (s : State) : State :=
  if s.frozen || !s.inChain || decide (16 ≤ src) then s
  else if s.isHead then
    State.log { s with fc := { s.fc with downSeen := s.fc.downSeen ||| (1#16 <<< src) } } 0x0C07 noInst noPart 0
  else if src = 0 then s.becomeOrphan
  else s

/-- ORPHANED: LOST_FIXES + 1 ticks in a row without a FIX. -/
def doOrphaned (s : State) : State := if s.isMember && !s.frozen && decide (s.fc.lostFixes + 1 ≤ s.fc.noFix) then s.becomeOrphan else s

/-! ### Shuffle inboxes (R405, R406) -/

def State.inbox (s : State) (p i : Nat) : Inbox :=
  tgetD (s.part p).inboxes i { base := 0, bytes := 0, fill := 0, records := 0 }

def State.setInbox (s : State) (p i : Nat) (b : Inbox) : State :=
  s.setPart p { s.part p with inboxes := tput (s.part p).inboxes i b }

/-- Appends records of `n` bytes while they fit: how many, and the STATUS. -/
def State.appendRecords (s : State) (p i n : Nat) : Nat → List Byte → Nat → Nat × Nat × State
  | 0, _, k => (k, 0, s)
  | f + 1, bs, k =>
    if bs.isEmpty then (k, 0, s)
    else
      let b := s.inbox p i
      if b.bytes < 64 + b.fill + n then (k, 1, s)
      else
        let a := b.base.toNat + 64 + b.fill
        match s.inboxWrite p (chunksOf a n) (bs.take n) with
        | (false, s1) => (k, 1, s1)
        | (true, s1) => (s1.setInbox p i { b with fill := b.fill + n, records := b.records + 1 }).appendRecords p i n f (bs.drop n) (k + 1)

/-- The body of REMOTE_COMPLETION. -/
def remoteBody (stream : BitVec 32) (first accepted status : Nat) : List Byte :=
  leBytes 4 stream.toNat ++ leBytes 4 first ++ leBytes 2 accepted ++ leBytes 1 status ++ zeros 5

/-- R406: every later record of the stream is refused; a chain reset ends this (log entry 21). -/
def State.refuse (s : State) (src : Nat) (stream : BitVec 32) : State :=
  s.chainUpd (fun c => { c with refused := if c.refused.contains (src, stream.toNat) then c.refused else (src, stream.toNat) :: c.refused })

/-- SHUFFLE_DATA at the receiver.  An STT fault on the header refuses the records of the message, whose bytes the header does not
count: they are as though never appended (R318; DESIGN CHOICE, log entry 29). -/
def doShuffleData (src p i rw : Nat) (stream : BitVec 32) (first : Nat) (records : List Byte) (s : State) : State :=
  if s.frozen || !s.inChain || decide (16 ≤ src) || !s.chain.members.getLsbD src then s
  else
    let n := 8 * rw
    let answer := fun (k st : Nat) (t : State) => t.sendMsg 5 src (remoteBody stream first k st)
    if rw = 0 || records.length % n ≠ 0 then
      answer 0 2 (s.log 0x0C05 (s.linkOf (s.chain.route src).1) noPart (BitVec.ofNat 64 src))
    else if s.chain.refused.contains (src, stream.toNat) then answer 0 2 s
    else if !(s.part p).exist || (s.inbox p i).bytes = 0 then answer 0 2 (s.refuse src stream)
    else
      let (k, st, s1) := s.appendRecords p i n (records.length / n) records 0
      let s2 := if st = 0 then s1 else s1.refuse src stream
      if k = 0 then answer k st s2
      else
        match s2.inboxHeader p (s2.inbox p i) with
        | (true, s3) => answer k st (s3.raisePart p 31)
        | (false, s3) => answer 0 1 ((s3.setInbox p i (s.inbox p i)).refuse src stream)

/-- REMOTE_COMPLETION at the sending HU: the next records go out, or the command stops (R175, R406).  The unit that has discarded a
message on its way answers it too (R397), so STREAM and FIRST_INDEX alone name the message. -/
def doRemoteCompletion (_src : Nat) (stream : BitVec 32) (first accepted status : Nat) (s : State) : State :=
  if s.frozen then s
  else
    match s.chain.shuffles.find? (fun w => w.stream == stream && w.first == first) with
    | none => s
    | some w =>
      let s1 := s.chainUpd (fun c => { c with shuffles := c.shuffles.erase w })
      if status ≠ 0 then s1.chainUpd (fun c => { c with shuffleEnd := c.shuffleEnd ++ [(stream, first + accepted, 0x020B)] })
      else s1.shuffleNext w.cluster (first + w.count)

/-! ### Links (R393–R395) -/

/-- A link joins its bundle: its credits, what it still keeps, and its first PROBE. -/
def doChainLinkUp (l : Nat) (s : State) : State :=
  if s.frozen || decide (8 ≤ l) || s.chain.mode = 0 || s.chain.status = 5 || (s.link l).up then s
  else
    let k := s.link l
    let used := fun (c : Nat) => (k.unacked.filter (fun e => e.2.cls == c)).length
    let s1 := s.setLink l { k with up := true, training := false, noProgress := 0, probes := 0, rttSum := 0, owed := [0, 0, 0],
                                   replays := min 0xFFFFFFFF (k.replays + k.unacked.length),
                                   credits := [32 - used 0, 192 - used 1, 16 - used 2] }
    let s2 := k.unacked.foldl (fun t e => t.sendFlit l 1 e.2 e.1) s1
    (s2.sendPlain l 5 []).pump l 64

/-- PROBE received: the answer reports the turnaround time, a free value (log entry 12). -/
def doProbe (l : Nat) (s : State) : State :=
  if s.frozen || !(s.link l).up then s
  else
    let (t, s1) := s.free
    s1.sendPlain l 6 (leBytes 8 t)

/-- PROBE_REPLY received: after 16 exchanges L is half the mean round trip, less the turnaround. -/
def doProbeReply (l rtt turnaround : Nat) (s : State) : State :=
  let k := s.link l
  if s.frozen || !k.up || decide (16 ≤ k.probes) then s
  else
    let k1 := { k with probes := k.probes + 1, rttSum := k.rttSum + (rtt - turnaround) }
    if k1.probes = 16 then s.setLink l { k1 with latency := min 1023 (k1.rttSum / 32) }
    else (s.setLink l k1).sendPlain l 5 []

/-- REPLAY_TIMEOUT: no acknowledgement for 2 µs. -/
def doReplayTimeout (l : Nat) (s : State) : State := if s.frozen then s else s.resend l

/-- LINK_RETRAIN: REPLAY_MAX resends in a row without progress. -/
def doLinkRetrain (l : Nat) (s : State) : State :=
  let k := s.link l
  if s.frozen || !k.up || decide (k.noProgress < s.chain.replayMax) then s
  else s.setLink l { k with up := false, training := true, retrains := satInc k.retrains 0xFFFF, noProgress := 0 }

/-- Flits in order as what is to be sent on another link: each whole message, or the rest of one, by itself. -/
def resentMsgs : List TxFlit → List TxMsg
  | [] => []
  | f :: t =>
    match resentMsgs t with
    | m :: r => if f.last || m.flits.any (·.first) then { cls := f.cls, flits := [f], resent := true } :: m :: r
                else { m with flits := f :: m.flits } :: r
    | [] => [{ cls := f.cls, flits := [f], resent := true }]

/-- The payloads that this unit has received of a message whose rest will come on another link of the bundle, by class. -/
def Link.partRx (k : Link) : Table (List (List Byte)) := if k.rx.isEmpty then k.rxHold else tput k.rxHold k.rxClass k.rx

/-- LINK_RETRAIN_FAIL: the link goes down; what it held moves to another link of the bundle, in order and under that link's credits, or is
lost with the bundle.  None is delivered twice (R394): how many of the flits kept had been received, with their acknowledgement lost, is
a free value, and those are not sent again (log entry 21). -/
def doLinkRetrainFail (l : Nat) (s : State) : State :=
  let k := s.link l
  if s.frozen || !k.training then s
  else
    let (x, s0) := s.free
    let kept := (k.unacked.drop (x % (k.unacked.length + 1))).map (·.2)
    let s1 := s0.setLink l { Link.reset with retrains := k.retrains, replays := k.replays }
    match (s1.bundleLink (decide (l < 4))).or ((bundle (decide (l < 4))).find? (fun m => (s1.link m).training)) with
    | none => s1
    | some m =>
      let o := s1.link m
      State.pump (s1.setLink m { o with txQ := o.txQ ++ resentMsgs kept ++ k.txQ,
                                        rxHold := k.partRx.foldl (fun t e => tput t e.1 e.2) o.rxHold }) m 64

def execEnumerate (s : State) : Host.Outcome State Fault Refusal := .next (doEnumerate s)
def execEnum (value : Nat) (stamp fix : Word) (s : State) : Host.Outcome State Fault Refusal := .next (doEnum value stamp fix s)
def execEnumEnd (count : Nat) (excess : Bool) (stamp fix : Word) (s : State) : Host.Outcome State Fault Refusal :=
  .next (doEnumEnd count excess stamp fix s)
def execEnumTimeout (s : State) : Host.Outcome State Fault Refusal := .next (doEnumTimeout s)
def execTick (l n : Nat) (stamp : Word) (len units : Nat) (ring last : Bool) (members : BitVec 16) (lost : Nat) (sendStamp : Word)
    (s : State) : Host.Outcome State Fault Refusal := .next (doTick l n stamp len units ring last members lost sendStamp s)
def execChainDown (src cause : Nat) (lastFix : Word) (s : State) : Host.Outcome State Fault Refusal := .next (doChainDown src cause lastFix s)
def execOrphaned (s : State) : Host.Outcome State Fault Refusal := .next (doOrphaned s)
def execShuffleData (src p i rw : Nat) (stream : BitVec 32) (first : Nat) (records : List (BitVec 8)) (s : State) :
    Host.Outcome State Fault Refusal := .next (doShuffleData src p i rw stream first records s)
def execRemoteCompletion (src : Nat) (stream : BitVec 32) (first accepted status : Nat) (s : State) : Host.Outcome State Fault Refusal :=
  .next (s.settle [] (doRemoteCompletion src stream first accepted status))
def execChainLinkUp (l : Nat) (s : State) : Host.Outcome State Fault Refusal := .next (doChainLinkUp l s)
def execProbeFlit (l : Nat) (s : State) : Host.Outcome State Fault Refusal := .next (doProbe l s)
def execProbeReply (l rtt turnaround : Nat) (s : State) : Host.Outcome State Fault Refusal := .next (doProbeReply l rtt turnaround s)
def execReplayTimeout (l : Nat) (s : State) : Host.Outcome State Fault Refusal := .next (doReplayTimeout l s)
def execLinkRetrain (l : Nat) (s : State) : Host.Outcome State Fault Refusal := .next (doLinkRetrain l s)
def execLinkRetrainFail (l : Nat) (s : State) : Host.Outcome State Fault Refusal := .next (doLinkRetrainFail l s)

end Sys2Proof.Machine
end

