-- ==== Sys2Proof/Machine/Power.lean ====
section
/-!
DEFINITION. Power (21) and resets (22): the throttle, PFAIL with its freeze and save, the reservations of the keep store, the stop of a
management core, and the requests that end in a device reset or a power-on reset.
-/
namespace Sys2Proof.Machine

open Sys2Proof

/-! ### VSENSE (R422, R423, R471) -/

def State.sag (s : State) (hi lo : Nat) : Nat := bits (tgetD s.regs offSagCfg sagCfgReset).toNat hi lo
def State.senseOn (s : State) : Bool := s.sag 25 25 = 1

/-- A sample above 1,023 mV reads 1,023. -/
def senseOf (mv : Nat) : Nat := min mv 1023

/-- THROTTLE: VSENSE has crossed below THROTTLE_MV. -/
def doThrottle (mv : Nat) (s : State) : State :=
  if s.frozen || !s.senseOn || s.pm.throttled || decide (s.sag 9 0 ≤ senseOf mv) then s
  else
    State.log { s with pm := { s.pm with throttled := true, throttles := satInc s.pm.throttles 0xFFFF, senseMv := senseOf mv },
                       fc := { s.fc with cclk := min s.fc.cclk s.throttleMhz } } 0x0E01 noInst noPart 0

/-- THROTTLE_LIFT: CCLK returns at the next tick. -/
def doThrottleLift (mv : Nat) (s : State) : State :=
  if s.frozen || !s.senseOn || !s.pm.throttled || decide (senseOf mv < s.sag 9 0 + 10) then s
  else State.log { s with pm := { s.pm with throttled := false, senseMv := senseOf mv } } 0x0E02 noInst noPart 0

/-! ### The freeze (R426, R439) -/

/-- R426: a fix whose step 3 has begun is sealed through step 4; step 3 begins as soon as its conditions hold. -/
def State.finishFix (s : State) : State :=
  match s.sealReady with
  | some (n, x) =>
    if s.frozen || (!s.ks.protOff && decide (s.ks.resFix.toNat < n)) then s
    else ((if x.carry then s.restage n else s).sealRecord n x x.carry).2
  | none => s

/-- R451: the scope that was granted ends, and with it a live nonce (R454); a PP halted for debug loses its leg (R458). -/
def State.scopeEnd (s : State) : State :=
  let halted := s.pps.filter (fun e => e.2.dbg ≠ .no)
  let s1 := halted.foldl (fun t e =>
    let t1 := t.setPp e.1 { t.pp e.1 with dbg := .no }
    match (t1.pp e.1).running with
    | some l => t1.errLeg l 0x12 0
    | none => t1) s
  { s1 with dbg := { s1.dbg with scope := 0, nonce := none } }

def Ks.kregs (k : Ks) : KsRegs :=
  { armed := k.armed, protOff := k.protOff, current := k.current, erasing := k.erasing, sparePct := k.sparePct, resFix := k.resFix,
    resStamp := k.resStamp, outcome := k.outcome, slotNo := k.slotNo, poison := k.poison, saveUs := k.saveUs, seq := k.seq }

def Cluster.cfg (k : Cluster) : ClusterCfg :=
  { wayCfg := k.wayCfg, l2En := k.l2En, prefetch := k.prefetch, pfDepth := k.pfDepth, maintAddr := k.maintAddr, maintOp := k.maintOp,
    maintLines := k.maintLines, owner := k.owner, dmRetryMax := k.dmRetryMax }

/-- R428: the on-die state that a save captures. -/
def State.onDie (s : State) : OnDie :=
  { regs := s.regs, epochLive := s.fc.live, epochSh := s.fc.sh, admin := s.admin, parts := s.parts, sqs := s.sqs, cqs := s.cqs,
    grants := s.grants, hps := s.hps, dcs := s.dcs, evtMap := s.evtMap, asaCfg := s.asaCfg,
    clusters := s.cls.map (fun e => (e.1, e.2.cfg)), err := s.err, pm := s.pm, ks := s.ks.kregs, chain := s.chain, sealed := s.fc.sealed,
    chrono := s.fc.chrono }

/-- PFAIL: the freeze, at which the on-die state is captured.  Without protection, or before boot has completed, nothing is saved (R430);
in a device reset the always-on domain alone raises it (R422, R439). -/
def doPfail (pin : Bool) (mv : Nat) (s : State) : State :=
  if s.pm.frozen || s.pm.pfail || (!pin && (!s.senseOn || decide (s.sag 19 10 ≤ senseOf mv))) then s
  else
    let mvs := if s.senseOn then senseOf mv else s.pm.senseMv
    let s1 := { s with pm := { s.pm with pfail := true, pfailCause := if pin then 2 else 1, throttled := false, senseMv := mvs } }
    let s2 := if s1.pm.inReset then s1 else s1.log 0x0E05 noInst noPart 0
    let s3 := if s2.inChain then s2.sendMsg 7 0xFF (downBody 1 s2.fc.sealed.toNat) else s2
    let s4 := s3.finishFix.scopeEnd.emit (.pin "SHED_OK" true)
    if s4.ks.protOff || !s4.pm.bootDone then
      State.emit { s4 with pm := { s4.pm with frozen := true, saveDone := true } } (.pin "SAVE_DONE" true)
    else
      let s5 := { s4 with pm := { s4.pm with frozen := true, saving := true } }
      { s5 with ks := { s5.ks with captured := some s5.onDie } }

/-! ### The save (R428, R429, R432) -/

/-- Entries of the error log, oldest first. -/
def ErrLog.oldestFirst (g : ErrLog) : List ErrEntry :=
  (List.range 4096).filterMap (fun i => tget? g.slots ((g.newest.toNat + 1 + i) % 4096))

def hdrBytes (h : SlotHdr) : List Byte :=
  leBytes 2 0x4B53 ++ leBytes 1 1 ++ leBytes 1 h.cause ++ zeros 4 ++ leBytes 8 h.seq.toNat ++ leBytes 8 h.lastFix.toNat
    ++ leBytes 4 h.saveUs ++ leBytes 4 h.poison ++ leBytes 4 285212672 ++ leBytes 4 h.crc.toNat ++ leBytes 1 h.unit
    ++ leBytes 1 h.units ++ zeros 18

/-- A valid header: its CRC checks (MAGIC and FORMAT are those of every header). -/
def SlotHdr.ok (h : SlotHdr) : Bool := h.hdrCrc == crc32c (hdrBytes h)

def KsSlot.hdrOk (k : KsSlot) : Bool := k.hdr.any SlotHdr.ok

/-- The data of a slot with a header match its DATA_CRC. -/
def KsSlot.dataOk (k : KsSlot) : Bool := k.hdr.any (fun h => h.crc == k.dataCrc)

/-- A slot is valid when its header is and its data check. -/
def KsSlot.valid (k : KsSlot) : Bool := k.hdrOk && k.dataOk

def KsSlot.seqOf (k : KsSlot) : Nat := match k.hdr with | some h => h.seq.toNat | none => 0

def Ks.slot (k : Ks) (i : Nat) : KsSlot := if i = 0 then k.slot0 else k.slot1
def Ks.setSlot (k : Ks) (i : Nat) (x : KsSlot) : Ks := if i = 0 then { k with slot0 := x } else { k with slot1 := x }

/-- The save engine's request for the line of a cell of the keep region is refused (R317, R463). -/
def saveRefused (c : Host.Cell) : Bool := sysRefused (c.1 / 64 * 64) 64

/-- What the save writes to the target slot.  `poison` are the lines that the save finds uncorrectable: they, the lines known to be
so before, and a line whose request the system context refuses (R463) are written as poisoned and counted (R429).  The on-die state is
what was captured at the freeze.  DATA_CRC covers it in a form the spec does not give: a free value (log entry 12). -/
def State.savedSlot (s : State) (ok : Bool) (saveUs : Nat) (poison : List Nat) : KsSlot × State :=
  let (crc, s1) := s.free
  let asked := s.mem.filter (fun c => c.1 < keepEnd)
  let refused := (asked.filter saveRefused).map (fun c => c.1 / 64)
  let marked := ((s.bad ++ poison).filter (fun l => l < keepEnd / 64) ++ refused).eraseDups
  let h0 : SlotHdr :=
    { cause := s.pm.pfailCause, seq := s.ks.seq + 1, lastFix := s.fc.sealed, saveUs := saveUs, poison := marked.length,
      crc := BitVec.ofNat 32 crc, unit := if s.inChain then s.chain.address else 0, units := if s.inChain then popBits s.chain.members else 1, hdrCrc := 0 }
  let hdr := { h0 with hdrCrc := crc32c (hdrBytes h0) }
  ({ programmed := true, hdr := if ok then some hdr else none, keep := asked.filter (fun c => !saveRefused c),
     poisoned := marked, onDie := s.ks.captured, dataCrc := hdr.crc }, if refused.isEmpty then s1 else s1.sysRefuse)

/-- SAVE_DONE: the header has been written and read back, or (`ok` false) the save ends without one. -/
def doSaveDone (ok : Bool) (saveUs : Nat) (poison : List Nat) (s : State) : State :=
  if !s.pm.saving then s
  else
    let (slot, s1) := s.savedSlot ok saveUs poison
    State.emit { s1 with ks := s1.ks.setSlot (1 - s1.ks.current) slot,
                         pm := { s1.pm with saving := false, saveDone := true } } (.pin "SAVE_DONE" true)

/-! ### The hold-up bank and the reservations (R425, R434) -/

def doHupFall (s : State) : State :=
  let s1 := { s with pm := { s.pm with hupReady := false } }
  if s.fc.ticking && !s.frozen then s1.log 0x0E04 noInst noPart 0 else s1

/-- KS_RESERVE_APPEND: management core 3 keeps both high-waters ahead. -/
def doReserve (s : State) : State :=
  if s.frozen || s.ks.protOff || !s.ks.armed || s.pm.coresDown.contains 3 then s
  else
    let h := if s.ks.resFix.toNat ≤ s.fc.sealed.toNat + 524288 then s.ks.resFix + 1048576 else s.ks.resFix
    let th := if s.ks.resStamp.toNat ≤ s.now + 2 ^ 34 then s.fc.chrono + BitVec.ofNat 64 (2 ^ 35) else s.ks.resStamp
    { s with ks := { s.ks with logged := some (h, th), resFix := h, resStamp := th } }

/-- R435: protection goes off; the slot headers and the reservation log are erased. -/
def Ks.unprotect (k : Ks) : Ks :=
  { k with armed := false, protOff := true, logged := none, resStamp := 0, slot0 := { k.slot0 with hdr := none },
           slot1 := { k.slot1 with hdr := none } }

/-- MGMT_CORE_STOP (R11). -/
def doCoreStop (k : Nat) (s : State) : State :=
  if s.frozen || s.pm.coresDown.contains k || decide (4 ≤ k) then s
  else
    let s1 := { s with pm := { s.pm with coresDown := setAdd s.pm.coresDown k } }
    if k = 3 then
      State.log (State.logSev { s1 with ks := s1.ks.unprotect } 0x0303 5 k noPart 0) 0x0F02 noInst noPart 0
    else (s1.logSev 0x0303 6 k noPart 0).failStop 0x14

/-- REFCLK_LOST (R446). -/
def doRefLost (s : State) : State :=
  if s.frozen || s.pm.refLost then s
  else (State.log { s with pm := { s.pm with refLost := true } } 0x0E07 noInst noPart 0).failStop 0x15

/-! ### Resets (R438–R440) -/

/-- Host memory lies outside the engine (log entry 9). -/
def keptCell (powerOn : Bool) (a : Nat) : Bool := decide (hostBase ≤ a) || (!powerOn && decide (a < 0x2400000000))

/-- The current slot: the valid slot with the higher SAVE_SEQ. -/
def Ks.best (k : Ks) : Option Nat :=
  if k.slot0.valid && k.slot1.valid then (if k.slot0.seqOf < k.slot1.seqOf then some 1 else some 0)
  else if k.slot0.valid then some 0
  else if k.slot1.valid then some 1
  else none

/-- The slot that boot restores or has left in use; the other one is the target (R436, R437). -/
def Ks.kept (k : Ks) : Option Nat :=
  if k.outcome = 0 then none
  else if k.outcome = 3 then k.best
  else some k.slotNo

/-- What a reset leaves of a save, or of an erase, that it cuts off: the target of a save holds programmed pages without a header, or none
yet; a slot being erased is whole, partly erased or erased (R432, R437).  How far it had come is a free value (log entry 12). -/
def State.keepCut (s : State) : State :=
  if s.pm.saving then
    let (k, s1) := s.free
    { s1 with ks := s1.ks.setSlot (1 - s1.ks.current) { KsSlot.reset with programmed := k % 2 = 1 } }
  else if s.ks.erasing then
    let (k, s1) := s.free
    let cut := fun (i : Nat) (x : KsSlot) =>
      if s.ks.kept = some i || k % 3 = 0 then x else if k % 3 = 1 then { x with hdr := none } else .reset
    { s1 with ks := { s1.ks with slot0 := cut 0 s1.ks.slot0, slot1 := cut 1 s1.ks.slot1 } }
  else s

/-- The keep store across a reset: slots and the reservation log stay, and the prior-state area as the rest of HBM. -/
def Ks.reboot (k : Ks) (powerOn : Bool) : Ks :=
  { Ks.reset with slot0 := k.slot0, slot1 := k.slot1, logged := k.logged, prior := if powerOn then none else k.prior }

/-- Fuses stay; the failures of R455 are cleared by a power-on reset alone. -/
def Dbg.reboot (d : Dbg) (powerOn : Bool) : Dbg :=
  if powerOn then { Dbg.reset with ir := d.ir, scan := d.scan, fieldLock := d.fieldLock, obsHash := d.obsHash, hashParts := d.hashParts }
  else { Dbg.reset with ir := d.ir, scan := d.scan, fieldLock := d.fieldLock, obsHash := d.obsHash, hashParts := d.hashParts, fails := d.fails,
                        lockedOut := d.lockedOut, attempts := d.attempts }

/-- The state held in reset (step 4 of R439). -/
def State.enterReset (s0 : State) (cause : Nat) (powerOn : Bool) : State :=
  let s := s0.keepCut
  { State.reset with
    pending := s.pending, freeSeq := s.freeSeq, out := s.out,
    mem := s.mem.filter (fun c => keptCell powerOn c.1),
    bad := if powerOn then [] else s.bad.filter (fun l => decide (l < 0x2400000000 / 64)),
    ks := s.ks.reboot powerOn, dbg := s.dbg.reboot powerOn,
    pm := { Pm.reset with inReset := true, resetPin := s.pm.resetPin && !powerOn, resetCause := cause, minSvn := s.pm.minSvn,
                          hupReady := s.pm.hupReady, tripped := s.pm.tripped && !powerOn } }

/-- R479: every clock but AONCLK has stopped after a trip without a save. -/
def State.tripStopped (s : State) : Bool := s.pm.frozen && !s.pm.pfail

/-- A request for a device reset: merged with one in progress, and held while a save runs (R439).  PFAIL raised in a device reset ends with
the next (R422). -/
def State.requestReset (s : State) (cause : Nat) : State :=
  if (s.pm.inReset && !s.pm.pfail) || s.tripStopped then s
  else if s.pm.pfail && !s.pm.saveDone then
    { s with pm := { s.pm with resetWait := if s.pm.resetWait.isSome then s.pm.resetWait else some cause } }
  else s.finishFix.enterReset cause false

/-- SAVE_DONE lets a reset go on that waited for it. -/
def State.afterSave (s : State) : State :=
  match s.pm.resetWait with
  | some c => if s.pm.saveDone then s.enterReset c false else s
  | none => s

def doResetN (s : State) : State := State.requestReset { s with pm := { s.pm with resetPin := true } } 1

/-- A write of PM.RESET_CTL: taken during a save too, whose request waits (R439). -/
def doDeviceReset (w : BitVec 32) (s : State) : State :=
  if s.pm.inReset || s.pm.saveDone || s.tripStopped || !w.getLsbD 0 then s
  else if bits w.toNat 15 8 = 0xD5 then s.requestReset 2
  else s.log 0x0E06 noInst noPart 0

def execThrottle (mv : Nat) (s : State) : Host.Outcome State Fault Refusal := .next (doThrottle mv s)
def execThrottleLift (mv : Nat) (s : State) : Host.Outcome State Fault Refusal := .next (doThrottleLift mv s)
def execPfail (pin : Bool) (mv : Nat) (s : State) : Host.Outcome State Fault Refusal := .next (doPfail pin mv s)
def execSaveDone (ok : Bool) (saveUs : Nat) (poison : List Nat) (s : State) : Host.Outcome State Fault Refusal :=
  .next (doSaveDone ok saveUs poison s).afterSave
def execHupReadyFall (s : State) : Host.Outcome State Fault Refusal := .next (doHupFall s)
def execKsReserveAppend (s : State) : Host.Outcome State Fault Refusal := .next (doReserve s)
def execMgmtCoreStop (k : Nat) (s : State) : Host.Outcome State Fault Refusal := .next (doCoreStop k s)
def execRefclkLost (s : State) : Host.Outcome State Fault Refusal := .next (doRefLost s)
def execResetN (s : State) : Host.Outcome State Fault Refusal := .next (doResetN s)
/-- R474: as RESET_N low. -/
def execPwrgoodFall (s : State) : Host.Outcome State Fault Refusal := .next (s.requestReset 1)
def execPowerOnReset (s : State) : Host.Outcome State Fault Refusal := .next (s.enterReset 0 true)
def execDeviceReset (w : BitVec 32) (s : State) : Host.Outcome State Fault Refusal := .next (doDeviceReset w s)

end Sys2Proof.Machine
end

