-- ==== Sys2Proof/Machine/Registers.lean ====
section
/-!
DEFINITION. Register space (20): where every register lies (R408, R409), what it reads as and what a write does, by block.
-/
namespace Sys2Proof.Machine

open Sys2Proof

/-- One register. -/
structure Reg where
  base  : Nat                     -- offset of its first byte
  wide  : Bool                    -- 64 bits
  fw    : Bool                    -- written by firmware alone (R412)
  cfg   : Bool                    -- under parity (R417)
  owner : Option Nat              -- the partition of a register of partition scope
  hi    : Nat                     -- RW and RWS bits of [63:32], which a lone low half keeps (R415)
  read  : State → Nat
  write : Nat → State → State

def Reg.status (o : Nat) (wide : Bool) (f : State → Nat) : Reg :=
  { base := o, wide := wide, fw := false, cfg := false, owner := none, hi := 0, read := f, write := fun _ s => s }

def Reg.config (o : Nat) (wide : Bool) (hi : Nat) (f : State → Nat) (w : Nat → State → State) : Reg :=
  { base := o, wide := wide, fw := false, cfg := true, owner := none, hi := hi, read := f, write := w }

/-- Loaded by firmware at boot: read only, under parity. -/
def Reg.loaded (o : Nat) (wide : Bool) (f : State → Nat) : Reg := Reg.config o wide 0 f (fun _ s => s)

def Reg.partScope (r : Reg) (p : State → Nat) (s : State) : Reg := { r with owner := some (p s) }

/-- Item number of offset `o` in an array. -/
def regIdx (o lo stride n : Nat) : Option Nat :=
  if lo ≤ o ∧ (o - lo) % stride = 0 ∧ (o - lo) / stride < n then some ((o - lo) / stride) else none

/-- A plain RW register kept in `regs`. -/
def State.rawReg (s : State) (o : Nat) (reset : Word) : Nat := (tgetD s.regs o reset).toNat
def State.setRaw (s : State) (o v : Nat) : State := { s with regs := tput s.regs o (BitVec.ofNat 64 v) }

def toW (v : Nat) : Word := BitVec.ofNat 64 v
def toW32 (v : Nat) : BitVec 32 := BitVec.ofNat 32 v

/-- Bits [47:12] of a base register. -/
def pageBits (v : Nat) : Word := toW (v % 2 ^ 48 / 4096 * 4096)

def State.fcUpd (s : State) (f : Fc → Fc) : State := { s with fc := f s.fc }
def State.shUpd (s : State) (f : EpochSet → EpochSet) : State := s.fcUpd (fun x => { x with sh := f x.sh })

/-! ### FC (02, 17, 19) -/

def fcReg (o b : Nat) : Option Reg :=
  match o with
  | 0x000 => some (.status b true (fun s => s.fc.chrono.toNat))
  | 0x008 => some (.config b true 0 (fun s => s.fc.sh.lenUs + b2n s.fc.sh.run * 2 ^ 16)
      (fun v s => s.shUpd (fun e => { e with lenUs := bits v 9 0, run := bit v 16 })))
  | 0x010 => some { Reg.status b false (fun s => 2 * b2n s.fc.pending.isSome + 4 * b2n s.fc.applyErr + 8 * b2n s.fc.ticking) with
      write := fun v s =>
        let s1 := if bit v 2 then s.fcUpd (fun x => { x with applyErr := false }) else s
        if bit v 0 then doEpochApply s1 else s1 }
  | 0x018 => some (.loaded b true (fun s => s.fc.sealed.toNat))
  | 0x028 => some (.config b false 0 (fun s => s.fc.sh.deadline + s.fc.sh.lostFixes * 2 ^ 16)
      (fun v s => s.shUpd (fun e => { e with deadline := bits v 15 0, lostFixes := bits v 19 16 })))
  | _ => (regIdx o 0x1000 4 512).map (fun p =>
      { Reg.config b false 0 (fun s => tgetD s.fc.sh.share p 0)
          (fun v s => s.shUpd (fun e => { e with share := if bits v 9 0 = 0 then tdel e.share p else tput e.share p (bits v 9 0) }))
        with owner := some p })

/-! ### LS (12) -/

def State.headTick (s : State) (q : Nat) : Nat :=
  ((s.legs.filter (fun e => e.2.place = .delay q)).map (fun e => e.2.entry.releaseTick)).foldl min (2 ^ 48 - 1)

def State.readyState (s : State) (c : Nat) : Nat :=
  let here := s.legs.filter (fun e => legOnReady c e.2)
  let pp := fun (f : Pp → Bool) => ((List.range 4).map (fun i => b2n (f (s.pp (4 * c + i))) * 2 ^ i)).sum
  here.length + pp (fun p => p.nextSlot.isSome) * 2 ^ 16 + pp (fun p => p.running.isSome) * 2 ^ 20
    + ((List.range 8).map (fun k => b2n (here.any (fun e => e.2.entry.priority == k)) * 2 ^ (24 + k))).sum

def lsReg (o b : Nat) : Option Reg :=
  if o = 0 then some (.config b false 0 (fun s => s.lsQuota) (fun v s => s.setRaw offLsQuota (bits v 19 0)))
  else
    match regIdx o 0x100 8 4, regIdx o 0x200 8 64, regIdx o 0x400 8 64 with
    | some q, _, _ => some (.status b true (fun s => s.listUsed (.delay q) + s.headTick q * 2 ^ 16))
    | _, some c, _ => some (.status b true (fun s => s.readyState c))
    | _, _, some c => some (.status b true (fun s => (s.cl c).admitted))
    | _, _, _ => none

/-! ### DU (10) -/

/-- ALGO of the running job, as its descriptor names it; one that cannot be read leaves a free value (log entry 12). -/
def State.algoOf (s : State) (u : Nat) (j : DuJob) : Nat :=
  match j.ctx with
  | some c => c.d.algo
  | none =>
    match (uRun (uRead (j.uctx u) j.desc.toNat 64) s).1 with
    | .ok b => (DigD.ofBytes b).algo % 4
    | .error _ => Config.freeNat s.freeSeq % 4

def State.duState (s : State) (u : Nat) : Nat :=
  let k := s.du u
  let run := match k.running with
    | some j => 1 + s.algoOf u j * 2 + j.cls * 8 + j.part * 2 ^ 8 + min k.blocks 0xFFFFFFFF * 2 ^ 32
    | none => 0
  run + k.saved.length * 32

def duReg (o b : Nat) : Option Reg :=
  match regIdx o 0x000 8 16, regIdx o 0x100 8 16 with
  | some u, _ => some (.status b true (fun s => s.duState u))
  | _, some u => some (.status b true (fun s => (s.du u).bytes))
  | _, _ =>
    if o = 0x080 then some (.status b false (fun s => s.duQueue.length))
    else if o = 0x088 then some (.status b true (fun s => s.duPreempts))
    else none

/-! ### ASA (08) -/

def State.bankState (s : State) (k : Nat) : Nat :=
  let es := s.asa.filter (fun e => e.1 / 8192 = k)
  let first := match asaGroup s.asaCfg k with | some g => g.first | none => k
  let a := s.asaSet first
  (es.filter (fun e => e.2.valid)).length + (es.filter (fun e => e.2.quarantined)).length * 2 ^ 16 + b2n (s.asaSearching first) * 2 ^ 32
    + b2n (es.any (fun e => !e.2.fbs.isEmpty)) * 2 ^ 33 + (if first = k then a.sq.length * 2 ^ 40 + a.uq.length * 2 ^ 44 else 0)

/-- Firmware writes a bank's configuration; one that leaves the bank, or the set it would form, acting as unowned is logged. -/
def State.writeBank (s : State) (k v : Nat) : State :=
  let s1 := s.setBank k (toW32 (v % 2 ^ 15))
  if (bit v 9 && bits v 11 10 = 3) || asaBroken s1.asaCfg k then s1.log 0x0501 k noPart 0 else s1

def asaReg (o b : Nat) : Option Reg :=
  if o = 0 then some (.status b true (fun s => leNat (s.asaErr.flatMap (leBytes 2))))
  else
    match regIdx o 0x100 4 32, regIdx o 0x200 8 32 with
    | some k, _ => some { Reg.config b false 0 (fun s => (tgetD s.asaCfg k 0).toNat) (fun v s => s.writeBank k v) with fw := true }
    | _, some k => some (.status b true (fun s => s.bankState k))
    | _, _ => none

/-! ### CL (19); `relay` is what a write of CL.RELAY_CTL does -/

def State.clCtl (s : State) (v : Nat) : State :=
  let s1 := if bits v 4 1 = 0 then s.log 0x0C04 noInst noPart 0 else s.chainUpd (fun c => { c with replayMax := bits v 4 1 })
  if bit v 0 then doEnumerate s1 else s1

def State.clState (s : State) : Nat :=
  let c := s.chain
  c.mode + c.status * 4 + c.address * 2 ^ 5 + c.units * 2 ^ 9 + b2n c.ring * 2 ^ 14 + c.members.toNat * 2 ^ 16 + c.carries * 2 ^ 32

def Link.word (k : Link) : Nat := b2n k.up + k.latency * 2 + k.retrains * 2 ^ 16 + k.replays * 2 ^ 32

def Chain.relayWord (c : Chain) : Nat :=
  c.relayUnit + b2n c.relayWrite * 16 + b2n c.relayWide * 32 + b2n c.relayDone * 128 + c.relayStatus * 256

def clReg (relay : BitVec 32 → State → State) (o b : Nat) : Option Reg :=
  match o with
  | 0x000 => some (.config b false 0 (fun s => s.chain.replayMax * 2) (fun v s => s.clCtl v))
  | 0x008 => some (.loaded b true (fun s => s.clState))
  | 0x200 => some (.config b true 0 (fun s => s.chain.relayAddr.toNat)
      (fun v s => s.chainUpd (fun c => { c with relayAddr := toW (bits v 27 2 * 4) })))
  | 0x208 => some (.config b true 0xFFFFFFFF00000000 (fun s => s.chain.relayData.toNat)
      (fun v s => s.chainUpd (fun c => { c with relayData := toW v })))
  | 0x210 => some (.config b false 0 (fun s => s.chain.relayWord) (fun v s => relay (toW32 v) s))
  | _ => (regIdx o 0x100 8 8).map (fun l => .status b true (fun s => (s.link l).word))

/-! ### HP and NP (18) -/

def State.hpCtl (s : State) (h v : Nat) : State :=
  let t := bits v 9 0
  let s1 := s.setHp h { s.hp h with roData := bit v 10 }
  if t = 0 ∨ 1000 < t then s1.log 0x0A04 h noPart 0 else s1.setHp h { s1.hp h with cplTimeout := t }

def hpReg (o b : Nat) : Option Reg :=
  match regIdx o 0x000 0x100 4, regIdx o 0x008 0x100 4 with
  | some h, _ => some (.config b false 0 (fun s => (s.hp h).cplTimeout + b2n (s.hp h).roData * 2 ^ 10) (fun v s => s.hpCtl h v))
  | _, some h => some (.loaded b false (fun s =>
      let k := s.hp h
      b2n k.linkUp + k.speed * 2 + k.width * 16 + b2n k.mgmt * 2 ^ 9 + b2n k.vc1 * 2 ^ 10 + k.timeouts * 2 ^ 16))
  | _, _ => none

def offNpCtl : Nat := 0x60000
def npCtlReset : Word := 0xC8 + 0x7D0 * 0x400

/-- NP.CTL: each field that is out of range keeps its value, and the write is logged. -/
def State.npCtl (s : State) (v : Nat) : State :=
  let old := s.rawReg offNpCtl npCtlReset
  let t := bits v 9 0
  let c := bits v 25 10
  let badT := decide (t = 0) || decide (1000 < t)
  let badC := decide (c = 0)
  let s1 := s.setRaw offNpCtl ((if badT then bits old 9 0 else t) + (if badC then bits old 25 10 else c) * 2 ^ 10)
  if badT || badC then s1.log 0x0B02 noInst noPart 0 else s1

def State.portState (s : State) (d : Nat) : Nat :=
  let k := s.drive d
  let w := if k.width = 4 then 3 else k.width
  b2n k.linkUp + k.speed * 2 + w * 16 + b2n k.ready * 128 + k.ioq * 2 ^ 8 + b2n k.unusable * 2 ^ 15 + k.commands * 2 ^ 32

def GrantSet.word (g : GrantSet) : Nat :=
  g.nsid + g.port * 2 ^ 32 + g.part * 2 ^ 37 + g.sizeLog2 * 2 ^ 46 + b2n g.writeOk * 2 ^ 50 + b2n g.enable * 2 ^ 51

def State.shGrant (s : State) (g : Nat) (f : GrantSet → GrantSet) : State :=
  s.setGrant g { s.grant g with sh := f (s.grant g).sh }

def grantFields (g k b : Nat) : Reg :=
  let all := 0xFFFFFFFF00000000
  match k with
  | 0 => .config b true 0x000FFFFF00000000 (fun t => (t.grant g).sh.word + b2n (t.grant g).applyErr * 2 ^ 53)
      (fun v t => doGrantCtl g (toW v) t)
  | 1 => .config b true 0x0000FFFF00000000 (fun t => (t.grant g).sh.ring.toNat) (fun v t => t.shGrant g (fun x => { x with ring := pageBits v }))
  | 2 => .config b true all (fun t => (t.grant g).sh.first.toNat) (fun v t => t.shGrant g (fun x => { x with first := toW v }))
  | _ => .config b true all (fun t => (t.grant g).sh.count.toNat) (fun v t => t.shGrant g (fun x => { x with count := toW v }))

def grantReg (s : State) (g k b : Nat) : Reg := (grantFields g k b).partScope (fun t => (t.grant g).live.part) s

def npReg (s : State) (o b : Nat) : Option Reg :=
  if o = 0 then some (.config b false 0 (fun t => t.rawReg offNpCtl npCtlReset) (fun v t => t.npCtl v))
  else
    match regIdx o 0x100 8 32, regIdx o 0x10000 8 4096 with
    | some d, _ => some (.status b true (fun t => t.portState d))
    | _, some i => some (grantReg s (i / 4) (i % 4) b)
    | _, _ => none

/-! ### DC (16) -/

def Dc.train (k : Dc) : Nat :=
  k.state + k.rate * 4 + k.dimms * 32 + b2n k.x4 * 128 + k.repaired * 2 ^ 8 + k.capGib * 2 ^ 16

def State.actCfg (s : State) (n v : Nat) : State :=
  let t := bits v 13 0
  if t < 256 ∨ 8192 < t then s.log 0x0907 n noPart 0 else s.setDc n { s.dc n with threshold := t }

def dcReg (o b : Nat) : Option Reg :=
  let n := o / 0x1000
  if 16 ≤ n then none
  else
    match o % 0x1000 with
    | 0x000 => some (.loaded b false (fun s => (s.dc n).train))
    | 0x008 => some (.config b false 0 (fun s => (s.dc n).threshold + b2n (s.dc n).directed * 2 ^ 14) (fun v s => s.actCfg n v))
    | 0x010 => some (.status b true (fun s =>
        ((s.dc n).owed.map (fun e => (s.dc n).owedNow n e.1)).foldl max 0 + b2n (s.dc n).hot * 16 + (s.dc n).targeted * 2 ^ 32))
    | 0x018 => some (.status b true (fun s =>
        (s.dc n).corrected + (s.dc n).uncorrectable * 2 ^ 32 + (s.dc n).poisonWrites * 2 ^ 48))
    | 0x020 => some { Reg.status b true (fun s => (s.dc n).errLine * 64 + b2n (s.dc n).errValid * 2 ^ 48) with
        write := fun v s => if bit v 48 then s.setDc n { s.dc n with errValid := false } else s }
    | _ => none

/-! ### PM and KS (20–23) -/

def State.writeSag (s : State) (v : Nat) : State :=
  if decide (bits v 9 0 ≤ bits v 19 10) || decide (bits v 24 20 < 5) || decide (18 < bits v 24 20) then s.log 0x0E03 noInst noPart 0
  else s.setRaw offSagCfg (v % 2 ^ 26)

def State.sagState (s : State) : Nat :=
  let p := s.pm
  b2n p.throttled + 2 * b2n p.pfail + p.pfailCause * 4 + p.senseMv * 16 + b2n p.hupReady * 2 ^ 14 + p.throttles * 2 ^ 16

def State.bootState (s : State) : Nat :=
  let p := s.pm
  p.stage + 8 * b2n p.bootDone + p.copy * 16 + p.svn * 32 + p.resetCause * 2 ^ 16 + b2n p.refLost * 2 ^ 19 + p.bootMs * 2 ^ 32

def State.ppsHalted (s : State) : Nat := min 255 (s.pps.filter (fun e => e.2.dbg.stops)).length

def State.dbgState (s : State) : Nat :=
  let d := s.dbg
  b2n d.lockSeen + 2 * b2n d.hashSeen + d.scope * 4 + d.fails * 16 + b2n d.lockedOut * 64 + b2n d.nonce.isSome * 128
    + s.ppsHalted * 2 ^ 8 + d.attempts * 2 ^ 32

def offRegTimer : Nat := 0x90800
def regTimerReset : Word := 0x10

/-- PM.REG_TIMER: LOG2 out of range keeps its value, and the write is logged. -/
def State.writeTimer (s : State) (v : Nat) : State :=
  let bad := decide (bits v 4 0 < 10) || decide (24 < bits v 4 0)
  let lg := if bad then bits (s.rawReg offRegTimer regTimerReset) 4 0 else bits v 4 0
  let s1 := s.setRaw offRegTimer (lg + b2n (bit v 8) * 256)
  if bad then s1.log 0x0D03 noInst noPart 0 else s1

def RegErr.word (e : RegErr) : Nat :=
  e.cause + b2n e.write * 16 + e.path * 32 + e.source * 2 ^ 8 + b2n e.valid * 2 ^ 16 + e.offset * 2 ^ 32

def pmReg (o b : Nat) : Option Reg :=
  match o with
  | 0x000 => some (.config b false 0 (fun s => s.rawReg offSagCfg sagCfgReset) (fun v s => s.writeSag v))
  | 0x008 => some (.status b false (fun s => s.sagState))
  | 0x100 => some { Reg.status b false (fun _ => 0) with write := fun v s => doDeviceReset (toW32 v) s }
  | 0x108 => some (.loaded b true (fun s => s.bootState))
  | 0x200 => some (.loaded b true (fun s => s.dbgState))
  | 0x800 => some (.config b false 0 (fun s => s.rawReg offRegTimer regTimerReset) (fun v s => s.writeTimer v))
  | 0x808 => some { Reg.status b true (fun s => s.regErr.word) with
      write := fun v s => if bit v 16 then { s with regErr := { s.regErr with valid := false } } else s }
  | 0x810 => some (.status b false (fun s => s.regErr.count))
  | _ => none

/-- R435: armed while H exceeds the last sealed fix. -/
def State.armed (s : State) : Bool := s.ks.armed && decide (s.fc.sealed.toNat < s.ks.resFix.toNat)

def ksReg (o b : Nat) : Option Reg :=
  match o with
  | 0x000 => some (.loaded b false (fun s =>
      b2n s.armed + 2 * b2n s.ks.protOff + 4 * b2n s.pm.hupReady + s.ks.current * 8 + b2n s.ks.erasing * 16 + s.ks.sparePct * 2 ^ 8))
  | 0x008 => some (.loaded b true (fun s => s.ks.resFix.toNat))
  | 0x010 => some (.loaded b true (fun s =>
      s.ks.outcome + s.ks.slotNo * 8 + min s.ks.poison 0xFFFF * 2 ^ 16 + s.ks.saveUs * 2 ^ 32))
  | 0x018 => some (.loaded b true (fun s => s.ks.seq.toNat))
  | 0x020 => some (.loaded b true (fun s => s.ks.resStamp.toNat))
  | _ => none

/-! ### QM (11, 14, 17, 24) -/

/-- R260, R264: P and C; zero for a queue that does not exist. -/
def Queue.idx (k : Queue) : Nat := if k.exist then k.p.toNat + k.c.toNat * 2 ^ 32 else 0

def Queue.ctl (k : Queue) : Nat :=
  k.shSize + b2n k.enable * 32 + b2n k.applyErr * 128 + k.ln * 2 ^ 8 + k.part * 2 ^ 16 + k.event * 2 ^ 25

def sqReg (s : State) (q k b : Nat) : Option Reg :=
  let own := some (s.sq q).part
  match k with
  | 0 => some { Reg.config b true 0xFFFF00000000 (fun t => (t.sq q).shBase.toNat)
      (fun v t => t.setSq q { t.sq q with shBase := pageBits v }) with owner := own, fw := true }
  | 1 => some { Reg.config b false 0 (fun t => (t.sq q).ctl) (fun v t => doSqCtl q (toW32 v) t) with owner := own, fw := true }
  | 2 => some { Reg.status b true (fun t => (t.sq q).idx) with owner := own, fw := true }
  | _ => none

def cqReg (s : State) (q k b : Nat) : Option Reg :=
  let own := some (s.cq q).part
  match k with
  | 0 => some { Reg.config b true 0xFFFF00000000 (fun t => (t.cq q).shBase.toNat)
      (fun v t => t.setCq q { t.cq q with shBase := pageBits v }) with owner := own, fw := true }
  | 1 => some { Reg.config b false 0 (fun t => (t.cq q).ctl) (fun v t => doCqCtl q (toW32 v) t) with owner := own, fw := true }
  | 2 => some { Reg.status b true (fun t => (t.cq q).idx) with owner := own, fw := true }
  | _ => none

/-- A register of group XLAT[p]. -/
def rootReg (p k b : Nat) : Reg :=
  let upd := fun (v : Nat) (t : State) =>
    let q := t.part p
    let x := q.shXlat
    let a := pageBits v
    let y : Xlat := match k with
      | 0 => { x with s1 := a }
      | 1 => { x with s2 := a }
      | 2 => { x with stt := a }
      | _ => { x with fb := a }
    t.setPart p { q with shXlat := y }
  let get := fun (t : State) =>
    let x := (t.part p).shXlat
    (match k with | 0 => x.s1 | 1 => x.s2 | 2 => x.stt | _ => x.fb).toNat
  { Reg.config b true 0xFFFF00000000 get upd with owner := some p }

def Part.xlatCtl (q : Part) : Nat :=
  b2n q.shXlat.enable + 2 * b2n q.shXlat.compat + q.shXlat.faultLog2 * 4 + b2n q.xlatErr * 128
    + (if q.faultN = 0 then 0 else (q.faultN - 1) % 2 ^ 16) * 2 ^ 16

def Part.stateWord (q : Part) : Nat :=
  b2n q.exist + 2 * b2n q.quiesced + 4 * b2n q.quenched + 8 * b2n q.halted + q.haltCause * 2 ^ 8 + q.haltQueue * 2 ^ 16
    + q.haltIndex.toNat * 2 ^ 32

def Part.cfgWord (q : Part) (cls : Nat) : Nat := q.pasid + q.hostPort * 2 ^ 20 + cls * 2 ^ 22 + q.ceiling * 2 ^ 24

def Admin.ctl (a : Admin) : Nat :=
  a.shSqSize + a.shCqSize * 2 ^ 8 + b2n a.enable * 2 ^ 16 + b2n a.applyErr * 2 ^ 18 + b2n a.failStopped * 2 ^ 19
    + a.faultCause * 2 ^ 24

def adminBase (v : Nat) : Word := toW (v % 2 ^ 47 / 4096 * 4096)

def offQuenchNow : Nat := 0x400040

def State.writeQuench (s : State) (v : Nat) : State :=
  let s1 := s.setRaw offQuenchNow (bits v 8 0)
  if bit v 16 then doQuenchNow (bits v 8 0) s1 else s1

def qmPlain (o b : Nat) : Option Reg :=
  match o with
  | 0x000 => some (.config b true 0x7FFF00000000 (fun s => s.admin.shSqBase.toNat)
      (fun v s => { s with admin := { s.admin with shSqBase := adminBase v } }))
  | 0x008 => some (.config b true 0x7FFF00000000 (fun s => s.admin.shCqBase.toNat)
      (fun v s => { s with admin := { s.admin with shCqBase := adminBase v } }))
  | 0x010 => some (.config b false 0 (fun s => s.admin.ctl) (fun v s => doAdminCtl (toW32 v) s))
  | 0x018 => some { Reg.status b false (fun s => s.admin.sqP.toNat) with write := fun v s => doAdminSqDb (toW32 v) s }
  | 0x01C => some { Reg.status b false (fun s => s.admin.cqC.toNat) with write := fun v s => doAdminCqDb (toW32 v) s }
  | 0x020 => some (.status b true (fun s => s.admin.sqP.toNat + s.admin.sqC.toNat * 2 ^ 32))
  | 0x028 => some (.status b true (fun s => s.admin.cqP.toNat + s.admin.cqC.toNat * 2 ^ 32))
  | 0x040 => some (.config b false 0 (fun s => s.rawReg offQuenchNow 0 + b2n s.quenchDone * 2 ^ 17) (fun v s => s.writeQuench v))
  | 0x050 => some (.config b true 0xFFFF00000000 (fun s => s.rawReg offXinvAddr 0) (fun v s => s.setRaw offXinvAddr (pageBits v).toNat))
  | 0x058 => some (.config b false 0 (fun s => s.rawReg offXinvCtl xinvCtlReset + b2n s.xinvDone * 2 ^ 18) (fun v s => doXinvCtl (toW32 v) s))
  | 0x312000 => some (.status b true (fun s => s.err.newest.toNat + s.err.writes.toNat * 2 ^ 32))
  | _ => none

/-- The owner of an event source, by scope (R465). -/
def srcOwner (k : Nat) : Option Nat := if k < 16384 then some (k / 32) else none

def ErrEntry.word (e : ErrEntry) (k : Nat) : Nat :=
  match k with
  | 0 => e.code + (e.severity + 128 * b2n e.restored) * 2 ^ 16 + e.inst * 2 ^ 24 + e.part * 2 ^ 32 + e.count * 2 ^ 48
  | 1 => e.detail.toNat
  | 2 => e.first.toNat
  | _ => e.last.toNat

def ErrLog.word (g : ErrLog) (slot k : Nat) : Nat :=
  match tget? g.slots slot with
  | some e => e.word k
  | none => 0

def State.evtWord (s : State) (i : Nat) : Nat :=
  ((s.evtPend.filter (fun k => k / 64 = i)).map (fun k => 2 ^ (k % 64))).sum

def qmTables (o b : Nat) : Option Reg :=
  match regIdx o 0x300000 4 16896, regIdx o 0x311000 8 264, regIdx o 0x320000 8 16384 with
  | some k, _, _ => some { Reg.config b false 0 (fun s => (tgetD s.evtMap k 0).toNat)
      (fun v s => { s with evtMap := tput s.evtMap k (toW32 (v % 2 ^ 15)) }) with fw := true, owner := srcOwner k }
  | _, some i, _ => some (.status b true (fun s => s.evtWord i))
  | _, _, some i => some (.status b true (fun s => s.err.word (i / 4) (i % 4)))
  | _, _, _ => none


def qmParts (o b : Nat) : Option Reg :=
  let own := fun (p : Nat) (r : Reg) => { r with owner := some p }
  match regIdx o 0x4000 8 512, regIdx o 0x8000 8 2048, regIdx o 0xC000 4 512, regIdx o 0xE000 8 512, regIdx o 0xF000 4 512 with
  | some p, _, _, _, _ => some (own p (.status b true (fun s => (s.part p).stateWord)))
  | _, some i, _, _, _ => some (rootReg (i / 4) (i % 4) b)
  | _, _, some p, _, _ => some (own p (.config b false 0 (fun s => (s.part p).xlatCtl) (fun v s => doXlatCtl p (toW32 v) s)))
  | _, _, _, some p, _ => some { own p (.status b true (fun s => (s.part p).clusters.toNat)) with fw := true }
  | _, _, _, _, some p => some { own p (.status b false (fun s => (s.part p).cfgWord (s.part p).classOf)) with fw := true }
  | _, _, _, _, _ => none

def qmReg (s : State) (o b : Nat) : Option Reg :=
  if o < 0x4000 then qmPlain o b
  else if o < 0x10000 then qmParts o b
  else if 0x100000 ≤ o ∧ o < 0x140000 then sqReg s ((o - 0x100000) / 0x20) (if o % 0x20 = 0 then 0 else if o % 0x20 = 8 then 1 else if o % 0x20 = 16 then 2 else 3) b
  else if 0x200000 ≤ o ∧ o < 0x240000 then cqReg s ((o - 0x200000) / 0x20) (if o % 0x20 = 0 then 0 else if o % 0x20 = 8 then 1 else if o % 0x20 = 16 then 2 else 3) b
  else if o = 0x312000 then qmPlain o b
  else if 0x300000 ≤ o then qmTables o b
  else none

/-! ### Cluster windows (05–07, 09, 13–15) -/

def CmdUnit.word (u : CmdUnit) : Nat :=
  u.queue.length + b2n u.running.isSome * 16 + (match u.running with | some k => k.part * 2 ^ 8 | none => 0)

/-- With the progress of the running command; zero while none runs (DESIGN CHOICE, log entry 13). -/
def CmdUnit.doneWord (u : CmdUnit) : Nat := u.word + (if u.running.isSome then min u.done 0xFFFFFFFF else 0) * 2 ^ 32

/-- ROWS_DONE of the UPU counts the rows of a SCAN alone (R156). -/
def upuWord (u : CmdUnit) : Nat := match u.running with | some k => if k.cmd = 1 then u.doneWord else u.word | none => u.word

def suCmd (u : CmdUnit) : Nat := match u.running with | some k => k.cmd | none => 0

/-- QC.L2_CTL: clearing ENABLE starts a drain (R337). -/
def State.l2Ctl (s : State) (c v : Nat) : State :=
  let s1 := s.setCl c { s.cl c with prefetch := bit v 2, pfDepth := bits v 4 3 }
  if bit v 0 then s1.setCl c { s1.cl c with l2En := true } else doL2Disable c s1

/-- QC.L2_MAINT_CTL: OP and LINES are written; GO starts OP, or is ignored and logged (R333). -/
def State.l2Maint (s : State) (c v : Nat) : State :=
  let k := s.cl c
  let op := bits v 2 0
  let go := fun (m : MaintOp) => doMaint c m k.maintAddr (bits v 31 8) (s.setCl c { k with maintOp := op, maintLines := bits v 31 8 })
  let plain := s.setCl c { k with maintOp := op, maintLines := bits v 31 8 }
  if !bit v 3 then plain
  else
    match op with
    | 0 => go .clean
    | 1 => go .invalidate
    | 2 => go .cleanInv
    | 3 => go .cleanAll
    | 4 => go .invAll
    | _ => plain.log 0x0805 c noPart 0

def qcReg (c o b : Nat) : Option Reg :=
  let st := fun (wide : Bool) (f : Cluster → Nat) => some (Reg.status b wide (fun s => f (s.cl c)))
  match o with
  | 0x400 => st true (fun k => k.cmp.doneWord + k.cmpPhase * 2 ^ 17)
  | 0x408 => st true (fun k => k.cmpComp + k.cmpRaw * 2 ^ 32)
  | 0x410 => st false (fun k => k.cmpFail)
  | 0x500 => st true (fun k => k.walk.length + k.walkMiss * 2 ^ 32)
  | 0x600 => some (.config b false 0 (fun s =>
      let k := s.cl c
      b2n k.l2En + 2 * b2n k.drained + 4 * b2n k.prefetch + k.pfDepth * 8 + 32 * b2n (!k.waysOut.isEmpty)) (fun v s => s.l2Ctl c v))
  | 0x608 => some { Reg.config b true 0 (fun s => (s.cl c).wayCfg.toNat) (fun v s => doWayCfg c (toW v) s) with fw := true }
  | 0x610 => some (.config b true 0xFFFF00000000 (fun s => (s.cl c).maintAddr.toNat)
      (fun v s => s.setCl c { s.cl c with maintAddr := toW (v % 2 ^ 48 / 64 * 64) }))
  | 0x618 => some (.config b false 0 (fun s =>
      (s.cl c).maintOp + 16 * b2n (s.cl c).maintDone + (s.cl c).maintLines * 2 ^ 8) (fun v s => s.l2Maint c v))
  | 0x620 => st true (fun k => k.errL1 + k.errCorr * 2 ^ 16 + k.errUnc * 2 ^ 32)
  | _ => none

def chanWord (k : Channel) : Nat :=
  k.state + k.trigger * 8 + k.level * 2 ^ 6 + k.part * 2 ^ 9 + k.retry * 2 ^ 18 + min k.rows 0xFFFFFFFF * 2 ^ 32

/-- R163: a granule's owner, which firmware alone writes. -/
def State.writeOwner (s : State) (c g v : Nat) : State :=
  let w := v % 2 ^ 9 + bits v 15 15 * 2 ^ 15
  s.setCl c { s.cl c with owner := tput (s.cl c).owner g (toW32 w) }

def clusterReg (c o b : Nat) : Option Reg :=
  let st := fun (wide : Bool) (f : Cluster → Nat) => some (Reg.status b wide (fun s => f (s.cl c)))
  let r := o % 0x1000
  match o / 0x1000 with
  | 0 => qcReg c r b
  | 1 => match r with
    | 0x000 => st true (fun k => upuWord k.upu)
    | 0x008 => st true (fun k => k.upuRows)
    | 0x010 => st true (fun k => k.decodeOut)
    | _ => none
  | 2 => match r with
    | 0x000 => st true (fun k => k.hu.doneWord + k.tables.length * 2 ^ 17)
    | 0x008 => st true (fun k => k.huRows)
    | _ => (regIdx r 0x100 4 64).map (fun g =>
        { Reg.config b false 0 (fun s => (tgetD (s.cl c).owner g 0).toNat) (fun v s => s.writeOwner c g v) with fw := true })
  | 3 => match r with
    | 0x000 => st true (fun k => k.su.doneWord + suCmd k.su * 2 ^ 17)
    | 0x008 => st true (fun k => k.suOut)
    | _ => none
  | 4 => match r with
    | 0x000 => some (.config b false 0 (fun s => (s.cl c).dmRetryMax) (fun v s => s.setCl c { s.cl c with dmRetryMax := bits v 3 0 }))
    | 0x008 => st true (fun k => k.dmBytes)
    | 0x010 => st true (fun k => k.dmRetries)
    | _ => (regIdx r 0x100 8 64).map (fun n => .status b true (fun s => (match s.chan c n with | some k => chanWord k | none => 0)))
  | _ => none

/-! ### The whole map (R409) and the doorbell pages (R263) -/

def bar2 : Nat := 0x100000000

def State.pageState (s : State) (q : Nat) : Nat :=
  let k := s.sq q
  let p := s.part (if k.exist then k.part else (s.cq q).part)
  if !k.exist && !(s.cq q).exist then 0
  else
    b2n p.halted + 2 * b2n p.quenched + 4 * b2n (p.quiesced || p.quiesce.isSome) + 8 * b2n (s.fetchHeld q)
      + 16 * b2n (p.holding.any (fun c => c.cq == q))

def doorbellReg (q o b : Nat) : Option Reg :=
  match o with
  | 0x000 => some { Reg.status b false (fun s => (s.sq q).idx % 2 ^ 32) with write := fun v s => doSqDoorbell q (toW32 v) s }
  | 0x008 => some (.status b true (fun s => (s.sq q).idx))
  | 0x010 => some { Reg.status b false (fun s => (s.cq q).idx / 2 ^ 32) with write := fun v s => doCqDoorbell q (toW32 v) s }
  | 0x018 => some (.status b true (fun s => (s.cq q).idx))
  | 0x020 => some (.status b false (fun s => s.pageState q))
  | _ => none

/-- BAR4 (R370), as offsets above BAR2's. -/
def bar4 : Nat := 0x110000000

/-- The register that begins at offset `o`; offsets from 0x1_0000_0000 on stand for BAR2. -/
def regFrom (relay : BitVec 32 → State → State) (s : State) (o : Nat) : Option Reg :=
  if bar2 ≤ o then
    (if o < bar2 + 0x2000000 then doorbellReg ((o - bar2) / 0x1000) (o % 0x1000) o else none)
  else if o < 0x10000 then fcReg o o
  else if o < 0x20000 then lsReg (o - 0x10000) o
  else if o < 0x30000 then duReg (o - 0x20000) o
  else if o < 0x40000 then asaReg (o - 0x30000) o
  else if o < 0x50000 then clReg relay (o - 0x40000) o
  else if o < 0x60000 then hpReg (o - 0x50000) o
  else if o < 0x80000 then npReg s (o - 0x60000) o
  else if o < 0x90000 then dcReg (o - 0x80000) o
  else if o < 0xA0000 then pmReg (o - 0x90000) o
  else if o < 0xB0000 then ksReg (o - 0xA0000) o
  else if o < 0x400000 then none
  else if o < 0x800000 then qmReg s (o - 0x400000) o
  else if o < 0x1000000 then none
  else if o < 0x1400000 then clusterReg ((o - 0x1000000) / 0x10000) (o % 0x10000) o
  else none

/-- The register that a 4-byte aligned offset lies in. -/
def regAt (relay : BitVec 32 → State → State) (s : State) (o : Nat) : Option Reg :=
  match regFrom relay s o with
  | some r => some r
  | none =>
    if o < 4 then none
    else
      match regFrom relay s (o - 4) with
      | some r => if r.wide then some r else none
      | none => none

end Sys2Proof.Machine
end

