-- ==== Sys2Proof/Machine/Access.lean ====
section
/-!
DEFINITION. Access to register space (20): the checks of the fabric, latches, parity, stalled accesses and the reply timer, and the
relay of R407, which performs an access at this unit for another.
-/
namespace Sys2Proof.Machine

open Sys2Proof

/-- What became of an access. -/
inductive RegRes where
  | ok (v : Nat)
  | bad
  | stall
  | dead
  deriving DecidableEq, Repr

def reqPath : Requester → Nat
  | .hostPort _ => 0
  | .core _ => 1
  | .pp _ => 2
  | .ccc _ => 3
  | .relay _ => 4

/-- PM.REG_ERR.SOURCE. -/
def reqSource : Requester → Nat
  | .hostPort h => h
  | .core k => k
  | .pp n => n / 4 + n % 4 * 64
  | .ccc c => c
  | .relay u => u

def reqFirmware : Requester → Bool
  | .core _ => true
  | .pp _ => true
  | .ccc _ => true
  | _ => false

/-- Who holds latches and an order: the chain relay is one requester, and a port's BAR2 is apart from its BAR0 (R408). -/
def reqKey (r : Requester) (o : Nat) : Requester :=
  match r with
  | .relay _ => .relay 0
  | .hostPort h => if bar2 ≤ o then .hostPort (h + 4) else .hostPort h
  | x => x

/-! ### Checks at the fabric (R410, R412, R419) -/

def cWidth : Nat := 1
def cAlign : Nat := 2
def cUnimpl : Nat := 3
def cFirmware : Nat := 4
def cAsleep : Nat := 5

/-- The cause of the bus error, if any. -/
def regCause (r : Option Reg) (who : Requester) (o width : Nat) (write : Bool) : Option Nat :=
  if width ≠ 32 ∧ width ≠ 64 then some cWidth
  else if o % (width / 8) ≠ 0 then some cAlign
  else
    match r with
    | none => some cUnimpl
    | some g =>
      if width = 64 ∧ (!g.wide ∨ g.base ≠ o) then some cWidth
      else if write && g.fw && !(reqFirmware who) then some cFirmware
      else none

/-- PM.REG_ERR and its count (R411). -/
def State.regError (s : State) (who : Requester) (o cause : Nat) (write : Bool) : State :=
  { s with regErr := { cause := cause, write := write, path := (reqPath who), source := (reqSource who), valid := true,
                       offset := if o < 0x10000000 then o else 0, count := satInc s.regErr.count 0xFFFFFFFF } }

/-- The target's clock has stopped, or boot has not completed for a host (R419, R444). -/
def State.asleep (s : State) (who : Requester) (o : Nat) : Bool :=
  let win := decide (0x1000000 ≤ o ∧ o < 0x1400000)
  (win && (s.pm.frozen || s.pm.gated.contains ((o - 0x1000000) / 0x100000)))
  || ((reqPath who) = 0 && decide (o < bar2) && !s.pm.bootDone && !decide (0x90000 ≤ o ∧ o < 0xA0000))

/-- The engine takes no access of any kind (R430, R439, R479). -/
def State.noAccess (s : State) : Bool := s.pm.inReset || s.pm.saveDone || s.tripStopped

/-! ### Latches (R414, R415) and parity (R417, R418) -/

def State.latch (s : State) (k : Requester) : Latch :=
  (s.latches.find? (fun l => l.who = k)).getD { who := k, readTag := none, readHi := 0, writeTag := none, writeHi := 0 }

def State.setLatch (s : State) (l : Latch) : State :=
  { s with latches := l :: s.latches.filter (fun x => x.who ≠ l.who) }

def tagIs (t : Option Nat) (b : Nat) : Option Nat := if t = some b then t else none

def State.parityRead (s : State) (r : Reg) (o width : Nat) : State :=
  match s.parity.find? (fun w => decide (o ≤ w) && decide (w < o + width / 8)) with
  | some w => if r.cfg then s.parityHit r.owner w else s
  | none => s

def State.parityMade (s : State) (o n : Nat) : State :=
  { s with parity := s.parity.filter (fun w => !(decide (o ≤ w) && decide (w < o + n))) }

/-! ### One access -/

def State.regReadAt (s : State) (r : Reg) (k : Requester) (o width : Nat) : Nat × State :=
  let v := r.read s
  let l0 := s.latch k
  let l := { l0 with readTag := none, writeTag := tagIs l0.writeTag r.base }
  if r.wide && decide (width = 32) then
    if o = r.base then
      (v % 2 ^ 32, (s.setLatch { l with readTag := some r.base, readHi := toW32 (v / 2 ^ 32) }).parityRead r o width)
    else
      ((if l0.readTag = some r.base then l0.readHi.toNat else v / 2 ^ 32), (s.setLatch l).parityRead r o width)
  else (v, (s.setLatch l).parityRead r o width)

def State.regWriteAt (s : State) (r : Reg) (k : Requester) (o width v : Nat) : State :=
  let l0 := s.latch k
  let l := { l0 with readTag := none, writeTag := tagIs l0.writeTag r.base }
  if r.wide && decide (width = 32) then
    if o = r.base then
      if l.writeTag = some r.base then
        r.write (v % 2 ^ 32 + l.writeHi.toNat * 2 ^ 32) ((s.setLatch { l with writeTag := none }).parityMade o 8)
      else r.write (v % 2 ^ 32 + (r.read s &&& r.hi)) ((s.setLatch l).parityMade o 4)
    else s.setLatch { l with writeTag := some r.base, writeHi := toW32 v }
  else r.write (v % 2 ^ width) ((s.setLatch l).parityMade o (width / 8))

/-- The register that an access reaches: the doorbell pages through BAR2 alone, which no path but a host port has (R408). -/
def regOf (relay : BitVec 32 → State → State) (s : State) (who : Requester) (o : Nat) : Option Reg :=
  if decide (0x10000000 ≤ o) && reqPath who ≠ 0 then none else regAt relay s o

/-- R407: the relay reaches no register of the target's CL block. -/
def relayBarred (who : Requester) (o : Nat) : Bool := reqPath who = 4 && decide (0x40000 ≤ o ∧ o < 0x50000)

/-- An access presented to its target. -/
def regTry (relay : BitVec 32 → State → State) (who : Requester) (o width : Nat) (write : Bool) (v : Nat) (s : State) :
    RegRes × State :=
  if s.noAccess then (.dead, s)
  else if relayBarred who o then (.bad, s)
  else
    let r := regOf relay s who (o / 4 * 4)
    match regCause r who o width write with
    | some c => (.bad, s.regError who o c write)
    | none =>
      if s.asleep who o then (.stall, s)
      else
        match r with
        | none => (.bad, s)
        | some g =>
          if write then (.ok 0, s.regWriteAt g (reqKey who o) o width v)
          else
            let (x, s1) := s.regReadAt g (reqKey who o) o width
            (.ok x, s1)

/-! ### Answers (R411) -/

/-- Body of ADMIN_RELAY (R407). -/
def relayBody (token : BitVec 16) (flags status offset : Nat) (data : Word) : List Byte :=
  leBytes 2 token.toNat ++ leBytes 1 flags ++ leBytes 1 status ++ leBytes 4 offset ++ leBytes 8 data.toNat

/-- The end of the outstanding GO, when TOKEN is its own (R407). -/
def State.relayEnds (s : State) (token : BitVec 16) (status : Nat) (write : Bool) (data : Word) : State :=
  if s.chain.relayDone || s.chain.token ≠ token then s
  else s.chainUpd (fun c => { c with relayDone := true, relayStatus := status, relayData := if status = 0 ∧ !write then data else c.relayData })

/-- The answer to a relayed access: a reply to the unit that asked, or the end of this unit's own GO. -/
def State.relayAnswer (s : State) (u : Nat) (token : Option (BitVec 16)) (o width : Nat) (write : Bool) (status : Nat) (data : Word) :
    State :=
  match token with
  | some t =>
    if u = s.chain.address then s.relayEnds t status write data
    else s.sendMsg 6 u (relayBody t (1 + 2 * b2n write + 4 * b2n (decide (width = 64))) status o data)
  | none => s

/-- A PP's bus error: the trap, with PTVAL the DPA (R96, R411). -/
def State.ppRegBad (s : State) (n o : Nat) (write : Bool) : State :=
  let s1 := if write then s.log 0x0D01 noInst noPart 0 else s
  s1.trap n trapBus (toW (regBase + o))

/-- What the requester sees.  An access of the debug port ends its DBG_ACCESS command (R457). -/
def State.regAnswer (s : State) (who : Requester) (token : Option (BitVec 16)) (o width : Nat) (write : Bool) (res : Option Nat) :
    State :=
  let logged := fun (t : State) => if write then t.log 0x0D01 noInst noPart 0 else t
  match who, res with
  | .relay u, some v => s.relayAnswer u token o width write 0 (if write then 0 else toW v)
  | .relay u, none => s.relayAnswer u token o width write 2 0
  | .hostPort _, some v => if write then s else s.emit (.reg who (toW v))
  | .hostPort _, none => if write then logged s else s.emit (.regBusError who)
  | .core k, some v =>
    if k = 0 ∧ !s.dbg.done then
      { s with dbg := { s.dbg with done := true, status := 0, data := if write then s.dbg.data else toW v } }
    else s.emit (.reg who (toW v))
  | .core k, none =>
    let t := logged s
    if k = 0 ∧ !t.dbg.done then { t with dbg := { t.dbg with done := true, status := 2 } } else t.emit (.regBusError who)
  | .pp n, none => s.ppRegBad n o write
  | _, some v => s.emit (.reg who (toW v))
  | _, none => (logged s).emit (.regBusError who)

/-- R420: the reply timer runs for an access that arrives now. -/
def State.timerOn (s : State) : Bool := !bit (s.rawReg offRegTimer regTimerReset) 8

/-- R420: a management core whose access waits with no reply timer has stopped, with the consequences of R11 (DESIGN CHOICE, log
entry 32: at once). -/
def State.coreStalls (s : State) (who : Requester) : State :=
  match who with
  | .core k => if s.timerOn then s else doCoreStop k s
  | _ => s

/-- An access waits at the fabric; `made` when a PP's instruction has made it. -/
def State.stallIt (s : State) (who : Requester) (token : Option (BitVec 16)) (o width : Nat) (write : Bool) (v : Nat) (made : Bool) :
    State :=
  State.coreStalls { s with stalls := s.stalls ++ [{ who := who, offset := o, width := width, write := write, value := toW v,
                                                     timed := s.timerOn, made := made, token := token }] } who

/-- An access arrives: it waits behind stalled ones of its requester, or is presented at once. -/
def regArrive (relay : BitVec 32 → State → State) (who : Requester) (token : Option (BitVec 16)) (o width : Nat) (write : Bool)
    (v : Nat) (s : State) : State :=
  if s.noAccess then s
  else if s.stalls.any (fun a => reqKey a.who a.offset = reqKey who o) then s.stallIt who token o width write v false
  else
    match regTry relay who o width write v s with
    | (.ok x, s1) => s1.regAnswer who token o width write (some x)
    | (.bad, s1) => s1.regAnswer who token o width write none
    | (.stall, s1) => s1.stallIt who token o width write v false
    | (.dead, s1) => s1

/-! ### The relay (R407) -/

/-- An access performed at this unit for `u`, in its turn among the relayed ones (R413, R419). -/
def relayAccess (u : Nat) (token : BitVec 16) (write wide : Bool) (o v : Nat) (s : State) : State :=
  regArrive (fun _ t => t) (.relay u) (some token) o (if wide then 64 else 32) write v s

/-- A write of CL.RELAY_CTL. -/
def doRelayGo (w : BitVec 32) (s : State) : State :=
  if s.frozen then s
  else
    let c := s.chain
    let s1 := s.chainUpd (fun x => { x with relayUnit := bits w.toNat 3 0, relayWrite := w.getLsbD 4, relayWide := w.getLsbD 5 })
    let u := bits w.toNat 3 0
    let o := c.relayAddr.toNat
    let v := if w.getLsbD 5 then c.relayData else c.relayData &&& 0xFFFFFFFF
    if !w.getLsbD 6 then s1
    else if !c.relayDone then s1.log 0x0C04 noInst noPart 0
    else
      let s2 := s1.chainUpd (fun x => { x with token := x.token + 1 })
      if c.status ≠ 3 || !c.members.getLsbD u then s2.chainUpd (fun x => { x with relayStatus := 1 })
      else
        let s3 := s2.chainUpd (fun x => { x with relayDone := false, relayOutW := w.getLsbD 4 })
        if u = c.address then relayAccess u (c.token + 1) (w.getLsbD 4) (w.getLsbD 5) o v.toNat s3
        else s3.sendMsg 6 u (relayBody (c.token + 1) (2 * b2n (w.getLsbD 4) + 4 * b2n (w.getLsbD 5)) 0 o (if w.getLsbD 4 then v else 0))

/-- ADMIN_RELAY: a request from another unit. -/
def doAdminRelay (src : Nat) (token : BitVec 16) (write wide : Bool) (o : Nat) (v : Word) (s : State) : State :=
  if s.frozen then s else relayAccess src token write wide o v.toNat s

/-- ADMIN_RELAY_REPLY: only the reply to the outstanding request counts. -/
def doRelayReply (_src : Nat) (token : BitVec 16) (status : Nat) (v : Word) (s : State) : State :=
  if s.frozen then s else s.relayEnds token (if status = 0 then 0 else 2) s.chain.relayOutW v

def doRelayTimeout (s : State) : State :=
  if s.frozen || s.chain.relayDone then s else s.chainUpd (fun x => { x with relayDone := true, relayStatus := 3 })

/-! ### Accesses from outside, and stalled ones -/

/-- A 32-bit word of BAR4 (R370): the MSI-X table's message address, message data and Vector Control words, whose bit 0 masks, and
the PBA. -/
def HostPort.bar4Word (k : HostPort) (o : Nat) : Nat :=
  if 0x10000 ≤ o then ((List.range 32).map (fun i => b2n (k.pba.contains ((o - 0x10000) * 8 + i)) * 2 ^ i)).sum
  else if o % 16 = 12 then b2n (!k.unmasked.contains (o / 16))
  else (tgetD k.msixTab (o / 4) 0).toNat

/-- A write of such a word; the PBA takes none. -/
def HostPort.bar4Put (k : HostPort) (o v : Nat) : HostPort :=
  if 0x10000 ≤ o then k
  else if o % 16 = 12 then { k with unmasked := if v % 2 = 1 then k.unmasked.filter (fun x => x ≠ o / 16) else setAdd k.unmasked (o / 16) }
  else { k with msixTab := tput k.msixTab (o / 4) (toW32 v) }

/-- An access of BAR4 on port `h`: width and alignment are those of register space (R410), and a write that unmasks a vector sends the
message held for it (R375). -/
def State.bar4Access (s : State) (h o width : Nat) (write : Bool) (v : Nat) : State :=
  let who := Requester.hostPort h
  let k := s.hp h
  if width ≠ 32 ∧ width ≠ 64 ∨ o % (width / 8) ≠ 0 ∨ 0x10200 ≤ o then s.regAnswer who none o width write none
  else if write then
    let k1 := k.bar4Put o (v % 2 ^ 32)
    (s.setHp h (if width = 64 then k1.bar4Put (o + 4) (v / 2 ^ 32) else k1)).msixFlush h (fun _ => true)
  else
    s.regAnswer who none o width false (some (k.bar4Word o + (if width = 64 then k.bar4Word (o + 4) * 2 ^ 32 else 0)))

/-- An access of a host port or of firmware.  BAR0 exists on the management port alone (R370).  A frozen engine answers no host (R427).
One of a PP is its instruction's: it takes place while the PP executes, in pilot mode (R408). -/
def doRegAccess (who : Requester) (o width : Nat) (write : Bool) (v : Word) (s : State) : State :=
  match who with
  | .hostPort h =>
    if !(s.hp h).linkUp || s.pm.frozen then s
    else if decide (o < bar2) && decide (h ≠ s.mgmtPort) then doHostUnclaimed h write s
    else if bar4 ≤ o then s.bar4Access h (o - bar4) width write v.toNat
    else regArrive doRelayGo who none o width write v.toNat s
  | .pp n => if s.ppCan n && (s.ppLeg n).isNone && (s.ppStall n).isNone then regArrive doRelayGo who none o width write v.toNat s else s
  | _ => regArrive doRelayGo who none o width write v.toNat s

/-- The first stalled access of a requester. -/
def State.firstStall (s : State) (k : Requester) : Option Stall := s.stalls.find? (fun a => reqKey a.who a.offset = k)

def State.dropStall (s : State) (a : Stall) : State := { s with stalls := s.stalls.erase a }

/-- Presents the waiting accesses of a requester, in order, until one has to wait.  A PP's instruction presents its own again. -/
def State.drainStalls (k : Requester) : Nat → State → State
  | 0, s => s
  | f + 1, s =>
    match s.firstStall k with
    | none => s
    | some a =>
      if a.made then s
      else
        match regTry doRelayGo a.who a.offset a.width a.write a.value.toNat (s.dropStall a) with
        | (.ok x, t) => State.drainStalls k f (t.regAnswer a.who a.token a.offset a.width a.write (some x))
        | (.bad, t) => State.drainStalls k f (t.regAnswer a.who a.token a.offset a.width a.write none)
        | (.stall, _) => s
        | (.dead, _) => s

/-- Every requester whose target may have woken. -/
def State.wakeStalls (s : State) : State :=
  ((s.stalls.map (fun a => reqKey a.who a.offset)).eraseDups).foldl (fun t k => State.drainStalls k t.stalls.length t) s

/-- REPLY_TIMER: the access that waits ends as DOMAIN_ASLEEP, and the ones behind it are presented. -/
def doReplyTimer (who : Requester) (s : State) : State :=
  if s.noAccess then s
  else
    match s.firstStall (reqKey who 0) with
    | none => s
    | some a =>
      if !a.timed then s
      else
        let s1 := (s.dropStall a).regError a.who a.offset cAsleep a.write
        match a.who with
        | .pp n => s1.ppRegBad n a.offset a.write
        | _ => State.drainStalls (reqKey who 0) s1.stalls.length (s1.regAnswer a.who a.token a.offset a.width a.write none)

/-- What a PP's access of a register would come to, without making it. -/
def State.regProbe (s : State) (n o width : Nat) (write : Bool) : RegRes :=
  if s.noAccess then .dead
  else if (regCause (regOf doRelayGo s (.pp n) (o / 4 * 4)) (.pp n) o width write).isSome then .bad
  else if s.asleep (.pp n) o then .stall
  else .ok 0

/-- The stalled access is the one that the instruction presents. -/
def Stall.isOf (a : Stall) (o width : Nat) (write : Bool) (v : Nat) : Bool :=
  a.made && a.offset == o && a.width == width && a.write == write && a.value == toW v

/-- An access that a PP's instruction makes; a stalled one is presented again with the instruction, and none passes it (R413, R420). -/
def State.ppReg (s : State) (n o width : Nat) (write : Bool) (v : Nat) : RegRes × State :=
  match s.ppStall n with
  | some a =>
    if a.isOf o width write v then
      match regTry doRelayGo (.pp n) o width write v (s.dropStall a) with
      | (.stall, _) => (.stall, s)
      | x => x
    else (.stall, s)
  | none =>
    match regTry doRelayGo (.pp n) o width write v s with
    | (.stall, s1) => (.stall, s1.stallIt (.pp n) none o width write v true)
    | x => x

def execRegisterWrite (r : Requester) (o width : Nat) (v : Word) (s : State) : Host.Outcome State Fault Refusal :=
  .next (doRegAccess r o width true v s)
def execRegisterRead (r : Requester) (o width : Nat) (s : State) : Host.Outcome State Fault Refusal :=
  .next (doRegAccess r o width false 0 s)
def execReplyTimer (r : Requester) (s : State) : Host.Outcome State Fault Refusal := .next (doReplyTimer r s)
def execAdminRelay (src : Nat) (token : BitVec 16) (write wide : Bool) (offset : BitVec 32) (data : Word) (s : State) :
    Host.Outcome State Fault Refusal := .next (doAdminRelay src token write wide offset.toNat data s)
def execAdminRelayReply (src : Nat) (token : BitVec 16) (status : Nat) (data : Word) (s : State) : Host.Outcome State Fault Refusal :=
  .next (doRelayReply src token status data s)
def execRelayGo (w : BitVec 32) (s : State) : Host.Outcome State Fault Refusal := .next (doRelayGo w s)
def execRelayTimeout (s : State) : Host.Outcome State Fault Refusal := .next (doRelayTimeout s)

end Sys2Proof.Machine
end

