-- ==== Sys2Proof/Machine/Relay.lean ====
section
/-!
DEFINITION. Receiving on a chain link (19): flits in order, the assembly and checks of messages, their forwarding, and their effect at
the unit they name (R394–R397, R403).  A DATA flit that ends a message has that message's effect; the rows that name a message are
the same effect at the level of messages (log entry 21).
-/
namespace Sys2Proof.Machine

open Sys2Proof

/-! ### The checks of R397 -/

/-- A received message, header and body. -/
structure ChainMsg where
  kind : Nat
  dest : Nat
  src  : Nat
  ttl  : Nat
  len  : Nat
  stamp : Word
  body : List Byte

def ChainMsg.ofBytes (b : List Byte) : ChainMsg :=
  { kind := fld b 0 1, dest := fld b 1 1, src := fld b 2 1, ttl := fld b 3 1, len := fld b 4 4, stamp := toW (fld b 8 8),
    body := (b.drop 16).take (fld b 4 4) }

def ChainMsg.u (m : ChainMsg) (o n : Nat) : Nat := fld m.body o n

/-- The body keeps its kind's layout. -/
def ChainMsg.bodyOk (m : ChainMsg) : Bool :=
  match m.kind with
  | 1 => m.len == 26 && decide (m.u 19 1 < 4) && zeroAt m.body 23 3
  | 2 => m.len == 16 && zeroAt m.body 12 4
  | 3 => m.len == 16 && decide (m.u 8 1 < 2) && zeroAt m.body 12 4
  | 4 => decide (16 ≤ m.len) && m.len == 16 + m.u 12 2 * 8 * m.u 3 1 && zeroAt m.body 14 2
  | 5 => m.len == 16 && zeroAt m.body 11 5
  | 6 => m.len == 16 && decide (m.u 2 1 < 8)
      && (if m.u 2 1 % 2 = 1 then m.u 3 1 == 0 || m.u 3 1 == 2 else m.u 3 1 == 0 && (bit (m.u 2 1) 1 || m.u 8 8 == 0))
      && decide (m.u 4 4 % (if bit (m.u 2 1) 2 then 8 else 4) = 0)
  | 7 => m.len == 16 && decide (1 ≤ m.u 0 1 ∧ m.u 0 1 ≤ 4) && zeroAt m.body 1 7
  | _ => false

/-- The whole message `b`, of `n` flits, is sound. -/
def chainMsgOk (b : List Byte) (n : Nat) : Bool :=
  let m := ChainMsg.ofBytes b
  n == cdiv (16 + m.len) 240 && decide (m.len ≤ 4064) && (b.drop (16 + m.len)).all (· == 0) && m.bodyOk

/-! ### Messages at this unit -/

/-- A discarded message: logged, and answered where R397 says so, by the unit that discards it. -/
def State.discardMsg (s : State) (l : Nat) (m : ChainMsg) : State :=
  let s1 := s.log 0x0C05 l noPart (toW m.src)
  let mine := decide (m.src < 16) && s.chain.members.getLsbD m.src
  if mine && m.kind == 4 then s1.sendMsg 5 m.src (remoteBody (toW32 (m.u 4 4)) (m.u 8 4) 0 2)
  else if mine && m.kind == 6 && m.u 2 1 % 2 == 0 then
    s1.relayAnswer m.src (some (BitVec.ofNat 16 (m.u 0 2))) (m.u 4 4) (if bit (m.u 2 1) 2 then 64 else 32) (bit (m.u 2 1) 1) 2 0
  else s1

def State.deliverMsg (s : State) (l : Nat) (m : ChainMsg) : State :=
  match m.kind with
  | 1 => doTick l (m.u 0 8) (toW (m.u 8 8)) (m.u 16 2) (m.u 18 1) (bit (m.u 19 1) 0) (bit (m.u 19 1) 1) (BitVec.ofNat 16 (m.u 20 2))
      (m.u 22 1) m.stamp s
  | 2 => doFixReady m.src (m.u 0 8) (m.u 8 4) s
  | 3 => doFix (m.u 0 8) (bit (m.u 8 1) 0) (m.u 9 1) (BitVec.ofNat 16 (m.u 10 2)) s
  | 4 => doShuffleData m.src (m.u 0 2) (m.u 2 1) (m.u 3 1) (toW32 (m.u 4 4)) (m.u 8 4) (m.body.drop 16) s
  | 5 => doRemoteCompletion m.src (toW32 (m.u 0 4)) (m.u 4 4) (m.u 8 2) (m.u 10 1) s
  | 6 =>
    if bit (m.u 2 1) 0 then doRelayReply m.src (BitVec.ofNat 16 (m.u 0 2)) (m.u 3 1) (toW (m.u 8 8)) s
    else doAdminRelay m.src (BitVec.ofNat 16 (m.u 0 2)) (bit (m.u 2 1) 1) (bit (m.u 2 1) 2) (m.u 4 4) (toW (m.u 8 8)) s
  | 7 => doChainDown m.src (m.u 0 1) (toW (m.u 8 8)) s
  | _ => s

/-- A sound message of a unit that has not been declared lost (R403): a broadcast is delivered and forwarded away from the bundle it came on while TTL lasts; one for another unit
is forwarded. -/
def State.takeMsg (s : State) (l : Nat) (m : ChainMsg) : State :=
  if !s.chain.fresh && !s.chain.members.getLsbD m.src then s
  else
    let on := fun (next : Bool) (t : State) => if 2 ≤ m.ttl then t.sendOn next m.kind m.dest m.src (m.ttl - 1) m.body else t
    if m.dest = 0xFF then State.deliverMsg (on (decide (4 ≤ l)) s) l m
    else if m.dest = s.chain.address then s.deliverMsg l m
    else on (s.chain.route m.dest).1 s

/-! ### Flits -/

/-- The end of a message, or of one that FIRST or a change of class cuts off. -/
def State.endMsg (s : State) (l : Nat) (whole : Bool) : State :=
  let k := s.link l
  let b := k.rx.flatten
  let s1 := s.setLink l { k with rx := [] }
  let m := ChainMsg.ofBytes b
  if whole && chainMsgOk b k.rx.length then s1.takeMsg l m else s1.discardMsg l m

/-- A DATA flit in order.  One that is no FIRST, with no message under way, goes on with what another link of the bundle had received
(R394). -/
def State.takeData (s : State) (l : Nat) (flit : List Byte) : State :=
  let h := fld flit 0 8
  let cls := bits h 7 6
  let k := s.link l
  let s1 := s.setLink l { k with rxSeq := (k.rxSeq + 1) % 4096,
                                 owed := (List.range 3).map (fun i => k.owed.getD i 0 + (if i = cls then 1 else 0)) }
  let cut := !k.rx.isEmpty && (bit h 4 || decide (cls ≠ k.rxClass))
  let s2 := if cut then s1.endMsg l false else s1
  let k1 := s2.link l
  let k2 := if !bit h 4 && k1.rx.isEmpty then { k1 with rx := tgetD k1.rxHold cls [], rxHold := tdel k1.rxHold cls } else k1
  let s3 := s2.setLink l { k2 with rx := k2.rx ++ [(flit.drop 8).take 240], rxClass := cls }
  let s4 := if bit h 5 then s3.endMsg l (bit h 4 || !k2.rx.isEmpty) else s3
  s4.sendPlain l 0 []

/-- R394: a flit arrives on link `l`. -/
def doFlit (l : Nat) (flit : List Byte) (s : State) : State :=
  if s.frozen || decide (8 ≤ l) || !(s.link l).up then s
  else if !flitOk flit then s.sendNak l
  else
    let h := fld flit 0 8
    let s1 := s.takeAck l flit
    match bits h 3 0 with
    | 1 => if bits h 19 8 = (s1.link l).rxSeq then s1.takeData l flit else s1.sendNak l
    | 2 => s1.resend l
    | _ => s1

def execData (l : Nat) (flit : List (BitVec 8)) (s : State) : Host.Outcome State Fault Refusal := .next (doFlit l flit s)
def execNak (l : Nat) (flit : List (BitVec 8)) (s : State) : Host.Outcome State Fault Refusal := .next (doFlit l flit s)
def execIdle (l : Nat) (flit : List (BitVec 8)) (s : State) : Host.Outcome State Fault Refusal := .next (doFlit l flit s)

end Sys2Proof.Machine
end

