-- ==== Sys2Proof/Machine/PpMem.lean ====
section
/-!
DEFINITION. Accesses of a PP's instructions to memory, the host window and register space, with their traps (03 R72, R73, R77; 14 R307),
and the loads, stores, far atomics and fences.
-/
namespace Sys2Proof.Machine

open Sys2Proof

/-! ### Addresses -/

/-- An access that may take place: its DPA, and whether it must bypass the caches. -/
structure PpAcc where
  dpa  : Nat
  vcol : Bool
  dev  : Bool := false     -- the page has DEVICE = 1
  deriving DecidableEq, Repr

/-- Why an access does not take place. -/
inductive AccErr where
  | miss
  | access (xc : Nat)
  | bus
  | data
  | align
  deriving DecidableEq, Repr

/-- An access fails, or waits and is made again with its instruction. -/
inductive AccStop where
  | err (e : AccErr)
  | wait
  deriving DecidableEq, Repr

/-- The address of a leg's access under `g`'s partition through the PP TLB (R302, R307).  A store or far atomic to a page with
VCOL is refused and logged as R15 has it, whatever W says (R22). -/
def State.legCheck (s : State) (n : Nat) (g : Leg) (va : Nat) (need : Need) : Except AccErr PpAcc × State :=
  if va ≥ 2 ^ 48 then (.error (.access xcAddressSize), s)
  else
    match (s.pp n).tlbFind g.entry.part va with
    | none => (.error .miss, s)
    | some e =>
      let d := tlbDpa e + va % 2 ^ tlbLog e
      if need.w && tlbVcol e then (.error (.access xcRefused), s.log 0x0103 (ppCluster n) g.entry.part (toW d))
      else if !tlbPermits e need then (.error (.access xcPermission), s)
      else
        match s.dpaRefused g.entry.part (ppCluster n) d with
        | (true, s1) => (.error (.access xcRefused), s1)
        | (false, _) => (.ok { dpa := d, vcol := tlbVcol e, dev := tlbDevice e }, s)

/-- The address of an access: translated in leg mode, a DPA in pilot mode (R65, R16).  An address with bits [63:48] not zero is in
pilot mode no DPA; the spec names no outcome, and the model takes it as an unpopulated one (DESIGN CHOICE, log entry 26). -/
def State.ppCheck (s : State) (n va : Nat) (need : Need) : Except AccErr PpAcc × State :=
  match s.ppLeg n with
  | some (_, g) => s.legCheck n g va need
  | none =>
    match region s va with
    | .unmapped => (.error .bus, s.log 0x0104 (ppCluster n) noPart (toW va))
    | _ => (.ok { dpa := va, vcol := false }, s)

/-- The trap of an access that failed (R96); `miss` is the cause of a TLB miss. -/
def State.takeErr (s : State) (n va : Nat) (e : AccErr) (write : Bool) (miss : Nat) : State :=
  match e with
  | .miss => s.tlbMiss n miss va
  | .access xc => s.accessFault n xc va write false
  | .bus => s.trap n trapBus (toW va)
  | .data => s.trap n trapMemory (toW va)
  | .align => s.trap n trapMisaligned (toW va)

/-- The state in which an instruction stops at an access. -/
def State.accStop (s : State) (n va : Nat) (x : AccStop) (write : Bool) (miss : Nat) : State :=
  match x with
  | .err e => s.takeErr n va e write miss
  | .wait => s

/-- A leg's address, or the state after its trap. -/
def State.legAddr (s : State) (n : Nat) (g : Leg) (va : Nat) (need : Need) (miss : Nat) : Except State PpAcc × State :=
  match s.legCheck n g va need with
  | (.ok a, s1) => (.ok a, s1)
  | (.error e, s1) => (.error (s1.takeErr n va e need.w miss), s)

/-- An address, or the state after its trap. -/
def State.ppAddr (s : State) (n va : Nat) (need : Need) (miss : Nat) : Except State PpAcc × State :=
  match s.ppCheck n va need with
  | (.ok a, s1) => (.ok a, s1)
  | (.error e, s1) => (.error (s1.takeErr n va e need.w miss), s)

/-- A host-window access that failed on the way: the access fault of a leg, BUS_ERROR in pilot mode (R16). -/
def State.refusedErr (s : State) (n : Nat) : AccErr := if (s.ppLeg n).isSome then .access xcRefused else .bus

/-- The port and PASID of an access to the host window (R17). -/
def State.ppPasid (s : State) (n : Nat) : Option Nat :=
  match s.ppLeg n with
  | some (_, g) => some (s.part g.entry.part).pasid
  | none => none

/-! ### Reading and writing -/

/-- What an answered host read comes to: 1 a bus error, 2 poisoned data (R373). -/
def State.hostAnswer (s : State) (n d size st : Nat) : Except AccStop (List Byte) :=
  if st = 1 then .error (.err (s.refusedErr n)) else if st = 2 then .error (.err .data) else .ok (readBytes s.mem d size)

/-- The instruction waits, and is presented again from its beginning: the reads already answered are used again, in order. -/
def State.ppWaits (s : State) (n : Nat) : State := s.setPp n { s.pp n with hostLeft := (s.pp n).hostSeen }

/-- A read of the host window, for partition `who` or in pilot mode for none: it goes out when the port can take it (R368), and the instruction waits until its completion returns
(R373).  Each read of an instruction that makes several is a request of its own (R17): `hostSeen` holds those already answered. -/
def State.ppHostRead (s : State) (n d size : Nat) (dev : Bool) (who : Option Nat) : Except AccStop (List Byte) × State :=
  let p := s.pp n
  match p.hostLeft with
  | x :: t => (s.hostAnswer n d size x.2.2, s.setPp n { p with hostLeft := t })
  | [] =>
    match p.hostReady with
    | some (_, failed) =>
      let st := if failed then 1 else if tgetD s.hostBad (d / 64) 0 = 2 then 2 else 0
      (s.hostAnswer n d size st,
        s.setPp n { p with hostReady := none, hostAt := none, blocked := .none, hostSeen := p.hostSeen ++ [(d, size, st)] })
    | none =>
      let port := match who with | some q => (s.part q).hostPort | none => s.mgmtPort
      if p.blocked = .hostLoad then (.error .wait, s.ppWaits n)
      else if !(s.hp port).linkUp then (.error (.err (s.refusedErr n)), s)
      else if s.portFull port then (.error .wait, s.ppWaits n)
      else
        (.error .wait, ((s.setPp n { p with blocked := .hostLoad, hostDev := dev, hostAt := some (port, d) }).ppWaits n).emit
          (.hostRead port (who.map (fun q => (s.part q).pasid)) (d - hostBase) size false))

/-- The bytes at an address inside one line. -/
def State.accRead (s : State) (n size : Nat) (a : PpAcc) (bypass : Bool) : Except AccStop (List Byte) × State :=
  let d := a.dpa
  match region s d with
  | .reg =>
    match s.ppReg n (d - regBase) (8 * size) false 0 with
    | (.ok v, s1) => (.ok (leBytes size v), s1)
    | (.bad, s1) => (.error (.err .bus), s1)
    | (_, s1) => (.error .wait, s1.ppWaits n)
  | .host => s.ppHostRead n d size a.dev ((s.ppLeg n).map (fun e => e.2.entry.part))
  | _ =>
    let r := if bypass || a.vcol || a.dev then s.bypassRead (ppCluster n) (d / 64) else s.ppLoadLine n (d / 64) ((s.ppLeg n).isNone)
    match r with
    | (some line, s1) => (.ok ((line.drop (d % 64)).take size), s1)
    | (none, s1) => (.error (.err .data), s1)

/-- A store inside one line of memory, which holds no poison: into the L2, or of a page with DEVICE = 1 past the caches, whose copies go
first (R307; DESIGN CHOICE, log entry 26). -/
def State.memStore (s : State) (n : Nat) (a : PpAcc) (bs : List Byte) : State :=
  let c := ppCluster n
  if a.dev then (s.farCaches c (a.dpa / 64)).memWrite a.dpa bs else s.l2Store c n a.dpa bs ((s.ppLeg n).isNone)

/-- Writes inside one line. -/
def State.accWrite (s : State) (n : Nat) (a : PpAcc) (bs : List Byte) : Except AccStop Unit × State :=
  let d := a.dpa
  match region s d with
  | .reg =>
    match s.ppReg n (d - regBase) (8 * bs.length) true (leNat bs) with
    | (.ok _, s1) => (.ok (), s1)
    | (.bad, s1) => (.error (.err .bus), s1.log 0x0D01 noInst noPart 0)
    | (_, s1) => (.error .wait, s1.ppWaits n)
  | .host =>
    match s.hostPost (s.ppPort n) (s.ppPasid n) (d - hostBase) bs with
    | (true, s1) => (.ok (), s1)
    | (false, s1) => (.error (.err (s.refusedErr n)), s1)
  | _ =>
    match s.l2Meets (ppCluster n) (d / 64) with
    | (true, s1) => (.error (.err .data), s1)
    | (false, s1) => (.ok (), s1.memStore n a bs)

/-- A load of `size` bytes at `va`: alignment, address, read (R72). -/
def State.accLoad (s : State) (n va size : Nat) (bypass : Bool) : Except AccStop (List Byte) × State :=
  if va % size ≠ 0 then (.error (.err .align), s)
  else
    match s.ppCheck n va needR with
    | (.error e, s1) => (.error (.err e), s1)
    | (.ok a, s1) => s1.accRead n size a bypass

def State.accStore (s : State) (n va : Nat) (bs : List Byte) : Except AccStop Unit × State :=
  if va % bs.length ≠ 0 then (.error (.err .align), s)
  else
    match s.ppCheck n va needW with
    | (.error e, s1) => (.error (.err e), s1)
    | (.ok a, s1) => s1.accWrite n a bs

/-! ### Loads and stores (MAJOR 0x10–0x1B) -/

/-- The value of a load, sign- or zero-extended. -/
def extend (signed : Bool) (size v : Nat) : Word :=
  if signed then BitVec.signExtend 64 (BitVec.ofNat (8 * size) v) else toW v

def loadOp (n : Nat) (f : IF) (size : Nat) (signed bypass : Bool) (s : State) : State :=
  ppRun s n (fun s =>
    let va := ((s.pp n).getX f.rs1 + imm16 f.imm).toNat
    match s.accLoad n va size bypass with
    | (.error x, s1) => s1.accStop n va x false trapTlbLoad
    | (.ok bs, s1) => s1.wr n f.rd (extend signed size (leNat bs)))

def storeOp (n : Nat) (f : SF) (size : Nat) (s : State) : State :=
  ppRun s n (fun s =>
    let va := ((s.pp n).getX f.rs1 + imm16 f.imm).toNat
    match s.accStore n va (leBytes size ((s.pp n).getX f.rs2).toNat) with
    | (.error x, s1) => s1.accStop n va x true trapTlbStore
    | (.ok _, s1) => s1.setPp n ((s1.pp n).advance 4))

def execLb (n : Nat) (f : IF) (s : State) : Host.Outcome State Fault Refusal := .next (loadOp n f 1 true false s)
def execLh (n : Nat) (f : IF) (s : State) : Host.Outcome State Fault Refusal := .next (loadOp n f 2 true false s)
def execLw (n : Nat) (f : IF) (s : State) : Host.Outcome State Fault Refusal := .next (loadOp n f 4 true false s)
def execLd (n : Nat) (f : IF) (s : State) : Host.Outcome State Fault Refusal := .next (loadOp n f 8 false false s)
def execLbu (n : Nat) (f : IF) (s : State) : Host.Outcome State Fault Refusal := .next (loadOp n f 1 false false s)
def execLhu (n : Nat) (f : IF) (s : State) : Host.Outcome State Fault Refusal := .next (loadOp n f 2 false false s)
def execLwu (n : Nat) (f : IF) (s : State) : Host.Outcome State Fault Refusal := .next (loadOp n f 4 false false s)
/-- R73: the load that bypasses L1D and L2. -/
def execLdnc (n : Nat) (f : IF) (s : State) : Host.Outcome State Fault Refusal := .next (loadOp n f 8 false true s)
def execSb (n : Nat) (f : SF) (s : State) : Host.Outcome State Fault Refusal := .next (storeOp n f 1 s)
def execSh (n : Nat) (f : SF) (s : State) : Host.Outcome State Fault Refusal := .next (storeOp n f 2 s)
def execSw (n : Nat) (f : SF) (s : State) : Host.Outcome State Fault Refusal := .next (storeOp n f 4 s)
def execSd (n : Nat) (f : SF) (s : State) : Host.Outcome State Fault Refusal := .next (storeOp n f 8 s)

/-! ### Far atomics (MAJOR 0x28, R24, R76, R77) -/

/-- The far atomic at DPA `d`: caches, memory, and the grants whose control line it touches. -/
def State.farAt (s : State) (n va size d : Nat) (rd : BitVec 5) (g : Nat → Nat) : State :=
  let s1 := s.farCaches (ppCluster n) (d / 64)
  match s1.memFar d size (ppCluster n) (fun old => leBytes size (g (leNat old))) with
  | (none, s2) => s2.trap n trapMemory (toW va)
  | (some old, s2) => State.wr (s2.notifyGrants d) n rd (extend (size == 4) size (leNat old))

/-- `fn` is FUNC6 of the .W form; `g` gives the new value from the old, the operand and the compare value of `size` bytes. -/
def farOp (n fn : Nat) (wide cas : Bool) (f : RF) (g : Nat → Nat → Nat → Nat → Nat) (s : State) : State :=
  ppRun s n (fun s =>
    let p := s.pp n
    let size := if wide then 8 else 4
    let va := (p.getX f.rs1).toNat
    let low := fun (v : Word) => v.toNat % 2 ^ (8 * size)
    if !cas && f.rs3 ≠ 0 then s.illegal n (encR 0x28 (fn + b2n wide) f)
    else if va % size ≠ 0 then s.trap n trapMisaligned (toW va)
    else
      match s.ppAddr n va needRW trapTlbLoad with
      | (.error t, _) => t
      | (.ok a, s1) =>
        if region s1 a.dpa = .host ∨ region s1 a.dpa = .reg then s1.accessFault n xcRefused va true false
        else s1.farAt n va size a.dpa f.rd (fun old => g size old (low (p.getX f.rs2)) (low (p.getX f.rs3))))

/-- Signed order of two values of `size` bytes. -/
def sless (size a b : Nat) : Bool := (BitVec.ofNat (8 * size) a).slt (BitVec.ofNat (8 * size) b)

def execFadd (n : Nat) (w : Bool) (f : RF) (s : State) : Host.Outcome State Fault Refusal :=
  .next (farOp n 0x00 w false f (fun z a b _ => (a + b) % 2 ^ (8 * z)) s)
def execFswap (n : Nat) (w : Bool) (f : RF) (s : State) : Host.Outcome State Fault Refusal :=
  .next (farOp n 0x02 w false f (fun _ _ b _ => b) s)
def execFcas (n : Nat) (w : Bool) (f : RF) (s : State) : Host.Outcome State Fault Refusal :=
  .next (farOp n 0x04 w true f (fun _ a b c => if a = c then b else a) s)
def execFmin (n : Nat) (w : Bool) (f : RF) (s : State) : Host.Outcome State Fault Refusal :=
  .next (farOp n 0x06 w false f (fun z a b _ => if sless z b a then b else a) s)
def execFmax (n : Nat) (w : Bool) (f : RF) (s : State) : Host.Outcome State Fault Refusal :=
  .next (farOp n 0x08 w false f (fun z a b _ => if sless z a b then b else a) s)
def execFminu (n : Nat) (w : Bool) (f : RF) (s : State) : Host.Outcome State Fault Refusal :=
  .next (farOp n 0x0A w false f (fun _ a b _ => min a b) s)
def execFmaxu (n : Nat) (w : Bool) (f : RF) (s : State) : Host.Outcome State Fault Refusal :=
  .next (farOp n 0x0C w false f (fun _ a b _ => max a b) s)
def execFand (n : Nat) (w : Bool) (f : RF) (s : State) : Host.Outcome State Fault Refusal :=
  .next (farOp n 0x0E w false f (fun _ a b _ => a &&& b) s)
def execFarOr (n : Nat) (w : Bool) (f : RF) (s : State) : Host.Outcome State Fault Refusal :=
  .next (farOp n 0x10 w false f (fun _ a b _ => a ||| b) s)

/-! ### Fences (MAJOR 0x2A, R74) -/

/-- The dirty lines of a leg's range, page by page: a page that the PP TLB and the walk of firmware's handler do not reach holds
no line of the leg. -/
def State.cleanVa (s : State) (n part : Nat) : List Nat → Nat → Nat → State
  | [], _, _ => s
  | page :: t, a, len =>
    let lo := max a (page * 4096)
    let hi := min (a + len) (page * 4096 + 4096)
    match s.fwXlate n part lo { r := false, w := false, x := false } with
    | (.ok (d, _), s1) => ((s1.cleanRange (ppCluster n) d (hi - lo)).2).cleanVa n part t a len
    | (.error _, s1) => s1.cleanVa n part t a len

/-- The pages of a leg's range that hold a dirty line of the cluster, by the PP TLB's and the L2's reach. -/
def State.dirtyPages (s : State) (n a len : Nat) : List Nat :=
  let lines := ((s.cl (ppCluster n)).l2.filter (fun e => e.2.dirty)).length
  if lines = 0 then [] else (List.range ((a + len - 1) / 4096 + 1 - a / 4096)).map (· + a / 4096)

/-- FENCE.M of [a, a + len), cut at the end of the 48-bit address space. -/
def State.fenceRange (s : State) (n a len : Nat) : State :=
  if len = 0 ∨ 2 ^ 48 ≤ a then s
  else
    let k := min len (2 ^ 48 - a)
    match s.ppLeg n with
    | some (_, g) => s.cleanVa n g.entry.part (s.dirtyPages n a k) a k
    | none => (s.cleanRange (ppCluster n) a k).2

def execFenceC (n : Nat) (f : RF) (s : State) : Host.Outcome State Fault Refusal :=
  .next (ppRun s n (fun s =>
    if f.rd ≠ 0 ∨ f.rs3 ≠ 0 then s.illegal n (encR 0x2A 0 f)
    else s.setPp n ((s.pp n).advance 4)))

def doFenceM (n : Nat) (f : RF) (s : State) : State :=
  ppRun s n (fun s =>
    if f.rd ≠ 0 ∨ f.rs3 ≠ 0 then s.illegal n (encR 0x2A 1 f)
    else
      let p := s.pp n
      let s1 := s.fenceRange n (p.getX f.rs1).toNat (p.getX f.rs2).toNat
      s1.setPp n ((s1.pp n).advance 4))

def execFenceM (n : Nat) (f : RF) (s : State) : Host.Outcome State Fault Refusal :=
  .next (s.settle [.walk (ppCluster n)] (doFenceM n f))

def execFenceI (n : Nat) (f : RF) (s : State) : Host.Outcome State Fault Refusal :=
  .next (ppRun s n (fun s =>
    if f.rd ≠ 0 ∨ f.rs3 ≠ 0 then s.illegal n (encR 0x2A 2 f)
    else s.setPp n (Pp.advance { s.pp n with l1i := [], l1iPlru := [] } 4)))

end Sys2Proof.Machine
end

