-- ==== Sys2Proof/Machine/PpPipe.lean ====
section
/-!
DEFINITION. Pipe operations of a PP (03 R78–R80).  A PUSH or POP that blocks has not taken place: the PP holds the reason and
the row is presented again (log entry 4).
-/
namespace Sys2Proof.Machine

open Sys2Proof

/-- R79: the pipe that X[rs1] names, bound to the leg's partition; a POP runs on the consumer's cluster alone. -/
def State.ppPipe (s : State) (n : Nat) (h : Word) (pops : Bool) : Option (Nat × Nat × Pipe) :=
  match s.ppPart (s.pp n) with
  | some p =>
    match s.pipeOf h p with
    | some (c, i, k) => if pops && c != ppCluster n then none else some (c, i, k)
    | none => none
  | none => none

/-- A well-formed pipe operation: the trap of R79, or the effect on pipe `i` of cluster `c`. -/
def pipeOp (n fn : Nat) (f : RF) (zero pops : Bool) (g : State → Nat → Nat → Pipe → State) (s : State) : State :=
  ppRun s n (fun s =>
    if f.rs3 ≠ 0 ∨ !zero then s.illegal n (encR 0x29 fn f)
    else
      let h := (s.pp n).getX f.rs1
      match s.ppPipe n h pops with
      | none => s.trap n trapPipe h
      | some (c, i, k) => g s c i k)

/-- The pipe's entries change, and the mover channels that watch it look (R294). -/
def State.setPipe (s : State) (c i : Nat) (k : Pipe) (es : List Word) : State :=
  (s.setCl c { s.cl c with pipes := tput (s.cl c).pipes i { k with entries := es } }).dmWatch c i

def Pipe.room (k : Pipe) : Bool := decide (k.entries.length < k.depth)

/-- The instruction waits. -/
def State.block (s : State) (n : Nat) (b : Block) : State := s.setPp n { s.pp n with blocked := b }

/-- R78 PUSH. -/
def doPush (n : Nat) (f : RF) (s : State) : State :=
  pipeOp n 0 f (f.rd == 0) false (fun s c i k =>
    if k.room then (s.setPp n ((s.pp n).advance 4)).setPipe c i k (k.entries ++ [(s.pp n).getX f.rs2])
    else s.block n (.push c i)) s

/-- R78 POP.  An uncorrectable entry is removed, and POP raises MEMORY_ERROR with the handle in PTVAL (R338). -/
def doPop (n : Nat) (f : RF) (s : State) : State :=
  pipeOp n 1 f (f.rs2 == 0) true (fun s c i k =>
    match k.entries with
    | e :: es =>
      if k.flaws.contains 0 then ((s.trap n trapMemory ((s.pp n).getX f.rs1)).pipeBad c k).setPipe c i k.popped es
      else (s.wr n f.rd e).setPipe c i k.popped es
    | [] => s.block n (.pop c i)) s

/-- R78 TPUSH. -/
def doTpush (n : Nat) (f : RF) (s : State) : State :=
  pipeOp n 2 f true false (fun s c i k =>
    if k.room then (s.wr n f.rd 1).setPipe c i k (k.entries ++ [(s.pp n).getX f.rs2])
    else s.wr n f.rd 0) s

/-- R78 PLEVEL. -/
def doPlevel (n : Nat) (f : RF) (s : State) : State :=
  pipeOp n 3 f (f.rs2 == 0) false (fun s _ _ k => s.wr n f.rd (toW k.entries.length)) s

def execPush (n : Nat) (f : RF) (s : State) : Host.Outcome State Fault Refusal := .next (doPush n f s)
def execPop (n : Nat) (f : RF) (s : State) : Host.Outcome State Fault Refusal := .next (doPop n f s)
def execTpush (n : Nat) (f : RF) (s : State) : Host.Outcome State Fault Refusal := .next (doTpush n f s)
def execPlevel (n : Nat) (f : RF) (s : State) : Host.Outcome State Fault Refusal := .next (doPlevel n f s)

end Sys2Proof.Machine
end

