-- ==== Sys2Proof/Machine/PpSys.lean ====
section
/-!
DEFINITION. The leg services of a PP (03 R86–R88, 05 R157, R158) and its control and status registers (03 R89, 14 R313).
-/
namespace Sys2Proof.Machine

open Sys2Proof

/-! ### Control and status registers (R89) -/

def csrXS1ROOT : Nat := 0x183
def csrXS2ROOT : Nat := 0x184
def csrXTLBCOUNT : Nat := 0x186

/-- A number that 03 or 14 lists. -/
def csrListed (k : Nat) : Bool :=
  decide (k ≤ 0x13) || decide (0x100 ≤ k ∧ k ≤ 0x10B) || decide (0x180 ≤ k ∧ k ≤ 0x186)

/-- Read-only for the mode. -/
def csrRo (leg : Bool) (k : Nat) : Bool :=
  if leg then decide (k ≤ 0xF)
  else [csrLEFT, csrCHRONO, csrSEALED, csrWHERE, csrTICKETS, csrXWSTAT, csrXWADDR, csrXWDPA, csrXS1ROOT, csrXS2ROOT,
        csrXTLBCOUNT].contains k

/-- The live translation root of the running leg's partition; with no leg a free value (log entry 12). -/
def State.csrRoot (s : State) (n : Nat) (root : Xlat → Word) : Word × State :=
  match s.ppPart (s.pp n) with
  | some p => (toW (ptAddr (root (s.part p).xlat)), s)
  | none => let (k, s1) := s.free; (toW k, s1)

/-- The leg that the PP runs, in either mode.  EXIT, ABORT, RETIRE and OBATCH in pilot mode act on the leg that the trap interrupted,
and their addresses translate as the leg's: the spec does not say what they act on there (DESIGN CHOICE, log entry 26). -/
def State.ppRunning (s : State) (n : Nat) : Option (Nat × Leg) :=
  match (s.pp n).running with
  | some l => (s.leg? l).map (fun g => (l, g))
  | none => none

/-- The value that a read of CSR `k` returns. -/
def State.csrRead (s : State) (n k : Nat) : Word × State :=
  let p := s.pp n
  if k = csrUSED ∨ k = csrLEFT then
    let s1 := if (s.ppLeg n).isSome then s.sample n else s
    let q := s1.pp n
    (if k = csrUSED then q.getCsr csrUSED else q.getCsr csrBUDGET - q.getCsr csrUSED, s1)
  else if k = csrCHRONO then (s.fc.chrono, s)
  else if k = csrSEALED then (s.fc.sealed, s)
  else if k = csrWHERE then (toW (ppCluster n + n % 4 * 64), s)
  else if k = csrTICKETS then (match s.ppRunning n with | some (_, g) => toW g.ticketBits | none => 0, s)
  else if k = csrXS1ROOT then s.csrRoot n (·.s1)
  else if k = csrXS2ROOT then s.csrRoot n (·.s2)
  else if k = csrXTLBCOUNT then (toW p.tlb.length, s)
  else (p.getCsr k, s)

/-- The bits that a CSR holds. -/
def csrMask (k : Nat) : Word :=
  if k = csrLEGID then 0x01FF1FFFFFFFFFFF#64
  else if k = csrPSTATUS then 3#64
  else if k = csrPVEC then ~~~ 0xFFF#64
  else if k = csrXVICTIM then 0x1FF#64
  else BitVec.allOnes 64

/-- A CSR instruction (R89); IMM16[15:12] above 3 is no OP (R68).  `new` gives the value written from the old one and X[rs1]; none for CSRR. -/
def csrOp (n op : Nat) (f : IF) (new : Option (Word → Word → Word)) (s : State) : State :=
  ppRun s n (fun s =>
    let k := bits f.imm.toNat 11 0
    let leg := (s.ppLeg n).isSome
    let w := encCsr op f
    if 3 < bits f.imm.toNat 15 12 then s.illegal n (encI 0x2B f)
    else if !csrListed k then s.illegal n w
    else if leg && decide (0x100 ≤ k) then s.trap n trapPrivileged w
    else if new.isSome && csrRo leg k then s.illegal n w
    else
      let (old, s1) := s.csrRead n k
      match new with
      | none => s1.wr n f.rd old
      | some g =>
        let p := s1.pp n
        (s1.setPp n (p.setCsr k (g old (p.getX f.rs1) &&& csrMask k))).wr n f.rd old)

def execCsrr (n : Nat) (f : IF) (s : State) : Host.Outcome State Fault Refusal := .next (csrOp n 0 f none s)
def execCsrw (n : Nat) (f : IF) (s : State) : Host.Outcome State Fault Refusal := .next (csrOp n 1 f (some (fun _ v => v)) s)
def execCsrs (n : Nat) (f : IF) (s : State) : Host.Outcome State Fault Refusal := .next (csrOp n 2 f (some (fun o v => o ||| v)) s)
def execCsrc (n : Nat) (f : IF) (s : State) : Host.Outcome State Fault Refusal :=
  .next (csrOp n 3 f (some (fun o v => o &&& ~~~ v)) s)

/-! ### Leg services (MAJOR 0x2C) -/

/-- A SYS instruction whose unused register fields are zero. -/
def sysOp (n fn : Nat) (f : RF) (zero : Bool) (g : State → State) (s : State) : State :=
  ppRun s n (fun s => if f.rs3 ≠ 0 ∨ !zero then s.illegal n (encR 0x2C fn f) else g s)

/-- R86 EXIT, R41, R91, R296: the leg waits for its close and the PP is free. -/
def State.exitLeg (s : State) (n l : Nat) (code : Nat) : State :=
  let s0 := s.sample n
  match s0.leg? l with
  | some g =>
    let g1 := { g.fromPp (s0.pp n) with place := .closing n, userCode := code, stopped := false }
    let s1 := (s0.setLeg l g1).freePp n
    (s1.dmCancelWhere (fun k => k.leg = l) 0x050A).letIn g.home
  | none => s0

/-- EXIT and ABORT: X[rs1][15:0] is the user code.  With no leg they only go on. -/
def legEnd (n fn : Nat) (f : RF) (e : State → Nat → Nat → State) (s : State) : State :=
  sysOp n fn f (f.rd == 0 && f.rs2 == 0) (fun s =>
    match s.ppRunning n with
    | some (l, _) => e s l ((s.pp n).getX f.rs1).toNat
    | none => s.setPp n ((s.pp n).advance 4)) s

def doExit (n : Nat) (f : RF) (s : State) : State := legEnd n 0 f (fun s l v => s.exitLeg n l (v % 65536)) s

/-- R86 ABORT. -/
def doAbort (n : Nat) (f : RF) (s : State) : State :=
  legEnd n 1 f (fun s l v => (s.sample n).errLeg l 0x01 (v % 65536)) s

/-- R86 BREAK: the trap, with the PC in PTVAL. -/
def doBrk (n : Nat) (f : RF) (s : State) : State :=
  sysOp n 2 f (f.rd == 0 && f.rs1 == 0 && f.rs2 == 0) (fun s => s.trap n trapBreak (s.pp n).pc) s

/-- Bytes inside one line at an address that has been translated: for a descriptor or a header of the leg. -/
def State.legLine (s : State) (n va len : Nat) (g : Leg) (a : PpAcc) : Except State (List Byte) × State :=
  let d := a.dpa
  match region s d with
  | .host =>
    match s.ppHostRead n d len a.dev (some g.entry.part) with
    | (.ok bs, s1) => (.ok bs, s1)
    | (.error (.err .data), s1) => (.error (s1.trap n trapMemory (toW va)), s)
    | (.error (.err _), s1) => (.error (s1.accessFault n xcRefused va false false), s)
    | (.error .wait, s1) => (.error s1, s)
  | _ =>
    match (if a.vcol || a.dev then s.bypassRead (ppCluster n) (d / 64) else s.ppLoadLine n (d / 64) false) with
    | (some line, s1) => (.ok ((line.drop (d % 64)).take len), s1)
    | (none, s1) => (.error (s1.trap n trapMemory (toW va)), s)

/-- A load that a leg service makes for the leg. -/
def State.legLoad (s : State) (n : Nat) (g : Leg) (va len : Nat) : Except State (List Byte) × State :=
  match s.legAddr n g va needR trapTlbLoad with
  | (.error t, _) => (.error t, s)
  | (.ok a, s1) => s1.legLine n va len g a

def retireMax : Nat := 1048576

/-- R88: the row count of the segment that input descriptor `i` names, when it has a row retirement column. -/
def State.retireSeg (s : State) (n : Nat) (g : Leg) (i : Nat) : Except State (Option Nat) × State :=
  let a := g.entry.indesc.toNat
  if a = 0 ∨ a % 64 ≠ 0 ∨ 64 ≤ i then (.ok none, s)
  else
    match s.legLoad n g a 8 with
    | (.error t, _) => (.error t, s)
    | (.ok h, s1) =>
      if fld h 0 2 ≤ i then (.ok none, s1)
      else
        match s1.legLoad n g (a + 64 + 64 * i) 64 with
        | (.error t, _) => (.error t, s1)
        | (.ok b, s2) =>
          let d := Seg.ofBytes b
          (.ok (if d.versioned && d.rowRetire then some d.rows else none), s2)

/-- R86 RETIRE. -/
def doRetire (n : Nat) (f : RF) (s : State) : State :=
  sysOp n 3 f (f.rd == 0) (fun s =>
    let i := ((s.pp n).getX f.rs1).toNat
    let row := (s.pp n).getX f.rs2
    match s.ppRunning n with
    | none => s.trap n trapRetireRange row
    | some (l, g) =>
      match s.retireSeg n g i with
      | (.error t, _) => t
      | (.ok none, s1) => s1.trap n trapRetireRange row
      | (.ok (some rows), s1) =>
        if rows ≤ row.toNat then s1.trap n trapRetireRange row
        else if retireMax ≤ g.retire.length then s1.trap n trapRetireLimit (toW retireMax)
        else
          let s2 := s1.setLeg l { g with retire := g.retire ++ [(i, row.toNat)] }
          let p := (s2.pp n).setCsr csrRETIRED (toW (g.retire.length + 1))
          s2.setPp n (p.advance 4)) s

/-- R158: the DPAs of the locations that OBATCH initialises; none when the FC cannot translate one of them. -/
def State.batchLocs (s : State) (p : Nat) : List Nat → Option (List Nat) × State
  | [] => (some [], s)
  | va :: t =>
    match s.fcDpa p va true with
    | (none, s1) => (none, s1)
    | (some d, s1) =>
      match s1.batchLocs p t with
      | (some ds, s2) => (some (d :: ds), s2)
      | (none, s2) => (none, s2)

/-- R157: OBATCH's fields of the header line at DPA `d`; ROWS stays as the leg wrote it. -/
def State.headerWrite (s : State) (n d : Nat) (port pasid : Nat) (lo hi : List Byte) : State :=
  match region s d with
  | .host => ((s.hostPost port (some pasid) (d - hostBase) lo).2.hostPost port (some pasid) (d - hostBase + 16) hi).2
  | _ => (s.l2Store (ppCluster n) n d lo false).l2Store (ppCluster n) n (d + 16) hi false

/-- R338: the header line at DPA `d`, which OBATCH is about to write, is held poisoned. -/
def State.headerMeets (s : State) (n d : Nat) : Bool × State :=
  match region s d with
  | .host => (false, s)
  | _ => s.l2Meets (ppCluster n) (d / 64)

/-- R158, once R87 has passed: the checks, the initialisation of the version locations and the header. -/
def State.obatchCommit (s : State) (n l : Nat) (g : Leg) (rd : BitVec 5) (d : Nat) (h : List Byte) : State :=
  let rows := fld h 12 4
  let vi := fld h 40 4
  let first := fld h 44 4
  let part := g.entry.part
  let seq := ((s.pp n).getCsr csrBATCH).toNat
  match g.outs[fld h 37 1]? with
  | none => s.errLeg l 0x0F 0
  | some o =>
    if o.kind ≠ 1 ∨ o.batchCap ≤ vi ∨ (o.rowRetire ∧ o.rowCap < first + rows) then s.errLeg l 0x0F 0
    else
      let bvt := o.bvt.toNat + 16 * vi
      let rrc := if o.rowRetire then (List.range rows).map (fun i => o.rrc.toNat + 8 * (first + i)) else []
      match s.batchLocs part (bvt :: rrc) with
      | (some (b :: rs), s1) =>
        let s2 := (b :: (b + 8) :: rs).foldl (fun t x => t.fcWrite x never part) s1
        let p := s2.pp n
        let s3 := s2.headerWrite n d (s2.part part).hostPort (s2.part part).pasid
          (leBytes 2 part ++ leBytes 2 g.entry.sq ++ leBytes 4 g.entry.seq.toNat ++ leBytes 4 seq)
          (leBytes 8 (p.getCsr csrSTART).toNat ++ leBytes 8 s2.fc.chrono.toNat)
        let s4 := s3.setLeg l { g with batches := g.batches ++ [b] }
        (s4.setPp n ((s4.pp n).setCsr csrBATCH (toW (seq + 1)))).wr n rd (toW seq)
      | (_, s1) => s1.errLeg l 0x0F 0

/-- R86, R87 OBATCH. -/
def doObatch (n : Nat) (f : RF) (s : State) : State :=
  sysOp n 4 f (f.rs2 == 0) (fun s =>
    let h := (s.pp n).getX f.rs1
    let va := h.toNat
    match s.ppRunning n with
    | none => s.trap n trapOutRange h
    | some (l, g) =>
      if va % 64 ≠ 0 ∨ !g.outs.any (fun o => decide (o.addr.toNat ≤ va ∧ va < o.addr.toNat + o.bytes.toNat)) then
        s.trap n trapOutRange h
      else
        match s.legAddr n g va needRW trapTlbStore with
        | (.error t, _) => t
        | (.ok a, s1) =>
          match s1.legLine n va 64 g a with
          | (.error t, _) => t
          | (.ok b, s2) =>
            match s2.headerMeets n a.dpa with
            | (true, s3) => s3.trap n trapMemory h
            | (false, s3) =>
              if 0xFFFFFFFF ≤ ((s3.pp n).getCsr csrBATCH).toNat then s3.errLeg l 0x05 0
              else s3.obatchCommit n l g f.rd a.dpa b) s

def execExit (n : Nat) (f : RF) (s : State) : Host.Outcome State Fault Refusal := .next (doExit n f s)
def execAbort (n : Nat) (f : RF) (s : State) : Host.Outcome State Fault Refusal := .next (doAbort n f s)
def execBrk (n : Nat) (f : RF) (s : State) : Host.Outcome State Fault Refusal := .next (doBrk n f s)
def execRetire (n : Nat) (f : RF) (s : State) : Host.Outcome State Fault Refusal := .next (doRetire n f s)
def execObatch (n : Nat) (f : RF) (s : State) : Host.Outcome State Fault Refusal :=
  .next (s.settle [.walk 64] (doObatch n f))

end Sys2Proof.Machine
end

