-- ==== Sys2Proof/Machine/PpPilot.lean ====
section
/-!
DEFINITION. Pilot-only instructions of a PP: PRET (03 R94, 02 R43), TLBLD and TLBINV (14 R308, R309), WALK (14 R310–R314) and
FREC (14 R321).
-/
namespace Sys2Proof.Machine

open Sys2Proof

/-- The encoding is checked before the privilege (R94). -/
def pilotOp (n fn : Nat) (f : RF) (zero : Bool) (g : State → State) (s : State) : State :=
  ppRun s n (fun s =>
    if !zero then s.illegal n (encR 0x2D fn f)
    else if (s.ppLeg n).isSome then s.trap n trapPrivileged (encR 0x2D fn f)
    else g s)

/-! ### PRET -/

/-- R43, R46, R95: a leg whose cut was held takes STOP as it comes back to leg mode, and waits as a held leg. -/
def State.takeHeldStop (s : State) (n : Nat) : State :=
  match s.ppLeg n with
  | some (l, _) =>
    if (s.pp n).stopPend then
      let s1 := s.stopPp n l s.fc.lastTick
      match s1.leg? l with
      | some g =>
        let q := s1.quiescing g.entry.part || s1.orphan
        (State.toHeld (s1.freePp n) l (ppCluster n) g (if q then .quiesce else .pilot) (!q)).letIn (ppCluster n)
      | none => s1
    else s
  | none => s

/-- R94: the PP returns from a trap. -/
def State.trapReturn (s : State) (n : Nat) : State :=
  State.takeHeldStop (s.setPp n { (s.pp n).pret with blocked := .none }) n

def doPret (n : Nat) (f : RF) (s : State) : State :=
  pilotOp n 0 f (f.rd == 0 && f.rs1 == 0 && f.rs2 == 0 && f.rs3 == 0) (fun s => s.trapReturn n) s

/-! ### TLBLD and TLBINV -/

/-- The layout of R307. -/
def tlbWordsOk (w0 w1 : Word) : Bool :=
  let k := bits w0.toNat 62 57
  bits w0.toNat 11 0 == 0 && !w0.getLsbD 63 && decide (12 ≤ k ∧ k ≤ 40) && decide (tlbVa (w0, w1) % 2 ^ k = 0)
  && bits w1.toNat 11 5 == 0 && bits w1.toNat 63 48 == 0 && decide (tlbDpa (w0, w1) % 2 ^ k = 0)

def Pp.stale (p : Pp) : Bool := (p.getCsr csrXWSTAT).getLsbD 15

def doTlbld (n : Nat) (f : RF) (s : State) : State :=
  pilotOp n 1 f (f.rs3 == 0) (fun s =>
    let p := s.pp n
    let w0 := p.getX f.rs1
    let w1 := p.getX f.rs2
    if !tlbWordsOk w0 w1 then s.illegal n (encR 0x2D 1 f)
    else if p.stale then s.wr n f.rd 0x4000000000000000#64
    else
      let (q, slot, old) := p.tlbLoad w0 w1
      (s.setPp n q).wr n f.rd (toW (slot + b2n old * 2 ^ 63))) s

/-- R309 with WC: the cluster's walk cache and unit TLB. -/
def Cluster.dropXlat (k : Cluster) (p : Option Nat) : Cluster :=
  { k with walk := k.walk.filter (fun e => (match p with | some x => e.part ≠ x | none => false)),
           unitTlb := k.unitTlb.filter (fun e => (match p with | some x => e.part ≠ x | none => false)) }

def doTlbinv (n : Nat) (f : RF) (s : State) : State :=
  pilotOp n 2 f (f.rd == 0 && f.rs3 == 0) (fun s =>
    let p := s.pp n
    let va := (p.getX f.rs1).toNat
    let w := (p.getX f.rs2).toNat
    let part := bits w 11 3
    if bits w 63 12 ≠ 0 then s.illegal n (encR 0x2D 2 f)
    else
      let kind := bits w 1 0
      let gone := fun (e : Word × Word) =>
        if kind = 0 then tlbHits e part va else if kind = 1 then tlbPart e == part else kind == 2
      let s1 := s.setPp n (Pp.advance { p with tlb := p.tlb.filter (fun e => !gone e.2) } 4)
      if bit w 2 then s1.setCl (ppCluster n) ((s1.cl (ppCluster n)).dropXlat (if kind = 2 then none else some part)) else s1) s

/-! ### WALK -/

/-- XWSTAT after a WALK; STALE stays. -/
def xwStat (old : Word) (cause level : Nat) (stage s1f : Bool) (s1l : Nat) (hit : Bool) : Word :=
  (old &&& 0x8000#64) ||| toW (cause + level * 2 ^ 8 + b2n stage * 2 ^ 10 + b2n s1f * 2 ^ 11
    + (if s1f then s1l * 2 ^ 12 else 0) + b2n hit * 2 ^ 14)

/-- What a WALK leaves in the PP. -/
def Pp.walkDone (p : Pp) (stat addr : Word) (dpa : Option Nat) (ppa : Nat) (e : Word) : Pp :=
  let q := (p.setCsr csrXWSTAT stat).setCsr csrXWADDR addr
  let r := match dpa with | some d => q.setCsr csrXWDPA (toW d) | none => q
  { r with walked := some (toW ppa, e) }

def doWalk (n : Nat) (f : RF) (s : State) : State :=
  pilotOp n 3 f (f.rs3 == 0) (fun s =>
    let p := s.pp n
    let a := (p.getX f.rs1).toNat
    let w := (p.getX f.rs2).toNat
    let level := bits w 1 0
    let two := bit w 2
    let part := bits w 11 3
    let table := bits w 47 12 * 4096
    if bits w 63 48 ≠ 0 then s.illegal n (encR 0x2D 3 f)
    else
      let clear := !two && level == 0
      let sw := if clear then s.setPp n (p.setCsr csrXWSTAT (p.getCsr csrXWSTAT &&& ~~~ 0x8000#64)) else s
      let s0 := sw.xlatUse part
      let sel := WSel.cluster (ppCluster n)
      let addr := toW (table + 8 * ptIndex a level)
      let off : XFault :=
        { cause := xcOff, level := if two then level else 0, stage := true, s1Fetch := !two, s1Level := level,
          table := table + 8 * ptIndex a level, dpa := 0, entry := 0, ppa := if two then a else table + 8 * ptIndex a level, hit := false }
      let stat := fun (t : State) => (t.pp n).getCsr csrXWSTAT
      let r := if !(s0.part part).xlat.enable then (Except.error off, s0)
        else if two then
          match s0.stepS2 sel part .two a level table with
          | (.error x, t) => (Except.error x, t)
          | (.ok (e, hit), t) => (Except.ok (e, hit, none), t)
        else
          match s0.stepS1 sel part a level table with
          | (.error x, t) => (Except.error x, t)
          | (.ok (e, hit, d), t) => (Except.ok (e, hit, some d), t)
      match r with
      | (.error x, t) =>
        let read := !x.s1Fetch && (x.cause == xcTranslation || x.cause == xcFormat)
        let q := (t.pp n).walkDone (xwStat (stat t) x.cause x.level x.stage x.s1Fetch x.s1Level x.hit) (toW x.table)
          (if two then none else some x.dpa) x.ppa x.entry
        (t.setPp n q).wr n f.rd (if read then x.entry else 0)
      | (.ok (e, hit, d), t) =>
        let q := (t.pp n).walkDone (xwStat (stat t) 0 0 false false 0 hit) addr d (if two then a else 0) e
        (t.setPp n q).wr n f.rd e) s

/-! ### FREC -/

/-- The fault of the record, from the walk CSRs: where the walk stopped, or the entry that it read without a fault. -/
def Pp.frecFault (p : Pp) (cause : Nat) : XFault :=
  let x := (p.getCsr csrXWSTAT).toNat
  match p.walked with
  | some (ppa, e) =>
    if bits x 7 0 = 0 then { XFault.plain cause ppa.toNat with table := (p.getCsr csrXWADDR).toNat, entry := e }
    else
      { cause := cause, level := bits x 9 8, stage := bit x 10, s1Fetch := bit x 11, s1Level := bits x 13 12,
        table := (p.getCsr csrXWADDR).toNat, dpa := (p.getCsr csrXWDPA).toNat, entry := e, ppa := ppa.toNat, hit := bit x 14 }
  | none => XFault.plain cause 0

/-- R321: who faulted, from LEGID. -/
def Pp.frecCtx (p : Pp) (n : Nat) : FaultCtx :=
  let id := (p.getCsr csrLEGID).toNat
  { part := bits id 56 48, sq := bits id 44 32, seq := BitVec.ofNat 32 id, agent := 0, cluster := ppCluster n, pp := n % 4 }

/-- The PP is in pilot mode for a TLB miss: a record made there is that of a walk that failed, and the leg then ends with
ACCESS_FAULT (R96, R98, the handler of R314; log entry 7). -/
def Pp.missTrap (p : Pp) : Bool :=
  let c := (p.getCsr csrPCAUSE).toNat
  decide (c = trapTlbFetch ∨ c = trapTlbLoad ∨ c = trapTlbStore)

/-- WRITE and EXEC by the trap kind; a trap that does not say is a free value (log entry 12). -/
def State.frecKind (s : State) (n : Nat) : Bool × Bool × State :=
  let c := ((s.pp n).getCsr csrPCAUSE).toNat
  if c = trapTlbFetch then (false, true, s)
  else if c = trapTlbLoad then (false, false, s)
  else if c = trapTlbStore then (true, false, s)
  else
    let (k, s1) := s.free
    (k % 3 == 1, k % 3 == 2, s1)

/-- FREC.  With X[rs1] and XWSTAT.CAUSE both 0 the record holds CAUSE 0x00, which R321's table does not list (log entry 7). -/
def doFrec (n : Nat) (f : RF) (s : State) : State :=
  pilotOp n 4 f (f.rd == 0 && f.rs2 == 0 && f.rs3 == 0) (fun s =>
    let p := s.pp n
    let c := (p.getX f.rs1).toNat
    if 0x0A < c then s.illegal n (encR 0x2D 4 f)
    else
      let cause := if c = 0 then bits (p.getCsr csrXWSTAT).toNat 7 0 else c
      match s.ppRunning n with
      | some (l, _) =>
        let (w, x, s1) := s.frecKind n
        let s2 := s1.faultRecord (p.frecCtx n) (p.frecFault cause) w x (p.getCsr csrPTVAL).toNat
        let s3 := s2.setPp n ((s2.pp n).advance 4)
        if p.missTrap then s3.errLeg l 0x09 0 else s3
      | none => s.setPp n (p.advance 4)) s

def execPret (n : Nat) (f : RF) (s : State) : Host.Outcome State Fault Refusal := .next (doPret n f s)
def execTlbld (n : Nat) (f : RF) (s : State) : Host.Outcome State Fault Refusal := .next (doTlbld n f s)
def execTlbinv (n : Nat) (f : RF) (s : State) : Host.Outcome State Fault Refusal := .next (doTlbinv n f s)
def execWalk (n : Nat) (f : RF) (s : State) : Host.Outcome State Fault Refusal :=
  .next (s.settle [.walk (ppCluster n)] (doWalk n f))
def execFrec (n : Nat) (f : RF) (s : State) : Host.Outcome State Fault Refusal := .next (doFrec n f s)

end Sys2Proof.Machine
end

