-- ==== Sys2Proof/Machine/Boot.lean ====
section
/-!
DEFINITION. Boot (22): straps, image choice, training results, the restore and the arming of the keep store (21 R436); the PP reset
(R442); and the management transactions of the MCTP endpoint (R445).
-/
namespace Sys2Proof.Machine

open Sys2Proof

/-! ### Straps (R369, R389) -/

/-- Links of lane group `g`: widths in ascending lane order. -/
def groupLinks (cfg : BitVec 8) (g : Nat) : List Nat :=
  match bits cfg.toNat (2 * g + 1) (2 * g) with
  | 1 => [16]
  | 2 => [8, 8]
  | _ => []

/-- Host links that the straps enable. -/
def hostLinks (cfg : BitVec 8) : List Nat := (List.range 4).flatMap (groupLinks cfg)

/-- E_HP_STRAP. -/
def strapBad (b : BootIn) : Bool := decide (4 < (hostLinks b.hpcfg).length) || decide ((hostLinks b.hpcfg).length ≤ b.mgmtPort)

def State.takeStraps (s : State) (b : BootIn) : State :=
  let mode := if b.chainMode = 1 ∨ b.chainMode = 2 then b.chainMode else 0
  let s1 := (List.range 4).foldl (fun t h =>
    t.setHp h { t.hp h with lanes := (hostLinks b.hpcfg).getD h 0, mgmt := h == b.mgmtPort }) s
  { s1 with chain := { s1.chain with mode := mode, status := if mode = 0 then 0 else 1 }, pm := { s1.pm with smbAddr := b.smbAddr } }

/-! ### The image (R443) -/

/-- The SVN of a copy that passes every check, the fused minimum among them. -/
def svnOk (minSvn : Nat) (v : Option Nat) : Option Nat := v.filter (fun n => decide (minSvn ≤ n))

/-- The copy that boots and its SVN: the higher SVN, A when equal. -/
def imageOf (minSvn : Nat) (b : BootIn) : Option (Nat × Nat) :=
  match svnOk minSvn b.svnA, svnOk minSvn b.svnB with
  | some x, some y => if x < y then some (1, y) else some (0, x)
  | some x, none => some (0, x)
  | none, some y => some (1, y)
  | none, none => none

/-! ### Training (R339, R352) -/

def interleaveSets : List (List Nat) := [List.range 12, [0, 2, 4, 6, 8, 10], [0, 3, 6, 9], [0, 6]]

/-- R339: a DIMM that the configurations table lists. -/
def dimmOk (m : Dimm) : Bool := m.rdimm && decide (1 ≤ m.ranks ∧ m.ranks ≤ 2) && decide (16 ≤ m.gib ∧ m.gib ≤ 128)

/-- R339: what is fitted on the channel is supported: one or two DIMMs of the table, two of them identical. -/
def ddrSupported (d : DdrIn) : Bool :=
  match d.dimms with
  | [m] => dimmOk m
  | [m, m1] => dimmOk m && m == m1
  | _ => false

def ddrFitted (d : DdrIn) : Bool := !d.dimms.isEmpty

def ddrGibs (d : DdrIn) : Nat := (d.dimms.map (·.gib)).sum

def ddrRanks (d : DdrIn) : Nat := (d.dimms.map (·.ranks)).sum

def ddrX4 (d : DdrIn) : Bool := d.dimms.any (·.x4)

def ddrTrained (d : DdrIn) : Bool := ddrSupported d && decide (0 < d.rate)

def ddrAt (b : BootIn) (k : Nat) : DdrIn := b.ddr.getD k { dimms := [], rate := 0 }

def sameDdr (x y : DdrIn) : Bool := ddrGibs x == ddrGibs y && ddrRanks x == ddrRanks y && ddrX4 x == ddrX4 y && x.rate == y.rate

/-- The first set whose channels all trained alike. -/
def chooseSet (b : BootIn) : List Nat :=
  (interleaveSets.find? (fun l => l.all (fun k => ddrTrained (ddrAt b k) && sameDdr (ddrAt b k) (ddrAt b (l.headD 0))))).getD []

/-- DC.TRAIN of a DDR5 channel, in use or not. -/
def trainDdr (d : DdrIn) (used : Bool) (old : Dc) (directed : Bool) : Dc :=
  { old with
    state := if used then 1 else if !ddrFitted d then 0 else if ddrTrained d then 3 else 2
    rate := if ddrTrained d then d.rate else 0
    dimms := d.dimms.length
    x4 := ddrX4 d
    capGib := if used then ddrGibs d else 0
    ranks := ddrRanks d
    directed := directed }

/-- R339: E_DDR_CONFIG of each channel fitted with what is not supported. -/
def State.ddrUnsupported (s : State) (b : BootIn) : State :=
  (List.range 12).foldl (fun t k =>
    if ddrFitted (ddrAt b k) && !ddrSupported (ddrAt b k) then t.log 0x0906 (k + 4) noPart 0 else t) s

/-- R352: a channel with supported DIMMs stands outside the set, which E_DDR_CONFIG reports once (log entry 22). -/
def ddrOutside (b : BootIn) (set : List Nat) : Bool :=
  (List.range 12).any (fun k => ddrFitted (ddrAt b k) && ddrSupported (ddrAt b k) && !set.contains k)

/-- R353, R340: the top 64 KiB of every pseudo-channel's share of general HBM are its top 8 MiB. -/
def trainWrites (a : Nat) : Bool := decide (0x23FF800000 ≤ a) && decide (a < 0x2400000000)

/-- Training: what it writes is not given, and a byte that it may write reads as after power-on (log entry 1). -/
def State.trainHbm (s : State) (b : BootIn) : State :=
  (List.range 4).foldl (fun t n =>
    t.setDc n { t.dc n with state := 1, rate := 4, capGib := 36, repaired := b.hbmRepaired.getD n 0, directed := b.directed.getD n false })
    { s with mem := s.mem.filter (fun c => !trainWrites c.1), bad := s.bad.filter (fun l => !trainWrites (64 * l)) }

def State.trainDdr5 (s : State) (b : BootIn) : State :=
  let set := chooseSet b
  let s1 := (List.range 12).foldl (fun t k =>
    t.setDc (k + 4) (trainDdr (ddrAt b k) (set.contains k) (t.dc (k + 4)) (b.directed.getD (k + 4) false))) s
  let s2 := State.ddrUnsupported { s1 with ddrSet := set, ddrGib := if set.isEmpty then 0 else ddrGibs (ddrAt b (set.headD 0)) } b
  if ddrOutside b set then s2.log 0x0906 noInst noPart 0 else s2

/-! ### The fix log as restore reads it (R53, R54) -/

/-- A valid record. -/
structure FixRec where
  fix : Nat
  seal' : Nat
  unit : Nat
  units : Nat
  prev : Nat
  crc : Nat
  deriving DecidableEq, Repr

def recOf (b : List Byte) : Option FixRec :=
  if fld b 0 2 = 0x4658 ∧ fld b 2 1 = 1 ∧ fld b 60 4 = (crc32c (b.take 60)).toNat then
    some { fix := fld b 8 8, seal' := fld b 24 8, unit := fld b 4 1, units := fld b 5 1, prev := fld b 48 4, crc := fld b 60 4 }
  else none

/-- Every valid record of the ring: MAGIC is never zero, so its first byte is listed. -/
def State.fixRecs (s : State) : List FixRec :=
  s.mem.filterMap (fun c =>
    if keepLog ≤ c.1 ∧ c.1 < keepLog + logRing * 64 ∧ c.1 % 64 = 0 ∧ !s.bad.contains (c.1 / 64) then recOf (readBytes s.mem c.1 64) else none)

def newer (x y : FixRec) : FixRec := if x.fix < y.fix then y else x

/-- The record of the last durable fix. -/
def newestRec (l : List FixRec) : Option FixRec :=
  match l with
  | [] => none
  | x :: t => some (t.foldl newer x)

/-- The log chains back: no record disowns the valid record of the fix before it (log entry 22). -/
def chainsBack (l : List FixRec) : Bool := l.all (fun x => l.all (fun y => decide (y.fix + 1 ≠ x.fix) || y.crc == x.prev))

/-! ### Restore (R436) -/

/-- The keep header (R432, R433). -/
def keepHdr (k : Ks) : List Byte :=
  let b := leBytes 2 0x4B48 ++ leBytes 1 1 ++ leBytes 1 1 ++ zeros 4 ++ leBytes 8 k.seq.toNat ++ zeros 24 ++ leBytes 1 0 ++ leBytes 1 1 ++ zeros 18
  b ++ leBytes 4 (crc32c b).toNat

/-- The keep header in HBM is valid. -/
def State.keepValid (s : State) : Bool :=
  let b := readBytes s.mem 0 64
  !s.bad.contains 0 && decide (fld b 0 2 = 0x4B48 ∧ fld b 2 1 = 1 ∧ fld b 3 1 = 1 ∧ fld b 60 4 = (crc32c (b.take 60)).toNat)

/-- R460: a saved entry placed verbatim, with RESTORED set. -/
def ErrLog.restore (g : ErrLog) (e : ErrEntry) : ErrLog :=
  { slots := tput g.slots ((g.newest + 1).toNat % 4096) { e with restored := true }, newest := g.newest + 1, writes := g.writes + 1 }

/-- Memory with the keep region replaced. -/
def keepFrom (mem keep : List Host.Cell) : List Host.Cell :=
  (keep.filter (fun c => c.1 < keepEnd)).foldl (fun m c => memPut m c.1 c.2) (mem.filter (fun c => decide (keepEnd ≤ c.1)))

/-- Step 2: the keep region, the prior-state area (log entry 22) and the saved error log. -/
def State.copySlot (s : State) (k : KsSlot) : State :=
  { s with mem := keepFrom s.mem k.keep,
           bad := k.poisoned.filter (fun l => l < keepEnd / 64) ++ s.bad.filter (fun l => decide (keepEnd / 64 ≤ l)),
           ks := { s.ks with prior := k.onDie },
           err := (match k.onDie with | some d => d.err.oldestFirst | none => []).foldl ErrLog.restore s.err }

/-- Step 3: the other slot is a newer attempt that does not check. -/
def KsSlot.newerTry (k : KsSlot) : Bool := (k.programmed && !k.hdrOk) || (k.hdrOk && !k.dataOk)

/-- What reading a slot at boot finds: the data of one that is damaged do not match their DATA_CRC. -/
def KsSlot.asRead (k : KsSlot) (damaged : Bool) : KsSlot :=
  match k.hdr with
  | some h => if damaged then { k with dataCrc := ~~~ h.crc } else k
  | none => k

/-- Step 3: the bridge record for fix H. -/
def State.bridge (s : State) : State :=
  match s.ks.logged with
  | none => s
  | some (h, _) =>
    let r := (newestRec s.fixRecs).getD { fix := 0, seal' := 0, unit := 0, units := 1, prev := 0, crc := 0 }
    s.memWrite (keepLog + h.toNat % logRing * 64)
      (fixRecord 0 r.unit r.units 0 h.toNat (BitVec.ofNat 64 r.seal') (BitVec.ofNat 64 r.seal') 0 0 0 0 (BitVec.ofNat 32 r.crc))

/-- Steps 1–3: what the keep region becomes. -/
def State.restoreKeep (s : State) : State :=
  let set := fun (t : State) (o n : Nat) (h : Option SlotHdr) =>
    { t with ks := { t.ks with outcome := o, slotNo := n, poison := (h.map (·.poison)).getD 0, saveUs := (h.map (·.saveUs)).getD 0 } }
  if s.keepValid && chainsBack s.fixRecs then set s 3 0 none
  else
    match s.ks.best with
    | none => set (s.copySlot .reset) 0 0 none
    | some n =>
      let s1 := s.copySlot (s.ks.slot n)
      if (s.ks.slot (1 - n)).newerTry then set s1.bridge 2 n (s.ks.slot n).hdr else set s1 1 n (s.ks.slot n).hdr

/-- Steps 4 and 5, R31, R33. -/
def State.restoreLoad (s : State) : State :=
  let k := { s.ks with current := s.ks.best.getD 0, seq := BitVec.ofNat 64 ((s.ks.best.map (fun n => (s.ks.slot n).seqOf)).getD 0) }
  let s1 := State.memWrite { s with ks := k } 0 (keepHdr k)
  let r := newestRec s1.fixRecs
  let stamp : Word :=
    match s.ks.logged, decide (s.ks.outcome = 0), r with
    | some (_, th), false, _ => th + 1000000
    | _, _, some x => BitVec.ofNat 64 (x.seal' + 1000000)
    | _, _, none => s.fc.chrono
  { s1 with fc := { s1.fc with sealed := BitVec.ofNat 64 ((r.map (·.fix)).getD 0), prevCrc := BitVec.ofNat 32 ((r.map (·.crc)).getD 0),
                               chrono := stamp } }

/-- From here until boot completes the slots that are not kept are erased (R436 step 6). -/
def State.eraseStarts (s : State) : State :=
  let dirty := fun (i : Nat) => s.ks.kept ≠ some i && ((s.ks.slot i).programmed || (s.ks.slot i).hdr.isSome)
  { s with ks := { s.ks with erasing := !s.ks.protOff && (dirty 0 || dirty 1) } }

/-- A failure ends boot. -/
def State.bootFail (s : State) (code : Nat) : State := State.log { s with pm := { s.pm with stage := 7 } } code noInst noPart 0

/-- BOOT_START: from the end of the reset hold to the restore.  Firmware trains 32 pseudo-channels a stack, and repairs up to 2 lanes of
each (R352). -/
def doBootStart (b : BootIn) (s : State) : State :=
  if s.pm.stage ≠ 0 || s.pm.bootDone || s.pm.frozen || s.pm.pfail then s
  else
    let pm := { s.pm with inReset := false, resetPin := false, cclkBase := 1000, hupReady := b.hupReady }
    let s0 := State.takeStraps { s with pm := pm, fc := { s.fc with cclk := 1000 } } b
    if strapBad b then s0.bootFail 0x0A01
    else
      match imageOf s0.pm.minSvn b with
      | none => s0.bootFail 0x0E08
      | some (copy, svn) =>
        let s1 : State := { s0 with pm := { s0.pm with copy := copy, svn := svn, svnCommit := b.commitSvn, stage := 2 },
                                    ks := { s0.ks with sparePct := b.sparePct, slot0 := s0.ks.slot0.asRead (b.ksBad.contains 0),
                                                       slot1 := s0.ks.slot1.asRead (b.ksBad.contains 1) },
                                    dbg := { s0.dbg with lockSeen := s0.dbg.fieldLock, hashSeen := decide (s0.dbg.obsHash ≠ 0) } }
        if !b.hbmOk || b.hbmRepaired.any (fun n => decide (64 < n)) then s1.bootFail 0x0905
        else
          let s2 := (s1.trainHbm b).trainDdr5 b
          (State.restoreLoad (State.restoreKeep { s2 with pm := { s2.pm with stage := 3 } })).eraseStarts

/-! ### The end of boot (R436 step 6, R443, R444) -/

/-- Step 6: the slot that was not restored is erased; the reservations are appended; protection is armed,
unless it has gone off (R11, R435). -/
def State.arm (s : State) : State :=
  if s.ks.protOff then s
  else
  let k := s.ks
  let wipe := fun (n : Nat) (x : KsSlot) => if k.kept = some n then x else .reset
  let h := match k.logged with
    | some (h, _) => if h.toNat < s.fc.sealed.toNat then s.fc.sealed else h
    | none => s.fc.sealed
  let h1 := h + 1048576
  let th := s.fc.chrono + BitVec.ofNat 64 (2 ^ 35)
  { s with ks := { k with slot0 := wipe 0 k.slot0, slot1 := wipe 1 k.slot1, logged := some (h1, th), resFix := h1, resStamp := th,
                          armed := true, erasing := false } }

/-- BOOT_DONE. -/
def doBootDone (ms : Nat) (s : State) : State :=
  if s.pm.stage ≠ 3 || s.pm.bootDone || s.frozen || s.pm.pfail then s
  else
    let s1 := s.arm
    let s2 := s1.memWrite 0 (keepHdr s1.ks)
    let p := s2.pm
    let s3 := { s2 with pm := { p with stage := 4, bootDone := true, bootMs := min ms 0xFFFFFFFF, cclkBase := 1800,
                                       minSvn := if p.svnCommit then max p.minSvn p.svn else p.minSvn },
                        fc := { s2.fc with cclk := if p.throttled then min 1800 s2.throttleMhz else 1800 } }
    let s4 := s3.wakeStalls
    if s4.chain.mode = 1 then doEnumerate s4 else s4

/-! ### PP reset (R442) -/

/-- Leg CSRs at leg entry: what names the running leg stays, the rest is zero; pilot CSRs stay but for NEST (log entry 23). -/
def Pp.resetCsr (p : Pp) : Table Word :=
  let kept := fun (e : Nat × Word) => decide (32 ≤ e.1) || (p.running.isSome && decide (e.1 ≤ csrBUDGET ∨ e.1 = csrSTART))
  (Pp.setCsr { p with csr := p.csr.filter kept } csrPSTATUS (p.getCsr csrPSTATUS &&& ~~~ 1#64)).csr

def Pp.ppReset (p : Pp) : Pp :=
  { p with csr := p.resetCsr, l1i := [], l1iPlru := [], l1d := [], l1dPlru := [], tlb := [], v := [], m := [], vl := 0, vcfg := 0,
           vresume := 0, vfault := 0, mode := .pilot, pc := p.getCsr csrPVEC, halted := false, blocked := .none, hostReady := none,
           hostAt := none, hostDrop := p.abandoned, hostDev := false, ffPast := false, walked := none, hostSeen := [], hostLeft := [],
           eltAt := 0, l1Bad := [] }

def doPpReset (n : Nat) (s : State) : State := if s.frozen then s else (s.setPp n (s.pp n).ppReset).hostForget (.pp n)

/-! ### MCTP (R445): the endpoint answers unless the engine takes no access of any kind -/

def mctpMsg (s : State) (code : Nat) (body : List Byte) : State := s.emit (.mctp code body)

/-- The answer of a vendor command: completion code 0x03 when the request's body is malformed. -/
def vendorMsg (code : Nat) (ok : Bool) (body : List Byte) (s : State) : State :=
  if s.noAccess then s else if ok then mctpMsg s code (leBytes 1 0 ++ body) else mctpMsg s code (leBytes 1 3)

/-- Set Endpoint ID: 0x00 and 0xFF are no endpoint IDs (log entry 24). -/
def doSetEid (e : BitVec 8) (s : State) : State :=
  if s.noAccess then s
  else if e = 0x00 || e = 0xFF then mctpMsg s 0x01 (leBytes 1 2)
  else mctpMsg { s with pm := { s.pm with eid := e } } 0x01 (leBytes 1 0 ++ leBytes 1 0 ++ [e] ++ leBytes 1 0)

/-- Get Endpoint ID; the endpoint type and the medium byte are free values (log entry 24). -/
def doGetEid (s : State) : State :=
  if s.noAccess then s
  else
    let (x, s1) := s.free
    mctpMsg s1 0x02 (leBytes 1 0 ++ [s.pm.eid] ++ leBytes 2 x)

/-- Get MCTP Version Support: the version number is a free value; a type the endpoint lacks answers 0x80 (log entry 24). -/
def doGetVersion (t : BitVec 8) (s : State) : State :=
  if s.noAccess then s
  else if t = 0xFF || t = 0x00 || t = 0x7E then
    let (x, s1) := s.free
    mctpMsg s1 0x04 (leBytes 1 0 ++ leBytes 1 1 ++ leBytes 4 x)
  else mctpMsg s 0x04 (leBytes 1 0x80)

/-- Get Message Type Support: vendor-defined under PCI vendor ID. -/
def doGetTypes (s : State) : State := if s.noAccess then s else mctpMsg s 0x05 (leBytes 1 0 ++ leBytes 1 1 ++ leBytes 1 0x7E)

def vendorCode (k : Nat) : Nat := 0x7E00 + k

def doGetBootState (body : List Byte) (s : State) : State := vendorMsg (vendorCode 1) body.isEmpty (leBytes 8 s.bootState) s

/-- The seven readings (R476): compute tiles 0 and 1, the I/O tile, stacks 0–3. -/
def thermalBody (s : State) : List Byte :=
  (List.range 7).flatMap (fun i => leBytes 2 (BitVec.ofInt 16 (s.pm.temps.getD i 0)).toNat)

def doGetThermal (body : List Byte) (s : State) : State := vendorMsg (vendorCode 2) body.isEmpty (thermalBody s) s

def doGetPower (body : List Byte) (s : State) : State :=
  vendorMsg (vendorCode 3) body.isEmpty (leBytes 2 (min s.pm.powerDw 0xFFFF) ++ leBytes 4 s.sagState) s

/-- Up to four entries from index `i` on (R461). -/
def logBody (s : State) (i : Nat) : List Byte :=
  (((List.range 4).map (fun k => tget? s.err.slots ((i + k) % 4096))).takeWhile (fun e => e.isSome)).flatMap (fun e =>
    match e with
    | some x => (List.range 4).flatMap (fun k => leBytes 8 (x.word k))
    | none => [])

def doReadErrorLog (body : List Byte) (s : State) : State :=
  vendorMsg (vendorCode 4) (body.length == 2) (logBody s (leNat body)) s

/-- DEVICE_RESET: the answer goes out before the reset starts.  A wrong KEY is a malformed body (log entry 24). -/
def doMctpReset (body : List Byte) (s : State) : State :=
  if s.noAccess then s
  else if body = [0xD5] then (mctpMsg s (vendorCode 5) (leBytes 1 0)).requestReset 3
  else mctpMsg s (vendorCode 5) (leBytes 1 3)

def execBootStart (b : BootIn) (s : State) : Host.Outcome State Fault Refusal := .next (doBootStart b s)
def execBootDone (ms : Nat) (s : State) : Host.Outcome State Fault Refusal := .next (doBootDone ms s)
def execPpReset (pp : Nat) (s : State) : Host.Outcome State Fault Refusal := .next (doPpReset pp s)
def execSetEndpointId (eid : BitVec 8) (s : State) : Host.Outcome State Fault Refusal := .next (doSetEid eid s)
def execGetEndpointId (s : State) : Host.Outcome State Fault Refusal := .next (doGetEid s)
def execGetMctpVersionSupport (t : BitVec 8) (s : State) : Host.Outcome State Fault Refusal := .next (doGetVersion t s)
def execGetMessageTypeSupport (s : State) : Host.Outcome State Fault Refusal := .next (doGetTypes s)
def execGetBootState (body : List (BitVec 8)) (s : State) : Host.Outcome State Fault Refusal := .next (doGetBootState body s)
def execGetThermal (body : List (BitVec 8)) (s : State) : Host.Outcome State Fault Refusal := .next (doGetThermal body s)
def execGetPower (body : List (BitVec 8)) (s : State) : Host.Outcome State Fault Refusal := .next (doGetPower body s)
def execReadErrorLog (body : List (BitVec 8)) (s : State) : Host.Outcome State Fault Refusal := .next (doReadErrorLog body s)
def execMctpDeviceReset (body : List (BitVec 8)) (s : State) : Host.Outcome State Fault Refusal := .next (doMctpReset body s)

end Sys2Proof.Machine
end

