-- ==== Sys2Proof/Machine/Dram.lean ====
section
/-!
DEFINITION. The memory controllers' own events (16): service of queued requests, refresh, activate tracking, scrubbing, the
writing back of corrected lines and the doubled refresh rate.  Requests move data when they are accepted (R342, log entry 14).
-/
namespace Sys2Proof.Machine

open Sys2Proof

/-- R349: what an error comes to in the memory that controller `n` drives.  One beyond what the table says is detected may go
unnoticed: what it comes to is a free value (log entry 14). -/
def State.eccOf (s : State) (n : Nat) (x : MemError) : Ecc × State :=
  let open' : Ecc × State :=
    let (k, s1) := s.free
    (if k % 3 = 0 then .clean else if k % 3 = 1 then .corrected else .uncorrectable, s1)
  if x.bits = 0 then (.clean, s)
  else if n < 4 then (if x.bits = 1 then (.corrected, s) else if x.bits = 2 then (.uncorrectable, s) else open')
  else if (s.dc n).x4 then (if x.devices ≤ 1 then (.corrected, s) else if x.devices = 2 then (.uncorrectable, s) else open')
  else if x.symbols ≤ 1 then (.corrected, s)
  else if x.devices ≤ 1 then (.uncorrectable, s)
  else open'

/-- A scrub read of a line, as it stands (R349, R350, R351). -/
def State.eccRead (s : State) (line : Nat) (e : Ecc) : State :=
  if s.bad.contains line then s.memUncorrectable (line * 64)
  else
    match e with
    | .clean => s
    | .corrected => s.memCorrected (line * 64)
    | .uncorrectable => State.memUncorrectable { s with bad := setAdd s.bad line } (line * 64)

/-- R342: a write to the request's line was accepted after it. -/
def Dc.replaced (k : Dc) (r : MemReq) : Bool := k.queue.any (fun x => x.line == r.line && x.write && decide (r.id < x.id))

/-- What the read of a request found, judged in the order of acceptance (R342, R350): a line that a later write has replaced stays good. -/
def State.eccServe (s : State) (replaced : Bool) (r : MemReq) (e : Ecc) : State :=
  match e with
  | .clean => s
  | .corrected => s.memCorrected (r.line * 64)
  | .uncorrectable => State.memUncorrectable (if replaced then s else { s with bad := setAdd s.bad r.line }) (r.line * 64)

/-- R343: the controller picks and performs a request. -/
def doMemServe (n ch : Nat) (hits : List Nat) (bank row : Nat) (x : MemError) (s : State) : State :=
  if s.frozen then s
  else
    let k := s.dc n
    match k.pick s.now ch hits with
    | none => s
    | some r =>
      let k1 := k.served r
      let k2 := if hits.contains r.id then k1 else k1.activate bank row
      let s1 := s.setDc n k2
      if r.write || r.known then s1
      else
        let (e, s2) := s1.eccOf n x
        s2.eccServe (k.replaced r) r e

/-- R345, R346: a refresh falls due. -/
def doRefreshDue (n rank : Nat) (s : State) : State :=
  if s.frozen then s
  else
    let k := (s.dc n).burst n rank
    let k1 := { k with hot := k.hotNext }
    let owed := tgetD k.owed rank 0
    if k.demand rank && decide (owed < 8) then s.setDc n { k1 with owed := tput k.owed rank (owed + 1) }
    else s.setDc n k1

/-- R347: the periodic clear of every table. -/
def doActClear (n : Nat) (s : State) : State := if s.frozen then s else s.setDc n { s.dc n with act := [] }

/-- No demand request of the line's pseudo-channel or subchannel waits (R351). -/
def State.dcIdle (s : State) (line : Nat) : Bool :=
  let (n, ch) := s.ctrlOf (line * 64)
  !(s.dc n).queue.any (fun r => r.ch == ch)

/-- The line lies in memory that controller `n` drives. -/
def State.dcOwns (s : State) (n line : Nat) : Bool :=
  (match region s (line * 64) with
    | .keep => true
    | .engine _ => true
    | .hbm => true
    | .ddr => true
    | _ => false) && (s.ctrlOf (line * 64)).1 == n

/-- R351: a scrub read. -/
def doMemScrub (n line : Nat) (x : MemError) (s : State) : State :=
  if s.frozen || !s.dcOwns n line || !s.dcIdle line then s
  else
    let (e, s1) := s.eccOf n x
    (s1.setDc n ((s1.dc n).opens n)).eccRead line e

/-- R350: a corrected line is written back, or the write is dropped because a later write to it was accepted. -/
def doCorrectedWriteback (n : Nat) (s : State) : State :=
  if s.frozen then s
  else
    match (s.dc n).fixups with
    | [] => s
    | line :: rest => if s.dcIdle line then s.setDc n (Dc.opens { s.dc n with fixups := rest } n) else s

/-- R346: a sensor's reading, in 0.1 °C.  Any sensor above 85 °C sets HOT for the next tREFI; it clears when none reads above 82 °C. -/
def Dc.heat (k : Dc) (dimm : Nat) (temp : Int) : Dc :=
  let t := tput k.temps dimm temp
  { k with temps := t,
           hotNext := if t.any (fun e => decide (e.2 > 850)) then true else if t.all (fun e => decide (e.2 ≤ 820)) then false else k.hotNext }

def doHotChange (n dimm : Nat) (temp : Int) (s : State) : State :=
  if s.frozen then s else s.setDc n ((s.dc n).heat dimm temp)

def execMemRequestServe (n ch : Nat) (hits : List Nat) (bank row : Nat) (e : MemError) (s : State) :
    Host.Outcome State Fault Refusal := .next (doMemServe n ch hits bank row e s)
def execRefreshDue (n rank : Nat) (s : State) : Host.Outcome State Fault Refusal := .next (doRefreshDue n rank s)
def execActTableClear (n : Nat) (s : State) : Host.Outcome State Fault Refusal := .next (doActClear n s)
def execMemScrub (n line : Nat) (e : MemError) (s : State) : Host.Outcome State Fault Refusal := .next (doMemScrub n line e s)
def execCorrectedWriteback (n : Nat) (s : State) : Host.Outcome State Fault Refusal := .next (doCorrectedWriteback n s)
def execHotChange (n : Nat) (x : DimmTemp) (s : State) : Host.Outcome State Fault Refusal := .next (doHotChange n x.dimm x.temp s)

end Sys2Proof.Machine
end

