-- ==== Sys2Proof/Machine/Debug.lean ====
section
/-!
DEFINITION. The debug port (23): TAP instructions, the opening and closing of scopes, the operations of DBG_ACCESS; and the thermal
sensors with their trip (25 R476–R479).
-/
namespace Sys2Proof.Machine

open Sys2Proof

/-! ### TAP instructions (R451, R452) -/

def irExtest : Nat := 0x00
def irSample : Nat := 0x01
def irIdcode : Nat := 0x02
def irStatus : Nat := 0x10
def irNonce : Nat := 0x11
def irAuth : Nat := 0x12
def irAccess : Nat := 0x13
def irClose : Nat := 0x14
def irLock : Nat := 0x15
def irBypass : Nat := 0xFF

def idcodeB0 : Nat := 0x196400B7

/-- An instruction enters the instruction register. -/
def State.tapIr (s : State) (code : Nat) : State := { s with dbg := { s.dbg with ir := code } }

/-- After PFAIL the port accepts only BYPASS and IDCODE (R451). -/
def tapRun (code : Nat) (f : State → State) (s : State) : State := if s.pm.pfail then s else f (s.tapIr code)

/-- The captured pin levels are a free value; the scan shifts the boundary register's new contents in. -/
def State.boundary (s : State) (scan : List Bool) : State :=
  let (k, s1) := s.free
  State.emit { s1 with dbg := { s1.dbg with scan := scan } } (.tap k)

def doExtest (scan : List Bool) (s : State) : State :=
  tapRun irExtest (fun s => if s.pm.resetPin then s.boundary scan else (s.log 0x1001 noInst noPart 0).emit (.tap 0)) s

def doSample (scan : List Bool) (s : State) : State := tapRun irSample (fun s => s.boundary scan) s

def doIdcode (s : State) : State := (s.tapIr irIdcode).emit (.tap idcodeB0)

/-- The bypass register captures 0, and the bit shifted in follows it. -/
def doBypass (bit : Bool) (s : State) : State := (s.tapIr irBypass).emit (.tap (2 * b2n bit))

def doDbgStatus (s : State) : State := tapRun irStatus (fun s => s.emit (.tap s.dbgState)) s

/-- TRST_N low: IDCODE is the instruction (log entry 25), and a granted scope ends. -/
def doTrst (s : State) : State := (s.tapIr irIdcode).scopeEnd

/-! ### Scopes (R453–R455) -/

/-- R450: with FIELD_LOCK 0 every scope is open. -/
def State.dbgOpen (s : State) (need : Nat) : Bool := !s.dbg.fieldLock || decide (need ≤ s.dbg.scope)

/-- Capture-DR of DBG_NONCE. -/
def doDbgNonce (s : State) : State :=
  tapRun irNonce (fun s =>
    let v := Config.freeNonce s.freeSeq
    State.emit { s with freeSeq := s.freeSeq + 1, dbg := { s.dbg with nonce := some (v, s.fc.chrono) } } (.tap v.toNat)) s

/-- R454: 10 s after its capture. -/
def doNonceExpiry (s : State) : State :=
  match s.dbg.nonce with
  | some (_, t) => let s1 := s.reach (t + 10000000000); { s1 with dbg := { s1.dbg with nonce := none } }
  | none => s

def xorBytes (v : BitVec 8) (bs : List Byte) : List Byte := bs.map (fun b => b ^^^ v)

/-- RFC 2104 with SHA-256, for a key of at most 64 bytes. -/
def hmacSha256 (key msg : List Byte) : List Byte :=
  let k := key ++ zeros (64 - key.length)
  sha256 (xorBytes 0x5C#8 k ++ sha256 (xorBytes 0x36#8 k ++ msg))

/-- R453: the response to a nonce. -/
def dbgResponse (nonce : BitVec 256) : List Byte :=
  (hmacSha256 (leBytes 32 Config.unlockKey.toNat) (leBytes 32 nonce.toNat ++ leBytes 8 Config.serial.toNat ++ leBytes 1 2)).take 16

def State.dbgSt (s : State) (st : Nat) : State := { s with dbg := { s.dbg with status := st } }

/-- An attempt that matches: the scope rises, and is never lowered. -/
def State.authOk (s : State) (scope : Nat) : State :=
  { s with dbg := { s.dbg with scope := max s.dbg.scope scope, attempts := satInc s.dbg.attempts 0xFFFFFFFF, status := 0 } }

/-- An attempt that does not match; the third locks the port and ends every scope.  Its status is a free value, not OK
(log entry 25). -/
def State.authFail (s : State) : State :=
  let (k, s0) := s.free
  let s1 := s0.log 0x1002 noInst noPart 0
  let d := s1.dbg
  let s2 := { s1 with dbg := { d with fails := satInc d.fails 3, attempts := satInc d.attempts 0xFFFFFFFF,
                                      lockedOut := decide (2 ≤ d.fails), status := 1 + k % 6 } }
  if s2.dbg.lockedOut then s2.scopeEnd else s2

def State.nonceOver (s : State) : State := { s with dbg := { s.dbg with nonce := none } }

def observeOk (s : State) (secret : BitVec 128) : Bool :=
  sha256 (leBytes 16 secret.toNat) == leBytes 32 s.dbg.obsHash.toNat

/-- Update-DR of DBG_AUTH. -/
def doDbgAuth (scope : BitVec 8) (secret : BitVec 128) (s : State) : State :=
  tapRun irAuth (fun s =>
    if s.dbg.lockedOut then (if scope = 2 then s.nonceOver else s).dbgSt 6
    else if scope = 1 then
      if s.dbg.obsHash = 0 then s.dbgSt 5
      else if observeOk s secret then s.authOk 1
      else s.authFail
    else if scope = 2 then
      match s.dbg.nonce with
      | none => s.dbgSt 4
      | some (v, _) => if leBytes 16 secret.toNat == dbgResponse v then s.nonceOver.authOk 2 else s.nonceOver.authFail
    else s.dbgSt 1) s

def doDbgClose (s : State) : State := tapRun irClose (fun s => s.scopeEnd) s

/-- R450: blows FIELD_LOCK on an unlocked part. -/
def doDbgLock (s : State) : State :=
  tapRun irLock (fun s =>
    if s.dbg.fieldLock then s else State.scopeEnd { s with dbg := { s.dbg with fieldLock := true } }) s

/-! ### DBG_ACCESS (R456, R457) -/

/-- The result of a command that is done. -/
def State.dbgEnd (s : State) (st : Nat) : State := { s with dbg := { s.dbg with status := st, done := true } }

def State.dbgData (s : State) (v : Word) : State := State.dbgEnd { s with dbg := { s.dbg with data := v } } 0

/-- A command shifted in: BUSY while the last one is not done, DENIED outside the scope. -/
def dbgCmd (op need : Nat) (f : State → State) (s : State) : State :=
  tapRun irAccess (fun s =>
    if !s.dbg.done then s.dbgSt 3
    else
      let s1 := { s with dbg := { s.dbg with op := op } }
      if s1.dbgOpen need then f s1 else s1.dbgEnd 1) s

/-- Management core 0 does not run: it has stopped (R11), or the engine is in reset or stopped. -/
def State.coreZeroDown (s : State) : Bool := s.pm.coresDown.contains 0 || s.noAccess

/-- REG_READ and REG_WRITE, as accesses of management core 0. -/
def dbgReg (wide write : Bool) (o : Nat) (v : Word) (s : State) : State :=
  let width := if wide then 64 else 32
  if (regCause (regOf doRelayGo s (.core 0) (o / 4 * 4)) (.core 0) o width write).isSome then s.dbgEnd 1
  else if s.coreZeroDown then s.dbgEnd 2
  else doRegAccess (.core 0) o width write v { s with dbg := { s.dbg with done := false } }

/-- A bus error of core 0 outside register space, recorded in PM.REG_ERR (R457); its CAUSE is a free one of the five (log entry 25). -/
def State.dbgBusErr (s : State) (write : Bool) : State :=
  let (k, s1) := s.free
  (s1.regError (.core 0) regBase (1 + k % 5) write).dbgEnd 2

/-- A memory access of 8 bytes at DPA `d` (log entry 25). -/
def dbgMem (write : Bool) (d : Nat) (v : Word) (s : State) : State :=
  if s.coreZeroDown then s.dbgEnd 2
  else if d % 8 ≠ 0 then (s.regError (.core 0) regBase cAlign write).dbgEnd 2
  else
    match region s d with
    | .unmapped => (s.log 0x0104 noInst noPart (toW d)).dbgBusErr write
    | .reg => doRegAccess (.core 0) (d - regBase) 64 write v { s with dbg := { s.dbg with done := false } }
    | .host =>
      if write then
        match s.hostPost s.mgmtPort none (d - hostBase) (leBytes 8 v.toNat) with
        | (true, s1) => s1.dbgEnd 0
        | (false, s1) => s1.dbgBusErr write
      else
        match s.hostTake (.unit 67) none d 8 with
        | (.ok bs, s1) => s1.dbgData (toW (fld bs 0 8))
        | (.error _, s1) => s1.dbgBusErr write
    | r =>
      if write then (if r = .keep then s.dbgEnd 1 else (s.memWrite d (leBytes 8 v.toNat)).dbgEnd 0)
      else
        match s.memRead (d / 64) 64 with
        | (some line, s1) => s1.dbgData (toW (fld line (d % 64) 8))
        | (none, s1) => s1.dbgBusErr write

def doDbgNop (s : State) : State := dbgCmd 0x0 1 (fun s => s.dbgEnd 0) s
def doRegRead (wide : Bool) (a : BitVec 48) (s : State) : State := dbgCmd 0x1 1 (dbgReg wide false a.toNat 0) s

/-- LOG_READ: DATA has room for one of the entry's four words; which one is a free choice (log entry 25). -/
def doLogRead (a : BitVec 48) (s : State) : State :=
  dbgCmd 0x2 1 (fun s => let (k, s1) := s.free; s1.dbgData (toW (s1.err.word (a.toNat % 4096) (k % 4)))) s

def doRegWrite (wide : Bool) (a : BitVec 48) (d : Word) (s : State) : State := dbgCmd 0x3 2 (dbgReg wide true a.toNat d) s
def doMemRead (a : BitVec 48) (s : State) : State := dbgCmd 0x4 2 (dbgMem false a.toNat 0) s
def doMemWrite (a : BitVec 48) (d : Word) (s : State) : State := dbgCmd 0x5 2 (dbgMem true a.toNat d) s

/-! ### PPs under debug (R456, R458) -/

/-- The PP that ADDRESS[7:0] names: [5:0] cluster, [7:6] PP. -/
def dbgPp (a : BitVec 48) : Nat := 4 * (a.toNat % 64) + bits a.toNat 7 6

def State.haltPp (s : State) (n : Nat) : State :=
  if (s.pp n).dbg.stops then s else s.setPp n { s.pp n with dbg := .byHalt }

/-- The PP goes on: from BREAK as PRET does; a cut that fell while it was halted in leg mode is taken now (R95). -/
def State.resumePp (s : State) (n : Nat) (next' : DbgHalt) : State :=
  match (s.pp n).dbg with
  | .byBreak => State.trapReturn (s.setPp n { s.pp n with dbg := next' }) n
  | .byHalt => State.takeHeldStop (s.setPp n { s.pp n with dbg := next' }) n
  | _ => s

def doPpHalt (a : BitVec 48) (s : State) : State := dbgCmd 0x6 2 (fun s => (s.haltPp (dbgPp a)).dbgEnd 0) s
def doPpResume (a : BitVec 48) (s : State) : State := dbgCmd 0x7 2 (fun s => (s.resumePp (dbgPp a) .no).dbgEnd 0) s
def doPpStep (a : BitVec 48) (s : State) : State := dbgCmd 0x8 2 (fun s => (s.resumePp (dbgPp a) .step).dbgEnd 0) s

/-- PP_STATE: the value of item `k`, when the table lists it. -/
def Pp.item (p : Pp) (k : Nat) : Option Word :=
  if k < 32 then some (p.getX (BitVec.ofNat 5 k))
  else if k = 32 then some p.pc
  else if k = 33 then some (p.getCsr csrPEPC)
  else if k = 34 then some (p.getCsr csrPCAUSE)
  else if k = 35 then some (p.getCsr csrPTVAL)
  else none

/-- PP_STATE: of a PP that is not halted, or of an item the table does not list, a free value (log entry 25). -/
def doPpState (a : BitVec 48) (s : State) : State :=
  dbgCmd 0x9 2 (fun s =>
    let p := s.pp (dbgPp a)
    match (if p.dbg.stops then p.item (bits a.toNat 15 8) else none) with
    | some v => s.dbgData v
    | none => let (k, s1) := s.free; s1.dbgData (toW k)) s

/-- PSTATUS with DEBUG_HALT_ON_BREAK at `b`. -/
def withHaltBit (v : Word) (b : Bool) : Word := if b then v ||| 2#64 else v &&& ~~~ 2#64

def State.haltBits (s : State) (b : Bool) : State :=
  (List.range 256).foldl (fun t n =>
    let p := t.pp n
    if (p.getCsr csrPSTATUS).getLsbD 1 = b then t else t.setPp n (p.setCsr csrPSTATUS (withHaltBit (p.getCsr csrPSTATUS) b))) s

def doHaltOnBreak (d : Word) (s : State) : State := dbgCmd 0xA 2 (fun s => (s.haltBits (d.getLsbD 0)).dbgEnd 0) s

def doDbgReset (s : State) : State := dbgCmd 0xB 2 (fun s => (s.dbgEnd 0).requestReset 4) s

/-- R450: FUSE_HASH; the fourth part programs OBSERVE_HASH. -/
def State.fusePart (s : State) (k : Nat) (d : Word) : State :=
  let parts := tput s.dbg.hashParts k d
  if (List.range 4).all (fun i => (tget? parts i).isSome) then
    { s with dbg := { s.dbg with hashParts := [],
                                 obsHash := BitVec.ofNat 256 (((List.range 4).map (fun i => (tgetD parts i 0).toNat * 2 ^ (64 * i))).sum) } }
  else { s with dbg := { s.dbg with hashParts := parts } }

def doFuseHash (a : BitVec 48) (d : Word) (s : State) : State :=
  dbgCmd 0xC 0 (fun s =>
    if s.dbg.fieldLock || s.dbg.obsHash ≠ 0 then s.dbgEnd 1 else (s.fusePart (a.toNat % 4) d).dbgEnd 0) s

/-! ### Temperatures (R346, R476, R479) -/

/-- Trip temperature of reading `i`, in 0.1 °C. -/
def tripAt (i : Nat) : Int := if i < 3 then 1150 else 1050

def tripped (temps : List Int) : Bool := temps.zipIdx.any (fun (x : Int × Nat) => decide (tripAt x.2 ≤ x.1))

/-- THERMAL_SAMPLE: readings of compute tiles 0 and 1, the I/O tile and stacks 0–3, and the package power. -/
def doThermal (temps : List Int) (powerDw : Nat) (s : State) : State :=
  if s.pm.inReset || s.tripStopped then s
  else
    let s1 := { s with pm := { s.pm with temps := temps, powerDw := powerDw } }
    let s2 := (List.range 4).foldl (fun t n => doHotChange n 0 (temps.getD (n + 3) 0) t) s1
    if tripped temps && !s.pm.tripped then State.emit { s2 with pm := { s2.pm with tripped := true } } (.pin "THERMTRIP_N" false) else s2

/-- TRIP_NO_PFAIL: every clock but AONCLK stops; nothing is saved. -/
def doTripStop (s : State) : State :=
  if s.pm.tripped && !s.pm.pfail && !s.pm.inReset then { s with pm := { s.pm with frozen := true } } else s

def execExtest (scan : List Bool) (s : State) : Host.Outcome State Fault Refusal := .next (doExtest scan s)
def execSamplePreload (scan : List Bool) (s : State) : Host.Outcome State Fault Refusal := .next (doSample scan s)
def execIdcode (s : State) : Host.Outcome State Fault Refusal := .next (doIdcode s)
def execBypass (bit : Bool) (s : State) : Host.Outcome State Fault Refusal := .next (doBypass bit s)
def execDbgStatus (s : State) : Host.Outcome State Fault Refusal := .next (doDbgStatus s)
def execDbgNonce (s : State) : Host.Outcome State Fault Refusal := .next (doDbgNonce s)
def execDbgAuth (scope : BitVec 8) (secret : BitVec 128) (s : State) : Host.Outcome State Fault Refusal :=
  .next (doDbgAuth scope secret s)
def execDbgClose (s : State) : Host.Outcome State Fault Refusal := .next (doDbgClose s)
def execDbgLock (s : State) : Host.Outcome State Fault Refusal := .next (doDbgLock s)
def execTrstN (s : State) : Host.Outcome State Fault Refusal := .next (doTrst s)
def execNonceExpiry (s : State) : Host.Outcome State Fault Refusal := .next (doNonceExpiry s)
def execDbgNop (s : State) : Host.Outcome State Fault Refusal := .next (doDbgNop s)
def execRegRead (wide : Bool) (a : BitVec 48) (s : State) : Host.Outcome State Fault Refusal := .next (doRegRead wide a s)
def execLogRead (a : BitVec 48) (s : State) : Host.Outcome State Fault Refusal := .next (doLogRead a s)
def execRegWrite (wide : Bool) (a : BitVec 48) (d : Word) (s : State) : Host.Outcome State Fault Refusal := .next (doRegWrite wide a d s)
def execMemRead (a : BitVec 48) (s : State) : Host.Outcome State Fault Refusal :=
  .next (s.settle [.unit 67] (doMemRead a))
def execMemWrite (a : BitVec 48) (d : Word) (s : State) : Host.Outcome State Fault Refusal := .next (doMemWrite a d s)
def execPpHalt (a : BitVec 48) (s : State) : Host.Outcome State Fault Refusal := .next (doPpHalt a s)
def execPpResume (a : BitVec 48) (s : State) : Host.Outcome State Fault Refusal := .next (doPpResume a s)
def execPpStep (a : BitVec 48) (s : State) : Host.Outcome State Fault Refusal := .next (doPpStep a s)
def execPpState (a : BitVec 48) (s : State) : Host.Outcome State Fault Refusal := .next (doPpState a s)
def execHaltOnBreak (d : Word) (s : State) : Host.Outcome State Fault Refusal := .next (doHaltOnBreak d s)
def execDbgDeviceReset (s : State) : Host.Outcome State Fault Refusal := .next (doDbgReset s)
def execFuseHash (a : BitVec 48) (d : Word) (s : State) : Host.Outcome State Fault Refusal := .next (doFuseHash a d s)
def execThermalSample (temps : List Int) (powerDw : Nat) (s : State) : Host.Outcome State Fault Refusal :=
  .next (doThermal temps powerDw s)
def execTripNoPfail (s : State) : Host.Outcome State Fault Refusal := .next (doTripStop s)

end Sys2Proof.Machine
end

