-- ==== Sys2Proof/Machine/Codec.lean ====
section
/-!
DEFINITION. The byte formats that DECODE accepts (09 R232): LZ4 blocks, DEFLATE (RFC 1951), gzip (RFC 1952) and Zstandard
(RFC 8878), and the compressor's pass (R242).  The spec names the RFCs and does not restate them; their contents are
PRESUMED (log entry 17).
-/
namespace Sys2Proof.Machine

open Sys2Proof

/-! ### Decoding state -/

/-- Position in bits, and the unit's output, latest byte first.  `echo` holds what read-backs of the output region have given, those
to come first, and `want` the read-back for which nothing is there yet: its offset in the unit's output and its length (R237). -/
structure DS where
  pos : Nat
  out : List Byte
  len : Nat
  echo : List (List Byte)
  want : Option (Nat × Nat)
  deriving DecidableEq, Repr

abbrev DM (α : Type) := ExceptT Nat (StateM DS) α

/-- Codes of R237's table, and the mark for input that ends too early. -/
def dMore : Nat := 0x010E
def dCorrupt : Nat := 0x010D
def dUnsupported : Nat := 0x010C
def dChecksum : Nat := 0x0110
def dSize : Nat := 0x010F
/-- The mark for a decoder that waits for a read-back. -/
def dWait : Nat := 0x1001

def dFail {α : Type} (c : Nat) : DM α := throw c
def dCheck (b : Bool) (c : Nat) : DM Unit := if b then pure () else throw c

def dPos : DM Nat := do return (← getThe DS).pos
def dSetPos (p : Nat) : DM Unit := modifyThe DS (fun d => { d with pos := p })
def dLen : DM Nat := do return (← getThe DS).len

def dEmit (b : Byte) : DM Unit := modifyThe DS (fun d => { d with out := b :: d.out, len := d.len + 1 })

/-- Copies `n` bytes from `dist` back; the distance must lie inside the unit's output. -/
def dCopy (dist : Nat) : Nat → DM Unit
  | 0 => pure ()
  | n + 1 => do
    let d ← getThe DS
    dEmit (d.out.getD (dist - 1) 0)
    dCopy dist n

/-- A back-reference beyond the 128 KiB that stay on chip: the bytes come from the output region (R237). -/
def dBack (dist n : Nat) : DM Unit := do
  let d ← getThe DS
  match d.echo with
  | bs :: t =>
    modifyThe DS (fun x => { x with echo := t })
    bs.forM dEmit
  | [] =>
    modifyThe DS (fun x => { x with want := some (x.len - dist, n) })
    throw dWait

def dMatch (dist n : Nat) : DM Unit := do
  let l ← dLen
  dCheck (decide (1 ≤ dist ∧ dist ≤ l)) dCorrupt
  if dist ≤ 131072 then dCopy dist n
  else
    dBack dist (min n dist)
    if dist < n then dBack dist (n - dist)

/-- Byte `i` of the input, which ends at `stop`. -/
def dByteAt (inp : Array Byte) (stop i : Nat) : DM Nat :=
  if i < stop then pure ((inp.getD i 0).toNat) else throw dMore

/-- The next whole byte; the position is byte-aligned. -/
def dByte (inp : Array Byte) (stop : Nat) : DM Nat := do
  let p ← dPos
  let b ← dByteAt inp stop (p / 8)
  dSetPos (p + 8)
  return b

/-- A little-endian number of `n` bytes. -/
def dNum (inp : Array Byte) (stop : Nat) : Nat → DM Nat
  | 0 => pure 0
  | n + 1 => do
    let b ← dByte inp stop
    let r ← dNum inp stop n
    return b + 256 * r

def dLiterals (inp : Array Byte) (stop : Nat) : Nat → DM Unit
  | 0 => pure ()
  | n + 1 => do
    let b ← dByte inp stop
    dEmit (BitVec.ofNat 8 b)
    dLiterals inp stop n

/-- `n` bits, least significant first. -/
def dBits (inp : Array Byte) (stop : Nat) : Nat → DM Nat
  | 0 => pure 0
  | n + 1 => do
    let p ← dPos
    let b ← dByteAt inp stop (p / 8)
    dSetPos (p + 1)
    let r ← dBits inp stop n
    return b2n (b.testBit (p % 8)) + 2 * r

def dAlign : DM Unit := do
  let p ← dPos
  dSetPos (cdiv p 8 * 8)

/-! ### LZ4 block -/

/-- The extra length bytes of a nibble of 15. -/
def lz4Len (inp : Array Byte) (stop : Nat) : Nat → Nat → DM Nat
  | 0, _ => dFail dCorrupt
  | f + 1, acc => do
    let b ← dByte inp stop
    if b = 255 then lz4Len inp stop f (acc + 255) else return acc + b

def lz4Loop (inp : Array Byte) (stop : Nat) : Nat → DM Unit
  | 0 => dFail dCorrupt
  | f + 1 => do
    let tok ← dByte inp stop
    let lit ← if tok / 16 = 15 then lz4Len inp stop (stop + 1) 15 else pure (tok / 16)
    dLiterals inp stop lit
    let p ← dPos
    if p / 8 = stop then return ()
    else
      let dist ← dNum inp stop 2
      let ml ← if tok % 16 = 15 then lz4Len inp stop (stop + 1) 15 else pure (tok % 16)
      dMatch dist (ml + 4)
      let p2 ← dPos
      -- the last sequence must hold literals only
      dCheck (decide (p2 / 8 < stop)) dCorrupt
      lz4Loop inp stop f

/-- One LZ4 block from the current position to `stop`. -/
def lz4Block (inp : Array Byte) (stop : Nat) : DM Unit := lz4Loop inp stop (stop + 1)

/-! ### DEFLATE (RFC 1951) -/

/-- Symbols of a canonical code in order of length, then value, and the number of codes of each length. -/
structure Huff where
  counts : List Nat
  syms : List Nat
  deriving Repr

def Huff.ofLens (lens : List Nat) : Huff :=
  { counts := (List.range 16).map (fun l => lens.countP (· == l)),
    syms := ((List.range 15).map (fun l => (List.range lens.length).filter (fun i => lens.getD i 0 == l + 1))).flatten }

/-- Codes left unused at each length, or none when the lengths are over-subscribed. -/
def Huff.left (h : Huff) : Option Nat :=
  (List.range 15).foldl (fun a l => match a with
    | some x => if 2 * x < h.counts.getD (l + 1) 0 then none else some (2 * x - h.counts.getD (l + 1) 0)
    | none => none) (some 1)

/-- Reads one symbol, bit by bit. -/
def huffSym (inp : Array Byte) (stop : Nat) (h : Huff) : Nat → Nat → Nat → Nat → Nat → DM Nat
  | 0, _, _, _, _ => dFail dCorrupt
  | f + 1, len, code, first, index => do
    let b ← dBits inp stop 1
    let code := code + b
    let count := h.counts.getD len 0
    if code < first + count then
      return h.syms.getD (index + (code - first)) 0
    else huffSym inp stop h f (len + 1) (2 * code) (2 * (first + count)) (index + count)

def huffRead (inp : Array Byte) (stop : Nat) (h : Huff) : DM Nat := huffSym inp stop h 15 1 0 0 0

def defLenBase : List Nat :=
  [3, 4, 5, 6, 7, 8, 9, 10, 11, 13, 15, 17, 19, 23, 27, 31, 35, 43, 51, 59, 67, 83, 99, 115, 131, 163, 195, 227, 258]
def defLenExtra : List Nat :=
  [0, 0, 0, 0, 0, 0, 0, 0, 1, 1, 1, 1, 2, 2, 2, 2, 3, 3, 3, 3, 4, 4, 4, 4, 5, 5, 5, 5, 0]
def defDistBase : List Nat :=
  [1, 2, 3, 4, 5, 7, 9, 13, 17, 25, 33, 49, 65, 97, 129, 193, 257, 385, 513, 769, 1025, 1537, 2049, 3073, 4097, 6145, 8193,
   12289, 16385, 24577]
def defDistExtra : List Nat :=
  [0, 0, 0, 0, 1, 1, 2, 2, 3, 3, 4, 4, 5, 5, 6, 6, 7, 7, 8, 8, 9, 9, 10, 10, 11, 11, 12, 12, 13, 13]

/-- Literals and matches up to the end-of-block symbol. -/
def defCodes (inp : Array Byte) (stop : Nat) (hl hd : Huff) : Nat → DM Unit
  | 0 => dFail dMore
  | f + 1 => do
    let sym ← huffRead inp stop hl
    if sym < 256 then
      dEmit (BitVec.ofNat 8 sym)
      defCodes inp stop hl hd f
    else if sym = 256 then return ()
    else
      dCheck (decide (sym ≤ 285)) dCorrupt
      let e ← dBits inp stop (defLenExtra.getD (sym - 257) 0)
      let ds ← huffRead inp stop hd
      dCheck (decide (ds ≤ 29)) dCorrupt
      let de ← dBits inp stop (defDistExtra.getD ds 0)
      dMatch (defDistBase.getD ds 0 + de) (defLenBase.getD (sym - 257) 0 + e)
      defCodes inp stop hl hd f

def fixedLit : Huff :=
  Huff.ofLens (List.replicate 144 8 ++ List.replicate 112 9 ++ List.replicate 24 7 ++ List.replicate 8 8)
def fixedDist : Huff := Huff.ofLens (List.replicate 32 5)

def clOrder : List Nat := [16, 17, 18, 0, 8, 7, 9, 6, 10, 5, 11, 4, 12, 3, 13, 2, 14, 1, 15]

/-- The code lengths of a dynamic block, latest first. -/
def defLens (inp : Array Byte) (stop : Nat) (h : Huff) (total : Nat) : Nat → List Nat → DM (List Nat)
  | 0, _ => dFail dCorrupt
  | f + 1, acc =>
    if acc.length ≥ total then (if acc.length = total then pure acc.reverse else dFail dCorrupt)
    else do
      let sym ← huffRead inp stop h
      if sym < 16 then defLens inp stop h total f (sym :: acc)
      else if sym = 16 then do
        dCheck (!acc.isEmpty) dCorrupt
        let n ← dBits inp stop 2
        defLens inp stop h total f (List.replicate (3 + n) (acc.headD 0) ++ acc)
      else if sym = 17 then do
        let n ← dBits inp stop 3
        defLens inp stop h total f (List.replicate (3 + n) 0 ++ acc)
      else do
        let n ← dBits inp stop 7
        defLens inp stop h total f (List.replicate (11 + n) 0 ++ acc)

def defDynamic (inp : Array Byte) (stop : Nat) : DM Unit := do
  let nl ← dBits inp stop 5
  let nd ← dBits inp stop 5
  let nc ← dBits inp stop 4
  dCheck (decide (nl + 257 ≤ 286)) dCorrupt
  let cls ← (List.range (nc + 4)).mapM (fun _ => dBits inp stop 3)
  let cl := (List.range 19).map (fun s => match (List.range (nc + 4)).find? (fun i => clOrder.getD i 0 == s) with
    | some i => cls.getD i 0
    | none => 0)
  let hc := Huff.ofLens cl
  dCheck (hc.left == some 0) dCorrupt
  let lens ← defLens inp stop hc (nl + 257 + nd + 1) 400 []
  let ll := lens.take (nl + 257)
  let dl := lens.drop (nl + 257)
  dCheck (ll.getD 256 0 != 0) dCorrupt
  let hl := Huff.ofLens ll
  let hd := Huff.ofLens dl
  -- an incomplete set is allowed only when it holds a single code of one bit, or no distance code
  dCheck (hl.left == some 0) dCorrupt
  dCheck (hd.left == some 0 || (hd.left.isSome && decide (hd.syms.length ≤ 1) && dl.all (fun l => decide (l ≤ 1)))) dCorrupt
  defCodes inp stop hl hd (8 * stop + 8)

def defBlocks (inp : Array Byte) (stop : Nat) : Nat → DM Unit
  | 0 => dFail dMore
  | f + 1 => do
    let last ← dBits inp stop 1
    let ty ← dBits inp stop 2
    if ty = 0 then
      dAlign
      let n ← dNum inp stop 2
      let m ← dNum inp stop 2
      dCheck (n + m == 0xFFFF) dCorrupt
      dLiterals inp stop n
    else if ty = 1 then defCodes inp stop fixedLit fixedDist (8 * stop + 8)
    else if ty = 2 then defDynamic inp stop
    else dFail dCorrupt
    if last = 1 then return () else defBlocks inp stop f

/-- One DEFLATE stream up to and including its final block, then on to a byte boundary. -/
def deflateStream (inp : Array Byte) (stop : Nat) : DM Unit := do
  defBlocks inp stop (8 * stop + 8)
  dAlign

/-! ### gzip (RFC 1952) -/

def crc32Bit (c : BitVec 32) : BitVec 32 := if c.getLsbD 0 then (c >>> 1) ^^^ 0xEDB88320#32 else c >>> 1

def crc32Byte (c : BitVec 32) (b : Byte) : BitVec 32 :=
  let c0 := c ^^^ b.setWidth 32
  crc32Bit (crc32Bit (crc32Bit (crc32Bit (crc32Bit (crc32Bit (crc32Bit (crc32Bit c0)))))))

def crc32 (bs : List Byte) : BitVec 32 := ~~~ (bs.foldl crc32Byte 0xFFFFFFFF#32)

/-- Skips a zero-terminated field. -/
def gzSkip (inp : Array Byte) (stop : Nat) : Nat → DM Unit
  | 0 => dFail dMore
  | f + 1 => do
    let b ← dByte inp stop
    if b = 0 then return () else gzSkip inp stop f

/-- A member's header. -/
def gzipHead (inp : Array Byte) (stop : Nat) : DM Unit := do
  let p0 ← dPos
  let id1 ← dByte inp stop
  let id2 ← dByte inp stop
  dCheck (id1 == 0x1F && id2 == 0x8B) dCorrupt
  let cm ← dByte inp stop
  dCheck (cm == 8) dUnsupported
  let flg ← dByte inp stop
  dCheck (decide (flg < 32)) dCorrupt
  let _ ← dNum inp stop 6
  if flg.testBit 2 then
    let n ← dNum inp stop 2
    let _ ← dNum inp stop n
  if flg.testBit 3 then gzSkip inp stop (stop + 1)
  if flg.testBit 4 then gzSkip inp stop (stop + 1)
  if flg.testBit 1 then
    let p ← dPos
    let hdr := (List.range (p / 8 - p0 / 8)).map (fun i => inp.getD (p0 / 8 + i) 0)
    let c ← dNum inp stop 2
    dCheck (c == (crc32 hdr).toNat % 65536) dChecksum

/-- A member's data and trailer; answers ISIZE. -/
def gzipBody (inp : Array Byte) (stop : Nat) : DM Nat := do
  deflateStream inp stop
  let c ← dNum inp stop 4
  let size ← dNum inp stop 4
  let d ← getThe DS
  dCheck (d.len % 2 ^ 32 == size) dSize
  dCheck (c == (crc32 d.out.reverse).toNat) dChecksum
  return size

/-! ### Zstandard (RFC 8878) -/

/-- Bits read from the end of a byte range: `hi` bits remain, from bit position `lo`. -/
structure BackBits where
  lo : Nat
  hi : Nat
  ranOut : Bool
  deriving DecidableEq, Repr

def bitAt (inp : Array Byte) (p : Nat) : Nat := b2n ((inp.getD (p / 8) 0).getLsbD (p % 8))

/-- Starts at the highest set bit of the last byte, which is a mark. -/
def backStart (inp : Array Byte) (first stop : Nat) : Option BackBits :=
  if stop ≤ first then none
  else
    let b := (inp.getD (stop - 1) 0).toNat
    if b = 0 then none else some { lo := 8 * first, hi := 8 * (stop - 1) + b.log2, ranOut := false }

/-- Reads `n` bits; bits before the start read as 0 and set `ranOut`. -/
def backRead (inp : Array Byte) : Nat → BackBits → Nat × BackBits
  | 0, b => (0, b)
  | n + 1, b =>
    let (v, b1) := if b.lo < b.hi then (bitAt inp (b.hi - 1), { b with hi := b.hi - 1 }) else (0, { b with ranOut := true })
    let (r, b2) := backRead inp n b1
    (v * 2 ^ n + r, b2)

/-- A state of an FSE table. -/
structure FseEnt where
  sym : Nat
  nb : Nat
  base : Nat
  deriving DecidableEq, Repr

structure Fse where
  al : Nat
  tab : Array FseEnt
  deriving Repr

/-- Places of the symbols with a positive probability: the spread of RFC 8878. -/
def fseSpread (size high : Nat) (norm : List Int) : Array Nat :=
  let step := size / 2 + size / 8 + 3
  let next := fun (p : Nat) => (p + step) % size
  let skip := fun (p : Nat) => (List.range size).foldl (fun q _ => if q ≥ high then next q else q) p
  let syms := ((List.range norm.length).map (fun i => List.replicate (norm.getD i 0).toNat i)).flatten
  (syms.foldl (fun (t : Array Nat × Nat) sy => (t.1.setIfInBounds t.2 sy, skip (next t.2))) (Array.replicate size 0, 0)).1

/-- The decoding table of a distribution. -/
def fseBuild (al : Nat) (norm : List Int) : Fse :=
  let size := 2 ^ al
  let lows := (List.range norm.length).filter (fun i => norm.getD i 0 == -1)
  let high := size - lows.length
  let t0 := fseSpread size high norm
  let t1 := (List.range lows.length).foldl (fun (t : Array Nat) i => t.setIfInBounds (size - 1 - i) (lows.getD i 0)) t0
  let start : Array Nat := (norm.map (fun x => if x = -1 then 1 else x.toNat)).toArray
  let r := (List.range size).foldl (fun (acc : Array FseEnt × Array Nat) i =>
    let sy := t1.getD i 0
    let n := acc.2.getD sy 0
    let nb := al - n.log2
    (acc.1.push { sym := sy, nb := nb, base := n * 2 ^ nb - size }, acc.2.setIfInBounds sy (n + 1))) (#[], start)
  { al := al, tab := r.1 }

def Fse.at (t : Fse) (i : Nat) : FseEnt := t.tab.getD i { sym := 0, nb := 0, base := 0 }

/-- A table of one symbol. -/
def fseRle (sym : Nat) : Fse := { al := 0, tab := #[{ sym := sym, nb := 0, base := 0 }] }

/-- Zero-probability runs: 2-bit counts, 3 meaning more. -/
def fseZeros (inp : Array Byte) (stop : Nat) : Nat → Nat → DM Nat
  | 0, _ => dFail dCorrupt
  | f + 1, acc => do
    let n ← dBits inp stop 2
    if n = 3 then fseZeros inp stop f (acc + 3) else return acc + n

/-- The normalised counts, latest first. -/
def fseCounts (inp : Array Byte) (stop maxSym : Nat) : Nat → Nat → List Int → DM (List Int)
  | 0, _, _ => dFail dCorrupt
  | f + 1, remaining, acc =>
    if remaining ≤ 1 then (if remaining = 1 then pure acc.reverse else dFail dCorrupt)
    else do
      dCheck (decide (acc.length ≤ maxSym)) dCorrupt
      -- the value fits `nb` bits, and small values take one bit less
      let nb := remaining.log2 + 1
      let th := 2 ^ (nb - 1)
      let mx := 2 * th - 1 - remaining
      let low ← dBits inp stop (nb - 1)
      let v ← (do
        if low < mx then return low
        else
          let top ← dBits inp stop 1
          let w := low + th * top
          return if w ≥ th then w - mx else w : DM Nat)
      let count : Int := (v : Int) - 1
      let rem := remaining - count.natAbs
      if count = 0 then
        let z ← fseZeros inp stop 64 0
        fseCounts inp stop maxSym f rem (List.replicate z 0 ++ (0 :: acc))
      else fseCounts inp stop maxSym f rem (count :: acc)

/-- An FSE table description, which ends on a byte boundary. -/
def fseRead (inp : Array Byte) (stop maxAl maxSym : Nat) : DM Fse := do
  let a ← dBits inp stop 4
  dCheck (decide (a + 5 ≤ maxAl)) dCorrupt
  let norm ← fseCounts inp stop maxSym 300 (2 ^ (a + 5) + 1) []
  dCheck (decide (norm.length ≤ maxSym + 1)) dCorrupt
  dAlign
  return fseBuild (a + 5) norm

/-- Huffman weights coded with FSE: two states take turns until the bits run out. -/
def weightLoop (inp : Array Byte) (t : Fse) : Nat → Nat → Nat → BackBits → List Nat → Option (List Nat)
  | 0, _, _, _, _ => none
  | f + 1, s1, s2, b, acc =>
    let e := t.at s1
    let (v, b1) := backRead inp e.nb b
    if b1.ranOut then some ((t.at s2).sym :: e.sym :: acc)
    else weightLoop inp t f s2 (e.base + v) b1 (e.sym :: acc)

/-- A Huffman table of literals: symbol and bits by the next `maxBits` bits. -/
structure LitTab where
  bits : Nat
  tab : Array (Nat × Nat)
  deriving Repr

/-- From weights, the last of which is implied. -/
def litBuild (ws : List Nat) : Option LitTab :=
  let sum := (ws.map (fun w => if w = 0 then 0 else 2 ^ (w - 1))).sum
  if sum = 0 ∨ ws.length > 255 ∨ ws.any (fun w => decide (w > 12)) then none
  else
    let mb := sum.log2 + 1
    let left := 2 ^ mb - sum
    if mb > 11 ∨ left ≠ 2 ^ left.log2 then none
    else
      let all := ws ++ [left.log2 + 1]
      let ents := ((List.range 12).map (fun w =>
        ((List.range all.length).filter (fun i => all.getD i 0 == w + 1)).map (fun i =>
          List.replicate (2 ^ w) (i, mb - w)))).flatten.flatten
      some { bits := mb, tab := ents.toArray }

/-- The Huffman tree description of a literals section. -/
def litTree (inp : Array Byte) (stop : Nat) : DM LitTab := do
  let h ← dByte inp stop
  let ws ← (do
    if h ≥ 128 then
      let n := h - 127
      let bs ← (List.range (cdiv n 2)).mapM (fun _ => dByte inp stop)
      return (List.range n).map (fun i => if i % 2 = 0 then bs.getD (i / 2) 0 / 16 else bs.getD (i / 2) 0 % 16)
    else
      let p ← dPos
      let e := p / 8 + h
      dCheck (decide (e ≤ stop)) dCorrupt
      let t ← fseRead inp e 6 12
      let q ← dPos
      match backStart inp (q / 8) e with
      | none => dFail dCorrupt
      | some b =>
        let (s1, b1) := backRead inp t.al b
        let (s2, b2) := backRead inp t.al b1
        dCheck (!b2.ranOut) dCorrupt
        dSetPos (8 * e)
        match weightLoop inp t 300 s1 s2 b2 [] with
        | some l => return l.reverse
        | none => dFail dCorrupt : DM (List Nat))
  match litBuild ws with
  | some t => return t
  | none => dFail dCorrupt

/-- Literals of one stream, latest first. -/
def litStream (inp : Array Byte) (t : LitTab) : Nat → BackBits → List Byte → Option (List Byte)
  | 0, b, acc => if b.lo = b.hi && !b.ranOut then some acc else none
  | n + 1, b, acc =>
    let (v, _) := backRead inp t.bits b
    let (sym, nb) := t.tab.getD v (0, 0)
    let (_, b1) := backRead inp nb b
    if b1.ranOut then none else litStream inp t n b1 (BitVec.ofNat 8 sym :: acc)

def litStreamAt (inp : Array Byte) (t : LitTab) (first stop n : Nat) : DM (List Byte) :=
  match backStart inp first stop with
  | none => dFail dCorrupt
  | some b => match litStream inp t n b [] with
    | some l => pure l.reverse
    | none => dFail dCorrupt

/-- What a frame carries from block to block. -/
structure ZSt where
  lit : Option LitTab
  ll : Option Fse
  of : Option Fse
  ml : Option Fse
  r1 : Nat
  r2 : Nat
  r3 : Nat
  deriving Repr

/-- The literals section of a compressed block that ends at `stop`. -/
def zLiterals (inp : Array Byte) (stop : Nat) (z : ZSt) : DM (List Byte × ZSt) := do
  let p ← dPos
  let h0 ← dByteAt inp stop (p / 8)
  let ty := h0 % 4
  let sf := h0 / 4 % 4
  if ty ≤ 1 then
    let n := if sf % 2 = 0 then 1 else if sf = 1 then 2 else 3
    let h ← dNum inp stop n
    let size := if n = 1 then h / 8 else h / 16
    if ty = 0 then
      let l ← (List.range size).mapM (fun _ => dByte inp stop)
      return (l.map (BitVec.ofNat 8 ·), z)
    else
      let b ← dByte inp stop
      return (List.replicate size (BitVec.ofNat 8 b), z)
  else
    let n := if sf ≤ 1 then 3 else if sf = 2 then 4 else 5
    let w := if sf ≤ 1 then 10 else if sf = 2 then 14 else 18
    let h ← dNum inp stop n
    let regen := h / 16 % 2 ^ w
    let comp := h / 2 ^ (4 + w) % 2 ^ w
    let q ← dPos
    let e := q / 8 + comp
    dCheck (decide (e ≤ stop)) dCorrupt
    let t ← (do
      if ty = 2 then litTree inp e
      else match z.lit with
        | some t => return t
        | none => dFail dCorrupt : DM LitTab)
    let l ← (do
      if sf = 0 then
        let a ← dPos
        litStreamAt inp t (a / 8) e regen
      else
        let s1 ← dNum inp e 2
        let s2 ← dNum inp e 2
        let s3 ← dNum inp e 2
        let a ← dPos
        let a := a / 8
        dCheck (decide (a + s1 + s2 + s3 ≤ e)) dCorrupt
        let m := (regen + 3) / 4
        dCheck (decide (3 * m ≤ regen)) dCorrupt
        let l1 ← litStreamAt inp t a (a + s1) m
        let l2 ← litStreamAt inp t (a + s1) (a + s1 + s2) m
        let l3 ← litStreamAt inp t (a + s1 + s2) (a + s1 + s2 + s3) m
        let l4 ← litStreamAt inp t (a + s1 + s2 + s3) e (regen - 3 * m)
        return l1 ++ l2 ++ l3 ++ l4 : DM (List Byte))
    dSetPos (8 * e)
    return (l, { z with lit := some t })

def llNorm : List Int :=
  [4, 3, 2, 2, 2, 2, 2, 2, 2, 2, 2, 2, 2, 1, 1, 1, 2, 2, 2, 2, 2, 2, 2, 2, 2, 3, 2, 1, 1, 1, 1, 1, -1, -1, -1, -1]
def mlNorm : List Int :=
  [1, 4, 3, 2, 2, 2, 2, 2, 2, 1, 1, 1, 1, 1, 1, 1, 1, 1, 1, 1, 1, 1, 1, 1, 1, 1, 1, 1, 1, 1, 1, 1, 1, 1, 1, 1, 1, 1, 1, 1, 1, 1,
   1, 1, 1, 1, -1, -1, -1, -1, -1, -1, -1]
def ofNorm : List Int :=
  [1, 1, 1, 1, 1, 1, 2, 2, 2, 1, 1, 1, 1, 1, 1, 1, 1, 1, 1, 1, 1, 1, 1, 1, -1, -1, -1, -1, -1]

def llBase (c : Nat) : Nat × Nat :=
  if c < 16 then (c, 0)
  else [(16, 1), (18, 1), (20, 1), (22, 1), (24, 2), (28, 2), (32, 3), (40, 3), (48, 4), (64, 6), (128, 7), (256, 8), (512, 9),
        (1024, 10), (2048, 11), (4096, 12), (8192, 13), (16384, 14), (32768, 15), (65536, 16)].getD (c - 16) (0, 0)

def mlBase (c : Nat) : Nat × Nat :=
  if c < 32 then (c + 3, 0)
  else [(35, 1), (37, 1), (39, 1), (41, 1), (43, 2), (47, 2), (51, 3), (59, 3), (67, 4), (83, 4), (99, 5), (131, 7), (259, 8),
        (515, 9), (1027, 10), (2051, 11), (4099, 12), (8195, 13), (16387, 14), (32771, 15), (65539, 16)].getD (c - 32) (0, 0)

/-- The table of one symbol kind by its mode. -/
def zTable (inp : Array Byte) (stop mode maxAl maxSym : Nat) (dflt : Fse) (old : Option Fse) : DM Fse := do
  match mode with
  | 0 => return dflt
  | 1 =>
    let b ← dByte inp stop
    dCheck (decide (b ≤ maxSym)) dCorrupt
    return fseRle b
  | 2 => fseRead inp stop maxAl maxSym
  | _ => match old with
    | some t => return t
    | none => dFail dCorrupt

/-- Emits `n` literals and answers the rest. -/
def zEmit : List Byte → Nat → DM (List Byte)
  | l, 0 => pure l
  | [], _ + 1 => dFail dCorrupt
  | b :: t, n + 1 => do
    dEmit b
    zEmit t n

/-- The sequences of a block. -/
def zSeqs (inp : Array Byte) (tl tov tm : Fse) : Nat → Nat → Nat → Nat → BackBits → List Byte → ZSt → DM (List Byte × ZSt)
  | 0, _, _, _, b, lits, z => do
    dCheck (b.lo == b.hi && !b.ranOut) dCorrupt
    return (lits, z)
  | n + 1, sl, so, sm, b, lits, z => do
    let el := tl.at sl
    let eo := tov.at so
    let em := tm.at sm
    dCheck (decide (eo.sym ≤ 31)) dCorrupt
    let (ov, b1) := backRead inp eo.sym b
    let (mv, b2) := backRead inp (mlBase em.sym).2 b1
    let (lv, b3) := backRead inp (llBase el.sym).2 b2
    let oval := 2 ^ eo.sym + ov
    let mlen := (mlBase em.sym).1 + mv
    let llen := (llBase el.sym).1 + lv
    let idx := if llen = 0 then oval + 1 else oval
    let (off, z1) : Nat × ZSt :=
      if oval > 3 then (oval - 3, { z with r1 := oval - 3, r2 := z.r1, r3 := z.r2 })
      else if idx = 1 then (z.r1, z)
      else if idx = 2 then (z.r2, { z with r1 := z.r2, r2 := z.r1 })
      else if idx = 3 then (z.r3, { z with r1 := z.r3, r2 := z.r1, r3 := z.r2 })
      else (z.r1 - 1, { z with r1 := z.r1 - 1, r2 := z.r1, r3 := z.r2 })
    let (ul, b4) := if n = 0 then (0, b3) else backRead inp el.nb b3
    let (um, b5) := if n = 0 then (0, b4) else backRead inp em.nb b4
    let (uo, b6) := if n = 0 then (0, b5) else backRead inp eo.nb b5
    dCheck (!b6.ranOut) dCorrupt
    let rest ← zEmit lits llen
    dMatch off mlen
    zSeqs inp tl tov tm n (el.base + ul) (eo.base + uo) (em.base + um) b6 rest z1

/-- A compressed block that ends at `stop`. -/
def zBlock (inp : Array Byte) (stop : Nat) (z : ZSt) : DM ZSt := do
  let (lits, z1) ← zLiterals inp stop z
  let b0 ← dByte inp stop
  let n ← (do
    if b0 < 128 then return b0
    else if b0 < 255 then
      let b1 ← dByte inp stop
      return (b0 - 128) * 256 + b1
    else
      let v ← dNum inp stop 2
      return v + 0x7F00 : DM Nat)
  if n = 0 then
    let p ← dPos
    dCheck (p / 8 == stop) dCorrupt
    let _ ← zEmit lits lits.length
    return z1
  else
    let m ← dByte inp stop
    dCheck (m % 4 == 0) dCorrupt
    let tl ← zTable inp stop (m / 64) 9 35 (fseBuild 6 llNorm) z1.ll
    let tov ← zTable inp stop (m / 16 % 4) 8 31 (fseBuild 5 ofNorm) z1.of
    let tm ← zTable inp stop (m / 4 % 4) 9 52 (fseBuild 6 mlNorm) z1.ml
    let p ← dPos
    match backStart inp (p / 8) stop with
    | none => dFail dCorrupt
    | some b =>
      let (sl, b1) := backRead inp tl.al b
      let (so, b2) := backRead inp tov.al b1
      let (sm, b3) := backRead inp tm.al b2
      dCheck (!b3.ranOut) dCorrupt
      let (rest, z2) ← zSeqs inp tl tov tm n sl so sm b3 lits { z1 with ll := some tl, of := some tov, ml := some tm }
      let _ ← zEmit rest rest.length
      dSetPos (8 * stop)
      return z2

def zBlocks (inp : Array Byte) (stop maxBlock : Nat) : Nat → ZSt → DM Unit
  | 0, _ => dFail dMore
  | f + 1, z => do
    let h ← dNum inp stop 3
    let ty := h / 2 % 4
    let size := h / 8
    dCheck (ty != 3 && decide (size ≤ maxBlock)) dCorrupt
    let l0 ← dLen
    let z1 ← (do
      if ty = 0 then
        dLiterals inp stop size
        return z
      else if ty = 1 then
        let b ← dByte inp stop
        let _ ← zEmit (List.replicate size (BitVec.ofNat 8 b)) size
        return z
      else
        let p ← dPos
        dCheck (decide (p / 8 + size ≤ stop)) dMore
        -- a block whose sections run past its end is invalid, not cut short (R232)
        tryCatch (zBlock inp (p / 8 + size) z) (fun c => dFail (if c = dMore then dCorrupt else c)) : DM ZSt)
    let l1 ← dLen
    dCheck (decide (l1 - l0 ≤ maxBlock)) dCorrupt
    if h % 2 = 1 then return () else zBlocks inp stop maxBlock f z1

/-! XXH64 (seed 0) -/

def xxP1 : Word := 0x9E3779B185EBCA87
def xxP2 : Word := 0xC2B2AE3D27D4EB4F
def xxP3 : Word := 0x165667B19E3779F9
def xxP4 : Word := 0x85EBCA77C2B2AE63
def xxP5 : Word := 0x27D4EB2F165667C5

def xxRound (a i : Word) : Word := (a + i * xxP2).rotateLeft 31 * xxP1
def xxMerge (h a : Word) : Word := (h ^^^ xxRound 0 a) * xxP1 + xxP4

def xxAt (bs : Array Byte) (i n : Nat) : Word := BitVec.ofNat 64 (leNat ((List.range n).map (fun k => bs.getD (i + k) 0)))

def xxh64 (l : List Byte) : Word :=
  let bs := l.toArray
  let n := bs.size
  let k := n / 32
  let acc := (List.range k).foldl (fun (a : Word × Word × Word × Word) i =>
    (xxRound a.1 (xxAt bs (32 * i) 8), xxRound a.2.1 (xxAt bs (32 * i + 8) 8), xxRound a.2.2.1 (xxAt bs (32 * i + 16) 8),
     xxRound a.2.2.2 (xxAt bs (32 * i + 24) 8))) (xxP1 + xxP2, xxP2, 0, 0 - xxP1)
  let h0 := if k = 0 then xxP5
    else
      let s := acc.1.rotateLeft 1 + acc.2.1.rotateLeft 7 + acc.2.2.1.rotateLeft 12 + acc.2.2.2.rotateLeft 18
      xxMerge (xxMerge (xxMerge (xxMerge s acc.1) acc.2.1) acc.2.2.1) acc.2.2.2
  let h1 := h0 + BitVec.ofNat 64 n
  let p := 32 * k
  let w8 := (n - p) / 8
  let h2 := (List.range w8).foldl (fun (h : Word) i => (h ^^^ xxRound 0 (xxAt bs (p + 8 * i) 8)).rotateLeft 27 * xxP1 + xxP4) h1
  let p4 := p + 8 * w8
  let h3 := if n - p4 ≥ 4 then (h2 ^^^ (xxAt bs p4 4 * xxP1)).rotateLeft 23 * xxP2 + xxP3 else h2
  let p1 := if n - p4 ≥ 4 then p4 + 4 else p4
  let h4 := (List.range (n - p1)).foldl (fun (h : Word) i => (h ^^^ (xxAt bs (p1 + i) 1 * xxP5)).rotateLeft 11 * xxP1) h3
  let a := (h4 ^^^ (h4 >>> 33)) * xxP2
  let b := (a ^^^ (a >>> 29)) * xxP3
  b ^^^ (b >>> 32)

/-- What a frame header says. -/
structure ZHead where
  skip : Bool
  content : Option Nat
  window : Nat
  checksum : Bool
  deriving DecidableEq, Repr

/-- Magic and frame header; a skippable frame is passed over. -/
def zHeader (inp : Array Byte) (stop : Nat) : DM ZHead := do
  let magic ← dNum inp stop 4
  if magic / 16 = 0x184D2A5 then
    let n ← dNum inp stop 4
    let p ← dPos
    dCheck (decide (p / 8 + n ≤ stop)) dMore
    dSetPos (p + 8 * n)
    return { skip := true, content := none, window := 0, checksum := false }
  else
    dCheck (magic == 0xFD2FB528) dCorrupt
    let d ← dByte inp stop
    let single := d.testBit 5
    dCheck (!d.testBit 3) dCorrupt
    let wd ← if single then pure 0 else dByte inp stop
    let dl := [0, 1, 2, 4].getD (d % 4) 0
    let dict ← dNum inp stop dl
    dCheck (dict == 0) dUnsupported
    let fl := match d / 64 with
      | 0 => if single then 1 else 0
      | 1 => 2
      | 2 => 4
      | _ => 8
    let v ← dNum inp stop fl
    let fcs := if fl = 2 then v + 256 else v
    let wb := 2 ^ (10 + wd / 8)
    let win := if single then fcs else wb + wb / 8 * (wd % 8)
    dCheck (decide (win ≤ 8388608)) dUnsupported
    return { skip := false, content := if fl = 0 then none else some fcs, window := win, checksum := d.testBit 2 }

/-- The blocks and checksum of a frame; the stated size is checked before the checksum (R234). -/
def zBody (inp : Array Byte) (stop : Nat) (h : ZHead) : DM Unit := do
  zBlocks inp stop (min h.window 131072) (stop + 1)
    { lit := none, ll := none, of := none, ml := none, r1 := 1, r2 := 4, r3 := 8 }
  let d ← getThe DS
  match h.content with
  | some n => dCheck (d.len == n) dSize
  | none => pure ()
  if h.checksum then
    let c ← dNum inp stop 4
    dCheck (c == (xxh64 d.out.reverse).toNat % 2 ^ 32) dChecksum

/-! ### The compressor's pass (R242) -/

def u32At (a : Array Byte) (p : Nat) : Nat := leNat ((List.range 4).map (fun i => a.getD (p + i) 0))

/-- The bytes of an extended length. -/
def lz4Ext : Nat → Nat → List Byte
  | 0, _ => []
  | f + 1, n => if n < 255 then [BitVec.ofNat 8 n] else 255 :: lz4Ext f (n - 255)

/-- One sequence of the LZ4 block format. -/
def lz4Seq (lits : List Byte) (m : Option (Nat × Nat)) : List Byte :=
  let l := lits.length
  let ln := min l 15
  let mn := match m with | some (_, len) => min (len - 4) 15 | none => 0
  [BitVec.ofNat 8 (ln * 16 + mn)] ++ (if ln = 15 then lz4Ext (l + 1) (l - 15) else []) ++ lits
    ++ (match m with
        | some (off, len) => leBytes 2 off ++ (if mn = 15 then lz4Ext (len + 1) (len - 4 - 15) else [])
        | none => [])

def matchLen (a : Array Byte) (p q lim : Nat) : Nat → Nat → Nat
  | 0, len => len
  | f + 1, len => if p + len < lim && a.getD (q + len) 0 = a.getD (p + len) 0 then matchLen a p q lim f (len + 1) else len

def sliceA (a : Array Byte) (lo hi : Nat) : List Byte := (List.range (hi - lo)).map (fun i => a.getD (lo + i) 0)

/-- R242 from position p; the output so far and its length.  It stops early when the stream would reach `n` bytes (R243). -/
def lz4Pass (a : Array Byte) (n : Nat) : Nat → Table Nat → Nat → Nat → List Byte → Option (List Byte)
  | 0, _, _, anchor, out => some (out ++ lz4Seq (sliceA a anchor n) none)
  | f + 1, tab, p, anchor, out =>
    if n < p + 12 then some (out ++ lz4Seq (sliceA a anchor n) none)
    else if out.length ≥ n then none
    else
      let h := (u32At a p * 0x9E3779B1) % 2 ^ 32 / 2 ^ 20
      let tab1 := tput tab h p
      match tget? tab h with
      | some q =>
        if p - q ≤ 65535 ∧ u32At a q = u32At a p then
          let len := matchLen a p q (n - 5) n 4
          lz4Pass a n f tab1 (p + len) (p + len) (out ++ lz4Seq (sliceA a anchor p) (some (p - q, len)))
        else lz4Pass a n f tab1 (p + 1) anchor out
      | none => lz4Pass a n f tab1 (p + 1) anchor out

/-- R242, R243: the stream, or none when it would reach the input's length. -/
def lz4Compress (bs : List Byte) : Option (List Byte) :=
  let n := bs.length
  match lz4Pass bs.toArray n (n + 1) [] 0 0 [] with
  | some o => if o.length < n then some o else none
  | none => none

end Sys2Proof.Machine
end

