-- ==== Sys2Proof/Machine/Decompress.lean ====
section
/-!
DEFINITION. The UPU's commands and the compressor (05, 09 R229–R244): the DECODE driver over the formats of `Codec`, CSBs,
COMPRESS, and the start and completion of a command.
-/
namespace Sys2Proof.Machine

open Sys2Proof

/-! ### DECODE (R229–R237) -/

structure DecD where
  format : Nat
  multi : Bool
  expect : Nat
  inAddr : Nat
  inBytes : Nat
  out : Nat
  cap : Nat
  report : Nat
  deriving DecidableEq, Repr

def DecD.ofBytes (b : List Byte) : DecD :=
  { format := fld b 0 1, multi := bit (fld b 1 1) 0, expect := fld b 4 4, inAddr := fld b 8 8, inBytes := fld b 16 4,
    out := fld b 24 8, cap := fld b 32 4, report := fld b 40 8 }

def noSize : Nat := 0xFFFFFFFF

/-- R229. -/
def decodeOk (b : List Byte) : Bool :=
  let d := DecD.ofBytes b
  decide (d.format ≤ 4) && decide (fld b 1 1 ≤ 1) && zeroAt b 2 2 && zeroAt b 20 4 && zeroAt b 36 4 && zeroAt b 48 16
  && (d.format != 0 || d.inAddr % 64 == 0) && d.out % 64 == 0 && d.report % 16 == 0
  && !(d.multi && d.format == 1)
  && !overlap d.inAddr d.inBytes d.out d.cap
  && !(d.report != 0 && overlap d.inAddr d.inBytes d.report 16)

/-- What decoding one unit gives: its code (0 when whole), its output in order, where it ends (with a CSB's padding), the
stated size it met, and how far it read. -/
structure UnitOut where
  code : Nat
  out : List Byte
  stop : Nat
  stated : Option Nat
  read : Nat
  skipped : Bool
  echo : List (List Byte) := []      -- read-backs left over
  want : Option (Nat × Nat) := none  -- the read-back it waits for (R237)
  deriving DecidableEq, Repr

def dRun {α : Type} (m : DM α) (p : Nat) (echo : List (List Byte) := []) : Except Nat α × DS :=
  (m.run).run { pos := 8 * p, out := [], len := 0, echo := echo, want := none }

/-- The mark for input that lies beyond what could be read. -/
def dUnread : Nat := 0x1000

/-- Runs a decoder whose input ends at `stop`, of which `avail` bytes could be read. -/
def dUnit {α : Type} (m : Nat → DM α) (p stop avail : Nat) (edge : Bool) (echo : List (List Byte) := []) : Except Nat α × DS :=
  if stop ≤ avail then dRun (m stop) p echo
  else
    match dRun (m avail) p echo with
    | (.error c, d) => (.error (if c = dMore ∨ (edge ∧ d.pos / 8 ≥ avail) then dUnread else c), d)
    | (.ok a, d) => (if edge then .error dUnread else .ok a, d)

def codeOf {α : Type} : Except Nat α → Nat
  | .ok _ => 0
  | .error c => c

/-- A frame of Zstandard: header and blocks; a skippable frame has no output. -/
def zUnit (inp : Array Byte) (p stop avail : Nat) (echo : List (List Byte)) : UnitOut :=
  match dUnit (zHeader inp) p stop avail false with
  | (.error c, d) => { code := c, out := [], stop := p, stated := none, read := d.pos / 8, skipped := false }
  | (.ok h, d) =>
    if h.skip then { code := 0, out := [], stop := d.pos / 8, stated := none, read := d.pos / 8, skipped := true, echo := echo }
    else
      let (r, e) := dUnit (fun n => zBody inp n h) (d.pos / 8) stop avail false echo
      let u : UnitOut := { code := codeOf r, out := e.out.reverse, stop := e.pos / 8, stated := h.content, read := e.pos / 8, skipped := false,
                           echo := e.echo, want := e.want }
      match h.content with
      | some n => if n < e.len then { u with code := dSize, out := u.out.take n, stop := p } else u
      | none => u

/-- R238: the header's checks, given its 32 bytes. -/
def csbOk (h : List Byte) (p inBytes : Nat) : Bool :=
  let fl := fld h 3 1
  let raw := bit fl 0
  let cause := bits fl 2 1
  let algo := bits fl 4 3
  let rb := fld h 4 4
  let sb := fld h 8 4
  fld h 0 2 == 0x4253 && fld h 2 1 == 1 && fld h 28 4 == (crc32c (h.take 28)).toNat && bits fl 7 6 == 0 && algo != 3
  && !(raw && (algo != 0 || sb != rb || cause == 0)) && !(!raw && cause != 0) && decide (rb ≤ 4194304)
  && decide (p + 32 + sb ≤ inBytes)

/-- R239: where the next CSB starts. -/
def csbEnd (p sb inBytes : Nat) : Nat := min (cdiv (p + 32 + sb) 64 * 64) inBytes

/-- The payload of a CSB that is not stored raw: one unit of ALGO, exactly. -/
def csbPayload (inp : Array Byte) (algo q e avail : Nat) (echo : List (List Byte)) : UnitOut :=
  let u : UnitOut :=
    if algo = 1 then zUnit inp q e avail echo
    else
      let (r, d) := if algo = 0 then dUnit (lz4Block inp) q e avail true else dUnit (deflateStream inp) q e avail false
      { code := codeOf r, out := d.out.reverse, stop := d.pos / 8, stated := none, read := d.pos / 8, skipped := false,
        echo := echo }
  let c := if u.code = dMore then dCorrupt
    else if u.code = 0 ∧ (u.skipped ∨ u.stop ≠ e) then dCorrupt
    else u.code
  { u with code := c }

def csbUnit (inp : Array Byte) (p inBytes avail : Nat) (echo : List (List Byte)) : UnitOut :=
  let bad : UnitOut := { code := 0x0112, out := [], stop := p, stated := none, read := min (p + 32) inBytes, skipped := false }
  if inBytes < p + 32 then bad
  else if avail < p + 32 then { bad with code := dUnread, read := avail }
  else
    let h := sliceA inp p (p + 32)
    if !csbOk h p inBytes then bad
    else
      let rb := fld h 4 4
      let sb := fld h 8 4
      let e := p + 32 + sb
      let done := csbEnd p sb inBytes
      let fin := fun (out : List Byte) =>
        ({ code := if out.length ≠ rb then dSize
                   else if bit (fld h 3 1) 5 && fld h 12 4 != (crc32c out).toNat then dChecksum else 0,
           out := out, stop := done, stated := some rb, read := e, skipped := false, echo := echo } : UnitOut)
      if bit (fld h 3 1) 0 then
        if avail < e then
          { code := dUnread, out := sliceA inp (p + 32) avail, stop := p, stated := some rb, read := avail, skipped := false }
        else fin (sliceA inp (p + 32) e)
      else
        let u := csbPayload inp (bits (fld h 3 1) 4 3) (p + 32) e avail echo
        if rb < u.out.length then
          { code := dSize, out := u.out.take rb, stop := p, stated := some rb, read := u.read, skipped := false }
        -- the stated size comes before any checksum of the payload's own (R234)
        else if u.code = dChecksum ∧ u.out.length < rb then { u with code := dSize, stop := p, stated := some rb }
        else if u.code ≠ 0 then { u with stop := p, stated := some rb }
        else { fin u.out with echo := u.echo }

/-- A gzip member; its stated size is met at its trailer (R233). -/
def gzipUnit (inp : Array Byte) (p stop avail : Nat) : UnitOut :=
  match dUnit (gzipHead inp) p stop avail false with
  | (.error c, d) => { code := c, out := [], stop := d.pos / 8, stated := none, read := d.pos / 8, skipped := false }
  | (.ok _, h) =>
    let (r, d) := dUnit (gzipBody inp) (h.pos / 8) stop avail false
    { code := codeOf r, out := d.out.reverse, stop := d.pos / 8, read := d.pos / 8, skipped := false,
      stated := match r with
        | .ok n => some n
        | .error c => if c = dSize ∨ c = dChecksum then some (leNat (sliceA inp (d.pos / 8 - 4) (d.pos / 8))) else none }

/-- One unit of the descriptor's format at `p`. -/
def decUnit (fmt : Nat) (inp : Array Byte) (p inBytes avail : Nat) (echo : List (List Byte)) : UnitOut :=
  match fmt with
  | 0 => csbUnit inp p inBytes avail echo
  | 2 => zUnit inp p inBytes avail echo
  | 1 =>
    let (r, d) := dUnit (lz4Block inp) p inBytes avail true
    { code := codeOf r, out := d.out.reverse, stop := d.pos / 8, stated := none, read := d.pos / 8, skipped := false }
  | 3 =>
    let (r, d) := dUnit (deflateStream inp) p inBytes avail false
    { code := codeOf r, out := d.out.reverse, stop := d.pos / 8, stated := none, read := d.pos / 8, skipped := false }
  | _ => gzipUnit inp p inBytes avail

/-- What a whole DECODE comes to, before its output is stored. -/
structure DecRun where
  code : Nat
  out : List (List Byte)     -- by unit, last first
  len : Nat
  consumed : Nat
  units : Nat
  stated : Nat
  read : Nat
  want : Option (Nat × Nat) := none   -- the read-back it waits for, by offset in the whole output (R237)
  deriving DecidableEq, Repr

/-- R235: bytes of a unit header. -/
def unitHeader (fmt : Nat) : Nat := match fmt with | 0 => 32 | 2 => 6 | 4 => 10 | _ => 1

/-- The end of the last unit: EXPECT_BYTES, then what remains (R233, R235). -/
def decFinish (d : DecD) (r : DecRun) : DecRun :=
  if d.expect ≠ noSize ∧ r.len < d.expect then { r with code := dSize }
  else if r.consumed < d.inBytes then { r with code := 0x0111 }
  else r

/-- R232–R236 over the units; `echo` are the read-backs that have been made. -/
def decLoop (d : DecD) (inp : Array Byte) (avail : Nat) : Nat → List (List Byte) → DecRun → DecRun
  | 0, _, r => r
  | f + 1, echo, r =>
    let u := decUnit d.format inp r.consumed d.inBytes avail echo
    let lim := if d.expect = noSize then u.out.length else d.expect - r.len
    let room := d.cap - r.len
    let code := if min lim room < u.out.length then (if lim ≤ room then dSize else 0x0109) else u.code
    let out := u.out.take (min lim room)
    -- a gzip member that stops before its trailer has not met its ISIZE
    let stated := if out.length < u.out.length ∧ d.format = 4 then r.stated else u.stated.getD r.stated
    let r1 : DecRun := { r with code := code, out := out :: r.out, len := r.len + out.length, stated := stated, read := u.read,
                                want := u.want.map (fun w => (r.len + w.1, w.2)) }
    if code ≠ 0 then r1
    else
      let r2 : DecRun := { r1 with consumed := u.stop, units := r.units + 1 }
      let left := d.inBytes - u.stop
      if d.multi then
        if left = 0 ∨ left < unitHeader d.format then decFinish d r2 else decLoop d inp avail f u.echo r2
      else if u.skipped then (if left = 0 then { r2 with code := dMore } else decLoop d inp avail f u.echo r2)
      else decFinish d r2

/-- Reads as many of the chunks as can be read, in order. -/
def uReadSome (u : UCtx) : List (Nat × Nat) → State → List (List Byte) → List (List Byte) × Option UErr × State
  | [], s, acc => (acc, none, s)
  | (va, n) :: t, s, acc =>
    match s.unitReadIn u va n false with
    | (.ok bs, s1) => uReadSome u t s1 (bs :: acc)
    | (.error e, s1) => (acc, some e, s1)

/-- Stores output in order; answers the bytes stored and whether all were. -/
def uWriteSome (u : UCtx) : List (Nat × Nat) → List Byte → Nat → State → Nat × Option UErr × State
  | [], _, k, s => (k, none, s)
  | (va, n) :: t, bs, k, s =>
    match s.unitWriteIn u va (bs.take n) with
    | (.ok _, s1) => uWriteSome u t (bs.drop n) (k + n) s1
    | (.error e, s1) => (k, some e, s1)

/-- R229: the checks before any input is read. -/
def decodeStart (u : UCtx) (cmd : UnitCmd) : UM DecD := do
  uCheck (cmd.arg == 0 && cmd.imm == 0) 0x0101
  let b ← uDesc u cmd.desc.toNat 64 0x0101
  uCheck (decodeOk b) 0x0101
  let d := DecD.ofBytes b
  uCheck (d.expect == noSize || decide (d.expect ≤ d.cap)) 0x0109
  return d

/-- Decodes and stores; `w` bytes are stored already.  A read-back takes place once the output before it is stored (R237).  Answers
the run, the bytes stored and what stopped it. -/
def decGo (u : UCtx) (d : DecD) (inp : Array Byte) : Nat → List (List Byte) → Nat → State → DecRun × Nat × Option UErr × State
  | 0, _, w, s => (dec0 d, w, none, s)
  | f + 1, echo, w, s =>
    let r := decLoop d inp inp.size (d.inBytes + 1) echo (dec0 d)
    let bytes := r.out.reverse.flatten
    match uWriteSome u (chunksOf (d.out + w) (bytes.length - w)) (bytes.drop w) w s with
    | (k, some e, s1) => (decLoop { d with cap := k } inp inp.size (d.inBytes + 1) echo (dec0 d), k, some e, s1)
    | (k, none, s1) =>
      match (if r.code = dWait then r.want else none) with
      | none => (r, k, none, s1)
      | some (src, n) =>
        match uRun (uRead u (d.out + src) n) s1 with
        | (.error e, s2) => (r, k, some e, s2)
        | (.ok bs, s2) => decGo u d inp f (echo ++ [bs]) k s2
where
  dec0 (d : DecD) : DecRun := { code := 0, out := [], len := 0, consumed := 0, units := 0, stated := d.expect, read := 0 }

/-- The whole DECODE: its code, the bytes written and the state (R230).  A report that cannot be written fails a DECODE that had
not stopped. -/
def decodeRun (c : Nat) (cmd : UnitCmd) (s : State) : Nat × Nat × State :=
  let u : UCtx := { agent := 1, sel := .cluster c, part := cmd.part, leg := cmd.leg }
  match uRun (decodeStart u cmd) s with
  | (.error e, s1) => (e.status 0x010A 0x010B, 0, s1)
  | (.ok d, s1) =>
    if d.inBytes = 0 then (if d.expect = 0 ∨ d.expect = noSize then (0, 0, s1) else (dSize, 0, s1))
    else
      let (acc, _, _) := uReadSome u (chunksOf d.inAddr d.inBytes) s1 []
      let inp := acc.reverse.flatten.toArray
      let (r, k, werr, s2) := decGo u d inp (d.cap + 2) [] 0 s1
      let need := if r.code = dUnread then d.inBytes else min d.inBytes (max r.read r.consumed)
      let (_, err, s3) := uReadSome u (chunksOf d.inAddr need) s2 []
      let code := if r.code = dUnread then (match err with | some e => e.status 0x010A 0x010B | none => 0x010A) else r.code
      let code1 := match werr with | some e => e.status 0x010A 0x010B | none => code
      let rep := leBytes 4 r.consumed ++ leBytes 4 k ++ leBytes 4 r.units ++ leBytes 4 r.stated
      let (h, s4) := if d.report = 0 then (.ok (), s3) else uRun (uWrite u d.report rep) s3
      let code2 := match h with
        | .error e => if code1 = 0 then e.status 0x010A 0x010B else code1
        | .ok _ => code1
      (code2, k, s4)

/-! ### UPU commands -/

def upuOn (s : State) (c : Nat) (f : UnitCmd → State → State) : State :=
  if s.unitsOn c then
    match (s.cl c).upu.running with
    | some cmd => f cmd s
    | none => s
  else s

/-- R156: ROWS_DONE of a SCAN goes no further than ROW_COUNT. -/
def scanBound (c : Nat) (cmd : UnitCmd) (s : State) : Nat × State :=
  if cmd.cmd = 1 then
    s.peekDesc { agent := 1, sel := .cluster c, part := cmd.part, leg := cmd.leg } cmd.desc.toNat 64
      (fun b => if scanOk b then (ScanD.ofBytes b).rowCount else 0)
  else (0, s)

/-- UPU_COMMAND_START: the UPU takes its oldest command. -/
def doUpuStart (c : Nat) (s : State) : State :=
  if s.unitsOn c then
    let (q, s1) := s.startUnit (s.cl c).upu (scanBound c)
    s1.setCl c { s1.cl c with upu := q }
  else s

/-- A SCAN or DECODE runs and completes; its ticket takes the status (R84, R153, R230). -/
def doUpuDone (c : Nat) (s : State) : State :=
  upuOn s c (fun cmd s =>
    let free := fun (t : State) => t.setCl c { t.cl c with upu := { (t.cl c).upu with running := none } }
    match s.leg? cmd.leg with
    | none => free s
    | some g =>
      if cmd.cmd = 1 then
        let (code, res, rows, s1) := scanRun c g cmd s
        let s2 := free (s1.setCl c { s1.cl c with upuRows := (s1.cl c).upuRows + rows })
        s2.cmdEnd cmd (ticketCode code res)
      else
        let (code, n, s1) := decodeRun c cmd s
        let s2 := free (s1.setCl c { s1.cl c with decodeOut := (s1.cl c).decodeOut + n })
        s2.cmdEnd cmd (ticketCode code n))

def execUpuCommandStart (c : Nat) (s : State) : Host.Outcome State Fault Refusal :=
  .next (s.settle [] (doUpuStart c))
def execUpuCommandDone (c : Nat) (s : State) : Host.Outcome State Fault Refusal :=
  .next (s.settle (clReqs 1 c) (doUpuDone c))

/-! ### COMPRESS (R240–R244) -/

structure CmpD where
  force : Bool
  inBytes : Nat
  inAddr : Nat
  out : Nat
  cap : Nat
  tag : Nat
  deriving DecidableEq, Repr

def CmpD.ofBytes (b : List Byte) : CmpD :=
  { force := bit (fld b 0 1) 0, inBytes := fld b 4 4, inAddr := fld b 8 8, out := fld b 16 8, cap := fld b 24 4, tag := fld b 28 4 }

def compressOk (b : List Byte) : Bool :=
  let d := CmpD.ofBytes b
  decide (fld b 0 1 ≤ 1) && zeroAt b 1 3 && zeroAt b 32 32 && decide (d.inBytes ≤ 4194304) && d.out % 64 == 0
  && !overlap d.inAddr d.inBytes d.out d.cap

/-- R238: the header that the compressor writes. -/
def csbHeader (raw : Bool) (cause rawBytes stored crc : Nat) (stamp : Word) (tag : Nat) : List Byte :=
  let h := leBytes 2 0x4253 ++ leBytes 1 1 ++ leBytes 1 (b2n raw + 2 * cause + 32) ++ leBytes 4 rawBytes ++ leBytes 4 stored
    ++ leBytes 4 crc ++ leBytes 8 stamp.toNat ++ leBytes 4 tag
  h ++ leBytes 4 (crc32c h).toNat

/-- The built-in decoder's output of a stream equals the bytes that the pass read (R243). -/
def streamHolds (stream bytes : List Byte) : Bool :=
  match dRun (lz4Block stream.toArray stream.length) 0 with
  | (.ok _, d) => d.out.reverse == bytes
  | (.error _, _) => false

/-- R243: what the compressing pass comes to: RAW_CAUSE, and with cause 0 the stream to store. -/
def compressPass (force : Bool) (bytes : List Byte) : Nat × List Byte :=
  if force then (3, [])
  else
    match lz4Compress bytes with
    | none => (1, [])
    | some st => if streamHolds st bytes then (0, st) else (2, [])

/-- R241–R244: the total length, and whether the block was stored raw.  A raw block holds the input as it is read again, unless it
was asked for, when it is read once. -/
def compressRun (u : UCtx) (cmd : UnitCmd) (stamp : Word) : UM (Nat × Bool) := do
  uCheck (cmd.arg == 0 && cmd.imm == 0) 0x0401
  let b ← uDesc u cmd.desc.toNat 64 0x0401
  uCheck (compressOk b) 0x0401
  let d := CmpD.ofBytes b
  uCheck (decide (32 + d.inBytes ≤ d.cap)) 0x0402
  let bytes ← uRead u d.inAddr d.inBytes
  let (cause, stream) := compressPass d.force bytes
  if cause = 2 then
    uModify (fun s =>
      let k := s.cl u.cluster
      (s.setCl u.cluster { k with cmpFail := satInc k.cmpFail 0xFFFF }).log 0x0404 u.cluster u.part 0)
  let held ← (if cause = 0 ∨ cause = 3 then pure bytes else uRead u d.inAddr d.inBytes : UM (List Byte))
  let body := if cause = 0 then stream else held
  let e := cdiv (32 + body.length) 64 * 64
  uWrite u (d.out + 32) body
  if e ≤ d.cap then uWrite u (d.out + 32 + body.length) (zeros (e - 32 - body.length))
  uWrite u d.out (csbHeader (cause != 0) cause d.inBytes body.length (crc32c held).toNat stamp d.tag)
  return (32 + body.length, cause != 0)

def cmpCtx (c : Nat) (cmd : UnitCmd) : UCtx := { agent := 4, sel := .cluster c, part := cmd.part, leg := cmd.leg }

/-- R245: BYTES_DONE of a phase goes no further than IN_BYTES. -/
def cmpBound (c : Nat) (cmd : UnitCmd) (s : State) : Nat × State :=
  s.peekDesc (cmpCtx c cmd) cmd.desc.toNat 64 (fun b => if compressOk b then (CmpD.ofBytes b).inBytes else 0)

/-- R243, R245: FORCE_RAW makes no compressing pass. -/
def cmpFirst (c : Nat) (cmd : UnitCmd) (s : State) : Nat :=
  (s.peekDesc (cmpCtx c cmd) cmd.desc.toNat 64 (fun b => if compressOk b && (CmpD.ofBytes b).force then 2 else 1)).1

/-- The compressor takes its oldest command (R240) and is in its first phase; the later phases follow as time passes (log entries 12,
13). -/
def doCmpStart (c : Nat) (s : State) : State :=
  match (s.cl c).cmp.running, (s.cl c).cmp.queue with
  | none, cmd :: _ =>
    if s.unitsOn c then
      let (q, s1) := s.startUnit (s.cl c).cmp (cmpBound c)
      s1.setCl c { s1.cl c with cmp := q, cmpPhase := max 1 (cmpFirst c cmd s), cmpStamp := s.fc.chrono }
    else s
  | _, _ => s

def doCmpDone (c : Nat) (s : State) : State :=
  if s.unitsOn c then
    match (s.cl c).cmp.running with
    | none => s
    | some cmd =>
      let free := fun (t : State) => t.setCl c { t.cl c with cmp := { (t.cl c).cmp with running := none }, cmpPhase := 0 }
      match uRun (compressRun (cmpCtx c cmd) cmd (s.cl c).cmpStamp) s with
      | (.error e, s1) => (free s1).cmdEnd cmd (ticketCode (e.status 0x0403 0x0404) 0)
      | (.ok (n, raw), s1) =>
        let k := s1.cl c
        let s2 := s1.setCl c (if raw then { k with cmpRaw := satInc k.cmpRaw 0xFFFFFFFF }
          else { k with cmpComp := satInc k.cmpComp 0xFFFFFFFF })
        (free s2).cmdEnd cmd (ticketCode 0 n)
  else s

def execCompressorCommandStart (c : Nat) (s : State) : Host.Outcome State Fault Refusal :=
  .next (s.settle [] (doCmpStart c))
def execCompressorCommandDone (c : Nat) (s : State) : Host.Outcome State Fault Refusal :=
  .next (s.settle (clReqs 4 c) (doCmpDone c))

end Sys2Proof.Machine
end

