-- ==== Sys2Proof/Machine/Flags.lean ====
section
/-!
DEFINITION. The integer functions of the PP (R70, R71).  R64: no scalar instruction sets a condition flag, so there is no
flag computation; carry and overflow are results of compares (04 R125).
-/
namespace Sys2Proof.Machine

open Sys2Proof

def shAmt (v : Word) : Nat := v.toNat % 64

def boolW (b : Bool) : Word := if b then 1 else 0

/-- R71: the signed quotient; all ones for a zero divisor. -/
def divS (a b : Word) : Word := if b = 0 then BitVec.allOnes 64 else a.sdiv b
def divU (a b : Word) : Word := if b = 0 then BitVec.allOnes 64 else a / b
def remS (a b : Word) : Word := if b = 0 then a else a.srem b
def remU (a b : Word) : Word := if b = 0 then a else a % b

/-- R70: high 64 bits of the signed product. -/
def mulHS (a b : Word) : Word := (a.signExtend 128 * b.signExtend 128).extractLsb' 64 64
def mulHU (a b : Word) : Word := (a.zeroExtend 128 * b.zeroExtend 128).extractLsb' 64 64

def minmaxW (k : MinMax) (a b : Word) : Word :=
  match k with
  | .min => if a.slt b then a else b
  | .max => if a.slt b then b else a
  | .minu => if a.ult b then a else b
  | .maxu => if a.ult b then b else a

/-- R70: the CRC-32C state of `a` updated with `k` bytes of `b`. -/
def crcStep (a b : Word) (k : Nat) : Word := (crcBytes (a.setWidth 32) (leBytes k b.toNat)).setWidth 64

/-- Leading zeros of a 64-bit value. -/
def clzW (a : Word) : Word :=
  BitVec.ofNat 64 (((List.range 64).find? (fun i => a.getLsbD (63 - i))).getD 64)

def ctzW (a : Word) : Word := BitVec.ofNat 64 (((List.range 64).find? (fun i => a.getLsbD i)).getD 64)

def popW (a : Word) : Word := BitVec.ofNat 64 ((List.range 64).countP (fun i => a.getLsbD i))

def bswapW (a : Word) : Word := BitVec.ofNat 64 (leNat (leBytes 8 a.toNat).reverse)

def addW32 (a b : Word) : Word := (a.setWidth 32 + b.setWidth 32).signExtend 64
def subW32 (a b : Word) : Word := (a.setWidth 32 - b.setWidth 32).signExtend 64

end Sys2Proof.Machine
end

