-- ==== Sys2Proof/Machine/PpScalar.lean ====
section
/-!
DEFINITION. Scalar instructions of a PP that touch registers alone: OP, immediates, UIMM and PGADDR, branches and jumps
(03 R67–R71).
-/
namespace Sys2Proof.Machine

open Sys2Proof

/-! ### OP (MAJOR 0x00) -/

/-- A binary OP function: RS3 must be zero. -/
def opBin (n fn : Nat) (f : RF) (g : Word → Word → Word) (s : State) : State :=
  ppRun s n (fun s =>
    if f.rs3 ≠ 0 then s.illegal n (encR 0 fn f)
    else s.wr n f.rd (g ((s.pp n).getX f.rs1) ((s.pp n).getX f.rs2)))

/-- A unary OP function: RS2 and RS3 must be zero. -/
def opUn (n fn : Nat) (f : RF) (g : Word → Word) (s : State) : State :=
  ppRun s n (fun s =>
    if f.rs3 ≠ 0 ∨ f.rs2 ≠ 0 then s.illegal n (encR 0 fn f)
    else s.wr n f.rd (g ((s.pp n).getX f.rs1)))

def minmaxFn : MinMax → Nat
  | .min => 0x0C
  | .max => 0x0D
  | .minu => 0x0E
  | .maxu => 0x0F

/-- R70: rs1 + rs2. -/
def execAdd (n : Nat) (f : RF) (s : State) : Host.Outcome State Fault Refusal := .next (opBin n 0x00 f (fun a b => a + b) s)

/-- R70: rs1 − rs2. -/
def execSub (n : Nat) (f : RF) (s : State) : Host.Outcome State Fault Refusal := .next (opBin n 0x01 f (fun a b => a - b) s)

/-- R70: rs1 & rs2. -/
def execAnd (n : Nat) (f : RF) (s : State) : Host.Outcome State Fault Refusal := .next (opBin n 0x02 f (fun a b => a &&& b) s)

/-- R70: rs1 | rs2. -/
def execOr (n : Nat) (f : RF) (s : State) : Host.Outcome State Fault Refusal := .next (opBin n 0x03 f (fun a b => a ||| b) s)

/-- R70: rs1 ^ rs2. -/
def execXor (n : Nat) (f : RF) (s : State) : Host.Outcome State Fault Refusal := .next (opBin n 0x04 f (fun a b => a ^^^ b) s)

/-- R70: rs1 & ~rs2. -/
def execAndn (n : Nat) (f : RF) (s : State) : Host.Outcome State Fault Refusal := .next (opBin n 0x05 f (fun a b => a &&& ~~~ b) s)

/-- R70: rs1 shifted left. -/
def execSll (n : Nat) (f : RF) (s : State) : Host.Outcome State Fault Refusal := .next (opBin n 0x06 f (fun a b => a <<< shAmt b) s)

/-- R70: rs1 shifted right, zero fill. -/
def execSrl (n : Nat) (f : RF) (s : State) : Host.Outcome State Fault Refusal := .next (opBin n 0x07 f (fun a b => a >>> shAmt b) s)

/-- R70: rs1 shifted right, sign fill. -/
def execSra (n : Nat) (f : RF) (s : State) : Host.Outcome State Fault Refusal := .next (opBin n 0x08 f (fun a b => a.sshiftRight (shAmt b)) s)

/-- R70: rs1 rotated right. -/
def execRor (n : Nat) (f : RF) (s : State) : Host.Outcome State Fault Refusal := .next (opBin n 0x09 f (fun a b => a.rotateRight (shAmt b)) s)

/-- R70: 1 when rs1 < rs2 signed. -/
def execSlt (n : Nat) (f : RF) (s : State) : Host.Outcome State Fault Refusal := .next (opBin n 0x0A f (fun a b => boolW (a.slt b)) s)

/-- R70: 1 when rs1 < rs2 unsigned. -/
def execSltu (n : Nat) (f : RF) (s : State) : Host.Outcome State Fault Refusal := .next (opBin n 0x0B f (fun a b => boolW (a.ult b)) s)

/-- R70: signed or unsigned minimum or maximum. -/
def execMinMax (n : Nat) (k : MinMax) (f : RF) (s : State) : Host.Outcome State Fault Refusal :=
  .next (opBin n (minmaxFn k) f (minmaxW k) s)

/-- R70: low 64 bits of the product. -/
def execMul (n : Nat) (f : RF) (s : State) : Host.Outcome State Fault Refusal := .next (opBin n 0x10 f (fun a b => a * b) s)

/-- R70: high 64 bits of the signed product. -/
def execMulh (n : Nat) (f : RF) (s : State) : Host.Outcome State Fault Refusal := .next (opBin n 0x11 f (mulHS) s)

/-- R70: high 64 bits of the unsigned product. -/
def execMulhu (n : Nat) (f : RF) (s : State) : Host.Outcome State Fault Refusal := .next (opBin n 0x12 f (mulHU) s)

/-- R70: signed quotient, R71. -/
def execDiv (n : Nat) (f : RF) (s : State) : Host.Outcome State Fault Refusal := .next (opBin n 0x13 f (divS) s)

/-- R70: unsigned quotient, R71. -/
def execDivu (n : Nat) (f : RF) (s : State) : Host.Outcome State Fault Refusal := .next (opBin n 0x14 f (divU) s)

/-- R70: signed remainder, R71. -/
def execRem (n : Nat) (f : RF) (s : State) : Host.Outcome State Fault Refusal := .next (opBin n 0x15 f (remS) s)

/-- R70: unsigned remainder, R71. -/
def execRemu (n : Nat) (f : RF) (s : State) : Host.Outcome State Fault Refusal := .next (opBin n 0x16 f (remU) s)

/-- R70: CRC-32C over 4 bytes. -/
def execCrc32cw (n : Nat) (f : RF) (s : State) : Host.Outcome State Fault Refusal := .next (opBin n 0x17 f (fun a b => crcStep a b 4) s)

/-- R70: CRC-32C over 8 bytes. -/
def execCrc32c (n : Nat) (f : RF) (s : State) : Host.Outcome State Fault Refusal := .next (opBin n 0x1F f (fun a b => crcStep a b 8) s)

/-- R70: count of leading zeros. -/
def execClz (n : Nat) (f : RF) (s : State) : Host.Outcome State Fault Refusal := .next (opUn n 0x18 f clzW s)

/-- R70: count of trailing zeros. -/
def execCtz (n : Nat) (f : RF) (s : State) : Host.Outcome State Fault Refusal := .next (opUn n 0x19 f ctzW s)

/-- R70: count of one bits. -/
def execPopc (n : Nat) (f : RF) (s : State) : Host.Outcome State Fault Refusal := .next (opUn n 0x1A f popW s)

/-- R70: the eight bytes reversed. -/
def execBswap (n : Nat) (f : RF) (s : State) : Host.Outcome State Fault Refusal := .next (opUn n 0x1B f bswapW s)

/-- R70: rs1 when X[rs3] ≠ 0, else rs2. -/
def execSel (n : Nat) (f : RF) (s : State) : Host.Outcome State Fault Refusal :=
  .next (ppRun s n (fun s =>
    s.wr n f.rd (if (s.pp n).getX f.rs3 ≠ 0 then (s.pp n).getX f.rs1 else (s.pp n).getX f.rs2)))

/-- R70: 32-bit add, sign-extended. -/
def execAddw (n : Nat) (f : RF) (s : State) : Host.Outcome State Fault Refusal := .next (opBin n 0x1D f addW32 s)

/-- R70: 32-bit subtract, sign-extended. -/
def execSubw (n : Nat) (f : RF) (s : State) : Host.Outcome State Fault Refusal := .next (opBin n 0x1E f subW32 s)

/-! ### Immediates (MAJOR 0x01–0x09) -/

def opImm (n : Nat) (f : IF) (g : Word → Word → Word) (s : State) : State :=
  ppRun s n (fun s => s.wr n f.rd (g ((s.pp n).getX f.rs1) (imm16 f.imm)))

/-- R68: X[rs1] + IMM16. -/
def execAddi (n : Nat) (f : IF) (s : State) : Host.Outcome State Fault Refusal := .next (opImm n f (fun a b => a + b) s)

/-- R68: X[rs1] & IMM16. -/
def execAndi (n : Nat) (f : IF) (s : State) : Host.Outcome State Fault Refusal := .next (opImm n f (fun a b => a &&& b) s)

/-- R68: X[rs1] | IMM16. -/
def execOri (n : Nat) (f : IF) (s : State) : Host.Outcome State Fault Refusal := .next (opImm n f (fun a b => a ||| b) s)

/-- R68: X[rs1] ^ IMM16. -/
def execXori (n : Nat) (f : IF) (s : State) : Host.Outcome State Fault Refusal := .next (opImm n f (fun a b => a ^^^ b) s)

/-- R68: 1 when X[rs1] < IMM16 signed. -/
def execSlti (n : Nat) (f : IF) (s : State) : Host.Outcome State Fault Refusal := .next (opImm n f (fun a b => boolW (a.slt b)) s)

/-- R68: 1 when X[rs1] < IMM16 unsigned. -/
def execSltiu (n : Nat) (f : IF) (s : State) : Host.Outcome State Fault Refusal := .next (opImm n f (fun a b => boolW (a.ult b)) s)

/-- R68 SHI: IMM16[5:0] is the amount, IMM16[7:6] the kind. -/
def shiVal (i : BitVec 16) (a : Word) : Word :=
  let k := i.toNat % 64
  match bits i.toNat 7 6 with
  | 0 => a <<< k
  | 1 => a >>> k
  | 2 => a.sshiftRight k
  | _ => a.rotateRight k

/-- R68 SHI: IMM16[15:8] must be zero. -/
def execShi (n : Nat) (f : IF) (s : State) : Host.Outcome State Fault Refusal :=
  .next (ppRun s n (fun s =>
    if bits f.imm.toNat 15 8 ≠ 0 then s.illegal n (encI 0x07 f)
    else s.wr n f.rd (shiVal f.imm ((s.pp n).getX f.rs1))))

/-- R68 UIMM. -/
def execUimm (n : Nat) (f : JF) (s : State) : Host.Outcome State Fault Refusal :=
  .next (ppRun s n (fun s => s.wr n f.rd (imm21 f.imm <<< 12)))

/-- R68 PGADDR. -/
def execPgaddr (n : Nat) (f : JF) (s : State) : Host.Outcome State Fault Refusal :=
  .next (ppRun s n (fun s => s.wr n f.rd (((s.pp n).pc &&& ~~~ 0xFFF#64) + (imm21 f.imm <<< 12))))

/-! ### Branches and jumps (R67) -/

def branch (n : Nat) (f : BF) (c : Word → Word → Bool) (s : State) : State :=
  ppRun s n (fun s =>
    let p := s.pp n
    s.setPp n (p.advance (if c (p.getX f.rs1) (p.getX f.rs2) then disp16 f.imm else 4)))

/-- R67, R68: BEQ. -/
def execBeq (n : Nat) (f : BF) (s : State) : Host.Outcome State Fault Refusal := .next (branch n f (fun a b => a == b) s)

/-- R67, R68: BNE. -/
def execBne (n : Nat) (f : BF) (s : State) : Host.Outcome State Fault Refusal := .next (branch n f (fun a b => a != b) s)

/-- R67, R68: BLT. -/
def execBlt (n : Nat) (f : BF) (s : State) : Host.Outcome State Fault Refusal := .next (branch n f (fun a b => a.slt b) s)

/-- R67, R68: BGE. -/
def execBge (n : Nat) (f : BF) (s : State) : Host.Outcome State Fault Refusal := .next (branch n f (fun a b => !(a.slt b)) s)

/-- R67, R68: BLTU. -/
def execBltu (n : Nat) (f : BF) (s : State) : Host.Outcome State Fault Refusal := .next (branch n f (fun a b => a.ult b) s)

/-- R67, R68: BGEU. -/
def execBgeu (n : Nat) (f : BF) (s : State) : Host.Outcome State Fault Refusal := .next (branch n f (fun a b => !(a.ult b)) s)

/-- R68 JAL: X[rd] := PC + 4, then jump. -/
def execJal (n : Nat) (f : JF) (s : State) : Host.Outcome State Fault Refusal :=
  .next (ppRun s n (fun s =>
    let p := s.pp n
    s.setPp n ((p.setX f.rd (p.pc + 4)).advance (disp21 f.imm))))

/-- R68 JALR: the target is (X[rs1] + IMM16) with bits [1:0] cleared. -/
def execJalr (n : Nat) (f : IF) (s : State) : Host.Outcome State Fault Refusal :=
  .next (ppRun s n (fun s =>
    let p := s.pp n
    let q := p.setX f.rd (p.pc + 4)
    s.setPp n { q with pc := (p.getX f.rs1 + imm16 f.imm) &&& ~~~ 3#64, blocked := .none, hostSeen := [] }))

end Sys2Proof.Machine
end

