-- ==== Sys2Proof/Machine/PpUnit.lean ====
section
/-!
DEFINITION. Operator commands of a PP (03 R81–R85): the submission of a command with its ticket, and WAIT, TEST and DRAIN.
-/
namespace Sys2Proof.Machine

open Sys2Proof

/-! ### Tickets -/

def unitUPU : Nat := 0
def unitHU : Nat := 1
def unitSU : Nat := 2
def unitCMP : Nat := 3
def unitDM : Nat := 4
def unitASA : Nat := 5
def unitDU : Nat := 6

def Leg.held (g : Leg) (k : Nat) : Bool := (tgetD g.tickets k { gen := 0, held := false, unit := 0, status := none }).held
def Leg.gen (g : Leg) (k : Nat) : Nat := (tgetD g.tickets k { gen := 0, held := false, unit := 0, status := none }).gen

/-- R82: the lowest-numbered slot that the leg does not hold. -/
def Leg.freeSlot (g : Leg) : Option Nat := (List.range 16).find? (fun k => !g.held k)

/-- R82: the ticket of a slot. -/
def ticketWord (slot unit gen : Nat) : Word := toW (slot + unit * 2 ^ 8 + gen * 2 ^ 16)

/-- R82: the leg takes a slot. -/
def Leg.takeTicket (g : Leg) (k unit : Nat) : Leg :=
  { g with tickets := tput g.tickets k { gen := (g.gen k + 1) % 65536, held := true, unit := unit, status := none } }

/-- R83, R84: the slot is free. -/
def Leg.dropTicket (g : Leg) (k : Nat) : Leg :=
  match tget? g.tickets k with
  | some t => { g with tickets := tput g.tickets k { t with held := false, status := none } }
  | none => g

/-- R84: the held slot that a ticket value names.  The whole value is compared: one whose slot and generation match while its UNIT or zero
bits differ names none (DESIGN CHOICE, log entry 26). -/
def Leg.ticketSlot (g : Leg) (w : Word) : Option (Nat × Ticket) :=
  let k := w.toNat % 16
  match tget? g.tickets k with
  | some t => if t.held && w == ticketWord k t.unit t.gen then some (k, t) else none
  | none => none

/-! ### Queues -/

/-- R82: the unit's queue has no room for the command. -/
def State.unitFull (s : State) (c unit l cmd : Nat) (arg : Word) : Bool :=
  let k := s.cl c
  let full := fun (q : List UnitCmd) => decide (8 ≤ q.length)
  if unit = unitUPU then full k.upu.queue
  else if unit = unitHU then full k.hu.queue
  else if unit = unitSU then full k.su.queue
  else if unit = unitCMP then full k.cmp.queue
  else if unit = unitASA then
    let a := s.asaSet (s.asaQueueOf l cmd arg)
    if cmd = 3 then full a.uq else full a.sq
  else if unit = unitDU then decide (256 ≤ s.duQueue.length)
  else false

def CmdUnit.put (q : CmdUnit) (u : UnitCmd) : CmdUnit := { q with queue := q.queue ++ [u] }

/-- The digest job of a command (R247). -/
def State.duJob (s : State) (u : UnitCmd) : DuJob :=
  let ceil := (s.part u.part).ceiling
  { leg := u.leg, part := u.part, slot := u.slot, desc := u.desc, cls := min (min u.arg.toNat 3) ceil,
    capped := decide (ceil < u.arg.toNat), bad := decide (3 < u.arg.toNat) || u.imm != 0, preempted := false, start := none,
    ctx := none, order := u.order }

/-- The unit accepts the command. -/
def State.unitAccept (s : State) (c unit : Nat) (u : UnitCmd) : State :=
  let k := s.cl c
  if unit = unitUPU then s.setCl c { k with upu := k.upu.put u }
  else if unit = unitHU then s.setCl c { k with hu := k.hu.put u }
  else if unit = unitSU then s.setCl c { k with su := k.su.put u }
  else if unit = unitCMP then s.setCl c { k with cmp := k.cmp.put u }
  else if unit = unitDM then
    if u.cmd = 1 then
      match s.dmRun c u with
      | (some st, s1) => s1.endTicket u.leg u.slot st
      | (none, s1) => s1
    else
      match s.dmKick c u with
      | (st, s1) => s1.endTicket u.leg u.slot st
  else if unit = unitASA then
    let b := s.asaQueueOf u.leg u.cmd u.arg
    let a := s.asaSet b
    s.setAsaSet b (if u.cmd = 3 then { a with uq := a.uq ++ [u] } else { a with sq := a.sq ++ [u] })
  else { s with duQueue := s.duQueue ++ [s.duJob u] }

/-- Writes X[rd] and goes on behind a 64-bit form. -/
def State.wr8 (s : State) (n : Nat) (rd : BitVec 5) (v : Word) : State := s.setPp n (((s.pp n).setX rd v).advance 8)

/-- R82, R83: the submission of a well-formed command whose descriptor address has been translated. -/
def State.submit (s : State) (n l : Nat) (g : Leg) (unit cmd : Nat) (f : CF) : State :=
  let c := ppCluster n
  let arg := (s.pp n).getX f.rs2
  match g.freeSlot with
  | none => s.trap n trapTicket (encC unit cmd f)
  | some k =>
    if s.unitFull c unit l cmd arg then s.block n .queueFull
    else
      let g1 := g.takeTicket k unit
      let u : UnitCmd :=
        { leg := l, part := g.entry.part, slot := k, pp := n, cmd := cmd, desc := (s.pp n).getX f.rs1, arg := arg, imm := f.imm,
          order := s.order }
      let s1 := { s.setLeg l g1 with order := s.order + 1 }
      (s1.wr8 n f.rd (ticketWord k unit (g1.gen k))).unitAccept c unit u

/-- An operator command that a leg submits; with no leg the PP has no ticket to give, and X[rd] is a free value (log entry 12). -/
def unitOp (n unit cmd : Nat) (f : CF) (reads : Bool) (s : State) : State :=
  ppRun2 s n (fun s =>
    match s.ppRunning n with
    | none => let (k, s1) := s.free; s1.wr8 n f.rd (toW k)
    | some (l, g) =>
      if reads then
        match s.ppAddr n ((s.pp n).getX f.rs1).toNat needR trapTlbLoad with
        | (.error t, _) => t
        | (.ok _, s1) => s1.submit n l g unit cmd f
      else s.submit n l g unit cmd f)

/-- Who reads host memory in a RUN: the channel, for its descriptor, and its walker. -/
def dmReqs (n ch : Nat) : List HostReq := [.channel (ppCluster n) ch, .walk (ppCluster n)]

def execScan (n : Nat) (f : CF) (s : State) : Host.Outcome State Fault Refusal := .next (unitOp n unitUPU 1 f true s)
def execDecode (n : Nat) (f : CF) (s : State) : Host.Outcome State Fault Refusal := .next (unitOp n unitUPU 2 f true s)
def execBuild (n : Nat) (f : CF) (s : State) : Host.Outcome State Fault Refusal := .next (unitOp n unitHU 1 f true s)
def execProbe (n : Nat) (f : CF) (s : State) : Host.Outcome State Fault Refusal := .next (unitOp n unitHU 2 f true s)
def execAggregate (n : Nat) (f : CF) (s : State) : Host.Outcome State Fault Refusal := .next (unitOp n unitHU 3 f true s)
def execFlush (n : Nat) (f : CF) (s : State) : Host.Outcome State Fault Refusal := .next (unitOp n unitHU 4 f true s)
def execMerge (n : Nat) (f : CF) (s : State) : Host.Outcome State Fault Refusal := .next (unitOp n unitSU 1 f true s)
def execTopk (n : Nat) (f : CF) (s : State) : Host.Outcome State Fault Refusal := .next (unitOp n unitSU 2 f true s)
def execRestore (n : Nat) (f : CF) (s : State) : Host.Outcome State Fault Refusal := .next (unitOp n unitSU 3 f true s)
def execCompress (n : Nat) (f : CF) (s : State) : Host.Outcome State Fault Refusal := .next (unitOp n unitCMP 1 f true s)
def execRun (n : Nat) (f : CF) (s : State) : Host.Outcome State Fault Refusal :=
  .next (s.settle (dmReqs n ((s.pp n).getX f.rs2).toNat) (unitOp n unitDM 1 f true))
/-- R295: KICK reads nothing at RS1. -/
def execKick (n : Nat) (f : CF) (s : State) : Host.Outcome State Fault Refusal := .next (unitOp n unitDM 2 f false s)
def execSearch (n : Nat) (f : CF) (s : State) : Host.Outcome State Fault Refusal := .next (unitOp n unitASA 1 f true s)
def execNext (n : Nat) (f : CF) (s : State) : Host.Outcome State Fault Refusal := .next (unitOp n unitASA 2 f true s)
def execUpdate (n : Nat) (f : CF) (s : State) : Host.Outcome State Fault Refusal := .next (unitOp n unitASA 3 f true s)
def execDigest (n : Nat) (f : CF) (s : State) : Host.Outcome State Fault Refusal := .next (unitOp n unitDU 1 f true s)

/-! ### WAIT, TEST and DRAIN (R84) -/

def staleTicket : Word := 0xFFFF#64
def busyTicket : Word := 0xFFFE#64

/-- A well-formed WAIT, TEST or DRAIN. -/
def collectOp (n cmd : Nat) (unit : BitVec 5) (f : CF) (g : State → State) (s : State) : State :=
  ppRun2 s n (fun s =>
    if 6 < unit.toNat ∨ f.rs2 ≠ 0 ∨ f.imm ≠ 0 then s.illegal n (encC unit.toNat cmd f) else g s)

/-- The ticket's status has been read: the slot is free, and so is the channel of a RUN (R288). -/
def State.freeTicket (s : State) (l k unit : Nat) : State :=
  match s.leg? l with
  | some g =>
    let s1 := s.setLeg l (g.dropTicket k)
    if unit = unitDM then s1.dmFreeSlot l k else s1
  | none => s

/-- WAIT, and TEST of a command that has completed; `busy` is what an outstanding command comes to. -/
def ticketOp (n : Nat) (f : CF) (busy : State → State) (s : State) : State :=
  match s.ppRunning n with
  | none => s.wr8 n f.rd staleTicket
  | some (l, g) =>
    match g.ticketSlot ((s.pp n).getX f.rs1) with
    | none => s.wr8 n f.rd staleTicket
    | some (k, t) =>
      match t.status with
      | some st => (s.wr8 n f.rd st).freeTicket l k t.unit
      | none => busy s

def doWait (n : Nat) (unit : BitVec 5) (f : CF) (s : State) : State :=
  collectOp n 0x3F unit f (ticketOp n f (fun s => s.block n .wait)) s

def doTest (n : Nat) (unit : BitVec 5) (f : CF) (s : State) : State :=
  collectOp n 0x3E unit f (ticketOp n f (fun s => s.wr8 n f.rd busyTicket)) s

/-- The held slots of a unit. -/
def Leg.unitSlots (g : Leg) (unit : Nat) : List (Nat × Ticket) := g.tickets.filter (fun e => e.2.held && e.2.unit == unit)

def doDrain (n : Nat) (unit : BitVec 5) (f : CF) (s : State) : State :=
  collectOp n 0x3D unit f (fun s =>
    match s.ppRunning n with
    | none => s.wr8 n f.rd 0
    | some (l, g) =>
      let ts := g.unitSlots unit.toNat
      if ts.any (fun e => e.2.status.isNone) then s.block n .drain
      else ts.foldl (fun t e => t.freeTicket l e.1 unit.toNat) (s.wr8 n f.rd (toW ts.length))) s

def execWait (n : Nat) (unit : BitVec 5) (f : CF) (s : State) : Host.Outcome State Fault Refusal := .next (doWait n unit f s)
def execTest (n : Nat) (unit : BitVec 5) (f : CF) (s : State) : Host.Outcome State Fault Refusal := .next (doTest n unit f s)
def execDrain (n : Nat) (unit : BitVec 5) (f : CF) (s : State) : Host.Outcome State Fault Refusal := .next (doDrain n unit f s)

end Sys2Proof.Machine
end

