-- ==== Sys2Proof/Machine/PpVector.lean ====
section
/-!
DEFINITION. Vector instructions of a PP (04): configuration, element operations, compares, reductions, compress and expand, element
access, mask operations and the control registers.  An element is a number below 2^width.
-/
namespace Sys2Proof.Machine

open Sys2Proof

/-! ### Elements of groups (R99, R100, R109) -/

/-- Element `i` of width `w` of the group that starts at register `base`. -/
def Pp.elt (p : Pp) (base w i : Nat) : Nat :=
  bits (p.getV (base + i * w / 2048)).toNat (i * w % 2048 + w - 1) (i * w % 2048)

/-- `v` with the `w` bits at `lo` replaced. -/
def putBits (v : VReg) (lo w x : Nat) : VReg :=
  let m : VReg := BitVec.ofNat 2048 ((2 ^ w - 1) * 2 ^ lo)
  (v &&& ~~~ m) ||| BitVec.ofNat 2048 (x % 2 ^ w * 2 ^ lo)

def Pp.setElt (p : Pp) (base w i x : Nat) : Pp :=
  let r := base + i * w / 2048
  p.setV r (putBits (p.getV r) (i * w % 2048) w x)

def Pp.mbit (p : Pp) (m i : Nat) : Bool := (p.getM m).getLsbD i
def Pp.setMbit (p : Pp) (m i : Nat) (b : Bool) : Pp := p.setM m (putBits (p.getM m) i 1 (b2n b))

/-- The configuration in force. -/
structure VC where
  sew : Nat
  g : Nat
  w : Nat          -- element width: SEW, or 128 under DEC
  vl : Nat
  tz : Bool
  mz : Bool
  dec : Bool
  deriving DecidableEq, Repr

def VC.max (v : VC) : Nat := v.g * 2048 / v.w

def cfgSew (c : Nat) : Nat := 8 * 2 ^ bits c 1 0
def cfgG (c : Nat) : Nat := 2 ^ bits c 3 2
def cfgW (c : Nat) : Nat := if bit c 6 then 128 else cfgSew c
def cfgMax (c : Nat) : Nat := cfgG c * 2048 / cfgW c

/-- R103. -/
def cfgValid (c : Nat) : Bool := decide (c < 128) && !(bit c 6 && (bits c 1 0 != 3 || bits c 3 2 == 0))

def Pp.vc (p : Pp) : VC :=
  let c := p.vcfg.toNat
  { sew := cfgSew c, g := cfgG c, w := cfgW c, vl := bits p.vl.toNat 11 0, tz := bit c 4, mz := bit c 5, dec := bit c 6 }

/-! ### Encodings and the VECTOR trap (R104, R105) -/

def encV (maj fn : Nat) (f : VF) : Word :=
  toW (maj + f.vd.toNat * 2 ^ 6 + f.vs1.toNat * 2 ^ 11 + f.vs2.toNat * 2 ^ 16 + f.ms.toNat * 2 ^ 21 + b2n f.men * 2 ^ 24
    + b2n f.s * 2 ^ 25 + fn * 2 ^ 26)

/-- FUNC6 of an element form and of a memory form. -/
def fnX (f : VF) (code : Nat) : Nat := code + b2n f.x * 32
def fnM (f : VF) (mode : Nat) : Nat := mode + f.md.toNat * 8

def vsCfg : Nat := 1
def vsAlign : Nat := 2
def vsOverlap : Nat := 3
def vsType : Nat := 4
def vsMask : Nat := 5
def vsRange : Nat := 6

/-- One of several faults that hold at once, by a free value (log entry 12). -/
def State.pickSub (s : State) : List Nat → Nat × State
  | [] => (0, s)
  | [a] => (a, s)
  | a :: l =>
    let (k, s1) := s.free
    ((a :: l).getD (k % (l.length + 1)) a, s1)

/-- The VECTOR trap of the faults found. -/
def State.vecFault (s : State) (n : Nat) (w : Word) (subs : List Nat) : State :=
  let (k, s1) := s.pickSub subs
  s1.trap n trapVector (w + toW (k * 2 ^ 32))

/-- A vector instruction: its encoding, its constraint faults, its effect. -/
def vecOp (n : Nat) (w : Word) (ill : Bool) (subs : VC → List Nat) (g : VC → State → State) (s : State) : State :=
  ppRun s n (fun s =>
    if ill then s.illegal n w
    else
      let v := (s.pp n).vc
      match subs v with
      | [] => g v s
      | l => s.vecFault n w l)

def sub (c : Bool) (k : Nat) : List Nat := if c then [k] else []

/-- GROUP_ALIGN of a group operand. -/
def misGroup (v : VC) (r : BitVec 5) : Bool := r.toNat % v.g != 0

/-- The instruction has changed registers of the PP alone. -/
def State.vecDone (s : State) (n : Nat) (p : Pp) : State := s.setPp n (p.advance 4)

/-! ### Numbers -/

def toI (w v : Nat) : Int := if 2 ^ (w - 1) ≤ v then (v : Int) - ((2 ^ w : Nat) : Int) else (v : Int)
def ofI (w : Nat) (x : Int) : Nat := (x % ((2 ^ w : Nat) : Int)).toNat

/-- Saturates to a signed or unsigned width. -/
def satS (w : Nat) (x : Int) : Nat := ofI w (max (-((2 ^ (w - 1) : Nat) : Int)) (min (((2 ^ (w - 1) : Nat) : Int) - 1) x))
def satU (w : Nat) (x : Int) : Nat := (max 0 (min (((2 ^ w : Nat) : Int) - 1) x)).toNat

def minmaxE (k : MinMax) (w a b : Nat) : Nat :=
  match k with
  | .min => if toI w a < toI w b then a else b
  | .max => if toI w b < toI w a then a else b
  | .minu => min a b
  | .maxu => max a b

def logicE (k : Logic) (w a b : Nat) : Nat :=
  match k with
  | .and => a &&& b
  | .or => a ||| b
  | .xor => a ^^^ b
  | .andn => a &&& (b ^^^ (2 ^ w - 1))

def shiftE (k : ShiftOp) (w a b : Nat) : Nat :=
  match k with
  | .sll => (a <<< (b % w)) % 2 ^ w
  | .srl => a >>> (b % w)
  | .sra => ofI w (toI w a >>> (b % w))

def satE (k : SatOp) (w a b : Nat) : Nat :=
  match k with
  | .add => satS w (toI w a + toI w b)
  | .addu => satU w ((a : Int) + (b : Int))
  | .sub => satS w (toI w a - toI w b)
  | .subu => satU w ((a : Int) - (b : Int))

/-- The operand X[rs2] of FUNC6[5] = 1: truncated to SEW, sign-extended to 128 bits under DEC (R123). -/
def VC.scalar (v : VC) (x : Word) : Nat := if v.dec then (x.signExtend 128).toNat else x.toNat % 2 ^ v.w

/-! ### Element operations (R107, R108, R110, R123, R124) -/

/-- Which elements an element form has: active, masked off, tail. -/
def vecActive (p : Pp) (f : VF) (i : Nat) : Bool := !f.men || p.mbit f.ms.toNat i

/-- Writes the destination group of a Rexigal-L form: `res i` of an active element. -/
def vecWriteL (v : VC) (base : Nat) (act : Nat → Bool) (res : Nat → Nat) (p : Pp) : Pp :=
  (List.range v.max).foldl (fun q i =>
    if i < v.vl then
      (if act i then q.setElt base v.w i (res i) else if v.mz then q.setElt base v.w i 0 else q)
    else if v.tz then q.setElt base v.w i 0 else q) p

/-- Writes the destination register of a Rexigal-S form. -/
def vecWriteS (v : VC) (r : Nat) (act : Nat → Bool) (res : Nat → Nat) (p : Pp) : Pp :=
  let q := (List.range (256 / v.sew)).foldl (fun q i =>
    if act i then q.setElt r v.sew i (res i) else if v.mz then q.setElt r v.sew i 0 else q) p
  q.setV r (q.getV r &&& BitVec.ofNat 2048 (2 ^ 256 - 1))

/-- Operand b of element `i`. -/
def vecB (v : VC) (p : Pp) (f : VF) (i : Nat) : Nat :=
  if f.x then v.scalar (p.getX f.vs2) else p.elt f.vs2.toNat v.w i

/-- What a form accepts. -/
structure VForm where
  maj : Nat
  code : Nat
  sOk : Bool         -- has an S form
  dec : Bool         -- accepts DEC
  fp : Bool          -- floating point
  use1 : Bool        -- VS1 is a group
  use2 : Bool        -- VS2 or X[rs2] is an operand
  deriving DecidableEq, Repr

/-- R103–R105, R109, R110, R124: faults of the type and of group alignment. -/
def VForm.faults (o : VForm) (f : VF) (dst : Bool) (v : VC) : List Nat :=
  sub ((v.dec && (f.s || !o.dec)) || (o.fp && decide (v.sew < 32))) vsType
  ++ sub (!f.s && ((dst && misGroup v f.vd) || (o.use1 && misGroup v f.vs1) || (o.use2 && !f.x && misGroup v f.vs2))) vsAlign

def VForm.word (o : VForm) (f : VF) : Word := encV o.maj (fnX f o.code) f

/-- Fields that must be zero: those of an operand that the form does not have. -/
def VForm.ill (o : VForm) (f : VF) : Bool :=
  (f.s && !o.sOk) || (!o.use1 && f.vs1 != 0) || (!o.use2 && (f.vs2 != 0 || f.x))

/-- An element operation; `fn w i a b d` is the result from the element number, the operands and the old vd[i]. -/
def eltOp (n : Nat) (o : VForm) (f : VF) (fn : Nat → Nat → Nat → Nat → Nat → Nat) (s : State) : State :=
  vecOp n (o.word f) (o.ill f) (o.faults f true) (fun v s =>
    let p := s.pp n
    let vd := f.vd.toNat
    let res := fun i => fn v.w i (p.elt f.vs1.toNat v.w i) (vecB v p f i) (p.elt vd v.w i)
    if f.s then s.vecDone n (vecWriteS v vd (vecActive p f) res p)
    else if v.vl = 0 then s.vecDone n p
    else s.vecDone n (vecWriteL v vd (vecActive p f) res p)) s

/-- An integer form with two operands. -/
def intForm (code : Nat) (dec : Bool) : VForm :=
  { maj := 0x33, code := code, sOk := true, dec := dec, fp := false, use1 := true, use2 := true }

def int2 (n code : Nat) (dec : Bool) (f : VF) (g : Nat → Nat → Nat → Nat) (s : State) : State :=
  eltOp n (intForm code dec) f (fun w _ a b _ => g w a b) s

def logicCode : Logic → Nat
  | .and => 0
  | .or => 1
  | .xor => 2
  | .andn => 3

def shiftCode : ShiftOp → Nat
  | .sll => 0
  | .srl => 1
  | .sra => 2

def minmaxCode : MinMax → Nat
  | .min => 0
  | .max => 1
  | .minu => 2
  | .maxu => 3

def satCode : SatOp → Nat
  | .add => 0
  | .addu => 1
  | .sub => 2
  | .subu => 3

def signCode : Sign → Nat
  | .signed => 0
  | .unsigned => 1

def altCode : Alt → Nat
  | .fst => 0
  | .snd => 1

def minmaxDec : MinMax → Bool
  | .min => true
  | .max => true
  | _ => false

def mulHE (k : Sign) (w a b : Nat) : Nat :=
  match k with
  | .signed => ofI w ((toI w a * toI w b) >>> w)
  | .unsigned => (a * b) >>> w

def doVadd (n : Nat) (f : VF) (s : State) : State := int2 n 0x00 true f (fun w a b => (a + b) % 2 ^ w) s
def doVsub (n : Nat) (f : VF) (s : State) : State := int2 n 0x01 true f (fun w a b => ofI w ((a : Int) - (b : Int))) s
def doVrsub (n : Nat) (f : VF) (s : State) : State := int2 n 0x02 true f (fun w a b => ofI w ((b : Int) - (a : Int))) s
def doVlogic (n : Nat) (k : Logic) (f : VF) (s : State) : State := int2 n (0x03 + logicCode k) false f (logicE k) s
def doVshift (n : Nat) (k : ShiftOp) (f : VF) (s : State) : State := int2 n (0x07 + shiftCode k) false f (shiftE k) s
def doVminmax (n : Nat) (k : MinMax) (f : VF) (s : State) : State := int2 n (0x0A + minmaxCode k) (minmaxDec k) f (minmaxE k) s
def doVmul (n : Nat) (f : VF) (s : State) : State := int2 n 0x0E false f (fun w a b => a * b % 2 ^ w) s
def doVmulh (n : Nat) (k : Sign) (f : VF) (s : State) : State := int2 n (0x0F + signCode k) false f (mulHE k) s
def doVsat (n : Nat) (k : SatOp) (f : VF) (s : State) : State := int2 n (0x11 + satCode k) false f (satE k) s

/-- R123 VMERGE: M[MS] selects; every element is written. -/
def doVmerge (n : Nat) (f : VF) (s : State) : State :=
  let o := intForm 0x15 true
  vecOp n (o.word f) (o.ill f) (fun v => o.faults f true v ++ sub (!f.men) vsMask) (fun v s =>
    let p := s.pp n
    let res := fun i => if p.mbit f.ms.toNat i then p.elt f.vs1.toNat v.w i else vecB v p f i
    if f.s then s.vecDone n (vecWriteS v f.vd.toNat (fun _ => true) res p)
    else if v.vl = 0 then s.vecDone n p
    else s.vecDone n (vecWriteL v f.vd.toNat (fun _ => true) res p)) s

def doVmv (n : Nat) (f : VF) (s : State) : State :=
  eltOp n { maj := 0x33, code := 0x16, sOk := true, dec := true, fp := false, use1 := false, use2 := true } f
    (fun _ _ _ b _ => b) s

def doVid (n : Nat) (f : VF) (s : State) : State :=
  eltOp n { maj := 0x33, code := 0x17, sOk := false, dec := false, fp := false, use1 := false, use2 := false } f
    (fun w i _ _ _ => i % 2 ^ w) s

/-! ### Floating point (R124) -/

def fpForm (code : Nat) (two : Bool) : VForm :=
  { maj := 0x34, code := code, sOk := true, dec := false, fp := true, use1 := true, use2 := two }

def isWide (w : Nat) : Bool := w == 64

def fpTwo (n code : Nat) (f : VF) (g : Bool → Nat → Nat → Nat) (s : State) : State :=
  eltOp n (fpForm code true) f (fun w _ a b _ => g (isWide w) a b) s

def fpOne (n code : Nat) (f : VF) (g : Nat → Nat → Nat) (s : State) : State :=
  eltOp n (fpForm code false) f (fun w _ a _ _ => g w a) s

def farithCode : FArith → Nat
  | .add => 0
  | .sub => 1
  | .mul => 2
  | .div => 3

def farithE (k : FArith) (wide : Bool) (a b : Nat) : Nat :=
  match k with
  | .add => fAdd wide a b
  | .sub => fSub wide a b
  | .mul => fMul wide a b
  | .div => fDiv wide a b

def doVfarith (n : Nat) (k : FArith) (f : VF) (s : State) : State := fpTwo n (farithCode k) f (farithE k) s
def doVfminmax (n : Nat) (k : Alt) (f : VF) (s : State) : State :=
  fpTwo n (0x04 + altCode k) f (fun wide a b => fMinMax wide (k == .snd) a b) s
def doVfma (n : Nat) (f : VF) (s : State) : State :=
  eltOp n (fpForm 0x06 true) f (fun w _ a b d => fFma (isWide w) a b d) s
def doVfsqrt (n : Nat) (f : VF) (s : State) : State := fpOne n 0x07 f (fun w a => fSqrt (isWide w) a) s
def doVfcvtF (n : Nat) (k : Sign) (f : VF) (s : State) : State :=
  fpOne n (0x08 + signCode k) f (fun w a => fOfInt (isWide w) (if k = .signed then toI w a else (a : Int))) s
def doVfcvtI (n : Nat) (k : Sign) (f : VF) (s : State) : State :=
  fpOne n (0x0A + signCode k) f (fun w a =>
    if k = .signed then ofI w (fToInt (isWide w) a (-((2 ^ (w - 1) : Nat) : Int)) (((2 ^ (w - 1) : Nat) : Int) - 1))
    else (fToInt (isWide w) a 0 (((2 ^ w : Nat) : Int) - 1)).toNat) s
def doVfabsneg (n : Nat) (k : Alt) (f : VF) (s : State) : State :=
  fpOne n (0x0C + altCode k) f (fun w a => if k = .fst then a % 2 ^ (w - 1) else a ^^^ 2 ^ (w - 1)) s

/-! ### Compares (R125) -/

/-- A compare; `rel w a b` is the relation. -/
def cmpOp (n code : Nat) (dec fp : Bool) (f : VF) (rel : Nat → Nat → Nat → Bool) (s : State) : State :=
  let o : VForm := { maj := 0x35, code := code, sOk := true, dec := dec, fp := fp, use1 := true, use2 := true }
  vecOp n (o.word f) (o.ill f || bits f.vd.toNat 4 3 != 0) (o.faults f false) (fun v s =>
    let p := s.pp n
    let md := f.vd.toNat
    let res := fun i => rel v.w (p.elt f.vs1.toNat v.w i) (vecB v p f i)
    let k := if f.s then 256 / v.sew else v.vl
    if !f.s && v.vl == 0 then s.vecDone n p
    else
      let q := (List.range k).foldl (fun q i =>
        if vecActive p f i then q.setMbit md i (res i) else if v.mz then q.setMbit md i false else q) p
      s.vecDone n (if f.s || v.tz then q.setM md (q.getM md &&& BitVec.ofNat 2048 (2 ^ k - 1)) else q)) s

def signDec : Sign → Bool
  | .signed => true
  | .unsigned => false

/-- An ordered relation, signed or unsigned. -/
def ordRel (k : Sign) (r : Int → Int → Bool) (w a b : Nat) : Bool :=
  match k with
  | .signed => r (toI w a) (toI w b)
  | .unsigned => r (a : Int) (b : Int)

def outS (w : Nat) (x : Int) : Bool := toI w (ofI w x) != x

def frelCode : FRel → Nat
  | .eq => 0
  | .ne => 1
  | .lt => 2
  | .le => 3
  | .gt => 4
  | .ge => 5

def frelE (k : FRel) (wide : Bool) (a b : Nat) : Bool :=
  if fIsNan wide a || fIsNan wide b then k == .ne
  else
    let x := fKeyV wide a
    let y := fKeyV wide b
    match k with
    | .eq => x == y
    | .ne => x != y
    | .lt => decide (x < y)
    | .le => decide (x ≤ y)
    | .gt => decide (y < x)
    | .ge => decide (y ≤ x)

def doVcmpEq (n : Nat) (k : Alt) (f : VF) (s : State) : State :=
  cmpOp n (altCode k) true false f (fun _ a b => if k = .fst then a == b else a != b) s
def doVcmpLt (n : Nat) (k : Sign) (f : VF) (s : State) : State :=
  cmpOp n (0x02 + signCode k) (signDec k) false f (ordRel k (fun x y => decide (x < y))) s
def doVcmpLe (n : Nat) (k : Sign) (f : VF) (s : State) : State :=
  cmpOp n (0x04 + signCode k) (signDec k) false f (ordRel k (fun x y => decide (x ≤ y))) s
def doVcmpGt (n : Nat) (k : Sign) (f : VF) (s : State) : State :=
  cmpOp n (0x06 + signCode k) (signDec k) false f (ordRel k (fun x y => decide (y < x))) s
def doVcmpGe (n : Nat) (k : Sign) (f : VF) (s : State) : State :=
  cmpOp n (0x08 + signCode k) (signDec k) false f (ordRel k (fun x y => decide (y ≤ x))) s
def doVcmpAddo (n : Nat) (f : VF) (s : State) : State := cmpOp n 0x0A true false f (fun w a b => outS w (toI w a + toI w b)) s
def doVcmpSubo (n : Nat) (f : VF) (s : State) : State := cmpOp n 0x0B true false f (fun w a b => outS w (toI w a - toI w b)) s
def doVcmpF (n : Nat) (k : FRel) (f : VF) (s : State) : State :=
  cmpOp n (0x10 + frelCode k) false true f (fun w a b => frelE k (isWide w) a b) s

/-! ### Reductions (R126) -/

def redForm (code : Nat) (dec fp use2 : Bool) : VForm :=
  { maj := 0x36, code := code, sOk := false, dec := dec, fp := fp, use1 := true, use2 := use2 }

/-- The active elements of VS1 in ascending order. -/
def vecList (v : VC) (p : Pp) (f : VF) : List Nat :=
  ((List.range v.vl).filter (vecActive p f)).map (fun i => p.elt f.vs1.toNat v.w i)

/-- A reduction into element 0 of VD. -/
def redOp (n code : Nat) (dec fp : Bool) (f : VF) (g : Nat → Nat → Nat → Nat) (s : State) : State :=
  let o := redForm code dec fp true
  vecOp n (o.word f) (o.ill f || f.x) (o.faults f true) (fun v s =>
    let p := s.pp n
    if v.vl = 0 then s.vecDone n p
    else
      let r := (vecList v p f).foldl (g v.w) (p.elt f.vs2.toNat v.w 0)
      s.vecDone n (vecWriteL { v with vl := 1 } f.vd.toNat (fun _ => true) (fun _ => r) p)) s

def rlogicCode : RLogic → Nat
  | .and => 0
  | .or => 1
  | .xor => 2

def rlogicE (k : RLogic) (a b : Nat) : Nat :=
  match k with
  | .and => a &&& b
  | .or => a ||| b
  | .xor => a ^^^ b

def doVrsum (n : Nat) (f : VF) (s : State) : State := redOp n 0x00 true false f (fun w a b => (a + b) % 2 ^ w) s
def doVrminmax (n : Nat) (k : MinMax) (f : VF) (s : State) : State :=
  redOp n (0x01 + minmaxCode k) (minmaxDec k) false f (minmaxE k) s
def doVrlogic (n : Nat) (k : RLogic) (f : VF) (s : State) : State := redOp n (0x05 + rlogicCode k) false false f (fun _ a b => rlogicE k a b) s
def doVfrsum (n : Nat) (f : VF) (s : State) : State := redOp n 0x08 false true f (fun w a b => fAdd (isWide w) a b) s
def doVfrminmax (n : Nat) (k : Alt) (f : VF) (s : State) : State :=
  redOp n (0x09 + altCode k) false true f (fun w a b => fMinMax (isWide w) (k == .snd) a b) s

/-- VRSUMX and VRSUMXS: the sum goes into X[rd]. -/
def doVrsumx (n : Nat) (k : Alt) (f : VF) (s : State) : State :=
  let o := redForm (0x0B + altCode k) false false false
  vecOp n (o.word f) (o.ill f) (o.faults f false) (fun v s =>
    let p := s.pp n
    if v.vl = 0 then s.vecDone n p
    else
      let r := ((vecList v p f).map (fun (a : Nat) => if k = .fst then (a : Int) else toI v.w a)).foldl (· + ·) (0 : Int)
      s.vecDone n (p.setX f.vd (toW (ofI 64 r)))) s

/-! ### Compress, expand and element access (R126, R127) -/

/-- The groups of VD and VS1 share a register. -/
def vdMeets (v : VC) (f : VF) : Bool := rangesMeet f.vd.toNat v.g f.vs1.toNat v.g

def packFaults (o : VForm) (f : VF) (v : VC) : List Nat :=
  o.faults f true v ++ sub (!f.men) vsMask ++ sub (vdMeets v f) vsOverlap

/-- VCOMPRESS and VEXPAND use no second source. -/
def packForm (code : Nat) : VForm :=
  { maj := 0x36, code := code, sOk := false, dec := true, fp := false, use1 := true, use2 := true }

def doVcompress (n : Nat) (f : VF) (s : State) : State :=
  let o := packForm 0x10
  vecOp n (o.word f) (f.s || f.x) (packFaults { o with use2 := false } f) (fun v s =>
    let p := s.pp n
    if v.vl = 0 then s.vecDone n p
    else
      let l := vecList v p f
      s.vecDone n (vecWriteL { v with vl := l.length } f.vd.toNat (fun _ => true) (fun i => l.getD i 0) p)) s

def doVexpand (n : Nat) (f : VF) (s : State) : State :=
  let o := packForm 0x11
  vecOp n (o.word f) (f.s || f.x) (packFaults { o with use2 := false } f) (fun v s =>
    let p := s.pp n
    if v.vl = 0 then s.vecDone n p
    else
      let below := fun i => (List.range i).countP (vecActive p f)
      s.vecDone n (vecWriteL v f.vd.toNat (vecActive p f) (fun i => p.elt f.vs1.toNat v.w (below i)) p)) s

/-- An unmasked form: MS and MEN are zero. -/
def maskFields (f : VF) : Bool := f.men || f.ms != 0

def doVextract (n : Nat) (f : VF) (s : State) : State :=
  let o := redForm 0x12 false false true
  vecOp n (o.word f) (f.s || f.x || maskFields f)
    (fun v => sub v.dec vsType ++ sub (misGroup v f.vs1) vsAlign) (fun v s =>
    let p := s.pp n
    let i := (p.getX f.vs2).toNat
    if v.vl = 0 then s.vecDone n p
    else s.vecDone n (p.setX f.vd (if i < v.vl then toW (p.elt f.vs1.toNat v.w i) else 0))) s

def doVinsert (n : Nat) (f : VF) (s : State) : State :=
  let o := redForm 0x13 false false true
  vecOp n (o.word f) (f.s || f.x || maskFields f)
    (fun v => sub v.dec vsType ++ sub (misGroup v f.vd) vsAlign) (fun v s =>
    let p := s.pp n
    let i := (p.getX f.vs2).toNat
    s.vecDone n (if i < v.vl then p.setElt f.vd.toNat v.w i (p.getX f.vs1).toNat else p)) s

/-! ### Mask operations (R128) -/

/-- A field that names no mask register. -/
def notMask (r : BitVec 5) : Bool := bits r.toNat 4 3 != 0

/-- A logical form over the bits below VL. -/
def maskOp (n code : Nat) (f : VF) (ill : Bool) (g : VReg → VReg → VReg) (s : State) : State :=
  vecOp n (encV 0x37 (fnX f code) f)
    (f.s || f.x || maskFields f || notMask f.vd || notMask f.vs1 || notMask f.vs2 || ill) (fun v => sub v.dec vsType) (fun v s =>
    let p := s.pp n
    if v.vl = 0 then s.vecDone n p
    else
      let low : VReg := BitVec.ofNat 2048 (2 ^ v.vl - 1)
      let r := g (p.getM f.vs1.toNat) (p.getM f.vs2.toNat) &&& low
      let old := p.getM f.vd.toNat &&& ~~~ low
      s.vecDone n (p.setM f.vd.toNat (if v.tz then r else r ||| old))) s

def doMlogic (n : Nat) (k : Logic) (f : VF) (s : State) : State :=
  maskOp n (logicCode k) f false (fun a b => match k with | .and => a &&& b | .or => a ||| b | .xor => a ^^^ b | .andn => a &&& ~~~ b) s
def doMnot (n : Nat) (f : VF) (s : State) : State := maskOp n 0x04 f (f.vs2 != 0) (fun a _ => ~~~ a) s

/-- MPOPC and MFIRST: the set bits below VL, with MEN those also set in M[MS]. -/
def maskRead (n code : Nat) (f : VF) (g : List Nat → Word) (s : State) : State :=
  vecOp n (encV 0x37 (fnX f code) f) (f.s || f.x || notMask f.vs1) (fun v => sub v.dec vsType) (fun v s =>
    let p := s.pp n
    if v.vl = 0 then s.vecDone n p
    else
      s.vecDone n (p.setX f.vd (g ((List.range v.vl).filter (fun i => p.mbit f.vs1.toNat i && vecActive p f i))))) s

def doMpopc (n : Nat) (f : VF) (s : State) : State := maskRead n 0x05 f (fun l => toW l.length) s
def doMfirst (n : Nat) (f : VF) (s : State) : State := maskRead n 0x06 f (fun l => match l with | [] => BitVec.allOnes 64 | i :: _ => toW i) s

/-! ### Configuration and control registers (R102, R103, R122) -/

/-- VCFGI and VCFGR with the configuration `c`; `w` is the instruction word. -/
def State.configure (s : State) (n : Nat) (w : Word) (rd rs1 : BitVec 5) (c : Nat) : State :=
  if !cfgValid c then s.vecFault n w [vsCfg]
  else
    let p := s.pp n
    let vl := min (p.getX rs1).toNat (cfgMax c)
    s.vecDone n (Pp.setX { p with vcfg := BitVec.ofNat 32 c, vl := BitVec.ofNat 32 vl } rd (toW vl))

def doVcfgi (n : Nat) (f : IF) (s : State) : State :=
  ppRun s n (fun s =>
    if bits f.imm.toNat 15 7 ≠ 0 then s.illegal n (encI 0x30 f)
    else s.configure n (encI 0x30 f) f.rd f.rs1 f.imm.toNat)

def doVcfgr (n : Nat) (f : VF) (s : State) : State :=
  ppRun s n (fun s =>
    let w := encV 0x37 (fnX f 0x12) f
    if f.s || f.x || maskFields f then s.illegal n w
    else s.configure n w f.vd f.vs1 (bits ((s.pp n).getX f.vs2).toNat 31 0))

/-- Control register `k`. -/
def Pp.vctl (p : Pp) (k : Nat) : BitVec 32 :=
  match k with
  | 0 => p.vl
  | 1 => p.vcfg
  | 2 => p.vresume
  | _ => p.vfault

/-- R122.  Whether VRD, VWR and VCFGR raise VECTOR TYPE under DEC = 1 no table says; they run (DESIGN CHOICE, log entry 27). -/
def doVrd (n : Nat) (f : VF) (s : State) : State :=
  ppRun s n (fun s =>
    if f.s || f.x || maskFields f || decide (3 < f.vs1.toNat) then s.illegal n (encV 0x37 (fnX f 0x10) f)
    else s.wr n f.vd (((s.pp n).vctl f.vs1.toNat).setWidth 64))

/-- R122.  A pilot-mode write of VCFG that makes VLMAX smaller than VL leaves VL, and a later load runs past its group (DESIGN CHOICE,
log entry 27). -/
def doVwr (n : Nat) (f : VF) (s : State) : State :=
  ppRun s n (fun s =>
    let w := encV 0x37 (fnX f 0x11) f
    let k := f.vs1.toNat
    let p := s.pp n
    let v : BitVec 32 := (p.getX f.vs2).setWidth 32
    if f.s || f.x || maskFields f || decide (3 < k) then s.illegal n w
    else if (s.ppLeg n).isSome && k != 3 then s.trap n trapPrivileged w
    else
      match k with
      | 0 => s.vecDone n { p with vl := BitVec.ofNat 32 (min (v.toNat % 4096) (cfgMax p.vcfg.toNat)) }
      | 1 => if cfgValid v.toNat then s.vecDone n { p with vcfg := v } else s.vecFault n w [vsCfg]
      | 2 => s.vecDone n { p with vresume := v &&& 0xFFF#32 }
      | _ => s.vecDone n { p with vfault := v &&& 0x17FFF#32 })

def execVcfgi (n : Nat) (f : IF) (s : State) : Host.Outcome State Fault Refusal := .next (doVcfgi n f s)
def execVcfgr (n : Nat) (f : VF) (s : State) : Host.Outcome State Fault Refusal := .next (doVcfgr n f s)
def execVadd (n : Nat) (f : VF) (s : State) : Host.Outcome State Fault Refusal := .next (doVadd n f s)
def execVsub (n : Nat) (f : VF) (s : State) : Host.Outcome State Fault Refusal := .next (doVsub n f s)
def execVrsub (n : Nat) (f : VF) (s : State) : Host.Outcome State Fault Refusal := .next (doVrsub n f s)
def execVlogic (n : Nat) (k : Logic) (f : VF) (s : State) : Host.Outcome State Fault Refusal := .next (doVlogic n k f s)
def execVshift (n : Nat) (k : ShiftOp) (f : VF) (s : State) : Host.Outcome State Fault Refusal := .next (doVshift n k f s)
def execVminmax (n : Nat) (k : MinMax) (f : VF) (s : State) : Host.Outcome State Fault Refusal := .next (doVminmax n k f s)
def execVmul (n : Nat) (f : VF) (s : State) : Host.Outcome State Fault Refusal := .next (doVmul n f s)
def execVmulh (n : Nat) (k : Sign) (f : VF) (s : State) : Host.Outcome State Fault Refusal := .next (doVmulh n k f s)
def execVsat (n : Nat) (k : SatOp) (f : VF) (s : State) : Host.Outcome State Fault Refusal := .next (doVsat n k f s)
def execVmerge (n : Nat) (f : VF) (s : State) : Host.Outcome State Fault Refusal := .next (doVmerge n f s)
def execVmv (n : Nat) (f : VF) (s : State) : Host.Outcome State Fault Refusal := .next (doVmv n f s)
def execVid (n : Nat) (f : VF) (s : State) : Host.Outcome State Fault Refusal := .next (doVid n f s)
def execVfarith (n : Nat) (k : FArith) (f : VF) (s : State) : Host.Outcome State Fault Refusal := .next (doVfarith n k f s)
def execVfminmax (n : Nat) (k : Alt) (f : VF) (s : State) : Host.Outcome State Fault Refusal := .next (doVfminmax n k f s)
def execVfma (n : Nat) (f : VF) (s : State) : Host.Outcome State Fault Refusal := .next (doVfma n f s)
def execVfsqrt (n : Nat) (f : VF) (s : State) : Host.Outcome State Fault Refusal := .next (doVfsqrt n f s)
def execVfcvtF (n : Nat) (k : Sign) (f : VF) (s : State) : Host.Outcome State Fault Refusal := .next (doVfcvtF n k f s)
def execVfcvtI (n : Nat) (k : Sign) (f : VF) (s : State) : Host.Outcome State Fault Refusal := .next (doVfcvtI n k f s)
def execVfabsneg (n : Nat) (k : Alt) (f : VF) (s : State) : Host.Outcome State Fault Refusal := .next (doVfabsneg n k f s)
def execVcmpEq (n : Nat) (k : Alt) (f : VF) (s : State) : Host.Outcome State Fault Refusal := .next (doVcmpEq n k f s)
def execVcmpLt (n : Nat) (k : Sign) (f : VF) (s : State) : Host.Outcome State Fault Refusal := .next (doVcmpLt n k f s)
def execVcmpLe (n : Nat) (k : Sign) (f : VF) (s : State) : Host.Outcome State Fault Refusal := .next (doVcmpLe n k f s)
def execVcmpGt (n : Nat) (k : Sign) (f : VF) (s : State) : Host.Outcome State Fault Refusal := .next (doVcmpGt n k f s)
def execVcmpGe (n : Nat) (k : Sign) (f : VF) (s : State) : Host.Outcome State Fault Refusal := .next (doVcmpGe n k f s)
def execVcmpAddo (n : Nat) (f : VF) (s : State) : Host.Outcome State Fault Refusal := .next (doVcmpAddo n f s)
def execVcmpSubo (n : Nat) (f : VF) (s : State) : Host.Outcome State Fault Refusal := .next (doVcmpSubo n f s)
def execVcmpF (n : Nat) (k : FRel) (f : VF) (s : State) : Host.Outcome State Fault Refusal := .next (doVcmpF n k f s)
def execVrsum (n : Nat) (f : VF) (s : State) : Host.Outcome State Fault Refusal := .next (doVrsum n f s)
def execVrminmax (n : Nat) (k : MinMax) (f : VF) (s : State) : Host.Outcome State Fault Refusal := .next (doVrminmax n k f s)
def execVrlogic (n : Nat) (k : RLogic) (f : VF) (s : State) : Host.Outcome State Fault Refusal := .next (doVrlogic n k f s)
def execVfrsum (n : Nat) (f : VF) (s : State) : Host.Outcome State Fault Refusal := .next (doVfrsum n f s)
def execVfrminmax (n : Nat) (k : Alt) (f : VF) (s : State) : Host.Outcome State Fault Refusal := .next (doVfrminmax n k f s)
def execVrsumx (n : Nat) (k : Alt) (f : VF) (s : State) : Host.Outcome State Fault Refusal := .next (doVrsumx n k f s)
def execVcompress (n : Nat) (f : VF) (s : State) : Host.Outcome State Fault Refusal := .next (doVcompress n f s)
def execVexpand (n : Nat) (f : VF) (s : State) : Host.Outcome State Fault Refusal := .next (doVexpand n f s)
def execVextract (n : Nat) (f : VF) (s : State) : Host.Outcome State Fault Refusal := .next (doVextract n f s)
def execVinsert (n : Nat) (f : VF) (s : State) : Host.Outcome State Fault Refusal := .next (doVinsert n f s)
def execMlogic (n : Nat) (k : Logic) (f : VF) (s : State) : Host.Outcome State Fault Refusal := .next (doMlogic n k f s)
def execMnot (n : Nat) (f : VF) (s : State) : Host.Outcome State Fault Refusal := .next (doMnot n f s)
def execMpopc (n : Nat) (f : VF) (s : State) : Host.Outcome State Fault Refusal := .next (doMpopc n f s)
def execMfirst (n : Nat) (f : VF) (s : State) : Host.Outcome State Fault Refusal := .next (doMfirst n f s)
def execVrd (n : Nat) (f : VF) (s : State) : Host.Outcome State Fault Refusal := .next (doVrd n f s)
def execVwr (n : Nat) (f : VF) (s : State) : Host.Outcome State Fault Refusal := .next (doVwr n f s)

end Sys2Proof.Machine
end

