-- ==== Sys2Proof/Machine/PpVecMem.lean ====
section
/-!
DEFINITION. Vector loads and stores (04 R111–R121): modes, element addresses, mid-vector traps and VRESUME, first-fault truncation.
-/
namespace Sys2Proof.Machine

open Sys2Proof

/-! ### One element or segment -/

/-- R118 in leg mode: the trap of the scalar rule; R121 in pilot mode: BUS_ERROR. -/
def State.vecStop (s : State) (n va : Nat) (x : AccStop) (write : Bool) : State :=
  match x with
  | .wait => s
  | .err e =>
    if (s.ppLeg n).isSome then s.takeErr n va e write (if write then trapTlbStore else trapTlbLoad)
    else s.trap n trapBus (toW va)

/-- The fields of a segment: `k` reads of `ew` bytes from `va`; all are read before any is written to a register.  PTVAL of a fault in a
later field is that field's address, not the segment's: R118 says the address of element k, and R113 makes the segment one
element, but a miss handled at the segment's address would never end (DESIGN CHOICE, log entry 27). -/
def State.segRead (s : State) (n ew : Nat) : Nat → Nat → Except (AccStop × Nat) (List Nat) × State
  | 0, _ => (.ok [], s)
  | k + 1, va =>
    match s.accLoad n va ew false with
    | (.error x, s1) => (.error (x, va), s1)
    | (.ok bs, s1) =>
      match s1.segRead n ew k (va + ew) with
      | (.ok l, s2) => (.ok (leNat bs :: l), s2)
      | r => r

/-- R111, R113: a store of `ew` bytes at `va` can take place: its address, the port's link, and in pilot mode the register it
reaches. -/
def State.storeCheck (s : State) (n ew va : Nat) : Except AccStop Unit × State :=
  if va % ew ≠ 0 then (.error (.err .align), s)
  else
    match s.ppCheck n va needW with
    | (.error e, s1) => (.error (.err e), s1)
    | (.ok a, s1) =>
      match region s1 a.dpa with
      | .host => if (s1.hp (s1.ppPort n)).linkUp then (.ok (), s1) else (.error (.err (s1.refusedErr n)), s1)
      | .reg => if s1.regProbe n (a.dpa - regBase) (8 * ew) true = .ok 0 then (.ok (), s1) else s1.accWrite n a (zeros ew)
      | _ =>
        match s1.l2Meets (ppCluster n) (a.dpa / 64) with
        | (true, s2) => (.error (.err .data), s2)
        | (false, s2) => (.ok (), s2)

/-- R113: every field of a segment can be stored, before any is. -/
def State.segCheck (s : State) (n ew : Nat) : Nat → Nat → Except (AccStop × Nat) Unit × State
  | 0, _ => (.ok (), s)
  | k + 1, va =>
    match s.storeCheck n ew va with
    | (.error x, s1) => (.error (x, va), s1)
    | (.ok _, s1) => s1.segCheck n ew k (va + ew)

/-- A store of `ew` bytes that `storeCheck` has let through: what the stores of the same element do to the line does not stop it. -/
def State.storePut (s : State) (n va : Nat) (bs : List Byte) : Except AccStop Unit × State :=
  match s.ppCheck n va needW with
  | (.error e, s1) => (.error (.err e), s1)
  | (.ok a, s1) =>
    match region s1 a.dpa with
    | .host => s1.accWrite n a bs
    | .reg => s1.accWrite n a bs
    | _ => (.ok (), s1.memStore n a bs)

def State.segStore (s : State) (n ew : Nat) : List Nat → Nat → Except (AccStop × Nat) Unit × State
  | [], _ => (.ok (), s)
  | v :: t, va =>
    match s.storePut n va (leBytes ew v) with
    | (.error x, s1) => (.error (x, va), s1)
    | (.ok _, s1) => s1.segStore n ew t (va + ew)

def State.segWrite (s : State) (n ew va : Nat) (vs : List Nat) : Except (AccStop × Nat) Unit × State :=
  match s.segCheck n ew vs.length va with
  | (.error x, s1) => (.error x, s1)
  | (.ok _, s1) => s1.segStore n ew vs va

/-! ### The elements in order (R116–R119) -/

/-- How the elements of a form end. -/
inductive VEnd where
  | done
  | stop
  | trunc (k kind : Nat)
  deriving DecidableEq, Repr

/-- VFAULT.KIND. -/
def faultKind : AccErr → Nat
  | .miss => 1
  | .data => 3
  | _ => 2

/-- In leg mode the element that comes next stands in VRESUME; in pilot mode a wait keeps it beside VRESUME (R121). -/
def State.markElt (s : State) (n i : Nat) (leg : Bool) : State :=
  s.setPp n (if leg then { s.pp n with vresume := BitVec.ofNat 32 i } else { s.pp n with eltAt := i })

/-- The operands of a vector load or store as the instruction found them. -/
structure VMem where
  n : Nat
  leg : Bool
  ew : Nat           -- bytes of an element in memory
  w : Nat            -- its width in bits
  nf : Nat           -- fields of a segment
  g : Nat
  vd : Nat
  base : Nat
  kind : Nat         -- 0 unit stride, 1 stride, 2 index
  stride : Nat
  scale : Nat
  idx : List Nat     -- the index group's elements
  chk : Bool         -- each element's alignment is checked as it is reached
  ff : Bool
  mz : Bool
  act : List Bool    -- active elements
  deriving DecidableEq, Repr

/-- The address of element or segment `i`, modulo 2^64. -/
def VMem.addr (m : VMem) (i : Nat) : Nat :=
  (m.base + (match m.kind with
    | 0 => i * m.nf * m.ew
    | 1 => i * m.stride
    | _ => m.idx.getD i 0 * m.scale)) % 2 ^ 64

/-- Writes field values into element `i` of the groups from VD on. -/
def VMem.put (m : VMem) (i : Nat) (vs : List Nat) (p : Pp) : Pp :=
  (vs.zipIdx).foldl (fun q (x : Nat × Nat) => q.setElt (m.vd + x.2 * m.g) m.w i x.1) p

def VMem.get (m : VMem) (i : Nat) (p : Pp) : List Nat := (List.range m.nf).map (fun k => p.elt (m.vd + k * m.g) m.w i)

/-- R120: the leg is stopped and no read of it is out, so the instruction stops at this element. -/
def State.stopsHere (s : State) (n : Nat) : Bool :=
  match s.ppLeg n with
  | some (_, g) => g.stopped && decide ((s.pp n).blocked ≠ .hostLoad)
  | none => false

/-- R119: while a VLDFF waits it keeps whether an active element has been met. -/
def State.waitElt (s : State) (n : Nat) (first : Bool) : State := s.setPp n { s.pp n with ffPast := !first }

/-- An element that has been performed is not read again, and the next makes reads of its own (R116). -/
def Pp.eltDone (p : Pp) : Pp := { p with hostSeen := [], hostLeft := [] }

/-- Loads the elements of a list; `first` until an active one has been met. -/
def vecLoads (m : VMem) : Bool → List Nat → State → VEnd × State
  | _, [], s => (.done, s)
  | first, i :: t, s =>
    let s0 := s.markElt m.n i m.leg
    if s.stopsHere m.n then (.stop, s0)
    else if !m.act.getD i false then
      vecLoads m first t (if m.mz then s0.setPp m.n (m.put i (List.replicate m.nf 0) (s0.pp m.n)) else s0)
    else
      match s0.segRead m.n m.ew m.nf (m.addr i) with
      | (.ok vs, s1) => vecLoads m false t (s1.setPp m.n ((m.put i vs (s1.pp m.n)).eltDone))
      | (.error (.wait, _), s1) => (.stop, s1.waitElt m.n first)
      | (.error (.err e, va), s1) =>
        if m.ff && !first then (.trunc i (faultKind e), s1) else (.stop, s1.vecStop m.n va (.err e) false)

def vecStores (m : VMem) : List Nat → State → VEnd × State
  | [], s => (.done, s)
  | i :: t, s =>
    let s0 := s.markElt m.n i m.leg
    if !m.act.getD i false then vecStores m t s0
    else
      match s0.segWrite m.n m.ew (m.addr i) (m.get i (s0.pp m.n)) with
      | (.ok _, s1) => vecStores m t s1
      | (.error (x, va), s1) => (.stop, s1.vecStop m.n va x true)

/-- R117: where the elements begin.  In pilot mode they begin at 0, and one that waited goes on where it was (R121). -/
def State.vecStart (s : State) (n : Nat) : Nat := if (s.ppLeg n).isSome then bits (s.pp n).vresume.toNat 11 0 else (s.pp n).eltAt

/-- The tail of the groups from VD on, under `vl`; elements below `start` are not written (R117). -/
def VMem.tail (m : VMem) (start vl max : Nat) (p : Pp) : Pp :=
  ((List.range max).filter (fun i => decide (vl ≤ i) && decide (start ≤ i))).foldl (fun q i => m.put i (List.replicate m.nf 0) q) p

/-- The instruction completes; in leg mode VRESUME clears. -/
def State.vecEnd (s : State) (n : Nat) (leg : Bool) (p : Pp) : State :=
  s.vecDone n (if leg then { p with vresume := 0 } else p)

/-! ### Forms -/

/-- A Rexigal-L load or store of modes 0 to 5 (R112, R113, R115). -/
structure MForm where
  maj : Nat
  mode : Nat
  load : Bool
  dec : Bool
  kind : Nat
  deriving DecidableEq, Repr

def MForm.word (o : MForm) (f : VF) : Word := encV o.maj (fnM f o.mode) f

/-- R112: registers that the index group spans. -/
def idxSpan (v : VC) (f : VF) : Nat := max 1 (v.g * (8 * 2 ^ bits f.md.toNat 1 0) / v.sew)

def MForm.nf (o : MForm) (f : VF) : Nat := if 4 ≤ o.mode then f.md.toNat + 1 else 1

def MForm.ill (o : MForm) (f : VF) : Bool :=
  (f.s && o.mode != 0) || f.x
  || (if o.mode = 2 then false else if 4 ≤ o.mode then f.md == 0 else f.md != 0)

def MForm.faults (o : MForm) (f : VF) (v : VC) : List Nat :=
  let nf := o.nf f
  sub (v.dec && (f.s || !o.dec)) vsType
  ++ sub (!f.s && misGroup v f.vd) vsAlign
  ++ (if o.mode = 2 then
      let k := idxSpan v f
      sub (decide (8 < k)) vsRange ++ sub (decide (k ≤ 8) && f.vs2.toNat % k != 0) vsAlign
      ++ sub (o.load && rangesMeet f.vd.toNat v.g f.vs2.toNat k) vsOverlap
    else if 4 ≤ o.mode then sub (decide (8 < nf * v.g) || decide (32 < f.vd.toNat + nf * v.g)) vsRange
    else [])

/-- The operands of the form as `p` holds them. -/
def MForm.mem (o : MForm) (f : VF) (n : Nat) (leg : Bool) (v : VC) (p : Pp) : VMem :=
  let iw := 8 * 2 ^ bits f.md.toNat 1 0
  { n := n, leg := leg, ew := v.w / 8, w := v.w, nf := o.nf f, g := v.g, vd := f.vd.toNat, base := (p.getX f.vs1).toNat, kind := o.kind,
    stride := (p.getX f.vs2).toNat, scale := if bit f.md.toNat 2 then v.w / 8 else 1,
    idx := if o.kind = 2 then (List.range v.vl).map (fun i => p.elt f.vs2.toNat iw i) else [],
    chk := o.kind != 0, ff := o.mode == 3, mz := v.mz, act := (List.range v.vl).map (vecActive p f) }

/-- The active elements `on` of a 32-byte load outside memory, each read by itself: masked-off elements are not accessed (R111). -/
def State.vecSElts (s : State) (n ew : Nat) (a : PpAcc) : List Nat → List Byte → Except AccStop (List Byte) × State
  | [], bs => (.ok bs, s)
  | i :: t, bs =>
    match s.accRead n ew { a with dpa := a.dpa + i * ew } false with
    | (.error x, s1) => (.error x, s1)
    | (.ok b, s1) => s1.vecSElts n ew a t (patch bs (i * ew) b)

/-- R111: the 32 bytes of a load, translated once; in register space every element's register can be read before any is. -/
def State.vecSLoad (s : State) (n ew va : Nat) (on : List Nat) : Except AccStop (List Byte) × State :=
  match s.ppCheck n va needR with
  | (.error e, s1) => (.error (.err e), s1)
  | (.ok a, s1) =>
    match region s1 a.dpa with
    | .host => s1.vecSElts n ew a on (zeros 32)
    | .reg =>
      match on.find? (fun i => decide (s1.regProbe n (a.dpa - regBase + i * ew) (8 * ew) false ≠ .ok 0)) with
      | some i => s1.accRead n ew { a with dpa := a.dpa + i * ew } false
      | none => s1.vecSElts n ew a on (zeros 32)
    | _ => s1.accRead n 32 a false

/-- R111: the one translation of the 32 bytes, and in register space every element's register, before any is written. -/
def State.vecSCheck (s : State) (n ew va : Nat) (on : List Nat) : Except AccStop Unit × State :=
  match s.ppCheck n va needW with
  | (.error e, s1) => (.error (.err e), s1)
  | (.ok a, s1) =>
    if region s1 a.dpa = .reg then
      match on.find? (fun i => decide (s1.regProbe n (a.dpa - regBase + i * ew) (8 * ew) true ≠ .ok 0)) with
      | some i => s1.accWrite n { a with dpa := a.dpa + i * ew } (zeros ew)
      | none => (.ok (), s1)
    else s1.storeCheck n 32 va

/-- R111: a Rexigal-S load or store of 32 bytes. -/
def State.vecS (s : State) (n : Nat) (f : VF) (load : Bool) (v : VC) : State :=
  let p := s.pp n
  let va := (p.getX f.vs1).toNat
  let ew := v.sew / 8
  let on := (List.range (256 / v.sew)).filter (vecActive p f)
  if va % 32 ≠ 0 then s.trap n trapMisaligned (toW va)
  else if load then
    let fin := fun (t : State) (bs : List Byte) =>
      t.vecDone n (vecWriteS v f.vd.toNat (vecActive p f) (fun i => fld bs (i * ew) ew) (t.pp n))
    if on.isEmpty then fin s []
    else
      match s.vecSLoad n ew va on with
      | (.error x, s1) => s1.vecStop n va x false
      | (.ok bs, s1) => fin s1 bs
  else if on.isEmpty then s.vecDone n p
  else
    match s.vecSCheck n ew va on with
    | (.error x, s1) => s1.vecStop n va x true
    | (.ok _, s1) =>
      let r := on.foldl (fun (a : Except (AccStop × Nat) Unit × State) i =>
        match a with
        | (.ok _, t) => t.segStore n ew [p.elt f.vd.toNat v.sew i] (va + i * ew)
        | e => e) (.ok (), s1)
      match r with
      | (.ok _, s2) => s2.vecDone n (s2.pp n)
      | (.error (x, a), s2) => s2.vecStop n a x true

/-- R115: the base of a unit-stride form is checked once. -/
def VMem.baseBad (m : VMem) : Bool := !m.chk && m.base % m.ew != 0

/-- A load or store of modes 0 to 5.  In pilot mode a misaligned base of a unit-stride form, or of an S form, raises MISALIGNED as R111
and R115 state, and an element that fails on the way BUS_ERROR as R121 states: the check of the base is no element's failure (DESIGN
CHOICE, log entry 27). -/
def memOp (n : Nat) (o : MForm) (f : VF) (s : State) : State :=
  vecOp n (o.word f) (o.ill f) (o.faults f) (fun v s =>
    if f.s then s.vecS n f o.load v
    else if v.vl = 0 then s.vecDone n (s.pp n)
    else
      let leg := (s.ppLeg n).isSome
      let m := o.mem f n leg v (s.pp n)
      if m.baseBad then (s.markElt n 0 leg).trap n trapMisaligned (toW m.base)
      else
        let start := s.vecStart n
        let elts := (List.range v.vl).filter (fun i => decide (start ≤ i))
        if o.load then
          let fin := fun (t : State) (vl : Nat) (p : Pp) =>
            t.vecEnd n leg (if v.tz then m.tail (if leg then start else 0) vl v.max p else p)
          match vecLoads m (!(decide ((s.pp n).blocked = .hostLoad) && (s.pp n).ffPast)) elts s with
          | (.done, t) => fin t v.vl (t.pp n)
          | (.trunc k kind, t) =>
            fin t k { t.pp n with vl := BitVec.ofNat 32 k, vfault := BitVec.ofNat 32 (k + kind * 2 ^ 12 + 2 ^ 16) }
          | (.stop, t) => t
        else
          match vecStores m elts s with
          | (.done, t) => t.vecEnd n leg (t.pp n)
          | (_, t) => t) s

def doVld (n : Nat) (f : VF) (s : State) : State := memOp n { maj := 0x31, mode := 0, load := true, dec := true, kind := 0 } f s
def doVlds (n : Nat) (f : VF) (s : State) : State := memOp n { maj := 0x31, mode := 1, load := true, dec := true, kind := 1 } f s
def doVldx (n : Nat) (f : VF) (s : State) : State := memOp n { maj := 0x31, mode := 2, load := true, dec := false, kind := 2 } f s
def doVldff (n : Nat) (f : VF) (s : State) : State := memOp n { maj := 0x31, mode := 3, load := true, dec := true, kind := 0 } f s
def doVldseg (n : Nat) (f : VF) (s : State) : State := memOp n { maj := 0x31, mode := 4, load := true, dec := false, kind := 0 } f s
def doVldsegs (n : Nat) (f : VF) (s : State) : State := memOp n { maj := 0x31, mode := 5, load := true, dec := false, kind := 1 } f s
def doVst (n : Nat) (f : VF) (s : State) : State := memOp n { maj := 0x32, mode := 0, load := false, dec := true, kind := 0 } f s
def doVsts (n : Nat) (f : VF) (s : State) : State := memOp n { maj := 0x32, mode := 1, load := false, dec := true, kind := 1 } f s
def doVstx (n : Nat) (f : VF) (s : State) : State := memOp n { maj := 0x32, mode := 2, load := false, dec := false, kind := 2 } f s
def doVstseg (n : Nat) (f : VF) (s : State) : State := memOp n { maj := 0x32, mode := 4, load := false, dec := false, kind := 0 } f s
def doVstsegs (n : Nat) (f : VF) (s : State) : State := memOp n { maj := 0x32, mode := 5, load := false, dec := false, kind := 1 } f s

/-! ### Masks (R114) -/

/-- The bytes of a mask that hold bits from `start` up to VL. -/
def maskBytes (start vl : Nat) : List Nat := (List.range ((vl + 7) / 8)).filter (fun j => decide (start / 8 ≤ j))

/-- Bits of byte `j` between `start` and VL. -/
def byteBits (start vl j : Nat) : List Nat := ((List.range 8).map (· + 8 * j)).filter (fun i => decide (start ≤ i ∧ i < vl))

def maskLoads (n md base start vl : Nat) (leg : Bool) : List Nat → State → VEnd × State
  | [], s => (.done, s)
  | j :: t, s =>
    let s0 := s.markElt n (max start (8 * j)) leg
    let va := (base + j) % 2 ^ 64
    if s.stopsHere n then (.stop, s0) else
    match s0.accLoad n va 1 false with
    | (.ok bs, s1) =>
      let p := (byteBits start vl j).foldl (fun q i => q.setMbit md i ((leNat bs).testBit (i - 8 * j))) (s1.pp n)
      maskLoads n md base start vl leg t (s1.setPp n p.eltDone)
    | (.error .wait, s1) => (.stop, s1)
    | (.error x, s1) => (.stop, s1.vecStop n va x false)

def maskStores (n md base start vl : Nat) (leg : Bool) : List Nat → State → VEnd × State
  | [], s => (.done, s)
  | j :: t, s =>
    let s0 := s.markElt n (max start (8 * j)) leg
    let va := (base + j) % 2 ^ 64
    let v := bits ((s0.pp n).getM md).toNat (8 * j + 7) (8 * j) % 2 ^ (vl - 8 * j)
    match s0.accStore n va (leBytes 1 v) with
    | (.ok _, s1) => maskStores n md base start vl leg t s1
    | (.error x, s1) => (.stop, s1.vecStop n va x true)

def maskMem (n : Nat) (load : Bool) (f : VF) (s : State) : State :=
  let ill := f.s || f.x || f.md != 0 || notMask f.vd || f.vs2 != 0 || maskFields f
  vecOp n (encV (if load then 0x31 else 0x32) (fnM f 6) f) ill (fun v => sub v.dec vsType) (fun v s =>
    if v.vl = 0 then s.vecDone n (s.pp n)
    else
      let leg := (s.ppLeg n).isSome
      let base := ((s.pp n).getX f.vs1).toNat
      let md := f.vd.toNat
      let start := s.vecStart n
      let js := if v.vl ≤ start then [] else maskBytes start v.vl
      match (if load then maskLoads n md base start v.vl leg js s else maskStores n md base start v.vl leg js s) with
      | (.done, t) =>
        let p := t.pp n
        let keep := if leg then max start v.vl else v.vl
        t.vecEnd n leg (if load && v.tz then p.setM md (p.getM md &&& BitVec.ofNat 2048 (2 ^ keep - 1)) else p)
      | (_, t) => t) s

def doVldm (n : Nat) (f : VF) (s : State) : State := maskMem n true f s
def doVstm (n : Nat) (f : VF) (s : State) : State := maskMem n false f s

def execVld (n : Nat) (f : VF) (s : State) : Host.Outcome State Fault Refusal := .next (doVld n f s)
def execVlds (n : Nat) (f : VF) (s : State) : Host.Outcome State Fault Refusal := .next (doVlds n f s)
def execVldx (n : Nat) (f : VF) (s : State) : Host.Outcome State Fault Refusal := .next (doVldx n f s)
def execVldff (n : Nat) (f : VF) (s : State) : Host.Outcome State Fault Refusal := .next (doVldff n f s)
def execVldseg (n : Nat) (f : VF) (s : State) : Host.Outcome State Fault Refusal := .next (doVldseg n f s)
def execVldsegs (n : Nat) (f : VF) (s : State) : Host.Outcome State Fault Refusal := .next (doVldsegs n f s)
def execVldm (n : Nat) (f : VF) (s : State) : Host.Outcome State Fault Refusal := .next (doVldm n f s)
def execVst (n : Nat) (f : VF) (s : State) : Host.Outcome State Fault Refusal := .next (doVst n f s)
def execVsts (n : Nat) (f : VF) (s : State) : Host.Outcome State Fault Refusal := .next (doVsts n f s)
def execVstx (n : Nat) (f : VF) (s : State) : Host.Outcome State Fault Refusal := .next (doVstx n f s)
def execVstseg (n : Nat) (f : VF) (s : State) : Host.Outcome State Fault Refusal := .next (doVstseg n f s)
def execVstsegs (n : Nat) (f : VF) (s : State) : Host.Outcome State Fault Refusal := .next (doVstsegs n f s)
def execVstm (n : Nat) (f : VF) (s : State) : Host.Outcome State Fault Refusal := .next (doVstm n f s)

end Sys2Proof.Machine
end

