-- ==== Sys2Proof/Machine/Sort.lean ====
section
/-!
DEFINITION. The sort unit (07): MERGE over a run table or a uniform array, TOPK and RESTORE.
-/
namespace Sys2Proof.Machine

open Sys2Proof

/-! ### Keys (R192, R193) -/

def suNorm (w fl : Nat) : Nat :=
  let a :=
    if bit fl 1 then (if bit w 63 then 2 ^ 64 - 1 - w else w + 2 ^ 63)
    else if bit fl 0 then (w + 2 ^ 63) % 2 ^ 64
    else w
  if bit fl 2 then 2 ^ 64 - 1 - a else a

/-- The normalised key as one number, word 0 most significant. -/
def suKey (kw flags : Nat) (rc : List Byte) : Nat :=
  (List.range kw).foldl (fun a j => a * 2 ^ 64 + suNorm (fld rc (8 * j) 8) (flags / 256 ^ j % 256)) 0

/-- REC_BYTES, KEY_WORDS and KEY_FLAGS of MERGE and TOPK. -/
def suShapeOk (rc kw flags : Nat) : Bool :=
  [16, 32, 64].contains rc && decide (1 ≤ kw ∧ kw ≤ 4 ∧ kw ≤ rc / 8)
  && (List.range 4).all (fun j =>
    let f := flags / 256 ^ j % 256
    if j < kw then decide (f < 8) && f % 4 != 3 else f == 0)

/-! ### MERGE -/

structure MergeD where
  table : Bool
  nruns : Nat
  rc : Nat
  kw : Nat
  flags : Nat
  inAddr : Nat
  start : Nat
  count : Nat
  runLen : Nat
  out : Nat
  cap : Nat
  deriving DecidableEq, Repr

def MergeD.ofBytes (b : List Byte) : MergeD :=
  { table := fld b 0 1 == 0, nruns := fld b 1 1, rc := fld b 2 1, kw := fld b 3 1, flags := fld b 4 4, inAddr := fld b 8 8,
    start := fld b 16 4, count := fld b 20 4, runLen := fld b 24 4, out := fld b 32 8, cap := fld b 40 4 }

def isPow2 (n lim : Nat) : Bool := (List.range (lim + 1)).any (fun k => n == 2 ^ k)

/-- R194: the descriptor's own checks. -/
def mergeOk (b : List Byte) : Bool :=
  let d := MergeD.ofBytes b
  decide (fld b 0 1 ≤ 1) && suShapeOk d.rc d.kw d.flags && zeroAt b 28 4 && zeroAt b 44 20 && d.out % 64 == 0 && decide (16 ≤ d.cap)
  && (if d.table then
        decide (1 ≤ d.nruns ∧ d.nruns ≤ 64) && d.inAddr % 64 == 0 && d.start == 0 && d.count == 0 && d.runLen == 0
        && !overlap d.out d.cap d.inAddr (16 * d.nruns)
      else
        d.nruns == 0 && d.inAddr % 16 == 0 && isPow2 d.runLen 26 && d.start % (64 * d.runLen) == 0
        && decide (d.start + d.count ≤ 0xFFFFFFFF) && !overlap d.out d.cap d.inAddr ((d.start + d.count) * d.rc))

/-- One run of a merge: where it lies, the next record, its end, the record at its head. -/
structure Run where
  addr : Nat
  next : Nat
  stop : Nat
  head : Option (Nat × List Byte)   -- key and record `next`
  last : Option Nat                 -- key of the record read before
  buf  : LineBuf := none            -- R205: the leaf's line
  deriving DecidableEq, Repr

structure MergeSt where
  runs : List Run
  read : Nat
  written : Nat
  deriving DecidableEq, Repr

/-- Reads the head of a run and checks its order (R197). -/
def runLoad (u : UCtx) (d : MergeD) (r : Run) : UM Run := do
  if r.next < r.stop then
    let (bs, b) ← uReadBuf u (chunksOf (r.addr + r.next * d.rc) d.rc) r.buf
    let k := suKey d.kw d.flags bs
    match r.last with
    | some p => uCheck (decide (p ≤ k)) 0x0303
    | none => pure ()
    return { r with head := some (k, bs), buf := b }
  else return { r with head := none }

/-- R196: the run whose head is written next: the least key, the lowest index among equals. -/
def minRun : List Run → Nat → Option (Nat × Nat) → Option (Nat × Nat)
  | [], _, best => best
  | r :: t, i, best =>
    minRun t (i + 1) (match r.head, best with
      | some (k, _), none => some (i, k)
      | some (k, _), some (j, m) => if k < m then some (i, k) else some (j, m)
      | none, b => b)

/-- A record that stops MERGE or TOPK out of order has been read (R197, R204). -/
def readThen (e : UErr) : Nat := if e = .code 0x0303 then 1 else 0

/-- Loads every head, in run order; an error keeps what was read. -/
def loadAll (u : UCtx) (d : MergeD) : List Run → List Run → Nat → State → (List Run × Nat × Option UErr) × State
  | [], done, n, s => ((done, n, none), s)
  | r :: t, done, n, s =>
    match uRun (runLoad u d r) s with
    | (.ok r1, s1) => loadAll u d t (done ++ [r1]) (n + b2n r1.head.isSome) s1
    | (.error e, s1) => ((done ++ (r :: t), n + readThen e, some e), s1)

/-- Merges until every run is empty: `at'` is where the next record goes, `room` how many still fit. -/
def mergeLoop (u : UCtx) (d : MergeD) : Nat → Nat → Nat → MergeSt → State → (MergeSt × Option UErr) × State
  | 0, _, _, st, s => ((st, none), s)
  | f + 1, at', room, st, s =>
    match minRun st.runs 0 none with
    | none => ((st, none), s)
    | some (i, k) =>
      if room = 0 then ((st, some (.code 0x0302)), s)
      else
        match st.runs[i]? with
        | none => ((st, none), s)
        | some r =>
          match uRun (uWriteWhole u at' (match r.head with | some (_, bs) => bs | none => [])) s with
          | (.error e, s1) => ((st, some e), s1)
          | (.ok _, s1) =>
            let r1 : Run := { r with next := r.next + 1, last := some k, head := none }
            let st1 : MergeSt := { st with runs := st.runs.set i r1, written := st.written + 1 }
            match uRun (runLoad u d r1) s1 with
            | (.error e, s2) => (({ st1 with read := st1.read + readThen e }, some e), s2)
            | (.ok r2, s2) =>
              mergeLoop u d f (at' + d.rc) (room - 1)
                { st1 with runs := st1.runs.set i r2, read := st1.read + b2n r2.head.isSome } s2

/-- Loads the heads and merges. -/
def mergeRuns (u : UCtx) (d : MergeD) (runs : List Run) (at' room : Nat) (s : State) : (MergeSt × Option UErr) × State :=
  match loadAll u d runs [] 0 s with
  | ((rs, n, some e), s1) => (({ runs := rs, read := n, written := 0 }, some e), s1)
  | ((rs, n, none), s1) =>
    mergeLoop u d ((rs.map (fun r => r.stop - r.next)).sum + 1) at' room { runs := rs, read := n, written := 0 } s1

/-- The status code: that of the stop, else of the last writes. -/
def suFin (e : Option UErr) (r : Except UErr Unit × State) : Nat × State :=
  let code := match e, r.1 with
    | some x, _ => x.status 0x0305 0x0306
    | none, .error x => x.status 0x0305 0x0306
    | none, .ok _ => 0
  (code, r.2)

/-- TABLE mode after its start checks: code and records written.  CONSUMED of every entry of the run table that can be written is (R195),
and then the header, with COMPLETE = 1 when nothing has failed (R204). -/
def mergeTable (u : UCtx) (d : MergeD) (tab : List (Nat × Nat × Nat)) (s : State) : Nat × Nat × State :=
  let runs := tab.map (fun e => ({ addr := e.1, next := e.2.2, stop := e.2.1, head := none, last := none } : Run))
  match mergeRuns u d runs (d.out + 16) ((d.cap - 16) / d.rc) s with
  | ((st, e), s1) =>
    let nxt := (st.runs.map (·.next)).sum
    let (w, s2) := uRunAll (st.runs.zipIdx.map (fun x => uWrite u (d.inAddr + 16 * x.2 + 12) (leBytes 4 x.1.next))) s1
    let (code, s3) := suFin (e.or w) (uRun (uWrite u d.out (outHeader st.read st.written nxt (e.or w).isNone)) s2)
    (code, st.written, s3)

/-- The groups of 64 runs of UNIFORM mode, one after another. -/
def mergeGroups (u : UCtx) (d : MergeD) : Nat → Nat → Nat → Nat → State → (Nat × Nat × Nat × Option UErr) × State
  | 0, g, read, wr, s => ((g, read, wr, none), s)
  | f + 1, g, read, wr, s =>
    let e := d.start + d.count
    if e ≤ g then ((e, read, wr, none), s)
    else
      let runs := (List.range 64).map (fun i =>
        let a := min e (g + i * d.runLen)
        ({ addr := d.inAddr, next := a, stop := min e (a + d.runLen), head := none, last := none } : Run))
      match mergeRuns u d runs (d.out + 16 + g * d.rc) (64 * d.runLen) s with
      | ((st, none), s1) => mergeGroups u d f (g + 64 * d.runLen) (read + st.read) (wr + st.written) s1
      | ((st, some x), s1) => ((g, read + st.read, wr + st.written, some x), s1)

def mergeUniform (u : UCtx) (d : MergeD) (s : State) : Nat × Nat × State :=
  match mergeGroups u d (d.count + 1) d.start 0 0 s with
  | ((nxt, read, wr, e), s1) =>
    let (code, s2) := suFin e (uRun (uWrite u d.out (outHeader read wr nxt e.isNone)) s1)
    (code, wr, s2)

/-- MERGE's start: the run table, or none when there is nothing to read (R199). -/
def mergeStart (u : UCtx) (cmd : UnitCmd) : UM (MergeD × Option (List (Nat × Nat × Nat))) := do
  let b ← uDesc u cmd.desc.toNat 64 0x0301
  uCheck (mergeOk b) 0x0301
  let d := MergeD.ofBytes b
  if d.table then
    let tab ← (List.range d.nruns).mapM (fun i => do
      let e ← uRead u (d.inAddr + 16 * i) 16
      return (fld e 0 8, fld e 8 4, fld e 12 4))
    uCheck (tab.all (fun e => e.1 % 16 == 0 && decide (e.2.2 ≤ e.2.1) && !overlap d.out d.cap e.1 (e.2.1 * d.rc))) 0x0301
    uCheck (decide ((tab.map (fun e => e.2.1)).sum ≤ 0xFFFFFFFF)) 0x0301
    if tab.all (fun e => e.2.2 == e.2.1) then return (d, none)
    else
      uProbeW u d.out
      return (d, some tab)
  else
    uCheck (decide (16 + (d.start + d.count) * d.rc ≤ d.cap)) 0x0302
    if d.count = 0 then return (d, none)
    else
      uProbeW u d.out
      return (d, some [])

def mergeRun (u : UCtx) (cmd : UnitCmd) (s : State) : Nat × Nat × State :=
  match uRun (mergeStart u cmd) s with
  | (.error e, s1) => (e.status 0x0305 0x0306, 0, s1)
  | (.ok (_, none), s1) => (0, 0, s1)
  | (.ok (d, some tab), s1) => if d.table then mergeTable u d tab s1 else mergeUniform u d s1

/-! ### TOPK (R201) -/

structure TopD where
  rc : Nat
  kw : Nat
  flags : Nat
  inAddr : Nat
  count : Nat
  k : Nat
  seeds : Nat
  out : Nat
  cap : Nat
  seedAddr : Nat
  deriving DecidableEq, Repr

def TopD.ofBytes (b : List Byte) : TopD :=
  { rc := fld b 2 1, kw := fld b 3 1, flags := fld b 4 4, inAddr := fld b 8 8, count := fld b 20 4, k := fld b 24 4,
    seeds := fld b 28 4, out := fld b 32 8, cap := fld b 40 4, seedAddr := fld b 48 8 }

def topkOk (b : List Byte) : Bool :=
  let d := TopD.ofBytes b
  zeroAt b 0 2 && suShapeOk d.rc d.kw d.flags && d.inAddr % 16 == 0 && zeroAt b 16 4 && decide (1 ≤ d.k ∧ d.k ≤ 131072 / d.rc)
  && decide (d.seeds ≤ d.k) && d.out % 64 == 0 && zeroAt b 44 4 && zeroAt b 56 8
  && (if d.seeds = 0 then d.seedAddr == 0 else d.seedAddr % 16 == 0)
  && !overlap d.out d.cap d.inAddr (d.count * d.rc) && !overlap d.out d.cap d.seedAddr (d.seeds * d.rc)

/-- Puts `a` behind every entry whose key is not above its own: the earlier of equal keys ranks first (R201, R202). -/
def insertLate {α : Type} (key : α → Nat) (a : α) : List α → List α
  | [] => [a]
  | b :: t => if key a < key b then a :: b :: t else b :: insertLate key a t

/-- Record `i` of the seed-then-input sequence joins the best `k`. -/
def topkLoop (u : UCtx) (d : TopD) : Nat → Nat → Option Nat → LineBuf → List (Nat × List Byte) → State →
    (List (Nat × List Byte) × Nat × Option UErr) × State
  | 0, i, _, _, best, s => ((best, i, none), s)
  | f + 1, i, last, buf, best, s =>
    let a := if i < d.seeds then d.seedAddr + i * d.rc else d.inAddr + (i - d.seeds) * d.rc
    let work : UM ((Nat × List Byte) × LineBuf) := do
      let (bs, b) ← uReadBuf u (chunksOf a d.rc) buf
      let k := suKey d.kw d.flags bs
      match last with
      | some p => uCheck (decide (d.seeds ≤ i ∨ p ≤ k)) 0x0303
      | none => pure ()
      return ((k, bs), b)
    match uRun work s with
    | (.error e, s1) => ((best, i, some e), s1)
    | (.ok (r, b), s1) => topkLoop u d f (i + 1) (some r.1) b ((insertLate (fun e => e.1) r best).take d.k) s1

def topkStart (u : UCtx) (cmd : UnitCmd) : UM TopD := do
  let b ← uDesc u cmd.desc.toNat 64 0x0301
  uCheck (topkOk b) 0x0301
  let d := TopD.ofBytes b
  uCheck (decide (16 + d.k * d.rc ≤ d.cap)) 0x0302
  if d.seeds + d.count ≠ 0 then uProbeW u d.out
  return d

def topkRun (u : UCtx) (cmd : UnitCmd) (s : State) : Nat × Nat × State :=
  match uRun (topkStart u cmd) s with
  | (.error e, s1) => (e.status 0x0305 0x0306, 0, s1)
  | (.ok d, s1) =>
    if d.seeds + d.count = 0 then (0, 0, s1)
    else
      match topkLoop u d (d.seeds + d.count) 0 none none [] s1 with
      | ((_, i, some e), s2) =>
        let (code, s3) := suFin (some e) (uRun (uWrite u d.out (outHeader (i + readThen e) 0 i false)) s2)
        (code, 0, s3)
      | ((best, i, none), s2) =>
        let work : UM Unit := do
          uWriteWhole u (d.out + 16) (best.map (·.2)).flatten
          uWrite u d.out (outHeader i best.length i true)
        match uRun work s2 with
        | (.ok _, s3) => (0, best.length, s3)
        | (.error e, s3) =>
          let (code, s4) := suFin (some e) (uRun (uWrite u d.out (outHeader i 0 i false)) s3)
          (code, 0, s4)

/-! ### RESTORE (R202, R203) -/

structure ResD where
  mode : Nat
  inAddr : Nat
  count : Nat
  base : Nat
  out : Nat
  cap : Nat
  scratch : Nat
  deriving DecidableEq, Repr

def ResD.ofBytes (b : List Byte) : ResD :=
  { mode := fld b 0 1, inAddr := fld b 8 8, count := fld b 20 4, base := fld b 24 4, out := fld b 32 8, cap := fld b 40 4,
    scratch := fld b 48 8 }

def restoreOk (b : List Byte) : Bool :=
  let d := ResD.ofBytes b
  decide (d.mode ≤ 2) && zeroAt b 1 7 && d.inAddr % 8 == 0 && zeroAt b 16 4 && decide (d.count ≤ 262144) && zeroAt b 28 4
  && d.out % 64 == 0 && zeroAt b 44 4 && zeroAt b 56 8
  && (if d.count ≤ 64 then d.scratch == 0 else d.scratch % 64 == 0)
  && !overlap d.inAddr (8 * d.count) d.out d.cap
  && (decide (d.count ≤ 64)
      || (!overlap d.scratch (32 * d.count) d.out d.cap && !overlap d.scratch (32 * d.count) d.inAddr (8 * d.count)))

/-- What RESTORE keeps of one header. -/
structure ResEnt where
  addr : Nat
  part : Nat
  sq : Nat
  seq : Nat
  batch : Nat
  start : Nat
  write : Nat
  deriving DecidableEq, Repr

def ResEnt.key (d : ResD) (e : ResEnt) : Nat :=
  let rel := (e.seq + 2 ^ 32 - d.base) % 2 ^ 32
  let low := (e.sq * 2 ^ 32 + rel) * 2 ^ 32 + e.batch
  if d.mode = 1 then e.start * 2 ^ 80 + low else if d.mode = 2 then e.write * 2 ^ 80 + low else low

def resFlags (d : ResD) (prev : Option ResEnt) (e : ResEnt) : Nat :=
  if d.mode = 2 then 0
  else
    match prev with
    | some p =>
      if p.sq = e.sq ∧ p.seq = e.seq then
        (if p.batch = e.batch then 1 else if e.batch = p.batch + 1 then 0 else 2)
      else (if e.batch = 0 then 0 else 2)
    | none => if e.batch = 0 then 0 else 2

def resBytes (d : ResD) (prev : Option ResEnt) (e : ResEnt) : List Byte :=
  leBytes 8 e.addr ++ leBytes 8 (if d.mode = 2 then e.write else e.start) ++ leBytes 4 e.seq ++ leBytes 4 e.batch
    ++ leBytes 2 e.sq ++ leBytes 2 e.part ++ leBytes 4 (resFlags d prev e)

def resAll (d : ResD) : Option ResEnt → List ResEnt → List Byte
  | _, [] => []
  | p, e :: t => resBytes d p e ++ resAll d (some e) t

def resLoop (u : UCtx) (d : ResD) : Nat → Nat → LineBuf → List ResEnt → State → (List ResEnt × Nat × Option UErr) × State
  | 0, i, _, acc, s => ((acc, i, none), s)
  | f + 1, i, buf, acc, s =>
    let work : UM (ResEnt × LineBuf) := do
      let (ab, b) ← uReadBuf u (chunksOf (d.inAddr + 8 * i) 8) buf
      let a := leNat ab
      uCheck (a % 64 == 0) 0x0304
      let h ← uRead u a 32
      return ({ addr := a, part := fld h 0 2, sq := fld h 2 2, seq := fld h 4 4, batch := fld h 8 4, start := fld h 16 8,
                write := fld h 24 8 }, b)
    match uRun work s with
    | (.error e, s1) => ((acc, i, some e), s1)
    | (.ok (e, b), s1) => resLoop u d f (i + 1) b (acc ++ [e]) s1

/-- What the SU leaves in the scratch region: free values (log entry 12). -/
def scratchFill (u : UCtx) (a : Nat) : Nat → UM Unit
  | 0 => pure ()
  | n + 1 => do
    let s ← getThe State
    uModify (fun t => { t with freeSeq := t.freeSeq + 1 })
    uWrite u a (leBytes 8 (Config.freeWord s.freeSeq).toNat)
    scratchFill u (a + 8) n

def restoreStart (u : UCtx) (cmd : UnitCmd) : UM ResD := do
  let b ← uDesc u cmd.desc.toNat 64 0x0301
  uCheck (restoreOk b) 0x0301
  let d := ResD.ofBytes b
  uCheck (decide (16 + 32 * d.count ≤ d.cap)) 0x0302
  if d.count ≠ 0 then uProbeW u d.out
  return d

def restoreRun (u : UCtx) (cmd : UnitCmd) (s : State) : Nat × Nat × State :=
  match uRun (restoreStart u cmd) s with
  | (.error e, s1) => (e.status 0x0305 0x0306, 0, s1)
  | (.ok d, s1) =>
    if d.count = 0 then (0, 0, s1)
    else
      let stop := fun (i : Nat) (e : UErr) (t : State) =>
        let (code, t1) := suFin (some e) (uRun (uWrite u d.out (outHeader i 0 i false)) t)
        (code, 0, t1)
      match resLoop u d d.count 0 none [] s1 with
      | ((_, i, some e), s2) => stop i e s2
      | ((es, i, none), s2) =>
        let sorted := es.foldl (fun acc e => insertLate (ResEnt.key d) e acc) []
        let work : UM Unit := do
          if 64 < d.count then scratchFill u d.scratch (4 * d.count)
          uWriteWhole u (d.out + 16) (resAll d none sorted)
          uWrite u d.out (outHeader i sorted.length i true)
        match uRun work s2 with
        | (.ok _, s3) => (0, sorted.length, s3)
        | (.error e, s3) => stop i e s3

/-! ### Commands -/

def suCtx (c : Nat) (cmd : UnitCmd) : UCtx := { agent := 3, sel := .cluster c, part := cmd.part, leg := cmd.leg }

/-- R206: RECORDS_DONE goes no further than the records that the command can write: those that its output region holds, K, or
ROW_COUNT. -/
def suBound (c : Nat) (cmd : UnitCmd) (s : State) : Nat × State :=
  s.peekDesc (suCtx c cmd) cmd.desc.toNat 64 (fun b =>
    match cmd.cmd with
    | 1 =>
      let d := MergeD.ofBytes b
      if mergeOk b then (if d.table then (d.cap - 16) / d.rc else d.count) else 0
    | 2 => if topkOk b then min (TopD.ofBytes b).k ((TopD.ofBytes b).seeds + (TopD.ofBytes b).count) else 0
    | _ => if restoreOk b then (ResD.ofBytes b).count else 0)

def doSuStart (c : Nat) (s : State) : State :=
  if s.unitsOn c then
    let (q, s1) := s.startUnit (s.cl c).su (suBound c)
    s1.setCl c { s1.cl c with su := q }
  else s

/-- The command's code and result (R204). -/
def suRun (c : Nat) (cmd : UnitCmd) (s : State) : Nat × Nat × State :=
  let u := suCtx c cmd
  if cmd.arg ≠ 0 ∨ cmd.imm ≠ 0 then (0x0301, 0, s)
  else
    let (code, n, s1) := match cmd.cmd with
      | 1 => mergeRun u cmd s
      | 2 => topkRun u cmd s
      | _ => restoreRun u cmd s
    (code, n, if code = 0x0306 then s1.log 0x0403 c cmd.part 0 else s1)

def doSuDone (c : Nat) (s : State) : State :=
  if s.unitsOn c then
    match (s.cl c).su.running with
    | none => s
    | some cmd =>
      let (code, n, s1) := suRun c cmd s
      let k := s1.cl c
      let s2 := s1.setCl c { k with su := { k.su with running := none }, suOut := k.suOut + n }
      s2.cmdEnd cmd (ticketCode code n)
  else s

def execSuCommandStart (c : Nat) (s : State) : Host.Outcome State Fault Refusal :=
  .next (s.settle [] (doSuStart c))
def execSuCommandDone (c : Nat) (s : State) : Host.Outcome State Fault Refusal :=
  .next (s.settle (clReqs 3 c) (doSuDone c))

end Sys2Proof.Machine
end

