-- ==== Sys2Proof/Machine/Dispatch.lean ====
section
/-!
DEFINITION. One arm per constructor of `Instr`: the meaning that gives it its effect.
-/
namespace Sys2Proof.Machine

def exec (i : Instr) (s : State) : Host.Outcome State Fault Refusal :=
  match i with
  | .epochTick => Sys2Proof.Machine.execEpochTick s
  | .cutDone c => Sys2Proof.Machine.execCutDone c s
  | .sealFix => Sys2Proof.Machine.execSealFix s
  | .epochOpenTimeout => Sys2Proof.Machine.execEpochOpenTimeout s
  | .epochApply => Sys2Proof.Machine.execEpochApply s
  | .budget pp => Sys2Proof.Machine.execBudget pp s
  | .legClose leg => Sys2Proof.Machine.execLegClose leg s
  | .fixReady src n legs => Sys2Proof.Machine.execFixReady src n legs s
  | .fix n carry lost members => Sys2Proof.Machine.execFix n carry lost members s
  | .readyDeadline => Sys2Proof.Machine.execReadyDeadline s
  | .add pp f => Sys2Proof.Machine.execAdd pp f s
  | .sub pp f => Sys2Proof.Machine.execSub pp f s
  | .and pp f => Sys2Proof.Machine.execAnd pp f s
  | .or pp f => Sys2Proof.Machine.execOr pp f s
  | .xor pp f => Sys2Proof.Machine.execXor pp f s
  | .andn pp f => Sys2Proof.Machine.execAndn pp f s
  | .sll pp f => Sys2Proof.Machine.execSll pp f s
  | .srl pp f => Sys2Proof.Machine.execSrl pp f s
  | .sra pp f => Sys2Proof.Machine.execSra pp f s
  | .ror pp f => Sys2Proof.Machine.execRor pp f s
  | .slt pp f => Sys2Proof.Machine.execSlt pp f s
  | .sltu pp f => Sys2Proof.Machine.execSltu pp f s
  | .minMax pp k f => Sys2Proof.Machine.execMinMax pp k f s
  | .mul pp f => Sys2Proof.Machine.execMul pp f s
  | .mulh pp f => Sys2Proof.Machine.execMulh pp f s
  | .mulhu pp f => Sys2Proof.Machine.execMulhu pp f s
  | .div pp f => Sys2Proof.Machine.execDiv pp f s
  | .divu pp f => Sys2Proof.Machine.execDivu pp f s
  | .rem pp f => Sys2Proof.Machine.execRem pp f s
  | .remu pp f => Sys2Proof.Machine.execRemu pp f s
  | .crc32cw pp f => Sys2Proof.Machine.execCrc32cw pp f s
  | .crc32c pp f => Sys2Proof.Machine.execCrc32c pp f s
  | .clz pp f => Sys2Proof.Machine.execClz pp f s
  | .ctz pp f => Sys2Proof.Machine.execCtz pp f s
  | .popc pp f => Sys2Proof.Machine.execPopc pp f s
  | .bswap pp f => Sys2Proof.Machine.execBswap pp f s
  | .sel pp f => Sys2Proof.Machine.execSel pp f s
  | .addw pp f => Sys2Proof.Machine.execAddw pp f s
  | .subw pp f => Sys2Proof.Machine.execSubw pp f s
  | .addi pp f => Sys2Proof.Machine.execAddi pp f s
  | .andi pp f => Sys2Proof.Machine.execAndi pp f s
  | .ori pp f => Sys2Proof.Machine.execOri pp f s
  | .xori pp f => Sys2Proof.Machine.execXori pp f s
  | .slti pp f => Sys2Proof.Machine.execSlti pp f s
  | .sltiu pp f => Sys2Proof.Machine.execSltiu pp f s
  | .shi pp f => Sys2Proof.Machine.execShi pp f s
  | .uimm pp f => Sys2Proof.Machine.execUimm pp f s
  | .pgaddr pp f => Sys2Proof.Machine.execPgaddr pp f s
  | .lb pp f => Sys2Proof.Machine.execLb pp f s
  | .lh pp f => Sys2Proof.Machine.execLh pp f s
  | .lw pp f => Sys2Proof.Machine.execLw pp f s
  | .ld pp f => Sys2Proof.Machine.execLd pp f s
  | .lbu pp f => Sys2Proof.Machine.execLbu pp f s
  | .lhu pp f => Sys2Proof.Machine.execLhu pp f s
  | .lwu pp f => Sys2Proof.Machine.execLwu pp f s
  | .ldnc pp f => Sys2Proof.Machine.execLdnc pp f s
  | .sb pp f => Sys2Proof.Machine.execSb pp f s
  | .sh pp f => Sys2Proof.Machine.execSh pp f s
  | .sw pp f => Sys2Proof.Machine.execSw pp f s
  | .sd pp f => Sys2Proof.Machine.execSd pp f s
  | .beq pp f => Sys2Proof.Machine.execBeq pp f s
  | .bne pp f => Sys2Proof.Machine.execBne pp f s
  | .blt pp f => Sys2Proof.Machine.execBlt pp f s
  | .bge pp f => Sys2Proof.Machine.execBge pp f s
  | .bltu pp f => Sys2Proof.Machine.execBltu pp f s
  | .bgeu pp f => Sys2Proof.Machine.execBgeu pp f s
  | .jal pp f => Sys2Proof.Machine.execJal pp f s
  | .jalr pp f => Sys2Proof.Machine.execJalr pp f s
  | .fadd pp wide f => Sys2Proof.Machine.execFadd pp wide f s
  | .fswap pp wide f => Sys2Proof.Machine.execFswap pp wide f s
  | .fcas pp wide f => Sys2Proof.Machine.execFcas pp wide f s
  | .fmin pp wide f => Sys2Proof.Machine.execFmin pp wide f s
  | .fmax pp wide f => Sys2Proof.Machine.execFmax pp wide f s
  | .fminu pp wide f => Sys2Proof.Machine.execFminu pp wide f s
  | .fmaxu pp wide f => Sys2Proof.Machine.execFmaxu pp wide f s
  | .fand pp wide f => Sys2Proof.Machine.execFand pp wide f s
  | .farOr pp wide f => Sys2Proof.Machine.execFarOr pp wide f s
  | .push pp f => Sys2Proof.Machine.execPush pp f s
  | .pop pp f => Sys2Proof.Machine.execPop pp f s
  | .tpush pp f => Sys2Proof.Machine.execTpush pp f s
  | .plevel pp f => Sys2Proof.Machine.execPlevel pp f s
  | .fenceC pp f => Sys2Proof.Machine.execFenceC pp f s
  | .fenceM pp f => Sys2Proof.Machine.execFenceM pp f s
  | .fenceI pp f => Sys2Proof.Machine.execFenceI pp f s
  | .csrr pp f => Sys2Proof.Machine.execCsrr pp f s
  | .csrw pp f => Sys2Proof.Machine.execCsrw pp f s
  | .csrs pp f => Sys2Proof.Machine.execCsrs pp f s
  | .csrc pp f => Sys2Proof.Machine.execCsrc pp f s
  | .exit pp f => Sys2Proof.Machine.execExit pp f s
  | .abort pp f => Sys2Proof.Machine.execAbort pp f s
  | .brk pp f => Sys2Proof.Machine.execBrk pp f s
  | .retire pp f => Sys2Proof.Machine.execRetire pp f s
  | .obatch pp f => Sys2Proof.Machine.execObatch pp f s
  | .pret pp f => Sys2Proof.Machine.execPret pp f s
  | .tlbld pp f => Sys2Proof.Machine.execTlbld pp f s
  | .tlbinv pp f => Sys2Proof.Machine.execTlbinv pp f s
  | .walk pp f => Sys2Proof.Machine.execWalk pp f s
  | .frec pp f => Sys2Proof.Machine.execFrec pp f s
  | .scan pp f => Sys2Proof.Machine.execScan pp f s
  | .decode pp f => Sys2Proof.Machine.execDecode pp f s
  | .build pp f => Sys2Proof.Machine.execBuild pp f s
  | .probe pp f => Sys2Proof.Machine.execProbe pp f s
  | .aggregate pp f => Sys2Proof.Machine.execAggregate pp f s
  | .flush pp f => Sys2Proof.Machine.execFlush pp f s
  | .merge pp f => Sys2Proof.Machine.execMerge pp f s
  | .topk pp f => Sys2Proof.Machine.execTopk pp f s
  | .restore pp f => Sys2Proof.Machine.execRestore pp f s
  | .compress pp f => Sys2Proof.Machine.execCompress pp f s
  | .run pp f => Sys2Proof.Machine.execRun pp f s
  | .kick pp f => Sys2Proof.Machine.execKick pp f s
  | .search pp f => Sys2Proof.Machine.execSearch pp f s
  | .next pp f => Sys2Proof.Machine.execNext pp f s
  | .update pp f => Sys2Proof.Machine.execUpdate pp f s
  | .digest pp f => Sys2Proof.Machine.execDigest pp f s
  | .wait pp unit f => Sys2Proof.Machine.execWait pp unit f s
  | .test pp unit f => Sys2Proof.Machine.execTest pp unit f s
  | .drain pp unit f => Sys2Proof.Machine.execDrain pp unit f s
  | .vcfgi pp f => Sys2Proof.Machine.execVcfgi pp f s
  | .vcfgr pp f => Sys2Proof.Machine.execVcfgr pp f s
  | .vld pp f => Sys2Proof.Machine.execVld pp f s
  | .vlds pp f => Sys2Proof.Machine.execVlds pp f s
  | .vldx pp f => Sys2Proof.Machine.execVldx pp f s
  | .vldff pp f => Sys2Proof.Machine.execVldff pp f s
  | .vldseg pp f => Sys2Proof.Machine.execVldseg pp f s
  | .vldsegs pp f => Sys2Proof.Machine.execVldsegs pp f s
  | .vldm pp f => Sys2Proof.Machine.execVldm pp f s
  | .vst pp f => Sys2Proof.Machine.execVst pp f s
  | .vsts pp f => Sys2Proof.Machine.execVsts pp f s
  | .vstx pp f => Sys2Proof.Machine.execVstx pp f s
  | .vstseg pp f => Sys2Proof.Machine.execVstseg pp f s
  | .vstsegs pp f => Sys2Proof.Machine.execVstsegs pp f s
  | .vstm pp f => Sys2Proof.Machine.execVstm pp f s
  | .vadd pp f => Sys2Proof.Machine.execVadd pp f s
  | .vsub pp f => Sys2Proof.Machine.execVsub pp f s
  | .vrsub pp f => Sys2Proof.Machine.execVrsub pp f s
  | .vlogic pp k f => Sys2Proof.Machine.execVlogic pp k f s
  | .vshift pp k f => Sys2Proof.Machine.execVshift pp k f s
  | .vminmax pp k f => Sys2Proof.Machine.execVminmax pp k f s
  | .vmul pp f => Sys2Proof.Machine.execVmul pp f s
  | .vmulh pp k f => Sys2Proof.Machine.execVmulh pp k f s
  | .vsat pp k f => Sys2Proof.Machine.execVsat pp k f s
  | .vmerge pp f => Sys2Proof.Machine.execVmerge pp f s
  | .vmv pp f => Sys2Proof.Machine.execVmv pp f s
  | .vid pp f => Sys2Proof.Machine.execVid pp f s
  | .vfarith pp k f => Sys2Proof.Machine.execVfarith pp k f s
  | .vfminmax pp k f => Sys2Proof.Machine.execVfminmax pp k f s
  | .vfma pp f => Sys2Proof.Machine.execVfma pp f s
  | .vfsqrt pp f => Sys2Proof.Machine.execVfsqrt pp f s
  | .vfcvtF pp k f => Sys2Proof.Machine.execVfcvtF pp k f s
  | .vfcvtI pp k f => Sys2Proof.Machine.execVfcvtI pp k f s
  | .vfabsneg pp k f => Sys2Proof.Machine.execVfabsneg pp k f s
  | .vcmpEq pp k f => Sys2Proof.Machine.execVcmpEq pp k f s
  | .vcmpLt pp k f => Sys2Proof.Machine.execVcmpLt pp k f s
  | .vcmpLe pp k f => Sys2Proof.Machine.execVcmpLe pp k f s
  | .vcmpGt pp k f => Sys2Proof.Machine.execVcmpGt pp k f s
  | .vcmpGe pp k f => Sys2Proof.Machine.execVcmpGe pp k f s
  | .vcmpAddo pp f => Sys2Proof.Machine.execVcmpAddo pp f s
  | .vcmpSubo pp f => Sys2Proof.Machine.execVcmpSubo pp f s
  | .vcmpF pp k f => Sys2Proof.Machine.execVcmpF pp k f s
  | .vrsum pp f => Sys2Proof.Machine.execVrsum pp f s
  | .vrminmax pp k f => Sys2Proof.Machine.execVrminmax pp k f s
  | .vrlogic pp k f => Sys2Proof.Machine.execVrlogic pp k f s
  | .vfrsum pp f => Sys2Proof.Machine.execVfrsum pp f s
  | .vfrminmax pp k f => Sys2Proof.Machine.execVfrminmax pp k f s
  | .vrsumx pp k f => Sys2Proof.Machine.execVrsumx pp k f s
  | .vcompress pp f => Sys2Proof.Machine.execVcompress pp f s
  | .vexpand pp f => Sys2Proof.Machine.execVexpand pp f s
  | .vextract pp f => Sys2Proof.Machine.execVextract pp f s
  | .vinsert pp f => Sys2Proof.Machine.execVinsert pp f s
  | .mlogic pp k f => Sys2Proof.Machine.execMlogic pp k f s
  | .mnot pp f => Sys2Proof.Machine.execMnot pp f s
  | .mpopc pp f => Sys2Proof.Machine.execMpopc pp f s
  | .mfirst pp f => Sys2Proof.Machine.execMfirst pp f s
  | .vrd pp f => Sys2Proof.Machine.execVrd pp f s
  | .vwr pp f => Sys2Proof.Machine.execVwr pp f s
  | .upuCommandStart c => Sys2Proof.Machine.execUpuCommandStart c s
  | .upuCommandDone c => Sys2Proof.Machine.execUpuCommandDone c s
  | .huCommandStart c => Sys2Proof.Machine.execHuCommandStart c s
  | .huCommandDone c js k => Sys2Proof.Machine.execHuCommandDone c js k s
  | .suCommandStart c => Sys2Proof.Machine.execSuCommandStart c s
  | .suCommandDone c => Sys2Proof.Machine.execSuCommandDone c s
  | .compressorCommandStart c => Sys2Proof.Machine.execCompressorCommandStart c s
  | .compressorCommandDone c => Sys2Proof.Machine.execCompressorCommandDone c s
  | .asaSearchStart b => Sys2Proof.Machine.execAsaSearchStart b s
  | .asaUpdateStart b => Sys2Proof.Machine.execAsaUpdateStart b s
  | .asaImageCommit b => Sys2Proof.Machine.execAsaImageCommit b s
  | .asaFallbackReturn b slot e => Sys2Proof.Machine.execAsaFallbackReturn b slot e s
  | .asaCommandDone b update => Sys2Proof.Machine.execAsaCommandDone b update s
  | .asaScrub b slot => Sys2Proof.Machine.execAsaScrub b slot s
  | .duJobStart u => Sys2Proof.Machine.execDuJobStart u s
  | .duPreempt u => Sys2Proof.Machine.execDuPreempt u s
  | .duJobDone u => Sys2Proof.Machine.execDuJobDone u s
  | .dmChronoTrigger c ch => Sys2Proof.Machine.execDmChronoTrigger c ch s
  | .dmBusErrorRetry c ch addr => Sys2Proof.Machine.execDmBusErrorRetry c ch addr s
  | .dmChannelDone c ch => Sys2Proof.Machine.execDmChannelDone c ch s
  | .sqDoorbell q v => Sys2Proof.Machine.execSqDoorbell q v s
  | .cqDoorbell q v => Sys2Proof.Machine.execCqDoorbell q v s
  | .sqFetchIssue q => Sys2Proof.Machine.execSqFetchIssue q s
  | .sqFetchData q data => Sys2Proof.Machine.execSqFetchData q data s
  | .sqFetchFail q => Sys2Proof.Machine.execSqFetchFail q s
  | .sqFetchReissue q => Sys2Proof.Machine.execSqFetchReissue q s
  | .adminSqDoorbell v => Sys2Proof.Machine.execAdminSqDoorbell v s
  | .adminCqDoorbell v => Sys2Proof.Machine.execAdminCqDoorbell v s
  | .adminFetchIssue => Sys2Proof.Machine.execAdminFetchIssue s
  | .adminFetchData data => Sys2Proof.Machine.execAdminFetchData data s
  | .adminFetchRetry => Sys2Proof.Machine.execAdminFetchRetry s
  | .adminNop cid idx => Sys2Proof.Machine.execAdminNop cid idx s
  | .createPartition cid idx pasid hostPort => Sys2Proof.Machine.execCreatePartition cid idx pasid hostPort s
  | .destroyPartition cid idx p => Sys2Proof.Machine.execDestroyPartition cid idx p s
  | .resetPartition cid idx p => Sys2Proof.Machine.execResetPartition cid idx p s
  | .quiescePartition cid idx p => Sys2Proof.Machine.execQuiescePartition cid idx p s
  | .quiesceDone p => Sys2Proof.Machine.execQuiesceDone p s
  | .resumePartition cid idx p => Sys2Proof.Machine.execResumePartition cid idx p s
  | .quenchPartition cid idx p => Sys2Proof.Machine.execQuenchPartition cid idx p s
  | .quenchNow p => Sys2Proof.Machine.execQuenchNow p s
  | .quenchEffect p => Sys2Proof.Machine.execQuenchEffect p s
  | .createCq cid idx p size base event => Sys2Proof.Machine.execCreateCq cid idx p size base event s
  | .deleteCq cid idx p ln => Sys2Proof.Machine.execDeleteCq cid idx p ln s
  | .createSq cid idx p size base => Sys2Proof.Machine.execCreateSq cid idx p size base s
  | .deleteSq cid idx p ln => Sys2Proof.Machine.execDeleteSq cid idx p ln s
  | .setResources cid idx p clusters classM ceiling => Sys2Proof.Machine.execSetResources cid idx p clusters classM ceiling s
  | .allocJoinStore cid idx p c granules => Sys2Proof.Machine.execAllocJoinStore cid idx p c granules s
  | .allocAsa cid idx p first setLog2 width => Sys2Proof.Machine.execAllocAsa cid idx p first setLog2 width s
  | .bindPipes cid idx p c first count depthLog2 => Sys2Proof.Machine.execBindPipes cid idx p c first count depthLog2 s
  | .unbindPipes cid idx p c first count => Sys2Proof.Machine.execUnbindPipes cid idx p c first count s
  | .setInbox cid idx p inbox base bytes => Sys2Proof.Machine.execSetInbox cid idx p inbox base bytes s
  | .mapEvent cid idx source port vector enable => Sys2Proof.Machine.execMapEvent cid idx source port vector enable s
  | .readFixLog cid idx firstFix count dest => Sys2Proof.Machine.execReadFixLog cid idx firstFix count dest s
  | .readPartitionFix cid idx dest => Sys2Proof.Machine.execReadPartitionFix cid idx dest s
  | .sqRingApply q w => Sys2Proof.Machine.execSqRingApply q w s
  | .cqRingApply q w => Sys2Proof.Machine.execCqRingApply q w s
  | .adminApply w => Sys2Proof.Machine.execAdminApply w s
  | .msixUnmask port vector => Sys2Proof.Machine.execMsixUnmask port vector s
  | .schedulerTick => Sys2Proof.Machine.execSchedulerTick s
  | .legStart pp => Sys2Proof.Machine.execLegStart pp s
  | .xlatApply p w => Sys2Proof.Machine.execXlatApply p w s
  | .xlatInvGo w => Sys2Proof.Machine.execXlatInvGo w s
  | .xlatInvDone => Sys2Proof.Machine.execXlatInvDone s
  | .l2WaycfgWrite c w => Sys2Proof.Machine.execL2WaycfgWrite c w s
  | .l2WayWritebackDone c => Sys2Proof.Machine.execL2WayWritebackDone c s
  | .clean c addr lines => Sys2Proof.Machine.execClean c addr lines s
  | .invalidate c addr lines => Sys2Proof.Machine.execInvalidate c addr lines s
  | .cleanInv c addr lines => Sys2Proof.Machine.execCleanInv c addr lines s
  | .cleanAll c => Sys2Proof.Machine.execCleanAll c s
  | .invAll c => Sys2Proof.Machine.execInvAll c s
  | .l2MaintDone c => Sys2Proof.Machine.execL2MaintDone c s
  | .l2Disable c => Sys2Proof.Machine.execL2Disable c s
  | .l2DrainDone c => Sys2Proof.Machine.execL2DrainDone c s
  | .l2Fill c line => Sys2Proof.Machine.execL2Fill c line s
  | .memRequestServe n ch openHits bank row e => Sys2Proof.Machine.execMemRequestServe n ch openHits bank row e s
  | .refreshDue n rank => Sys2Proof.Machine.execRefreshDue n rank s
  | .actTableClear n => Sys2Proof.Machine.execActTableClear n s
  | .memScrub n line e => Sys2Proof.Machine.execMemScrub n line e s
  | .correctedWriteback n => Sys2Proof.Machine.execCorrectedWriteback n s
  | .hotChange n temp => Sys2Proof.Machine.execHotChange n temp s
  | .hostLinkDown h => Sys2Proof.Machine.execHostLinkDown h s
  | .hostLinkUp h speed width => Sys2Proof.Machine.execHostLinkUp h speed width s
  | .hostPortReset h => Sys2Proof.Machine.execHostPortReset h s
  | .hostUnclaimed h posted => Sys2Proof.Machine.execHostUnclaimed h posted s
  | .hostCompletionTimeout h r dpa => Sys2Proof.Machine.execHostCompletionTimeout h r dpa s
  | .driveLinkUp d speed width => Sys2Proof.Machine.execDriveLinkUp d speed width s
  | .driveReady d queuePairs mqes xferLimit ns => Sys2Proof.Machine.execDriveReady d queuePairs mqes xferLimit ns s
  | .driveLinkDown d => Sys2Proof.Machine.execDriveLinkDown d s
  | .driveStray d addr => Sys2Proof.Machine.execDriveStray d addr s
  | .grantApply g w => Sys2Proof.Machine.execGrantApply g w s
  | .ringPass g => Sys2Proof.Machine.execRingPass g s
  | .nvmeCmdComplete cmd sc data => Sys2Proof.Machine.execNvmeCmdComplete cmd sc data s
  | .npPushRetry req => Sys2Proof.Machine.execNpPushRetry req s
  | .nvmeCmdTimeout cmd => Sys2Proof.Machine.execNvmeCmdTimeout cmd s
  | .enumerate => Sys2Proof.Machine.execEnumerate s
  | .enum value maxStamp maxFix => Sys2Proof.Machine.execEnum value maxStamp maxFix s
  | .enumEnd count excess maxStamp maxFix => Sys2Proof.Machine.execEnumEnd count excess maxStamp maxFix s
  | .enumTimeout => Sys2Proof.Machine.execEnumTimeout s
  | .tick link n stamp lenUs units ring last members lost sendStamp => Sys2Proof.Machine.execTick link n stamp lenUs units ring last members lost sendStamp s
  | .tickLate => Sys2Proof.Machine.execTickLate s
  | .chainDown src cause lastFix => Sys2Proof.Machine.execChainDown src cause lastFix s
  | .orphaned => Sys2Proof.Machine.execOrphaned s
  | .shuffleData src part inbox rw stream first records => Sys2Proof.Machine.execShuffleData src part inbox rw stream first records s
  | .remoteCompletion src stream first accepted status => Sys2Proof.Machine.execRemoteCompletion src stream first accepted status s
  | .adminRelay src token write wide offset data => Sys2Proof.Machine.execAdminRelay src token write wide offset data s
  | .adminRelayReply src token status data => Sys2Proof.Machine.execAdminRelayReply src token status data s
  | .relayGo w => Sys2Proof.Machine.execRelayGo w s
  | .relayTimeout => Sys2Proof.Machine.execRelayTimeout s
  | .data link flit => Sys2Proof.Machine.execData link flit s
  | .nak link flit => Sys2Proof.Machine.execNak link flit s
  | .replayTimeout link => Sys2Proof.Machine.execReplayTimeout link s
  | .linkRetrain link => Sys2Proof.Machine.execLinkRetrain link s
  | .linkRetrainFail link => Sys2Proof.Machine.execLinkRetrainFail link s
  | .probeReply link rtt turnaround => Sys2Proof.Machine.execProbeReply link rtt turnaround s
  | .registerWrite r offset width value => Sys2Proof.Machine.execRegisterWrite r offset width value s
  | .replyTimer r => Sys2Proof.Machine.execReplyTimer r s
  | .throttle mv => Sys2Proof.Machine.execThrottle mv s
  | .throttleLift mv => Sys2Proof.Machine.execThrottleLift mv s
  | .pfail pin mv => Sys2Proof.Machine.execPfail pin mv s
  | .saveDone ok saveUs poisonLines => Sys2Proof.Machine.execSaveDone ok saveUs poisonLines s
  | .hupReadyFall => Sys2Proof.Machine.execHupReadyFall s
  | .ksReserveAppend => Sys2Proof.Machine.execKsReserveAppend s
  | .mgmtCoreStop k => Sys2Proof.Machine.execMgmtCoreStop k s
  | .powerOnReset => Sys2Proof.Machine.execPowerOnReset s
  | .resetN => Sys2Proof.Machine.execResetN s
  | .pwrgoodFall => Sys2Proof.Machine.execPwrgoodFall s
  | .deviceReset w => Sys2Proof.Machine.execDeviceReset w s
  | .bootStart b => Sys2Proof.Machine.execBootStart b s
  | .bootDone ms => Sys2Proof.Machine.execBootDone ms s
  | .ppReset pp => Sys2Proof.Machine.execPpReset pp s
  | .refclkLost => Sys2Proof.Machine.execRefclkLost s
  | .setEndpointId eid => Sys2Proof.Machine.execSetEndpointId eid s
  | .getEndpointId => Sys2Proof.Machine.execGetEndpointId s
  | .getMctpVersionSupport msgType => Sys2Proof.Machine.execGetMctpVersionSupport msgType s
  | .getMessageTypeSupport => Sys2Proof.Machine.execGetMessageTypeSupport s
  | .getBootState body => Sys2Proof.Machine.execGetBootState body s
  | .getThermal body => Sys2Proof.Machine.execGetThermal body s
  | .getPower body => Sys2Proof.Machine.execGetPower body s
  | .readErrorLog body => Sys2Proof.Machine.execReadErrorLog body s
  | .mctpDeviceReset body => Sys2Proof.Machine.execMctpDeviceReset body s
  | .extest scan => Sys2Proof.Machine.execExtest scan s
  | .samplePreload scan => Sys2Proof.Machine.execSamplePreload scan s
  | .idcode => Sys2Proof.Machine.execIdcode s
  | .bypass bit => Sys2Proof.Machine.execBypass bit s
  | .dbgStatus => Sys2Proof.Machine.execDbgStatus s
  | .dbgNonce => Sys2Proof.Machine.execDbgNonce s
  | .dbgAuth scope secret => Sys2Proof.Machine.execDbgAuth scope secret s
  | .dbgClose => Sys2Proof.Machine.execDbgClose s
  | .dbgLock => Sys2Proof.Machine.execDbgLock s
  | .trstN => Sys2Proof.Machine.execTrstN s
  | .nonceExpiry => Sys2Proof.Machine.execNonceExpiry s
  | .dbgNop => Sys2Proof.Machine.execDbgNop s
  | .regRead wide addr => Sys2Proof.Machine.execRegRead wide addr s
  | .logRead addr => Sys2Proof.Machine.execLogRead addr s
  | .regWrite wide addr d => Sys2Proof.Machine.execRegWrite wide addr d s
  | .memRead addr => Sys2Proof.Machine.execMemRead addr s
  | .memWrite addr d => Sys2Proof.Machine.execMemWrite addr d s
  | .ppHalt addr => Sys2Proof.Machine.execPpHalt addr s
  | .ppResume addr => Sys2Proof.Machine.execPpResume addr s
  | .ppStep addr => Sys2Proof.Machine.execPpStep addr s
  | .ppState addr => Sys2Proof.Machine.execPpState addr s
  | .haltOnBreak d => Sys2Proof.Machine.execHaltOnBreak d s
  | .dbgDeviceReset => Sys2Proof.Machine.execDbgDeviceReset s
  | .fuseHash addr d => Sys2Proof.Machine.execFuseHash addr d s
  | .thermalSample temps powerDw => Sys2Proof.Machine.execThermalSample temps powerDw s
  | .tripNoPfail => Sys2Proof.Machine.execTripNoPfail s
  | .hostCompletion h r dpa st data => Sys2Proof.Machine.execHostCompletion h r dpa st data s
  | .registerRead r offset width => Sys2Proof.Machine.execRegisterRead r offset width s
  | .chainLinkUp link => Sys2Proof.Machine.execChainLinkUp link s
  | .idle link flit => Sys2Proof.Machine.execIdle link flit s
  | .probeFlit link => Sys2Proof.Machine.execProbeFlit link s
  | .driveCompletionTimeout cmd => Sys2Proof.Machine.execDriveCompletionTimeout cmd s

end Sys2Proof.Machine
end

