-- ==== Sys2Proof/Certificates/Slice0/Obligations.lean ====
section
/-!
DEFINITION. The statements for the provers, from the spec's numbered rules, and the words they are written in.
-/
namespace Sys2Proof.Machine

/-! ### The words of the statements about instructions of a PP -/

/-- PP `n` runs the instruction at its PC: nothing stops the PP, no access of it waits at the fabric (R420), and the fetch neither traps
nor finds an error in a cache (R338). -/
def State.executes (s : State) (n : Nat) : Prop :=
  s.ppCan n = true ∧ s.ppStall n = none ∧ s.fetchStop n (s.pp n).pc = none ∧ s.fetched n (s.pp n).pc = s

/-- As `executes`, for an instruction of two words. -/
def State.executes8 (s : State) (n : Nat) : Prop :=
  s.executes n ∧ s.fetchStop n ((s.pp n).pc + 4) = none ∧ s.fetched n ((s.pp n).pc + 4) = s

/-- The PP waits for nothing. -/
def Pp.still (p : Pp) : Prop := p.blocked = .none ∧ p.hostAt = none ∧ p.hostSeen = [] ∧ p.hostLeft = [] ∧ p.eltAt = 0

/-- `q`, waiting for what `p` waits for. -/
def Pp.waitingAs (q p : Pp) : Pp :=
  { q with blocked := p.blocked, hostAt := p.hostAt, hostSeen := p.hostSeen, hostLeft := p.hostLeft, eltAt := p.eltAt }

/-- PP `n`'s registers once X[rd] has been written with `v`: X0 reads as zero, every other register as before. -/
def State.withX (s : State) (n : Nat) (rd : BitVec 5) (v : Word) : BitVec 5 → Word :=
  fun r => if r = 0 then 0 else if r = rd then v else (s.pp n).getX r

/-- Nothing but PP `n` differs between `s` and `t`: no other PP, no byte of memory, no other field of the engine. -/
def State.OnlyPp (s t : State) (n : Nat) : Prop :=
  (∀ m, m ≠ n → t.pp m = s.pp m) ∧ (∀ a, memGet t.mem a = memGet s.mem a) ∧ { t with pps := s.pps } = s

/-- PP_STEP halts the PP again after its instruction (R456). -/
def State.ranDbg (s : State) (n : Nat) : DbgHalt := if (s.pp n).dbg = .step then .byHalt else (s.pp n).dbg

/-- One instruction of PP `n` leads from `s` to `t`: the X registers read `x`, the PP goes on at `pc`, and nothing else
of the PP or of the engine has changed. -/
def State.GoesOn (s t : State) (n : Nat) (x : BitVec 5 → Word) (pc : Word) : Prop :=
  (∀ r, (t.pp n).getX r = x r) ∧ (t.pp n).pc = pc ∧ (t.pp n).still ∧ (t.pp n).dbg = s.ranDbg n
  ∧ { (t.pp n).waitingAs (s.pp n) with x := (s.pp n).x, pc := (s.pp n).pc, dbg := (s.pp n).dbg } = s.pp n
  ∧ s.OnlyPp t n

/-- The command answers a next state in which PP `n` has gone on at `pc` with the X registers `x`. -/
def Yields (i : Instr) (s : State) (n : Nat) (x : BitVec 5 → Word) (pc : Word) : Prop :=
  ∃ t, exec i s = .next t ∧ s.GoesOn t n x pc

/-- The command writes `v` into X[rd], changes nothing else and goes on at the next instruction. -/
def Gives (i : Instr) (s : State) (n : Nat) (rd : BitVec 5) (v : Word) : Prop :=
  Yields i s n (s.withX n rd v) ((s.pp n).pc + 4)

end Sys2Proof.Machine

section Statements

open Sys2Proof Sys2Proof.Machine

/-- R70, R71: the functions of OP, each with the registers it reads, the one it writes and all that it leaves alone. -/
def Obligations.ScalarFunctions : Prop :=
  ∀ (n : Nat) (f : RF) (s : State) (a b : Word), s.executes n → (s.pp n).getX f.rs1 = a → (s.pp n).getX f.rs2 = b →
    (f.rs3 = 0 →
      Gives (.add n f) s n f.rd (BitVec.ofNat 64 (a.toNat + b.toNat))
      ∧ Gives (.sub n f) s n f.rd (BitVec.ofInt 64 ((a.toNat : Int) - (b.toNat : Int)))
      ∧ Gives (.and n f) s n f.rd (a &&& b) ∧ Gives (.or n f) s n f.rd (a ||| b) ∧ Gives (.xor n f) s n f.rd (a ^^^ b)
      ∧ Gives (.andn n f) s n f.rd (a &&& ~~~ b)
      ∧ Gives (.sll n f) s n f.rd (BitVec.ofNat 64 (a.toNat * 2 ^ (b.toNat % 64)))
      ∧ Gives (.srl n f) s n f.rd (BitVec.ofNat 64 (a.toNat / 2 ^ (b.toNat % 64)))
      ∧ Gives (.sra n f) s n f.rd (BitVec.ofInt 64 (a.toInt / 2 ^ (b.toNat % 64)))
      ∧ Gives (.ror n f) s n f.rd (BitVec.ofNat 64 (a.toNat / 2 ^ (b.toNat % 64) + a.toNat * 2 ^ (64 - b.toNat % 64)))
      ∧ Gives (.slt n f) s n f.rd (if a.toInt < b.toInt then 1 else 0)
      ∧ Gives (.sltu n f) s n f.rd (if a.toNat < b.toNat then 1 else 0)
      ∧ Gives (.minMax n .min f) s n f.rd (if a.toInt ≤ b.toInt then a else b)
      ∧ Gives (.minMax n .max f) s n f.rd (if a.toInt ≤ b.toInt then b else a)
      ∧ Gives (.minMax n .minu f) s n f.rd (if a.toNat ≤ b.toNat then a else b)
      ∧ Gives (.minMax n .maxu f) s n f.rd (if a.toNat ≤ b.toNat then b else a)
      ∧ Gives (.mul n f) s n f.rd (BitVec.ofNat 64 (a.toNat * b.toNat))
      ∧ Gives (.mulh n f) s n f.rd (BitVec.ofInt 64 (a.toInt * b.toInt / 2 ^ 64))
      ∧ Gives (.mulhu n f) s n f.rd (BitVec.ofNat 64 (a.toNat * b.toNat / 2 ^ 64))
      ∧ Gives (.div n f) s n f.rd (if b = 0 then BitVec.allOnes 64 else BitVec.ofInt 64 (a.toInt.tdiv b.toInt))
      ∧ Gives (.divu n f) s n f.rd (if b = 0 then BitVec.allOnes 64 else BitVec.ofNat 64 (a.toNat / b.toNat))
      ∧ Gives (.rem n f) s n f.rd (if b = 0 then a else BitVec.ofInt 64 (a.toInt.tmod b.toInt))
      ∧ Gives (.remu n f) s n f.rd (if b = 0 then a else BitVec.ofNat 64 (a.toNat % b.toNat))
      ∧ Gives (.crc32cw n f) s n f.rd ((crcBytes (a.setWidth 32) (leBytes 4 b.toNat)).setWidth 64)
      ∧ Gives (.crc32c n f) s n f.rd ((crcBytes (a.setWidth 32) (leBytes 8 b.toNat)).setWidth 64)
      ∧ Gives (.addw n f) s n f.rd ((a.setWidth 32 + b.setWidth 32).signExtend 64)
      ∧ Gives (.subw n f) s n f.rd ((a.setWidth 32 - b.setWidth 32).signExtend 64))
    ∧ (f.rs3 = 0 → f.rs2 = 0 →
      Gives (.clz n f) s n f.rd (BitVec.ofNat 64 (if a = 0 then 64 else 63 - a.toNat.log2))
      ∧ (∃ k, k ≤ 64 ∧ (∀ j, j < k → a.getLsbD j = false) ∧ (k < 64 → a.getLsbD k = true)
          ∧ Gives (.ctz n f) s n f.rd (BitVec.ofNat 64 k))
      ∧ Gives (.popc n f) s n f.rd (BitVec.ofNat 64 ((List.range 64).countP (fun i => a.getLsbD i)))
      ∧ (∃ v : Word, (∀ i, i < 8 → v.extractLsb' (8 * i) 8 = a.extractLsb' (8 * (7 - i)) 8) ∧ Gives (.bswap n f) s n f.rd v))
    ∧ Gives (.sel n f) s n f.rd (if (s.pp n).getX f.rs3 = 0 then b else a)

/-- R68: the immediate forms of one word; IMM16 and IMM21 are sign-extended (R67). -/
def Obligations.ImmediateForms : Prop :=
  ∀ (n : Nat) (f : IF) (s : State) (a k : Word), s.executes n → (s.pp n).getX f.rs1 = a → k = BitVec.ofInt 64 f.imm.toInt →
    Gives (.addi n f) s n f.rd (a + k) ∧ Gives (.andi n f) s n f.rd (a &&& k) ∧ Gives (.ori n f) s n f.rd (a ||| k)
    ∧ Gives (.xori n f) s n f.rd (a ^^^ k)
    ∧ Gives (.slti n f) s n f.rd (if a.toInt < k.toInt then 1 else 0)
    ∧ Gives (.sltiu n f) s n f.rd (if a.toNat < k.toNat then 1 else 0)
    ∧ (∀ m, f.imm.toNat = m → m < 64 → Gives (.shi n f) s n f.rd (a <<< m))
    ∧ (∀ m, f.imm.toNat = 64 + m → m < 64 → Gives (.shi n f) s n f.rd (a >>> m))
    ∧ (∀ m, f.imm.toNat = 128 + m → m < 64 → Gives (.shi n f) s n f.rd (a.sshiftRight m))
    ∧ (∀ m, f.imm.toNat = 192 + m → m < 64 → Gives (.shi n f) s n f.rd (a.rotateRight m))
    ∧ (∀ g : JF, Gives (.uimm n g) s n g.rd (BitVec.ofInt 64 (g.imm.toInt * 4096)))
    ∧ (∀ g : JF, Gives (.pgaddr n g) s n g.rd
        (BitVec.ofNat 64 ((s.pp n).pc.toNat / 4096 * 4096) + BitVec.ofInt 64 (g.imm.toInt * 4096)))

/-- R67: branch and JAL targets; the branches' conditions and JALR's target are those of R68's table. -/
def Obligations.BranchesAndJumps : Prop :=
  ∀ (n : Nat) (f : BF) (s : State) (a b pc off : Word), s.executes n → (s.pp n).getX f.rs1 = a → (s.pp n).getX f.rs2 = b →
    (s.pp n).pc = pc → off = BitVec.ofInt 64 (f.imm.toInt * 4) →
    Yields (.beq n f) s n (s.pp n).getX (if a = b then pc + off else pc + 4)
    ∧ Yields (.bne n f) s n (s.pp n).getX (if a = b then pc + 4 else pc + off)
    ∧ Yields (.blt n f) s n (s.pp n).getX (if a.toInt < b.toInt then pc + off else pc + 4)
    ∧ Yields (.bge n f) s n (s.pp n).getX (if a.toInt < b.toInt then pc + 4 else pc + off)
    ∧ Yields (.bltu n f) s n (s.pp n).getX (if a.toNat < b.toNat then pc + off else pc + 4)
    ∧ Yields (.bgeu n f) s n (s.pp n).getX (if a.toNat < b.toNat then pc + 4 else pc + off)
    ∧ (∀ g : JF, Yields (.jal n g) s n (s.withX n g.rd (pc + 4)) (pc + BitVec.ofInt 64 (g.imm.toInt * 4)))
    ∧ (∀ g : IF, Yields (.jalr n g) s n (s.withX n g.rd (pc + 4))
        (BitVec.ofNat 64 (((s.pp n).getX g.rs1 + BitVec.ofInt 64 g.imm.toInt).toNat / 4 * 4)))

/-! ### The words of the statements about memory -/

namespace Sys2Proof.Machine

/-- A line as cluster `c` reads it: its L2's copy, else the side buffer's, else memory; none when the data are uncorrectable. -/
def State.lineSeen (s : State) (c line : Nat) : Option (List Byte) :=
  match tget? (s.cl c).l2 line with
  | some e => if e.poison then none else some e.data
  | none =>
    match (if (s.cl c).allocates then (s.cl c).sideGet line else none) with
    | some bs => some bs
    | none => if s.bad.contains line then none else some (readBytes s.mem (line * 64) 64)

/-- The DPA lies in HBM or DDR5, the keep region or an engine region, or nowhere: not in the host window or register space. -/
def State.inMemory (s : State) (d : Nat) : Prop := region s d ≠ .host ∧ region s d ≠ .reg

/-- No error stands in the caches that PP `n` uses (R338). -/
def State.soundCaches (s : State) (n : Nat) : Prop :=
  (s.cl (ppCluster n)).flaws = [] ∧ (s.cl (ppCluster n)).sideBad = [] ∧ (s.pp n).l1Bad = []

/-- No line of cluster `c`'s L2 waits to be written back. -/
def State.allClean (s : State) (c : Nat) : Prop := ∀ e ∈ (s.cl c).l2, e.2.dirty = false

/-- From `s` to `t` PP `n` has gone on behind an access to memory.  Of the PP nothing but X, the PC and the L1D's lines differs,
of another PP nothing but the L1D's lines; other clusters, and every field that is no part of the memory system, are as before.  A far
atomic takes its line from the cluster's L1Is too. -/
def State.AccessGoesOn (s t : State) (n : Nat) (far : Bool) (x : BitVec 5 → Word) : Prop :=
  (∀ r, (t.pp n).getX r = x r) ∧ (t.pp n).pc = (s.pp n).pc + 4 ∧ (t.pp n).still ∧ (t.pp n).dbg = s.ranDbg n
  ∧ { (t.pp n).waitingAs (s.pp n) with x := (s.pp n).x, pc := (s.pp n).pc, dbg := (s.pp n).dbg,
                                       l1d := (s.pp n).l1d, l1dPlru := (s.pp n).l1dPlru, l1i := (s.pp n).l1i } = s.pp n
  ∧ (∀ m, m ≠ n → { t.pp m with l1d := (s.pp m).l1d, l1i := (s.pp m).l1i } = s.pp m)
  ∧ (far = false → ∀ m, (t.pp m).l1i = (s.pp m).l1i)
  ∧ (∀ c, c ≠ ppCluster n → t.cl c = s.cl c)
  ∧ { t with pps := s.pps, cls := s.cls, mem := s.mem, bad := s.bad, dcs := s.dcs } = s

/-- The load `i` of `size` bytes at `va` writes `v` into X[rd]; it changes no byte of memory while the L2 has no dirty line to evict. -/
def LoadGives (i : Instr) (s : State) (n : Nat) (rd : BitVec 5) (v : Word) : Prop :=
  ∃ t, exec i s = .next t ∧ s.AccessGoesOn t n false (s.withX n rd v)
    ∧ (s.allClean (ppCluster n) → ∀ a, memGet t.mem a = memGet s.mem a)

/-- The store `i` of the bytes `bs` at DPA `d` by PP `n` leaves the X registers alone.  A line that the L2 holds takes the bytes and is
dirty; while the L2 does not allocate they go to memory, those bytes and no others (R337); a line that it allocates starts from memory. -/
def Stores (i : Instr) (s : State) (n d : Nat) (bs : List Byte) : Prop :=
  let c := ppCluster n
  let line := d / 64
  ∃ t, exec i s = .next t ∧ s.AccessGoesOn t n false (s.pp n).getX
    ∧ (∀ e, tget? (s.cl c).l2 line = some e →
        tget? (t.cl c).l2 line = some { e with dirty := (s.cl c).allocates || e.dirty, data := patch e.data (d % 64) bs }
        ∧ (∀ k, k ≠ line → tget? (t.cl c).l2 k = tget? (s.cl c).l2 k)
        ∧ ((s.cl c).allocates = true → ∀ a, memGet t.mem a = memGet s.mem a))
    ∧ ((s.cl c).allocates = false →
        (∀ a, d ≤ a → a < d + bs.length → memGet t.mem a = bs.getD (a - d) 0)
        ∧ (∀ a, (a < d ∨ d + bs.length ≤ a) → memGet t.mem a = memGet s.mem a))
    ∧ (tget? (s.cl c).l2 line = none → (s.cl c).allocates = true → (s.cl c).sideGet line = none → s.bad.contains line = false →
        s.allClean c →
        (∃ e, tget? (t.cl c).l2 line = some e ∧ e.dirty = true ∧ e.poison = false
          ∧ e.data = patch (readBytes s.mem (line * 64) 64) (d % 64) bs)
        ∧ ∀ a, memGet t.mem a = memGet s.mem a)

/-- The far atomic `i` of `size` bytes at DPA `d` returns the old value and leaves `new old` in memory, and changes no other byte. -/
def FarGives (i : Instr) (s : State) (n d size : Nat) (rd : BitVec 5) (new : Nat → Nat) : Prop :=
  let old := leNat (((readBytes s.mem (d / 64 * 64) 64).drop (d % 64)).take size)
  ∃ t, exec i s = .next t
    ∧ (∀ m, ppCluster m = ppCluster n → tget? (t.pp m).l1i (d / 64) = none)
    ∧ s.AccessGoesOn { t with grants := s.grants } n true (s.withX n rd (if size = 4 then (BitVec.ofNat 32 old).signExtend 64 else BitVec.ofNat 64 old))
    ∧ (∀ a, d ≤ a → a < d + size → memGet t.mem a = BitVec.ofNat 8 (new old / 256 ^ (a - d)))
    ∧ (∀ a, (a < d ∨ d + size ≤ a) → memGet t.mem a = memGet s.mem a)

end Sys2Proof.Machine

/-- R72: each load, where its address is aligned, may be read and lies in memory: the bytes as the cluster sees them.
R73: LDNC, and a load from a version column page, returns the latest value that the cluster has written: a dirty copy is written
back first; so does a load from a page with DEVICE = 1, which R307 keeps out of the caches. -/
def Obligations.Loads : Prop :=
  (∀ (n : Nat) (f : IF) (s : State) (va : Nat) (a : PpAcc) (line : List Byte), s.executes n → s.soundCaches n →
      va = ((s.pp n).getX f.rs1 + BitVec.ofInt 64 f.imm.toInt).toNat → s.ppCheck n va needR = (.ok a, s) → a.vcol = false → a.dev = false →
      s.inMemory a.dpa → s.lineSeen (ppCluster n) (a.dpa / 64) = some line →
      let v := fun k => leNat ((line.drop (a.dpa % 64)).take k)
      LoadGives (.lb n f) s n f.rd ((BitVec.ofNat 8 (v 1)).signExtend 64)
      ∧ LoadGives (.lbu n f) s n f.rd (BitVec.ofNat 64 (v 1))
      ∧ (va % 2 = 0 → LoadGives (.lh n f) s n f.rd ((BitVec.ofNat 16 (v 2)).signExtend 64)
        ∧ LoadGives (.lhu n f) s n f.rd (BitVec.ofNat 64 (v 2)))
      ∧ (va % 4 = 0 → LoadGives (.lw n f) s n f.rd ((BitVec.ofNat 32 (v 4)).signExtend 64)
        ∧ LoadGives (.lwu n f) s n f.rd (BitVec.ofNat 64 (v 4)))
      ∧ (va % 8 = 0 → LoadGives (.ld n f) s n f.rd (BitVec.ofNat 64 (v 8))))
  ∧ (∀ (n : Nat) (f : IF) (s : State) (va : Nat) (a : PpAcc) (line : List Byte), s.executes n → s.soundCaches n →
      va = ((s.pp n).getX f.rs1 + BitVec.ofInt 64 f.imm.toInt).toNat → s.ppCheck n va needR = (.ok a, s) → s.inMemory a.dpa →
      ((∃ e, tget? (s.cl (ppCluster n)).l2 (a.dpa / 64) = some e ∧ e.dirty = true ∧ e.poison = false ∧ e.data.length = 64
          ∧ line = e.data)
        ∨ ((∀ e, tget? (s.cl (ppCluster n)).l2 (a.dpa / 64) = some e → e.dirty = false) ∧ s.bad.contains (a.dpa / 64) = false
          ∧ line = readBytes s.mem (a.dpa / 64 * 64) 64)) →
      let v := fun k => leNat ((line.drop (a.dpa % 64)).take k)
      let gives := fun (i : Instr) (x : Word) =>
        ∃ t, exec i s = .next t ∧ s.AccessGoesOn t n false (s.withX n f.rd x)
          ∧ readBytes t.mem (a.dpa / 64 * 64) 64 = line
          ∧ (∀ b, (b < a.dpa / 64 * 64 ∨ a.dpa / 64 * 64 + 64 ≤ b) → memGet t.mem b = memGet s.mem b)
      (va % 8 = 0 → gives (.ldnc n f) (BitVec.ofNat 64 (v 8)))
      ∧ (a.vcol = true ∨ a.dev = true →
        gives (.lb n f) ((BitVec.ofNat 8 (v 1)).signExtend 64) ∧ gives (.lbu n f) (BitVec.ofNat 64 (v 1))
        ∧ (va % 2 = 0 → gives (.lh n f) ((BitVec.ofNat 16 (v 2)).signExtend 64) ∧ gives (.lhu n f) (BitVec.ofNat 64 (v 2)))
        ∧ (va % 4 = 0 → gives (.lw n f) ((BitVec.ofNat 32 (v 4)).signExtend 64) ∧ gives (.lwu n f) (BitVec.ofNat 64 (v 4)))
        ∧ (va % 8 = 0 → gives (.ld n f) (BitVec.ofNat 64 (v 8)))))

/-- R72: each store, where its address is aligned, may be written and lies in memory whose data are sound; one to a page with DEVICE = 1,
which R307 keeps out of the caches, writes memory itself.
R338: a store to a line that the L2 holds poisoned raises MEMORY_ERROR with its address, and the case is logged. -/
def Obligations.StoreResults : Prop :=
  ∀ (n : Nat) (f : SF) (s : State) (va : Nat) (a : PpAcc) (v : Nat), s.executes n → s.soundCaches n →
    va = ((s.pp n).getX f.rs1 + BitVec.ofInt 64 f.imm.toInt).toNat → v = ((s.pp n).getX f.rs2).toNat →
    s.ppCheck n va needW = (.ok a, s) → s.inMemory a.dpa →
    let held := tget? (s.cl (ppCluster n)).l2 (a.dpa / 64)
    let meets := fun (i : Instr) (e : L2Line) =>
      exec i s = .next (((s.l2Bad (ppCluster n) (a.dpa / 64) e.way).trap n trapMemory (BitVec.ofNat 64 va)).stepDone n)
    let uncached := fun (i : Instr) (bs : List Byte) => ∃ t, exec i s = .next t ∧ s.AccessGoesOn t n true (s.pp n).getX
      ∧ (∀ b, a.dpa ≤ b → b < a.dpa + bs.length → memGet t.mem b = bs.getD (b - a.dpa) 0)
      ∧ (∀ b, (b < a.dpa ∨ a.dpa + bs.length ≤ b) → memGet t.mem b = memGet s.mem b)
    (a.dev = true → held = none →
      uncached (.sb n f) (leBytes 1 v) ∧ (va % 2 = 0 → uncached (.sh n f) (leBytes 2 v)) ∧ (va % 4 = 0 → uncached (.sw n f) (leBytes 4 v))
      ∧ (va % 8 = 0 → uncached (.sd n f) (leBytes 8 v)))
    ∧ (a.dev = false → (held = none → s.bad.contains (a.dpa / 64) = false) → (∀ e, held = some e → e.poison = false) →
      Stores (.sb n f) s n a.dpa (leBytes 1 v)
      ∧ (va % 2 = 0 → Stores (.sh n f) s n a.dpa (leBytes 2 v))
      ∧ (va % 4 = 0 → Stores (.sw n f) s n a.dpa (leBytes 4 v))
      ∧ (va % 8 = 0 → Stores (.sd n f) s n a.dpa (leBytes 8 v)))
    ∧ (∀ e, held = some e → e.poison = true →
      meets (.sb n f) e ∧ (va % 2 = 0 → meets (.sh n f) e) ∧ (va % 4 = 0 → meets (.sw n f) e) ∧ (va % 8 = 0 → meets (.sd n f) e))

/-- R72, R76: a misaligned load, store or far atomic raises MISALIGNED, with its address in PTVAL, and performs no access. -/
def Obligations.MisalignedTraps : Prop :=
  ∀ (n : Nat) (f : IF) (g : SF) (s : State) (va wa : Nat), s.executes n →
    va = ((s.pp n).getX f.rs1 + BitVec.ofInt 64 f.imm.toInt).toNat → wa = ((s.pp n).getX g.rs1 + BitVec.ofInt 64 g.imm.toInt).toNat →
    let traps := fun (i : Instr) (a : Nat) => exec i s = .next ((s.trap n trapMisaligned (BitVec.ofNat 64 a)).stepDone n)
    (va % 2 ≠ 0 → traps (.lh n f) va ∧ traps (.lhu n f) va)
    ∧ (va % 4 ≠ 0 → traps (.lw n f) va ∧ traps (.lwu n f) va)
    ∧ (va % 8 ≠ 0 → traps (.ld n f) va ∧ traps (.ldnc n f) va)
    ∧ (wa % 2 ≠ 0 → traps (.sh n g) wa) ∧ (wa % 4 ≠ 0 → traps (.sw n g) wa) ∧ (wa % 8 ≠ 0 → traps (.sd n g) wa)
    ∧ (∀ (wide : Bool) (h : RF) (ta : Nat), ta = ((s.pp n).getX h.rs1).toNat → ta % (if wide then 8 else 4) ≠ 0 →
        traps (.fcas n wide h) ta
        ∧ (h.rs3 = 0 → ∀ i ∈ [Instr.fadd n wide h, .fswap n wide h, .fmin n wide h, .fmax n wide h, .fminu n wide h, .fmaxu n wide h,
            .fand n wide h, .farOr n wide h], traps i ta))

/-- R24, R76, R77: the far atomics on a line of memory that the cluster's L2 does not hold; the cluster's L1Is lose the line. -/
def Obligations.FarAtomicResults : Prop :=
  ∀ (n : Nat) (wide : Bool) (f : RF) (s : State) (va size : Nat) (a : PpAcc) (b c : Nat), s.executes n → s.soundCaches n →
    va = ((s.pp n).getX f.rs1).toNat → size = (if wide then 8 else 4) → va % size = 0 → s.ppCheck n va needRW = (.ok a, s) →
    s.inMemory a.dpa → tget? (s.cl (ppCluster n)).l2 (a.dpa / 64) = none → s.bad.contains (a.dpa / 64) = false →
    b = ((s.pp n).getX f.rs2).toNat % 2 ^ (8 * size) → c = ((s.pp n).getX f.rs3).toNat % 2 ^ (8 * size) →
    let m := 2 ^ (8 * size)
    let less := fun (x y : Nat) =>
      decide ((if x < m / 2 then (x : Int) else (x : Int) - (m : Int)) < (if y < m / 2 then (y : Int) else (y : Int) - (m : Int)))
    (f.rs3 = 0 →
      FarGives (.fadd n wide f) s n a.dpa size f.rd (fun old => (old + b) % m)
      ∧ FarGives (.fswap n wide f) s n a.dpa size f.rd (fun _ => b)
      ∧ FarGives (.fmin n wide f) s n a.dpa size f.rd (fun old => if less b old then b else old)
      ∧ FarGives (.fmax n wide f) s n a.dpa size f.rd (fun old => if less old b then b else old)
      ∧ FarGives (.fminu n wide f) s n a.dpa size f.rd (fun old => if b < old then b else old)
      ∧ FarGives (.fmaxu n wide f) s n a.dpa size f.rd (fun old => if old < b then b else old)
      ∧ FarGives (.fand n wide f) s n a.dpa size f.rd (fun old => old &&& b)
      ∧ FarGives (.farOr n wide f) s n a.dpa size f.rd (fun old => old ||| b))
    ∧ FarGives (.fcas n wide f) s n a.dpa size f.rd (fun old => if old = c then b else old)

/-- R74: FENCE.C and FENCE.I, and FENCE.M where the L2 holds no dirty line of its range.
R74: FENCE.M in pilot mode writes a dirty line of its range back, and the line stays in the L2, clean. -/
def Obligations.Fences : Prop :=
  (∀ (n : Nat) (f : RF) (s : State), s.executes n → f.rd = 0 → f.rs3 = 0 →
      Yields (.fenceC n f) s n (s.pp n).getX ((s.pp n).pc + 4)
      ∧ (∃ t, exec (.fenceI n f) s = .next t ∧ (t.pp n).l1i = []
          ∧ s.GoesOn (t.setPp n { t.pp n with l1i := (s.pp n).l1i, l1iPlru := (s.pp n).l1iPlru }) n (s.pp n).getX ((s.pp n).pc + 4))
      ∧ (s.allClean (ppCluster n) → (∀ x ∈ s.hostGot, x.1.req ≠ .walk (ppCluster n)) →
          Yields (.fenceM n f) s n (s.pp n).getX ((s.pp n).pc + 4)))
  ∧ (∀ (n : Nat) (f : RF) (s : State) (line : Nat) (e : L2Line), s.executes n → s.soundCaches n → f.rd = 0 → f.rs3 = 0 → (s.pp n).mode = .pilot →
      ((s.pp n).getX f.rs1).toNat = line * 64 → ((s.pp n).getX f.rs2).toNat = 64 → line * 64 < 2 ^ 48 →
      (s.cl (ppCluster n)).l2 = [(line, e)] → e.dirty = true → e.poison = false → e.data.length = 64 →
      ∃ t, exec (.fenceM n f) s = .next t ∧ (t.pp n).pc = (s.pp n).pc + 4 ∧ (∀ r, (t.pp n).getX r = (s.pp n).getX r)
        ∧ readBytes t.mem (line * 64) 64 = e.data
        ∧ (∀ a, (a < line * 64 ∨ line * 64 + 64 ≤ a) → memGet t.mem a = memGet s.mem a)
        ∧ (t.cl (ppCluster n)).l2 = [(line, { e with dirty := false })])

/-- R78: the pipe operations on a pipe that the running leg may use and that no mover channel watches.
R338: POP of an uncorrectable entry removes it and raises MEMORY_ERROR with the handle.
R79: a handle that names no pipe of the leg raises PIPE_ACCESS, and no pipe changes before the trap. -/
def Obligations.Pipes : Prop :=
  (∀ (n : Nat) (f : RF) (s : State) (h v : Word) (c i : Nat) (k : Pipe), s.executes n → f.rs3 = 0 → (s.pp n).getX f.rs1 = h →
      (s.pp n).getX f.rs2 = v → (∀ e ∈ (s.cl c).dm, e.2.trigger ≠ 4) →
      let moves := fun (j : Instr) (x : BitVec 5 → Word) (es : List Word) =>
        ∃ t, exec j s = .next t ∧ s.GoesOn { t with cls := s.cls } n x ((s.pp n).pc + 4)
          ∧ tget? (t.cl c).pipes i = some (if es.length < k.entries.length then
              { k with entries := es, head := (k.head + 1) % 2 ^ k.depthLog2, flaws := k.flaws.map (· - 1) } else { k with entries := es })
          ∧ (∀ o, o ≠ i → tget? (t.cl c).pipes o = tget? (s.cl c).pipes o) ∧ (∀ d, d ≠ c → t.cl d = s.cl d)
      let waits := fun (j : Instr) (b : Block) =>
        exec j s = .next (s.setPp n { s.pp n with blocked := b })
      (s.ppPipe n h false = some (c, i, k) →
        (f.rd = 0 → k.entries.length < 2 ^ k.depthLog2 → moves (.push n f) (s.pp n).getX (k.entries ++ [v]))
        ∧ (f.rd = 0 → 2 ^ k.depthLog2 ≤ k.entries.length → waits (.push n f) (.push c i))
        ∧ (k.entries.length < 2 ^ k.depthLog2 → moves (.tpush n f) (s.withX n f.rd 1) (k.entries ++ [v]))
        ∧ (2 ^ k.depthLog2 ≤ k.entries.length → Gives (.tpush n f) s n f.rd 0)
        ∧ (f.rs2 = 0 → Gives (.plevel n f) s n f.rd (BitVec.ofNat 64 k.entries.length)))
      ∧ (s.ppPipe n h true = some (c, i, k) → f.rs2 = 0 →
        (∀ e es, k.entries = e :: es → 0 ∉ k.flaws → moves (.pop n f) (s.withX n f.rd e) es)
        ∧ (∀ e es, k.entries = e :: es → 0 ∈ k.flaws → ∃ t, exec (.pop n f) s = .next t
            ∧ t.pp n = ((s.trap n trapMemory h).stepDone n).pp n ∧ t.mem = (s.trap n trapMemory h).mem
            ∧ tget? (t.cl c).pipes i = some { k with
                entries := es, head := (k.head + 1) % 2 ^ k.depthLog2, flaws := (k.flaws.filter (· ≠ 0)).map (· - 1) })
        ∧ (k.entries = [] → waits (.pop n f) (.pop c i))))
  ∧ (∀ (n : Nat) (f : RF) (s : State) (h : Word), s.executes n → f.rs3 = 0 → (s.pp n).getX f.rs1 = h →
      let traps := fun (i : Instr) => exec i s = .next ((s.trap n trapPipe h).stepDone n)
      (s.ppPipe n h false = none → (f.rd = 0 → traps (.push n f)) ∧ traps (.tpush n f) ∧ (f.rs2 = 0 → traps (.plevel n f)))
      ∧ (s.ppPipe n h true = none → f.rs2 = 0 → traps (.pop n f)))

/-! ### The words of the statements about CSRs, legs and operator commands -/

namespace Sys2Proof.Machine

/-- From `s` to `t` PP `n` goes on at `pc` with the registers `x` and the CSRs `csr`; nothing else differs. -/
def State.CsrGoesOn (s t : State) (n : Nat) (x : BitVec 5 → Word) (csr : Nat → Word) (pc : Word) : Prop :=
  (∀ k, (t.pp n).getCsr k = csr k) ∧ s.GoesOn (t.setPp n { t.pp n with csr := (s.pp n).csr }) n x pc

/-- PP `n` is in pilot mode with no leg. -/
def Pp.freed (p : Pp) : Prop := p.running = none ∧ p.blocked = .none ∧ p.stopPend = false

/-- Nothing happens of itself in the step: no admission pass runs (R286), and no mover channel exists. -/
def State.quiet (s : State) : Prop := s.fc.open' = false ∧ ∀ e ∈ s.cls, e.2.dm = []

/-- The ticket of slot `k` after the submission (R82). -/
def Leg.newTicket (g : Leg) (k unit : Nat) : Ticket :=
  { gen := (match tget? g.tickets k with | some t => (t.gen + 1) % 65536 | none => 1), held := true, unit := unit, status := none }

/-- The command as the unit's queue holds it. -/
def State.newCmd (s : State) (n l k cmd : Nat) (g : Leg) (f : CF) : UnitCmd :=
  { leg := l, part := g.entry.part, slot := k, pp := n, cmd := cmd, desc := (s.pp n).getX f.rs1, arg := (s.pp n).getX f.rs2,
    imm := f.imm, order := s.order }

/-- The submission `i` gives the leg the ticket of slot `k`, goes on, and `queued t` holds of the state it leaves. -/
def Submits (i : Instr) (s : State) (n l k unit : Nat) (g : Leg) (rd : BitVec 5) (queued : State → Prop) : Prop :=
  ∃ t, exec i s = .next t ∧ queued t
    ∧ (∀ r, (t.pp n).getX r = s.withX n rd (BitVec.ofNat 64 (k + unit * 2 ^ 8 + (g.newTicket k unit).gen * 2 ^ 16)) r)
    ∧ (t.pp n).pc = (s.pp n).pc + 8 ∧ (t.pp n).blocked = .none
    ∧ t.leg? l = some { g with tickets := tput g.tickets k (g.newTicket k unit) }
    ∧ (∀ o, o ≠ l → t.leg? o = s.leg? o) ∧ (∀ o, o ≠ n → t.pp o = s.pp o) ∧ (∀ a, memGet t.mem a = memGet s.mem a)

end Sys2Proof.Machine

/-- R89: CSRR of the CSRs that are registers, and of those that read the chronometer, the sealed fix, the PP's place and its
TLB.
R89: CSRW, CSRS and CSRC write the CSR's own bits and give the old value.
R89: a number that is not listed and a write to a read-only CSR raise ILLEGAL_INSTR; a leg-mode access to a listed CSR at or
above 0x100 raises PRIVILEGED.
R68: an OP in IMM16[15:12] that is not listed raises ILLEGAL_INSTR. -/
def Obligations.CsrInstructions : Prop :=
  (∀ (n : Nat) (f : IF) (s : State) (k : Nat), s.executes n → f.imm.toNat < 0x4000 → k = f.imm.toNat % 4096 →
      (k ∈ [0, 1, 2, 3, 4, 5, 9, 10, 11, 15, 16, 17, 18, 19] → Gives (.csrr n f) s n f.rd ((s.pp n).getCsr k))
      ∧ (k = 8 → Gives (.csrr n f) s n f.rd s.fc.chrono)
      ∧ (k = 12 → Gives (.csrr n f) s n f.rd s.fc.sealed)
      ∧ (k = 13 → Gives (.csrr n f) s n f.rd (BitVec.ofNat 64 (n / 4 + n % 4 * 64)))
      ∧ ((s.pp n).mode = .pilot → (k = 6 ∨ (0x100 ≤ k ∧ k ≤ 0x10B) ∨ k ∈ [0x180, 0x181, 0x182, 0x185]) →
          Gives (.csrr n f) s n f.rd ((s.pp n).getCsr k))
      ∧ ((s.pp n).mode = .pilot → k = 0x186 → Gives (.csrr n f) s n f.rd (BitVec.ofNat 64 (s.pp n).tlb.length)))
  ∧ (∀ (n : Nat) (f : IF) (s : State) (k : Nat) (old v : Word), s.executes n → f.imm.toNat < 0x4000 → k = f.imm.toNat % 4096 → old = (s.pp n).getCsr k →
      v = (s.pp n).getX f.rs1 →
      ((0x10 ≤ k ∧ k ≤ 0x13) ∨ ((s.pp n).mode = .pilot ∧ (k ∈ [0, 1, 2, 3, 4, 5, 6, 9, 10, 11, 15] ∨ (0x100 ≤ k ∧ k ≤ 0x10B) ∨ k = 0x185))) →
      let writes := fun (i : Instr) (new : Word) =>
        ∃ t, exec i s = .next t
          ∧ s.CsrGoesOn t n (s.withX n f.rd old) (fun j => if j = k then new &&& csrMask k else (s.pp n).getCsr j) ((s.pp n).pc + 4)
      writes (.csrw n f) v ∧ writes (.csrs n f) (old ||| v) ∧ writes (.csrc n f) (old &&& ~~~ v))
  ∧ (∀ (n : Nat) (f : IF) (s : State) (k : Nat), s.executes n → f.imm.toNat < 0x4000 → k = f.imm.toNat % 4096 →
      let all := fun (c : Nat) =>
        exec (.csrr n f) s = .next ((s.trap n c (encCsr 0 f)).stepDone n) ∧ exec (.csrw n f) s = .next ((s.trap n c (encCsr 1 f)).stepDone n)
        ∧ exec (.csrs n f) s = .next ((s.trap n c (encCsr 2 f)).stepDone n) ∧ exec (.csrc n f) s = .next ((s.trap n c (encCsr 3 f)).stepDone n)
      let leg := ∃ l g, (s.pp n).mode = .leg ∧ (s.pp n).running = some l ∧ s.leg? l = some g
      (¬ (k ≤ 0x13 ∨ (0x100 ≤ k ∧ k ≤ 0x10B) ∨ (0x180 ≤ k ∧ k ≤ 0x186)) → all trapIllegal)
      ∧ (leg → ((0x100 ≤ k ∧ k ≤ 0x10B) ∨ (0x180 ≤ k ∧ k ≤ 0x186)) → all trapPrivileged)
      ∧ (((leg ∧ k ≤ 0xF) ∨ ((s.pp n).mode = .pilot ∧ k ∈ [7, 8, 12, 13, 14, 0x180, 0x181, 0x182, 0x183, 0x184, 0x186])) →
          exec (.csrw n f) s = .next ((s.trap n trapIllegal (encCsr 1 f)).stepDone n)
          ∧ exec (.csrs n f) s = .next ((s.trap n trapIllegal (encCsr 2 f)).stepDone n)
          ∧ exec (.csrc n f) s = .next ((s.trap n trapIllegal (encCsr 3 f)).stepDone n)))
  ∧ (∀ (n : Nat) (f : IF) (s : State), s.executes n → 0x4000 ≤ f.imm.toNat →
      let t := State.stepDone (s.trap n trapIllegal (encI 0x2B f)) n
      exec (.csrr n f) s = .next t ∧ exec (.csrw n f) s = .next t ∧ exec (.csrs n f) s = .next t ∧ exec (.csrc n f) s = .next t)

/-- R86: EXIT, ABORT and BREAK.  EXIT leaves the leg closing with its user code; ABORT ends it in error, with no outputs: in the closed set
of its epoch, or, while commands of it have not completed, closing until they have (R41, R85).  Both free the PP (R91). -/
def Obligations.LegEnds : Prop :=
  ∀ (n : Nat) (f : RF) (s : State) (l : Nat) (g : Leg), s.executes n → s.quiet → f.rs3 = 0 → f.rd = 0 → f.rs2 = 0 →
    (s.pp n).running = some l → s.leg? l = some g → g.place = .running n →
    (∃ t u g', exec (.exit n f) s = .next t ∧ t.leg? l = some g' ∧ (t.pp n).freed
      ∧ g' = { g with place := .closing n, stopped := false, userCode := ((s.pp n).getX f.rs1).toNat % 65536, used := u,
                      batchSeq := ((s.pp n).getCsr csrBATCH).toNat, carries := ((s.pp n).getCsr csrCARRIES).toNat,
                      snapshot := (s.pp n).getCsr csrSNAPSHOT, startStamp := (s.pp n).getCsr csrSTART }
      ∧ ((s.pp n).getCsr csrUSED).toNat ≤ u
      ∧ (∀ a, memGet t.mem a = memGet s.mem a) ∧ (∀ m, m ≠ n → t.pp m = s.pp m) ∧ (∀ o, o ≠ l → t.leg? o = s.leg? o))
    ∧ (∃ t g', exec (.abort n f) s = .next t ∧ t.leg? l = some g' ∧ (t.pp n).freed
      ∧ (g.waits = false → (s.fc.ticking = true → s.fc.chrono.toNat < s.fc.nextTick.toNat) → g'.place = .closed s.fc.epoch)
      ∧ (g.waits = false → g'.closeStamp = s.fc.chrono) ∧ (g.waits = true → g'.place = .closing n)
      ∧ g'.status = 1 ∧ g'.userCode = ((s.pp n).getX f.rs1).toNat % 65536
      ∧ g'.retire = [] ∧ g'.outs = [] ∧ g'.batches = [] ∧ g'.wpSlot = none
      ∧ (∀ a, memGet t.mem a = memGet s.mem a) ∧ (∀ m, m ≠ n → t.pp m = s.pp m) ∧ (∀ o, o ≠ l → t.leg? o = s.leg? o))
    ∧ (f.rs1 = 0 → exec (.brk n f) s = .next ((s.trap n trapBreak (s.pp n).pc).stepDone n))

/-- R86, R88: RETIRE of a row of a segment that has a row retirement column adds the row to the leg's retire list.
R86, R87: OBATCH outside every output range traps, and so does one whose header line is held poisoned (R338); a batch that passes its
checks is added to the leg, and its number goes into X[rd]. -/
def Obligations.RowsAndBatches : Prop :=
  (∀ (n : Nat) (f : RF) (s s1 : State) (l : Nat) (g : Leg) (i row rows : Nat), s.executes n → f.rs3 = 0 → f.rd = 0 →
      (s.pp n).running = some l → s.leg? l = some g → i = ((s.pp n).getX f.rs1).toNat → row = ((s.pp n).getX f.rs2).toNat →
      (s.retireSeg n g i = (.ok none, s1) → exec (.retire n f) s = .next ((s1.trap n trapRetireRange (BitVec.ofNat 64 row)).stepDone n))
      ∧ (s.retireSeg n g i = (.ok (some rows), s1) →
        (rows ≤ row → exec (.retire n f) s = .next ((s1.trap n trapRetireRange (BitVec.ofNat 64 row)).stepDone n))
        ∧ (row < rows → 1048576 ≤ g.retire.length → exec (.retire n f) s = .next ((s1.trap n trapRetireLimit 1048576).stepDone n))
        ∧ (row < rows → g.retire.length < 1048576 →
          ∃ t, exec (.retire n f) s = .next t ∧ t.leg? l = some { g with retire := g.retire ++ [(i, row)] }
            ∧ (t.pp n).getCsr csrRETIRED = BitVec.ofNat 64 (g.retire.length + 1) ∧ (t.pp n).pc = (s1.pp n).pc + 4
            ∧ (∀ r, (t.pp n).getX r = (s1.pp n).getX r) ∧ (∀ a, memGet t.mem a = memGet s1.mem a))))
  ∧ (∀ (n : Nat) (f : RF) (s0 s s1 sa s2 : State) (l : Nat) (g : Leg) (h : Word) (a : PpAcc) (b : List Byte), s = s0.asking → s.executes n → f.rs3 = 0 → f.rs2 = 0 →
      (s.pp n).running = some l → s.leg? l = some g → h = (s.pp n).getX f.rs1 →
      let inside := h.toNat % 64 = 0 ∧ ∃ o ∈ g.outs, o.addr.toNat ≤ h.toNat ∧ h.toNat < o.addr.toNat + o.bytes.toNat
      let ends := fun (t : State) => exec (.obatch n f) s0 = .next (s0.settled [.walk 64] (t.stepDone n))
      (¬ inside → ends (s.trap n trapOutRange h))
      ∧ (inside → s.legAddr n g h.toNat needRW trapTlbStore = (.ok a, s1) → s1.legLine n h.toNat 64 g a = (.ok b, sa) →
        (∀ sb, sa.headerMeets n a.dpa = (true, sb) → ends (sb.trap n trapMemory h))
        ∧ (sa.headerMeets n a.dpa = (false, s2) → 0xFFFFFFFF ≤ ((s2.pp n).getCsr csrBATCH).toNat → ends (s2.errLeg l 0x05 0))
        ∧ (sa.headerMeets n a.dpa = (false, s2) → ((s2.pp n).getCsr csrBATCH).toNat < 0xFFFFFFFF → ∀ (o : OutDesc) (d : Nat) (ds : List Nat) (s3 : State),
          g.outs[fld b 37 1]? = some o → o.kind = 1 → fld b 40 4 < o.batchCap →
          (o.rowRetire = true → fld b 44 4 + fld b 12 4 ≤ o.rowCap) →
          s2.batchLocs g.entry.part ((o.bvt.toNat + 16 * fld b 40 4) ::
            (if o.rowRetire then (List.range (fld b 12 4)).map (fun i => o.rrc.toNat + 8 * (fld b 44 4 + i)) else [])) = (some (d :: ds), s3) →
          s3.hostMiss = none →
          ∃ t, exec (.obatch n f) s0 = .next t
            ∧ (f.rd ≠ 0 → (t.pp n).getX f.rd = BitVec.ofNat 64 ((s2.pp n).getCsr csrBATCH).toNat)
            ∧ (t.pp n).getCsr csrBATCH = BitVec.ofNat 64 (((s2.pp n).getCsr csrBATCH).toNat + 1)
            ∧ t.leg? l = some { g with batches := g.batches ++ [d] })))

/-- R94: PRET with no cut held: to PEPC2 with NEST cleared, or to PEPC in leg mode; in leg mode it raises PRIVILEGED. -/
def Obligations.PilotReturn : Prop :=
  ∀ (n : Nat) (f : RF) (s : State), s.executes n → f = ⟨0, 0, 0, 0⟩ →
    (s.ppLeg n = none → (s.pp n).stopPend = false → ∃ t, exec (.pret n f) s = .next t ∧ s.OnlyPp t n
      ∧ (∀ r, (t.pp n).getX r = (s.pp n).getX r) ∧ (t.pp n).dbg = s.ranDbg n ∧ (t.pp n).running = (s.pp n).running
      ∧ (if (s.pp n).getCsr csrPSTATUS &&& 1 = 1 then
          (t.pp n).mode = (s.pp n).mode ∧ (t.pp n).pc = (s.pp n).getCsr csrPEPC2
          ∧ (∀ k, (t.pp n).getCsr k = if k = csrPSTATUS then (s.pp n).getCsr csrPSTATUS &&& ~~~ 1#64 else (s.pp n).getCsr k)
        else (t.pp n).mode = .leg ∧ (t.pp n).pc = (s.pp n).getCsr csrPEPC ∧ (t.pp n).csr = (s.pp n).csr))
    ∧ ((s.ppLeg n).isSome = true → exec (.pret n f) s = .next ((s.trap n trapPrivileged (encR 0x2D 0 f)).stepDone n))

/-- R93: what taking a trap saves and where it goes, from leg mode, from pilot mode, and the double trap, which halts the PP. -/
def Obligations.TakeTrap : Prop :=
  ∀ (p : Pp) (cause : Nat) (value : Word),
    let q := p.takeTrap cause value
    (∀ r, q.getX r = p.getX r) ∧ q.running = p.running ∧ q.v = p.v ∧ q.m = p.m ∧ q.tlb = p.tlb
    ∧ (p.mode = .leg → q.mode = .pilot ∧ q.pc = p.getCsr csrPVEC + BitVec.ofNat 64 (cause * 0x40) ∧ q.halted = p.halted
        ∧ ∀ k, q.getCsr k = if k = csrPEPC then p.pc else if k = csrPCAUSE then BitVec.ofNat 64 cause
            else if k = csrPTVAL then value else p.getCsr k)
    ∧ (p.mode = .pilot → p.nest = false → q.mode = .pilot ∧ q.pc = p.getCsr csrPVEC + BitVec.ofNat 64 (cause * 0x40)
        ∧ q.halted = p.halted ∧ q.nest = true
        ∧ ∀ k, q.getCsr k = if k = csrPEPC2 then p.pc else if k = csrPCAUSE2 then BitVec.ofNat 64 cause
            else if k = csrPTVAL2 then value else if k = csrPSTATUS then p.getCsr csrPSTATUS ||| 1 else p.getCsr k)
    ∧ (p.mode = .pilot → p.nest = true → q = { p.giveUp with halted := true })

/-- R308, R309: TLBLD loads an entry and drops those it overlaps; with STALE set it loads nothing; TLBINV drops the entries that its
kind names.
R310, R311: WALK of one level without a fault: the entry into X[rd], the walk CSRs, and nothing of the PP but them.
R321: FREC after a TLB miss writes the running leg's fault record, with the cause that firmware gives, and the leg ends with
ACCESS_FAULT (R96, R98; that the record's command also ends the leg is the model's reading, log entry 7); with no leg it writes
nothing. -/
def Obligations.TlbWalkAndFaultRecord : Prop :=
  (∀ (n : Nat) (f : RF) (s : State) (a b : Word), s.executes n → s.ppLeg n = none → f.rs3 = 0 → (s.pp n).getX f.rs1 = a → (s.pp n).getX f.rs2 = b →
      (tlbWordsOk a b = true → (s.pp n).stale = true → Gives (.tlbld n f) s n f.rd 0x4000000000000000)
      ∧ (tlbWordsOk a b = true → (s.pp n).stale = false →
        ∃ t k, exec (.tlbld n f) s = .next t ∧ tget? (t.pp n).tlb k = some (a, b) ∧ k < 512 ∧ s.OnlyPp t n ∧ (t.pp n).pc = (s.pp n).pc + 4
          ∧ (∀ e ∈ (t.pp n).tlb, e.2 = (a, b) ∨ (e ∈ (s.pp n).tlb ∧
              ¬ (tlbPart e.2 = tlbPart (a, b) ∧ tlbVa e.2 < tlbVa (a, b) + 2 ^ tlbLog (a, b) ∧ tlbVa (a, b) < tlbVa e.2 + 2 ^ tlbLog e.2)))
          ∧ (f.rd ≠ 0 → (t.pp n).getX f.rd = BitVec.ofNat 64 k ∨ (t.pp n).getX f.rd = BitVec.ofNat 64 (k + 2 ^ 63)))
      ∧ (f.rd = 0 → b.toNat < 4096 →
        let gone := fun (e : Word × Word) =>
          match b.toNat % 4 with
          | 0 => tlbPart e = b.toNat / 8 ∧ tlbVa e / 2 ^ tlbLog e = a.toNat % 2 ^ 48 / 2 ^ tlbLog e
          | 1 => tlbPart e = b.toNat / 8
          | 2 => True
          | _ => False
        ∃ t, exec (.tlbinv n f) s = .next t ∧ (t.pp n).pc = (s.pp n).pc + 4
          ∧ (∀ e, e ∈ (t.pp n).tlb ↔ e ∈ (s.pp n).tlb ∧ ¬ gone e.2)
          ∧ (∀ r, (t.pp n).getX r = (s.pp n).getX r) ∧ (∀ m, m ≠ n → t.pp m = s.pp m)
          ∧ (b.toNat / 4 % 2 = 0 → s.OnlyPp t n)
          ∧ (b.toNat / 4 % 2 = 1 → (t.cl (ppCluster n)).walk = (s.cl (ppCluster n)).walk.filter
              (fun e => if b.toNat % 4 = 2 then false else decide (e.part ≠ b.toNat / 8)))))
  ∧ (∀ (n : Nat) (f : RF) (s0 s t1 : State) (a w : Nat) (e : Word) (hit : Bool), s = s0.asking → s.executes n → s.ppLeg n = none → f.rs3 = 0 →
      a = ((s.pp n).getX f.rs1).toNat → w = ((s.pp n).getX f.rs2).toNat → w < 2 ^ 48 → w / 4 % 2 = 1 → s.parityLive = [] →
      (s.part (w / 8 % 512)).xlat.enable = true →
      s.stepS2 (.cluster (ppCluster n)) (w / 8 % 512) .two a (w % 4) (w / 4096 * 4096) = (.ok (e, hit), t1) → t1.pps = s.pps →
      t1.hostMiss = none →
      ∃ t, exec (.walk n f) s0 = .next t
        ∧ (∀ r, (t.pp n).getX r = s.withX n f.rd e r) ∧ (t.pp n).pc = (s.pp n).pc + 4
        ∧ (∀ k, (t.pp n).getCsr k = if k = csrXWADDR then BitVec.ofNat 64 (w / 4096 * 4096 + 8 * ptIndex a (w % 4))
            else if k = csrXWSTAT then ((s.pp n).getCsr csrXWSTAT &&& 0x8000) ||| (if hit then 0x4000 else 0) else (s.pp n).getCsr k)
        ∧ (∀ m, m ≠ n → t.pp m = s.pp m) ∧ t.mem = t1.mem)
  ∧ (∀ (n : Nat) (f : RF) (s : State) (c : Nat), s.executes n → s.ppLeg n = none → f.rd = 0 → f.rs2 = 0 → f.rs3 = 0 →
      c = ((s.pp n).getX f.rs1).toNat → 1 ≤ c → c ≤ 10 →
      (∀ l g, (s.pp n).running = some l → s.leg? l = some g → (s.pp n).walked = none →
        ∀ w x, ((s.pp n).getCsr csrPCAUSE = 4 ∧ w = false ∧ x = true) ∨ ((s.pp n).getCsr csrPCAUSE = 5 ∧ w = false ∧ x = false)
            ∨ ((s.pp n).getCsr csrPCAUSE = 6 ∧ w = true ∧ x = false) →
          let id := ((s.pp n).getCsr csrLEGID).toNat
          let who : FaultCtx :=
            { part := id / 2 ^ 48 % 512, sq := id / 2 ^ 32 % 8192, seq := BitVec.ofNat 32 id, agent := 0, cluster := n / 4, pp := n % 4 }
          let t := s.faultRecord who (XFault.plain c 0) w x ((s.pp n).getCsr csrPTVAL).toNat
          let t1 := t.setPp n ((t.pp n).advance 4)
          exec (.frec n f) s = .next (State.stepDone (t1.errLeg l 0x09 0) n))
      ∧ ((s.pp n).running = none → Yields (.frec n f) s n (s.pp n).getX ((s.pp n).pc + 4)))

/-- R81, R82: a submission takes the lowest free ticket slot, writes the ticket and enters the unit's queue.
R82, R83: a full queue stalls the submission, and a seventeenth ticket traps.
R291, R295: a RUN that the mover accepts leaves a channel of the leg that is armed or running, while its partition is neither
quenched nor being quiesced and the channel's trigger is not PIPE, which looks at its pipe at once (R294); KICK starts a MANUAL channel that is
armed, and completes at once. -/
def Obligations.Submissions : Prop :=
  (∀ (n : Nat) (f : CF) (s : State) (l k : Nat) (g : Leg) (a : PpAcc), s.executes8 n → (s.pp n).running = some l → s.leg? l = some g →
      s.ppCheck n ((s.pp n).getX f.rs1).toNat needR = (.ok a, s) → k < 16 →
      (∀ j t, j < k → tget? g.tickets j = some t → t.held = true) → (∀ j, j < k → (tget? g.tickets j).isSome = true) →
      (∀ t, tget? g.tickets k = some t → t.held = false) →
      let c := ppCluster n
      let u := fun (cmd : Nat) => s.newCmd n l k cmd g f
      ((s.cl c).upu.queue.length < 8 →
        Submits (.scan n f) s n l k 0 g f.rd (fun t => (t.cl c).upu.queue = (s.cl c).upu.queue ++ [u 1])
        ∧ Submits (.decode n f) s n l k 0 g f.rd (fun t => (t.cl c).upu.queue = (s.cl c).upu.queue ++ [u 2]))
      ∧ ((s.cl c).hu.queue.length < 8 →
        Submits (.build n f) s n l k 1 g f.rd (fun t => (t.cl c).hu.queue = (s.cl c).hu.queue ++ [u 1])
        ∧ Submits (.probe n f) s n l k 1 g f.rd (fun t => (t.cl c).hu.queue = (s.cl c).hu.queue ++ [u 2])
        ∧ Submits (.aggregate n f) s n l k 1 g f.rd (fun t => (t.cl c).hu.queue = (s.cl c).hu.queue ++ [u 3])
        ∧ Submits (.flush n f) s n l k 1 g f.rd (fun t => (t.cl c).hu.queue = (s.cl c).hu.queue ++ [u 4]))
      ∧ ((s.cl c).su.queue.length < 8 →
        Submits (.merge n f) s n l k 2 g f.rd (fun t => (t.cl c).su.queue = (s.cl c).su.queue ++ [u 1])
        ∧ Submits (.topk n f) s n l k 2 g f.rd (fun t => (t.cl c).su.queue = (s.cl c).su.queue ++ [u 2])
        ∧ Submits (.restore n f) s n l k 2 g f.rd (fun t => (t.cl c).su.queue = (s.cl c).su.queue ++ [u 3]))
      ∧ ((s.cl c).cmp.queue.length < 8 →
        Submits (.compress n f) s n l k 3 g f.rd (fun t => (t.cl c).cmp.queue = (s.cl c).cmp.queue ++ [u 1]))
      ∧ (∀ b, s.asaQueueOf l 1 ((s.pp n).getX f.rs2) = b → (s.asaSet b).sq.length < 8 →
        Submits (.search n f) s n l k 5 g f.rd (fun t => (t.asaSet b).sq = (s.asaSet b).sq ++ [u 1]))
      ∧ (∀ b, s.asaQueueOf l 2 ((s.pp n).getX f.rs2) = b → (s.asaSet b).sq.length < 8 →
        Submits (.next n f) s n l k 5 g f.rd (fun t => (t.asaSet b).sq = (s.asaSet b).sq ++ [u 2]))
      ∧ (∀ b, s.asaQueueOf l 3 ((s.pp n).getX f.rs2) = b → (s.asaSet b).uq.length < 8 →
        Submits (.update n f) s n l k 5 g f.rd (fun t => (t.asaSet b).uq = (s.asaSet b).uq ++ [u 3]))
      ∧ (s.duQueue.length < 256 →
        Submits (.digest n f) s n l k 6 g f.rd (fun t => t.duQueue = s.duQueue ++ [s.duJob (u 1)])))
  ∧ (∀ (n : Nat) (f : CF) (s : State) (l : Nat) (g : Leg) (a : PpAcc), s.executes8 n → (s.pp n).running = some l → s.leg? l = some g →
      s.ppCheck n ((s.pp n).getX f.rs1).toNat needR = (.ok a, s) →
      ((∀ j, j < 16 → ∃ t, tget? g.tickets j = some t ∧ t.held = true) →
        exec (.scan n f) s = .next ((s.trap n trapTicket (encC 0 1 f)).stepDone n)
        ∧ exec (.build n f) s = .next ((s.trap n trapTicket (encC 1 1 f)).stepDone n)
        ∧ exec (.digest n f) s = .next ((s.trap n trapTicket (encC 6 1 f)).stepDone n))
      ∧ (g.tickets = [] →
        (8 ≤ (s.cl (ppCluster n)).upu.queue.length → exec (.scan n f) s = .next (s.setPp n { s.pp n with blocked := .queueFull }))
        ∧ (8 ≤ (s.cl (ppCluster n)).hu.queue.length → exec (.build n f) s = .next (s.setPp n { s.pp n with blocked := .queueFull }))
        ∧ (256 ≤ s.duQueue.length → exec (.digest n f) s = .next (s.setPp n { s.pp n with blocked := .queueFull }))))
  ∧ (∀ (n : Nat) (f : CF) (s : State) (l : Nat) (g : Leg), s.executes8 n → (s.pp n).running = some l → s.leg? l = some g → g.tickets = [] →
      let c := ppCluster n
      let u := fun (cmd : Nat) => s.newCmd n l 0 cmd g f
      let s1 := fun (unit : Nat) => State.wr8 { s.setLeg l (g.takeTicket 0 unit) with order := s.order + 1 } n f.rd
        (BitVec.ofNat 64 (unit * 2 ^ 8 + 2 ^ 16))
      let ch := ((s.pp n).getX f.rs2).toNat
      (∀ s0 a t, s = s0.asking → s.ppCheck n ((s.pp n).getX f.rs1).toNat needR = (.ok a, s) → (s1 4).dmRun c (u 1) = (none, t) →
        exec (.run n f) s0 = .next (s0.settled [.channel c ch, .walk c] (t.stepDone n))
        ∧ ∃ b s2, uRun (uDesc { agent := 5, sel := .cluster c, part := g.entry.part, leg := l, chan := ch } ((s.pp n).getX f.rs1).toNat
              64 0x0501) (s1 4) = (.ok b, s2)
          ∧ ((s2.part g.entry.part).quenched = false → (s2.part g.entry.part).quiesce = none → fld b 0 1 ≠ 4 →
            ∃ k, tget? (t.cl c).dm ch = some k ∧ k.leg = l ∧ k.slot = 0 ∧ k.rows = 0 ∧ k.trigger = fld b 0 1 ∧ k.mode = fld b 1 1
              ∧ (k.state = 1 ∨ k.state = 2)))
      ∧ (∀ k, (s.pp n).getX f.rs1 = 0 → f.imm = 0 → tget? (s.cl c).dm ch = some k → k.leg = l →
          k.trigger = 1 → k.state = 1 →
          ∃ t, exec (.kick n f) s = .next t ∧ tget? (t.cl c).dm ch = some { k with state := 2 }
            ∧ (∃ g', t.leg? l = some g' ∧ tget? g'.tickets 0 = some { gen := 1, held := true, unit := 4, status := some 0 })
            ∧ (∀ r, (t.pp n).getX r = s.withX n f.rd (BitVec.ofNat 64 (4 * 2 ^ 8 + 2 ^ 16)) r) ∧ (t.pp n).pc = (s.pp n).pc + 8
            ∧ (∀ a, memGet t.mem a = memGet s.mem a)))

/-- R84: WAIT, TEST and DRAIN: the status of a completed command, BUSY or a wait for an outstanding one, STALE_TICKET for a ticket that
is not held; the slots whose status has been read are free. -/
def Obligations.TicketCollection : Prop :=
  ∀ (n : Nat) (unit : BitVec 5) (f : CF) (s : State) (l : Nat) (g : Leg), s.executes8 n → (s.pp n).running = some l → s.leg? l = some g →
    unit.toNat ≤ 6 → f.rs2 = 0 → f.imm = 0 →
    let w := ((s.pp n).getX f.rs1)
    let named := fun (k : Nat) (t : Ticket) => k < 16 ∧ tget? g.tickets k = some t ∧ t.held = true
      ∧ w = BitVec.ofNat 64 (k + t.unit * 2 ^ 8 + t.gen * 2 ^ 16)
    let blocks := fun (i : Instr) (b : Block) => exec i s = .next (s.setPp n { s.pp n with blocked := b })
    let freed := fun (i : Instr) (v : Word) (ks : List Nat) =>
      ∃ t g', exec i s = .next t ∧ (∀ r, (t.pp n).getX r = s.withX n f.rd v r) ∧ (t.pp n).pc = (s.pp n).pc + 8 ∧ t.leg? l = some g'
        ∧ (∀ k, tget? g'.tickets k = (tget? g.tickets k).map (fun t => if k ∈ ks then { t with held := false, status := none } else t))
        ∧ (∀ a, memGet t.mem a = memGet s.mem a) ∧ (∀ m, m ≠ n → t.pp m = s.pp m)
    (∀ k t v, named k t → t.status = some v → freed (.wait n unit f) v [k] ∧ freed (.test n unit f) v [k])
    ∧ (∀ k t, named k t → t.status = none → blocks (.wait n unit f) .wait
        ∧ Yields (.test n unit f) s n (s.withX n f.rd 0xFFFE) ((s.pp n).pc + 8))
    ∧ ((∀ k t, ¬ named k t) → Yields (.wait n unit f) s n (s.withX n f.rd 0xFFFF) ((s.pp n).pc + 8)
        ∧ Yields (.test n unit f) s n (s.withX n f.rd 0xFFFF) ((s.pp n).pc + 8))
    ∧ ((∃ e ∈ g.tickets, e.2.held = true ∧ e.2.unit = unit.toNat ∧ e.2.status = none) → blocks (.drain n unit f) .drain)
    ∧ ((g.tickets.map (·.1)).Nodup → (∀ e ∈ g.tickets, e.2.held = true → e.2.unit = unit.toNat → e.2.status ≠ none) →
        let mine := g.tickets.filter (fun e => e.2.held && e.2.unit == unit.toNat)
        freed (.drain n unit f) (BitVec.ofNat 64 mine.length) (mine.map (·.1)))

/-! ### The words of the statements about vectors -/

namespace Sys2Proof.Machine

/-- A pattern of `w` bits as a signed number, and a number's pattern. -/
def sgn (w x : Nat) : Int := if 2 * x < 2 ^ w then (x : Int) else (x : Int) - ((2 ^ w : Nat) : Int)
def wrap (w : Nat) (z : Int) : Nat := (z % ((2 ^ w : Nat) : Int)).toNat

/-- Clamps to the signed or unsigned numbers of `w` bits. -/
def clampS (w : Nat) (z : Int) : Nat := wrap w (max (-((2 ^ (w - 1) : Nat) : Int)) (min (((2 ^ (w - 1) : Nat) : Int) - 1) z))
def clampU (w : Nat) (z : Int) : Nat := (max 0 (min (((2 ^ w : Nat) : Int) - 1) z)).toNat

/-- The second operand of element `i` (R123): X[VS2] cut to the element, sign-extended to 128 bits under DEC, or VS2's element. -/
def Pp.opB (p : Pp) (f : VF) (i : Nat) : Nat :=
  if f.x then (if p.vc.dec then ((p.getX f.vs2).signExtend 128).toNat else (p.getX f.vs2).toNat % 2 ^ p.vc.w)
  else p.elt f.vs2.toNat p.vc.w i

def Pp.opA (p : Pp) (f : VF) (i : Nat) : Nat := p.elt f.vs1.toNat p.vc.w i

/-- R107: element `i` is active. -/
def Pp.on (p : Pp) (f : VF) (i : Nat) : Bool := !f.men || (p.getM f.ms.toNat).getLsbD i

/-- The group of register `r` starts at a multiple of G (R100). -/
def Pp.groupOk (p : Pp) (r : BitVec 5) : Prop := r.toNat % p.vc.g = 0

/-- A vector instruction of PP `n` has led from `s` to `t`: X, V and M aside, nothing of the PP or of the engine has changed, and the PP goes
on at the next instruction. -/
def State.VecGoesOn (s t : State) (n : Nat) : Prop :=
  (t.pp n).pc = (s.pp n).pc + 4 ∧ (t.pp n).still ∧ (t.pp n).dbg = s.ranDbg n ∧ s.OnlyPp t n
  ∧ { (t.pp n).waitingAs (s.pp n) with x := (s.pp n).x, v := (s.pp n).v, m := (s.pp n).m, pc := (s.pp n).pc, dbg := (s.pp n).dbg } = s.pp n

/-- Of the PP's register files only V has changed, and in it only the `k` registers from `r` on. -/
def Pp.onlyV (p q : Pp) (r k : Nat) : Prop :=
  (∀ j, q.getX j = p.getX j) ∧ (∀ j, q.getM j = p.getM j) ∧ ∀ j, (j < r ∨ r + k ≤ j) → q.getV j = p.getV j

def Pp.onlyM (p q : Pp) (r : Nat) : Prop :=
  (∀ j, q.getX j = p.getX j) ∧ (∀ j, q.getV j = p.getV j) ∧ ∀ j, j ≠ r → q.getM j = p.getM j

def Pp.onlyX (p q : Pp) : Prop := (∀ j, q.getV j = p.getV j) ∧ ∀ j, q.getM j = p.getM j

/-- R107–R109, Rexigal-L: `i` writes `res k` into the active elements `k` below `vl` of VD's group; masked-off elements and the tail follow the
policies of VCFG; with VL = 0 no register changes. -/
def VecL (i : Instr) (s : State) (n : Nat) (vd : BitVec 5) (vl : Nat) (on : Nat → Bool) (res : Nat → Nat) : Prop :=
  let p := s.pp n
  let c := p.vc
  ∃ t, exec i s = .next t ∧ s.VecGoesOn t n ∧ p.onlyV (t.pp n) vd.toNat c.g
    ∧ (c.vl = 0 → ∀ j, (t.pp n).getV j = p.getV j)
    ∧ (c.vl ≠ 0 → ∀ k, k < c.max → (t.pp n).elt vd.toNat c.w k =
        if k < vl then (if on k then res k % 2 ^ c.w else if c.mz then 0 else p.elt vd.toNat c.w k)
        else if c.tz then 0 else p.elt vd.toNat c.w k)

/-- R110, Rexigal-S: the elements of the low 32 bytes of register VD; the other bits of the register are cleared. -/
def VecS (i : Instr) (s : State) (n : Nat) (vd : BitVec 5) (on : Nat → Bool) (res : Nat → Nat) : Prop :=
  let p := s.pp n
  let c := p.vc
  ∃ t, exec i s = .next t ∧ s.VecGoesOn t n ∧ p.onlyV (t.pp n) vd.toNat 1
    ∧ (∀ k, k < 256 / c.sew → (t.pp n).elt vd.toNat c.sew k =
        if on k then res k % 2 ^ c.sew else if c.mz then 0 else p.elt vd.toNat c.sew k)
    ∧ (∀ b, 256 ≤ b → ((t.pp n).getV vd.toNat).getLsbD b = false)

/-- Both forms of an element operation. -/
def VecBoth (i : Instr) (s : State) (n : Nat) (f : VF) (res : Nat → Nat) : Prop :=
  if f.s then VecS i s n f.vd ((s.pp n).on f) res else VecL i s n f.vd (s.pp n).vc.vl ((s.pp n).on f) res

/-- R125: a compare writes `rel k` into the bits of mask register VD that the form covers. -/
def VecCmp (i : Instr) (s : State) (n : Nat) (f : VF) (rel : Nat → Bool) : Prop :=
  let p := s.pp n
  let c := p.vc
  let k := if f.s then 256 / c.sew else c.vl
  ∃ t, exec i s = .next t ∧ s.VecGoesOn t n ∧ p.onlyM (t.pp n) f.vd.toNat
    ∧ (f.s = false → c.vl = 0 → ∀ j, (t.pp n).getM j = p.getM j)
    ∧ (k ≠ 0 → ∀ b, b < 2048 → ((t.pp n).getM f.vd.toNat).getLsbD b =
        if b < k then (if p.on f b then rel b else if c.mz then false else (p.getM f.vd.toNat).getLsbD b)
        else if f.s || c.tz then false else (p.getM f.vd.toNat).getLsbD b)

/-- `i` writes `v` into X[rd], or changes no register when VL is 0. -/
def VecX (i : Instr) (s : State) (n : Nat) (rd : BitVec 5) (v : Word) : Prop :=
  ∃ t, exec i s = .next t ∧ s.VecGoesOn t n ∧ (s.pp n).onlyX (t.pp n)
    ∧ ∀ r, (t.pp n).getX r = if (s.pp n).vc.vl = 0 then (s.pp n).getX r else s.withX n rd v r

/-- `ew` bytes at `va` read as `x`: the address is aligned, may be read, and its line is in the L2. -/
def State.readsAs (s : State) (n va ew x : Nat) : Prop :=
  va % ew = 0 ∧ ∃ a e, s.ppCheck n va needR = (.ok a, s) ∧ a.vcol = false ∧ a.dev = false ∧ s.inMemory a.dpa
    ∧ tget? (s.cl (ppCluster n)).l2 (a.dpa / 64) = some e ∧ e.poison = false ∧ x = leNat ((e.data.drop (a.dpa % 64)).take ew)

/-- `ew` bytes at `va` are written at DPA `d`: the address is aligned, may be written, and its line is in the L2 and sound. -/
def State.writesAt (s : State) (n va ew d : Nat) : Prop :=
  va % ew = 0 ∧ ∃ a, s.ppCheck n va needW = (.ok a, s) ∧ a.dev = false ∧ s.inMemory a.dpa ∧ a.dpa = d
    ∧ ∃ e, tget? (s.cl (ppCluster n)).l2 (d / 64) = some e ∧ e.poison = false

/-- The L2 of cluster `c` once the bytes of `ws` have been stored in order, each into the line that holds its DPA. -/
def State.storedAll (s t : State) (c : Nat) (ws : List (Nat × List Byte)) : Prop :=
  ∀ line, tget? (t.cl c).l2 line = (tget? (s.cl c).l2 line).map (fun e =>
    (ws.filter (fun w => w.1 / 64 == line)).foldl (fun e w => { e with dirty := true, data := patch e.data (w.1 % 64) w.2 }) e)

/-- From `s` to `t` a vector load or store of PP `n` has completed: VRESUME is clear in leg mode; memory, the X registers and every part that is
neither the PP, the L1Ds nor the cluster's L2 are as before. -/
def State.VecMemDone (s t : State) (n : Nat) : Prop :=
  (t.pp n).pc = (s.pp n).pc + 4 ∧ (t.pp n).blocked = .none ∧ (∀ r, (t.pp n).getX r = (s.pp n).getX r)
  ∧ (∀ a, memGet t.mem a = memGet s.mem a) ∧ (∀ c, c ≠ ppCluster n → t.cl c = s.cl c)
  ∧ (∀ m, m ≠ n → { t.pp m with l1d := (s.pp m).l1d } = s.pp m)
  ∧ (t.pp n).vl = (s.pp n).vl ∧ (t.pp n).vcfg = (s.pp n).vcfg ∧ (t.pp n).vresume = (s.pp n).vresume ∧ (t.pp n).vfault = (s.pp n).vfault
  ∧ { t with pps := s.pps, cls := s.cls } = s

/-- R111–R116: `nf` fields of each active element are loaded from `addr` on into the groups from VD on. -/
def VecLoads (i : Instr) (s : State) (n : Nat) (f : VF) (nf : Nat) (addr : Nat → Nat) : Prop :=
  let p := s.pp n
  let c := p.vc
  ∀ val : Nat → Nat → Nat, s.soundCaches n →
    (∀ k j, k < c.vl → p.on f k = true → j < nf → s.readsAs n (addr k + j * (c.w / 8)) (c.w / 8) (val k j)) →
    ∃ t, exec i s = .next t ∧ s.VecMemDone t n ∧ s.storedAll t (ppCluster n) [] ∧ p.onlyV (t.pp n) f.vd.toNat (nf * c.g)
      ∧ (c.vl ≠ 0 → ∀ k j, k < c.max → j < nf → (t.pp n).elt (f.vd.toNat + j * c.g) c.w k =
          if k < c.vl then (if p.on f k then val k j else if c.mz then 0 else p.elt (f.vd.toNat + j * c.g) c.w k)
          else if c.tz then 0 else p.elt (f.vd.toNat + j * c.g) c.w k)

/-- `nf` fields of each active element are stored, in order, from `addr` on. -/
def VecStores (i : Instr) (s : State) (n : Nat) (f : VF) (nf : Nat) (addr : Nat → Nat) : Prop :=
  let p := s.pp n
  let c := p.vc
  ∀ dpa : Nat → Nat → Nat, s.soundCaches n → (s.cl (ppCluster n)).allocates = true →
    (∀ k j, k < c.vl → p.on f k = true → j < nf → s.writesAt n (addr k + j * (c.w / 8)) (c.w / 8) (dpa k j)) →
    ∃ t, exec i s = .next t ∧ s.VecMemDone t n ∧ p.onlyV (t.pp n) 0 0
      ∧ s.storedAll t (ppCluster n) (((List.range c.vl).filter (p.on f)).flatMap (fun k =>
          (List.range nf).map (fun j => (dpa k j, leBytes (c.w / 8) (p.elt (f.vd.toNat + j * c.g) c.w k)))))

end Sys2Proof.Machine

/-- R123: the integer element operations, in both forms, with VS2 a group or an X register.
R123: VMV copies VS2 or X[VS2], VID writes element numbers. -/
def Obligations.VectorIntegerAndMoves : Prop :=
  (∀ (n : Nat) (f : VF) (s : State), s.executes n →
      let p := s.pp n
      let w := p.vc.w
      let a := p.opA f
      let b := p.opB f
      (f.s = true ∨ (p.groupOk f.vd ∧ p.groupOk f.vs1 ∧ (f.x = true ∨ p.groupOk f.vs2))) →
      (p.vc.dec = false ∨ f.s = false →
        VecBoth (.vadd n f) s n f (fun i => wrap w ((a i : Int) + b i)) ∧ VecBoth (.vsub n f) s n f (fun i => wrap w ((a i : Int) - b i))
        ∧ VecBoth (.vrsub n f) s n f (fun i => wrap w ((b i : Int) - a i))
        ∧ VecBoth (.vminmax n .min f) s n f (fun i => if sgn w (a i) ≤ sgn w (b i) then a i else b i)
        ∧ VecBoth (.vminmax n .max f) s n f (fun i => if sgn w (a i) ≤ sgn w (b i) then b i else a i)
        ∧ (f.men = true →
            let res := fun i => if (p.getM f.ms.toNat).getLsbD i then a i else b i
            if f.s then VecS (.vmerge n f) s n f.vd (fun _ => true) res else VecL (.vmerge n f) s n f.vd p.vc.vl (fun _ => true) res))
      ∧ (p.vc.dec = false →
        VecBoth (.vlogic n .and f) s n f (fun i => a i &&& b i) ∧ VecBoth (.vlogic n .or f) s n f (fun i => a i ||| b i)
        ∧ VecBoth (.vlogic n .xor f) s n f (fun i => a i ^^^ b i) ∧ VecBoth (.vlogic n .andn f) s n f (fun i => a i &&& (2 ^ w - 1 - b i))
        ∧ VecBoth (.vshift n .sll f) s n f (fun i => a i * 2 ^ (b i % w)) ∧ VecBoth (.vshift n .srl f) s n f (fun i => a i / 2 ^ (b i % w))
        ∧ VecBoth (.vshift n .sra f) s n f (fun i => wrap w (sgn w (a i) / ((2 ^ (b i % w) : Nat) : Int)))
        ∧ VecBoth (.vminmax n .minu f) s n f (fun i => if a i ≤ b i then a i else b i)
        ∧ VecBoth (.vminmax n .maxu f) s n f (fun i => if a i ≤ b i then b i else a i)
        ∧ VecBoth (.vmul n f) s n f (fun i => a i * b i)
        ∧ VecBoth (.vmulh n .signed f) s n f (fun i => wrap w (sgn w (a i) * sgn w (b i) / ((2 ^ w : Nat) : Int)))
        ∧ VecBoth (.vmulh n .unsigned f) s n f (fun i => a i * b i / 2 ^ w)
        ∧ VecBoth (.vsat n .add f) s n f (fun i => clampS w (sgn w (a i) + sgn w (b i)))
        ∧ VecBoth (.vsat n .addu f) s n f (fun i => clampU w ((a i : Int) + b i))
        ∧ VecBoth (.vsat n .sub f) s n f (fun i => clampS w (sgn w (a i) - sgn w (b i)))
        ∧ VecBoth (.vsat n .subu f) s n f (fun i => clampU w ((a i : Int) - b i))))
  ∧ (∀ (n : Nat) (f : VF) (s : State), s.executes n → f.vs1 = 0 →
      let p := s.pp n
      (p.vc.dec = false ∨ f.s = false → (f.s = true ∨ (p.groupOk f.vd ∧ (f.x = true ∨ p.groupOk f.vs2))) → VecBoth (.vmv n f) s n f (p.opB f))
      ∧ (p.vc.dec = false → f.s = false → f.x = false → f.vs2 = 0 → p.groupOk f.vd →
          VecL (.vid n f) s n f.vd p.vc.vl (p.on f) (fun i => i)))

/-- R124: the floating-point element operations on F32 and F64, by the functions of Machine/Float.lean. -/
def Obligations.VectorFloat : Prop :=
  ∀ (n : Nat) (f : VF) (s : State), s.executes n →
    let p := s.pp n
    let w := p.vc.w
    let wide := w == 64
    let a := p.opA f
    let b := p.opB f
    let d := p.elt f.vd.toNat w
    p.vc.dec = false → 32 ≤ p.vc.sew →
    ((f.s = true ∨ (p.groupOk f.vd ∧ p.groupOk f.vs1 ∧ (f.x = true ∨ p.groupOk f.vs2))) →
      VecBoth (.vfarith n .add f) s n f (fun i => fAdd wide (a i) (b i)) ∧ VecBoth (.vfarith n .sub f) s n f (fun i => fSub wide (a i) (b i))
      ∧ VecBoth (.vfarith n .mul f) s n f (fun i => fMul wide (a i) (b i)) ∧ VecBoth (.vfarith n .div f) s n f (fun i => fDiv wide (a i) (b i))
      ∧ VecBoth (.vfminmax n .fst f) s n f (fun i => fMinMax wide false (a i) (b i))
      ∧ VecBoth (.vfminmax n .snd f) s n f (fun i => fMinMax wide true (a i) (b i))
      ∧ VecBoth (.vfma n f) s n f (fun i => fFma wide (a i) (b i) (d i)))
    ∧ (f.vs2 = 0 → f.x = false → (f.s = true ∨ (p.groupOk f.vd ∧ p.groupOk f.vs1)) →
      VecBoth (.vfsqrt n f) s n f (fun i => fSqrt wide (a i))
      ∧ VecBoth (.vfcvtF n .signed f) s n f (fun i => fOfInt wide (sgn w (a i)))
      ∧ VecBoth (.vfcvtF n .unsigned f) s n f (fun i => fOfInt wide (a i))
      ∧ VecBoth (.vfcvtI n .signed f) s n f (fun i => wrap w (fToInt wide (a i) (-((2 ^ (w - 1) : Nat) : Int)) (((2 ^ (w - 1) : Nat) : Int) - 1)))
      ∧ VecBoth (.vfcvtI n .unsigned f) s n f (fun i => (fToInt wide (a i) 0 (((2 ^ w : Nat) : Int) - 1)).toNat)
      ∧ VecBoth (.vfabsneg n .fst f) s n f (fun i => a i % 2 ^ (w - 1))
      ∧ VecBoth (.vfabsneg n .snd f) s n f (fun i => if a i < 2 ^ (w - 1) then a i + 2 ^ (w - 1) else a i - 2 ^ (w - 1)))

/-- R125: the compares; ADDO and SUBO hold where the signed sum or difference does not fit.
R126: a reduction folds the active elements of VS1, in ascending order, into element 0 of VS2 and writes element 0 of VD; VRSUMX and VRSUMXS
write the sum of the active elements into X[rd]. -/
def Obligations.VectorComparesAndReductions : Prop :=
  (∀ (n : Nat) (f : VF) (s : State), s.executes n → f.vd.toNat < 8 →
      let p := s.pp n
      let w := p.vc.w
      let a := p.opA f
      let b := p.opB f
      let fits := fun (z : Int) => decide (-((2 ^ (w - 1) : Nat) : Int) ≤ z ∧ z < ((2 ^ (w - 1) : Nat) : Int))
      (f.s = true ∨ (p.groupOk f.vs1 ∧ (f.x = true ∨ p.groupOk f.vs2))) →
      (p.vc.dec = false ∨ f.s = false →
        VecCmp (.vcmpEq n .fst f) s n f (fun i => decide (a i = b i)) ∧ VecCmp (.vcmpEq n .snd f) s n f (fun i => decide (a i ≠ b i))
        ∧ VecCmp (.vcmpLt n .signed f) s n f (fun i => decide (sgn w (a i) < sgn w (b i)))
        ∧ VecCmp (.vcmpLe n .signed f) s n f (fun i => decide (sgn w (a i) ≤ sgn w (b i)))
        ∧ VecCmp (.vcmpGt n .signed f) s n f (fun i => decide (sgn w (b i) < sgn w (a i)))
        ∧ VecCmp (.vcmpGe n .signed f) s n f (fun i => decide (sgn w (b i) ≤ sgn w (a i)))
        ∧ VecCmp (.vcmpAddo n f) s n f (fun i => !fits (sgn w (a i) + sgn w (b i)))
        ∧ VecCmp (.vcmpSubo n f) s n f (fun i => !fits (sgn w (a i) - sgn w (b i))))
      ∧ (p.vc.dec = false →
        VecCmp (.vcmpLt n .unsigned f) s n f (fun i => decide (a i < b i)) ∧ VecCmp (.vcmpLe n .unsigned f) s n f (fun i => decide (a i ≤ b i))
        ∧ VecCmp (.vcmpGt n .unsigned f) s n f (fun i => decide (b i < a i)) ∧ VecCmp (.vcmpGe n .unsigned f) s n f (fun i => decide (b i ≤ a i)))
      ∧ (p.vc.dec = false → 32 ≤ p.vc.sew → ∀ k,
        VecCmp (.vcmpF n k f) s n f (fun i =>
          if fIsNan (w == 64) (a i) || fIsNan (w == 64) (b i) then k == .ne
          else match k with
            | .eq => decide (fKeyV (w == 64) (a i) = fKeyV (w == 64) (b i))
            | .ne => decide (fKeyV (w == 64) (a i) ≠ fKeyV (w == 64) (b i))
            | .lt => decide (fKeyV (w == 64) (a i) < fKeyV (w == 64) (b i))
            | .le => decide (fKeyV (w == 64) (a i) ≤ fKeyV (w == 64) (b i))
            | .gt => decide (fKeyV (w == 64) (b i) < fKeyV (w == 64) (a i))
            | .ge => decide (fKeyV (w == 64) (b i) ≤ fKeyV (w == 64) (a i)))))
  ∧ (∀ (n : Nat) (f : VF) (s : State), s.executes n → f.s = false → f.x = false →
      let p := s.pp n
      let w := p.vc.w
      let xs := ((List.range p.vc.vl).filter (p.on f)).map (p.opA f)
      let red := fun (i : Instr) (g : Nat → Nat → Nat) =>
        VecL i s n f.vd 1 (fun _ => true) (fun _ => xs.foldl g (p.elt f.vs2.toNat w 0))
      (p.groupOk f.vd → p.groupOk f.vs1 → p.groupOk f.vs2 →
        red (.vrsum n f) (fun x y => (x + y) % 2 ^ w)
        ∧ red (.vrminmax n .min f) (fun x y => if sgn w x < sgn w y then x else y)
        ∧ red (.vrminmax n .max f) (fun x y => if sgn w y < sgn w x then x else y)
        ∧ (p.vc.dec = false →
          red (.vrminmax n .minu f) min ∧ red (.vrminmax n .maxu f) max
          ∧ red (.vrlogic n .and f) (fun x y => x &&& y) ∧ red (.vrlogic n .or f) (fun x y => x ||| y) ∧ red (.vrlogic n .xor f) (fun x y => x ^^^ y)
          ∧ (32 ≤ p.vc.sew → red (.vfrsum n f) (fAdd (w == 64)) ∧ red (.vfrminmax n .fst f) (fMinMax (w == 64) false)
            ∧ red (.vfrminmax n .snd f) (fMinMax (w == 64) true))))
      ∧ (p.vc.dec = false → f.vs2 = 0 → p.groupOk f.vs1 →
        VecX (.vrsumx n .fst f) s n f.vd (BitVec.ofNat 64 xs.sum)
        ∧ VecX (.vrsumx n .snd f) s n f.vd (BitVec.ofInt 64 ((xs.map (sgn w)).sum))))

/-- R127: VCOMPRESS packs the active elements, VEXPAND spreads them; VEXTRACT and VINSERT reach one element. -/
def Obligations.VectorPermutes : Prop :=
  ∀ (n : Nat) (f : VF) (s : State), s.executes n → f.s = false → f.x = false →
    let p := s.pp n
    let w := p.vc.w
    let xs := ((List.range p.vc.vl).filter (p.on f)).map (p.opA f)
    let i := (p.getX f.vs2).toNat
    (f.men = true → p.groupOk f.vd → p.groupOk f.vs1 → (f.vd.toNat + p.vc.g ≤ f.vs1.toNat ∨ f.vs1.toNat + p.vc.g ≤ f.vd.toNat) →
      VecL (.vcompress n f) s n f.vd xs.length (fun _ => true) (fun k => xs.getD k 0)
      ∧ VecL (.vexpand n f) s n f.vd p.vc.vl (p.on f) (fun k => p.opA f ((List.range k).countP (p.on f))))
    ∧ (f.men = false → f.ms = 0 → p.vc.dec = false →
      (p.groupOk f.vs1 → VecX (.vextract n f) s n f.vd (if i < p.vc.vl then BitVec.ofNat 64 (p.opA f i) else 0))
      ∧ (p.groupOk f.vd → p.vc.vl ≤ p.vc.max → ∃ t, exec (.vinsert n f) s = .next t ∧ s.VecGoesOn t n ∧ p.onlyV (t.pp n) f.vd.toNat p.vc.g
          ∧ ∀ k, k < p.vc.max → (t.pp n).elt f.vd.toNat w k =
              if k = i ∧ i < p.vc.vl then (p.getX f.vs1).toNat % 2 ^ w else p.elt f.vd.toNat w k))

/-- R128: the mask operations. -/
def Obligations.VectorMasks : Prop :=
  ∀ (n : Nat) (f : VF) (s : State), s.executes n → f.s = false → f.x = false → f.vs1.toNat < 8 → (s.pp n).vc.dec = false →
    let p := s.pp n
    let vl := p.vc.vl
    let m1 := p.getM f.vs1.toNat
    let m2 := p.getM f.vs2.toNat
    let writes := fun (i : Instr) (g : Bool → Bool → Bool) =>
      ∃ t, exec i s = .next t ∧ s.VecGoesOn t n ∧ p.onlyM (t.pp n) f.vd.toNat
        ∧ (vl = 0 → ∀ j, (t.pp n).getM j = p.getM j)
        ∧ (vl ≠ 0 → ∀ b, b < 2048 → ((t.pp n).getM f.vd.toNat).getLsbD b =
            if b < vl then g (m1.getLsbD b) (m2.getLsbD b) else if p.vc.tz then false else (p.getM f.vd.toNat).getLsbD b)
    let set := (List.range vl).filter (fun i => m1.getLsbD i && p.on f i)
    (f.men = false → f.ms = 0 → f.vd.toNat < 8 → f.vs2.toNat < 8 →
      writes (.mlogic n .and f) (fun x y => x && y) ∧ writes (.mlogic n .or f) (fun x y => x || y)
      ∧ writes (.mlogic n .xor f) (fun x y => x != y) ∧ writes (.mlogic n .andn f) (fun x y => x && !y)
      ∧ (f.vs2 = 0 → writes (.mnot n f) (fun x _ => !x)))
    ∧ VecX (.mpopc n f) s n f.vd (BitVec.ofNat 64 set.length)
    ∧ VecX (.mfirst n f) s n f.vd (match set with | [] => BitVec.allOnes 64 | i :: _ => BitVec.ofNat 64 i)

/-- R102, R103, R122: VCFGI and VCFGR set VCFG and VL; VRD reads a control register; VWR writes one, VFAULT alone in leg mode.
R105: the VECTOR trap with its subcode in PTVAL[34:32]: CFG, GROUP_ALIGN, OVERLAP, TYPE, MASK, RANGE. -/
def Obligations.VectorControlAndTraps : Prop :=
  (∀ (n : Nat) (f : VF) (s : State), s.executes n → f.s = false → f.x = false → f.men = false → f.ms = 0 →
      let p := s.pp n
      let ctl := fun (i : Instr) (x : BitVec 5 → Word) (vl vcfg vresume vfault : BitVec 32) =>
        ∃ t, exec i s = .next t ∧ (t.pp n).vl = vl ∧ (t.pp n).vcfg = vcfg ∧ (t.pp n).vresume = vresume ∧ (t.pp n).vfault = vfault
          ∧ s.GoesOn (t.setPp n { t.pp n with vl := p.vl, vcfg := p.vcfg, vresume := p.vresume, vfault := p.vfault }) n x (p.pc + 4)
      let valid := fun (c : Nat) => c < 128 ∧ (c / 64 = 1 → c % 4 = 3 ∧ c / 4 % 4 ≠ 0)
      let maxvl := fun (c : Nat) => 2 ^ (c / 4 % 4) * 2048 / (if c / 64 % 2 = 1 then 128 else 8 * 2 ^ (c % 4))
      let v : BitVec 32 := (p.getX f.vs2).setWidth 32
      (∀ g : IF, valid g.imm.toNat →
        let vl := min (p.getX g.rs1).toNat (maxvl g.imm.toNat)
        ctl (.vcfgi n g) (s.withX n g.rd (BitVec.ofNat 64 vl)) (BitVec.ofNat 32 vl) (BitVec.ofNat 32 g.imm.toNat) p.vresume p.vfault)
      ∧ (valid v.toNat →
        let vl := min (p.getX f.vs1).toNat (maxvl v.toNat)
        ctl (.vcfgr n f) (s.withX n f.vd (BitVec.ofNat 64 vl)) (BitVec.ofNat 32 vl) v p.vresume p.vfault)
      ∧ (f.vs1 = 0 → Gives (.vrd n f) s n f.vd (p.vl.setWidth 64)) ∧ (f.vs1 = 1 → Gives (.vrd n f) s n f.vd (p.vcfg.setWidth 64))
      ∧ (f.vs1 = 2 → Gives (.vrd n f) s n f.vd (p.vresume.setWidth 64)) ∧ (f.vs1 = 3 → Gives (.vrd n f) s n f.vd (p.vfault.setWidth 64))
      ∧ (f.vs1 = 3 → ctl (.vwr n f) p.getX p.vl p.vcfg p.vresume (v &&& 0x17FFF))
      ∧ (p.mode = .pilot →
        (f.vs1 = 0 → ctl (.vwr n f) p.getX (BitVec.ofNat 32 (min (v.toNat % 4096) (maxvl p.vcfg.toNat))) p.vcfg p.vresume p.vfault)
        ∧ (f.vs1 = 1 → valid v.toNat → ctl (.vwr n f) p.getX p.vl v p.vresume p.vfault)
        ∧ (f.vs1 = 2 → ctl (.vwr n f) p.getX p.vl p.vcfg (v &&& 0xFFF) p.vfault))
      ∧ (f.vs1 = 0 ∨ f.vs1 = 1 ∨ f.vs1 = 2 → (s.ppLeg n).isSome = true →
        exec (.vwr n f) s = .next ((s.trap n trapPrivileged (encV 0x37 0x11 f)).stepDone n)))
  ∧ (∀ (n : Nat) (f : VF) (s : State), s.executes n → f.s = false → f.x = false →
      let p := s.pp n
      let ok := fun (r : BitVec 5) => r.toNat % p.vc.g = 0
      let traps := fun (i : Instr) (w : Word) (k : Nat) => exec i s = .next ((s.trap n trapVector (w + BitVec.ofNat 64 (k * 2 ^ 32))).stepDone n)
      (∀ g : IF, 128 > g.imm.toNat → ¬ (g.imm.toNat / 64 = 1 → g.imm.toNat % 4 = 3 ∧ g.imm.toNat / 4 % 4 ≠ 0) → traps (.vcfgi n g) (encI 0x30 g) 1)
      ∧ (p.vc.dec = false → ¬ ok f.vd → ok f.vs1 → ok f.vs2 → traps (.vadd n f) (encV 0x33 0x00 f) 2)
      ∧ (f.men = true → ok f.vd → f.vs1 = f.vd → traps (.vcompress n f) (encV 0x36 0x10 f) 3)
      ∧ (p.vc.dec = true → ok f.vd → ok f.vs1 → ok f.vs2 → traps (.vmul n f) (encV 0x33 0x0E f) 4)
      ∧ (f.men = false → ok f.vd → ok f.vs1 → ok f.vs2 → traps (.vmerge n f) (encV 0x33 0x15 f) 5)
      ∧ (p.vc.dec = false → f.md ≠ 0 → ok f.vd → 32 < f.vd.toNat + (f.md.toNat + 1) * p.vc.g →
          traps (.vldseg n f) (encV 0x31 (4 + f.md.toNat * 8) f) 6))

/-- R111–R115: the long loads and stores whose lines stand in the L2, from VRESUME 0.
R111, R114: the short load and store of 32 bytes, and the loads and stores of a mask, whose lines stand in the L2. -/
def Obligations.VectorLoadsAndStores : Prop :=
  (∀ (n : Nat) (f : VF) (s : State), s.executes n → f.s = false → f.x = false → (s.pp n).vresume = 0 → (s.pp n).eltAt = 0 →
      let p := s.pp n
      let c := p.vc
      let ew := c.w / 8
      let nf := f.md.toNat + 1
      let base := (p.getX f.vs1).toNat
      let stride := (p.getX f.vs2).toNat
      let iw := 8 * 2 ^ (f.md.toNat % 4)
      let span := max 1 (c.g * iw / c.sew)
      let unit := fun (k : Nat) => (base + k * ew) % 2 ^ 64
      let strided := fun (k : Nat) => (base + k * stride) % 2 ^ 64
      let indexed := fun (k : Nat) => (base + p.elt f.vs2.toNat iw k * (if 4 ≤ f.md.toNat then ew else 1)) % 2 ^ 64
      c.vl ≤ c.max → p.groupOk f.vd →
      (f.md = 0 → base % ew = 0 →
        VecLoads (.vld n f) s n f 1 unit ∧ VecLoads (.vldff n f) s n f 1 unit ∧ VecStores (.vst n f) s n f 1 unit)
      ∧ (f.md = 0 → VecLoads (.vlds n f) s n f 1 strided ∧ VecStores (.vsts n f) s n f 1 strided)
      ∧ (c.dec = false → span ≤ 8 → f.vs2.toNat % span = 0 →
        VecStores (.vstx n f) s n f 1 indexed
        ∧ ((f.vd.toNat + c.g ≤ f.vs2.toNat ∨ f.vs2.toNat + span ≤ f.vd.toNat) → VecLoads (.vldx n f) s n f 1 indexed))
      ∧ (c.dec = false → f.md ≠ 0 → nf * c.g ≤ 8 → f.vd.toNat + nf * c.g ≤ 32 →
        (base % ew = 0 → VecLoads (.vldseg n f) s n f nf (fun k => (base + k * nf * ew) % 2 ^ 64)
          ∧ VecStores (.vstseg n f) s n f nf (fun k => (base + k * nf * ew) % 2 ^ 64))
        ∧ VecLoads (.vldsegs n f) s n f nf strided ∧ VecStores (.vstsegs n f) s n f nf strided))
  ∧ (∀ (n : Nat) (f : VF) (s : State), s.executes n → f.x = false → f.md = 0 → (s.pp n).vresume = 0 → (s.pp n).eltAt = 0 →
      let p := s.pp n
      let c := p.vc
      let base := (p.getX f.vs1).toNat
      let len := (c.vl + 7) / 8
      c.dec = false →
      s.soundCaches n →
      (f.s = true → ∀ x, s.readsAs n base 32 x → (∃ k, k < 256 / c.sew ∧ p.on f k = true) →
        ∃ t, exec (.vld n f) s = .next t ∧ s.VecMemDone t n ∧ s.storedAll t (ppCluster n) [] ∧ p.onlyV (t.pp n) f.vd.toNat 1
          ∧ (∀ k, k < 256 / c.sew → (t.pp n).elt f.vd.toNat c.sew k =
              if p.on f k then x / 2 ^ (k * c.sew) % 2 ^ c.sew else if c.mz then 0 else p.elt f.vd.toNat c.sew k)
          ∧ (∀ b, 256 ≤ b → ((t.pp n).getV f.vd.toNat).getLsbD b = false))
      ∧ (f.s = true → (s.cl (ppCluster n)).allocates = true → ∀ d, s.writesAt n base 32 d →
        (∀ k, k < 256 / c.sew → s.writesAt n (base + k * (c.sew / 8)) (c.sew / 8) (d + k * (c.sew / 8))) →
        ∃ t, exec (.vst n f) s = .next t ∧ s.VecMemDone t n ∧ p.onlyV (t.pp n) 0 0
          ∧ s.storedAll t (ppCluster n) (((List.range (256 / c.sew)).filter (p.on f)).map (fun k =>
              (d + k * (c.sew / 8), leBytes (c.sew / 8) (p.elt f.vd.toNat c.sew k)))))
      ∧ (f.s = false → f.vd.toNat < 8 → f.vs2 = 0 → f.men = false → f.ms = 0 → c.vl ≠ 0 →
        (∀ val : Nat → Nat, (∀ j, j < len → s.readsAs n ((base + j) % 2 ^ 64) 1 (val j)) →
          ∃ t, exec (.vldm n f) s = .next t ∧ s.VecMemDone t n ∧ s.storedAll t (ppCluster n) [] ∧ p.onlyM (t.pp n) f.vd.toNat
            ∧ ∀ b, b < 2048 → ((t.pp n).getM f.vd.toNat).getLsbD b =
                if b < c.vl then (val (b / 8)).testBit (b % 8) else if c.tz then false else (p.getM f.vd.toNat).getLsbD b)
        ∧ (∀ dpa : Nat → Nat, (s.cl (ppCluster n)).allocates = true → (∀ j, j < len → s.writesAt n ((base + j) % 2 ^ 64) 1 (dpa j)) →
          ∃ t, exec (.vstm n f) s = .next t ∧ s.VecMemDone t n ∧ p.onlyM (t.pp n) f.vd.toNat ∧ (t.pp n).getM f.vd.toNat = p.getM f.vd.toNat
            ∧ s.storedAll t (ppCluster n) ((List.range len).map (fun j =>
                (dpa j, leBytes 1 ((p.getM f.vd.toNat).toNat / 2 ^ (8 * j) % 256 % 2 ^ (c.vl - 8 * j))))))))

/-! ### The words of the statements about operator units -/

namespace Sys2Proof.Machine

/-- The ticket slot of the command (leg `l`, slot `k`) holds a ticket whose command is outstanding. -/
def State.awaits (s : State) (l k : Nat) (g : Leg) (tk : Ticket) : Prop := s.leg? l = some g ∧ tget? g.tickets k = some tk

/-- The command (leg `l`, slot `k`) has completed with `code` and `result`: its ticket holds the status, and every other slot of the leg is as in
`g` (R84). -/
def State.completed (t : State) (l k : Nat) (g : Leg) (tk : Ticket) (code result : Nat) : Prop :=
  t.leg? l = some { g with tickets := tput g.tickets k { tk with status := some (BitVec.ofNat 64 (code + result * 65536)) } }

/-- No read of host memory is lacking for the command whose effect is `f` (R373): it is not held up. -/
def State.ready (s : State) (f : State → State) : Prop := (f s.asking).hostMiss = none

/-- The unit context of a command; `chan` is the first bank of the ASA set. -/
def UnitCmd.ctx (u : UnitCmd) (agent : Nat) (sel : WSel) (chan : Nat := 0) : UCtx :=
  { agent := agent, sel := sel, part := u.part, leg := u.leg, chan := chan }

end Sys2Proof.Machine

/-- R156, R168, R191, R214, R220, R240, R251, R252: a START completes whenever its unit is free, a command waits and no read of host memory is
lacking for it: the unit takes its oldest command, a free digest unit the oldest queued job of the highest class or goes on with the job
that it saved; with every digest unit busy, the victim's job is saved and the best queued job takes its unit.  What a unit's progress may
show (`scanBound` and its like) and the compressor's first phase are the model's (log entries 12, 13).
R82: a command whose descriptor address is not 64-byte aligned reads no descriptor and completes with its unit's DESC_INVALID. -/
def Obligations.UnitStartsAndRejects : Prop :=
  (∀ (c b d n : Nat) (s : State) (u : UnitCmd) (rest : List UnitCmd),
      let k := s.cl c
      let taken : CmdUnit := { queue := rest, running := some u, done := 0, limit := n }
      (s.unitsOn c = true →
        (k.upu.running = none → k.upu.queue = u :: rest → scanBound c u s.asking = (n, s.asking) →
          exec (.upuCommandStart c) s = .next (s.setCl c { k with upu := taken }))
        ∧ (k.su.running = none → k.su.queue = u :: rest → suBound c u s.asking = (n, s.asking) →
          exec (.suCommandStart c) s = .next (s.setCl c { k with su := taken }))
        ∧ (k.cmp.running = none → k.cmp.queue = u :: rest → cmpBound c u s.asking = (n, s.asking) →
          ∃ ph, 1 ≤ ph ∧ ph ≤ 2
            ∧ exec (.compressorCommandStart c) s = .next (s.setCl c { k with cmp := taken, cmpPhase := ph, cmpStamp := s.fc.chrono }))
        ∧ (k.hu.running = none → k.hu.queue = u :: rest → huBound c u s.asking = (n, s.asking) →
          let v := s.setCl c { k with hu := taken, huSent := 0, huFault := none }
          (∀ r x, uRun (huStart (huCtx c u) c u) v.asking = (r, x) → x.hostMiss = none → (∀ f, r = .ok f → f.shuf = none) →
            exec (.huCommandStart c) s = .next v)
          ∧ (s.ready (doHuStart c) → ∃ t, exec (.huCommandStart c) s = .next t ∧ (t.cl c).hu.running = some u ∧ (t.cl c).hu.queue = rest
              ∧ t.legs = s.legs ∧ t.mem = s.mem)))
      ∧ (s.frozen = false →
        ((s.asaSet b).srun = none → (s.asaSet b).sq = u :: rest →
          ∃ t, exec (.asaSearchStart b) s = .next t ∧ (t.asaSet b).srun = some u ∧ (t.asaSet b).sq = rest
            ∧ (t.asaSet b).uq = (s.asaSet b).uq ∧ (t.asaSet b).urun = (s.asaSet b).urun
            ∧ { t with asaSets := s.asaSets, hostGot := s.hostGot } = s)
        ∧ (∀ r s1, (s.asaSet b).urun = none → (s.asaSet b).uq = u :: rest →
          uRun (updateStart (u.ctx 6 .io b) u) s.asking = (r, s1) → s1.hostMiss = none →
          ∃ t, exec (.asaUpdateStart b) s = .next t ∧ (t.asaSet b).urun = some u ∧ (t.asaSet b).uq = rest ∧ (t.asaSet b).uidx = 0
            ∧ (t.asaSet b).sq = (s.asaSet b).sq ∧ (t.asaSet b).srun = (s.asaSet b).srun ∧ t.mem = s1.mem
            ∧ (∀ db, r = .ok db → (t.asaSet b).udesc = some db ∧ (t.asaSet b).ustop = none)
            ∧ (∀ e, r = .error e → (t.asaSet b).udesc = none ∧ (t.asaSet b).ustop = some (e.status 0x0609 0x060A)))
        ∧ (d < 16 → (s.du d).running = none → s.ready (doDuStart d) →
          (∀ j, bestJob s.duQueue = some j → (s.du d).saved = [] → (∀ o, o < d → (s.du o).running ≠ none) →
            ∃ t, exec (.duJobStart d) s = .next t ∧ j ∈ s.duQueue ∧ (∀ o ∈ s.duQueue, o.cls ≤ j.cls)
              ∧ (∀ o ∈ s.duQueue, o.cls = j.cls → j.order ≤ o.order) ∧ t.duQueue = s.duQueue.erase j
              ∧ (t.du d).running = some { j with start := some s.fc.chrono } ∧ (∀ o, o ≠ d → t.du o = s.du o) ∧ t.mem = s.mem)
          ∧ (∀ v, (s.du d).saved = [v] → s.duQueue = [] →
            ∃ t, exec (.duJobStart d) s = .next t ∧ (t.du d).running = some v ∧ (t.du d).saved = [] ∧ t.duQueue = []
              ∧ (∀ o, o ≠ d → t.du o = s.du o) ∧ t.mem = s.mem))
        ∧ (∀ v j, (∀ o, o < 16 → (s.du o).running ≠ none) → bestJob s.duQueue = some j → (s.du d).running = some v →
          s.duVictim j.cls = some d → s.ready (doDuPreempt d) →
          ∃ t x, exec (.duPreempt d) s = .next t ∧ (t.du d).running = some { j with start := some s.fc.chrono }
            ∧ (t.du d).saved = (s.du d).saved ++ [{ v with preempted := true, ctx := x }] ∧ t.duQueue = s.duQueue.erase j
            ∧ t.duPreempts = s.duPreempts + 1 ∧ (∀ o, o ≠ d → t.du o = s.du o) ∧ v.cls < j.cls ∧ (s.du d).saved.length < 4)))
  ∧ (∀ (c b d : Nat) (s : State) (u : UnitCmd) (g : Leg) (tk : Ticket), u.desc.toNat % 64 ≠ 0 → s.awaits u.leg u.slot g tk →
      (∀ e, g.place ≠ .closed e) →
      let ends := fun (i : Instr) (code : Nat) =>
        ∃ t, exec i s = .next t ∧ t.completed u.leg u.slot g tk code 0 ∧ ∀ a, memGet t.mem a = memGet s.mem a
      (s.unitsOn c = true →
        ((s.cl c).upu.running = some u → ends (.upuCommandDone c) 0x0101)
        ∧ ((s.cl c).hu.running = some u → s.chain.shuffles = [] → ∀ js k, ends (.huCommandDone c js k) 0x0201)
        ∧ ((s.cl c).su.running = some u → ends (.suCommandDone c) 0x0301)
        ∧ ((s.cl c).cmp.running = some u → ends (.compressorCommandDone c) 0x0401))
      ∧ (s.frozen = false →
        ((s.asaSet b).srun = some u → (s.asaSet b).sdesc = none → ends (.asaCommandDone b false) 0x0601)
        ∧ (∀ rest, (s.asaSet b).urun = none → (s.asaSet b).uq = u :: rest →
            ∃ t, exec (.asaUpdateStart b) s = .next t ∧ (t.asaSet b).ustop = some 0x0601 ∧ t.legs = s.legs)
        ∧ (∀ j, (s.du d).running = some j → j.leg = u.leg → j.slot = u.slot → j.desc = u.desc → j.ctx = none → ends (.duJobDone d) 0x0701)))

/-- R84, R153, R188, R204, R230, R238, R254: a unit's running command completes: the unit is free, its counters have advanced, and the ticket holds
the code and the result of the work, when no read of host memory is missing (log entry 9). -/
def Obligations.UnitCompletions : Prop :=
  ∀ (c d : Nat) (s0 s s1 : State) (u : UnitCmd) (g g1 : Leg) (tk : Ticket) (code res rows : Nat), s = s0.asking → s1.hostMiss = none →
    s.leg? u.leg = some g → s1.awaits u.leg u.slot g1 tk →
    let done := fun (i : Instr) (free : State → Prop) (res : Nat) =>
      ∃ t, exec i s0 = .next t ∧ free t ∧ t.completed u.leg u.slot g1 tk code res ∧ t.mem = s1.mem
    (s.unitsOn c = true →
      ((s.cl c).upu.running = some u → u.cmd = 1 → scanRun c g u s = (code, res, rows, s1) →
        done (.upuCommandDone c) (fun t => (t.cl c).upu.running = none ∧ (t.cl c).upuRows = (s1.cl c).upuRows + rows) res)
      ∧ ((s.cl c).upu.running = some u → u.cmd ≠ 1 → decodeRun c u s = (code, rows, s1) →
        done (.upuCommandDone c) (fun t => (t.cl c).upu.running = none ∧ (t.cl c).decodeOut = (s1.cl c).decodeOut + rows) rows)
      ∧ ((s.cl c).su.running = some u → suRun c u s = (code, rows, s1) →
        done (.suCommandDone c) (fun t => (t.cl c).su.running = none ∧ (t.cl c).suOut = (s1.cl c).suOut + rows) rows)
      ∧ (∀ js k x y, (s.cl c).hu.running = some u → s.chain.shuffles = [] → s.chain.shuffleEnd = [] → (∀ e, g1.place ≠ .closed e) →
        (s.cl c).huFault = none → (s.cl c).huSent = 0 →
        huRun c u none js k s = (code, res, rows, x, y, s1) →
        done (.huCommandDone c js k) (fun t => (t.cl c).hu.running = none ∧ (t.cl c).huRows = (s1.cl c).huRows + rows) res)
      ∧ (∀ raw, (s.cl c).cmp.running = some u → code = 0 →
        uRun (compressRun (u.ctx 4 (.cluster c)) u (s.cl c).cmpStamp) s = (.ok (rows, raw), s1) →
        done (.compressorCommandDone c) (fun t => (t.cl c).cmp.running = none ∧ (t.cl c).cmpPhase = 0) rows))
    ∧ (s.frozen = false → ∀ j, (s.du d).running = some j → j.leg = u.leg → j.slot = u.slot → code ≠ 0x0705 → digestRun d j s = (code, res, rows, s1) →
        done (.duJobDone d) (fun t => (t.du d).running = none ∧ (t.du d).bytes = (s1.du d).bytes + rows) res)

/-- R220, R221, R223, R224, R226: an image of a running UPDATE commits to its entry; an UPDATE ends with the count of its images; a fallback read
refreshes the entry from its record, quarantines it, or leaves an entry that has committed since alone; a scrub repairs an array that its copy contradicts, and reads the record of a copy that is lost; a search with no key left ends with its header. -/
def Obligations.AssociativeArray : Prop :=
  ∀ (b slot : Nat) (s0 s s1 : State) (u : UnitCmd) (db im : List Byte) (g : AsaGroup), s = s0.asking → s.frozen = false →
    let a := s.asaSet b
    let dsc := UpdD.ofBytes db
    let idx := fld im 0 4
    let key := b * 8192 + slot
    let e := tgetD s.asa key .empty
    (a.urun = some u → a.udesc = some db → a.ustop = none → a.uidx < dsc.count → dsc.op = 0 → asaGroup s.asaCfg b = some g →
      uRun (uRead (u.ctx 6 .io b) (dsc.img + 96 * a.uidx) 96) s = (.ok im, s1) → s1.hostMiss = none → imgOk g.w im = true → idx < g.size →
      (tgetD s1.asa (g.key idx) .empty).held = false →
      let o := tgetD s1.asa (g.key idx) .empty
      ∃ t n, exec (.asaImageCommit b) s0 = .next t ∧ tget? t.asa (g.key idx) = some n ∧ n.valid = true ∧ n.quarantined = false
        ∧ n.arr = AsaImg.ofBytes im ∧ n.ecc = AsaImg.ofBytes im ∧ n.sel = !o.sel ∧ n.canon n.sel = some (AsaImg.ofBytes im)
        ∧ n.canon o.sel = o.canon o.sel ∧ (t.asaSet b).uidx = a.uidx + 1 ∧ (∀ k, k ≠ g.key idx → tget? t.asa k = tget? s1.asa k))
    ∧ (∀ gl tk, a.urun = some u → a.udesc = some db → (a.ustop.isSome = true ∨ dsc.count ≤ a.uidx) → s.awaits u.leg u.slot gl tk →
      ∃ t, exec (.asaCommandDone b true) s0 = .next t ∧ (t.asaSet b).urun = none ∧ t.completed u.leg u.slot gl tk (a.ustop.getD 0) a.uidx
        ∧ t.asa = s.asa ∧ t.mem = s.mem)
    ∧ (∀ m r more ec, e.fbs = r :: more → (∀ q, (s.asaSet q).sprop = none) →
      let becomes := fun (n : AsaEntry) =>
        ∃ t, exec (.asaFallbackReturn b slot ec) s0 = .next t ∧ tget? t.asa key = some n ∧ (∀ k, k ≠ key → tget? t.asa k = tget? s.asa k)
      (ec ≠ .uncorrectable → e.canon r = some m → e.sel = r → becomes { e with fbs := more, arr := m, ecc := m, eccState := .clean })
      ∧ (ec = .uncorrectable → becomes { e with fbs := more, quarantined := true })
      ∧ (ec ≠ .uncorrectable → e.sel ≠ r → becomes { e with fbs := more }))
    ∧ (tget? s.asa key = some e →
      ∃ t, exec (.asaScrub b slot) s0 = .next t ∧ (∀ k, k ≠ key → tget? t.asa k = tget? s.asa k)
        ∧ (e.eccState ≠ .uncorrectable → tget? t.asa key = some { e with arr := e.ecc, eccState := .clean })
        ∧ (e.eccState = .uncorrectable → e.sel ∉ e.fbs → tget? t.asa key = some { e with fbs := e.fbs ++ [e.sel] })
        ∧ (e.eccState = .clean → e.arr = e.ecc → t.asa = s.asa ∧ t.asaErr = s.asaErr ∧ t.err = s.err))
    ∧ (∀ gl tk, a.srun = some u → a.sdesc = some db → u.cmd = 1 → (SearchD.ofBytes db).count = 0 → asaGroup s.asaCfg b = some g →
      s.awaits u.leg u.slot gl tk →
      ∃ t, exec (.asaCommandDone b false) s0 = .next t ∧ (t.asaSet b).srun = none ∧ t.completed u.leg u.slot gl tk 0 0 ∧ t.mem = s.mem)

/-- R292, R298, R299: a CHRONO channel starts when the chronometer reaches its time; a burst that meets a bus error is made again, up to
RETRY_MAX times, and then ends the channel; a running channel that has moved its rows, in the arbiter's order of beats (R300), ends with
OK. -/
def Obligations.MoverEvents : Prop :=
  ∀ (c ch : Nat) (addr : Word) (s s1 : State) (k k1 : Channel) (g : Leg) (tk : Ticket), s.unitsOn c = true → tget? (s.cl c).dm ch = some k →
    (k.state = 1 → k.trigger = 2 →
      ∃ t, exec (.dmChronoTrigger c ch) s = .next t ∧ tget? (t.cl c).dm ch = some { k with state := 2 }
        ∧ t.fc.chrono.toNat = max s.fc.chrono.toNat k.trigArg.toNat ∧ t.mem = s.mem)
    ∧ (k.state = 2 → k.wait = false → k.touches addr.toNat = true → k.retry < (s.cl c).dmRetryMax →
      ∃ t, exec (.dmBusErrorRetry c ch addr) s = .next t
        ∧ tget? (t.cl c).dm ch = some { k with retry := k.retry + 1, buf := [], put := 0, mid := false }
        ∧ (t.cl c).dmRetries = (s.cl c).dmRetries + 1 ∧ t.mem = s.mem)
    ∧ (k.state = 2 → k.wait = false → k.touches addr.toNat = true → (s.cl c).dmRetryMax ≤ k.retry → (s.cl c).dm = [(ch, k)] → s.awaits k.leg k.slot g tk → (∀ e, g.place ≠ .closed e) →
      ∃ t, exec (.dmBusErrorRetry c ch addr) s = .next t
        ∧ tget? (t.cl c).dm ch = some { k with state := 4, status := 0x0506, drain := false }
        ∧ t.completed k.leg k.slot g tk 0x0506 k.rows ∧ t.mem = s.mem)
    ∧ (State.dmGo c ch (fun _ => false) dmFuel s = s1 → k1.state = 2 → k1.count ≤ k1.rows → (s1.cl c).dm = [(ch, k1)] →
      s1.awaits k1.leg k1.slot g tk → (∀ e, g.place ≠ .closed e) →
      ∃ t, exec (.dmChannelDone c ch) s = .next t
        ∧ tget? (t.cl c).dm ch = some { k1 with state := 4, status := 0, drain := false }
        ∧ t.completed k1.leg k1.slot g tk 0 k1.rows ∧ t.mem = s1.mem)

/-! ### The words of the statements about queues and administration -/

namespace Sys2Proof.Machine

/-- The engine runs, and takes commands and doorbells. -/
def State.serves (s : State) : Prop := s.frozen = false ∧ s.failStopped = false ∧ s.bootFailed = false

/-- The command is malformed: the engine fail-stops with the cause (R275, R277). -/
def FailStops (i : Instr) (s : State) (cause : Nat) : Prop :=
  ∃ t, exec i s = .next t ∧ t.admin.failStopped = true ∧ t.admin.faultCause = cause

/-- From `s` to `t` SQ `q` has become `k`, and nothing else differs. -/
def State.OnlySq (s t : State) (q : Nat) (k : Queue) : Prop := t.sq q = k ∧ (∀ r, r ≠ q → t.sq r = s.sq r) ∧ { t with sqs := s.sqs } = s

/-- As `OnlySq`, for a CQ. -/
def State.OnlyCq (s t : State) (q : Nat) (k : Queue) : Prop := t.cq q = k ∧ (∀ r, r ≠ q → t.cq r = s.cq r) ∧ { t with cqs := s.cqs } = s

/-- Partition `p` has halted in `t` with the cause (R276). -/
def State.Halts (s t : State) (p cause queue : Nat) (index : BitVec 32) : Prop :=
  t.part p = { s.part p with halted := true, haltCause := cause, haltQueue := queue, haltIndex := index }
  ∧ ∀ a, memGet t.mem a = memGet s.mem a

/-- One more completion slot is kept, for an administrative command whose entry has been read (R272). -/
def State.kept (s : State) : State := { s with admin := { s.admin with resv := s.admin.resv + 1 } }

/-- The administrative command `i` leads to `u`, and completes there. -/
def Completes (i : Instr) (s u : State) (cid : BitVec 16) (idx : BitVec 32) (op status : Nat) (result : Word) : Prop :=
  exec i s = .next (u.adminDone cid idx op status result)

end Sys2Proof.Machine

/-- R258, R259, R271: an SQ doorbell in range sets P, one out of range or backward halts the partition; a CQ doorbell in range sets C; a write
to a queue that is disabled, absent or of a halted partition changes no index and is logged. -/
def Obligations.Doorbells : Prop :=
  ∀ (q : Nat) (v : BitVec 32) (s : State), s.serves →
    let k := s.sq q
    let d := (v - k.c).toNat
    let old := (k.p - k.c).toNat
    let h := s.cq q
    let e := (v - h.c).toNat
    let a := s.admin
    let da := (v - a.sqC).toNat
    let olda := (a.sqP - a.sqC).toNat
    let ea := (v - a.cqC).toNat
    let stops := fun (i : Instr) (cause : Nat) => ∃ t, exec i s = .next t ∧ t.admin.failStopped = true ∧ t.admin.faultCause = cause
      ∧ ∀ b, memGet t.mem b = memGet s.mem b
    (k.exist = true → k.enable = true → (s.part k.part).halted = false →
      (old ≤ d → d ≤ 2 ^ k.sizeLog2 → ∃ t, exec (.sqDoorbell q v) s = .next t ∧ s.OnlySq t q { k with p := v })
      ∧ (2 ^ k.sizeLog2 < d → ∃ t, exec (.sqDoorbell q v) s = .next t ∧ s.Halts t k.part 0x0D q v)
      ∧ (d ≤ 2 ^ k.sizeLog2 → d < old → ∃ t, exec (.sqDoorbell q v) s = .next t ∧ s.Halts t k.part 0x0E q v))
    ∧ (h.exist = true → h.enable = true → (s.part h.part).halted = false →
      (e = 0 → exec (.cqDoorbell q v) s = .next s)
      ∧ (1 ≤ e → e ≤ (h.p - h.c).toNat → (s.part h.part).holding = [] → (s.part h.part).linkHeld = [] → s.fc.open' = false →
          ∃ t, exec (.cqDoorbell q v) s = .next t ∧ s.OnlyCq t q { h with c := v })
      ∧ ((h.p - h.c).toNat < e → ∃ t, exec (.cqDoorbell q v) s = .next t ∧ s.Halts t h.part 0x0F q v))
    ∧ (k.exist = true → k.enable = false → exec (.sqDoorbell q v) s = .next (s.log 0x0201 noInst k.part 0))
    ∧ (h.exist = true → h.enable = false → exec (.cqDoorbell q v) s = .next (s.log 0x0201 noInst h.part 0))
    ∧ (a.enable = true →
      (olda ≤ da → da ≤ 2 ^ a.sqSize → exec (.adminSqDoorbell v) s = .next { s with admin := { a with sqP := v } })
      ∧ (2 ^ a.sqSize < da → stops (.adminSqDoorbell v) 0x0D)
      ∧ (da ≤ 2 ^ a.sqSize → da < olda → stops (.adminSqDoorbell v) 0x0E)
      ∧ (ea = 0 → exec (.adminCqDoorbell v) s = .next s)
      ∧ (ea ≤ (a.cqP - a.cqC).toNat → a.waiting = [] → s.copies = [] →
          exec (.adminCqDoorbell v) s = .next { s with admin := { a with cqC := v } })
      ∧ ((a.cqP - a.cqC).toNat < ea → stops (.adminCqDoorbell v) 0x0F))
    ∧ (a.enable = false → exec (.adminSqDoorbell v) s = .next (s.log 0x0201 noInst noPart 0)
        ∧ exec (.adminCqDoorbell v) s = .next (s.log 0x0201 noInst noPart 0))

/-- R262, R266, R275, R373, R480: a fetch reads the slots from C on as far as P, the ring's end and the page; its data are checked and taken
in order; a failed read is issued again twice and then halts the partition, and a timeout is counted. -/
def Obligations.SubmissionFetches : Prop :=
  ∀ (q : Nat) (s : State), s.sqFetches q = true →
    let k := s.sq q
    let size := 2 ^ k.sizeLog2
    let ppa := bits k.base.toNat 47 12 * 4096 + k.c.toNat % size * 128
    let n := min (k.p - k.c).toNat (min (size - k.c.toNat % size) ((4096 - ppa % 4096) / 128))
    (k.slots = [] → k.fetch = none → k.c ≠ k.p → s.parityLive = [] →
      (∀ d s2, s.sttAccess k.part ppa needR = (.ok d, s2) → region s2 d ≠ .host →
        ∃ t, exec (.sqFetchIssue q) s = .next t ∧ s2.OnlySq t q { s2.sq q with
          fetch := some { first := k.c, count := n, fails := 0, waiting := false, upTo := k.p, dpa := d, linkDown := false } })
      ∧ (∀ x s2, s.sttAccess k.part ppa needR = (.error x, s2) →
        ∃ t, exec (.sqFetchIssue q) s = .next t ∧ (t.part k.part).halted = true))
    ∧ (∀ f, k.fetch = some f → f.waiting = false → f.count = 1 → region s f.dpa = .host → k.slots = [] → ∀ b : List Byte, b.length = 128 →
      (fld b 0 1 = 0 → fld b 1 1 = 1 → zeroAt b 2 126 = true →
        ∃ t, exec (.sqFetchData q b) s = .next t ∧ s.OnlySq t q { k with fetch := none, c := k.c + 1 })
      ∧ (2 ≤ fld b 0 1 → ∃ t, exec (.sqFetchData q b) s = .next t ∧ s.Halts t k.part 0x01 q k.c)
      ∧ (∀ s1, fld b 0 1 = 1 → inlineOf b = false → s.entryCause k b k.c f.upTo = none → s.fc.open' = false →
        s.placeEntry (s.legEntry q k b [] k.c) = some s1 →
        ∃ t, exec (.sqFetchData q b) s = .next t ∧ t.legs = s1.legs ∧ t.nextLeg = s1.nextLeg
          ∧ t.sq q = { k with fetch := none, c := k.c + 1 } ∧ ∀ a, memGet t.mem a = memGet s.mem a))
    ∧ (∀ f tm, k.fetch = some f → f.waiting = false →
      let h := (s.part k.part).hostPort
      let counted : State := if tm then s.setHp h { s.hp h with timeouts := min ((s.hp h).timeouts + 1) 0xFFFF } else s
      ((s.hp h).linkUp = false →
        ∃ t, exec (.sqFetchFail ⟨q, tm⟩) s = .next t ∧ s.OnlySq t q { k with fetch := some { f with waiting := true, linkDown := true } })
      ∧ ((s.hp h).linkUp = true → (s.hp h).timeouts ≤ 0xFFFF → f.fails < 2 →
        ∃ t, exec (.sqFetchFail ⟨q, tm⟩) s = .next t ∧ counted.OnlySq t q { k with fetch := some { f with waiting := true, fails := f.fails + 1 } })
      ∧ ((s.hp h).linkUp = true → 2 ≤ f.fails →
        ∃ t, exec (.sqFetchFail ⟨q, tm⟩) s = .next t ∧ s.Halts t k.part 0x13 q f.first ∧ (t.sq q).fetch = none))
    ∧ (∀ f, k.fetch = some f → f.waiting = true → region s f.dpa ≠ .host →
        ∃ t, exec (.sqFetchReissue q) s = .next t ∧ s.OnlySq t q { k with fetch := some { f with waiting := false, linkDown := false } })

/-- R265, R272: APPLY makes the shadow of a disabled ring live and clears its indexes and, as the model reads it (log entry 30), APPLY_ERR; on the
administrative pair it drops the read in flight (the model's choice, log entry 20); a check that fails sets APPLY_ERR, leaves the live set and
is logged; a write without APPLY writes the other fields.  No word of the group has bad parity (R417), and an APPLY that succeeds writes the
live words whole, so that a word of theirs whose parity was bad is good again (R418). -/
def Obligations.RingConfiguration : Prop :=
  ∀ (q : Nat) (w : BitVec 32) (s : State), s.frozen = false →
    let sz := w.toNat % 32
    let p := w.toNat / 65536 % 512
    let put := fun (k : Queue) (ev : Nat) =>
      { k with shSize := sz, applyErr := k.applyErr && !w.getLsbD 7, enable := w.getLsbD 5, ln := w.toNat / 256 % 64, part := p, event := ev }
    let live := fun (k : Queue) (ev : Nat) =>
      { put k ev with applyErr := false, base := k.shBase, sizeLog2 := sz, p := 0, c := 0, slots := [], fetch := none }
    let ok := fun (k : Queue) => k.enable = false ∧ 4 ≤ sz ∧ sz ≤ 16
    (w.getLsbD 6 = false → ∃ t, exec (.sqRingApply q w) s = .next t ∧ s.OnlySq t q (put (s.sq q) 0))
    ∧ (w.getLsbD 6 = true → s.parity = [] → ok (s.sq q) →
        ∃ t, exec (.sqRingApply q w) s = .next t ∧ (s.parityTaken (offSq q) 0x20).OnlySq t q (live (s.sq q) 0))
    ∧ (w.getLsbD 6 = true → s.parity = [] → ¬ ok (s.sq q) →
        ∃ u, exec (.sqRingApply q w) s = .next (u.log 0x0202 noInst p 0) ∧ s.OnlySq u q { put (s.sq q) 0 with applyErr := true })
    ∧ ((s.part p).linkHeld = [] → (s.part p).holding = [] → s.fc.open' = false → let ev := w.toNat / 2 ^ 25 % 32
      (w.getLsbD 6 = false → ∃ t, exec (.cqRingApply q w) s = .next t ∧ s.OnlyCq t q (put (s.cq q) ev))
      ∧ (w.getLsbD 6 = true → s.parity = [] → ok (s.cq q) →
        ∃ t, exec (.cqRingApply q w) s = .next t ∧ (s.parityTaken (offCq q) 0x20).OnlyCq t q (live (s.cq q) ev)))
    ∧ (let a := s.admin
      let n := w.toNat % 32
      let m := w.toNat / 256 % 32
      let sh := { a with shSqSize := n, shCqSize := m, applyErr := a.applyErr && !w.getLsbD 18, enable := w.getLsbD 16 }
      let kept := if a.fetch.isSome then a.resv - 1 else a.resv
      let good := s.pm.bootDone = true ∧ a.enable = false ∧ 4 ≤ n ∧ n ≤ 16 ∧ 4 ≤ m ∧ m ≤ 16 ∧ a.shSqBase.toNat < 0x700000000000
        ∧ a.shCqBase.toNat < 0x700000000000 ∧ kept ≤ 2 ^ m
      s.bootFailed = false → a.waiting = [] → s.copies = [] →
        (w.getLsbD 17 = false → exec (.adminApply w) s = .next { s with admin := sh })
        ∧ (w.getLsbD 17 = true → s.parity = [] → good → exec (.adminApply w) s = .next { s.parityTaken 0x400000 0x14 with admin :=
            { sh with applyErr := false, fetch := none, resv := kept, sqBase := a.shSqBase, cqBase := a.shCqBase, sqSize := n, cqSize := m, sqP := 0, sqC := 0, cqP := 0, cqC := 0 } })
        ∧ (w.getLsbD 17 = true → s.parity = [] → ¬ good → ∃ t, exec (.adminApply w) s = .next t ∧ t.admin = { sh with applyErr := true }
            ∧ ∀ b, memGet t.mem b = memGet s.mem b))

/-- R271, R272, R275, R483: an administrative entry is read while a completion slot is free; a completion is written to the slot at P, which
advances, and raises source 16,401; with the link down it waits; a malformed entry fail-stops the engine. -/
def Obligations.AdministrativePair : Prop :=
  ∀ (cid : BitVec 16) (idx : BitVec 32) (op status : Nat) (result : Word) (s : State), s.serves →
    let a := s.admin
    let slot := a.cqBase.toNat + a.cqP.toNat % 2 ^ a.cqSize * 32
    let c : AdminCpl := { cid := cid, status := status, opcode := op, result := result, stamp := s.fc.chrono, idx := idx }
    let up := (s.hp s.mgmtPort).linkUp
    (a.waiting = [] → s.copies = [] →
      (a.enable = true → (a.cqP - a.cqC).toNat < 2 ^ a.cqSize → up = true → slot + 32 ≤ 0x700000000000 →
        s.adminDone cid idx op status result = State.raise { s with
          admin := { a with cqP := a.cqP + 1, resv := a.resv - 1 }, mem := writeBytes s.mem (hostBase + slot) c.bytes,
          out := .hostWrite s.mgmtPort none slot c.bytes false (s.hp s.mgmtPort).vc1 :: s.out } 16401)
      ∧ (up = false ∨ a.enable = false →
          (s.adminDone cid idx op status result).admin = { a with waiting := [c] } ∧ (s.adminDone cid idx op status result).mem = s.mem))
    ∧ Completes (.adminNop cid idx) s s.kept cid idx 0 0 0
    ∧ (a.enable = true → a.fetch = none → a.sqP ≠ a.sqC → (a.cqP - a.cqC).toNat + a.resv < 2 ^ a.cqSize → up = true → s.parityLive = [] →
      let at' := a.sqBase.toNat + a.sqC.toNat % 2 ^ a.sqSize * 128
      at' + 128 ≤ 0x700000000000 → exec .adminFetchIssue s = .next { s with
        admin := { a with resv := a.resv + 1, fetch := some { first := a.sqC, count := 1, fails := 0, waiting := false, linkDown := false,
                                                              upTo := a.sqP, dpa := hostBase + at' } },
        out := .hostRead s.mgmtPort none at' 128 (s.hp s.mgmtPort).vc1 :: s.out })
    ∧ (∀ f b, a.fetch = some f → f.waiting = false → b.length = 128 → a.enable = true →
      (fld b 0 1 = 0 → fld b 1 1 = 1 → zeroAt b 4 124 = true →
        Completes (.adminFetchData b) s { s with admin := { a with fetch := none, sqC := a.sqC + 1 } } (BitVec.ofNat 16 (fld b 2 2)) f.first 0 0 0)
      ∧ (0x32 ≤ fld b 0 1 → ∃ t, exec (.adminFetchData b) s = .next t ∧ t.admin.failStopped = true ∧ t.admin.faultCause = 0x01))
    ∧ (∀ f, a.fetch = some f → a.enable = true → a.waiting = [] → s.copies = [] → up = true →
      (f.waiting = true → f.dpa + 128 ≤ hostBase + 0x700000000000 → exec .adminFetchRetry s = .next { s with
        admin := { a with fetch := some { f with waiting := false, linkDown := false } },
        out := .hostRead s.mgmtPort none (f.dpa - hostBase) 128 (s.hp s.mgmtPort).vc1 :: s.out })
      ∧ (f.waiting = false → exec .adminFetchRetry s = .next s))

/-- R274, R354, R360–R364: what each command on a partition does to it; a number outside the ranges of R273 is malformed (R275).  A reset of a partition whose quench is under way is that of the
state after the quench's effect (the model's choice, log entry 19). -/
def Obligations.PartitionCommands : Prop :=
  (∀ (cid : BitVec 16) (idx : BitVec 32) (p pasid port : Nat) (s : State), s.serves → p < 512 → pasid < 2 ^ 20 → port ≤ 3 →
    let q := s.part p
    let u := s.kept
    let none' := fun (i : Instr) (op : Nat) => q.exist = false → Completes i s u cid idx op 0x8002 0
    (q.exist = false → (∀ k, k < p → (s.part k).exist = true) → (∀ e ∈ s.parts, e.2.exist = true → e.2.pasid ≠ pasid) →
      ∃ n, Completes (.createPartition cid idx pasid port) s (u.setPart p n) cid idx 0x01 0 (BitVec.ofNat 64 p)
        ∧ n = { Part.reset with exist := true, quiesced := true, pasid := pasid, hostPort := port, xlat := { q.xlat with enable := false },
                                shXlat := { q.shXlat with enable := false }, xlatErr := q.xlatErr, faultN := q.faultN })
    ∧ ((∀ k, k < 512 → (s.part k).exist = true) → Completes (.createPartition cid idx pasid port) s u cid idx 0x01 0x8001 0)
    ∧ none' (.destroyPartition cid idx p) 0x02 ∧ none' (.resetPartition cid idx p) 0x03 ∧ none' (.quiescePartition cid idx p) 0x04
    ∧ none' (.resumePartition cid idx p) 0x05 ∧ none' (.quenchPartition cid idx p) 0x06
    ∧ (q.exist = true → q.quiesced = false →
        Completes (.destroyPartition cid idx p) s u cid idx 0x02 0x8003 0 ∧ Completes (.resetPartition cid idx p) s u cid idx 0x03 0x8003 0)
    ∧ (q.exist = true → q.quiesced = false → q.quiesce = none → (∀ e ∈ s.cls, ∀ x ∈ e.2.dm, x.2.part ≠ p) →
        (∀ e ∈ s.legs, e.2.entry.part = p → e.2.hold = none) →
        exec (.quiescePartition cid idx p) s = .next (u.setPart p { q with quiesce := some { tick := s.fc.epoch, cids := [(cid, idx)], resume := [] } }))
    ∧ (∀ k, k < s.fc.sealedIn → q.quiesce = some { tick := k, cids := [(cid, idx)], resume := [] } → q.linkHeld = [] →
        (∀ e ∈ s.legs, e.2.entry.part ≠ p) → (∀ e ∈ s.cls, e.2.dm = [] ∧ e.2.unitCmds = []) → (∀ e ∈ s.asaSets, e.2.cmds = []) → s.cmds = [] →
        (∀ e ∈ s.sqs, e.2.fetch = none) →
        exec (.quiesceDone p) s = .next (((s.setPart p { q with quiesce := none, quiesced := true }).adminDone cid idx 0x04 0 0).raisePart p 30))
    ∧ (q.exist = true → q.halted = true → Completes (.resumePartition cid idx p) s u cid idx 0x05 0x8004 0)
    ∧ (q.exist = true → q.halted = false → q.quiesce = none → q.quenchGo = false → s.grants = [] → s.fc.open' = false →
        exec (.resumePartition cid idx p) s = .next
          (((u.setPart p { q with quiesced := false, quenched := false }).adminDone cid idx 0x05 0 0).raisePart p 30))
    ∧ (q.exist = true → ∃ t, exec (.quenchPartition cid idx p) s = .next t
        ∧ t.part p = { q with quenching := q.quenching ++ [(cid, idx)], quenchGo := true } ∧ (∀ k, k ≠ p → t.part k = s.part k)
        ∧ { t with parts := s.parts } = u)
    ∧ (q.exist = true → exec (.quenchNow p) s = .next
        (State.setPart { s with quenchDone := false, quenchWait := some p } p { q with quenchGo := true }))
    ∧ (q.quenchGo = true → q.quenching = [] → s.quenchWait = some p → (∀ e ∈ s.cls, e.2.dm = []) →
        exec (.quenchEffect p) s = .next (State.raisePart { (s.setPart p { q with quenchGo := false, quenched := true }) with
          quenchDone := true, quenchWait := none } p 30))
    ∧ (q.exist = true → q.quiesced = true →
        (∀ t, exec (.quenchEffect p) u = .next t → (t.part p).quenchGo = false →
          exec (.resetPartition cid idx p) s = .next (State.admitAll (State.raisePart ((t.resetPart p).adminDone cid idx 0x03 0 0) p 30)))
        ∧ (q.quenchGo = false → ∃ v, exec (.resetPartition cid idx p) s = .next (State.admitAll ((State.adminDone v cid idx 0x03 0 0).raisePart p 30))
          ∧ v.part p = { q with halted := false, haltCause := 0, haltQueue := 0, haltIndex := 0, quenched := false, holding := [], linkHeld := [] }
          ∧ (∀ k, (s.sq k).exist = true → (s.sq k).part = p → v.sq k = { s.sq k with p := 0, c := 0, slots := [], fetch := none })
          ∧ (∀ e ∈ v.legs, e.2.entry.part = p → e.2.place.onList = false) ∧ ∀ a, memGet v.mem a = memGet s.mem a)
        ∧ (∃ v, exec (.destroyPartition cid idx p) s = .next (State.admitAll (State.adminDone v cid idx 0x02 0 0)) ∧ (v.part p).exist = false ∧ (v.part p).xlat.enable = false
          ∧ (∀ e ∈ v.sqs, e.2.part ≠ p) ∧ (∀ e ∈ v.cqs, e.2.part ≠ p))))
  ∧ (∀ (cid : BitVec 16) (idx : BitVec 32) (p pasid port : Nat) (s : State), s.serves →
    (2 ^ 20 ≤ pasid → FailStops (.createPartition cid idx pasid port) s 0x02)
    ∧ (pasid < 2 ^ 20 → 3 < port → FailStops (.createPartition cid idx pasid port) s 0x0C)
    ∧ (511 < p → FailStops (.destroyPartition cid idx p) s 0x0C ∧ FailStops (.resetPartition cid idx p) s 0x0C
      ∧ FailStops (.quiescePartition cid idx p) s 0x0C ∧ FailStops (.resumePartition cid idx p) s 0x0C
      ∧ FailStops (.quenchPartition cid idx p) s 0x0C))

/-- R264, R273: a queue takes the lowest local number free, and a pair of numbers; it starts enabled and empty.  A SIZE that is no power of
two of 16–65,536 is malformed, and so is a number outside its range (R275). -/
def Obligations.QueueCommands : Prop :=
  ∀ (cid : BitVec 16) (idx : BitVec 32) (p z n q event : Nat) (base : Word) (s : State), s.serves → (s.part p).exist = true →
    p < 512 → 4 ≤ z → z ≤ 16 → event ≤ 31 → n < 64 →
    let u := s.kept
    let k : Queue := { Queue.reset with exist := true, part := p, ln := n, enable := true, base := base, sizeLog2 := z, shBase := base, shSize := z }
    let free := fun (t : Table Queue) => (∀ e ∈ t, e.2.exist = true → e.2.part = p → e.2.ln ≠ n)
      ∧ ∀ m, m < n → ∃ e ∈ t, e.2.exist = true ∧ e.2.part = p ∧ e.2.ln = m
    let fresh := fun (t : Table Queue) => (∀ e ∈ t, e.2.exist = true → e.2.part = p → e.2.ln ≠ n) ∧ q < 8192 ∧ (s.sq q).exist = false
      ∧ (s.cq q).exist = false ∧ ∀ m, m < q → (s.sq m).exist = true ∨ (s.cq m).exist = true
    let num : Word := BitVec.ofNat 64 (q + n * 65536)
    (free s.cqs → fresh s.sqs →
      (base.toNat % 4096 = 0 → base.toNat < 2 ^ 48 →
        Completes (.createCq cid idx p (2 ^ z) base event) s (u.setCq q { k with event := event }) cid idx 0x10 0 num)
      ∧ (¬ (base.toNat % 4096 = 0 ∧ base.toNat < 2 ^ 48) → Completes (.createCq cid idx p (2 ^ z) base event) s u cid idx 0x10 0x800A 0))
    ∧ (free s.sqs → fresh s.cqs → base.toNat % 4096 = 0 → base.toNat < 2 ^ 48 →
        Completes (.createSq cid idx p (2 ^ z) base) s (u.setSq q k) cid idx 0x12 0 num)
    ∧ (s.cqLocal p n = none → Completes (.deleteCq cid idx p n) s u cid idx 0x11 0x8006 0)
    ∧ (s.cqLocal p n = some q →
      (s.cqUsed q = true → Completes (.deleteCq cid idx p n) s u cid idx 0x11 0x8008 0)
      ∧ (s.cqUsed q = false → Completes (.deleteCq cid idx p n) s { u with cqs := tdel s.cqs q } cid idx 0x11 0 0))
    ∧ (∀ x, s.sqs.find? (fun e => e.2.exist && e.2.part = p && e.2.ln = n) = some (q, x) →
      (s.sqBusy q = true → Completes (.deleteSq cid idx p n) s u cid idx 0x13 0x8007 0)
      ∧ (s.sqBusy q = false → Completes (.deleteSq cid idx p n) s { u with sqs := tdel s.sqs q } cid idx 0x13 0 0))
    ∧ (∀ m, (∀ y, 4 ≤ y → y ≤ 16 → m ≠ 2 ^ y) →
        FailStops (.createCq cid idx p m base event) s 0x0B ∧ FailStops (.createSq cid idx p m base) s 0x0B)
    ∧ (∀ m, 511 < m → FailStops (.createCq cid idx m (2 ^ z) base event) s 0x0C ∧ FailStops (.createSq cid idx m (2 ^ z) base) s 0x0C)
    ∧ (∀ m, 63 < m → FailStops (.deleteCq cid idx p m) s 0x0C ∧ FailStops (.deleteSq cid idx p m) s 0x0C)

/-- R163, R208, R209, R287, R332, R357, R405, R465: the commands that give a partition clusters, granules, banks, pipes, inboxes and events.
SET_INBOX writes a header of zeros.
R53, R273, R367, R375: READ_FIX_LOG and READ_PARTITION_FIX copy what the keep region holds to host memory; unmasking a vector, or enabling
MSI-X, sends the messages held for it; masking one, or disabling MSI-X, holds them. -/
def Obligations.ResourceAndReadCommands : Prop :=
  (∀ (cid : BitVec 16) (idx : BitVec 32) (p c i n lg width ceiling : Nat) (w base : Word) (classM : Bool) (s : State), s.serves → p < 512 →
      (s.part p).exist = true → c < 64 → ceiling ≤ 3 →
      let q := s.part p
      let u := s.kept
      let k := s.cl c
      (w ≠ q.clusters → q.quiesced = false → Completes (.setResources cid idx p w classM ceiling) s u cid idx 0x20 0x8003 0)
      ∧ (w = q.clusters ∨ (q.quiesced = true ∧ q.clusters &&& ~~~ w = 0) → s.fc.open' = false →
          Completes (.setResources cid idx p w classM ceiling) s (u.setPart p { q with clusters := w, classM := classM, ceiling := ceiling })
            cid idx 0x20 0 0)
      ∧ ((∃ g, g < 64 ∧ w.getLsbD g = true ∧ k.granuleUsed g = true) → Completes (.allocJoinStore cid idx p c w) s u cid idx 0x21 0x800B 0)
      ∧ ((∀ g, g < 64 → w.getLsbD g = true → k.granuleUsed g = false) →
          ∃ m, Completes (.allocJoinStore cid idx p c w) s (u.setCl c m) cid idx 0x21 0 0
            ∧ (∀ g, g < 64 → w.getLsbD g = true → m.owns p g = true ∧ (k.owns p g = false → ∀ e ∈ m.store, e.1 / 8192 ≠ g))
            ∧ (∀ g, 64 ≤ g ∨ w.getLsbD g = false → tget? m.owner g = tget? k.owner g)
            ∧ { m with owner := k.owner, store := k.store, firsts := k.firsts } = k)
      ∧ (lg ≤ 5 → width ≤ 2 → i % 2 ^ lg = 0 → i + 2 ^ lg ≤ 32 → (∀ b, i ≤ b → b < i + 2 ^ lg → asaGroup s.asaCfg b = none ∧ s.asaBusy b = false) →
          ∃ v, Completes (.allocAsa cid idx p i lg width) s v cid idx 0x22 0 0
            ∧ (∀ b, tgetD v.asaCfg b 0 = if i ≤ b ∧ b < i + 2 ^ lg then BitVec.ofNat 32 (p + 512 + 1024 * width + 4096 * lg) else tgetD s.asaCfg b 0)
            ∧ { v with asaCfg := s.asaCfg, asa := s.asa, cursors := s.cursors } = u)
      ∧ (i < 256 → k.pipes = [] → n < 16 → 4 ≤ lg → lg ≤ 14 → wayMode k.wayCfg n = .pipe → (∀ m, m < n → wayMode k.wayCfg m ≠ .pipe) →
          Completes (.bindPipes cid idx p c i 1 lg) s
            (u.setCl c { k with pipes := [(i, { part := p, depthLog2 := lg, way := n, set := 0, head := 0, entries := [], flaws := [] })] }) cid idx 0x23 0 0)
      ∧ (∀ x, i < 256 → 4 ≤ lg → lg ≤ 14 → k.pipes = [(i, x)] →
        Completes (.bindPipes cid idx p c i 1 lg) s u cid idx 0x23 0x800E 0
        ∧ (x.part ≠ p → Completes (.unbindPipes cid idx p c i 1) s u cid idx 0x24 0x800A 0)
        ∧ (x.part = p → s.pps = [] → k.dm = [] →
          Completes (.unbindPipes cid idx p c i 1) s (u.setCl c { k with pipes := [], wayCfg := setMode k.wayCfg x.way 0 }) cid idx 0x24 0 0))
      ∧ (s.chain.status = 3 → i ≤ 255 → base.toNat % 64 = 0 → base.toNat < 2 ^ 48 →
          let s1 := fun (n : Nat) => u.setPart p { q with inboxes := tput q.inboxes i { base := base, bytes := n, fill := 0, records := 0 } }
          Completes (.setInbox cid idx p i base 0) s (s1 0) cid idx 0x25 0 0
          ∧ (n % 64 = 0 → 128 ≤ n → n ≤ 0xFFFFFFC0 → ∀ d s2, (s1 n).sttAccess p base.toNat needW = (.ok d, s2) → region s2 d ≠ .host →
              Completes (.setInbox cid idx p i base n) s (s2.memWrite d (zeros 64)) cid idx 0x25 0 0))
      ∧ (s.chain.status ≠ 3 → i ≤ 255 → n ≤ 0xFFFFFFFF → Completes (.setInbox cid idx p i base n) s u cid idx 0x25 0x8011 0)
      ∧ (c < 4 → n < 4096 → i ≤ 16895 → s.evtPend.contains i = false →
          Completes (.mapEvent cid idx i c n classM) s
            { u with evtMap := tput s.evtMap i (BitVec.ofNat 32 (n + 4096 * c + 16384 * b2n classM)) } cid idx 0x26 0 0))
  ∧ (∀ (cid : BitVec 16) (idx : BitVec 32) (n count h v : Nat) (dest : Word) (s : State), s.serves →
      let u := s.kept
      let k := s.hp h
      let rec' := readBytes s.mem (keepLog + n % logRing * 64) 64
      (dest.toNat % 64 = 0 → dest.toNat + 64 * count ≤ 0x700000000000 → 1 ≤ count → count ≤ 65536 → n < 2 ^ 64 →
        (s.fc.sealed.toNat < n → Completes (.readFixLog cid idx (BitVec.ofNat 64 n) count dest) s u cid idx 0x30 0x8010 0)
        ∧ (s.fc.sealed.toNat = n → fld rec' 0 2 = 0x4658 → fld rec' 8 8 = n →
            Completes (.readFixLog cid idx (BitVec.ofNat 64 n) count dest) s { u with copies := s.copies ++ [(dest.toNat, rec')] } cid idx 0x30 0 1))
      ∧ (dest.toNat % 64 = 0 → dest.toNat + 8192 ≤ 0x700000000000 →
          Completes (.readPartitionFix cid idx dest) s { u with copies := s.copies ++ [(dest.toNat, readBytes s.mem 0x1000 8192)] } cid idx 0x31 0 0)
      ∧ (dest.toNat % 64 ≠ 0 → Completes (.readPartitionFix cid idx dest) s u cid idx 0x31 0x800A 0
          ∧ (1 ≤ count → count ≤ 65536 → Completes (.readFixLog cid idx (BitVec.ofNat 64 n) count dest) s u cid idx 0x30 0x800A 0))
      ∧ (count = 0 ∨ 65536 < count → FailStops (.readFixLog cid idx (BitVec.ofNat 64 n) count dest) s 0x0C)
      ∧ (h < 4 → v < 4096 → k.linkUp = true → k.msixEn = true → k.unmasked.contains v = false →
        (k.pba = [v] → exec (.msixUnmask h (.unmask v)) s = .next ((s.setHp h { k with unmasked := v :: k.unmasked, pba := [] }).emit (.msix h v)))
        ∧ (k.pba = [] → exec (.msixUnmask h (.unmask v)) s = .next (s.setHp h { k with unmasked := v :: k.unmasked })))
      ∧ (h < 4 → k.linkUp = true → k.pba = [v] → k.unmasked = [v] →
          exec (.msixUnmask h (.enable true)) s = .next ((s.setHp h { k with msixEn := true, pba := [] }).emit (.msix h v)))
      ∧ (h < 4 → v < 4096 →
        exec (.msixUnmask h (.mask v)) s = .next (s.setHp h { k with unmasked := k.unmasked.filter (fun x => x ≠ v) })
        ∧ exec (.msixUnmask h (.enable false)) s = .next (s.setHp h { k with msixEn := false })))

/-! ### The words of the statements about epochs -/

namespace Sys2Proof.Machine

/-- The engine stands alone: no chain is formed or expected. -/
def State.alone (s : State) : Prop := s.chain.mode = 0 ∧ s.chain.status = 0

/-- The head of a chain of two or more units, none of whose links is up. -/
def State.headAlone (s : State) : Prop := s.chain.mode = 1 ∧ s.chain.status = 3 ∧ 2 ≤ s.chain.units ∧ s.chain.links = []

/-- A member of a chain of two or more units, none of whose links is up. -/
def State.memberAlone (s : State) : Prop := s.chain.mode = 2 ∧ s.chain.status = 3 ∧ 2 ≤ s.chain.units ∧ s.chain.links = []

/-- The set of group EPOCH in the shadow passes the check of R34 for an engine that stands alone. -/
def State.epochSetGood (s : State) : Prop :=
  10 ≤ s.fc.sh.lenUs ∧ s.fc.sh.lenUs ≤ 1000 ∧ (∀ x ∈ s.fc.sh.share, x.2 ≤ 1000)
  ∧ (s.fc.sh.run = true ∨ s.fc.live.run = false ∨ ∀ x ∈ s.parts, x.2.exist = true → x.2.quiesced = true)

end Sys2Proof.Machine

/-- R30, R34–R36, R43, R52, R286: EPOCH_APPLY starts ticking or leaves the set pending; a tick stops the running legs, makes the pending set live
and begins the next epoch; a set that breaks R34 sets APPLY_ERR, and one that passes clears it (that, the model's
reading, log entry 30); in a chain an epoch opens 2 µs after its tick at the latest. -/
def Obligations.EpochTicks : Prop :=
  ∀ (s : State), s.serves →
    let f := s.fc
    let e := f.sh
    (s.alone → s.parity = [] → s.parityLive = [] →
      (s.epochSetGood → f.ticking = false → e.run = true → s.legs = [] →
        exec .epochApply s = .next { s with
          fc := { f with live := e, pending := none, applyErr := false, ticking := true, epoch := f.sealed.toNat + 1, epochLen := e.lenUs,
                         capMhz := f.cclk, open' := true,
                         lastTick := f.chrono, nextTick := f.chrono + BitVec.ofNat 64 (1000 * e.lenUs), tickLast := false, tickHeld := false },
          pps := tmap s.pps (fun _ p => { p with charged := 0 }) })
      ∧ (s.epochSetGood → f.ticking = true → exec .epochApply s = .next { s with fc := { f with pending := some (e, false), applyErr := false } })
      ∧ (¬ s.epochSetGood → ∃ t, exec .epochApply s = .next t ∧ t.fc = { f with applyErr := true } ∧ ∀ a, memGet t.mem a = memGet s.mem a)
      ∧ (f.ticking = true → (∀ x ∈ f.fixes, x.2.last = false) → f.tickEarly = none →
        let set := match f.pending with | some x => x.1 | none => f.live
        ∃ t, exec .epochTick s = .next t ∧ t.fc.epoch = f.epoch + 1 ∧ t.fc.live = set ∧ t.fc.pending = none ∧ t.fc.open' = false
          ∧ t.fc.chrono.toNat = max f.chrono.toNat f.nextTick.toNat ∧ t.fc.lastTick = f.nextTick ∧ t.fc.sealed = f.sealed
          ∧ t.fc.epochLen = set.lenUs ∧ t.fc.nextTick = f.nextTick + BitVec.ofNat 64 (1000 * set.lenUs)
          ∧ tget? t.fc.fixes f.epoch = some
              { tickStamp := f.nextTick, lenUs := f.epochLen, cut := (List.range 64).filter (fun c => !s.pm.gated.contains (c / 16)),
                carriedLegs := 0, newSet := f.pending.isSome, readySent := false, fixIn := tget? f.fixEarly f.epoch, last := !set.run }
          ∧ (∀ n, (t.pp n).charged = 0)
          ∧ (∀ l g n, s.leg? l = some g → g.place = .running n → (s.pp n).mode = .leg → (s.pp n).dbg = .no →
              ∃ g', t.leg? l = some g' ∧ g'.stopped = true ∧ g'.place = .running n ∧ g'.charge = 0)
          ∧ (∀ l g n, s.leg? l = some g → g.place = .running n → (s.pp n).mode = .pilot → g.stopped = false → (t.pp n).stopPend = true)
          ∧ (∀ c, t.cl c = s.cl c) ∧ ∀ a, memGet t.mem a = memGet s.mem a))
    ∧ (s.inChain = true → f.ticking = true → f.open' = false → (∀ x ∈ f.fixes, x.2.last = false) → s.legs = [] →
        let t := s.reach (f.lastTick + 2000)
        exec .epochOpenTimeout s = .next { t with fc := { t.fc with open' := true } })

/-- R43, R48, R50–R55, R58, R95, R434: the cut captures a stopped leg's waypoint and traps its PP to firmware; the seal writes the fix record,
then FC.SEALED_FIX, then the completions of the legs closed in the fix; without a reservation nothing is sealed. -/
def Obligations.CutAndSeal : Prop :=
  ∀ (c i : Nat) (x : Fix) (s : State), s.serves → s.alone →
    let n := s.fc.sealed.toNat + 1
    (s.fc.fixes = [(n, x)] → x.cut.contains c = true →
      (s.legs = [] → exec (.cutDone c) s = .next { s with fc := { s.fc with fixes := [(n, { x with cut := x.cut.filter (· ≠ c) })] } })
      ∧ (∀ l g k, i < 4 → let m := 4 * c + i
        let p := s.pp m
        let d := waypointBase c k
        s.legs = [(l, g)] → s.pps = [(m, p)] → p.running = some l → p.mode = .leg → p.blocked = .none → g.stopped = true → g.place = .running m →
        g.wpSlot = some (c, k) → (∀ e ∈ (s.cl c).l2, e.1 * 64 + 64 ≤ d ∨ d + 12288 ≤ e.1 * 64) → s.fc.open' = false → s.quiescing g.entry.part = false → (p.getCsr csrCARRIES).toNat < 65535 →
        ∃ t g', exec (.cutDone c) s = .next t ∧ t.leg? l = some g' ∧ g'.carries = (p.getCsr csrCARRIES).toNat + 1 ∧ g'.place = .running m
          ∧ g'.waypoint.isSome = true
          ∧ tget? t.fc.fixes n = some { x with cut := x.cut.filter (· ≠ c), carriedLegs := x.carriedLegs + 1 }
          ∧ (t.pp m).mode = .pilot ∧ (t.pp m).pc = p.getCsr csrPVEC + 0x800 ∧ (t.pp m).getCsr csrPEPC = p.pc
          ∧ (t.pp m).getCsr csrPCAUSE = 0x20 ∧ (t.pp m).getCsr csrPTVAL = x.tickStamp
          ∧ readNat t.mem (d + 8) 8 = p.pc.toNat ∧ (∀ r : BitVec 5, r ≠ 0 → readNat t.mem (d + 64 + 8 * r.toNat) 8 = (p.getX r).toNat)
          ∧ ∀ a, (a < d ∨ d + 12288 ≤ a) → memGet t.mem a = memGet s.mem a))
    ∧ (tget? s.fc.fixes n = some x → x.cut = [] → s.fc.noSeal = false →
      (s.ks.protOff = false → s.ks.resFix.toNat < n →
        (s.fc.late = true → exec .sealFix s = .next s)
        ∧ (s.fc.late = false → ∃ t, exec .sealFix s = .next t ∧ t.fc = { s.fc with late := true } ∧ ∀ a, memGet t.mem a = memGet s.mem a))
      ∧ (s.ks.protOff = true ∨ n ≤ s.ks.resFix.toNat → x.fixIn = none → n < 2 ^ 64 →
        let flags := 4 * b2n (s.parts.any (fun e => !e.2.holding.isEmpty)) + 8 * b2n x.newSet + 16 * b2n s.ks.protOff
        (s.legs = [] →
          let bs := fixRecord flags 0 1 x.lenUs n x.tickStamp s.fc.chrono 0 x.carriedLegs 0 0 s.fc.prevCrc
          let at' := 0x100000 + n % 2097152 * 64
          ∃ t, exec .sealFix s = .next t ∧ t.fc.sealed.toNat = n ∧ readBytes t.mem at' 64 = bs
            ∧ t.fc.prevCrc = BitVec.ofNat 32 (fld bs 60 4) ∧ tget? t.fc.fixes n = none
            ∧ (x.last = true → t.fc.ticking = false) ∧ (x.last = false → t.fc.ticking = s.fc.ticking)
            ∧ ∀ a, (a < at' ∨ at' + 64 ≤ a) → memGet t.mem a = memGet s.mem a)
        ∧ (∀ l g d s2, s.legs = [(l, g)] → g.entry.part < 512 → g.place = .closed n → g.resv = some .slot → (s.cq g.entry.cq).enable = true → s.legBusy l = false →
          (s.part g.entry.part).linkHeld = [] → (s.part g.entry.part).holding = [] → s.parityLive = [] →
          let q := s.cq g.entry.cq
          q.exist = true → q.part = g.entry.part → (q.p - q.c).toNat < 2 ^ q.sizeLog2 →
          ((s.sealRecord n x false).2.setLeg l { g with resv := none }).sttAccess g.entry.part (bits q.base.toNat 47 12 * 4096 + q.p.toNat % 2 ^ q.sizeLog2 * 32) needW = (.ok d, s2) →
          region s2 d ≠ .host →
          ∃ t, exec .sealFix s = .next t ∧ t.fc.sealed.toNat = n ∧ t.leg? l = none ∧ t.cq g.entry.cq = { q with p := q.p + 1 }
            ∧ readBytes t.mem d 32 = (g.completion n x.tickStamp).bytes
            ∧ ∀ a, (a < d ∨ d + 32 ≤ a) → memGet t.mem a = memGet s2.mem a)))

/-- R22, R23, R39–R41, R50, R92, R97: a leg's close is accepted, one leg at a time, once its tickets have completed; its output batches take the
number of the running epoch, which ends at the next tick; a leg that has used its budget ends in error, and its close waits for the commands
that it has submitted. -/
def Obligations.LegCloseAndBudget : Prop :=
  ∀ (l n : Nat) (g : Leg) (s : State), s.quiet → s.leg? l = some g →
    (s.fc.ticking = true → s.fc.chrono.toNat < s.fc.nextTick.toNat) →
    let spent := min g.charge (g.used - g.usedAtOpen)
    let closed := { g with place := .closed s.fc.epoch, stagedRows := [], closeStamp := s.fc.chrono, wpSlot := none, waypoint := none, charge := spent }
    let outstanding := ∃ k ∈ g.tickets, k.2.held = true ∧ k.2.status = none
    (g.place = .closing n → s.unitsOn (n / 4) = true → s.closeTurn l = true →
      (outstanding → ∃ t, exec (.legClose l) s = .next t ∧ { t with hostGot := s.hostGot, fcClose := s.fcClose } = s)
      ∧ (¬ outstanding → g.status ≠ 0 →
        ∃ t, exec (.legClose l) s = .next t ∧ t.leg? l = some { g with place := .closed s.fc.epoch, closeStamp := s.fc.chrono }
          ∧ (∀ o, o ≠ l → t.leg? o = s.leg? o) ∧ ∀ a, memGet t.mem a = memGet s.mem a)
      ∧ (¬ outstanding → g.status = 0 → g.outs = [] → g.retire = [] →
        (g.batches = [] → ∃ t, exec (.legClose l) s = .next t ∧ t.leg? l = some closed ∧ (∀ o, o ≠ l → t.leg? o = s.leg? o)
          ∧ (t.pp n).charged = (s.pp n).charged - (g.charge - spent) ∧ ∀ a, memGet t.mem a = memGet s.mem a)
        ∧ (∀ d, g.batches = [d] → region s d ≠ .host → s.fc.epoch < 2 ^ 64 →
          ∃ t, exec (.legClose l) s = .next t ∧ t.leg? l = some closed ∧ readNat t.mem d 8 = s.fc.epoch
            ∧ ∀ a, (a < d ∨ d + 8 ≤ a) → memGet t.mem a = memGet s.mem a)))
    ∧ (s.closeTurn l = false → exec (.legClose l) s = .next s)
    ∧ (s.ppCan n = true → (s.pp n).running = some l → g.place = .running n → (s.pp n).mode = .leg → g.stopped = false → (s.pp n).blocked = .none →
      ∃ t g', exec (.budget n) s = .next t ∧ t.leg? l = some g' ∧ g'.status = 0x02
        ∧ (¬ outstanding → g'.place = .closed s.fc.epoch ∧ g'.closeStamp = s.fc.chrono) ∧ (outstanding → g'.place = .closing n)
        ∧ ((s.pp n).getCsr csrBUDGET = g.entry.budget.setWidth 64 → g'.used = g.entry.budget.toNat) ∧ g'.retire = [] ∧ g'.batches = []
        ∧ (t.pp n).freed ∧ (t.pp n).getCsr csrPCAUSE = 0x0A ∧ (t.pp n).getCsr csrPTVAL = g.entry.budget.setWidth 64
        ∧ (t.pp n).getCsr csrPEPC = (s.pp n).pc ∧ ∀ a, memGet t.mem a = memGet s.mem a)

/-- R61–R63, R401, R403: the head sends FIX once every member is ready, or at the deadline with CARRY; a member takes the FIX of its chain, and
one that the FIX leaves out is orphaned. -/
def Obligations.ChainFixes : Prop :=
  ∀ (src n legs lost : Nat) (carry : Bool) (members : BitVec 16) (x : Fix) (s : State), s.serves → s.legs = [] →
    let f := s.fc
    let c := s.chain
    let ready := tgetD f.ready n 0 ||| 1#16 <<< src
    (s.headAlone → f.epoch ≠ n + 1 → f.fixes = [(n, x)] → x.fixIn = none →
      (src < 16 → c.members.getLsbD src = true → f.sealed.toNat < n →
        (ready &&& c.members ≠ c.members → exec (.fixReady src n legs) s = .next { s with fc := { f with ready := tput f.ready n ready } })
        ∧ (ready &&& c.members = c.members →
          ∃ t, exec (.fixReady src n legs) s = .next t ∧ t.fc.fixes = [(n, { x with fixIn := some (false, 0xFF, c.members) })]
            ∧ tget? t.fc.ready n = none ∧ t.fc.misses = [] ∧ t.chain = c ∧ ∀ a, memGet t.mem a = memGet s.mem a))
      ∧ (c.members.getLsbD src = true → src < 16 → src ≠ c.address → (tgetD f.ready n 0).getLsbD src = false →
        (∀ u, u < 16 → u ≠ src → c.members.getLsbD u = true → (tgetD f.ready n 0).getLsbD u = true) →
        let deadline := x.tickStamp + BitVec.ofNat 64 f.live.deadline
        (tgetD f.misses src 0 + 1 < f.live.lostFixes → f.downSeen.getLsbD src = false →
          ∃ t, exec .readyDeadline s = .next t ∧ t.fc.fixes = [(n, { x with fixIn := some (true, 0xFF, c.members) })]
            ∧ tgetD t.fc.misses src 0 = tgetD f.misses src 0 + 1 ∧ t.fc.chrono.toNat = max f.chrono.toNat deadline.toNat ∧ t.chain = c)
        ∧ (f.live.lostFixes ≤ tgetD f.misses src 0 + 1 → let m := c.members &&& ~~~ (1#16 <<< src)
          ∃ t, exec .readyDeadline s = .next t ∧ t.fc.fixes = [(n, { x with fixIn := some (true, src, m) })] ∧ t.chain.members = m)))
    ∧ (s.memberAlone →
      (members.getLsbD c.address = false → ∃ t, exec (.fix n carry lost members) s = .next t ∧ t.chain = { c with status := 4 }
          ∧ t.fc = { f with open' := false, ticking := f.ticking && !f.fixes.any (fun e => e.2.last) } ∧ ∀ a, memGet t.mem a = memGet s.mem a)
      ∧ (members.getLsbD c.address = true → n ≤ f.sealed.toNat → exec (.fix n carry lost members) s = .next s)
      ∧ (members.getLsbD c.address = true → f.sealed.toNat < n → 16 ≤ lost → f.epoch ≠ n + 1 → tget? f.fixes n = some x →
        ∃ t, exec (.fix n carry lost members) s = .next t ∧ tget? t.fc.fixes n = some { x with fixIn := some (carry, lost, members) }
          ∧ t.fc.noFix = 0 ∧ t.chain = { c with members := members, units := popBits members } ∧ ∀ a, memGet t.mem a = memGet s.mem a))

/-! ### The words of the statements about scheduling, translation and caches -/

namespace Sys2Proof.Machine

/-- From `s` to `t` partition `p` has become `q`, and nothing else differs. -/
def State.OnlyPart (s t : State) (p : Nat) (q : Part) : Prop :=
  t.part p = q ∧ (∀ k, k ≠ p → t.part k = s.part k) ∧ { t with parts := s.parts } = s

/-- No PP TLB, unit TLB or STU slot holds a translation of partition `p`. -/
def State.forgets (s : State) (p : Nat) : Prop :=
  (∀ n, ∀ e ∈ (s.pp n).tlb, tlbPart e.2 ≠ p) ∧ (∀ c, ∀ x ∈ (s.cl c).unitTlb, x.part ≠ p) ∧ (∀ c, ∀ x ∈ (s.cl c).walk, x.part ≠ p)
  ∧ (∀ x ∈ s.ioTlb, x.part ≠ p) ∧ (∀ x ∈ s.ioWalk, x.part ≠ p) ∧ (∀ x ∈ s.stu, x.part ≠ p) ∧ ∀ x ∈ s.stuWalk, x.part ≠ p

/-- The bytes at DPA `d` of `t`'s memory are `bs`, and every other byte is as in `s`. -/
def State.Wrote (s t : State) (d : Nat) (bs : List Byte) : Prop :=
  readBytes t.mem d bs.length = bs ∧ ∀ a, (a < d ∨ d + bs.length ≤ a) → memGet t.mem a = memGet s.mem a

/-- No byte of memory differs. -/
def State.SameMem (s t : State) : Prop := ∀ a, memGet t.mem a = memGet s.mem a

end Sys2Proof.Machine

/-- R46, R48, R51, R90, R101, R278–R280, R285: at a scheduler tick a matured leg moves to the ready list; a leg starts with the registers of R90, or
goes on from its waypoint; either way the PP has left firmware, so that PSTATUS.NEST is 0 (that, log entry 26). -/
def Obligations.Scheduling : Prop :=
  ∀ (n l q : Nat) (g : Leg) (s : State), s.serves →
    let k := max (s.fc.chrono.toNat / 1000) (s.schedTick + 1)
    let at' := s.reach (BitVec.ofNat 64 (k * 1000))
    let e := g.entry
    let c := n / 4
    let p := s.pp n
    let quiet := fun (j : Nat) => if j = csrPSTATUS then p.getCsr j &&& ~~~1#64 else p.getCsr j
    (s.fc.ticking = true → s.fc.open' = false → s.parity = [] → exec .schedulerTick s = .next { at' with schedTick := k })
    ∧ (s.fc.ticking = false → s.parity = [] → s.legs = [(l, g)] → g.place = .delay q → q < 4 → e.cluster < 64 →
      ((e.releaseTime + 999) / 1000 ≤ k → exec .schedulerTick s = .next { at' with
        schedTick := k, legs := [(l, { g with place := .ready e.cluster, home := e.cluster, order := s.order })], order := s.order + 1 })
      ∧ (k < (e.releaseTime + 999) / 1000 → exec .schedulerTick s = .next { at' with schedTick := k }))
    ∧ (s.ppIdle n = true → p.nextSlot = some l → s.leg? l = some g → g.charge ≠ 0 → s.fc.open' = false →
      (g.started = false → e.inl = false → e.indesc = 0 → e.outdesc = 0 →
        ∃ t, exec (.legStart n) s = .next t ∧ t.leg? l = some { g with place := .running n, started := true, outs := [], snapshot := s.fc.sealed,
                                                                       startStamp := s.fc.chrono }
          ∧ (t.pp n).mode = .leg ∧ (t.pp n).running = some l ∧ (t.pp n).nextSlot = none ∧ (t.pp n).pc = e.code
          ∧ (∀ r : BitVec 5, (t.pp n).getX r = if r = 1 then e.argp else if r = 31 then (if e.scratch = 0 then 0 else e.scratch + BitVec.ofNat 64 e.scratchBytes)
              else 0)
          ∧ (∀ r, (t.pp n).getV r = 0 ∧ (t.pp n).getM r = 0) ∧ (t.pp n).vl = 0 ∧ (t.pp n).vcfg = 0
          ∧ (∀ j, j < 32 → (t.pp n).getCsr j = if j = 0 then BitVec.ofNat 64 (e.seq.toNat + e.sq % 8192 * 2 ^ 32 + e.part % 512 * 2 ^ 48)
              else if j = 1 then e.argp else if j = 4 then s.fc.sealed else if j = 5 then e.budget.setWidth 64 else if j = 9 then s.fc.chrono else 0)
          ∧ (∀ j, 32 ≤ j → (t.pp n).getCsr j = quiet j) ∧ (∀ m, m ≠ n → t.pp m = s.pp m) ∧ s.SameMem t)
      ∧ (∀ i, g.started = true → g.wpSlot = some (c, i) → let d := waypointBase c i
        (∀ j, j < 192 → s.bad.contains (d / 64 + j) = false) → (∀ x ∈ (s.cl c).l2, x.1 * 64 + 64 ≤ d ∨ d + 12288 ≤ x.1 * 64) →
        ∃ t, exec (.legStart n) s = .next t ∧ t.leg? l = some { g with place := .running n, stopped := false, waypoint := none }
          ∧ (t.pp n).mode = .leg ∧ (t.pp n).running = some l ∧ (t.pp n).nextSlot = none ∧ (t.pp n).pc = BitVec.ofNat 64 (readNat s.mem (d + 8) 8)
          ∧ (∀ r : BitVec 5, r ≠ 0 → (t.pp n).getX r = BitVec.ofNat 64 (readNat s.mem (d + 64 + 8 * r.toNat) 8))
          ∧ (∀ j, j < 32 → (t.pp n).getCsr j = BitVec.ofNat 64 (readNat s.mem (d + 320 + 8 * j) 8))
          ∧ (∀ j, j < 32 → (t.pp n).getV j = BitVec.ofNat 2048 (readNat s.mem (d + 576 + 256 * j) 256))
          ∧ (∀ j, 32 ≤ j → (t.pp n).getCsr j = quiet j) ∧ (∀ m, m ≠ n → t.pp m = s.pp m) ∧ s.SameMem t))

/-- R306, R319: APPLY of a translation group makes the shadow live, clears the fault count and drops what is cached of the partition; one that fails
its checks sets APPLY_ERR and leaves the live set; an invalidation drops what its scope names, and its DONE sets later. -/
def Obligations.TranslationRegisters : Prop :=
  ∀ (p : Nat) (w : BitVec 32) (s : State), s.frozen = false →
    let q := s.part p
    let x := { q.shXlat with enable := w.getLsbD 0, compat := w.getLsbD 1, faultLog2 := w.toNat / 4 % 16 }
    let good := (q.quiesced = true ∨ q.xlat.enable = false) ∧ 4 ≤ x.faultLog2 ∧ x.faultLog2 ≤ 10
      ∧ (x.enable = true → s.general (ptAddr x.s2) = true ∧ s.general (ptAddr x.stt) = true)
    let reg : State := { s with regs := tput s.regs offXinvCtl ((w &&& 0x1FFFF#32).setWidth 64) }
    let part := w.toNat % 512
    let sz := w.toNat / 2048 % 64
    (w.getLsbD 6 = false → ∃ t, exec (.xlatApply p w) s = .next t ∧ s.OnlyPart t p { q with shXlat := x, xlatErr := q.xlatErr && !w.getLsbD 7 })
    ∧ (w.getLsbD 6 = true → s.parity = [] → good → ∃ t, exec (.xlatApply p w) s = .next t ∧ t.part p = { q with shXlat := x, xlat := x, faultN := 0, xlatErr := false }
        ∧ (∀ k, k ≠ p → t.part k = s.part k) ∧ t.forgets p ∧ t.mem = s.mem ∧ t.regs = s.regs)
    ∧ (w.getLsbD 6 = true → s.parity = [] → ¬ good → ∃ t, exec (.xlatApply p w) s = .next t ∧ t.part p = { q with shXlat := x, xlatErr := true }
        ∧ (∀ k, k ≠ p → t.part k = s.part k) ∧ t.stu = s.stu ∧ t.mem = s.mem)
    ∧ (w.getLsbD 17 = false → exec (.xlatInvGo w) s = .next reg)
    ∧ (w.getLsbD 17 = true → (s.xinvDone = false ∨ sz < 12 ∨ 48 < sz) → exec (.xlatInvGo w) s = .next (reg.log 0x0702 noInst part 0))
    ∧ (w.getLsbD 17 = true → s.xinvDone = true → 12 ≤ sz → sz ≤ 48 →
      ∃ t, exec (.xlatInvGo w) s = .next t ∧ t.xinvDone = false ∧ t.mem = s.mem
        ∧ (w.toNat / 512 % 4 = 0 → t.forgets part)
        ∧ (w.toNat / 512 % 4 = 2 → (∀ n, ∀ e ∈ (t.pp n).tlb, tlbPart e.2 ≠ part) ∧ (∀ v ∈ t.ioTlb, v.part ≠ part) ∧ t.stu = s.stu)
        ∧ (w.toNat / 512 % 4 = 3 → t.ioTlb = s.ioTlb ∧ ∀ v ∈ t.stu, v ∈ s.stu)
        ∧ (∀ v ∈ s.ioTlb, v.part ≠ part → v ∈ t.ioTlb) ∧ (∀ v ∈ s.stu, v.part ≠ part → v ∈ t.stu))
    ∧ exec .xlatInvDone s = .next { s with xinvDone := true }

/-- R324, R328–R331, R333–R337: way configuration, the maintenance operations, disabling and draining, and the return of a prefetch read. -/
def Obligations.CacheCommands : Prop :=
  ∀ (c line m : Nat) (w : Word) (e : L2Line) (s : State), s.unitsOn c = true →
    let k := s.cl c
    let v := w &&& 0xFFFFFFFF#64
    let base := line * 64
    (k.pipes = [] → k.waysOut = [] →
      (Cluster.outside v ≤ 12 → (∀ i, i < 16 → wayMode v i = .pipe → wayMode k.wayCfg i = .pipe ∨ wayMode k.wayCfg i = .normal) →
        exec (.l2WaycfgWrite c w) s = .next (s.setCl c { k with
          wayCfg := v, waysOut := (List.range 16).filter (fun i => wayMode k.wayCfg i == .normal && wayMode v i != .normal) }))
      ∧ (12 < Cluster.outside v → exec (.l2WaycfgWrite c w) s = .next (s.log 0x0804 c noPart 0)))
    ∧ (∃ t, exec (.l2WayWritebackDone c) s = .next t ∧ (t.cl c).waysOut = [] ∧ (t.cl c).wayCfg = k.wayCfg
        ∧ (∀ x ∈ (t.cl c).l2, k.waysOut.contains x.2.way = false) ∧ (s.allClean c → s.SameMem t))
    ∧ (k.maintDone = true → k.drained = true → k.flaws = [] → k.sideBad = [] → k.l2 = [(line, e)] → e.dirty = true → e.poison = false → e.data.length = 64 → line < 2 ^ 42 →
      1 ≤ m → wayMode k.wayCfg e.way ≠ .locked →
      let goes := fun (i : Instr) (l2 : Table L2Line) (wrote : Bool) => ∃ t, exec i s = .next t ∧ (t.cl c).l2 = l2 ∧ (t.cl c).maintDone = false
        ∧ (wrote = true → s.Wrote t base e.data) ∧ (wrote = false → s.SameMem t)
      goes (.clean c (BitVec.ofNat 64 base) m) [(line, { e with dirty := false })] true
      ∧ goes (.invalidate c (BitVec.ofNat 64 base) m) [] false
      ∧ goes (.cleanInv c (BitVec.ofNat 64 base) m) [] true
      ∧ goes (.cleanAll c) [(line, { e with dirty := false })] true
      ∧ goes (.invAll c) [] false)
    ∧ (k.maintDone = false → exec (.clean c w m) s = .next (s.log 0x0805 c noPart 0) ∧ exec (.invalidate c w m) s = .next (s.log 0x0805 c noPart 0)
        ∧ exec (.cleanInv c w m) s = .next (s.log 0x0805 c noPart 0) ∧ exec (.cleanAll c) s = .next (s.log 0x0805 c noPart 0)
        ∧ exec (.invAll c) s = .next (s.log 0x0805 c noPart 0))
    ∧ (k.maintWait = none → exec (.l2MaintDone c) s = .next (s.setCl c { k with maintDone := true }))
    ∧ (k.l2En = true → ∃ t, exec (.l2Disable c) s = .next t ∧ t.cl c = { k with l2En := false, drained := false }
        ∧ (∀ i, i < 4 → t.pp (4 * c + i) = { s.pp (4 * c + i) with l1d := [], l1i := [] }) ∧ (∀ n, n / 4 ≠ c → t.pp n = s.pp n)
        ∧ (∀ d, d ≠ c → t.cl d = s.cl d) ∧ s.SameMem t)
    ∧ (k.drained = false → k.maintWait = none → k.flaws = [] → k.sideBad = [] →
      let done := { k with l2 := [], side := [], drained := true }
      (s.allClean c → ∃ t, exec (.l2DrainDone c) s = .next t ∧ t.cl c = done ∧ (∀ i, i < 4 → (t.pp (4 * c + i)).l1d = []) ∧ s.SameMem t)
      ∧ (k.l2 = [(line, e)] → e.dirty = true → e.poison = false → e.data.length = 64 →
        ∃ t, exec (.l2DrainDone c) s = .next t ∧ t.cl c = done ∧ (∀ i, i < 4 → (t.pp (4 * c + i)).l1d = []) ∧ s.Wrote t base e.data))
    ∧ (k.fills.contains line = true → tget? k.l2 line = none → k.l2En = true → k.drained = true → s.bad.contains line = false → k.side.length < 32 →
        ∃ t, exec (.l2Fill c line) s = .next t
          ∧ t.cl c = { k with fills := k.fills.filter (· ≠ line), sideBad := k.sideBad.filter (· ≠ line), side := k.side ++ [(line, readBytes s.mem base 64)] } ∧ s.SameMem t)

/-! ### The words of the statements about memory controllers, ports and drives -/

namespace Sys2Proof.Machine

/-- From `s` to `t` memory controller `n` has become `k`, and nothing else differs. -/
def State.OnlyDc (s t : State) (n : Nat) (k : Dc) : Prop := t.dc n = k ∧ (∀ m, m ≠ n → t.dc m = s.dc m) ∧ { t with dcs := s.dcs } = s

/-- As `OnlyDc`, for a host port. -/
def State.OnlyHp (s t : State) (h : Nat) (k : HostPort) : Prop := t.hp h = k ∧ (∀ m, m ≠ h → t.hp m = s.hp m) ∧ { t with hps := s.hps } = s

/-- As `OnlyDc`, for a drive port. -/
def State.OnlyDrive (s t : State) (d : Nat) (k : Drive) : Prop :=
  t.drive d = k ∧ (∀ m, m ≠ d → t.drive m = s.drive m) ∧ { t with drives := s.drives } = s

/-- As `OnlyDc`, for a grant. -/
def State.OnlyGrant (s t : State) (g : Nat) (k : Grant) : Prop :=
  t.grant g = k ∧ (∀ m, m ≠ g → t.grant m = s.grant m) ∧ { t with grants := s.grants } = s

/-- The request once one of its commands has ended with `status` and `sc`, having moved `n` bytes (R381, R383). -/
def DriveReq.after (q : DriveReq) (status sc n lba : Nat) : DriveReq :=
  { q with open' := q.open' - 1, bytes := q.bytes + n, status := if status = 0 then q.status else status,
           statusLba := if status = 0 then q.statusLba else lba, sc := if sc = 0 then q.sc else sc }

end Sys2Proof.Machine

/-- R342–R351: a controller serves the request it picks, counts activates, owes at most eight refreshes while demand waits, scrubs, and writes a
corrected line back; what a read finds, by the table of R349, is counted and located.  The rows that a scrub and a write-back open are free
values (the model's choice, log entry 14). -/
def Obligations.MemoryControllers : Prop :=
  ∀ (n ch bank row rank line dimm : Nat) (hits : List Nat) (temp : Int) (x : MemError) (r : MemReq) (s : State), s.frozen = false →
    let k := s.dc n
    let corrects := x.bits ≠ 0 ∧ (if n < 4 then x.bits = 1 else if k.x4 = true then x.devices ≤ 1 else x.symbols ≤ 1)
    let fails := x.bits ≠ 0 ∧ (if n < 4 then x.bits = 2 else if k.x4 = true then x.devices = 2 else 2 ≤ x.symbols ∧ x.devices ≤ 1)
    let o := k.opens n
    let owed := tgetD k.owed rank 0
    let temps := tput k.temps dimm temp
    (k.queue = [r] → r.ch = ch → (r.write = true ∨ r.known = true ∨ x.bits = 0) →
      let done := { k with queue := [], draining := k.draining.filter (· ≠ ch) }
      (r.id ∈ hits → ∃ t, exec (.memRequestServe n ch hits bank row x) s = .next t ∧ s.OnlyDc t n done)
      ∧ (r.id ∉ hits → tget? k.act bank = none → 2 ≤ k.threshold →
          ∃ t, exec (.memRequestServe n ch hits bank row x) s = .next t ∧ s.OnlyDc t n { done with act := tput k.act bank [{ row := row, count := 1 }] })
      ∧ (∀ a, r.id ∉ hits → tget? k.act bank = some [{ row := row, count := a }] → 1 ≤ k.threshold → (a + 1) % k.threshold = 0 → k.targeted < 0xFFFFFFFF →
          ∃ t, exec (.memRequestServe n ch hits bank row x) s = .next t
            ∧ s.OnlyDc t n { done with act := tput k.act bank [{ row := row, count := a + 1 }], targeted := k.targeted + 1 }))
    ∧ (k.queue = [r] → r.ch = ch → r.write = false → r.known = false → (s.ctrlOf (r.line * 64)).1 = n →
      (fails → k.uncorrectable < 0xFFFF → ∃ t, exec (.memRequestServe n ch hits bank row x) s = .next t ∧ (t.dc n).queue = []
          ∧ (t.dc n).uncorrectable = k.uncorrectable + 1 ∧ (t.dc n).errLine = r.line ∧ t.bad.contains r.line = true ∧ s.SameMem t)
      ∧ (corrects → k.corrected < 0xFFFFFFFF → ∃ t, exec (.memRequestServe n ch hits bank row x) s = .next t ∧ (t.dc n).queue = []
          ∧ (t.dc n).corrected = k.corrected + 1 ∧ (t.dc n).fixups = k.fixups ++ [r.line] ∧ t.bad = s.bad ∧ s.SameMem t))
    ∧ ((∃ y ∈ k.queue, y.rank = rank) → ∃ t, exec (.refreshDue n rank) s = .next t
        ∧ (owed < 8 → s.OnlyDc t n { k with owed := tput k.owed rank (owed + 1), hot := k.hotNext })
        ∧ (8 ≤ owed → s.OnlyDc t n { k with hot := k.hotNext }))
    ∧ ((∀ y ∈ k.queue, y.rank ≠ rank) → ∃ t, exec (.refreshDue n rank) s = .next t
        ∧ (owed = 0 → s.OnlyDc t n { k with hot := k.hotNext })
        ∧ (0 < owed → ∃ left, left ≤ owed ∧ s.OnlyDc t n { k with
            owed := tput k.owed rank left, bursts := tput k.bursts rank (tgetD k.bursts rank 0 + 1), hot := k.hotNext }))
    ∧ (∃ t, exec (.actTableClear n) s = .next t ∧ s.OnlyDc t n { k with act := [] })
    ∧ (s.dcOwns n line = true → k.queue = [] →
      (s.bad.contains line = false → x.bits = 0 → ∃ t, exec (.memScrub n line x) s = .next t ∧ s.OnlyDc t n o)
      ∧ (s.bad.contains line = false → corrects → k.corrected < 0xFFFFFFFF →
          ∃ t, exec (.memScrub n line x) s = .next t ∧ t.dc n = { o with corrected := k.corrected + 1, fixups := k.fixups ++ [line] }
            ∧ t.bad = s.bad ∧ s.SameMem t)
      ∧ (s.bad.contains line = true ∨ fails → k.uncorrectable < 0xFFFF →
          ∃ t, exec (.memScrub n line x) s = .next t
            ∧ t.dc n = { o with uncorrectable := k.uncorrectable + 1, errLine := line, errValid := true }
            ∧ t.bad.contains line = true ∧ s.SameMem t))
    ∧ (∀ rest, k.fixups = line :: rest → (s.ctrlOf (line * 64)).1 = n → k.queue = [] →
        ∃ t, exec (.correctedWriteback n) s = .next t ∧ s.OnlyDc t n (Dc.opens { k with fixups := rest } n))
    ∧ (∃ t, exec (.hotChange n ⟨dimm, temp⟩) s = .next t
        ∧ ((∃ x ∈ temps, 850 < x.2) → s.OnlyDc t n { k with temps := temps, hotNext := true })
        ∧ ((∀ x ∈ temps, x.2 ≤ 820) → s.OnlyDc t n { k with temps := temps, hotNext := false })
        ∧ ((∀ x ∈ temps, x.2 ≤ 850) → (∃ x ∈ temps, 820 < x.2) → s.OnlyDc t n { k with temps := temps }))

/-- R368, R370, R373–R375, R441, R483: a link going down fails the reads that are out; up again at a rate and width that it can have, the port
serves; a port reset clears MSI-X; a request that hits no BAR is refused; a completion brings its data, and a failure ends the read; the data
of a load that was abandoned are discarded (R42). -/
def Obligations.HostPorts : Prop :=
  ∀ (h speed n : Nat) (link : LinkIn) (posted : Bool) (dpa : Word) (st : CplStatus) (data : List Byte) (s : State), s.frozen = false → h < 4 →
    let k := s.hp h
    let p := s.pp n
    let line := dpa.toNat / 64
    let alone := ∀ x ∈ s.hostWant, x.req ≠ .pp n
    let waits := p.blocked = .hostLoad ∧ p.hostReady = none ∧ p.hostAt = some (h, dpa.toNat) ∧ (h, dpa.toNat) ∉ p.hostDrop ∧ alone
    let inWindow := hostBase ≤ dpa.toNat ∧ dpa.toNat + data.length < regBase
    let noneWaits := ∀ e ∈ s.cls, ∀ x ∈ e.2.dm, x.2.wait = false
    (k.linkUp = true → s.sqs = [] → s.admin.fetch = none → noneWaits → ∃ t, exec (.hostLinkDown h) s = .next t
        ∧ t.hp h = { k with linkUp := false, speed := 0, width := 0 } ∧ (∀ m, m ≠ h → t.hp m = s.hp m)
        ∧ t.pp n = (let q := { p with hostDrop := p.hostDrop.filter (fun y => y.1 ≠ h) }
            if p.outOn h then { q with hostReady := some (0, true) } else q)
        ∧ (∀ x, x ∈ t.hostWant ↔ x ∈ s.hostWant ∧ x.port ≠ h)
        ∧ (∀ x, x ∈ s.hostWant → x.port = h → (x, 1) ∈ t.hostGot) ∧ (∀ y, y ∈ s.hostGot → y ∈ t.hostGot)
        ∧ { t with hps := s.hps, pps := s.pps, hostWant := s.hostWant, hostGot := s.hostGot } = s)
    ∧ (k.linkUp = false →
      (1 ≤ speed → speed ≤ 6 → link.lanes ≤ k.lanes → (link.lanes = 1 ∨ link.lanes = 2 ∨ link.lanes = 4 ∨ link.lanes = 8 ∨ link.lanes = 16) →
        s.fc.open' = false → (∀ e ∈ s.parts, e.2.linkHeld = [] ∧ e.2.holding = []) → (∀ e ∈ s.sqs, e.2.fetch = none) → s.admin.fetch = none → k.pba = [] →
        ∃ t, exec (.hostLinkUp h speed link) s = .next t
          ∧ s.OnlyHp t h { k with linkUp := true, speed := speed, width := link.lanes, vc1 := link.vc1 && h == s.mgmtPort })
      ∧ (speed = 0 ∨ 6 < speed ∨ k.lanes < link.lanes → exec (.hostLinkUp h speed link) s = .next s))
    ∧ (s.sqs = [] → noneWaits → ∃ t, exec (.hostPortReset h) s = .next t
        ∧ t.hp h = { k with linkUp := false, speed := 0, width := 0, msixEn := false, unmasked := [], msixTab := [], pba := [], vc1 := false }
        ∧ (∀ m, m ≠ h → t.hp m = s.hp m) ∧ s.SameMem t)
    ∧ (k.linkUp = true →
      exec (.hostUnclaimed h posted) s = .next (if posted then s.log 0x0A02 h noPart 0 else s.emit (.hostUr h))
      ∧ (inWindow → waits → 1 ≤ data.length →
        (k.timeouts < 0xFFFF → ∃ t, exec (.hostCompletionTimeout h (.pp n) dpa) s = .next t ∧ t.hp h = { k with timeouts := k.timeouts + 1 }
          ∧ (t.pp n).hostReady = some (line, true) ∧ tget? t.hostBad line = some 1 ∧ s.SameMem t)
        ∧ (∃ t, exec (.hostCompletion h (.pp n) dpa .ok data) s = .next t ∧ (t.pp n).hostReady = some (line, false) ∧ tget? t.hostBad line = none
          ∧ s.Wrote t dpa.toNat data)
        ∧ (∃ t, exec (.hostCompletion h (.pp n) dpa .poisoned data) s = .next t ∧ (t.pp n).hostReady = some (line, false)
          ∧ tget? t.hostBad line = some 2)
        ∧ (∃ t, exec (.hostCompletion h (.pp n) dpa .refused data) s = .next t ∧ (t.pp n).hostReady = some (line, true)
          ∧ tget? t.hostBad line = some 1 ∧ s.SameMem t))
      ∧ (inWindow → (h, dpa.toNat) ∈ p.hostDrop → alone →
          ∃ t, exec (.hostCompletion h (.pp n) dpa .ok data) s = .next t ∧ t.pp n = { p with hostDrop := p.hostDrop.erase (h, dpa.toNat) })
      ∧ (∀ f, inWindow → h = s.mgmtPort → s.admin.fetch = some f → f.waiting = false → f.dpa = dpa.toNat → k.timeouts < 0xFFFF →
          ∃ t, exec (.hostCompletionTimeout h .admin dpa) s = .next t
            ∧ t.admin = { s.admin with fetch := some { f with waiting := true, linkDown := false } } ∧ (t.hp h).timeouts = k.timeouts + 1
            ∧ s.SameMem t)
      ∧ (∀ x m, inWindow → 1 ≤ data.length → s.hostWant = [x] → x.req = .unit m → x.dpa = dpa.toNat → x.port = h →
          ∃ t, exec (.hostCompletion h (.unit m) dpa .ok data) s = .next t ∧ t.hostWant = [] ∧ t.hostGot = s.hostGot ++ [(x, 0)]
            ∧ s.Wrote t dpa.toNat data))
    ∧ (k.linkUp = false → exec (.hostCompletion h (.pp n) dpa st data) s = .next s)

/-- R376–R380, R385: drives, grants and the reading of a ring.
R381–R385: a request's commands, their completion, and its result. -/
def Obligations.DrivesGrantsAndRequests : Prop :=
  (∀ (d speed width qp mqes xfer g c : Nat) (fatal : Bool) (ns : List NsInfo) (addr w : Word) (s : State), s.serves →
      let k := s.drive d
      let gr := s.grant g
      let sh := gr.sh.ofCtl w
      let part := s.part gr.live.part
      (d < 32 → k.linkUp = false → 1 ≤ speed → speed ≤ 6 → (width = 1 ∨ width = 2 ∨ width = 4) → ∃ t, exec (.driveLinkUp d speed width) s = .next t ∧ s.OnlyDrive t d { k with linkUp := true, speed := speed, width := width })
      ∧ (k.linkUp = true →
        (k.ready = false → ∃ t, exec (.driveReady d qp mqes xfer ns) s = .next t ∧ s.OnlyDrive t d
            { k with ready := true, ioq := min 64 qp, depth := min 1024 (mqes + 1), xfer := xfer, ns := ns, unusable := ns.any (fun n => !n.usable) })
        ∧ (s.inWindow d addr.toNat = false → exec (.driveStray d addr) s = .next ((s.emit (.driveUr d)).log 0x0B01 d noPart 0))
        ∧ ((∀ e ∈ s.cmds, e.2.drive ≠ d) → let lost := { k with ready := false, ioq := 0, depth := 0 }
            ∃ u, exec (.driveLinkDown ⟨d, fatal⟩) s = .next (u.log 0x0B05 d noPart 0)
            ∧ s.OnlyDrive u d (if fatal then lost else { lost with linkUp := false, speed := 0, width := 0 }))
        ∧ (∀ x q, s.cmds = [(c, x)] → x.drive = d → tget? s.reqs x.req = some q → q.op = 2 → 2 ≤ q.open' → q.status = 0 →
            ∃ t n, exec (.driveLinkDown ⟨d, fatal⟩) s = .next t ∧ t.cmds = [] ∧ n ≤ x.bytes ∧ tget? t.reqs x.req = some (q.after 0x0908 0 n x.lba) ∧ s.SameMem t))
      ∧ (g < 1024 → let err := gr.applyErr && !w.getLsbD 53
        (w.getLsbD 52 = false → ∃ t, exec (.grantApply g w) s = .next t ∧ s.OnlyGrant t g { gr with sh := sh, applyErr := err })
        ∧ (w.getLsbD 52 = true → s.parity = [] → sh.enable = false →
            ∃ t, exec (.grantApply g w) s = .next t ∧ (s.parityTaken (0x70000 + 0x20 * g) 0x20).OnlyGrant t g { gr with sh := sh, applyErr := false, live := sh, notified := false })
        ∧ (w.getLsbD 52 = true → s.parity = [] → sh.enable = true →
          let drv := s.drive sh.port
          let ok := gr.live.enable = false ∧ (s.part sh.part).exist = true ∧ drv.ready = true ∧ sh.count ≠ 0 ∧ 4 ≤ sh.sizeLog2 ∧ sh.sizeLog2 ≤ 12
            ∧ ∃ x, drv.ns.find? (fun n => n.nsid == sh.nsid) = some x ∧ x.usable = true ∧ sh.first.toNat + sh.count.toNat ≤ x.blocks
          let u := s.setGrant g { gr with sh := sh, applyErr := err }
          (∀ a s2, ok → u.sttXlate sh.part sh.ring.toNat needRW = (.ok a, s2) → ∃ t, exec (.grantApply g w) s = .next t
              ∧ ((s2.npWrite sh.part (a + 64) (leBytes 4 0)).parityTaken (0x70000 + 0x20 * g) 0x20).OnlyGrant t g
                  { gr with sh := sh, applyErr := false, live := sh, head := 0, ctl := a, notified := true })
          ∧ (¬ ok → ∃ t, exec (.grantApply g w) s = .next t ∧ t.grant g = { gr with sh := sh, applyErr := true } ∧ s.SameMem t)))
      ∧ (∀ s0, s = s0.asking → gr.notified = true → gr.live.enable = true → part.quenched = false → part.quenchGo = false → part.quiesced = false →
        part.quiesce = none → part.halted = false → s.parityLive = [] → (∀ e ∈ s.cmds, e.2.drive = gr.live.port → e.2.issued = true) →
        let u := s.setGrant g { gr with notified := false }
        let ring := gr.live.ring.toNat
        let passes := fun (t : State) => exec (.ringPass g) s0 = .next (s0.settled [.unit 66] t)
        (256 ≤ u.grantOpen g → passes u)
        ∧ (∀ a s1 b s2, u.grantOpen g < 256 →
          u.npDpa gr.live.part (ring + 128 + 64 * (gr.head.toNat % 2 ^ gr.live.sizeLog2)) needR = (some a, s1) →
          s1.npEntry gr.live.part a = (some b, s2) →
          (fld b 60 4 ≠ gr.head.toNat → passes s2)
          ∧ (∀ h s3, fld b 60 4 = gr.head.toNat →
            (s2.setGrant g { gr with notified := false, head := gr.head + 1 }).npDpa gr.live.part (ring + 64) needW = (some h, s3) →
            let taken := (s3.npWrite gr.live.part h (leBytes 4 (gr.head + 1).toNat)).npRequest g gr.head b
            (256 ≤ taken.grantOpen g → passes taken) ∧ passes (taken.npPass g (2 ^ gr.live.sizeLog2 - 1))))))
  ∧ (∀ (c r g i cl : Nat) (idx : BitVec 32) (sc : BitVec 16) (b data : List Byte) (x : DriveCmd) (q : DriveReq) (pp : Pipe) (s : State), s.frozen = false →
      (let gr := (s.grant g).live
        let drv := s.drive gr.port
        let lba := fld b 8 8
        let blocks := fld b 4 4
        ∀ ns d s1, drv.ready = true → drv.ns.find? (fun n => n.nsid == gr.nsid) = some ns → ns.lba = 512 → fld b 0 1 = 2 → npEntryOk b 512 = true →
          1 ≤ blocks → blocks * 512 ≤ drv.xfer → fld b 16 8 % 4096 + blocks * 512 ≤ 4096 → lba + blocks ≤ gr.count.toNat → gr.writeOk = true →
          let q0 : DriveReq :=
            { grant := g, idx := idx, op := 2, part := gr.part, lba := lba, blocks := blocks, buf := BitVec.ofNat 64 (fld b 16 8),
              result := BitVec.ofNat 64 (fld b 24 8), fua := bit (fld b 1 1) 0, nsid := gr.nsid, push := bit (fld b 1 1) 1, pipe := BitVec.ofNat 64 (fld b 32 8),
              tag := BitVec.ofNat 64 (fld b 40 8), status := 0, statusLba := 0, sc := 0, bytes := 0, issue := none, open' := 0, pushWait := false }
          State.npDpa { s with nextReq := s.nextReq + 1, reqs := tput s.reqs s.nextReq q0 } gr.part (fld b 16 8) needR = (some d, s1) →
          let t := s.npRequest g idx b
          let qp := g % drv.ioq
          let win := (Config.freeWord s1.freeSeq).toNat
          let host := s1.hp (s1.part gr.part).hostPort
          s1.npStops gr.part = false → s1.npRoom gr.port qp = true → (∀ e ∈ s1.cmds, e.2.drive = gr.port → e.2.issued = true) →
          tget? t.cmds s1.nextReq = some { drive := gr.port, qp := qp, issued := true, win := win, req := s.nextReq, lba := gr.first.toNat + lba,
                                           bytes := blocks * 512, pages := [(d, blocks * 512)] }
          ∧ tget? t.reqs s.nextReq = some { q0 with issue := some s1.fc.chrono, open' := 1 }
          ∧ (let sent : List Out := .drive gr.port qp gr.nsid 2 (bit (fld b 1 1) 0) (gr.first.toNat + lba) (blocks * 512) win :: s1.out
            (region s1 d ≠ .host → (∀ l ∈ s1.bad, l < d / 64 ∨ (d + blocks * 512 + 63) / 64 ≤ l) → t.out = sent)
            ∧ (region s1 d = .host → host.linkUp = true →
              t.out = .hostRead (s1.part gr.part).hostPort (some (s1.part gr.part).pasid) (d - hostBase) (blocks * 512) false :: sent)))
      ∧ (tget? s.cmds c = some x → x.issued = true → (∀ e ∈ s.cmds, e.1 ≠ c → e.2.drive = x.drive → e.2.issued = true) →
        tget? s.reqs x.req = some q → q.status = 0 → q.sc = 0 →
        let ends := fun (i : Instr) (status sc n : Nat) => ∃ t, exec i s = .next t ∧ tget? t.cmds c = none
          ∧ tget? t.reqs x.req = some (q.after status sc n x.lba) ∧ (∀ o, o ≠ x.req → tget? t.reqs o = tget? s.reqs o)
        (2 ≤ q.open' →
          (∀ d n, q.op = 1 → sc.toNat < 2 → x.bytes = n → data.length = n → x.pages = [(d, n)] → region s d ≠ .host →
            ∃ t, exec (.nvmeCmdComplete c sc data) s = .next t ∧ tget? t.cmds c = none ∧ tget? t.reqs x.req = some (q.after 0 0 n x.lba) ∧ s.Wrote t d data)
          ∧ (q.op = 2 → sc.toNat < 2 → ends (.nvmeCmdComplete c sc []) 0 0 x.bytes)
          ∧ (q.op = 2 → 2 ≤ sc.toNat → ends (.nvmeCmdComplete c sc []) 0x0905 (sc.toNat / 2) 0)
          ∧ (q.op = 2 → ∃ n, n ≤ x.bytes ∧ ends (.nvmeCmdTimeout c) 0x0907 0 n)
          ∧ (q.op = 2 → ∃ n status, n ≤ x.bytes ∧ (status = 0x0905 ∨ status = 0x0907 ∨ status = 0x0908)
              ∧ ends (.driveCompletionTimeout c) status 0 n))
        ∧ (∀ d issue s2, q.open' = 1 → q.op = 2 → sc.toNat < 2 → q.push = false → q.issue = some issue → q.result.toNat % 32 = 0 → region s2 d ≠ .host →
          let q1 := q.after 0 0 x.bytes x.lba
          State.npDpa { s with cmds := tdel s.cmds c, reqs := tput s.reqs x.req q1 } q.part q.result.toNat needW = (some d, s2) →
          ∃ t, exec (.nvmeCmdComplete c sc []) s = .next t ∧ tget? t.reqs x.req = none ∧ s2.Wrote t d (npRecord q1 issue s.fc.chrono)))
      ∧ (tget? s.reqs r = some q → q.pushWait = true → q.push = true → s.pipeOf q.pipe q.part = some (cl, i, pp) → (s.cl cl).dm = [] →
        (pp.entries.length < 2 ^ pp.depthLog2 → ∃ t, exec (.npPushRetry r) s = .next t
            ∧ tget? (t.cl cl).pipes i = some { pp with entries := pp.entries ++ [q.tag] } ∧ tget? t.reqs r = none ∧ s.SameMem t)
        ∧ (2 ^ pp.depthLog2 ≤ pp.entries.length → ∃ t, exec (.npPushRetry r) s = .next t ∧ tget? t.reqs r = some q ∧ t.cls = s.cls)))

/-! ### The words of the statements about the chain -/

namespace Sys2Proof.Machine

/-- From `s` to `t` the unit has become orphaned (R401), and no byte of memory differs. -/
def State.Orphans (s t : State) : Prop := t.chain = { s.chain with status := 4 }
  ∧ t.fc = { s.fc with open' := false, ticking := s.fc.ticking && !s.fc.fixes.any (fun e => e.2.last) } ∧ s.SameMem t

/-- Link `l` is `k`, every other link is as in `s`, and the flits `sent` have gone out, the last one first. -/
def State.LinkIs (s t : State) (l : Nat) (k : Link) (sent : List Out) : Prop :=
  t.link l = k ∧ (∀ m, m ≠ l → t.link m = s.link m) ∧ t.out = sent ++ s.out
  ∧ { t with out := s.out, chain := { t.chain with links := s.chain.links } } = s

/-- A flit without DATA on the link, with the link's ACK and no credits to return. -/
def Link.plain (k : Link) (l ftype : Nat) (payload : List Byte) : Out := .flit l ftype (flitBytes ftype 0 0 0 0 ((k.rxSeq + 4095) % 4096) 0 0 0 payload)

/-- A kept flit as it is sent again. -/
def Link.again (k : Link) (l : Nat) (e : Nat × TxFlit) : Out :=
  .flit l 1 (flitBytes 1 (b2n e.2.first) (b2n e.2.last) e.2.cls e.1 ((k.rxSeq + 4095) % 4096) 0 0 0 e.2.payload)

end Sys2Proof.Machine

/-- R389–R392: a token that reaches a head that does not enumerate, or one that comes straight from another head, is a frame error (which link
it is logged with is the model's, log entry 21); the head enumerates; a member takes the number it is given; the end of enumeration forms the chain, with the highest stamp and fix
number of its units. -/
def Obligations.Enumeration : Prop :=
  ∀ (value : Nat) (excess : Bool) (stamp fix : Word) (s : State), s.serves →
    let c := s.chain
    let begun : Chain := { c with status := 2, address := 0, fresh := true, refused := [] }
    let go : State := { s with chain := begun }
    let up := stamp + 1000000
    let formed := fun (ring : Bool) (t : State) =>
      t.chain = { c with status := 3, units := value, size := value, ring := ring, members := BitVec.ofNat 16 (2 ^ value - 1),
                           maxStamp := stamp, maxFix := fix }
      ∧ t.fc.chrono = (if s.fc.chrono.toNat < stamp.toNat + 1000000 then up else s.fc.chrono)
      ∧ t.fc.sealed = (if s.fc.sealed.toNat < fix.toNat then fix else s.fc.sealed) ∧ s.SameMem t
    (c.mode = 1 → s.fc.ticking = false →
      ((s.link 0).up = true → exec .enumerate s = .next (go.sendPlain 0 3 (enumPayload 1 false s.fc.chrono s.fc.sealed)))
      ∧ (c.links = [] → exec .enumerate s = .next go))
    ∧ ((c.mode = 2 ∨ (c.mode = 1 ∧ s.fc.ticking = true)) → exec .enumerate s = .next (s.log 0x0C04 noInst noPart 0))
    ∧ (c.mode = 1 → c.status = 2 →
      (2 ≤ value → ∃ t, exec (.enum value stamp fix) s = .next t ∧ formed true t)
      ∧ (∃ t, exec (.enumEnd value false stamp fix) s = .next t ∧ formed false t)
      ∧ (c.links = [] → ∃ t, exec .enumTimeout s = .next t ∧ t.chain = begun ∧ t.fc = s.fc ∧ s.SameMem t))
    ∧ (c.mode = 1 → (c.status ≠ 2 ∨ value < 2) → exec (.enum value stamp fix) s = .next (s.log 0x0C05 (s.linkOf false) noPart 0))
    ∧ (c.mode = 2 → c.status = 1 → c.links = [] →
      (value < 16 → exec (.enum value stamp fix) s = .next { s with chain := { c with
          status := 3, address := value, units := value + 1, fresh := true, refused := [], maxStamp := if stamp.toNat < s.fc.chrono.toNat then s.fc.chrono else stamp,
          maxFix := if fix.toNat < s.fc.sealed.toNat then s.fc.sealed else fix } })
      ∧ (16 ≤ value → ∃ t, exec (.enum value stamp fix) s = .next t ∧ t.chain = { c with status := 5 } ∧ s.SameMem t)
      ∧ exec (.enumEnd value excess stamp fix) s = .next s)
    ∧ (c.mode = 2 → c.status = 3 → c.links = [(4, { Link.reset with up := true })] →
        exec (.enumEnd value excess stamp fix) s = .next (s.sendPlain 4 4 (enumPayload value excess stamp fix)))

/-- R175, R398–R402, R405, R406: TICK at a member, a late tick, CHAIN_DOWN, the orphaned state, and shuffles. -/
def Obligations.ChainMessages : Prop :=
  ∀ (l n src len units lost p i : Nat) (ring last : Bool) (members : BitVec 16) (stamp sendStamp lastFix : Word) (stream : BitVec 32)
    (first accepted status cause : Nat) (records : List Byte) (s : State), s.serves → s.legs = [] →
    let c := s.chain
    let f := s.fc
    let msg : Instr := .tick l n stamp len units ring last members lost sendStamp
    let late := sendStamp + BitVec.ofNat 64 (s.link l).latency
    let gap : Int := (sendStamp.toNat : Int) + ((s.link l).latency : Int) - (f.chrono.toNat : Int)
    (s.memberAlone →
      (members.getLsbD c.address = false → ∃ t, exec msg s = .next t ∧ s.Orphans t)
      ∧ (members.getLsbD c.address = true → f.ticking = false →
        let now := if c.fresh = true ∧ f.chrono.toNat < late.toNat then late else f.chrono
        ∃ t, exec msg s = .next t
          ∧ t.chain = { c with members := members, units := units, ring := ring, size := if c.fresh then units else c.size, fresh := false }
          ∧ t.fc.slew = (if c.fresh then 0 else gap)
          ∧ t.fc.ticking = true ∧ t.fc.epoch = n ∧ t.fc.epochLen = len ∧ t.fc.nextTick = stamp ∧ t.fc.chrono = now ∧ t.fc.lastTick = now
          ∧ t.fc.capMhz = f.cclk ∧ t.fc.open' = true ∧ t.fc.tickHeld = true ∧ t.fc.tickLast = last ∧ t.fc.lostFixes = lost ∧ (∀ m, (t.pp m).charged = 0) ∧ s.SameMem t)
      ∧ (members.getLsbD c.address = true → f.ticking = true → n = f.epoch →
        exec msg s = .next { s with
          chain := { c with members := members, units := units, ring := ring, size := if c.fresh then units else c.size, fresh := false }
          fc := { f with nextTick := stamp, epochLen := len, tickHeld := true, tickLast := last, lostFixes := lost, slew := gap } })
      ∧ (f.ticking = true → f.tickHeld = false → (∀ x ∈ f.fixes, x.2.last = false) → f.tickEarly = none → f.noSeal = false → s.parityLive = [] →
        ∃ t, exec .tickLate s = .next t ∧ t.fc.epoch = f.epoch + 1 ∧ t.fc.lastTick = f.nextTick ∧ t.fc.noFix = f.noFix + 1
          ∧ t.fc.epochLen = f.epochLen ∧ s.SameMem t)
      ∧ (f.tickHeld = true → exec .tickLate s = .next s)
      ∧ (f.lostFixes + 1 ≤ f.noFix → ∃ t, exec .orphaned s = .next t ∧ s.Orphans t)
      ∧ (f.noFix < f.lostFixes + 1 → exec .orphaned s = .next s)
      ∧ (∃ t, exec (.chainDown 0 cause lastFix) s = .next t ∧ s.Orphans t)
      ∧ (src ≠ 0 → exec (.chainDown src cause lastFix) s = .next s)
      ∧ (src < 16 → c.members.getLsbD src = true → (s.part p).exist = true → records.length = 8 →
        let b := s.inbox p i
        let a := b.base.toNat + 64 + b.fill
        (b.bytes = 0 → ∃ t, exec (.shuffleData src p i 1 stream first records) s = .next t ∧ t.chain.refused.contains (src, stream.toNat) = true
          ∧ t.inbox p i = b ∧ s.SameMem t)
        ∧ (∀ u v, b.bytes ≠ 0 → c.refused.contains (src, stream.toNat) = false → 72 + b.fill ≤ b.bytes →
          s.inboxWrite p (chunksOf a 8) records = (true, u) →
          let b1 := { b with fill := b.fill + 8, records := b.records + 1 }
          (u.setInbox p i b1).inboxHeader p b1 = (true, v) →
          ∃ t, exec (.shuffleData src p i 1 stream first records) s = .next t ∧ t.inbox p i = b1 ∧ t.chain = v.chain))
      ∧ (∀ w, c.shuffles = [w] → w.stream = stream → w.unit = src → w.first = first → status ≠ 0 →
        exec (.remoteCompletion src stream first accepted status) s = .next { s with
          chain := { c with shuffles := [], shuffleEnd := c.shuffleEnd ++ [(stream, first + accepted, 0x020B)] } })
      ∧ (c.shuffles = [] → exec (.remoteCompletion src stream first accepted status) s = .next s))
    ∧ (s.headAlone → src < 16 → ∃ t, exec (.chainDown src cause lastFix) s = .next t ∧ t.fc = { f with downSeen := f.downSeen ||| 1#16 <<< src }
        ∧ t.chain = c ∧ s.SameMem t)

/-- R393–R395: links coming up, flits received in and out of order, acknowledged, asked for again, and the training and probing of a link. -/
def Obligations.ChainLinks : Prop :=
  ∀ (l q rtt turnaround : Nat) (f : TxFlit) (flit : List Byte) (s : State), s.frozen = false → l < 8 →
    let k := s.link l
    let h := fld flit 0 8
    let ack := h / 2 ^ 20 % 4096
    let rc := [k.credits.getD 0 0 + fld flit 4 1, k.credits.getD 1 0 + fld flit 5 1, k.credits.getD 2 0 + fld flit 6 1]
    (k.up = false → s.chain.mode ≠ 0 → s.chain.status ≠ 5 → k.unacked = [] → k.txQ = [] →
      let k1 := { k with up := true, training := false, noProgress := 0, probes := 0, rttSum := 0, owed := [0, 0, 0], credits := [32, 192, 16],
                         replays := min 0xFFFFFFFF k.replays }
      ∃ t, exec (.chainLinkUp l) s = .next t ∧ s.LinkIs t l k1 [k.plain l 5 []])
    ∧ (k.up = true → k.owed = [0, 0, 0] → k.txQ = [] →
      (flitOk flit = false → ∃ t, exec (.data l flit) s = .next t ∧ s.LinkIs t l k [k.plain l 2 []])
      ∧ (flitOk flit = true → k.unacked = [] →
        (h % 16 = 1 → h / 256 % 4096 ≠ k.rxSeq →
          ∃ t, exec (.data l flit) s = .next t ∧ s.LinkIs t l { k with credits := rc } [k.plain l 2 []])
        ∧ (h % 16 = 1 → h / 256 % 4096 = k.rxSeq → h / 32 % 2 = 0 → k.rx = [] → k.rxHold = [] →
          ∃ t o, exec (.data l flit) s = .next t ∧ t.out = o :: s.out ∧ (t.link l).rxSeq = (k.rxSeq + 1) % 4096
            ∧ (t.link l).rx = [(flit.drop 8).take 240] ∧ (t.link l).rxClass = h / 64 % 4 ∧ (t.link l).owed = [0, 0, 0] ∧ (t.link l).credits = rc))
      ∧ (flitOk flit = true → k.unacked = [(q, f)] →
        (h % 16 = 0 → ack = q → ∃ t, exec (.idle l flit) s = .next t ∧ s.LinkIs t l { k with unacked := [], credits := rc, noProgress := 0 } [])
        ∧ (h % 16 = 0 → ack ≠ q → ∃ t, exec (.idle l flit) s = .next t ∧ s.LinkIs t l { k with credits := rc } [])
        ∧ (h % 16 = 2 → ack ≠ q → k.replays < 0xFFFFFFFF → ∃ t, exec (.nak l flit) s = .next t
            ∧ s.LinkIs t l { k with credits := rc, replays := k.replays + 1, noProgress := k.noProgress + 1 } [k.again l (q, f)]))
      ∧ (k.unacked = [(q, f)] → k.replays < 0xFFFFFFFF → ∃ t, exec (.replayTimeout l) s = .next t
          ∧ s.LinkIs t l { k with replays := k.replays + 1, noProgress := k.noProgress + 1 } [k.again l (q, f)])
      ∧ (k.unacked = [] → exec (.replayTimeout l) s = .next s)
      ∧ (s.chain.replayMax ≤ k.noProgress → k.retrains < 0xFFFF → ∃ t, exec (.linkRetrain l) s = .next t
          ∧ s.LinkIs t l { k with up := false, training := true, retrains := k.retrains + 1, noProgress := 0 } [])
      ∧ (k.noProgress < s.chain.replayMax → exec (.linkRetrain l) s = .next s)
      ∧ (∃ t o, exec (.probeFlit l) s = .next t ∧ t.link l = k ∧ t.out = .flit l 6 o :: s.out ∧ o.length = 256)
      ∧ (k.probes < 15 → ∃ t, exec (.probeReply l rtt turnaround) s = .next t
          ∧ s.LinkIs t l { k with probes := k.probes + 1, rttSum := k.rttSum + (rtt - turnaround) } [k.plain l 5 []])
      ∧ (k.probes = 15 → let sum := k.rttSum + (rtt - turnaround)
          ∃ t, exec (.probeReply l rtt turnaround) s = .next t ∧ s.LinkIs t l { k with probes := 16, rttSum := sum, latency := min 1023 (sum / 32) } []))
    ∧ (k.training = true → (∀ m, m ≠ l → (s.link m).up = false ∧ (s.link m).training = false) →
        ∃ t, exec (.linkRetrainFail l) s = .next t ∧ State.LinkIs { s with freeSeq := s.freeSeq + 1 } t l { Link.reset with retrains := k.retrains, replays := k.replays } [])

/-! ### The words of the statements about register space -/

namespace Sys2Proof.Machine

/-- From `s` to `t` only the requesters' latches have changed, and `o` is what has left the engine, newest first. -/
def State.OnlyLatch (s t : State) (o : List Out) : Prop := t.out = o ∧ { t with out := s.out, latches := s.latches } = s

/-- `s` with a bus error recorded in PM.REG_ERR and counted. -/
def State.busErr (s : State) (path source cause : Nat) (write : Bool) (o : Nat) : State :=
  { s with regErr := { cause := cause, write := write, path := path, source := source, valid := true,
                       offset := if o < 0x10000000 then o else 0, count := min (s.regErr.count + 1) 0xFFFFFFFF } }

/-- The body of ADMIN_RELAY. -/
def relayBytes (token : BitVec 16) (reply write wide : Bool) (status offset : Nat) (data : Word) : List Byte :=
  leBytes 2 token.toNat ++ leBytes 1 (b2n reply + 2 * b2n write + 4 * b2n wide) ++ leBytes 1 status ++ leBytes 4 offset ++ leBytes 8 data.toNat

/-- No access waits, every word's parity is right, and the engine takes accesses. -/
def State.regsQuiet (s : State) : Prop := s.noAccess = false ∧ s.stalls = [] ∧ s.parity = []

end Sys2Proof.Machine

/-- R410–R415, R419, R420: an access of a host on the management port reads or writes its register; a 64-bit register is read and written in
halves by way of the latches; an access that the fabric refuses is recorded; one into a sleeping domain waits, and its reply timer ends it.
The order in which the fabric tries its checks is the model's (log entry 32). -/
def Obligations.RegisterAccesses : Prop :=
  ∀ (o width v : Nat) (s : State), s.noAccess = false → s.pm.frozen = false → (s.hp s.mgmtPort).linkUp = true →
    let w := Requester.hostPort s.mgmtPort
    let x : Word := BitVec.ofNat 64 v
    let answers := fun (i : Instr) (y : Word) => ∃ t, exec i s = .next t ∧ s.OnlyLatch t (.reg w y :: s.out)
    let clock := s.fc.chrono.toNat
    (s.stalls = [] → s.parity = [] → s.pm.bootDone = true →
      answers (.registerRead w 0 64) s.fc.chrono
      ∧ (∃ t, exec (.registerRead w 0 32) s = .next t ∧ s.OnlyLatch t (.reg w (BitVec.ofNat 64 (clock % 2 ^ 32)) :: s.out)
          ∧ (t.latch w).readTag = some 0 ∧ (t.latch w).readHi = BitVec.ofNat 32 (clock / 2 ^ 32))
      ∧ ((s.latch w).readTag = some 0 → answers (.registerRead w 4 32) ((s.latch w).readHi.setWidth 64))
      ∧ ((s.latch w).readTag ≠ some 0 → answers (.registerRead w 4 32) (BitVec.ofNat 64 (clock / 2 ^ 32)))
      ∧ (10 ≤ v % 32 → v % 32 ≤ 24 → ∃ t, exec (.registerWrite w 0x90800 32 x) s = .next t
          ∧ t.rawReg 0x90800 0x10 = v % 32 + v / 256 % 2 * 256 ∧ { t with regs := s.regs, latches := s.latches } = s)
      ∧ ((v % 32 < 10 ∨ 24 < v % 32) → ∃ u : State, exec (.registerWrite w 0x90800 32 x) s = .next (u.log 0x0D03 noInst noPart 0)
          ∧ u.rawReg 0x90800 0x10 = s.rawReg 0x90800 0x10 % 32 + v / 256 % 2 * 256 ∧ { u with regs := s.regs, latches := s.latches } = s)
      ∧ (∃ t, exec (.registerWrite w 0x4080EC 32 x) s = .next t ∧ s.OnlyLatch t s.out ∧ (t.latch w).writeTag = some 0x4080E8
          ∧ (t.latch w).writeHi = BitVec.ofNat 32 v)
      ∧ (let old := (s.part 7).shXlat
        let hi := if (s.latch w).writeTag = some 0x4080E8 then (s.latch w).writeHi.toNat % 2 ^ 16 else old.s2.toNat / 2 ^ 32 % 2 ^ 16
        ∃ t, exec (.registerWrite w 0x4080E8 32 x) s = .next t
          ∧ t.part 7 = { s.part 7 with shXlat := { old with s2 := BitVec.ofNat 64 (hi * 2 ^ 32 + v % 2 ^ 32 / 4096 * 4096) } }
          ∧ (∀ p, p ≠ 7 → t.part p = s.part p) ∧ { t with parts := s.parts, latches := s.latches } = s ∧ (t.latch w).writeTag = none))
    ∧ (s.stalls = [] →
      let refused := fun (c : Nat) => exec (.registerRead w o width) s = .next (State.emit (s.busErr 0 s.mgmtPort c false o) (.regBusError w))
        ∧ exec (.registerWrite w o width x) s = .next (State.log (s.busErr 0 s.mgmtPort c true o) 0x0D01 noInst noPart 0)
      (width ≠ 32 → width ≠ 64 → refused 1)
      ∧ (width = 32 ∨ width = 64 → o % (width / 8) ≠ 0 → refused 2)
      ∧ (width = 32 → o % 4 = 0 → (0xB0000 ≤ o ∧ o < 0x400000 ∨ 0x10000000 ≤ o ∧ o < 0x100000000) → refused 3)
      ∧ (∀ q, q < 8192 → width = 32 → o = 0x500008 + 0x20 * q →
          exec (.registerWrite w o width x) s = .next (State.log (s.busErr 0 s.mgmtPort 4 true o) 0x0D01 noInst noPart 0))
      ∧ (s.pm.bootDone = false → exec (.registerRead w 0x10000 32) s = .next { s with
          stalls := [{ who := w, offset := 0x10000, width := 32, write := false, value := 0,
                       timed := decide (s.rawReg 0x90800 0x10 / 256 % 2 = 0), made := false, token := none }] })
      ∧ exec (.replyTimer w) s = .next s)
    ∧ (∀ a, s.stalls = [a] → a.who = w → a.offset < 0x100000000 → a.timed = true →
      (a.write = false → exec (.replyTimer w) s =
        .next (State.emit { s.busErr 0 s.mgmtPort 5 false a.offset with stalls := [] } (.regBusError w)))
      ∧ (a.write = true → exec (.replyTimer w) s =
        .next (State.log { s.busErr 0 s.mgmtPort 5 true a.offset with stalls := [] } 0x0D01 noInst noPart 0)))

/-- R407: GO sends an access to another unit of the chain, or reports NO_UNIT; a request is answered, and refused in the CL block; the reply
with the outstanding TOKEN ends the access, and so does the time-out. -/
def Obligations.RelayAccesses : Prop :=
  ∀ (g : BitVec 32) (src status : Nat) (token : BitVec 16) (o : Nat) (v : Word) (wide : Bool) (s : State), s.frozen = false →
    let c := s.chain
    let u := g.toNat % 16
    let set : Chain := { c with relayUnit := u, relayWrite := g.getLsbD 4, relayWide := g.getLsbD 5 }
    let go := { set with token := c.token + 1 }
    let data := if g.getLsbD 4 = false then 0 else if g.getLsbD 5 then c.relayData else c.relayData &&& 0xFFFFFFFF
    (g.getLsbD 6 = false → exec (.relayGo g) s = .next { s with chain := set })
    ∧ (g.getLsbD 6 = true → c.relayDone = false → exec (.relayGo g) s = .next (State.log { s with chain := set } 0x0C04 noInst noPart 0))
    ∧ (g.getLsbD 6 = true → c.relayDone = true → (c.status ≠ 3 ∨ c.members.getLsbD u = false) →
        exec (.relayGo g) s = .next { s with chain := { go with relayStatus := 1 } })
    ∧ (g.getLsbD 6 = true → c.relayDone = true → c.status = 3 → c.members.getLsbD u = true → u ≠ c.address →
        exec (.relayGo g) s = .next (State.sendMsg { s with chain := { go with relayDone := false, relayOutW := g.getLsbD 4 } } 6 u
          (relayBytes (c.token + 1) false (g.getLsbD 4) (g.getLsbD 5) 0 c.relayAddr.toNat data)))
    ∧ (s.noAccess = false → s.stalls = [] → src ≠ c.address → 0x40000 ≤ o → o < 0x50000 → ∀ w : Bool, exec (.adminRelay src token w wide (BitVec.ofNat 32 o) v) s =
        .next (s.sendMsg 6 src (relayBytes token true w wide 2 o 0)))
    ∧ (s.regsQuiet → src ≠ c.address → ∃ t, s.OnlyLatch t s.out ∧ exec (.adminRelay src token false true 0 v) s =
        .next (t.sendMsg 6 src (relayBytes token true false true 0 0 s.fc.chrono)))
    ∧ (c.relayDone = false →
      (token = c.token → exec (.adminRelayReply src token status v) s = .next { s with
        chain := { c with relayDone := true, relayStatus := if status = 0 then 0 else 2,
                          relayData := if status = 0 ∧ c.relayOutW = false then v else c.relayData } })
      ∧ (token ≠ c.token → exec (.adminRelayReply src token status v) s = .next s)
      ∧ exec .relayTimeout s = .next { s with chain := { c with relayDone := true, relayStatus := 3 } })
    ∧ (c.relayDone = true → exec (.adminRelayReply src token status v) s = .next s ∧ exec .relayTimeout s = .next s)

/-- R11, R422, R425, R426, R430, R432, R434, R435, R446: the throttle, PFAIL with its freeze, the end of the save, the reservations, the stop of a
management core and the loss of the reference. -/
def Obligations.PowerEvents : Prop :=
  ∀ (mv us k : Nat) (poison : List Nat) (pin : Bool) (s : State), s.frozen = false → s.ks.current ≤ 1 →
    let cfg := s.rawReg 0x90000 0x2ADC398#64
    let thr := cfg % 1024
    let low := cfg / 1024 % 1024
    let sense := decide (cfg / 2 ^ 25 % 2 = 1)
    let mvs := min mv 1023
    let p := s.pm
    (sense = true → p.throttled = false → mvs < thr → exec (.throttle mv) s = .next (State.log { s with
        pm := { p with throttled := true, throttles := min (p.throttles + 1) 0xFFFF, senseMv := mvs },
        fc := { s.fc with cclk := min s.fc.cclk (cfg / 2 ^ 20 % 32 * 100) } } 0x0E01 noInst noPart 0))
    ∧ (sense = false ∨ thr ≤ mvs → exec (.throttle mv) s = .next s)
    ∧ (sense = true → p.throttled = true → thr + 10 ≤ mvs →
        exec (.throttleLift mv) s = .next (State.log { s with pm := { p with throttled := false, senseMv := mvs } } 0x0E02 noInst noPart 0))
    ∧ (p.pfail = false → (pin = true ∨ sense = true ∧ mvs < low) → s.sealReady = none → s.inChain = false → (∀ e ∈ s.pps, e.2.dbg = .no) →
        let saves := !s.ks.protOff && p.bootDone
        ∃ t, exec (.pfail pin mv) s = .next t
          ∧ t.pm = { p with pfail := true, pfailCause := if pin then 2 else 1, throttled := false, senseMv := if sense then mvs else p.senseMv,
                            frozen := true, saving := p.saving || saves, saveDone := p.saveDone || !saves }
          ∧ t.dbg = { s.dbg with scope := 0, nonce := none } ∧ t.mem = s.mem ∧ t.fc = s.fc
          ∧ (saves = false → t.ks = s.ks)
          ∧ (saves = true → ∃ o, t.ks = { s.ks with captured := some o } ∧ o.sealed = s.fc.sealed ∧ o.chrono = s.fc.chrono ∧ o.parts = s.parts)
          ∧ .pin "SHED_OK" true ∈ t.out ∧ (saves = false → .pin "SAVE_DONE" true ∈ t.out))
    ∧ (p.pfail = true ∨ (pin = false ∧ (sense = false ∨ low ≤ mvs)) → exec (.pfail pin mv) s = .next s)
    ∧ exec .hupReadyFall s = .next (if s.fc.ticking then State.log { s with pm := { p with hupReady := false } } 0x0E04 noInst noPart 0
        else { s with pm := { p with hupReady := false } })
    ∧ (s.ks.protOff = false → s.ks.armed = true → 3 ∉ p.coresDown →
        let h := if s.ks.resFix.toNat ≤ s.fc.sealed.toNat + 524288 then s.ks.resFix + 1048576 else s.ks.resFix
        let th := if s.ks.resStamp.toNat ≤ s.fc.chrono.toNat + 2 ^ 34 then s.fc.chrono + 0x800000000 else s.ks.resStamp
        exec .ksReserveAppend s = .next { s with ks := { s.ks with logged := some (h, th), resFix := h, resStamp := th } })
    ∧ (k < 3 → k ∉ p.coresDown → s.admin.failStopped = false → ∃ t, exec (.mgmtCoreStop k) s = .next t ∧ k ∈ t.pm.coresDown
        ∧ t.admin.failStopped = true ∧ t.admin.faultCause = 0x14 ∧ t.mem = s.mem ∧ t.ks = s.ks)
    ∧ (3 ∉ p.coresDown → ∃ t, exec (.mgmtCoreStop 3) s = .next t ∧ 3 ∈ t.pm.coresDown ∧ t.admin = s.admin ∧ t.mem = s.mem
        ∧ t.ks = { s.ks with armed := false, protOff := true, logged := none, resStamp := 0, slot0 := { s.ks.slot0 with hdr := none },
                             slot1 := { s.ks.slot1 with hdr := none } })
    ∧ (p.refLost = false → s.admin.failStopped = false → ∃ t, exec .refclkLost s = .next t ∧ t.pm = { p with refLost := true }
        ∧ t.admin.failStopped = true ∧ t.admin.faultCause = 0x15 ∧ t.mem = s.mem)
    ∧ (let f : State := { s with pm := { p with frozen := true, saving := true, resetWait := none } }
      let slot := fun (u : State) => if s.ks.current = 1 then u.ks.slot0 else u.ks.slot1
      let marked := ((s.bad ++ poison).filter (fun l => l < 0x400000)).eraseDups
      ∃ t, exec (.saveDone true us poison) f = .next t ∧ t.pm = { f.pm with saving := false, saveDone := true } ∧ t.mem = s.mem
        ∧ .pin "SAVE_DONE" true ∈ t.out ∧ (slot t).keep = s.mem.filter (fun c => c.1 < 0x10000000) ∧ (slot t).programmed = true
        ∧ (slot t).onDie = s.ks.captured ∧ (slot t).valid = true ∧ (slot t).poisoned = marked
        ∧ (∃ h, (slot t).hdr = some h ∧ h.seq = s.ks.seq + 1 ∧ h.lastFix = s.fc.sealed ∧ h.saveUs = us ∧ h.poison = marked.length ∧ h.cause = p.pfailCause)
        ∧ (if s.ks.current = 1 then t.ks.slot1 = s.ks.slot1 else t.ks.slot0 = s.ks.slot0)
        ∧ ∃ u : State, exec (.saveDone false us poison) f = .next u ∧ u.pm = { f.pm with saving := false, saveDone := true } ∧ (slot u).hdr = none)

/-- R438–R440, R451, R455, R474: a device reset keeps the keep store, the fuses, HBM and the failed debug attempts, a power-on reset only the first
two; everything else is as after reset.  A request with a wrong key is logged; one during a save waits. -/
def Obligations.Resets : Prop :=
  ∀ (w : BitVec 32) (s : State),
    let p := s.pm
    let left := fun (t : State) (cause : Nat) (pin : Bool) (hbm : Bool) =>
      t.mem = s.mem.filter (fun c => decide (0x800000000000 ≤ c.1) || (hbm && decide (c.1 < 0x2400000000)))
      ∧ t.bad = (if hbm then s.bad.filter (fun l => l < 0x90000000) else [])
      ∧ t.pm = { Pm.reset with inReset := true, resetCause := cause, resetPin := pin, minSvn := p.minSvn, hupReady := p.hupReady,
                               tripped := hbm && p.tripped }
      ∧ (p.saving = false → s.ks.erasing = false → t.ks.slot0 = s.ks.slot0 ∧ t.ks.slot1 = s.ks.slot1)
      ∧ t.ks.logged = s.ks.logged ∧ t.ks.prior = (if hbm then s.ks.prior else none) ∧ t.ks.armed = false ∧ t.ks.protOff = false
      ∧ t.dbg.fieldLock = s.dbg.fieldLock ∧ t.dbg.obsHash = s.dbg.obsHash ∧ t.dbg.scope = 0 ∧ t.dbg.nonce = none
      ∧ t.dbg.fails = (if hbm then s.dbg.fails else 0) ∧ t.dbg.lockedOut = (hbm && s.dbg.lockedOut)
      ∧ { t with pending := [], freeSeq := 0, out := [], mem := [], bad := [], pm := .reset, ks := .reset, dbg := .reset } = .reset
      ∧ t.pending = s.pending
    let runs := s.frozen = false ∧ p.pfail = false ∧ s.sealReady = none
    (∃ t, exec .powerOnReset s = .next t ∧ left t 0 false false)
    ∧ (runs → ∃ t, exec .resetN s = .next t ∧ left t 1 true true)
    ∧ (runs → ∃ t, exec .pwrgoodFall s = .next t ∧ left t 1 p.resetPin true)
    ∧ (runs → p.saveDone = false → w.getLsbD 0 = true → w.toNat / 256 % 256 = 0xD5 → ∃ t, exec (.deviceReset w) s = .next t ∧ left t 2 p.resetPin true)
    ∧ (s.noAccess = false → w.getLsbD 0 = true → w.toNat / 256 % 256 ≠ 0xD5 →
        exec (.deviceReset w) s = .next (s.log 0x0E06 noInst noPart 0))
    ∧ (w.getLsbD 0 = false → exec (.deviceReset w) s = .next s)
    ∧ (p.inReset = true → p.pfail = false → exec .pwrgoodFall s = .next s ∧ exec (.deviceReset w) s = .next s
        ∧ exec .resetN s = .next { s with pm := { p with resetPin := true } })
    ∧ (p.inReset = false → p.pfail = true → p.saveDone = false → p.resetWait = none →
        exec .pwrgoodFall s = .next { s with pm := { p with resetWait := some 1 } }
        ∧ (w.getLsbD 0 = true → w.toNat / 256 % 256 = 0xD5 → exec (.deviceReset w) s = .next { s with pm := { p with resetWait := some 2 } }))
    ∧ (∀ us poison, p.saving = true → p.pfail = true → p.resetWait = some 1 → ∃ t, exec (.saveDone true us poison) s = .next t
        ∧ t.pm.inReset = true ∧ t.pm.resetCause = 1 ∧ t.mem = s.mem.filter (fun c => decide (0x800000000000 ≤ c.1) || decide (c.1 < 0x2400000000)))

/-- R369, R389, R436, R442–R444: boot takes the straps and the image, trains, restores and arms, or fails at the step that its rules name; a PP
reset leaves the PP in pilot mode at its vector.  The image's checks arrive as an operand (log entry 16), and the bytes that training may write
(R353) read as after power-on, which is the model's choice (log entries 1, 22). -/
def Obligations.BootAndPpReset : Prop :=
  ∀ (b : BootIn) (ms n : Nat) (s : State), s.pm.frozen = false → s.pm.pfail = false →
    let p := s.pm
    let hold : State := { s with pm := { p with inReset := false, resetPin := false, cclkBase := 1000, hupReady := b.hupReady }, fc := { s.fc with cclk := 1000 } }
    let links := (List.range 4).flatMap (fun g => match b.hpcfg.toNat / 4 ^ g % 4 with | 1 => [16] | 2 => [8, 8] | _ => [])
    let trained := fun (a : Nat) => 0x23FF800000 ≤ a ∧ a < 0x2400000000
    let strapsOk := links.length ≤ 4 ∧ b.mgmtPort < links.length
    let ok := fun (x : Option Nat) => ∃ n, x = some n ∧ p.minSvn ≤ n
    let stacksOk := b.hbmOk = true ∧ ∀ k ∈ b.hbmRepaired, k ≤ 64
    let slot0 := s.ks.slot0.asRead (b.ksBad.contains 0)
    let slot1 := s.ks.slot1.asRead (b.ksBad.contains 1)
    (p.stage ≠ 0 ∨ p.bootDone = true → exec (.bootStart b) s = .next s)
    ∧ (p.stage = 0 → p.bootDone = false →
      (¬ strapsOk → ∃ u : State, exec (.bootStart b) s = .next (u.log 0x0A01 noInst noPart 0) ∧ u.pm = { hold.pm with stage := 7, smbAddr := b.smbAddr }
        ∧ u.mem = s.mem)
      ∧ (strapsOk → ¬ ok b.svnA → ¬ ok b.svnB → ∃ u : State, exec (.bootStart b) s = .next (u.log 0x0E08 noInst noPart 0)
        ∧ u.pm = { hold.pm with stage := 7, smbAddr := b.smbAddr } ∧ u.mem = s.mem)
      ∧ (∀ x, strapsOk → b.svnA = some x → p.minSvn ≤ x → (∀ y, b.svnB = some y → y ≤ x) →
        let img := { hold.pm with smbAddr := b.smbAddr, copy := 0, svn := x, svnCommit := b.commitSvn }
        (¬ stacksOk → ∃ u : State, exec (.bootStart b) s = .next (u.log 0x0905 noInst noPart 0) ∧ u.pm = { img with stage := 7 } ∧ u.mem = s.mem)
        ∧ (stacksOk → ∃ t, exec (.bootStart b) s = .next t ∧ t.pm = { img with stage := 3 }
          ∧ (∀ h, h < 4 → (t.hp h).lanes = links.getD h 0 ∧ (t.hp h).mgmt = decide (h = b.mgmtPort))
          ∧ t.chain.mode = (if b.chainMode = 1 ∨ b.chainMode = 2 then b.chainMode else 0)
          ∧ (∀ k, k < 4 → (t.dc k).state = 1 ∧ (t.dc k).capGib = 36)
          ∧ t.ks.slot0 = slot0 ∧ t.ks.slot1 = slot1
          ∧ t.fc.sealed = BitVec.ofNat 64 (((newestRec t.fixRecs).map FixRec.fix).getD 0)
          ∧ (s.keepValid = true → chainsBack s.fixRecs = true → t.ks.outcome = 3
              ∧ ∀ a, 64 ≤ a → memGet t.mem a = if trained a then memGet [] a else memGet s.mem a)
          ∧ (s.keepValid = false → slot0.valid = false → slot1.valid = false → t.ks.outcome = 0
              ∧ (∀ a, 64 ≤ a → a < 0x10000000 → memGet t.mem a = memGet [] a)
              ∧ ∀ a, 0x10000000 ≤ a → memGet t.mem a = if trained a then memGet [] a else memGet s.mem a))))
    ∧ (p.stage = 3 → p.bootDone = false → p.inReset = false → s.chain.mode ≠ 1 → s.stalls = [] → s.ks.protOff = false →
        ∃ t, exec (.bootDone ms) s = .next t
          ∧ t.pm = { p with stage := 4, bootDone := true, bootMs := min ms 0xFFFFFFFF, cclkBase := 1800,
                            minSvn := if p.svnCommit then max p.minSvn p.svn else p.minSvn }
          ∧ t.fc = { s.fc with cclk := if p.throttled then min 1800 s.throttleMhz else 1800 } ∧ t.ks.armed = true ∧ t.ks.erasing = false ∧ t.ks.resStamp = s.fc.chrono + 0x800000000
          ∧ (s.ks.logged = none → t.ks.resFix = s.fc.sealed + 1048576)
          ∧ (∀ h th, s.ks.logged = some (h, th) → t.ks.resFix = (if h.toNat < s.fc.sealed.toNat then s.fc.sealed else h) + 1048576)
          ∧ t.ks.logged = some (t.ks.resFix, t.ks.resStamp)
          ∧ (s.ks.outcome = 1 → s.ks.slotNo = 0 → t.ks.slot0 = s.ks.slot0 ∧ t.ks.slot1 = .reset)
          ∧ ∀ a, 64 ≤ a → memGet t.mem a = memGet s.mem a)
    ∧ (p.inReset = false → ∃ t, exec (.ppReset n) s = .next t ∧ s.OnlyPp { t with hostWant := s.hostWant, hostGot := s.hostGot } n
        ∧ (∀ x, x ∈ t.hostWant ↔ x ∈ s.hostWant ∧ x.req ≠ .pp n) ∧ (∀ x, x ∈ t.hostGot ↔ x ∈ s.hostGot ∧ x.1.req ≠ .pp n) ∧ (t.pp n).mode = .pilot ∧ (t.pp n).pc = (s.pp n).getCsr 0x107
        ∧ (t.pp n).l1i = [] ∧ (t.pp n).l1d = [] ∧ (t.pp n).tlb = [] ∧ (t.pp n).halted = false
        ∧ (∀ r : Nat, (t.pp n).getV r = 0 ∧ (t.pp n).getM r = 0) ∧ (∀ r, (t.pp n).getX r = (s.pp n).getX r)
        ∧ (t.pp n).vl = 0 ∧ (t.pp n).vcfg = 0 ∧ ((s.pp n).running = none → ∀ k, k < 32 → (t.pp n).getCsr k = 0))

/-- R445, R461, R476, R478, R479: the endpoint's answers, each of a completion code and a body; the sensors' readings, and the trip.  What R445
leaves to DSP0236 is the model's (log entry 24). -/
def Obligations.Management : Prop :=
  ∀ (e : BitVec 8) (body : List Byte) (temps : List Int) (dw : Nat) (s : State), s.noAccess = false →
    let p := s.pm
    let answers := fun (i : Instr) (code : Nat) (b : List Byte) => exec i s = .next { s with out := .mctp code b :: s.out }
    let status := fun (u : State) => leBytes 4 u.sagState
    let badLog := fun (i : Nat) => (List.range 4).map (fun k => tget? s.err.slots ((i + k) % 4096))
    (e ≠ 0x00 → e ≠ 0xFF →
      exec (.setEndpointId e) s = .next { s with pm := { p with eid := e }, out := .mctp 0x01 [0, 0, e, 0] :: s.out })
    ∧ answers (.setEndpointId 0x00) 0x01 [2] ∧ answers (.setEndpointId 0xFF) 0x01 [2]
    ∧ (∃ x y : Byte, exec .getEndpointId s = .next { s with freeSeq := s.freeSeq + 1, out := .mctp 0x02 [0, p.eid, x, y] :: s.out })
    ∧ (∃ v : List Byte, v.length = 4 ∧
        exec (.getMctpVersionSupport 0x7E) s = .next { s with freeSeq := s.freeSeq + 1, out := .mctp 0x04 (0 :: 1 :: v) :: s.out })
    ∧ (e ≠ 0x00 → e ≠ 0x7E → e ≠ 0xFF → answers (.getMctpVersionSupport e) 0x04 [0x80])
    ∧ answers .getMessageTypeSupport 0x05 [0, 1, 0x7E]
    ∧ answers (.getBootState []) 0x7E01 (0 :: leBytes 8 s.bootState)
    ∧ (p.temps.length = 7 → answers (.getThermal []) 0x7E02 (0 :: p.temps.flatMap (fun x => leBytes 2 (BitVec.ofInt 16 x).toNat)))
    ∧ answers (.getPower []) 0x7E03 (0 :: leBytes 2 (min p.powerDw 0xFFFF) ++ status s)
    ∧ (body ≠ [] → answers (.getBootState body) 0x7E01 [3] ∧ answers (.getThermal body) 0x7E02 [3] ∧ answers (.getPower body) 0x7E03 [3])
    ∧ (body.length = 2 → (∀ k, k < 4 → (badLog (leNat body)).getD k none = none) → answers (.readErrorLog body) 0x7E04 [0])
    ∧ (body.length = 2 → ∀ l : List ErrEntry, badLog (leNat body) = l.map some → answers (.readErrorLog body) 0x7E04
        (0 :: l.flatMap (fun x => (List.range 4).flatMap (fun k => leBytes 8 (x.word k)))))
    ∧ (body.length ≠ 2 → answers (.readErrorLog body) 0x7E04 [3])
    ∧ (body ≠ [0xD5] → answers (.mctpDeviceReset body) 0x7E05 [3])
    ∧ (p.pfail = false → s.sealReady = none → ∃ t, exec (.mctpDeviceReset [0xD5]) s = .next t ∧ t.pm.inReset = true
        ∧ t.pm.resetCause = 3 ∧ t.out = .mctp 0x7E05 [0] :: s.out)
    ∧ (∃ t, exec (.thermalSample temps dw) s = .next t ∧ t.pm.temps = temps ∧ t.pm.powerDw = dw ∧ t.mem = s.mem
        ∧ (t.pm.tripped = true ↔ p.tripped = true ∨ ∃ i x, temps[i]? = some x ∧ (if i < 3 then 1150 else 1050) ≤ x)
        ∧ (p.tripped = false → t.pm.tripped = true → .pin "THERMTRIP_N" false ∈ t.out))
    ∧ (p.tripped = true → p.pfail = false → exec .tripNoPfail s = .next { s with pm := { p with frozen := true } })
    ∧ (p.tripped = false ∨ p.pfail = true → exec .tripNoPfail s = .next s)

/-- R450–R455: the TAP instructions that need no scope, the nonce, and an attempt to open a scope: what succeeds, what fails and is counted, what is
refused.  The status of a failed attempt is free (log entry 25). -/
def Obligations.DebugPort : Prop :=
  ∀ (scan : List Bool) (b : Bool) (scope : BitVec 8) (secret : BitVec 128) (s : State),
    let d := s.dbg
    let ir := fun (k : Nat) => { d with ir := k }
    let tells := fun (i : Instr) (x : Dbg) (v : Nat) => exec i s = .next { s with dbg := x, out := .tap v :: s.out }
    let auth := Instr.dbgAuth scope secret
    let sets := fun (x : Dbg) (st : Nat) => exec auth s = .next { s with dbg := { x with status := st } }
    let key := leBytes 16 secret.toNat
    let noHalt := ∀ e ∈ s.pps, e.2.dbg = .no
    let shut := fun (x : Dbg) => { x with scope := 0, nonce := none }
    let good := fun (x : Dbg) (k : Nat) => { x with scope := max d.scope k, attempts := min (d.attempts + 1) 0xFFFFFFFF, status := 0 }
    let fails := fun (keep : Bool) => ∃ st, 1 ≤ st ∧ st ≤ 6 ∧ ∃ t, exec auth s = .next t ∧ t.mem = s.mem
      ∧ t.dbg = { ir 0x12 with fails := min (d.fails + 1) 3, attempts := min (d.attempts + 1) 0xFFFFFFFF, lockedOut := decide (2 ≤ d.fails),
                               status := st, nonce := if keep && decide (d.fails < 2) then d.nonce else none,
                               scope := if d.fails < 2 then d.scope else 0 }
    tells .idcode (ir 2) 0x196400B7 ∧ tells (.bypass b) (ir 0xFF) (2 * b2n b)
    ∧ (noHalt → exec .trstN s = .next { s with dbg := shut (ir 2) })
    ∧ (s.pm.pfail = true → exec (.extest scan) s = .next s ∧ exec (.samplePreload scan) s = .next s ∧ exec .dbgStatus s = .next s
        ∧ exec .dbgNonce s = .next s ∧ exec auth s = .next s ∧ exec .dbgClose s = .next s ∧ exec .dbgLock s = .next s)
    ∧ (s.pm.pfail = false →
      tells .dbgStatus (ir 0x10) s.dbgState
      ∧ (∃ v, exec (.samplePreload scan) s = .next { s with freeSeq := s.freeSeq + 1, dbg := { ir 1 with scan := scan }, out := .tap v :: s.out })
      ∧ (s.pm.resetPin = true →
          ∃ v, exec (.extest scan) s = .next { s with freeSeq := s.freeSeq + 1, dbg := { ir 0 with scan := scan }, out := .tap v :: s.out })
      ∧ (s.pm.resetPin = false → exec (.extest scan) s = .next (State.emit (State.log { s with dbg := ir 0 } 0x1001 noInst noPart 0) (.tap 0)))
      ∧ (∃ v : BitVec 256, exec .dbgNonce s = .next { s with
          freeSeq := s.freeSeq + 1, dbg := { ir 0x11 with nonce := some (v, s.fc.chrono) }, out := .tap v.toNat :: s.out })
      ∧ (noHalt → exec .dbgClose s = .next { s with dbg := shut (ir 0x14) })
      ∧ (noHalt → d.fieldLock = false → exec .dbgLock s = .next { s with dbg := { shut (ir 0x15) with fieldLock := true } })
      ∧ (d.fieldLock = true → exec .dbgLock s = .next { s with dbg := ir 0x15 })
      ∧ (d.lockedOut = true → scope ≠ 2 → sets (ir 0x12) 6)
      ∧ (d.lockedOut = false → scope ≠ 1 → scope ≠ 2 → sets (ir 0x12) 1)
      ∧ (d.lockedOut = false → scope = 1 → d.obsHash = 0 → sets (ir 0x12) 5)
      ∧ (d.lockedOut = false → scope = 2 → d.nonce = none → sets (ir 0x12) 4)
      ∧ (d.lockedOut = false → scope = 1 → d.obsHash ≠ 0 → sha256 key = leBytes 32 d.obsHash.toNat →
          exec auth s = .next { s with dbg := good (ir 0x12) 1 })
      ∧ (d.lockedOut = false → scope = 1 → d.obsHash ≠ 0 → sha256 key ≠ leBytes 32 d.obsHash.toNat → noHalt → fails true)
      ∧ (∀ v t, d.lockedOut = false → scope = 2 → d.nonce = some (v, t) →
          let mac := hmacSha256 (leBytes 32 Config.unlockKey.toNat) (leBytes 32 v.toNat ++ leBytes 8 Config.serial.toNat ++ [2])
          (key = mac.take 16 → exec auth s = .next { s with dbg := { good (ir 0x12) 2 with nonce := none } })
          ∧ (key ≠ mac.take 16 → noHalt → fails false)))
    ∧ (d.nonce = none → exec .nonceExpiry s = .next s)
    ∧ (∀ v t, d.nonce = some (v, t) → (t + 10000000000).toNat ≤ s.fc.chrono.toNat → exec .nonceExpiry s = .next { s with dbg := { d with nonce := none } })

/-- R450, R456, R457: an operation of DBG_ACCESS is discarded as BUSY while the last is not done, and DENIED outside its scope; else it is performed:
registers and memory by management core 0, PPs halted, resumed and read, the observe password's hash programmed. -/
def Obligations.DebugAccess : Prop :=
  ∀ (a : BitVec 48) (v : Word) (wide : Bool) (s : State), s.pm.pfail = false →
    let d := s.dbg
    let ir := { d with ir := 0x13 }
    let st := fun (op k : Nat) => { ir with op := op, status := k, done := true }
    let ops : List (Instr × Nat × Nat) := [(.dbgNop, 0, 1), (.regRead wide a, 1, 1), (.logRead a, 2, 1), (.regWrite wide a v, 3, 2),
      (.memWrite a v, 5, 2), (.ppHalt a, 6, 2), (.ppResume a, 7, 2), (.ppStep a, 8, 2), (.ppState a, 9, 2), (.haltOnBreak v, 0xA, 2),
      (.dbgDeviceReset, 0xB, 2)]
    let n := 4 * (a.toNat % 64) + a.toNat / 64 % 4
    let p := s.pp n
    let full := d.done = true ∧ (d.fieldLock = false ∨ d.scope = 2)
    let reads := fun (i : Instr) (op : Nat) (x : Word) => exec i s = .next { s with dbg := { st op 0 with data := x } }
    let memRead := fun (x : Dbg) => ∃ t, exec (.memRead a) s = .next t ∧ { t with hostGot := s.hostGot } = { s with dbg := x }
    (d.done = false → memRead { ir with status := 3 } ∧ ∀ x ∈ ops, exec x.1 s = .next { s with dbg := { ir with status := 3 } })
    ∧ (d.done = true → d.fieldLock = true → (d.scope < 2 → memRead (st 4 1)) ∧ ∀ x ∈ ops, d.scope < x.2.2 → exec x.1 s = .next { s with dbg := st x.2.1 1 })
    ∧ (d.done = true → (d.fieldLock = false ∨ 1 ≤ d.scope) →
      exec .dbgNop s = .next { s with dbg := st 0 0 }
      ∧ (∃ k, k < 4 ∧ exec (.logRead a) s = .next { s with
          freeSeq := s.freeSeq + 1, dbg := { st 2 0 with data := BitVec.ofNat 64 (s.err.word (a.toNat % 4096) k) } })
      ∧ (s.regsQuiet → 0 ∉ s.pm.coresDown → ∃ t, exec (.regRead true 0) s = .next t ∧ t.out = s.out
          ∧ t.dbg = { st 1 0 with data := s.fc.chrono } ∧ { t with dbg := s.dbg, latches := s.latches } = s)
      ∧ (a.toNat % 4 ≠ 0 → exec (.regRead false a) s = .next { s with dbg := st 1 1 }))
    ∧ (full →
      (s.regsQuiet → 0 ∉ s.pm.coresDown → 10 ≤ v.toNat % 32 → v.toNat % 32 ≤ 24 → ∃ t, exec (.regWrite false 0x90800 v) s = .next t
          ∧ t.rawReg 0x90800 0x10 = v.toNat % 32 + v.toNat / 256 % 2 * 256 ∧ t.dbg = { st 3 0 with data := d.data } ∧ t.mem = s.mem)
      ∧ (s.noAccess = false → 0 ∉ s.pm.coresDown → a.toNat % 8 = 0 → s.inMemory a.toNat → region s a.toNat ≠ .unmapped →
        (s.bad.contains (a.toNat / 64) = false → ∃ t, exec (.memRead a) s = .next t ∧ t.dbg = { st 4 0 with data := BitVec.ofNat 64 (readNat s.mem a.toNat 8) }
            ∧ ∀ b, memGet t.mem b = memGet s.mem b)
        ∧ (region s a.toNat ≠ .keep → ∃ t, exec (.memWrite a v) s = .next t ∧ t.dbg = st 5 0
            ∧ (∀ b, a.toNat ≤ b → b < a.toNat + 8 → memGet t.mem b = BitVec.ofNat 8 (v.toNat / 256 ^ (b - a.toNat)))
            ∧ ∀ b, (b < a.toNat ∨ a.toNat + 8 ≤ b) → memGet t.mem b = memGet s.mem b)
        ∧ (region s a.toNat = .keep → exec (.memWrite a v) s = .next { s with dbg := st 5 1 }))
      ∧ (0 ∈ s.pm.coresDown → memRead (st 4 2) ∧ exec (.memWrite a v) s = .next { s with dbg := st 5 2 })
      ∧ (p.dbg = .no → ∃ t, exec (.ppHalt a) s = .next t ∧ t.pp n = { p with dbg := .byHalt } ∧ (∀ m, m ≠ n → t.pp m = s.pp m)
          ∧ t.dbg = st 6 0 ∧ t.mem = s.mem ∧ t.legs = s.legs)
      ∧ (p.dbg = .byHalt → p.running = none → ∃ t, exec (.ppResume a) s = .next t ∧ t.pp n = { p with dbg := .no } ∧ t.dbg = st 7 0 ∧ t.mem = s.mem
          ∧ ∃ u : State, exec (.ppStep a) s = .next u ∧ u.pp n = { p with dbg := .step } ∧ u.dbg = st 8 0 ∧ u.mem = s.mem)
      ∧ (p.dbg.stops = true → let item := a.toNat / 256 % 256
        (item < 32 → reads (.ppState a) 9 (p.getX (BitVec.ofNat 5 item))) ∧ (item = 32 → reads (.ppState a) 9 p.pc)
        ∧ (item = 33 → reads (.ppState a) 9 (p.getCsr 0x102)) ∧ (item = 34 → reads (.ppState a) 9 (p.getCsr 0x101))
        ∧ (item = 35 → reads (.ppState a) 9 (p.getCsr 0x103)))
      ∧ (∃ t, exec (.haltOnBreak v) s = .next t ∧ t.dbg = st 0xA 0 ∧ t.mem = s.mem
          ∧ ∀ m, m < 256 → ((t.pp m).getCsr 0x100).getLsbD 1 = v.getLsbD 0 ∧ (t.pp m).getX = (s.pp m).getX ∧ (t.pp m).pc = (s.pp m).pc)
      ∧ (s.frozen = false → s.sealReady = none → ∃ t, exec .dbgDeviceReset s = .next t ∧ t.pm.inReset = true ∧ t.pm.resetCause = 4))
    ∧ (d.done = true →
      ((d.fieldLock = true ∨ d.obsHash ≠ 0) → exec (.fuseHash a v) s = .next { s with dbg := st 0xC 1 })
      ∧ (d.fieldLock = false → d.obsHash = 0 → ∀ w0 w1 w2, d.hashParts = [(0, w0), (1, w1), (2, w2)] →
        (a.toNat % 4 = 3 → exec (.fuseHash a v) s = .next { s with dbg := { st 0xC 0 with
            hashParts := [], obsHash := v.setWidth 256 <<< 192 ||| w2.setWidth 256 <<< 128 ||| w1.setWidth 256 <<< 64 ||| w0.setWidth 256 } })
        ∧ (a.toNat % 4 = 0 → exec (.fuseHash a v) s = .next { s with dbg := { st 0xC 0 with hashParts := [(0, v), (1, w1), (2, w2)] } })))

/-! ### The words of the statements about the whole machine -/

namespace Sys2Proof.Machine

/-- After reset a management core reads `v` at offset `o` of register space. -/
def resetReads (o width : Nat) (v : Word) : Prop :=
  ∃ t, exec (.registerRead (.core 1) o width) .reset = .next t ∧ t.out = [.reg (.core 1) v]

end Sys2Proof.Machine

/-- A step with `c` at the front of the queue is `exec c` with the queue's rest. -/
def Obligations.StepRunsFrontCommand : Prop :=
  ∀ (c : Instr) (rest : List Instr) (s : State), s.pending = rest → step { s with pending := c :: rest } = exec c s

/-- Every step keeps memory in canonical form: addresses strictly rising, and no listed byte equal to what an unlisted address reads as. -/
def Obligations.StepKeepsMemoryForm : Prop :=
  ∀ s t : State, Memory.wf s.mem = true → step s = .next t → Memory.wf t.mem = true

/-- R34, R264, R306, R319, R333, R337, R357, R420, R422: after reset the registers that the spec gives a value other than zero read it.
After reset memory is in canonical form: nothing is listed. -/
def Obligations.ResetState : Prop :=
  (resetReads 0x000008 64 0x64 ∧ resetReads 0x000028 32 0x41F40 ∧ resetReads 0x010000 32 0xFFFFF ∧ resetReads 0x040000 32 0x10
    ∧ resetReads 0x040210 32 0x80 ∧ resetReads 0x060000 32 0x1F40C8 ∧ resetReads 0x090000 32 0x2ADC398 ∧ resetReads 0x090800 32 0x10
    ∧ resetReads 0x400040 32 0x20000 ∧ resetReads 0x400058 32 0x46000 ∧ resetReads 0x712000 64 0xFFFFFFFF
    ∧ (∀ q, q < 4 → resetReads (0x010100 + 8 * q) 64 0xFFFFFFFFFFFF0000 ∧ resetReads (0x050000 + 0x100 * q) 32 0x4C8)
    ∧ (∀ n, n < 16 → resetReads (0x080008 + 0x1000 * n) 32 0x400)
    ∧ (∀ c, c < 64 → resetReads (0x1000600 + 0x10000 * c) 32 0x1F ∧ resetReads (0x1000618 + 0x10000 * c) 32 0x10
        ∧ resetReads (0x1004000 + 0x10000 * c) 32 3))
  ∧ (Memory.wf State.reset.mem = true ∧ ∀ a, memGet State.reset.mem a = 0)

/-- R68, R74, R76, R78, R84, R86, R94: a scalar instruction with a non-zero field that its row requires to be zero raises ILLEGAL_INSTR with
its word in PTVAL, in either mode; a well-formed PILOT instruction of a running leg raises PRIVILEGED.
R122, R126–R129: a vector row that sets a bit its row requires to be zero raises ILLEGAL_INSTR with its word in PTVAL. -/
def Obligations.MalformedForms : Prop :=
  (∀ (n : Nat) (f : RF) (s : State), s.executes n →
      let word := fun (maj fn : Nat) => BitVec.ofNat 64 (maj + f.rd.toNat * 2 ^ 6 + f.rs1.toNat * 2 ^ 11 + f.rs2.toNat * 2 ^ 16
        + f.rs3.toNat * 2 ^ 21 + fn * 2 ^ 26)
      let traps := fun (cause maj : Nat) (l : List (Nat × Instr)) =>
        ∀ x ∈ l, exec x.2 s = .next ((s.trap n cause (word maj x.1)).stepDone n)
      let ill := traps 0x01
      let asks := fun (cause maj fn : Nat) (rs : List HostReq) (i : Instr) =>
        exec i s = .next (s.settled rs ((s.asking.trap n cause (word maj fn)).stepDone n))
      let walks := [HostReq.walk (ppCluster n)]
      (f.rs3 ≠ 0 →
        ill 0x00 [(0x00, .add n f), (0x01, .sub n f), (0x02, .and n f), (0x03, .or n f), (0x04, .xor n f), (0x05, .andn n f), (0x06, .sll n f),
          (0x07, .srl n f), (0x08, .sra n f), (0x09, .ror n f), (0x0A, .slt n f), (0x0B, .sltu n f), (0x0C, .minMax n .min f),
          (0x0D, .minMax n .max f), (0x0E, .minMax n .minu f), (0x0F, .minMax n .maxu f), (0x10, .mul n f), (0x11, .mulh n f),
          (0x12, .mulhu n f), (0x13, .div n f), (0x14, .divu n f), (0x15, .rem n f), (0x16, .remu n f), (0x17, .crc32cw n f),
          (0x1D, .addw n f), (0x1E, .subw n f), (0x1F, .crc32c n f)]
        ∧ (∀ w : Bool, ill 0x28 [(0x00 + b2n w, .fadd n w f), (0x02 + b2n w, .fswap n w f), (0x06 + b2n w, .fmin n w f), (0x08 + b2n w, .fmax n w f),
            (0x0A + b2n w, .fminu n w f), (0x0C + b2n w, .fmaxu n w f), (0x0E + b2n w, .fand n w f), (0x10 + b2n w, .farOr n w f)])
        ∧ ill 0x29 [(0, .push n f), (1, .pop n f), (2, .tpush n f), (3, .plevel n f)]
        ∧ ill 0x2A [(0, .fenceC n f), (2, .fenceI n f)] ∧ asks 0x01 0x2A 1 walks (.fenceM n f)
        ∧ ill 0x2C [(0, .exit n f), (1, .abort n f), (2, .brk n f), (3, .retire n f)] ∧ asks 0x01 0x2C 4 [.walk 64] (.obatch n f)
        ∧ ill 0x2D [(0, .pret n f), (1, .tlbld n f), (2, .tlbinv n f), (4, .frec n f)] ∧ asks 0x01 0x2D 3 walks (.walk n f))
      ∧ (f.rs2 ≠ 0 →
        ill 0x00 [(0x18, .clz n f), (0x19, .ctz n f), (0x1A, .popc n f), (0x1B, .bswap n f)] ∧ ill 0x29 [(1, .pop n f), (3, .plevel n f)]
        ∧ ill 0x2C [(0, .exit n f), (1, .abort n f), (2, .brk n f)] ∧ asks 0x01 0x2C 4 [.walk 64] (.obatch n f)
        ∧ ill 0x2D [(0, .pret n f), (4, .frec n f)])
      ∧ (f.rs1 ≠ 0 → ill 0x2C [(2, .brk n f)] ∧ ill 0x2D [(0, .pret n f)])
      ∧ (f.rd ≠ 0 → ill 0x29 [(0, .push n f)] ∧ ill 0x2A [(0, .fenceC n f), (2, .fenceI n f)] ∧ asks 0x01 0x2A 1 walks (.fenceM n f)
        ∧ ill 0x2C [(0, .exit n f), (1, .abort n f), (2, .brk n f), (3, .retire n f)]
        ∧ ill 0x2D [(0, .pret n f), (2, .tlbinv n f), (4, .frec n f)])
      ∧ (∀ g : IF, 256 ≤ g.imm.toNat → exec (.shi n g) s = .next ((s.trap n 0x01
          (BitVec.ofNat 64 (0x07 + g.rd.toNat * 2 ^ 6 + g.rs1.toNat * 2 ^ 11 + g.imm.toNat * 2 ^ 16))).stepDone n))
      ∧ (s.executes8 n → ∀ (u : BitVec 5) (g : CF), (6 < u.toNat ∨ g.rs2 ≠ 0 ∨ g.imm ≠ 0) →
        let unit := fun (cmd : Nat) => BitVec.ofNat 64 (0x3F + g.rd.toNat * 2 ^ 6 + g.rs1.toNat * 2 ^ 11 + g.rs2.toNat * 2 ^ 16 + u.toNat * 2 ^ 21
          + cmd * 2 ^ 26)
        exec (.wait n u g) s = .next ((s.trap n 0x01 (unit 0x3F)).stepDone n) ∧ exec (.test n u g) s = .next ((s.trap n 0x01 (unit 0x3E)).stepDone n)
        ∧ exec (.drain n u g) s = .next ((s.trap n 0x01 (unit 0x3D)).stepDone n))
      ∧ ((s.ppLeg n).isSome = true → f.rs3 = 0 →
        traps 0x02 0x2D [(1, .tlbld n f)] ∧ asks 0x02 0x2D 3 walks (.walk n f)
        ∧ (f.rd = 0 → traps 0x02 0x2D [(2, .tlbinv n f)] ∧ (f.rs2 = 0 → traps 0x02 0x2D [(4, .frec n f)]))))
  ∧ (∀ (n : Nat) (f : VF) (s : State), s.executes n →
      let word := fun (maj fn : Nat) =>
        BitVec.ofNat 64 (maj + f.vd.toNat * 2 ^ 6 + f.vs1.toNat * 2 ^ 11 + f.vs2.toNat * 2 ^ 16 + f.ms.toNat * 2 ^ 21 + (if f.men then 2 ^ 24 else 0)
          + (if f.s then 2 ^ 25 else 0) + fn * 2 ^ 26 + (if f.x then 2 ^ 31 else 0))
      let ill := fun (maj : Nat) (l : List (Nat × Instr)) => ∀ x ∈ l, exec x.2 s = .next ((s.trap n 0x01 (word maj x.1)).stepDone n)
      (f.s = true ∨ f.x = true →
        ill 0x36 [(0x10, .vcompress n f), (0x11, .vexpand n f), (0x12, .vextract n f), (0x13, .vinsert n f), (0x00, .vrsum n f)]
        ∧ ill 0x37 [(0x00, .mlogic n .and f), (0x01, .mlogic n .or f), (0x02, .mlogic n .xor f), (0x03, .mlogic n .andn f), (0x04, .mnot n f),
            (0x05, .mpopc n f), (0x06, .mfirst n f), (0x10, .vrd n f), (0x11, .vwr n f), (0x12, .vcfgr n f)])
      ∧ (f.men = true ∨ f.ms ≠ 0 →
        ill 0x36 [(0x12, .vextract n f), (0x13, .vinsert n f)]
        ∧ ill 0x37 [(0x10, .vrd n f), (0x11, .vwr n f), (0x12, .vcfgr n f)])
      ∧ (4 ≤ f.vs1.toNat → ill 0x37 [(0x10, .vrd n f), (0x11, .vwr n f)])
      ∧ (∀ g : IF, 128 ≤ g.imm.toNat → exec (.vcfgi n g) s = .next ((s.trap n 0x01
          (BitVec.ofNat 64 (0x30 + g.rd.toNat * 2 ^ 6 + g.rs1.toNat * 2 ^ 11 + g.imm.toNat * 2 ^ 16))).stepDone n)))

end Statements
end

