-- ==== Sys2Proof/Laws/State.lean ====
section
/-!
SUPPORT. What the updates of the state leave alone: one law per field per update, and a read after a write of a numbered part.
-/
namespace Sys2Proof.Machine

open Sys2Proof

/-! ### Tables: a read after a write -/

@[simp] theorem tget?_tput_same {α : Type} (t : Table α) (n : Nat) (a : α) : tget? (tput t n a) n = some a := by
  induction t with
  | nil => simp [tput, tget?]
  | cons e t ih =>
    obtain ⟨k, v⟩ := e
    simp only [tput]
    split
    · simp [tget?]
    · split
      · simp [tget?]
      · rename_i h
        have : ¬ k = n := fun q => h q.symm
        simp [tget?, this, ih]

theorem tget?_tput_other {α : Type} (t : Table α) {n m : Nat} (a : α) (h : m ≠ n) : tget? (tput t n a) m = tget? t m := by
  induction t with
  | nil => simp [tput, tget?, Ne.symm h]
  | cons e t ih =>
    obtain ⟨k, v⟩ := e
    simp only [tput]
    split
    · simp [tget?, Ne.symm h]
    · split
      · rename_i q
        subst q
        simp [tget?, Ne.symm h]
      · simp [tget?, ih]

@[simp] theorem tgetD_tput_same {α : Type} (t : Table α) (n : Nat) (a d : α) : tgetD (tput t n a) n d = a := by
  simp [tgetD]

theorem tgetD_tput_other {α : Type} (t : Table α) {n m : Nat} (a d : α) (h : m ≠ n) :
    tgetD (tput t n a) m d = tgetD t m d := by
  simp [tgetD, tget?_tput_other t a h]

/-! ### Numbered parts: a read after a write -/

@[simp] theorem State.pp_setPp (s : State) (n : Nat) (k : Pp) : (s.setPp n k).pp n = k := by
  simp [State.pp, State.setPp]
theorem State.pp_setPp_other (s : State) {n m : Nat} (k : Pp) (h : m ≠ n) :
    (s.setPp n k).pp m = s.pp m := by
  simp [State.pp, State.setPp, tgetD_tput_other _ _ _ h]
@[simp] theorem State.cl_setCl (s : State) (n : Nat) (k : Cluster) : (s.setCl n k).cl n = k := by
  simp [State.cl, State.setCl]
theorem State.cl_setCl_other (s : State) {n m : Nat} (k : Cluster) (h : m ≠ n) :
    (s.setCl n k).cl m = s.cl m := by
  simp [State.cl, State.setCl, tgetD_tput_other _ _ _ h]
@[simp] theorem State.leg_setLeg (s : State) (n : Nat) (k : Leg) : (s.setLeg n k).leg? n = some k := by
  simp [State.leg?, State.setLeg]
theorem State.leg_setLeg_other (s : State) {n m : Nat} (k : Leg) (h : m ≠ n) :
    (s.setLeg n k).leg? m = s.leg? m := by
  simp [State.leg?, State.setLeg, tget?_tput_other _ _ h]
@[simp] theorem State.part_setPart (s : State) (n : Nat) (k : Part) : (s.setPart n k).part n = k := by
  simp [State.part, State.setPart]
theorem State.part_setPart_other (s : State) {n m : Nat} (k : Part) (h : m ≠ n) :
    (s.setPart n k).part m = s.part m := by
  simp [State.part, State.setPart, tgetD_tput_other _ _ _ h]
@[simp] theorem State.sq_setSq (s : State) (n : Nat) (k : Queue) : (s.setSq n k).sq n = k := by
  simp [State.sq, State.setSq]
theorem State.sq_setSq_other (s : State) {n m : Nat} (k : Queue) (h : m ≠ n) :
    (s.setSq n k).sq m = s.sq m := by
  simp [State.sq, State.setSq, tgetD_tput_other _ _ _ h]
@[simp] theorem State.cq_setCq (s : State) (n : Nat) (k : Queue) : (s.setCq n k).cq n = k := by
  simp [State.cq, State.setCq]
theorem State.cq_setCq_other (s : State) {n m : Nat} (k : Queue) (h : m ≠ n) :
    (s.setCq n k).cq m = s.cq m := by
  simp [State.cq, State.setCq, tgetD_tput_other _ _ _ h]
@[simp] theorem State.hp_setHp (s : State) (n : Nat) (k : HostPort) : (s.setHp n k).hp n = k := by
  simp [State.hp, State.setHp]
theorem State.hp_setHp_other (s : State) {n m : Nat} (k : HostPort) (h : m ≠ n) :
    (s.setHp n k).hp m = s.hp m := by
  simp [State.hp, State.setHp, tgetD_tput_other _ _ _ h]
@[simp] theorem State.dc_setDc (s : State) (n : Nat) (k : Dc) : (s.setDc n k).dc n = k := by
  simp [State.dc, State.setDc]
theorem State.dc_setDc_other (s : State) {n m : Nat} (k : Dc) (h : m ≠ n) :
    (s.setDc n k).dc m = s.dc m := by
  simp [State.dc, State.setDc, tgetD_tput_other _ _ _ h]
@[simp] theorem State.drive_setDrive (s : State) (n : Nat) (k : Drive) : (s.setDrive n k).drive n = k := by
  simp [State.drive, State.setDrive]
theorem State.drive_setDrive_other (s : State) {n m : Nat} (k : Drive) (h : m ≠ n) :
    (s.setDrive n k).drive m = s.drive m := by
  simp [State.drive, State.setDrive, tgetD_tput_other _ _ _ h]
@[simp] theorem State.grant_setGrant (s : State) (n : Nat) (k : Grant) : (s.setGrant n k).grant n = k := by
  simp [State.grant, State.setGrant]
theorem State.grant_setGrant_other (s : State) {n m : Nat} (k : Grant) (h : m ≠ n) :
    (s.setGrant n k).grant m = s.grant m := by
  simp [State.grant, State.setGrant, tgetD_tput_other _ _ _ h]
@[simp] theorem State.link_setLink (s : State) (n : Nat) (k : Link) : (s.setLink n k).link n = k := by
  simp [State.link, State.setLink]
theorem State.link_setLink_other (s : State) {n m : Nat} (k : Link) (h : m ≠ n) :
    (s.setLink n k).link m = s.link m := by
  simp [State.link, State.setLink, tgetD_tput_other _ _ _ h]
@[simp] theorem State.du_setDu (s : State) (n : Nat) (k : DuUnit) : (s.setDu n k).du n = k := by
  simp [State.du, State.setDu]
theorem State.du_setDu_other (s : State) {n m : Nat} (k : DuUnit) (h : m ≠ n) :
    (s.setDu n k).du m = s.du m := by
  simp [State.du, State.setDu, tgetD_tput_other _ _ _ h]
@[simp] theorem State.asaSet_setAsaSet (s : State) (n : Nat) (k : AsaSet) : (s.setAsaSet n k).asaSet n = k := by
  simp [State.asaSet, State.setAsaSet]
theorem State.asaSet_setAsaSet_other (s : State) {n m : Nat} (k : AsaSet) (h : m ≠ n) :
    (s.setAsaSet n k).asaSet m = s.asaSet m := by
  simp [State.asaSet, State.setAsaSet, tgetD_tput_other _ _ _ h]

/-! ### What each update leaves alone -/

@[simp] theorem State.setPp_pending (s : State) (n : Nat) (k : Pp) : (s.setPp n k).pending = s.pending := rfl
@[simp] theorem State.setPp_freeSeq (s : State) (n : Nat) (k : Pp) : (s.setPp n k).freeSeq = s.freeSeq := rfl
@[simp] theorem State.setPp_mem (s : State) (n : Nat) (k : Pp) : (s.setPp n k).mem = s.mem := rfl
@[simp] theorem State.setPp_bad (s : State) (n : Nat) (k : Pp) : (s.setPp n k).bad = s.bad := rfl
@[simp] theorem State.setPp_hostBad (s : State) (n : Nat) (k : Pp) : (s.setPp n k).hostBad = s.hostBad := rfl
@[simp] theorem State.setPp_hostWant (s : State) (n : Nat) (k : Pp) : (s.setPp n k).hostWant = s.hostWant := rfl
@[simp] theorem State.setPp_hostGot (s : State) (n : Nat) (k : Pp) : (s.setPp n k).hostGot = s.hostGot := rfl
@[simp] theorem State.setPp_hostMiss (s : State) (n : Nat) (k : Pp) : (s.setPp n k).hostMiss = s.hostMiss := rfl
@[simp] theorem State.setPp_regs (s : State) (n : Nat) (k : Pp) : (s.setPp n k).regs = s.regs := rfl
@[simp] theorem State.setPp_latches (s : State) (n : Nat) (k : Pp) : (s.setPp n k).latches = s.latches := rfl
@[simp] theorem State.setPp_stalls (s : State) (n : Nat) (k : Pp) : (s.setPp n k).stalls = s.stalls := rfl
@[simp] theorem State.setPp_parity (s : State) (n : Nat) (k : Pp) : (s.setPp n k).parity = s.parity := rfl
@[simp] theorem State.setPp_parityLive (s : State) (n : Nat) (k : Pp) : (s.setPp n k).parityLive = s.parityLive := rfl
@[simp] theorem State.setPp_regErr (s : State) (n : Nat) (k : Pp) : (s.setPp n k).regErr = s.regErr := rfl
@[simp] theorem State.setPp_legs (s : State) (n : Nat) (k : Pp) : (s.setPp n k).legs = s.legs := rfl
@[simp] theorem State.setPp_nextLeg (s : State) (n : Nat) (k : Pp) : (s.setPp n k).nextLeg = s.nextLeg := rfl
@[simp] theorem State.setPp_order (s : State) (n : Nat) (k : Pp) : (s.setPp n k).order = s.order := rfl
@[simp] theorem State.setPp_cls (s : State) (n : Nat) (k : Pp) : (s.setPp n k).cls = s.cls := rfl
@[simp] theorem State.setPp_ioWalk (s : State) (n : Nat) (k : Pp) : (s.setPp n k).ioWalk = s.ioWalk := rfl
@[simp] theorem State.setPp_ioTlb (s : State) (n : Nat) (k : Pp) : (s.setPp n k).ioTlb = s.ioTlb := rfl
@[simp] theorem State.setPp_stu (s : State) (n : Nat) (k : Pp) : (s.setPp n k).stu = s.stu := rfl
@[simp] theorem State.setPp_stuWalk (s : State) (n : Nat) (k : Pp) : (s.setPp n k).stuWalk = s.stuWalk := rfl
@[simp] theorem State.setPp_xinvDone (s : State) (n : Nat) (k : Pp) : (s.setPp n k).xinvDone = s.xinvDone := rfl
@[simp] theorem State.setPp_fc (s : State) (n : Nat) (k : Pp) : (s.setPp n k).fc = s.fc := rfl
@[simp] theorem State.setPp_fcClose (s : State) (n : Nat) (k : Pp) : (s.setPp n k).fcClose = s.fcClose := rfl
@[simp] theorem State.setPp_schedTick (s : State) (n : Nat) (k : Pp) : (s.setPp n k).schedTick = s.schedTick := rfl
@[simp] theorem State.setPp_sqs (s : State) (n : Nat) (k : Pp) : (s.setPp n k).sqs = s.sqs := rfl
@[simp] theorem State.setPp_cqs (s : State) (n : Nat) (k : Pp) : (s.setPp n k).cqs = s.cqs := rfl
@[simp] theorem State.setPp_admin (s : State) (n : Nat) (k : Pp) : (s.setPp n k).admin = s.admin := rfl
@[simp] theorem State.setPp_parts (s : State) (n : Nat) (k : Pp) : (s.setPp n k).parts = s.parts := rfl
@[simp] theorem State.setPp_quenchDone (s : State) (n : Nat) (k : Pp) : (s.setPp n k).quenchDone = s.quenchDone := rfl
@[simp] theorem State.setPp_quenchWait (s : State) (n : Nat) (k : Pp) : (s.setPp n k).quenchWait = s.quenchWait := rfl
@[simp] theorem State.setPp_copies (s : State) (n : Nat) (k : Pp) : (s.setPp n k).copies = s.copies := rfl
@[simp] theorem State.setPp_err (s : State) (n : Nat) (k : Pp) : (s.setPp n k).err = s.err := rfl
@[simp] theorem State.setPp_evtMap (s : State) (n : Nat) (k : Pp) : (s.setPp n k).evtMap = s.evtMap := rfl
@[simp] theorem State.setPp_evtPend (s : State) (n : Nat) (k : Pp) : (s.setPp n k).evtPend = s.evtPend := rfl
@[simp] theorem State.setPp_asaCfg (s : State) (n : Nat) (k : Pp) : (s.setPp n k).asaCfg = s.asaCfg := rfl
@[simp] theorem State.setPp_asa (s : State) (n : Nat) (k : Pp) : (s.setPp n k).asa = s.asa := rfl
@[simp] theorem State.setPp_asaSets (s : State) (n : Nat) (k : Pp) : (s.setPp n k).asaSets = s.asaSets := rfl
@[simp] theorem State.setPp_cursors (s : State) (n : Nat) (k : Pp) : (s.setPp n k).cursors = s.cursors := rfl
@[simp] theorem State.setPp_asaErr (s : State) (n : Nat) (k : Pp) : (s.setPp n k).asaErr = s.asaErr := rfl
@[simp] theorem State.setPp_duQueue (s : State) (n : Nat) (k : Pp) : (s.setPp n k).duQueue = s.duQueue := rfl
@[simp] theorem State.setPp_dus (s : State) (n : Nat) (k : Pp) : (s.setPp n k).dus = s.dus := rfl
@[simp] theorem State.setPp_duPreempts (s : State) (n : Nat) (k : Pp) : (s.setPp n k).duPreempts = s.duPreempts := rfl
@[simp] theorem State.setPp_dcs (s : State) (n : Nat) (k : Pp) : (s.setPp n k).dcs = s.dcs := rfl
@[simp] theorem State.setPp_ddrSet (s : State) (n : Nat) (k : Pp) : (s.setPp n k).ddrSet = s.ddrSet := rfl
@[simp] theorem State.setPp_ddrGib (s : State) (n : Nat) (k : Pp) : (s.setPp n k).ddrGib = s.ddrGib := rfl
@[simp] theorem State.setPp_hps (s : State) (n : Nat) (k : Pp) : (s.setPp n k).hps = s.hps := rfl
@[simp] theorem State.setPp_drives (s : State) (n : Nat) (k : Pp) : (s.setPp n k).drives = s.drives := rfl
@[simp] theorem State.setPp_grants (s : State) (n : Nat) (k : Pp) : (s.setPp n k).grants = s.grants := rfl
@[simp] theorem State.setPp_reqs (s : State) (n : Nat) (k : Pp) : (s.setPp n k).reqs = s.reqs := rfl
@[simp] theorem State.setPp_cmds (s : State) (n : Nat) (k : Pp) : (s.setPp n k).cmds = s.cmds := rfl
@[simp] theorem State.setPp_nextReq (s : State) (n : Nat) (k : Pp) : (s.setPp n k).nextReq = s.nextReq := rfl
@[simp] theorem State.setPp_chain (s : State) (n : Nat) (k : Pp) : (s.setPp n k).chain = s.chain := rfl
@[simp] theorem State.setPp_pm (s : State) (n : Nat) (k : Pp) : (s.setPp n k).pm = s.pm := rfl
@[simp] theorem State.setPp_ks (s : State) (n : Nat) (k : Pp) : (s.setPp n k).ks = s.ks := rfl
@[simp] theorem State.setPp_dbg (s : State) (n : Nat) (k : Pp) : (s.setPp n k).dbg = s.dbg := rfl
@[simp] theorem State.setPp_out (s : State) (n : Nat) (k : Pp) : (s.setPp n k).out = s.out := rfl
@[simp] theorem State.setCl_pending (s : State) (n : Nat) (k : Cluster) : (s.setCl n k).pending = s.pending := rfl
@[simp] theorem State.setCl_freeSeq (s : State) (n : Nat) (k : Cluster) : (s.setCl n k).freeSeq = s.freeSeq := rfl
@[simp] theorem State.setCl_mem (s : State) (n : Nat) (k : Cluster) : (s.setCl n k).mem = s.mem := rfl
@[simp] theorem State.setCl_bad (s : State) (n : Nat) (k : Cluster) : (s.setCl n k).bad = s.bad := rfl
@[simp] theorem State.setCl_hostBad (s : State) (n : Nat) (k : Cluster) : (s.setCl n k).hostBad = s.hostBad := rfl
@[simp] theorem State.setCl_hostWant (s : State) (n : Nat) (k : Cluster) : (s.setCl n k).hostWant = s.hostWant := rfl
@[simp] theorem State.setCl_hostGot (s : State) (n : Nat) (k : Cluster) : (s.setCl n k).hostGot = s.hostGot := rfl
@[simp] theorem State.setCl_hostMiss (s : State) (n : Nat) (k : Cluster) : (s.setCl n k).hostMiss = s.hostMiss := rfl
@[simp] theorem State.setCl_regs (s : State) (n : Nat) (k : Cluster) : (s.setCl n k).regs = s.regs := rfl
@[simp] theorem State.setCl_latches (s : State) (n : Nat) (k : Cluster) : (s.setCl n k).latches = s.latches := rfl
@[simp] theorem State.setCl_stalls (s : State) (n : Nat) (k : Cluster) : (s.setCl n k).stalls = s.stalls := rfl
@[simp] theorem State.setCl_parity (s : State) (n : Nat) (k : Cluster) : (s.setCl n k).parity = s.parity := rfl
@[simp] theorem State.setCl_parityLive (s : State) (n : Nat) (k : Cluster) : (s.setCl n k).parityLive = s.parityLive := rfl
@[simp] theorem State.setCl_regErr (s : State) (n : Nat) (k : Cluster) : (s.setCl n k).regErr = s.regErr := rfl
@[simp] theorem State.setCl_pps (s : State) (n : Nat) (k : Cluster) : (s.setCl n k).pps = s.pps := rfl
@[simp] theorem State.setCl_legs (s : State) (n : Nat) (k : Cluster) : (s.setCl n k).legs = s.legs := rfl
@[simp] theorem State.setCl_nextLeg (s : State) (n : Nat) (k : Cluster) : (s.setCl n k).nextLeg = s.nextLeg := rfl
@[simp] theorem State.setCl_order (s : State) (n : Nat) (k : Cluster) : (s.setCl n k).order = s.order := rfl
@[simp] theorem State.setCl_ioWalk (s : State) (n : Nat) (k : Cluster) : (s.setCl n k).ioWalk = s.ioWalk := rfl
@[simp] theorem State.setCl_ioTlb (s : State) (n : Nat) (k : Cluster) : (s.setCl n k).ioTlb = s.ioTlb := rfl
@[simp] theorem State.setCl_stu (s : State) (n : Nat) (k : Cluster) : (s.setCl n k).stu = s.stu := rfl
@[simp] theorem State.setCl_stuWalk (s : State) (n : Nat) (k : Cluster) : (s.setCl n k).stuWalk = s.stuWalk := rfl
@[simp] theorem State.setCl_xinvDone (s : State) (n : Nat) (k : Cluster) : (s.setCl n k).xinvDone = s.xinvDone := rfl
@[simp] theorem State.setCl_fc (s : State) (n : Nat) (k : Cluster) : (s.setCl n k).fc = s.fc := rfl
@[simp] theorem State.setCl_fcClose (s : State) (n : Nat) (k : Cluster) : (s.setCl n k).fcClose = s.fcClose := rfl
@[simp] theorem State.setCl_schedTick (s : State) (n : Nat) (k : Cluster) : (s.setCl n k).schedTick = s.schedTick := rfl
@[simp] theorem State.setCl_sqs (s : State) (n : Nat) (k : Cluster) : (s.setCl n k).sqs = s.sqs := rfl
@[simp] theorem State.setCl_cqs (s : State) (n : Nat) (k : Cluster) : (s.setCl n k).cqs = s.cqs := rfl
@[simp] theorem State.setCl_admin (s : State) (n : Nat) (k : Cluster) : (s.setCl n k).admin = s.admin := rfl
@[simp] theorem State.setCl_parts (s : State) (n : Nat) (k : Cluster) : (s.setCl n k).parts = s.parts := rfl
@[simp] theorem State.setCl_quenchDone (s : State) (n : Nat) (k : Cluster) : (s.setCl n k).quenchDone = s.quenchDone := rfl
@[simp] theorem State.setCl_quenchWait (s : State) (n : Nat) (k : Cluster) : (s.setCl n k).quenchWait = s.quenchWait := rfl
@[simp] theorem State.setCl_copies (s : State) (n : Nat) (k : Cluster) : (s.setCl n k).copies = s.copies := rfl
@[simp] theorem State.setCl_err (s : State) (n : Nat) (k : Cluster) : (s.setCl n k).err = s.err := rfl
@[simp] theorem State.setCl_evtMap (s : State) (n : Nat) (k : Cluster) : (s.setCl n k).evtMap = s.evtMap := rfl
@[simp] theorem State.setCl_evtPend (s : State) (n : Nat) (k : Cluster) : (s.setCl n k).evtPend = s.evtPend := rfl
@[simp] theorem State.setCl_asaCfg (s : State) (n : Nat) (k : Cluster) : (s.setCl n k).asaCfg = s.asaCfg := rfl
@[simp] theorem State.setCl_asa (s : State) (n : Nat) (k : Cluster) : (s.setCl n k).asa = s.asa := rfl
@[simp] theorem State.setCl_asaSets (s : State) (n : Nat) (k : Cluster) : (s.setCl n k).asaSets = s.asaSets := rfl
@[simp] theorem State.setCl_cursors (s : State) (n : Nat) (k : Cluster) : (s.setCl n k).cursors = s.cursors := rfl
@[simp] theorem State.setCl_asaErr (s : State) (n : Nat) (k : Cluster) : (s.setCl n k).asaErr = s.asaErr := rfl
@[simp] theorem State.setCl_duQueue (s : State) (n : Nat) (k : Cluster) : (s.setCl n k).duQueue = s.duQueue := rfl
@[simp] theorem State.setCl_dus (s : State) (n : Nat) (k : Cluster) : (s.setCl n k).dus = s.dus := rfl
@[simp] theorem State.setCl_duPreempts (s : State) (n : Nat) (k : Cluster) : (s.setCl n k).duPreempts = s.duPreempts := rfl
@[simp] theorem State.setCl_dcs (s : State) (n : Nat) (k : Cluster) : (s.setCl n k).dcs = s.dcs := rfl
@[simp] theorem State.setCl_ddrSet (s : State) (n : Nat) (k : Cluster) : (s.setCl n k).ddrSet = s.ddrSet := rfl
@[simp] theorem State.setCl_ddrGib (s : State) (n : Nat) (k : Cluster) : (s.setCl n k).ddrGib = s.ddrGib := rfl
@[simp] theorem State.setCl_hps (s : State) (n : Nat) (k : Cluster) : (s.setCl n k).hps = s.hps := rfl
@[simp] theorem State.setCl_drives (s : State) (n : Nat) (k : Cluster) : (s.setCl n k).drives = s.drives := rfl
@[simp] theorem State.setCl_grants (s : State) (n : Nat) (k : Cluster) : (s.setCl n k).grants = s.grants := rfl
@[simp] theorem State.setCl_reqs (s : State) (n : Nat) (k : Cluster) : (s.setCl n k).reqs = s.reqs := rfl
@[simp] theorem State.setCl_cmds (s : State) (n : Nat) (k : Cluster) : (s.setCl n k).cmds = s.cmds := rfl
@[simp] theorem State.setCl_nextReq (s : State) (n : Nat) (k : Cluster) : (s.setCl n k).nextReq = s.nextReq := rfl
@[simp] theorem State.setCl_chain (s : State) (n : Nat) (k : Cluster) : (s.setCl n k).chain = s.chain := rfl
@[simp] theorem State.setCl_pm (s : State) (n : Nat) (k : Cluster) : (s.setCl n k).pm = s.pm := rfl
@[simp] theorem State.setCl_ks (s : State) (n : Nat) (k : Cluster) : (s.setCl n k).ks = s.ks := rfl
@[simp] theorem State.setCl_dbg (s : State) (n : Nat) (k : Cluster) : (s.setCl n k).dbg = s.dbg := rfl
@[simp] theorem State.setCl_out (s : State) (n : Nat) (k : Cluster) : (s.setCl n k).out = s.out := rfl
@[simp] theorem State.setLeg_pending (s : State) (n : Nat) (k : Leg) : (s.setLeg n k).pending = s.pending := rfl
@[simp] theorem State.setLeg_freeSeq (s : State) (n : Nat) (k : Leg) : (s.setLeg n k).freeSeq = s.freeSeq := rfl
@[simp] theorem State.setLeg_mem (s : State) (n : Nat) (k : Leg) : (s.setLeg n k).mem = s.mem := rfl
@[simp] theorem State.setLeg_bad (s : State) (n : Nat) (k : Leg) : (s.setLeg n k).bad = s.bad := rfl
@[simp] theorem State.setLeg_hostBad (s : State) (n : Nat) (k : Leg) : (s.setLeg n k).hostBad = s.hostBad := rfl
@[simp] theorem State.setLeg_hostWant (s : State) (n : Nat) (k : Leg) : (s.setLeg n k).hostWant = s.hostWant := rfl
@[simp] theorem State.setLeg_hostGot (s : State) (n : Nat) (k : Leg) : (s.setLeg n k).hostGot = s.hostGot := rfl
@[simp] theorem State.setLeg_hostMiss (s : State) (n : Nat) (k : Leg) : (s.setLeg n k).hostMiss = s.hostMiss := rfl
@[simp] theorem State.setLeg_regs (s : State) (n : Nat) (k : Leg) : (s.setLeg n k).regs = s.regs := rfl
@[simp] theorem State.setLeg_latches (s : State) (n : Nat) (k : Leg) : (s.setLeg n k).latches = s.latches := rfl
@[simp] theorem State.setLeg_stalls (s : State) (n : Nat) (k : Leg) : (s.setLeg n k).stalls = s.stalls := rfl
@[simp] theorem State.setLeg_parity (s : State) (n : Nat) (k : Leg) : (s.setLeg n k).parity = s.parity := rfl
@[simp] theorem State.setLeg_parityLive (s : State) (n : Nat) (k : Leg) : (s.setLeg n k).parityLive = s.parityLive := rfl
@[simp] theorem State.setLeg_regErr (s : State) (n : Nat) (k : Leg) : (s.setLeg n k).regErr = s.regErr := rfl
@[simp] theorem State.setLeg_pps (s : State) (n : Nat) (k : Leg) : (s.setLeg n k).pps = s.pps := rfl
@[simp] theorem State.setLeg_nextLeg (s : State) (n : Nat) (k : Leg) : (s.setLeg n k).nextLeg = s.nextLeg := rfl
@[simp] theorem State.setLeg_order (s : State) (n : Nat) (k : Leg) : (s.setLeg n k).order = s.order := rfl
@[simp] theorem State.setLeg_cls (s : State) (n : Nat) (k : Leg) : (s.setLeg n k).cls = s.cls := rfl
@[simp] theorem State.setLeg_ioWalk (s : State) (n : Nat) (k : Leg) : (s.setLeg n k).ioWalk = s.ioWalk := rfl
@[simp] theorem State.setLeg_ioTlb (s : State) (n : Nat) (k : Leg) : (s.setLeg n k).ioTlb = s.ioTlb := rfl
@[simp] theorem State.setLeg_stu (s : State) (n : Nat) (k : Leg) : (s.setLeg n k).stu = s.stu := rfl
@[simp] theorem State.setLeg_stuWalk (s : State) (n : Nat) (k : Leg) : (s.setLeg n k).stuWalk = s.stuWalk := rfl
@[simp] theorem State.setLeg_xinvDone (s : State) (n : Nat) (k : Leg) : (s.setLeg n k).xinvDone = s.xinvDone := rfl
@[simp] theorem State.setLeg_fc (s : State) (n : Nat) (k : Leg) : (s.setLeg n k).fc = s.fc := rfl
@[simp] theorem State.setLeg_fcClose (s : State) (n : Nat) (k : Leg) : (s.setLeg n k).fcClose = s.fcClose := rfl
@[simp] theorem State.setLeg_schedTick (s : State) (n : Nat) (k : Leg) : (s.setLeg n k).schedTick = s.schedTick := rfl
@[simp] theorem State.setLeg_sqs (s : State) (n : Nat) (k : Leg) : (s.setLeg n k).sqs = s.sqs := rfl
@[simp] theorem State.setLeg_cqs (s : State) (n : Nat) (k : Leg) : (s.setLeg n k).cqs = s.cqs := rfl
@[simp] theorem State.setLeg_admin (s : State) (n : Nat) (k : Leg) : (s.setLeg n k).admin = s.admin := rfl
@[simp] theorem State.setLeg_parts (s : State) (n : Nat) (k : Leg) : (s.setLeg n k).parts = s.parts := rfl
@[simp] theorem State.setLeg_quenchDone (s : State) (n : Nat) (k : Leg) : (s.setLeg n k).quenchDone = s.quenchDone := rfl
@[simp] theorem State.setLeg_quenchWait (s : State) (n : Nat) (k : Leg) : (s.setLeg n k).quenchWait = s.quenchWait := rfl
@[simp] theorem State.setLeg_copies (s : State) (n : Nat) (k : Leg) : (s.setLeg n k).copies = s.copies := rfl
@[simp] theorem State.setLeg_err (s : State) (n : Nat) (k : Leg) : (s.setLeg n k).err = s.err := rfl
@[simp] theorem State.setLeg_evtMap (s : State) (n : Nat) (k : Leg) : (s.setLeg n k).evtMap = s.evtMap := rfl
@[simp] theorem State.setLeg_evtPend (s : State) (n : Nat) (k : Leg) : (s.setLeg n k).evtPend = s.evtPend := rfl
@[simp] theorem State.setLeg_asaCfg (s : State) (n : Nat) (k : Leg) : (s.setLeg n k).asaCfg = s.asaCfg := rfl
@[simp] theorem State.setLeg_asa (s : State) (n : Nat) (k : Leg) : (s.setLeg n k).asa = s.asa := rfl
@[simp] theorem State.setLeg_asaSets (s : State) (n : Nat) (k : Leg) : (s.setLeg n k).asaSets = s.asaSets := rfl
@[simp] theorem State.setLeg_cursors (s : State) (n : Nat) (k : Leg) : (s.setLeg n k).cursors = s.cursors := rfl
@[simp] theorem State.setLeg_asaErr (s : State) (n : Nat) (k : Leg) : (s.setLeg n k).asaErr = s.asaErr := rfl
@[simp] theorem State.setLeg_duQueue (s : State) (n : Nat) (k : Leg) : (s.setLeg n k).duQueue = s.duQueue := rfl
@[simp] theorem State.setLeg_dus (s : State) (n : Nat) (k : Leg) : (s.setLeg n k).dus = s.dus := rfl
@[simp] theorem State.setLeg_duPreempts (s : State) (n : Nat) (k : Leg) : (s.setLeg n k).duPreempts = s.duPreempts := rfl
@[simp] theorem State.setLeg_dcs (s : State) (n : Nat) (k : Leg) : (s.setLeg n k).dcs = s.dcs := rfl
@[simp] theorem State.setLeg_ddrSet (s : State) (n : Nat) (k : Leg) : (s.setLeg n k).ddrSet = s.ddrSet := rfl
@[simp] theorem State.setLeg_ddrGib (s : State) (n : Nat) (k : Leg) : (s.setLeg n k).ddrGib = s.ddrGib := rfl
@[simp] theorem State.setLeg_hps (s : State) (n : Nat) (k : Leg) : (s.setLeg n k).hps = s.hps := rfl
@[simp] theorem State.setLeg_drives (s : State) (n : Nat) (k : Leg) : (s.setLeg n k).drives = s.drives := rfl
@[simp] theorem State.setLeg_grants (s : State) (n : Nat) (k : Leg) : (s.setLeg n k).grants = s.grants := rfl
@[simp] theorem State.setLeg_reqs (s : State) (n : Nat) (k : Leg) : (s.setLeg n k).reqs = s.reqs := rfl
@[simp] theorem State.setLeg_cmds (s : State) (n : Nat) (k : Leg) : (s.setLeg n k).cmds = s.cmds := rfl
@[simp] theorem State.setLeg_nextReq (s : State) (n : Nat) (k : Leg) : (s.setLeg n k).nextReq = s.nextReq := rfl
@[simp] theorem State.setLeg_chain (s : State) (n : Nat) (k : Leg) : (s.setLeg n k).chain = s.chain := rfl
@[simp] theorem State.setLeg_pm (s : State) (n : Nat) (k : Leg) : (s.setLeg n k).pm = s.pm := rfl
@[simp] theorem State.setLeg_ks (s : State) (n : Nat) (k : Leg) : (s.setLeg n k).ks = s.ks := rfl
@[simp] theorem State.setLeg_dbg (s : State) (n : Nat) (k : Leg) : (s.setLeg n k).dbg = s.dbg := rfl
@[simp] theorem State.setLeg_out (s : State) (n : Nat) (k : Leg) : (s.setLeg n k).out = s.out := rfl
@[simp] theorem State.setPart_pending (s : State) (n : Nat) (k : Part) : (s.setPart n k).pending = s.pending := rfl
@[simp] theorem State.setPart_freeSeq (s : State) (n : Nat) (k : Part) : (s.setPart n k).freeSeq = s.freeSeq := rfl
@[simp] theorem State.setPart_mem (s : State) (n : Nat) (k : Part) : (s.setPart n k).mem = s.mem := rfl
@[simp] theorem State.setPart_bad (s : State) (n : Nat) (k : Part) : (s.setPart n k).bad = s.bad := rfl
@[simp] theorem State.setPart_hostBad (s : State) (n : Nat) (k : Part) : (s.setPart n k).hostBad = s.hostBad := rfl
@[simp] theorem State.setPart_hostWant (s : State) (n : Nat) (k : Part) : (s.setPart n k).hostWant = s.hostWant := rfl
@[simp] theorem State.setPart_hostGot (s : State) (n : Nat) (k : Part) : (s.setPart n k).hostGot = s.hostGot := rfl
@[simp] theorem State.setPart_hostMiss (s : State) (n : Nat) (k : Part) : (s.setPart n k).hostMiss = s.hostMiss := rfl
@[simp] theorem State.setPart_regs (s : State) (n : Nat) (k : Part) : (s.setPart n k).regs = s.regs := rfl
@[simp] theorem State.setPart_latches (s : State) (n : Nat) (k : Part) : (s.setPart n k).latches = s.latches := rfl
@[simp] theorem State.setPart_stalls (s : State) (n : Nat) (k : Part) : (s.setPart n k).stalls = s.stalls := rfl
@[simp] theorem State.setPart_parity (s : State) (n : Nat) (k : Part) : (s.setPart n k).parity = s.parity := rfl
@[simp] theorem State.setPart_parityLive (s : State) (n : Nat) (k : Part) : (s.setPart n k).parityLive = s.parityLive := rfl
@[simp] theorem State.setPart_regErr (s : State) (n : Nat) (k : Part) : (s.setPart n k).regErr = s.regErr := rfl
@[simp] theorem State.setPart_pps (s : State) (n : Nat) (k : Part) : (s.setPart n k).pps = s.pps := rfl
@[simp] theorem State.setPart_legs (s : State) (n : Nat) (k : Part) : (s.setPart n k).legs = s.legs := rfl
@[simp] theorem State.setPart_nextLeg (s : State) (n : Nat) (k : Part) : (s.setPart n k).nextLeg = s.nextLeg := rfl
@[simp] theorem State.setPart_order (s : State) (n : Nat) (k : Part) : (s.setPart n k).order = s.order := rfl
@[simp] theorem State.setPart_cls (s : State) (n : Nat) (k : Part) : (s.setPart n k).cls = s.cls := rfl
@[simp] theorem State.setPart_ioWalk (s : State) (n : Nat) (k : Part) : (s.setPart n k).ioWalk = s.ioWalk := rfl
@[simp] theorem State.setPart_ioTlb (s : State) (n : Nat) (k : Part) : (s.setPart n k).ioTlb = s.ioTlb := rfl
@[simp] theorem State.setPart_stu (s : State) (n : Nat) (k : Part) : (s.setPart n k).stu = s.stu := rfl
@[simp] theorem State.setPart_stuWalk (s : State) (n : Nat) (k : Part) : (s.setPart n k).stuWalk = s.stuWalk := rfl
@[simp] theorem State.setPart_xinvDone (s : State) (n : Nat) (k : Part) : (s.setPart n k).xinvDone = s.xinvDone := rfl
@[simp] theorem State.setPart_fc (s : State) (n : Nat) (k : Part) : (s.setPart n k).fc = s.fc := rfl
@[simp] theorem State.setPart_fcClose (s : State) (n : Nat) (k : Part) : (s.setPart n k).fcClose = s.fcClose := rfl
@[simp] theorem State.setPart_schedTick (s : State) (n : Nat) (k : Part) : (s.setPart n k).schedTick = s.schedTick := rfl
@[simp] theorem State.setPart_sqs (s : State) (n : Nat) (k : Part) : (s.setPart n k).sqs = s.sqs := rfl
@[simp] theorem State.setPart_cqs (s : State) (n : Nat) (k : Part) : (s.setPart n k).cqs = s.cqs := rfl
@[simp] theorem State.setPart_admin (s : State) (n : Nat) (k : Part) : (s.setPart n k).admin = s.admin := rfl
@[simp] theorem State.setPart_quenchDone (s : State) (n : Nat) (k : Part) : (s.setPart n k).quenchDone = s.quenchDone := rfl
@[simp] theorem State.setPart_quenchWait (s : State) (n : Nat) (k : Part) : (s.setPart n k).quenchWait = s.quenchWait := rfl
@[simp] theorem State.setPart_copies (s : State) (n : Nat) (k : Part) : (s.setPart n k).copies = s.copies := rfl
@[simp] theorem State.setPart_err (s : State) (n : Nat) (k : Part) : (s.setPart n k).err = s.err := rfl
@[simp] theorem State.setPart_evtMap (s : State) (n : Nat) (k : Part) : (s.setPart n k).evtMap = s.evtMap := rfl
@[simp] theorem State.setPart_evtPend (s : State) (n : Nat) (k : Part) : (s.setPart n k).evtPend = s.evtPend := rfl
@[simp] theorem State.setPart_asaCfg (s : State) (n : Nat) (k : Part) : (s.setPart n k).asaCfg = s.asaCfg := rfl
@[simp] theorem State.setPart_asa (s : State) (n : Nat) (k : Part) : (s.setPart n k).asa = s.asa := rfl
@[simp] theorem State.setPart_asaSets (s : State) (n : Nat) (k : Part) : (s.setPart n k).asaSets = s.asaSets := rfl
@[simp] theorem State.setPart_cursors (s : State) (n : Nat) (k : Part) : (s.setPart n k).cursors = s.cursors := rfl
@[simp] theorem State.setPart_asaErr (s : State) (n : Nat) (k : Part) : (s.setPart n k).asaErr = s.asaErr := rfl
@[simp] theorem State.setPart_duQueue (s : State) (n : Nat) (k : Part) : (s.setPart n k).duQueue = s.duQueue := rfl
@[simp] theorem State.setPart_dus (s : State) (n : Nat) (k : Part) : (s.setPart n k).dus = s.dus := rfl
@[simp] theorem State.setPart_duPreempts (s : State) (n : Nat) (k : Part) : (s.setPart n k).duPreempts = s.duPreempts := rfl
@[simp] theorem State.setPart_dcs (s : State) (n : Nat) (k : Part) : (s.setPart n k).dcs = s.dcs := rfl
@[simp] theorem State.setPart_ddrSet (s : State) (n : Nat) (k : Part) : (s.setPart n k).ddrSet = s.ddrSet := rfl
@[simp] theorem State.setPart_ddrGib (s : State) (n : Nat) (k : Part) : (s.setPart n k).ddrGib = s.ddrGib := rfl
@[simp] theorem State.setPart_hps (s : State) (n : Nat) (k : Part) : (s.setPart n k).hps = s.hps := rfl
@[simp] theorem State.setPart_drives (s : State) (n : Nat) (k : Part) : (s.setPart n k).drives = s.drives := rfl
@[simp] theorem State.setPart_grants (s : State) (n : Nat) (k : Part) : (s.setPart n k).grants = s.grants := rfl
@[simp] theorem State.setPart_reqs (s : State) (n : Nat) (k : Part) : (s.setPart n k).reqs = s.reqs := rfl
@[simp] theorem State.setPart_cmds (s : State) (n : Nat) (k : Part) : (s.setPart n k).cmds = s.cmds := rfl
@[simp] theorem State.setPart_nextReq (s : State) (n : Nat) (k : Part) : (s.setPart n k).nextReq = s.nextReq := rfl
@[simp] theorem State.setPart_chain (s : State) (n : Nat) (k : Part) : (s.setPart n k).chain = s.chain := rfl
@[simp] theorem State.setPart_pm (s : State) (n : Nat) (k : Part) : (s.setPart n k).pm = s.pm := rfl
@[simp] theorem State.setPart_ks (s : State) (n : Nat) (k : Part) : (s.setPart n k).ks = s.ks := rfl
@[simp] theorem State.setPart_dbg (s : State) (n : Nat) (k : Part) : (s.setPart n k).dbg = s.dbg := rfl
@[simp] theorem State.setPart_out (s : State) (n : Nat) (k : Part) : (s.setPart n k).out = s.out := rfl
@[simp] theorem State.setSq_pending (s : State) (n : Nat) (k : Queue) : (s.setSq n k).pending = s.pending := rfl
@[simp] theorem State.setSq_freeSeq (s : State) (n : Nat) (k : Queue) : (s.setSq n k).freeSeq = s.freeSeq := rfl
@[simp] theorem State.setSq_mem (s : State) (n : Nat) (k : Queue) : (s.setSq n k).mem = s.mem := rfl
@[simp] theorem State.setSq_bad (s : State) (n : Nat) (k : Queue) : (s.setSq n k).bad = s.bad := rfl
@[simp] theorem State.setSq_hostBad (s : State) (n : Nat) (k : Queue) : (s.setSq n k).hostBad = s.hostBad := rfl
@[simp] theorem State.setSq_hostWant (s : State) (n : Nat) (k : Queue) : (s.setSq n k).hostWant = s.hostWant := rfl
@[simp] theorem State.setSq_hostGot (s : State) (n : Nat) (k : Queue) : (s.setSq n k).hostGot = s.hostGot := rfl
@[simp] theorem State.setSq_hostMiss (s : State) (n : Nat) (k : Queue) : (s.setSq n k).hostMiss = s.hostMiss := rfl
@[simp] theorem State.setSq_regs (s : State) (n : Nat) (k : Queue) : (s.setSq n k).regs = s.regs := rfl
@[simp] theorem State.setSq_latches (s : State) (n : Nat) (k : Queue) : (s.setSq n k).latches = s.latches := rfl
@[simp] theorem State.setSq_stalls (s : State) (n : Nat) (k : Queue) : (s.setSq n k).stalls = s.stalls := rfl
@[simp] theorem State.setSq_parity (s : State) (n : Nat) (k : Queue) : (s.setSq n k).parity = s.parity := rfl
@[simp] theorem State.setSq_parityLive (s : State) (n : Nat) (k : Queue) : (s.setSq n k).parityLive = s.parityLive := rfl
@[simp] theorem State.setSq_regErr (s : State) (n : Nat) (k : Queue) : (s.setSq n k).regErr = s.regErr := rfl
@[simp] theorem State.setSq_pps (s : State) (n : Nat) (k : Queue) : (s.setSq n k).pps = s.pps := rfl
@[simp] theorem State.setSq_legs (s : State) (n : Nat) (k : Queue) : (s.setSq n k).legs = s.legs := rfl
@[simp] theorem State.setSq_nextLeg (s : State) (n : Nat) (k : Queue) : (s.setSq n k).nextLeg = s.nextLeg := rfl
@[simp] theorem State.setSq_order (s : State) (n : Nat) (k : Queue) : (s.setSq n k).order = s.order := rfl
@[simp] theorem State.setSq_cls (s : State) (n : Nat) (k : Queue) : (s.setSq n k).cls = s.cls := rfl
@[simp] theorem State.setSq_ioWalk (s : State) (n : Nat) (k : Queue) : (s.setSq n k).ioWalk = s.ioWalk := rfl
@[simp] theorem State.setSq_ioTlb (s : State) (n : Nat) (k : Queue) : (s.setSq n k).ioTlb = s.ioTlb := rfl
@[simp] theorem State.setSq_stu (s : State) (n : Nat) (k : Queue) : (s.setSq n k).stu = s.stu := rfl
@[simp] theorem State.setSq_stuWalk (s : State) (n : Nat) (k : Queue) : (s.setSq n k).stuWalk = s.stuWalk := rfl
@[simp] theorem State.setSq_xinvDone (s : State) (n : Nat) (k : Queue) : (s.setSq n k).xinvDone = s.xinvDone := rfl
@[simp] theorem State.setSq_fc (s : State) (n : Nat) (k : Queue) : (s.setSq n k).fc = s.fc := rfl
@[simp] theorem State.setSq_fcClose (s : State) (n : Nat) (k : Queue) : (s.setSq n k).fcClose = s.fcClose := rfl
@[simp] theorem State.setSq_schedTick (s : State) (n : Nat) (k : Queue) : (s.setSq n k).schedTick = s.schedTick := rfl
@[simp] theorem State.setSq_cqs (s : State) (n : Nat) (k : Queue) : (s.setSq n k).cqs = s.cqs := rfl
@[simp] theorem State.setSq_admin (s : State) (n : Nat) (k : Queue) : (s.setSq n k).admin = s.admin := rfl
@[simp] theorem State.setSq_parts (s : State) (n : Nat) (k : Queue) : (s.setSq n k).parts = s.parts := rfl
@[simp] theorem State.setSq_quenchDone (s : State) (n : Nat) (k : Queue) : (s.setSq n k).quenchDone = s.quenchDone := rfl
@[simp] theorem State.setSq_quenchWait (s : State) (n : Nat) (k : Queue) : (s.setSq n k).quenchWait = s.quenchWait := rfl
@[simp] theorem State.setSq_copies (s : State) (n : Nat) (k : Queue) : (s.setSq n k).copies = s.copies := rfl
@[simp] theorem State.setSq_err (s : State) (n : Nat) (k : Queue) : (s.setSq n k).err = s.err := rfl
@[simp] theorem State.setSq_evtMap (s : State) (n : Nat) (k : Queue) : (s.setSq n k).evtMap = s.evtMap := rfl
@[simp] theorem State.setSq_evtPend (s : State) (n : Nat) (k : Queue) : (s.setSq n k).evtPend = s.evtPend := rfl
@[simp] theorem State.setSq_asaCfg (s : State) (n : Nat) (k : Queue) : (s.setSq n k).asaCfg = s.asaCfg := rfl
@[simp] theorem State.setSq_asa (s : State) (n : Nat) (k : Queue) : (s.setSq n k).asa = s.asa := rfl
@[simp] theorem State.setSq_asaSets (s : State) (n : Nat) (k : Queue) : (s.setSq n k).asaSets = s.asaSets := rfl
@[simp] theorem State.setSq_cursors (s : State) (n : Nat) (k : Queue) : (s.setSq n k).cursors = s.cursors := rfl
@[simp] theorem State.setSq_asaErr (s : State) (n : Nat) (k : Queue) : (s.setSq n k).asaErr = s.asaErr := rfl
@[simp] theorem State.setSq_duQueue (s : State) (n : Nat) (k : Queue) : (s.setSq n k).duQueue = s.duQueue := rfl
@[simp] theorem State.setSq_dus (s : State) (n : Nat) (k : Queue) : (s.setSq n k).dus = s.dus := rfl
@[simp] theorem State.setSq_duPreempts (s : State) (n : Nat) (k : Queue) : (s.setSq n k).duPreempts = s.duPreempts := rfl
@[simp] theorem State.setSq_dcs (s : State) (n : Nat) (k : Queue) : (s.setSq n k).dcs = s.dcs := rfl
@[simp] theorem State.setSq_ddrSet (s : State) (n : Nat) (k : Queue) : (s.setSq n k).ddrSet = s.ddrSet := rfl
@[simp] theorem State.setSq_ddrGib (s : State) (n : Nat) (k : Queue) : (s.setSq n k).ddrGib = s.ddrGib := rfl
@[simp] theorem State.setSq_hps (s : State) (n : Nat) (k : Queue) : (s.setSq n k).hps = s.hps := rfl
@[simp] theorem State.setSq_drives (s : State) (n : Nat) (k : Queue) : (s.setSq n k).drives = s.drives := rfl
@[simp] theorem State.setSq_grants (s : State) (n : Nat) (k : Queue) : (s.setSq n k).grants = s.grants := rfl
@[simp] theorem State.setSq_reqs (s : State) (n : Nat) (k : Queue) : (s.setSq n k).reqs = s.reqs := rfl
@[simp] theorem State.setSq_cmds (s : State) (n : Nat) (k : Queue) : (s.setSq n k).cmds = s.cmds := rfl
@[simp] theorem State.setSq_nextReq (s : State) (n : Nat) (k : Queue) : (s.setSq n k).nextReq = s.nextReq := rfl
@[simp] theorem State.setSq_chain (s : State) (n : Nat) (k : Queue) : (s.setSq n k).chain = s.chain := rfl
@[simp] theorem State.setSq_pm (s : State) (n : Nat) (k : Queue) : (s.setSq n k).pm = s.pm := rfl
@[simp] theorem State.setSq_ks (s : State) (n : Nat) (k : Queue) : (s.setSq n k).ks = s.ks := rfl
@[simp] theorem State.setSq_dbg (s : State) (n : Nat) (k : Queue) : (s.setSq n k).dbg = s.dbg := rfl
@[simp] theorem State.setSq_out (s : State) (n : Nat) (k : Queue) : (s.setSq n k).out = s.out := rfl
@[simp] theorem State.setCq_pending (s : State) (n : Nat) (k : Queue) : (s.setCq n k).pending = s.pending := rfl
@[simp] theorem State.setCq_freeSeq (s : State) (n : Nat) (k : Queue) : (s.setCq n k).freeSeq = s.freeSeq := rfl
@[simp] theorem State.setCq_mem (s : State) (n : Nat) (k : Queue) : (s.setCq n k).mem = s.mem := rfl
@[simp] theorem State.setCq_bad (s : State) (n : Nat) (k : Queue) : (s.setCq n k).bad = s.bad := rfl
@[simp] theorem State.setCq_hostBad (s : State) (n : Nat) (k : Queue) : (s.setCq n k).hostBad = s.hostBad := rfl
@[simp] theorem State.setCq_hostWant (s : State) (n : Nat) (k : Queue) : (s.setCq n k).hostWant = s.hostWant := rfl
@[simp] theorem State.setCq_hostGot (s : State) (n : Nat) (k : Queue) : (s.setCq n k).hostGot = s.hostGot := rfl
@[simp] theorem State.setCq_hostMiss (s : State) (n : Nat) (k : Queue) : (s.setCq n k).hostMiss = s.hostMiss := rfl
@[simp] theorem State.setCq_regs (s : State) (n : Nat) (k : Queue) : (s.setCq n k).regs = s.regs := rfl
@[simp] theorem State.setCq_latches (s : State) (n : Nat) (k : Queue) : (s.setCq n k).latches = s.latches := rfl
@[simp] theorem State.setCq_stalls (s : State) (n : Nat) (k : Queue) : (s.setCq n k).stalls = s.stalls := rfl
@[simp] theorem State.setCq_parity (s : State) (n : Nat) (k : Queue) : (s.setCq n k).parity = s.parity := rfl
@[simp] theorem State.setCq_parityLive (s : State) (n : Nat) (k : Queue) : (s.setCq n k).parityLive = s.parityLive := rfl
@[simp] theorem State.setCq_regErr (s : State) (n : Nat) (k : Queue) : (s.setCq n k).regErr = s.regErr := rfl
@[simp] theorem State.setCq_pps (s : State) (n : Nat) (k : Queue) : (s.setCq n k).pps = s.pps := rfl
@[simp] theorem State.setCq_legs (s : State) (n : Nat) (k : Queue) : (s.setCq n k).legs = s.legs := rfl
@[simp] theorem State.setCq_nextLeg (s : State) (n : Nat) (k : Queue) : (s.setCq n k).nextLeg = s.nextLeg := rfl
@[simp] theorem State.setCq_order (s : State) (n : Nat) (k : Queue) : (s.setCq n k).order = s.order := rfl
@[simp] theorem State.setCq_cls (s : State) (n : Nat) (k : Queue) : (s.setCq n k).cls = s.cls := rfl
@[simp] theorem State.setCq_ioWalk (s : State) (n : Nat) (k : Queue) : (s.setCq n k).ioWalk = s.ioWalk := rfl
@[simp] theorem State.setCq_ioTlb (s : State) (n : Nat) (k : Queue) : (s.setCq n k).ioTlb = s.ioTlb := rfl
@[simp] theorem State.setCq_stu (s : State) (n : Nat) (k : Queue) : (s.setCq n k).stu = s.stu := rfl
@[simp] theorem State.setCq_stuWalk (s : State) (n : Nat) (k : Queue) : (s.setCq n k).stuWalk = s.stuWalk := rfl
@[simp] theorem State.setCq_xinvDone (s : State) (n : Nat) (k : Queue) : (s.setCq n k).xinvDone = s.xinvDone := rfl
@[simp] theorem State.setCq_fc (s : State) (n : Nat) (k : Queue) : (s.setCq n k).fc = s.fc := rfl
@[simp] theorem State.setCq_fcClose (s : State) (n : Nat) (k : Queue) : (s.setCq n k).fcClose = s.fcClose := rfl
@[simp] theorem State.setCq_schedTick (s : State) (n : Nat) (k : Queue) : (s.setCq n k).schedTick = s.schedTick := rfl
@[simp] theorem State.setCq_sqs (s : State) (n : Nat) (k : Queue) : (s.setCq n k).sqs = s.sqs := rfl
@[simp] theorem State.setCq_admin (s : State) (n : Nat) (k : Queue) : (s.setCq n k).admin = s.admin := rfl
@[simp] theorem State.setCq_parts (s : State) (n : Nat) (k : Queue) : (s.setCq n k).parts = s.parts := rfl
@[simp] theorem State.setCq_quenchDone (s : State) (n : Nat) (k : Queue) : (s.setCq n k).quenchDone = s.quenchDone := rfl
@[simp] theorem State.setCq_quenchWait (s : State) (n : Nat) (k : Queue) : (s.setCq n k).quenchWait = s.quenchWait := rfl
@[simp] theorem State.setCq_copies (s : State) (n : Nat) (k : Queue) : (s.setCq n k).copies = s.copies := rfl
@[simp] theorem State.setCq_err (s : State) (n : Nat) (k : Queue) : (s.setCq n k).err = s.err := rfl
@[simp] theorem State.setCq_evtMap (s : State) (n : Nat) (k : Queue) : (s.setCq n k).evtMap = s.evtMap := rfl
@[simp] theorem State.setCq_evtPend (s : State) (n : Nat) (k : Queue) : (s.setCq n k).evtPend = s.evtPend := rfl
@[simp] theorem State.setCq_asaCfg (s : State) (n : Nat) (k : Queue) : (s.setCq n k).asaCfg = s.asaCfg := rfl
@[simp] theorem State.setCq_asa (s : State) (n : Nat) (k : Queue) : (s.setCq n k).asa = s.asa := rfl
@[simp] theorem State.setCq_asaSets (s : State) (n : Nat) (k : Queue) : (s.setCq n k).asaSets = s.asaSets := rfl
@[simp] theorem State.setCq_cursors (s : State) (n : Nat) (k : Queue) : (s.setCq n k).cursors = s.cursors := rfl
@[simp] theorem State.setCq_asaErr (s : State) (n : Nat) (k : Queue) : (s.setCq n k).asaErr = s.asaErr := rfl
@[simp] theorem State.setCq_duQueue (s : State) (n : Nat) (k : Queue) : (s.setCq n k).duQueue = s.duQueue := rfl
@[simp] theorem State.setCq_dus (s : State) (n : Nat) (k : Queue) : (s.setCq n k).dus = s.dus := rfl
@[simp] theorem State.setCq_duPreempts (s : State) (n : Nat) (k : Queue) : (s.setCq n k).duPreempts = s.duPreempts := rfl
@[simp] theorem State.setCq_dcs (s : State) (n : Nat) (k : Queue) : (s.setCq n k).dcs = s.dcs := rfl
@[simp] theorem State.setCq_ddrSet (s : State) (n : Nat) (k : Queue) : (s.setCq n k).ddrSet = s.ddrSet := rfl
@[simp] theorem State.setCq_ddrGib (s : State) (n : Nat) (k : Queue) : (s.setCq n k).ddrGib = s.ddrGib := rfl
@[simp] theorem State.setCq_hps (s : State) (n : Nat) (k : Queue) : (s.setCq n k).hps = s.hps := rfl
@[simp] theorem State.setCq_drives (s : State) (n : Nat) (k : Queue) : (s.setCq n k).drives = s.drives := rfl
@[simp] theorem State.setCq_grants (s : State) (n : Nat) (k : Queue) : (s.setCq n k).grants = s.grants := rfl
@[simp] theorem State.setCq_reqs (s : State) (n : Nat) (k : Queue) : (s.setCq n k).reqs = s.reqs := rfl
@[simp] theorem State.setCq_cmds (s : State) (n : Nat) (k : Queue) : (s.setCq n k).cmds = s.cmds := rfl
@[simp] theorem State.setCq_nextReq (s : State) (n : Nat) (k : Queue) : (s.setCq n k).nextReq = s.nextReq := rfl
@[simp] theorem State.setCq_chain (s : State) (n : Nat) (k : Queue) : (s.setCq n k).chain = s.chain := rfl
@[simp] theorem State.setCq_pm (s : State) (n : Nat) (k : Queue) : (s.setCq n k).pm = s.pm := rfl
@[simp] theorem State.setCq_ks (s : State) (n : Nat) (k : Queue) : (s.setCq n k).ks = s.ks := rfl
@[simp] theorem State.setCq_dbg (s : State) (n : Nat) (k : Queue) : (s.setCq n k).dbg = s.dbg := rfl
@[simp] theorem State.setCq_out (s : State) (n : Nat) (k : Queue) : (s.setCq n k).out = s.out := rfl
@[simp] theorem State.setHp_pending (s : State) (n : Nat) (k : HostPort) : (s.setHp n k).pending = s.pending := rfl
@[simp] theorem State.setHp_freeSeq (s : State) (n : Nat) (k : HostPort) : (s.setHp n k).freeSeq = s.freeSeq := rfl
@[simp] theorem State.setHp_mem (s : State) (n : Nat) (k : HostPort) : (s.setHp n k).mem = s.mem := rfl
@[simp] theorem State.setHp_bad (s : State) (n : Nat) (k : HostPort) : (s.setHp n k).bad = s.bad := rfl
@[simp] theorem State.setHp_hostBad (s : State) (n : Nat) (k : HostPort) : (s.setHp n k).hostBad = s.hostBad := rfl
@[simp] theorem State.setHp_hostWant (s : State) (n : Nat) (k : HostPort) : (s.setHp n k).hostWant = s.hostWant := rfl
@[simp] theorem State.setHp_hostGot (s : State) (n : Nat) (k : HostPort) : (s.setHp n k).hostGot = s.hostGot := rfl
@[simp] theorem State.setHp_hostMiss (s : State) (n : Nat) (k : HostPort) : (s.setHp n k).hostMiss = s.hostMiss := rfl
@[simp] theorem State.setHp_regs (s : State) (n : Nat) (k : HostPort) : (s.setHp n k).regs = s.regs := rfl
@[simp] theorem State.setHp_latches (s : State) (n : Nat) (k : HostPort) : (s.setHp n k).latches = s.latches := rfl
@[simp] theorem State.setHp_stalls (s : State) (n : Nat) (k : HostPort) : (s.setHp n k).stalls = s.stalls := rfl
@[simp] theorem State.setHp_parity (s : State) (n : Nat) (k : HostPort) : (s.setHp n k).parity = s.parity := rfl
@[simp] theorem State.setHp_parityLive (s : State) (n : Nat) (k : HostPort) : (s.setHp n k).parityLive = s.parityLive := rfl
@[simp] theorem State.setHp_regErr (s : State) (n : Nat) (k : HostPort) : (s.setHp n k).regErr = s.regErr := rfl
@[simp] theorem State.setHp_pps (s : State) (n : Nat) (k : HostPort) : (s.setHp n k).pps = s.pps := rfl
@[simp] theorem State.setHp_legs (s : State) (n : Nat) (k : HostPort) : (s.setHp n k).legs = s.legs := rfl
@[simp] theorem State.setHp_nextLeg (s : State) (n : Nat) (k : HostPort) : (s.setHp n k).nextLeg = s.nextLeg := rfl
@[simp] theorem State.setHp_order (s : State) (n : Nat) (k : HostPort) : (s.setHp n k).order = s.order := rfl
@[simp] theorem State.setHp_cls (s : State) (n : Nat) (k : HostPort) : (s.setHp n k).cls = s.cls := rfl
@[simp] theorem State.setHp_ioWalk (s : State) (n : Nat) (k : HostPort) : (s.setHp n k).ioWalk = s.ioWalk := rfl
@[simp] theorem State.setHp_ioTlb (s : State) (n : Nat) (k : HostPort) : (s.setHp n k).ioTlb = s.ioTlb := rfl
@[simp] theorem State.setHp_stu (s : State) (n : Nat) (k : HostPort) : (s.setHp n k).stu = s.stu := rfl
@[simp] theorem State.setHp_stuWalk (s : State) (n : Nat) (k : HostPort) : (s.setHp n k).stuWalk = s.stuWalk := rfl
@[simp] theorem State.setHp_xinvDone (s : State) (n : Nat) (k : HostPort) : (s.setHp n k).xinvDone = s.xinvDone := rfl
@[simp] theorem State.setHp_fc (s : State) (n : Nat) (k : HostPort) : (s.setHp n k).fc = s.fc := rfl
@[simp] theorem State.setHp_fcClose (s : State) (n : Nat) (k : HostPort) : (s.setHp n k).fcClose = s.fcClose := rfl
@[simp] theorem State.setHp_schedTick (s : State) (n : Nat) (k : HostPort) : (s.setHp n k).schedTick = s.schedTick := rfl
@[simp] theorem State.setHp_sqs (s : State) (n : Nat) (k : HostPort) : (s.setHp n k).sqs = s.sqs := rfl
@[simp] theorem State.setHp_cqs (s : State) (n : Nat) (k : HostPort) : (s.setHp n k).cqs = s.cqs := rfl
@[simp] theorem State.setHp_admin (s : State) (n : Nat) (k : HostPort) : (s.setHp n k).admin = s.admin := rfl
@[simp] theorem State.setHp_parts (s : State) (n : Nat) (k : HostPort) : (s.setHp n k).parts = s.parts := rfl
@[simp] theorem State.setHp_quenchDone (s : State) (n : Nat) (k : HostPort) : (s.setHp n k).quenchDone = s.quenchDone := rfl
@[simp] theorem State.setHp_quenchWait (s : State) (n : Nat) (k : HostPort) : (s.setHp n k).quenchWait = s.quenchWait := rfl
@[simp] theorem State.setHp_copies (s : State) (n : Nat) (k : HostPort) : (s.setHp n k).copies = s.copies := rfl
@[simp] theorem State.setHp_err (s : State) (n : Nat) (k : HostPort) : (s.setHp n k).err = s.err := rfl
@[simp] theorem State.setHp_evtMap (s : State) (n : Nat) (k : HostPort) : (s.setHp n k).evtMap = s.evtMap := rfl
@[simp] theorem State.setHp_evtPend (s : State) (n : Nat) (k : HostPort) : (s.setHp n k).evtPend = s.evtPend := rfl
@[simp] theorem State.setHp_asaCfg (s : State) (n : Nat) (k : HostPort) : (s.setHp n k).asaCfg = s.asaCfg := rfl
@[simp] theorem State.setHp_asa (s : State) (n : Nat) (k : HostPort) : (s.setHp n k).asa = s.asa := rfl
@[simp] theorem State.setHp_asaSets (s : State) (n : Nat) (k : HostPort) : (s.setHp n k).asaSets = s.asaSets := rfl
@[simp] theorem State.setHp_cursors (s : State) (n : Nat) (k : HostPort) : (s.setHp n k).cursors = s.cursors := rfl
@[simp] theorem State.setHp_asaErr (s : State) (n : Nat) (k : HostPort) : (s.setHp n k).asaErr = s.asaErr := rfl
@[simp] theorem State.setHp_duQueue (s : State) (n : Nat) (k : HostPort) : (s.setHp n k).duQueue = s.duQueue := rfl
@[simp] theorem State.setHp_dus (s : State) (n : Nat) (k : HostPort) : (s.setHp n k).dus = s.dus := rfl
@[simp] theorem State.setHp_duPreempts (s : State) (n : Nat) (k : HostPort) : (s.setHp n k).duPreempts = s.duPreempts := rfl
@[simp] theorem State.setHp_dcs (s : State) (n : Nat) (k : HostPort) : (s.setHp n k).dcs = s.dcs := rfl
@[simp] theorem State.setHp_ddrSet (s : State) (n : Nat) (k : HostPort) : (s.setHp n k).ddrSet = s.ddrSet := rfl
@[simp] theorem State.setHp_ddrGib (s : State) (n : Nat) (k : HostPort) : (s.setHp n k).ddrGib = s.ddrGib := rfl
@[simp] theorem State.setHp_drives (s : State) (n : Nat) (k : HostPort) : (s.setHp n k).drives = s.drives := rfl
@[simp] theorem State.setHp_grants (s : State) (n : Nat) (k : HostPort) : (s.setHp n k).grants = s.grants := rfl
@[simp] theorem State.setHp_reqs (s : State) (n : Nat) (k : HostPort) : (s.setHp n k).reqs = s.reqs := rfl
@[simp] theorem State.setHp_cmds (s : State) (n : Nat) (k : HostPort) : (s.setHp n k).cmds = s.cmds := rfl
@[simp] theorem State.setHp_nextReq (s : State) (n : Nat) (k : HostPort) : (s.setHp n k).nextReq = s.nextReq := rfl
@[simp] theorem State.setHp_chain (s : State) (n : Nat) (k : HostPort) : (s.setHp n k).chain = s.chain := rfl
@[simp] theorem State.setHp_pm (s : State) (n : Nat) (k : HostPort) : (s.setHp n k).pm = s.pm := rfl
@[simp] theorem State.setHp_ks (s : State) (n : Nat) (k : HostPort) : (s.setHp n k).ks = s.ks := rfl
@[simp] theorem State.setHp_dbg (s : State) (n : Nat) (k : HostPort) : (s.setHp n k).dbg = s.dbg := rfl
@[simp] theorem State.setHp_out (s : State) (n : Nat) (k : HostPort) : (s.setHp n k).out = s.out := rfl
@[simp] theorem State.setDc_pending (s : State) (n : Nat) (k : Dc) : (s.setDc n k).pending = s.pending := rfl
@[simp] theorem State.setDc_freeSeq (s : State) (n : Nat) (k : Dc) : (s.setDc n k).freeSeq = s.freeSeq := rfl
@[simp] theorem State.setDc_mem (s : State) (n : Nat) (k : Dc) : (s.setDc n k).mem = s.mem := rfl
@[simp] theorem State.setDc_bad (s : State) (n : Nat) (k : Dc) : (s.setDc n k).bad = s.bad := rfl
@[simp] theorem State.setDc_hostBad (s : State) (n : Nat) (k : Dc) : (s.setDc n k).hostBad = s.hostBad := rfl
@[simp] theorem State.setDc_hostWant (s : State) (n : Nat) (k : Dc) : (s.setDc n k).hostWant = s.hostWant := rfl
@[simp] theorem State.setDc_hostGot (s : State) (n : Nat) (k : Dc) : (s.setDc n k).hostGot = s.hostGot := rfl
@[simp] theorem State.setDc_hostMiss (s : State) (n : Nat) (k : Dc) : (s.setDc n k).hostMiss = s.hostMiss := rfl
@[simp] theorem State.setDc_regs (s : State) (n : Nat) (k : Dc) : (s.setDc n k).regs = s.regs := rfl
@[simp] theorem State.setDc_latches (s : State) (n : Nat) (k : Dc) : (s.setDc n k).latches = s.latches := rfl
@[simp] theorem State.setDc_stalls (s : State) (n : Nat) (k : Dc) : (s.setDc n k).stalls = s.stalls := rfl
@[simp] theorem State.setDc_parity (s : State) (n : Nat) (k : Dc) : (s.setDc n k).parity = s.parity := rfl
@[simp] theorem State.setDc_parityLive (s : State) (n : Nat) (k : Dc) : (s.setDc n k).parityLive = s.parityLive := rfl
@[simp] theorem State.setDc_regErr (s : State) (n : Nat) (k : Dc) : (s.setDc n k).regErr = s.regErr := rfl
@[simp] theorem State.setDc_pps (s : State) (n : Nat) (k : Dc) : (s.setDc n k).pps = s.pps := rfl
@[simp] theorem State.setDc_legs (s : State) (n : Nat) (k : Dc) : (s.setDc n k).legs = s.legs := rfl
@[simp] theorem State.setDc_nextLeg (s : State) (n : Nat) (k : Dc) : (s.setDc n k).nextLeg = s.nextLeg := rfl
@[simp] theorem State.setDc_order (s : State) (n : Nat) (k : Dc) : (s.setDc n k).order = s.order := rfl
@[simp] theorem State.setDc_cls (s : State) (n : Nat) (k : Dc) : (s.setDc n k).cls = s.cls := rfl
@[simp] theorem State.setDc_ioWalk (s : State) (n : Nat) (k : Dc) : (s.setDc n k).ioWalk = s.ioWalk := rfl
@[simp] theorem State.setDc_ioTlb (s : State) (n : Nat) (k : Dc) : (s.setDc n k).ioTlb = s.ioTlb := rfl
@[simp] theorem State.setDc_stu (s : State) (n : Nat) (k : Dc) : (s.setDc n k).stu = s.stu := rfl
@[simp] theorem State.setDc_stuWalk (s : State) (n : Nat) (k : Dc) : (s.setDc n k).stuWalk = s.stuWalk := rfl
@[simp] theorem State.setDc_xinvDone (s : State) (n : Nat) (k : Dc) : (s.setDc n k).xinvDone = s.xinvDone := rfl
@[simp] theorem State.setDc_fc (s : State) (n : Nat) (k : Dc) : (s.setDc n k).fc = s.fc := rfl
@[simp] theorem State.setDc_fcClose (s : State) (n : Nat) (k : Dc) : (s.setDc n k).fcClose = s.fcClose := rfl
@[simp] theorem State.setDc_schedTick (s : State) (n : Nat) (k : Dc) : (s.setDc n k).schedTick = s.schedTick := rfl
@[simp] theorem State.setDc_sqs (s : State) (n : Nat) (k : Dc) : (s.setDc n k).sqs = s.sqs := rfl
@[simp] theorem State.setDc_cqs (s : State) (n : Nat) (k : Dc) : (s.setDc n k).cqs = s.cqs := rfl
@[simp] theorem State.setDc_admin (s : State) (n : Nat) (k : Dc) : (s.setDc n k).admin = s.admin := rfl
@[simp] theorem State.setDc_parts (s : State) (n : Nat) (k : Dc) : (s.setDc n k).parts = s.parts := rfl
@[simp] theorem State.setDc_quenchDone (s : State) (n : Nat) (k : Dc) : (s.setDc n k).quenchDone = s.quenchDone := rfl
@[simp] theorem State.setDc_quenchWait (s : State) (n : Nat) (k : Dc) : (s.setDc n k).quenchWait = s.quenchWait := rfl
@[simp] theorem State.setDc_copies (s : State) (n : Nat) (k : Dc) : (s.setDc n k).copies = s.copies := rfl
@[simp] theorem State.setDc_err (s : State) (n : Nat) (k : Dc) : (s.setDc n k).err = s.err := rfl
@[simp] theorem State.setDc_evtMap (s : State) (n : Nat) (k : Dc) : (s.setDc n k).evtMap = s.evtMap := rfl
@[simp] theorem State.setDc_evtPend (s : State) (n : Nat) (k : Dc) : (s.setDc n k).evtPend = s.evtPend := rfl
@[simp] theorem State.setDc_asaCfg (s : State) (n : Nat) (k : Dc) : (s.setDc n k).asaCfg = s.asaCfg := rfl
@[simp] theorem State.setDc_asa (s : State) (n : Nat) (k : Dc) : (s.setDc n k).asa = s.asa := rfl
@[simp] theorem State.setDc_asaSets (s : State) (n : Nat) (k : Dc) : (s.setDc n k).asaSets = s.asaSets := rfl
@[simp] theorem State.setDc_cursors (s : State) (n : Nat) (k : Dc) : (s.setDc n k).cursors = s.cursors := rfl
@[simp] theorem State.setDc_asaErr (s : State) (n : Nat) (k : Dc) : (s.setDc n k).asaErr = s.asaErr := rfl
@[simp] theorem State.setDc_duQueue (s : State) (n : Nat) (k : Dc) : (s.setDc n k).duQueue = s.duQueue := rfl
@[simp] theorem State.setDc_dus (s : State) (n : Nat) (k : Dc) : (s.setDc n k).dus = s.dus := rfl
@[simp] theorem State.setDc_duPreempts (s : State) (n : Nat) (k : Dc) : (s.setDc n k).duPreempts = s.duPreempts := rfl
@[simp] theorem State.setDc_ddrSet (s : State) (n : Nat) (k : Dc) : (s.setDc n k).ddrSet = s.ddrSet := rfl
@[simp] theorem State.setDc_ddrGib (s : State) (n : Nat) (k : Dc) : (s.setDc n k).ddrGib = s.ddrGib := rfl
@[simp] theorem State.setDc_hps (s : State) (n : Nat) (k : Dc) : (s.setDc n k).hps = s.hps := rfl
@[simp] theorem State.setDc_drives (s : State) (n : Nat) (k : Dc) : (s.setDc n k).drives = s.drives := rfl
@[simp] theorem State.setDc_grants (s : State) (n : Nat) (k : Dc) : (s.setDc n k).grants = s.grants := rfl
@[simp] theorem State.setDc_reqs (s : State) (n : Nat) (k : Dc) : (s.setDc n k).reqs = s.reqs := rfl
@[simp] theorem State.setDc_cmds (s : State) (n : Nat) (k : Dc) : (s.setDc n k).cmds = s.cmds := rfl
@[simp] theorem State.setDc_nextReq (s : State) (n : Nat) (k : Dc) : (s.setDc n k).nextReq = s.nextReq := rfl
@[simp] theorem State.setDc_chain (s : State) (n : Nat) (k : Dc) : (s.setDc n k).chain = s.chain := rfl
@[simp] theorem State.setDc_pm (s : State) (n : Nat) (k : Dc) : (s.setDc n k).pm = s.pm := rfl
@[simp] theorem State.setDc_ks (s : State) (n : Nat) (k : Dc) : (s.setDc n k).ks = s.ks := rfl
@[simp] theorem State.setDc_dbg (s : State) (n : Nat) (k : Dc) : (s.setDc n k).dbg = s.dbg := rfl
@[simp] theorem State.setDc_out (s : State) (n : Nat) (k : Dc) : (s.setDc n k).out = s.out := rfl
@[simp] theorem State.setDrive_pending (s : State) (n : Nat) (k : Drive) : (s.setDrive n k).pending = s.pending := rfl
@[simp] theorem State.setDrive_freeSeq (s : State) (n : Nat) (k : Drive) : (s.setDrive n k).freeSeq = s.freeSeq := rfl
@[simp] theorem State.setDrive_mem (s : State) (n : Nat) (k : Drive) : (s.setDrive n k).mem = s.mem := rfl
@[simp] theorem State.setDrive_bad (s : State) (n : Nat) (k : Drive) : (s.setDrive n k).bad = s.bad := rfl
@[simp] theorem State.setDrive_hostBad (s : State) (n : Nat) (k : Drive) : (s.setDrive n k).hostBad = s.hostBad := rfl
@[simp] theorem State.setDrive_hostWant (s : State) (n : Nat) (k : Drive) : (s.setDrive n k).hostWant = s.hostWant := rfl
@[simp] theorem State.setDrive_hostGot (s : State) (n : Nat) (k : Drive) : (s.setDrive n k).hostGot = s.hostGot := rfl
@[simp] theorem State.setDrive_hostMiss (s : State) (n : Nat) (k : Drive) : (s.setDrive n k).hostMiss = s.hostMiss := rfl
@[simp] theorem State.setDrive_regs (s : State) (n : Nat) (k : Drive) : (s.setDrive n k).regs = s.regs := rfl
@[simp] theorem State.setDrive_latches (s : State) (n : Nat) (k : Drive) : (s.setDrive n k).latches = s.latches := rfl
@[simp] theorem State.setDrive_stalls (s : State) (n : Nat) (k : Drive) : (s.setDrive n k).stalls = s.stalls := rfl
@[simp] theorem State.setDrive_parity (s : State) (n : Nat) (k : Drive) : (s.setDrive n k).parity = s.parity := rfl
@[simp] theorem State.setDrive_parityLive (s : State) (n : Nat) (k : Drive) : (s.setDrive n k).parityLive = s.parityLive := rfl
@[simp] theorem State.setDrive_regErr (s : State) (n : Nat) (k : Drive) : (s.setDrive n k).regErr = s.regErr := rfl
@[simp] theorem State.setDrive_pps (s : State) (n : Nat) (k : Drive) : (s.setDrive n k).pps = s.pps := rfl
@[simp] theorem State.setDrive_legs (s : State) (n : Nat) (k : Drive) : (s.setDrive n k).legs = s.legs := rfl
@[simp] theorem State.setDrive_nextLeg (s : State) (n : Nat) (k : Drive) : (s.setDrive n k).nextLeg = s.nextLeg := rfl
@[simp] theorem State.setDrive_order (s : State) (n : Nat) (k : Drive) : (s.setDrive n k).order = s.order := rfl
@[simp] theorem State.setDrive_cls (s : State) (n : Nat) (k : Drive) : (s.setDrive n k).cls = s.cls := rfl
@[simp] theorem State.setDrive_ioWalk (s : State) (n : Nat) (k : Drive) : (s.setDrive n k).ioWalk = s.ioWalk := rfl
@[simp] theorem State.setDrive_ioTlb (s : State) (n : Nat) (k : Drive) : (s.setDrive n k).ioTlb = s.ioTlb := rfl
@[simp] theorem State.setDrive_stu (s : State) (n : Nat) (k : Drive) : (s.setDrive n k).stu = s.stu := rfl
@[simp] theorem State.setDrive_stuWalk (s : State) (n : Nat) (k : Drive) : (s.setDrive n k).stuWalk = s.stuWalk := rfl
@[simp] theorem State.setDrive_xinvDone (s : State) (n : Nat) (k : Drive) : (s.setDrive n k).xinvDone = s.xinvDone := rfl
@[simp] theorem State.setDrive_fc (s : State) (n : Nat) (k : Drive) : (s.setDrive n k).fc = s.fc := rfl
@[simp] theorem State.setDrive_fcClose (s : State) (n : Nat) (k : Drive) : (s.setDrive n k).fcClose = s.fcClose := rfl
@[simp] theorem State.setDrive_schedTick (s : State) (n : Nat) (k : Drive) : (s.setDrive n k).schedTick = s.schedTick := rfl
@[simp] theorem State.setDrive_sqs (s : State) (n : Nat) (k : Drive) : (s.setDrive n k).sqs = s.sqs := rfl
@[simp] theorem State.setDrive_cqs (s : State) (n : Nat) (k : Drive) : (s.setDrive n k).cqs = s.cqs := rfl
@[simp] theorem State.setDrive_admin (s : State) (n : Nat) (k : Drive) : (s.setDrive n k).admin = s.admin := rfl
@[simp] theorem State.setDrive_parts (s : State) (n : Nat) (k : Drive) : (s.setDrive n k).parts = s.parts := rfl
@[simp] theorem State.setDrive_quenchDone (s : State) (n : Nat) (k : Drive) : (s.setDrive n k).quenchDone = s.quenchDone := rfl
@[simp] theorem State.setDrive_quenchWait (s : State) (n : Nat) (k : Drive) : (s.setDrive n k).quenchWait = s.quenchWait := rfl
@[simp] theorem State.setDrive_copies (s : State) (n : Nat) (k : Drive) : (s.setDrive n k).copies = s.copies := rfl
@[simp] theorem State.setDrive_err (s : State) (n : Nat) (k : Drive) : (s.setDrive n k).err = s.err := rfl
@[simp] theorem State.setDrive_evtMap (s : State) (n : Nat) (k : Drive) : (s.setDrive n k).evtMap = s.evtMap := rfl
@[simp] theorem State.setDrive_evtPend (s : State) (n : Nat) (k : Drive) : (s.setDrive n k).evtPend = s.evtPend := rfl
@[simp] theorem State.setDrive_asaCfg (s : State) (n : Nat) (k : Drive) : (s.setDrive n k).asaCfg = s.asaCfg := rfl
@[simp] theorem State.setDrive_asa (s : State) (n : Nat) (k : Drive) : (s.setDrive n k).asa = s.asa := rfl
@[simp] theorem State.setDrive_asaSets (s : State) (n : Nat) (k : Drive) : (s.setDrive n k).asaSets = s.asaSets := rfl
@[simp] theorem State.setDrive_cursors (s : State) (n : Nat) (k : Drive) : (s.setDrive n k).cursors = s.cursors := rfl
@[simp] theorem State.setDrive_asaErr (s : State) (n : Nat) (k : Drive) : (s.setDrive n k).asaErr = s.asaErr := rfl
@[simp] theorem State.setDrive_duQueue (s : State) (n : Nat) (k : Drive) : (s.setDrive n k).duQueue = s.duQueue := rfl
@[simp] theorem State.setDrive_dus (s : State) (n : Nat) (k : Drive) : (s.setDrive n k).dus = s.dus := rfl
@[simp] theorem State.setDrive_duPreempts (s : State) (n : Nat) (k : Drive) : (s.setDrive n k).duPreempts = s.duPreempts := rfl
@[simp] theorem State.setDrive_dcs (s : State) (n : Nat) (k : Drive) : (s.setDrive n k).dcs = s.dcs := rfl
@[simp] theorem State.setDrive_ddrSet (s : State) (n : Nat) (k : Drive) : (s.setDrive n k).ddrSet = s.ddrSet := rfl
@[simp] theorem State.setDrive_ddrGib (s : State) (n : Nat) (k : Drive) : (s.setDrive n k).ddrGib = s.ddrGib := rfl
@[simp] theorem State.setDrive_hps (s : State) (n : Nat) (k : Drive) : (s.setDrive n k).hps = s.hps := rfl
@[simp] theorem State.setDrive_grants (s : State) (n : Nat) (k : Drive) : (s.setDrive n k).grants = s.grants := rfl
@[simp] theorem State.setDrive_reqs (s : State) (n : Nat) (k : Drive) : (s.setDrive n k).reqs = s.reqs := rfl
@[simp] theorem State.setDrive_cmds (s : State) (n : Nat) (k : Drive) : (s.setDrive n k).cmds = s.cmds := rfl
@[simp] theorem State.setDrive_nextReq (s : State) (n : Nat) (k : Drive) : (s.setDrive n k).nextReq = s.nextReq := rfl
@[simp] theorem State.setDrive_chain (s : State) (n : Nat) (k : Drive) : (s.setDrive n k).chain = s.chain := rfl
@[simp] theorem State.setDrive_pm (s : State) (n : Nat) (k : Drive) : (s.setDrive n k).pm = s.pm := rfl
@[simp] theorem State.setDrive_ks (s : State) (n : Nat) (k : Drive) : (s.setDrive n k).ks = s.ks := rfl
@[simp] theorem State.setDrive_dbg (s : State) (n : Nat) (k : Drive) : (s.setDrive n k).dbg = s.dbg := rfl
@[simp] theorem State.setDrive_out (s : State) (n : Nat) (k : Drive) : (s.setDrive n k).out = s.out := rfl
@[simp] theorem State.setGrant_pending (s : State) (n : Nat) (k : Grant) : (s.setGrant n k).pending = s.pending := rfl
@[simp] theorem State.setGrant_freeSeq (s : State) (n : Nat) (k : Grant) : (s.setGrant n k).freeSeq = s.freeSeq := rfl
@[simp] theorem State.setGrant_mem (s : State) (n : Nat) (k : Grant) : (s.setGrant n k).mem = s.mem := rfl
@[simp] theorem State.setGrant_bad (s : State) (n : Nat) (k : Grant) : (s.setGrant n k).bad = s.bad := rfl
@[simp] theorem State.setGrant_hostBad (s : State) (n : Nat) (k : Grant) : (s.setGrant n k).hostBad = s.hostBad := rfl
@[simp] theorem State.setGrant_hostWant (s : State) (n : Nat) (k : Grant) : (s.setGrant n k).hostWant = s.hostWant := rfl
@[simp] theorem State.setGrant_hostGot (s : State) (n : Nat) (k : Grant) : (s.setGrant n k).hostGot = s.hostGot := rfl
@[simp] theorem State.setGrant_hostMiss (s : State) (n : Nat) (k : Grant) : (s.setGrant n k).hostMiss = s.hostMiss := rfl
@[simp] theorem State.setGrant_regs (s : State) (n : Nat) (k : Grant) : (s.setGrant n k).regs = s.regs := rfl
@[simp] theorem State.setGrant_latches (s : State) (n : Nat) (k : Grant) : (s.setGrant n k).latches = s.latches := rfl
@[simp] theorem State.setGrant_stalls (s : State) (n : Nat) (k : Grant) : (s.setGrant n k).stalls = s.stalls := rfl
@[simp] theorem State.setGrant_parity (s : State) (n : Nat) (k : Grant) : (s.setGrant n k).parity = s.parity := rfl
@[simp] theorem State.setGrant_parityLive (s : State) (n : Nat) (k : Grant) : (s.setGrant n k).parityLive = s.parityLive := rfl
@[simp] theorem State.setGrant_regErr (s : State) (n : Nat) (k : Grant) : (s.setGrant n k).regErr = s.regErr := rfl
@[simp] theorem State.setGrant_pps (s : State) (n : Nat) (k : Grant) : (s.setGrant n k).pps = s.pps := rfl
@[simp] theorem State.setGrant_legs (s : State) (n : Nat) (k : Grant) : (s.setGrant n k).legs = s.legs := rfl
@[simp] theorem State.setGrant_nextLeg (s : State) (n : Nat) (k : Grant) : (s.setGrant n k).nextLeg = s.nextLeg := rfl
@[simp] theorem State.setGrant_order (s : State) (n : Nat) (k : Grant) : (s.setGrant n k).order = s.order := rfl
@[simp] theorem State.setGrant_cls (s : State) (n : Nat) (k : Grant) : (s.setGrant n k).cls = s.cls := rfl
@[simp] theorem State.setGrant_ioWalk (s : State) (n : Nat) (k : Grant) : (s.setGrant n k).ioWalk = s.ioWalk := rfl
@[simp] theorem State.setGrant_ioTlb (s : State) (n : Nat) (k : Grant) : (s.setGrant n k).ioTlb = s.ioTlb := rfl
@[simp] theorem State.setGrant_stu (s : State) (n : Nat) (k : Grant) : (s.setGrant n k).stu = s.stu := rfl
@[simp] theorem State.setGrant_stuWalk (s : State) (n : Nat) (k : Grant) : (s.setGrant n k).stuWalk = s.stuWalk := rfl
@[simp] theorem State.setGrant_xinvDone (s : State) (n : Nat) (k : Grant) : (s.setGrant n k).xinvDone = s.xinvDone := rfl
@[simp] theorem State.setGrant_fc (s : State) (n : Nat) (k : Grant) : (s.setGrant n k).fc = s.fc := rfl
@[simp] theorem State.setGrant_fcClose (s : State) (n : Nat) (k : Grant) : (s.setGrant n k).fcClose = s.fcClose := rfl
@[simp] theorem State.setGrant_schedTick (s : State) (n : Nat) (k : Grant) : (s.setGrant n k).schedTick = s.schedTick := rfl
@[simp] theorem State.setGrant_sqs (s : State) (n : Nat) (k : Grant) : (s.setGrant n k).sqs = s.sqs := rfl
@[simp] theorem State.setGrant_cqs (s : State) (n : Nat) (k : Grant) : (s.setGrant n k).cqs = s.cqs := rfl
@[simp] theorem State.setGrant_admin (s : State) (n : Nat) (k : Grant) : (s.setGrant n k).admin = s.admin := rfl
@[simp] theorem State.setGrant_parts (s : State) (n : Nat) (k : Grant) : (s.setGrant n k).parts = s.parts := rfl
@[simp] theorem State.setGrant_quenchDone (s : State) (n : Nat) (k : Grant) : (s.setGrant n k).quenchDone = s.quenchDone := rfl
@[simp] theorem State.setGrant_quenchWait (s : State) (n : Nat) (k : Grant) : (s.setGrant n k).quenchWait = s.quenchWait := rfl
@[simp] theorem State.setGrant_copies (s : State) (n : Nat) (k : Grant) : (s.setGrant n k).copies = s.copies := rfl
@[simp] theorem State.setGrant_err (s : State) (n : Nat) (k : Grant) : (s.setGrant n k).err = s.err := rfl
@[simp] theorem State.setGrant_evtMap (s : State) (n : Nat) (k : Grant) : (s.setGrant n k).evtMap = s.evtMap := rfl
@[simp] theorem State.setGrant_evtPend (s : State) (n : Nat) (k : Grant) : (s.setGrant n k).evtPend = s.evtPend := rfl
@[simp] theorem State.setGrant_asaCfg (s : State) (n : Nat) (k : Grant) : (s.setGrant n k).asaCfg = s.asaCfg := rfl
@[simp] theorem State.setGrant_asa (s : State) (n : Nat) (k : Grant) : (s.setGrant n k).asa = s.asa := rfl
@[simp] theorem State.setGrant_asaSets (s : State) (n : Nat) (k : Grant) : (s.setGrant n k).asaSets = s.asaSets := rfl
@[simp] theorem State.setGrant_cursors (s : State) (n : Nat) (k : Grant) : (s.setGrant n k).cursors = s.cursors := rfl
@[simp] theorem State.setGrant_asaErr (s : State) (n : Nat) (k : Grant) : (s.setGrant n k).asaErr = s.asaErr := rfl
@[simp] theorem State.setGrant_duQueue (s : State) (n : Nat) (k : Grant) : (s.setGrant n k).duQueue = s.duQueue := rfl
@[simp] theorem State.setGrant_dus (s : State) (n : Nat) (k : Grant) : (s.setGrant n k).dus = s.dus := rfl
@[simp] theorem State.setGrant_duPreempts (s : State) (n : Nat) (k : Grant) : (s.setGrant n k).duPreempts = s.duPreempts := rfl
@[simp] theorem State.setGrant_dcs (s : State) (n : Nat) (k : Grant) : (s.setGrant n k).dcs = s.dcs := rfl
@[simp] theorem State.setGrant_ddrSet (s : State) (n : Nat) (k : Grant) : (s.setGrant n k).ddrSet = s.ddrSet := rfl
@[simp] theorem State.setGrant_ddrGib (s : State) (n : Nat) (k : Grant) : (s.setGrant n k).ddrGib = s.ddrGib := rfl
@[simp] theorem State.setGrant_hps (s : State) (n : Nat) (k : Grant) : (s.setGrant n k).hps = s.hps := rfl
@[simp] theorem State.setGrant_drives (s : State) (n : Nat) (k : Grant) : (s.setGrant n k).drives = s.drives := rfl
@[simp] theorem State.setGrant_reqs (s : State) (n : Nat) (k : Grant) : (s.setGrant n k).reqs = s.reqs := rfl
@[simp] theorem State.setGrant_cmds (s : State) (n : Nat) (k : Grant) : (s.setGrant n k).cmds = s.cmds := rfl
@[simp] theorem State.setGrant_nextReq (s : State) (n : Nat) (k : Grant) : (s.setGrant n k).nextReq = s.nextReq := rfl
@[simp] theorem State.setGrant_chain (s : State) (n : Nat) (k : Grant) : (s.setGrant n k).chain = s.chain := rfl
@[simp] theorem State.setGrant_pm (s : State) (n : Nat) (k : Grant) : (s.setGrant n k).pm = s.pm := rfl
@[simp] theorem State.setGrant_ks (s : State) (n : Nat) (k : Grant) : (s.setGrant n k).ks = s.ks := rfl
@[simp] theorem State.setGrant_dbg (s : State) (n : Nat) (k : Grant) : (s.setGrant n k).dbg = s.dbg := rfl
@[simp] theorem State.setGrant_out (s : State) (n : Nat) (k : Grant) : (s.setGrant n k).out = s.out := rfl
@[simp] theorem State.setLink_pending (s : State) (n : Nat) (k : Link) : (s.setLink n k).pending = s.pending := rfl
@[simp] theorem State.setLink_freeSeq (s : State) (n : Nat) (k : Link) : (s.setLink n k).freeSeq = s.freeSeq := rfl
@[simp] theorem State.setLink_mem (s : State) (n : Nat) (k : Link) : (s.setLink n k).mem = s.mem := rfl
@[simp] theorem State.setLink_bad (s : State) (n : Nat) (k : Link) : (s.setLink n k).bad = s.bad := rfl
@[simp] theorem State.setLink_hostBad (s : State) (n : Nat) (k : Link) : (s.setLink n k).hostBad = s.hostBad := rfl
@[simp] theorem State.setLink_hostWant (s : State) (n : Nat) (k : Link) : (s.setLink n k).hostWant = s.hostWant := rfl
@[simp] theorem State.setLink_hostGot (s : State) (n : Nat) (k : Link) : (s.setLink n k).hostGot = s.hostGot := rfl
@[simp] theorem State.setLink_hostMiss (s : State) (n : Nat) (k : Link) : (s.setLink n k).hostMiss = s.hostMiss := rfl
@[simp] theorem State.setLink_regs (s : State) (n : Nat) (k : Link) : (s.setLink n k).regs = s.regs := rfl
@[simp] theorem State.setLink_latches (s : State) (n : Nat) (k : Link) : (s.setLink n k).latches = s.latches := rfl
@[simp] theorem State.setLink_stalls (s : State) (n : Nat) (k : Link) : (s.setLink n k).stalls = s.stalls := rfl
@[simp] theorem State.setLink_parity (s : State) (n : Nat) (k : Link) : (s.setLink n k).parity = s.parity := rfl
@[simp] theorem State.setLink_parityLive (s : State) (n : Nat) (k : Link) : (s.setLink n k).parityLive = s.parityLive := rfl
@[simp] theorem State.setLink_regErr (s : State) (n : Nat) (k : Link) : (s.setLink n k).regErr = s.regErr := rfl
@[simp] theorem State.setLink_pps (s : State) (n : Nat) (k : Link) : (s.setLink n k).pps = s.pps := rfl
@[simp] theorem State.setLink_legs (s : State) (n : Nat) (k : Link) : (s.setLink n k).legs = s.legs := rfl
@[simp] theorem State.setLink_nextLeg (s : State) (n : Nat) (k : Link) : (s.setLink n k).nextLeg = s.nextLeg := rfl
@[simp] theorem State.setLink_order (s : State) (n : Nat) (k : Link) : (s.setLink n k).order = s.order := rfl
@[simp] theorem State.setLink_cls (s : State) (n : Nat) (k : Link) : (s.setLink n k).cls = s.cls := rfl
@[simp] theorem State.setLink_ioWalk (s : State) (n : Nat) (k : Link) : (s.setLink n k).ioWalk = s.ioWalk := rfl
@[simp] theorem State.setLink_ioTlb (s : State) (n : Nat) (k : Link) : (s.setLink n k).ioTlb = s.ioTlb := rfl
@[simp] theorem State.setLink_stu (s : State) (n : Nat) (k : Link) : (s.setLink n k).stu = s.stu := rfl
@[simp] theorem State.setLink_stuWalk (s : State) (n : Nat) (k : Link) : (s.setLink n k).stuWalk = s.stuWalk := rfl
@[simp] theorem State.setLink_xinvDone (s : State) (n : Nat) (k : Link) : (s.setLink n k).xinvDone = s.xinvDone := rfl
@[simp] theorem State.setLink_fc (s : State) (n : Nat) (k : Link) : (s.setLink n k).fc = s.fc := rfl
@[simp] theorem State.setLink_fcClose (s : State) (n : Nat) (k : Link) : (s.setLink n k).fcClose = s.fcClose := rfl
@[simp] theorem State.setLink_schedTick (s : State) (n : Nat) (k : Link) : (s.setLink n k).schedTick = s.schedTick := rfl
@[simp] theorem State.setLink_sqs (s : State) (n : Nat) (k : Link) : (s.setLink n k).sqs = s.sqs := rfl
@[simp] theorem State.setLink_cqs (s : State) (n : Nat) (k : Link) : (s.setLink n k).cqs = s.cqs := rfl
@[simp] theorem State.setLink_admin (s : State) (n : Nat) (k : Link) : (s.setLink n k).admin = s.admin := rfl
@[simp] theorem State.setLink_parts (s : State) (n : Nat) (k : Link) : (s.setLink n k).parts = s.parts := rfl
@[simp] theorem State.setLink_quenchDone (s : State) (n : Nat) (k : Link) : (s.setLink n k).quenchDone = s.quenchDone := rfl
@[simp] theorem State.setLink_quenchWait (s : State) (n : Nat) (k : Link) : (s.setLink n k).quenchWait = s.quenchWait := rfl
@[simp] theorem State.setLink_copies (s : State) (n : Nat) (k : Link) : (s.setLink n k).copies = s.copies := rfl
@[simp] theorem State.setLink_err (s : State) (n : Nat) (k : Link) : (s.setLink n k).err = s.err := rfl
@[simp] theorem State.setLink_evtMap (s : State) (n : Nat) (k : Link) : (s.setLink n k).evtMap = s.evtMap := rfl
@[simp] theorem State.setLink_evtPend (s : State) (n : Nat) (k : Link) : (s.setLink n k).evtPend = s.evtPend := rfl
@[simp] theorem State.setLink_asaCfg (s : State) (n : Nat) (k : Link) : (s.setLink n k).asaCfg = s.asaCfg := rfl
@[simp] theorem State.setLink_asa (s : State) (n : Nat) (k : Link) : (s.setLink n k).asa = s.asa := rfl
@[simp] theorem State.setLink_asaSets (s : State) (n : Nat) (k : Link) : (s.setLink n k).asaSets = s.asaSets := rfl
@[simp] theorem State.setLink_cursors (s : State) (n : Nat) (k : Link) : (s.setLink n k).cursors = s.cursors := rfl
@[simp] theorem State.setLink_asaErr (s : State) (n : Nat) (k : Link) : (s.setLink n k).asaErr = s.asaErr := rfl
@[simp] theorem State.setLink_duQueue (s : State) (n : Nat) (k : Link) : (s.setLink n k).duQueue = s.duQueue := rfl
@[simp] theorem State.setLink_dus (s : State) (n : Nat) (k : Link) : (s.setLink n k).dus = s.dus := rfl
@[simp] theorem State.setLink_duPreempts (s : State) (n : Nat) (k : Link) : (s.setLink n k).duPreempts = s.duPreempts := rfl
@[simp] theorem State.setLink_dcs (s : State) (n : Nat) (k : Link) : (s.setLink n k).dcs = s.dcs := rfl
@[simp] theorem State.setLink_ddrSet (s : State) (n : Nat) (k : Link) : (s.setLink n k).ddrSet = s.ddrSet := rfl
@[simp] theorem State.setLink_ddrGib (s : State) (n : Nat) (k : Link) : (s.setLink n k).ddrGib = s.ddrGib := rfl
@[simp] theorem State.setLink_hps (s : State) (n : Nat) (k : Link) : (s.setLink n k).hps = s.hps := rfl
@[simp] theorem State.setLink_drives (s : State) (n : Nat) (k : Link) : (s.setLink n k).drives = s.drives := rfl
@[simp] theorem State.setLink_grants (s : State) (n : Nat) (k : Link) : (s.setLink n k).grants = s.grants := rfl
@[simp] theorem State.setLink_reqs (s : State) (n : Nat) (k : Link) : (s.setLink n k).reqs = s.reqs := rfl
@[simp] theorem State.setLink_cmds (s : State) (n : Nat) (k : Link) : (s.setLink n k).cmds = s.cmds := rfl
@[simp] theorem State.setLink_nextReq (s : State) (n : Nat) (k : Link) : (s.setLink n k).nextReq = s.nextReq := rfl
@[simp] theorem State.setLink_pm (s : State) (n : Nat) (k : Link) : (s.setLink n k).pm = s.pm := rfl
@[simp] theorem State.setLink_ks (s : State) (n : Nat) (k : Link) : (s.setLink n k).ks = s.ks := rfl
@[simp] theorem State.setLink_dbg (s : State) (n : Nat) (k : Link) : (s.setLink n k).dbg = s.dbg := rfl
@[simp] theorem State.setLink_out (s : State) (n : Nat) (k : Link) : (s.setLink n k).out = s.out := rfl
@[simp] theorem State.setDu_pending (s : State) (n : Nat) (k : DuUnit) : (s.setDu n k).pending = s.pending := rfl
@[simp] theorem State.setDu_freeSeq (s : State) (n : Nat) (k : DuUnit) : (s.setDu n k).freeSeq = s.freeSeq := rfl
@[simp] theorem State.setDu_mem (s : State) (n : Nat) (k : DuUnit) : (s.setDu n k).mem = s.mem := rfl
@[simp] theorem State.setDu_bad (s : State) (n : Nat) (k : DuUnit) : (s.setDu n k).bad = s.bad := rfl
@[simp] theorem State.setDu_hostBad (s : State) (n : Nat) (k : DuUnit) : (s.setDu n k).hostBad = s.hostBad := rfl
@[simp] theorem State.setDu_hostWant (s : State) (n : Nat) (k : DuUnit) : (s.setDu n k).hostWant = s.hostWant := rfl
@[simp] theorem State.setDu_hostGot (s : State) (n : Nat) (k : DuUnit) : (s.setDu n k).hostGot = s.hostGot := rfl
@[simp] theorem State.setDu_hostMiss (s : State) (n : Nat) (k : DuUnit) : (s.setDu n k).hostMiss = s.hostMiss := rfl
@[simp] theorem State.setDu_regs (s : State) (n : Nat) (k : DuUnit) : (s.setDu n k).regs = s.regs := rfl
@[simp] theorem State.setDu_latches (s : State) (n : Nat) (k : DuUnit) : (s.setDu n k).latches = s.latches := rfl
@[simp] theorem State.setDu_stalls (s : State) (n : Nat) (k : DuUnit) : (s.setDu n k).stalls = s.stalls := rfl
@[simp] theorem State.setDu_parity (s : State) (n : Nat) (k : DuUnit) : (s.setDu n k).parity = s.parity := rfl
@[simp] theorem State.setDu_parityLive (s : State) (n : Nat) (k : DuUnit) : (s.setDu n k).parityLive = s.parityLive := rfl
@[simp] theorem State.setDu_regErr (s : State) (n : Nat) (k : DuUnit) : (s.setDu n k).regErr = s.regErr := rfl
@[simp] theorem State.setDu_pps (s : State) (n : Nat) (k : DuUnit) : (s.setDu n k).pps = s.pps := rfl
@[simp] theorem State.setDu_legs (s : State) (n : Nat) (k : DuUnit) : (s.setDu n k).legs = s.legs := rfl
@[simp] theorem State.setDu_nextLeg (s : State) (n : Nat) (k : DuUnit) : (s.setDu n k).nextLeg = s.nextLeg := rfl
@[simp] theorem State.setDu_order (s : State) (n : Nat) (k : DuUnit) : (s.setDu n k).order = s.order := rfl
@[simp] theorem State.setDu_cls (s : State) (n : Nat) (k : DuUnit) : (s.setDu n k).cls = s.cls := rfl
@[simp] theorem State.setDu_ioWalk (s : State) (n : Nat) (k : DuUnit) : (s.setDu n k).ioWalk = s.ioWalk := rfl
@[simp] theorem State.setDu_ioTlb (s : State) (n : Nat) (k : DuUnit) : (s.setDu n k).ioTlb = s.ioTlb := rfl
@[simp] theorem State.setDu_stu (s : State) (n : Nat) (k : DuUnit) : (s.setDu n k).stu = s.stu := rfl
@[simp] theorem State.setDu_stuWalk (s : State) (n : Nat) (k : DuUnit) : (s.setDu n k).stuWalk = s.stuWalk := rfl
@[simp] theorem State.setDu_xinvDone (s : State) (n : Nat) (k : DuUnit) : (s.setDu n k).xinvDone = s.xinvDone := rfl
@[simp] theorem State.setDu_fc (s : State) (n : Nat) (k : DuUnit) : (s.setDu n k).fc = s.fc := rfl
@[simp] theorem State.setDu_fcClose (s : State) (n : Nat) (k : DuUnit) : (s.setDu n k).fcClose = s.fcClose := rfl
@[simp] theorem State.setDu_schedTick (s : State) (n : Nat) (k : DuUnit) : (s.setDu n k).schedTick = s.schedTick := rfl
@[simp] theorem State.setDu_sqs (s : State) (n : Nat) (k : DuUnit) : (s.setDu n k).sqs = s.sqs := rfl
@[simp] theorem State.setDu_cqs (s : State) (n : Nat) (k : DuUnit) : (s.setDu n k).cqs = s.cqs := rfl
@[simp] theorem State.setDu_admin (s : State) (n : Nat) (k : DuUnit) : (s.setDu n k).admin = s.admin := rfl
@[simp] theorem State.setDu_parts (s : State) (n : Nat) (k : DuUnit) : (s.setDu n k).parts = s.parts := rfl
@[simp] theorem State.setDu_quenchDone (s : State) (n : Nat) (k : DuUnit) : (s.setDu n k).quenchDone = s.quenchDone := rfl
@[simp] theorem State.setDu_quenchWait (s : State) (n : Nat) (k : DuUnit) : (s.setDu n k).quenchWait = s.quenchWait := rfl
@[simp] theorem State.setDu_copies (s : State) (n : Nat) (k : DuUnit) : (s.setDu n k).copies = s.copies := rfl
@[simp] theorem State.setDu_err (s : State) (n : Nat) (k : DuUnit) : (s.setDu n k).err = s.err := rfl
@[simp] theorem State.setDu_evtMap (s : State) (n : Nat) (k : DuUnit) : (s.setDu n k).evtMap = s.evtMap := rfl
@[simp] theorem State.setDu_evtPend (s : State) (n : Nat) (k : DuUnit) : (s.setDu n k).evtPend = s.evtPend := rfl
@[simp] theorem State.setDu_asaCfg (s : State) (n : Nat) (k : DuUnit) : (s.setDu n k).asaCfg = s.asaCfg := rfl
@[simp] theorem State.setDu_asa (s : State) (n : Nat) (k : DuUnit) : (s.setDu n k).asa = s.asa := rfl
@[simp] theorem State.setDu_asaSets (s : State) (n : Nat) (k : DuUnit) : (s.setDu n k).asaSets = s.asaSets := rfl
@[simp] theorem State.setDu_cursors (s : State) (n : Nat) (k : DuUnit) : (s.setDu n k).cursors = s.cursors := rfl
@[simp] theorem State.setDu_asaErr (s : State) (n : Nat) (k : DuUnit) : (s.setDu n k).asaErr = s.asaErr := rfl
@[simp] theorem State.setDu_duQueue (s : State) (n : Nat) (k : DuUnit) : (s.setDu n k).duQueue = s.duQueue := rfl
@[simp] theorem State.setDu_duPreempts (s : State) (n : Nat) (k : DuUnit) : (s.setDu n k).duPreempts = s.duPreempts := rfl
@[simp] theorem State.setDu_dcs (s : State) (n : Nat) (k : DuUnit) : (s.setDu n k).dcs = s.dcs := rfl
@[simp] theorem State.setDu_ddrSet (s : State) (n : Nat) (k : DuUnit) : (s.setDu n k).ddrSet = s.ddrSet := rfl
@[simp] theorem State.setDu_ddrGib (s : State) (n : Nat) (k : DuUnit) : (s.setDu n k).ddrGib = s.ddrGib := rfl
@[simp] theorem State.setDu_hps (s : State) (n : Nat) (k : DuUnit) : (s.setDu n k).hps = s.hps := rfl
@[simp] theorem State.setDu_drives (s : State) (n : Nat) (k : DuUnit) : (s.setDu n k).drives = s.drives := rfl
@[simp] theorem State.setDu_grants (s : State) (n : Nat) (k : DuUnit) : (s.setDu n k).grants = s.grants := rfl
@[simp] theorem State.setDu_reqs (s : State) (n : Nat) (k : DuUnit) : (s.setDu n k).reqs = s.reqs := rfl
@[simp] theorem State.setDu_cmds (s : State) (n : Nat) (k : DuUnit) : (s.setDu n k).cmds = s.cmds := rfl
@[simp] theorem State.setDu_nextReq (s : State) (n : Nat) (k : DuUnit) : (s.setDu n k).nextReq = s.nextReq := rfl
@[simp] theorem State.setDu_chain (s : State) (n : Nat) (k : DuUnit) : (s.setDu n k).chain = s.chain := rfl
@[simp] theorem State.setDu_pm (s : State) (n : Nat) (k : DuUnit) : (s.setDu n k).pm = s.pm := rfl
@[simp] theorem State.setDu_ks (s : State) (n : Nat) (k : DuUnit) : (s.setDu n k).ks = s.ks := rfl
@[simp] theorem State.setDu_dbg (s : State) (n : Nat) (k : DuUnit) : (s.setDu n k).dbg = s.dbg := rfl
@[simp] theorem State.setDu_out (s : State) (n : Nat) (k : DuUnit) : (s.setDu n k).out = s.out := rfl
@[simp] theorem State.setAsaSet_pending (s : State) (n : Nat) (k : AsaSet) : (s.setAsaSet n k).pending = s.pending := rfl
@[simp] theorem State.setAsaSet_freeSeq (s : State) (n : Nat) (k : AsaSet) : (s.setAsaSet n k).freeSeq = s.freeSeq := rfl
@[simp] theorem State.setAsaSet_mem (s : State) (n : Nat) (k : AsaSet) : (s.setAsaSet n k).mem = s.mem := rfl
@[simp] theorem State.setAsaSet_bad (s : State) (n : Nat) (k : AsaSet) : (s.setAsaSet n k).bad = s.bad := rfl
@[simp] theorem State.setAsaSet_hostBad (s : State) (n : Nat) (k : AsaSet) : (s.setAsaSet n k).hostBad = s.hostBad := rfl
@[simp] theorem State.setAsaSet_hostWant (s : State) (n : Nat) (k : AsaSet) : (s.setAsaSet n k).hostWant = s.hostWant := rfl
@[simp] theorem State.setAsaSet_hostGot (s : State) (n : Nat) (k : AsaSet) : (s.setAsaSet n k).hostGot = s.hostGot := rfl
@[simp] theorem State.setAsaSet_hostMiss (s : State) (n : Nat) (k : AsaSet) : (s.setAsaSet n k).hostMiss = s.hostMiss := rfl
@[simp] theorem State.setAsaSet_regs (s : State) (n : Nat) (k : AsaSet) : (s.setAsaSet n k).regs = s.regs := rfl
@[simp] theorem State.setAsaSet_latches (s : State) (n : Nat) (k : AsaSet) : (s.setAsaSet n k).latches = s.latches := rfl
@[simp] theorem State.setAsaSet_stalls (s : State) (n : Nat) (k : AsaSet) : (s.setAsaSet n k).stalls = s.stalls := rfl
@[simp] theorem State.setAsaSet_parity (s : State) (n : Nat) (k : AsaSet) : (s.setAsaSet n k).parity = s.parity := rfl
@[simp] theorem State.setAsaSet_parityLive (s : State) (n : Nat) (k : AsaSet) : (s.setAsaSet n k).parityLive = s.parityLive := rfl
@[simp] theorem State.setAsaSet_regErr (s : State) (n : Nat) (k : AsaSet) : (s.setAsaSet n k).regErr = s.regErr := rfl
@[simp] theorem State.setAsaSet_pps (s : State) (n : Nat) (k : AsaSet) : (s.setAsaSet n k).pps = s.pps := rfl
@[simp] theorem State.setAsaSet_legs (s : State) (n : Nat) (k : AsaSet) : (s.setAsaSet n k).legs = s.legs := rfl
@[simp] theorem State.setAsaSet_nextLeg (s : State) (n : Nat) (k : AsaSet) : (s.setAsaSet n k).nextLeg = s.nextLeg := rfl
@[simp] theorem State.setAsaSet_order (s : State) (n : Nat) (k : AsaSet) : (s.setAsaSet n k).order = s.order := rfl
@[simp] theorem State.setAsaSet_cls (s : State) (n : Nat) (k : AsaSet) : (s.setAsaSet n k).cls = s.cls := rfl
@[simp] theorem State.setAsaSet_ioWalk (s : State) (n : Nat) (k : AsaSet) : (s.setAsaSet n k).ioWalk = s.ioWalk := rfl
@[simp] theorem State.setAsaSet_ioTlb (s : State) (n : Nat) (k : AsaSet) : (s.setAsaSet n k).ioTlb = s.ioTlb := rfl
@[simp] theorem State.setAsaSet_stu (s : State) (n : Nat) (k : AsaSet) : (s.setAsaSet n k).stu = s.stu := rfl
@[simp] theorem State.setAsaSet_stuWalk (s : State) (n : Nat) (k : AsaSet) : (s.setAsaSet n k).stuWalk = s.stuWalk := rfl
@[simp] theorem State.setAsaSet_xinvDone (s : State) (n : Nat) (k : AsaSet) : (s.setAsaSet n k).xinvDone = s.xinvDone := rfl
@[simp] theorem State.setAsaSet_fc (s : State) (n : Nat) (k : AsaSet) : (s.setAsaSet n k).fc = s.fc := rfl
@[simp] theorem State.setAsaSet_fcClose (s : State) (n : Nat) (k : AsaSet) : (s.setAsaSet n k).fcClose = s.fcClose := rfl
@[simp] theorem State.setAsaSet_schedTick (s : State) (n : Nat) (k : AsaSet) : (s.setAsaSet n k).schedTick = s.schedTick := rfl
@[simp] theorem State.setAsaSet_sqs (s : State) (n : Nat) (k : AsaSet) : (s.setAsaSet n k).sqs = s.sqs := rfl
@[simp] theorem State.setAsaSet_cqs (s : State) (n : Nat) (k : AsaSet) : (s.setAsaSet n k).cqs = s.cqs := rfl
@[simp] theorem State.setAsaSet_admin (s : State) (n : Nat) (k : AsaSet) : (s.setAsaSet n k).admin = s.admin := rfl
@[simp] theorem State.setAsaSet_parts (s : State) (n : Nat) (k : AsaSet) : (s.setAsaSet n k).parts = s.parts := rfl
@[simp] theorem State.setAsaSet_quenchDone (s : State) (n : Nat) (k : AsaSet) : (s.setAsaSet n k).quenchDone = s.quenchDone := rfl
@[simp] theorem State.setAsaSet_quenchWait (s : State) (n : Nat) (k : AsaSet) : (s.setAsaSet n k).quenchWait = s.quenchWait := rfl
@[simp] theorem State.setAsaSet_copies (s : State) (n : Nat) (k : AsaSet) : (s.setAsaSet n k).copies = s.copies := rfl
@[simp] theorem State.setAsaSet_err (s : State) (n : Nat) (k : AsaSet) : (s.setAsaSet n k).err = s.err := rfl
@[simp] theorem State.setAsaSet_evtMap (s : State) (n : Nat) (k : AsaSet) : (s.setAsaSet n k).evtMap = s.evtMap := rfl
@[simp] theorem State.setAsaSet_evtPend (s : State) (n : Nat) (k : AsaSet) : (s.setAsaSet n k).evtPend = s.evtPend := rfl
@[simp] theorem State.setAsaSet_asaCfg (s : State) (n : Nat) (k : AsaSet) : (s.setAsaSet n k).asaCfg = s.asaCfg := rfl
@[simp] theorem State.setAsaSet_asa (s : State) (n : Nat) (k : AsaSet) : (s.setAsaSet n k).asa = s.asa := rfl
@[simp] theorem State.setAsaSet_cursors (s : State) (n : Nat) (k : AsaSet) : (s.setAsaSet n k).cursors = s.cursors := rfl
@[simp] theorem State.setAsaSet_asaErr (s : State) (n : Nat) (k : AsaSet) : (s.setAsaSet n k).asaErr = s.asaErr := rfl
@[simp] theorem State.setAsaSet_duQueue (s : State) (n : Nat) (k : AsaSet) : (s.setAsaSet n k).duQueue = s.duQueue := rfl
@[simp] theorem State.setAsaSet_dus (s : State) (n : Nat) (k : AsaSet) : (s.setAsaSet n k).dus = s.dus := rfl
@[simp] theorem State.setAsaSet_duPreempts (s : State) (n : Nat) (k : AsaSet) : (s.setAsaSet n k).duPreempts = s.duPreempts := rfl
@[simp] theorem State.setAsaSet_dcs (s : State) (n : Nat) (k : AsaSet) : (s.setAsaSet n k).dcs = s.dcs := rfl
@[simp] theorem State.setAsaSet_ddrSet (s : State) (n : Nat) (k : AsaSet) : (s.setAsaSet n k).ddrSet = s.ddrSet := rfl
@[simp] theorem State.setAsaSet_ddrGib (s : State) (n : Nat) (k : AsaSet) : (s.setAsaSet n k).ddrGib = s.ddrGib := rfl
@[simp] theorem State.setAsaSet_hps (s : State) (n : Nat) (k : AsaSet) : (s.setAsaSet n k).hps = s.hps := rfl
@[simp] theorem State.setAsaSet_drives (s : State) (n : Nat) (k : AsaSet) : (s.setAsaSet n k).drives = s.drives := rfl
@[simp] theorem State.setAsaSet_grants (s : State) (n : Nat) (k : AsaSet) : (s.setAsaSet n k).grants = s.grants := rfl
@[simp] theorem State.setAsaSet_reqs (s : State) (n : Nat) (k : AsaSet) : (s.setAsaSet n k).reqs = s.reqs := rfl
@[simp] theorem State.setAsaSet_cmds (s : State) (n : Nat) (k : AsaSet) : (s.setAsaSet n k).cmds = s.cmds := rfl
@[simp] theorem State.setAsaSet_nextReq (s : State) (n : Nat) (k : AsaSet) : (s.setAsaSet n k).nextReq = s.nextReq := rfl
@[simp] theorem State.setAsaSet_chain (s : State) (n : Nat) (k : AsaSet) : (s.setAsaSet n k).chain = s.chain := rfl
@[simp] theorem State.setAsaSet_pm (s : State) (n : Nat) (k : AsaSet) : (s.setAsaSet n k).pm = s.pm := rfl
@[simp] theorem State.setAsaSet_ks (s : State) (n : Nat) (k : AsaSet) : (s.setAsaSet n k).ks = s.ks := rfl
@[simp] theorem State.setAsaSet_dbg (s : State) (n : Nat) (k : AsaSet) : (s.setAsaSet n k).dbg = s.dbg := rfl
@[simp] theorem State.setAsaSet_out (s : State) (n : Nat) (k : AsaSet) : (s.setAsaSet n k).out = s.out := rfl
@[simp] theorem State.emit_pending (s : State) (o : Out) : (s.emit o).pending = s.pending := rfl
@[simp] theorem State.emit_freeSeq (s : State) (o : Out) : (s.emit o).freeSeq = s.freeSeq := rfl
@[simp] theorem State.emit_mem (s : State) (o : Out) : (s.emit o).mem = s.mem := rfl
@[simp] theorem State.emit_bad (s : State) (o : Out) : (s.emit o).bad = s.bad := rfl
@[simp] theorem State.emit_hostBad (s : State) (o : Out) : (s.emit o).hostBad = s.hostBad := rfl
@[simp] theorem State.emit_hostWant (s : State) (o : Out) : (s.emit o).hostWant = s.hostWant := rfl
@[simp] theorem State.emit_hostGot (s : State) (o : Out) : (s.emit o).hostGot = s.hostGot := rfl
@[simp] theorem State.emit_hostMiss (s : State) (o : Out) : (s.emit o).hostMiss = s.hostMiss := rfl
@[simp] theorem State.emit_regs (s : State) (o : Out) : (s.emit o).regs = s.regs := rfl
@[simp] theorem State.emit_latches (s : State) (o : Out) : (s.emit o).latches = s.latches := rfl
@[simp] theorem State.emit_stalls (s : State) (o : Out) : (s.emit o).stalls = s.stalls := rfl
@[simp] theorem State.emit_parity (s : State) (o : Out) : (s.emit o).parity = s.parity := rfl
@[simp] theorem State.emit_parityLive (s : State) (o : Out) : (s.emit o).parityLive = s.parityLive := rfl
@[simp] theorem State.emit_regErr (s : State) (o : Out) : (s.emit o).regErr = s.regErr := rfl
@[simp] theorem State.emit_pps (s : State) (o : Out) : (s.emit o).pps = s.pps := rfl
@[simp] theorem State.emit_legs (s : State) (o : Out) : (s.emit o).legs = s.legs := rfl
@[simp] theorem State.emit_nextLeg (s : State) (o : Out) : (s.emit o).nextLeg = s.nextLeg := rfl
@[simp] theorem State.emit_order (s : State) (o : Out) : (s.emit o).order = s.order := rfl
@[simp] theorem State.emit_cls (s : State) (o : Out) : (s.emit o).cls = s.cls := rfl
@[simp] theorem State.emit_ioWalk (s : State) (o : Out) : (s.emit o).ioWalk = s.ioWalk := rfl
@[simp] theorem State.emit_ioTlb (s : State) (o : Out) : (s.emit o).ioTlb = s.ioTlb := rfl
@[simp] theorem State.emit_stu (s : State) (o : Out) : (s.emit o).stu = s.stu := rfl
@[simp] theorem State.emit_stuWalk (s : State) (o : Out) : (s.emit o).stuWalk = s.stuWalk := rfl
@[simp] theorem State.emit_xinvDone (s : State) (o : Out) : (s.emit o).xinvDone = s.xinvDone := rfl
@[simp] theorem State.emit_fc (s : State) (o : Out) : (s.emit o).fc = s.fc := rfl
@[simp] theorem State.emit_fcClose (s : State) (o : Out) : (s.emit o).fcClose = s.fcClose := rfl
@[simp] theorem State.emit_schedTick (s : State) (o : Out) : (s.emit o).schedTick = s.schedTick := rfl
@[simp] theorem State.emit_sqs (s : State) (o : Out) : (s.emit o).sqs = s.sqs := rfl
@[simp] theorem State.emit_cqs (s : State) (o : Out) : (s.emit o).cqs = s.cqs := rfl
@[simp] theorem State.emit_admin (s : State) (o : Out) : (s.emit o).admin = s.admin := rfl
@[simp] theorem State.emit_parts (s : State) (o : Out) : (s.emit o).parts = s.parts := rfl
@[simp] theorem State.emit_quenchDone (s : State) (o : Out) : (s.emit o).quenchDone = s.quenchDone := rfl
@[simp] theorem State.emit_quenchWait (s : State) (o : Out) : (s.emit o).quenchWait = s.quenchWait := rfl
@[simp] theorem State.emit_copies (s : State) (o : Out) : (s.emit o).copies = s.copies := rfl
@[simp] theorem State.emit_err (s : State) (o : Out) : (s.emit o).err = s.err := rfl
@[simp] theorem State.emit_evtMap (s : State) (o : Out) : (s.emit o).evtMap = s.evtMap := rfl
@[simp] theorem State.emit_evtPend (s : State) (o : Out) : (s.emit o).evtPend = s.evtPend := rfl
@[simp] theorem State.emit_asaCfg (s : State) (o : Out) : (s.emit o).asaCfg = s.asaCfg := rfl
@[simp] theorem State.emit_asa (s : State) (o : Out) : (s.emit o).asa = s.asa := rfl
@[simp] theorem State.emit_asaSets (s : State) (o : Out) : (s.emit o).asaSets = s.asaSets := rfl
@[simp] theorem State.emit_cursors (s : State) (o : Out) : (s.emit o).cursors = s.cursors := rfl
@[simp] theorem State.emit_asaErr (s : State) (o : Out) : (s.emit o).asaErr = s.asaErr := rfl
@[simp] theorem State.emit_duQueue (s : State) (o : Out) : (s.emit o).duQueue = s.duQueue := rfl
@[simp] theorem State.emit_dus (s : State) (o : Out) : (s.emit o).dus = s.dus := rfl
@[simp] theorem State.emit_duPreempts (s : State) (o : Out) : (s.emit o).duPreempts = s.duPreempts := rfl
@[simp] theorem State.emit_dcs (s : State) (o : Out) : (s.emit o).dcs = s.dcs := rfl
@[simp] theorem State.emit_ddrSet (s : State) (o : Out) : (s.emit o).ddrSet = s.ddrSet := rfl
@[simp] theorem State.emit_ddrGib (s : State) (o : Out) : (s.emit o).ddrGib = s.ddrGib := rfl
@[simp] theorem State.emit_hps (s : State) (o : Out) : (s.emit o).hps = s.hps := rfl
@[simp] theorem State.emit_drives (s : State) (o : Out) : (s.emit o).drives = s.drives := rfl
@[simp] theorem State.emit_grants (s : State) (o : Out) : (s.emit o).grants = s.grants := rfl
@[simp] theorem State.emit_reqs (s : State) (o : Out) : (s.emit o).reqs = s.reqs := rfl
@[simp] theorem State.emit_cmds (s : State) (o : Out) : (s.emit o).cmds = s.cmds := rfl
@[simp] theorem State.emit_nextReq (s : State) (o : Out) : (s.emit o).nextReq = s.nextReq := rfl
@[simp] theorem State.emit_chain (s : State) (o : Out) : (s.emit o).chain = s.chain := rfl
@[simp] theorem State.emit_pm (s : State) (o : Out) : (s.emit o).pm = s.pm := rfl
@[simp] theorem State.emit_ks (s : State) (o : Out) : (s.emit o).ks = s.ks := rfl
@[simp] theorem State.emit_dbg (s : State) (o : Out) : (s.emit o).dbg = s.dbg := rfl
@[simp] theorem State.emit_out (s : State) (o : Out) : (s.emit o).out = o :: s.out := rfl

/-! ### Registers of a PP -/

@[simp] theorem Pp.setV_mode (p : Pp) (r : Nat) (v : VReg) : (p.setV r v).mode = p.mode := rfl
@[simp] theorem Pp.setV_running (p : Pp) (r : Nat) (v : VReg) : (p.setV r v).running = p.running := rfl
@[simp] theorem Pp.setV_nextSlot (p : Pp) (r : Nat) (v : VReg) : (p.setV r v).nextSlot = p.nextSlot := rfl
@[simp] theorem Pp.setV_pc (p : Pp) (r : Nat) (v : VReg) : (p.setV r v).pc = p.pc := rfl
@[simp] theorem Pp.setV_x (p : Pp) (r : Nat) (v : VReg) : (p.setV r v).x = p.x := rfl
@[simp] theorem Pp.setV_m (p : Pp) (r : Nat) (v : VReg) : (p.setV r v).m = p.m := rfl
@[simp] theorem Pp.setV_vl (p : Pp) (r : Nat) (v : VReg) : (p.setV r v).vl = p.vl := rfl
@[simp] theorem Pp.setV_vcfg (p : Pp) (r : Nat) (v : VReg) : (p.setV r v).vcfg = p.vcfg := rfl
@[simp] theorem Pp.setV_vresume (p : Pp) (r : Nat) (v : VReg) : (p.setV r v).vresume = p.vresume := rfl
@[simp] theorem Pp.setV_vfault (p : Pp) (r : Nat) (v : VReg) : (p.setV r v).vfault = p.vfault := rfl
@[simp] theorem Pp.setV_csr (p : Pp) (r : Nat) (v : VReg) : (p.setV r v).csr = p.csr := rfl
@[simp] theorem Pp.setV_tlb (p : Pp) (r : Nat) (v : VReg) : (p.setV r v).tlb = p.tlb := rfl
@[simp] theorem Pp.setV_l1d (p : Pp) (r : Nat) (v : VReg) : (p.setV r v).l1d = p.l1d := rfl
@[simp] theorem Pp.setV_l1dPlru (p : Pp) (r : Nat) (v : VReg) : (p.setV r v).l1dPlru = p.l1dPlru := rfl
@[simp] theorem Pp.setV_l1i (p : Pp) (r : Nat) (v : VReg) : (p.setV r v).l1i = p.l1i := rfl
@[simp] theorem Pp.setV_l1iPlru (p : Pp) (r : Nat) (v : VReg) : (p.setV r v).l1iPlru = p.l1iPlru := rfl
@[simp] theorem Pp.setV_halted (p : Pp) (r : Nat) (v : VReg) : (p.setV r v).halted = p.halted := rfl
@[simp] theorem Pp.setV_dbg (p : Pp) (r : Nat) (v : VReg) : (p.setV r v).dbg = p.dbg := rfl
@[simp] theorem Pp.setV_stopPend (p : Pp) (r : Nat) (v : VReg) : (p.setV r v).stopPend = p.stopPend := rfl
@[simp] theorem Pp.setV_blocked (p : Pp) (r : Nat) (v : VReg) : (p.setV r v).blocked = p.blocked := rfl
@[simp] theorem Pp.setV_hostReady (p : Pp) (r : Nat) (v : VReg) : (p.setV r v).hostReady = p.hostReady := rfl
@[simp] theorem Pp.setV_hostAt (p : Pp) (r : Nat) (v : VReg) : (p.setV r v).hostAt = p.hostAt := rfl
@[simp] theorem Pp.setV_hostDrop (p : Pp) (r : Nat) (v : VReg) : (p.setV r v).hostDrop = p.hostDrop := rfl
@[simp] theorem Pp.setV_hostDev (p : Pp) (r : Nat) (v : VReg) : (p.setV r v).hostDev = p.hostDev := rfl
@[simp] theorem Pp.setV_ffPast (p : Pp) (r : Nat) (v : VReg) : (p.setV r v).ffPast = p.ffPast := rfl
@[simp] theorem Pp.setV_l1Bad (p : Pp) (r : Nat) (v : VReg) : (p.setV r v).l1Bad = p.l1Bad := rfl
@[simp] theorem Pp.setV_hostSeen (p : Pp) (r : Nat) (v : VReg) : (p.setV r v).hostSeen = p.hostSeen := rfl
@[simp] theorem Pp.setV_hostLeft (p : Pp) (r : Nat) (v : VReg) : (p.setV r v).hostLeft = p.hostLeft := rfl
@[simp] theorem Pp.setV_eltAt (p : Pp) (r : Nat) (v : VReg) : (p.setV r v).eltAt = p.eltAt := rfl
@[simp] theorem Pp.setV_charged (p : Pp) (r : Nat) (v : VReg) : (p.setV r v).charged = p.charged := rfl
@[simp] theorem Pp.setV_walked (p : Pp) (r : Nat) (v : VReg) : (p.setV r v).walked = p.walked := rfl
@[simp] theorem Pp.getV_setV (p : Pp) (r : Nat) (v : VReg) : (p.setV r v).getV r = v := by
  simp [Pp.getV, Pp.setV]
theorem Pp.getV_setV_other (p : Pp) {r q : Nat} (v : VReg) (h : q ≠ r) : (p.setV r v).getV q = p.getV q := by
  simp [Pp.getV, Pp.setV, tgetD_tput_other _ _ _ h]
@[simp] theorem Pp.setM_mode (p : Pp) (r : Nat) (v : VReg) : (p.setM r v).mode = p.mode := rfl
@[simp] theorem Pp.setM_running (p : Pp) (r : Nat) (v : VReg) : (p.setM r v).running = p.running := rfl
@[simp] theorem Pp.setM_nextSlot (p : Pp) (r : Nat) (v : VReg) : (p.setM r v).nextSlot = p.nextSlot := rfl
@[simp] theorem Pp.setM_pc (p : Pp) (r : Nat) (v : VReg) : (p.setM r v).pc = p.pc := rfl
@[simp] theorem Pp.setM_x (p : Pp) (r : Nat) (v : VReg) : (p.setM r v).x = p.x := rfl
@[simp] theorem Pp.setM_v (p : Pp) (r : Nat) (v : VReg) : (p.setM r v).v = p.v := rfl
@[simp] theorem Pp.setM_vl (p : Pp) (r : Nat) (v : VReg) : (p.setM r v).vl = p.vl := rfl
@[simp] theorem Pp.setM_vcfg (p : Pp) (r : Nat) (v : VReg) : (p.setM r v).vcfg = p.vcfg := rfl
@[simp] theorem Pp.setM_vresume (p : Pp) (r : Nat) (v : VReg) : (p.setM r v).vresume = p.vresume := rfl
@[simp] theorem Pp.setM_vfault (p : Pp) (r : Nat) (v : VReg) : (p.setM r v).vfault = p.vfault := rfl
@[simp] theorem Pp.setM_csr (p : Pp) (r : Nat) (v : VReg) : (p.setM r v).csr = p.csr := rfl
@[simp] theorem Pp.setM_tlb (p : Pp) (r : Nat) (v : VReg) : (p.setM r v).tlb = p.tlb := rfl
@[simp] theorem Pp.setM_l1d (p : Pp) (r : Nat) (v : VReg) : (p.setM r v).l1d = p.l1d := rfl
@[simp] theorem Pp.setM_l1dPlru (p : Pp) (r : Nat) (v : VReg) : (p.setM r v).l1dPlru = p.l1dPlru := rfl
@[simp] theorem Pp.setM_l1i (p : Pp) (r : Nat) (v : VReg) : (p.setM r v).l1i = p.l1i := rfl
@[simp] theorem Pp.setM_l1iPlru (p : Pp) (r : Nat) (v : VReg) : (p.setM r v).l1iPlru = p.l1iPlru := rfl
@[simp] theorem Pp.setM_halted (p : Pp) (r : Nat) (v : VReg) : (p.setM r v).halted = p.halted := rfl
@[simp] theorem Pp.setM_dbg (p : Pp) (r : Nat) (v : VReg) : (p.setM r v).dbg = p.dbg := rfl
@[simp] theorem Pp.setM_stopPend (p : Pp) (r : Nat) (v : VReg) : (p.setM r v).stopPend = p.stopPend := rfl
@[simp] theorem Pp.setM_blocked (p : Pp) (r : Nat) (v : VReg) : (p.setM r v).blocked = p.blocked := rfl
@[simp] theorem Pp.setM_hostReady (p : Pp) (r : Nat) (v : VReg) : (p.setM r v).hostReady = p.hostReady := rfl
@[simp] theorem Pp.setM_hostAt (p : Pp) (r : Nat) (v : VReg) : (p.setM r v).hostAt = p.hostAt := rfl
@[simp] theorem Pp.setM_hostDrop (p : Pp) (r : Nat) (v : VReg) : (p.setM r v).hostDrop = p.hostDrop := rfl
@[simp] theorem Pp.setM_hostDev (p : Pp) (r : Nat) (v : VReg) : (p.setM r v).hostDev = p.hostDev := rfl
@[simp] theorem Pp.setM_ffPast (p : Pp) (r : Nat) (v : VReg) : (p.setM r v).ffPast = p.ffPast := rfl
@[simp] theorem Pp.setM_l1Bad (p : Pp) (r : Nat) (v : VReg) : (p.setM r v).l1Bad = p.l1Bad := rfl
@[simp] theorem Pp.setM_hostSeen (p : Pp) (r : Nat) (v : VReg) : (p.setM r v).hostSeen = p.hostSeen := rfl
@[simp] theorem Pp.setM_hostLeft (p : Pp) (r : Nat) (v : VReg) : (p.setM r v).hostLeft = p.hostLeft := rfl
@[simp] theorem Pp.setM_eltAt (p : Pp) (r : Nat) (v : VReg) : (p.setM r v).eltAt = p.eltAt := rfl
@[simp] theorem Pp.setM_charged (p : Pp) (r : Nat) (v : VReg) : (p.setM r v).charged = p.charged := rfl
@[simp] theorem Pp.setM_walked (p : Pp) (r : Nat) (v : VReg) : (p.setM r v).walked = p.walked := rfl
@[simp] theorem Pp.getM_setM (p : Pp) (r : Nat) (v : VReg) : (p.setM r v).getM r = v := by
  simp [Pp.getM, Pp.setM]
theorem Pp.getM_setM_other (p : Pp) {r q : Nat} (v : VReg) (h : q ≠ r) : (p.setM r v).getM q = p.getM q := by
  simp [Pp.getM, Pp.setM, tgetD_tput_other _ _ _ h]
@[simp] theorem Pp.setCsr_mode (p : Pp) (r : Nat) (v : Word) : (p.setCsr r v).mode = p.mode := rfl
@[simp] theorem Pp.setCsr_running (p : Pp) (r : Nat) (v : Word) : (p.setCsr r v).running = p.running := rfl
@[simp] theorem Pp.setCsr_nextSlot (p : Pp) (r : Nat) (v : Word) : (p.setCsr r v).nextSlot = p.nextSlot := rfl
@[simp] theorem Pp.setCsr_pc (p : Pp) (r : Nat) (v : Word) : (p.setCsr r v).pc = p.pc := rfl
@[simp] theorem Pp.setCsr_x (p : Pp) (r : Nat) (v : Word) : (p.setCsr r v).x = p.x := rfl
@[simp] theorem Pp.setCsr_v (p : Pp) (r : Nat) (v : Word) : (p.setCsr r v).v = p.v := rfl
@[simp] theorem Pp.setCsr_m (p : Pp) (r : Nat) (v : Word) : (p.setCsr r v).m = p.m := rfl
@[simp] theorem Pp.setCsr_vl (p : Pp) (r : Nat) (v : Word) : (p.setCsr r v).vl = p.vl := rfl
@[simp] theorem Pp.setCsr_vcfg (p : Pp) (r : Nat) (v : Word) : (p.setCsr r v).vcfg = p.vcfg := rfl
@[simp] theorem Pp.setCsr_vresume (p : Pp) (r : Nat) (v : Word) : (p.setCsr r v).vresume = p.vresume := rfl
@[simp] theorem Pp.setCsr_vfault (p : Pp) (r : Nat) (v : Word) : (p.setCsr r v).vfault = p.vfault := rfl
@[simp] theorem Pp.setCsr_tlb (p : Pp) (r : Nat) (v : Word) : (p.setCsr r v).tlb = p.tlb := rfl
@[simp] theorem Pp.setCsr_l1d (p : Pp) (r : Nat) (v : Word) : (p.setCsr r v).l1d = p.l1d := rfl
@[simp] theorem Pp.setCsr_l1dPlru (p : Pp) (r : Nat) (v : Word) : (p.setCsr r v).l1dPlru = p.l1dPlru := rfl
@[simp] theorem Pp.setCsr_l1i (p : Pp) (r : Nat) (v : Word) : (p.setCsr r v).l1i = p.l1i := rfl
@[simp] theorem Pp.setCsr_l1iPlru (p : Pp) (r : Nat) (v : Word) : (p.setCsr r v).l1iPlru = p.l1iPlru := rfl
@[simp] theorem Pp.setCsr_halted (p : Pp) (r : Nat) (v : Word) : (p.setCsr r v).halted = p.halted := rfl
@[simp] theorem Pp.setCsr_dbg (p : Pp) (r : Nat) (v : Word) : (p.setCsr r v).dbg = p.dbg := rfl
@[simp] theorem Pp.setCsr_stopPend (p : Pp) (r : Nat) (v : Word) : (p.setCsr r v).stopPend = p.stopPend := rfl
@[simp] theorem Pp.setCsr_blocked (p : Pp) (r : Nat) (v : Word) : (p.setCsr r v).blocked = p.blocked := rfl
@[simp] theorem Pp.setCsr_hostReady (p : Pp) (r : Nat) (v : Word) : (p.setCsr r v).hostReady = p.hostReady := rfl
@[simp] theorem Pp.setCsr_hostAt (p : Pp) (r : Nat) (v : Word) : (p.setCsr r v).hostAt = p.hostAt := rfl
@[simp] theorem Pp.setCsr_hostDrop (p : Pp) (r : Nat) (v : Word) : (p.setCsr r v).hostDrop = p.hostDrop := rfl
@[simp] theorem Pp.setCsr_hostDev (p : Pp) (r : Nat) (v : Word) : (p.setCsr r v).hostDev = p.hostDev := rfl
@[simp] theorem Pp.setCsr_ffPast (p : Pp) (r : Nat) (v : Word) : (p.setCsr r v).ffPast = p.ffPast := rfl
@[simp] theorem Pp.setCsr_l1Bad (p : Pp) (r : Nat) (v : Word) : (p.setCsr r v).l1Bad = p.l1Bad := rfl
@[simp] theorem Pp.setCsr_hostSeen (p : Pp) (r : Nat) (v : Word) : (p.setCsr r v).hostSeen = p.hostSeen := rfl
@[simp] theorem Pp.setCsr_hostLeft (p : Pp) (r : Nat) (v : Word) : (p.setCsr r v).hostLeft = p.hostLeft := rfl
@[simp] theorem Pp.setCsr_eltAt (p : Pp) (r : Nat) (v : Word) : (p.setCsr r v).eltAt = p.eltAt := rfl
@[simp] theorem Pp.setCsr_charged (p : Pp) (r : Nat) (v : Word) : (p.setCsr r v).charged = p.charged := rfl
@[simp] theorem Pp.setCsr_walked (p : Pp) (r : Nat) (v : Word) : (p.setCsr r v).walked = p.walked := rfl
@[simp] theorem Pp.getCsr_setCsr (p : Pp) (r : Nat) (v : Word) : (p.setCsr r v).getCsr r = v := by
  simp [Pp.getCsr, Pp.setCsr]
theorem Pp.getCsr_setCsr_other (p : Pp) {r q : Nat} (v : Word) (h : q ≠ r) : (p.setCsr r v).getCsr q = p.getCsr q := by
  simp [Pp.getCsr, Pp.setCsr, tgetD_tput_other _ _ _ h]
@[simp] theorem Pp.setX_mode (p : Pp) (r : BitVec 5) (v : Word) : (p.setX r v).mode = p.mode := by
  unfold Pp.setX; split <;> rfl
@[simp] theorem Pp.setX_running (p : Pp) (r : BitVec 5) (v : Word) : (p.setX r v).running = p.running := by
  unfold Pp.setX; split <;> rfl
@[simp] theorem Pp.setX_nextSlot (p : Pp) (r : BitVec 5) (v : Word) : (p.setX r v).nextSlot = p.nextSlot := by
  unfold Pp.setX; split <;> rfl
@[simp] theorem Pp.setX_pc (p : Pp) (r : BitVec 5) (v : Word) : (p.setX r v).pc = p.pc := by
  unfold Pp.setX; split <;> rfl
@[simp] theorem Pp.setX_v (p : Pp) (r : BitVec 5) (v : Word) : (p.setX r v).v = p.v := by
  unfold Pp.setX; split <;> rfl
@[simp] theorem Pp.setX_m (p : Pp) (r : BitVec 5) (v : Word) : (p.setX r v).m = p.m := by
  unfold Pp.setX; split <;> rfl
@[simp] theorem Pp.setX_vl (p : Pp) (r : BitVec 5) (v : Word) : (p.setX r v).vl = p.vl := by
  unfold Pp.setX; split <;> rfl
@[simp] theorem Pp.setX_vcfg (p : Pp) (r : BitVec 5) (v : Word) : (p.setX r v).vcfg = p.vcfg := by
  unfold Pp.setX; split <;> rfl
@[simp] theorem Pp.setX_vresume (p : Pp) (r : BitVec 5) (v : Word) : (p.setX r v).vresume = p.vresume := by
  unfold Pp.setX; split <;> rfl
@[simp] theorem Pp.setX_vfault (p : Pp) (r : BitVec 5) (v : Word) : (p.setX r v).vfault = p.vfault := by
  unfold Pp.setX; split <;> rfl
@[simp] theorem Pp.setX_csr (p : Pp) (r : BitVec 5) (v : Word) : (p.setX r v).csr = p.csr := by
  unfold Pp.setX; split <;> rfl
@[simp] theorem Pp.setX_tlb (p : Pp) (r : BitVec 5) (v : Word) : (p.setX r v).tlb = p.tlb := by
  unfold Pp.setX; split <;> rfl
@[simp] theorem Pp.setX_l1d (p : Pp) (r : BitVec 5) (v : Word) : (p.setX r v).l1d = p.l1d := by
  unfold Pp.setX; split <;> rfl
@[simp] theorem Pp.setX_l1dPlru (p : Pp) (r : BitVec 5) (v : Word) : (p.setX r v).l1dPlru = p.l1dPlru := by
  unfold Pp.setX; split <;> rfl
@[simp] theorem Pp.setX_l1i (p : Pp) (r : BitVec 5) (v : Word) : (p.setX r v).l1i = p.l1i := by
  unfold Pp.setX; split <;> rfl
@[simp] theorem Pp.setX_l1iPlru (p : Pp) (r : BitVec 5) (v : Word) : (p.setX r v).l1iPlru = p.l1iPlru := by
  unfold Pp.setX; split <;> rfl
@[simp] theorem Pp.setX_halted (p : Pp) (r : BitVec 5) (v : Word) : (p.setX r v).halted = p.halted := by
  unfold Pp.setX; split <;> rfl
@[simp] theorem Pp.setX_dbg (p : Pp) (r : BitVec 5) (v : Word) : (p.setX r v).dbg = p.dbg := by
  unfold Pp.setX; split <;> rfl
@[simp] theorem Pp.setX_stopPend (p : Pp) (r : BitVec 5) (v : Word) : (p.setX r v).stopPend = p.stopPend := by
  unfold Pp.setX; split <;> rfl
@[simp] theorem Pp.setX_blocked (p : Pp) (r : BitVec 5) (v : Word) : (p.setX r v).blocked = p.blocked := by
  unfold Pp.setX; split <;> rfl
@[simp] theorem Pp.setX_hostReady (p : Pp) (r : BitVec 5) (v : Word) : (p.setX r v).hostReady = p.hostReady := by
  unfold Pp.setX; split <;> rfl
@[simp] theorem Pp.setX_hostAt (p : Pp) (r : BitVec 5) (v : Word) : (p.setX r v).hostAt = p.hostAt := by
  unfold Pp.setX; split <;> rfl
@[simp] theorem Pp.setX_hostDrop (p : Pp) (r : BitVec 5) (v : Word) : (p.setX r v).hostDrop = p.hostDrop := by
  unfold Pp.setX; split <;> rfl
@[simp] theorem Pp.setX_hostDev (p : Pp) (r : BitVec 5) (v : Word) : (p.setX r v).hostDev = p.hostDev := by
  unfold Pp.setX; split <;> rfl
@[simp] theorem Pp.setX_ffPast (p : Pp) (r : BitVec 5) (v : Word) : (p.setX r v).ffPast = p.ffPast := by
  unfold Pp.setX; split <;> rfl
@[simp] theorem Pp.setX_l1Bad (p : Pp) (r : BitVec 5) (v : Word) : (p.setX r v).l1Bad = p.l1Bad := by
  unfold Pp.setX; split <;> rfl
@[simp] theorem Pp.setX_hostSeen (p : Pp) (r : BitVec 5) (v : Word) : (p.setX r v).hostSeen = p.hostSeen := by
  unfold Pp.setX; split <;> rfl
@[simp] theorem Pp.setX_hostLeft (p : Pp) (r : BitVec 5) (v : Word) : (p.setX r v).hostLeft = p.hostLeft := by
  unfold Pp.setX; split <;> rfl
@[simp] theorem Pp.setX_eltAt (p : Pp) (r : BitVec 5) (v : Word) : (p.setX r v).eltAt = p.eltAt := by
  unfold Pp.setX; split <;> rfl
@[simp] theorem Pp.setX_charged (p : Pp) (r : BitVec 5) (v : Word) : (p.setX r v).charged = p.charged := by
  unfold Pp.setX; split <;> rfl
@[simp] theorem Pp.setX_walked (p : Pp) (r : BitVec 5) (v : Word) : (p.setX r v).walked = p.walked := by
  unfold Pp.setX; split <;> rfl

/-- R64: X0 reads as zero, whatever has been written. -/
@[simp] theorem Pp.getX_zero (p : Pp) : p.getX 0 = 0 := rfl

/-- R64: a write to X0 is discarded. -/
@[simp] theorem Pp.setX_zero (p : Pp) (v : Word) : p.setX 0 v = p := rfl

theorem Pp.getX_setX (p : Pp) {r : BitVec 5} (v : Word) (h : r ≠ 0) : (p.setX r v).getX r = v := by
  unfold Pp.getX Pp.setX
  rw [if_neg h, if_neg h]
  simp

theorem Pp.getX_setX_other (p : Pp) {r q : BitVec 5} (v : Word) (h : q ≠ r) : (p.setX r v).getX q = p.getX q := by
  have hn : q.toNat ≠ r.toNat := fun e => h (BitVec.eq_of_toNat_eq e)
  unfold Pp.setX
  split
  · rfl
  · simp [Pp.getX, tgetD_tput_other _ _ _ hn]

end Sys2Proof.Machine
end

