-- ==== Sys2Proof/Laws/Events.lean ====
section
/-!
SUPPORT. What raising an event, sending a message and logging a code do: the host ports, what leaves the engine, the
pending sources and the error log, and nothing else.
-/
namespace Sys2Proof.Machine

open Sys2Proof

theorem State.emit_frame (s : State) (o : Out) : { s.emit o with out := s.out } = s := rfl

/-- A message leaves the engine or is held in the port's pending bits (R367). -/
theorem State.msix_frame (s : State) (port vector : Nat) : { s.msix port vector with hps := s.hps, out := s.out } = s := by
  have h : s.msix port vector = s.emit (.msix port vector)
      ∨ s.msix port vector = s.setHp port { s.hp port with pba := setAdd (s.hp port).pba vector } := by
    unfold State.msix; dsimp only; split
    · exact .inl rfl
    · exact .inr rfl
  rcases h with h | h <;> rw [h] <;> rfl

theorem State.handOver_frame (s : State) (src : Nat) :
    { s.handOver src with hps := s.hps, out := s.out, evtPend := s.evtPend } = s := by
  have h : s.handOver src = s ∨ ∃ e p v, s.handOver src = State.msix { s with evtPend := e } p v := by
    unfold State.handOver; dsimp only; split
    · exact .inr ⟨_, _, _, rfl⟩
    · exact .inl rfl
  rcases h with h | ⟨e, p, v, h⟩
  · rw [h]
  · rw [h]
    have g := State.msix_frame { s with evtPend := e } p v
    exact congrArg (fun t : State => { t with evtPend := s.evtPend }) g

/-- Raising a source touches the pending sources, the ports and what leaves the engine. -/
theorem State.raise_frame (s : State) (src : Nat) :
    { s.raise src with hps := s.hps, out := s.out, evtPend := s.evtPend } = s := by
  have h := State.handOver_frame { s with evtPend := setAdd s.evtPend src } src
  have e := congrArg (fun t : State => { t with evtPend := s.evtPend }) h
  exact e

/-- Logging a code touches the error log besides. -/
theorem State.logSev_frame (s : State) (code sev inst part : Nat) (detail : Word) :
    { s.logSev code sev inst part detail with hps := s.hps, out := s.out, evtPend := s.evtPend, err := s.err } = s := by
  have h := State.raise_frame { s with err := s.err.add code sev inst part detail s.fc.chrono } (16384 + code / 256)
  have e := congrArg (fun t : State => { t with err := s.err }) h
  exact e

theorem State.log_frame (s : State) (code inst part : Nat) (detail : Word) :
    { s.log code inst part detail with hps := s.hps, out := s.out, evtPend := s.evtPend, err := s.err } = s :=
  State.logSev_frame s code (errSev code) inst part detail

theorem State.raise_err (s : State) (src : Nat) : (s.raise src).err = s.err := by
  have h := congrArg State.err (State.raise_frame s src); exact h

/-- The entry that R460 gives the code. -/
theorem State.log_err (s : State) (code inst part : Nat) (detail : Word) :
    (s.log code inst part detail).err = s.err.add code (errSev code) inst part detail s.fc.chrono := State.raise_err _ _

@[simp] theorem State.log_mem (s : State) (code inst part : Nat) (d : Word) : (s.log code inst part d).mem = s.mem :=
  by
  have h := congrArg State.mem (State.log_frame s code inst part d); exact h
@[simp] theorem State.log_pending (s : State) (code inst part : Nat) (d : Word) : (s.log code inst part d).pending = s.pending :=
  by
  have h := congrArg State.pending (State.log_frame s code inst part d); exact h
@[simp] theorem State.log_pps (s : State) (code inst part : Nat) (d : Word) : (s.log code inst part d).pps = s.pps :=
  by
  have h := congrArg State.pps (State.log_frame s code inst part d); exact h
@[simp] theorem State.log_legs (s : State) (code inst part : Nat) (d : Word) : (s.log code inst part d).legs = s.legs :=
  by
  have h := congrArg State.legs (State.log_frame s code inst part d); exact h
@[simp] theorem State.log_cls (s : State) (code inst part : Nat) (d : Word) : (s.log code inst part d).cls = s.cls :=
  by
  have h := congrArg State.cls (State.log_frame s code inst part d); exact h
@[simp] theorem State.log_parts (s : State) (code inst part : Nat) (d : Word) : (s.log code inst part d).parts = s.parts :=
  by
  have h := congrArg State.parts (State.log_frame s code inst part d); exact h
@[simp] theorem State.log_fc (s : State) (code inst part : Nat) (d : Word) : (s.log code inst part d).fc = s.fc :=
  by
  have h := congrArg State.fc (State.log_frame s code inst part d); exact h
@[simp] theorem State.log_chain (s : State) (code inst part : Nat) (d : Word) : (s.log code inst part d).chain = s.chain :=
  by
  have h := congrArg State.chain (State.log_frame s code inst part d); exact h
@[simp] theorem State.log_pm (s : State) (code inst part : Nat) (d : Word) : (s.log code inst part d).pm = s.pm :=
  by
  have h := congrArg State.pm (State.log_frame s code inst part d); exact h
@[simp] theorem State.log_ks (s : State) (code inst part : Nat) (d : Word) : (s.log code inst part d).ks = s.ks :=
  by
  have h := congrArg State.ks (State.log_frame s code inst part d); exact h
@[simp] theorem State.log_dbg (s : State) (code inst part : Nat) (d : Word) : (s.log code inst part d).dbg = s.dbg :=
  by
  have h := congrArg State.dbg (State.log_frame s code inst part d); exact h
@[simp] theorem State.log_admin (s : State) (code inst part : Nat) (d : Word) : (s.log code inst part d).admin = s.admin :=
  by
  have h := congrArg State.admin (State.log_frame s code inst part d); exact h
@[simp] theorem State.log_regs (s : State) (code inst part : Nat) (d : Word) : (s.log code inst part d).regs = s.regs :=
  by
  have h := congrArg State.regs (State.log_frame s code inst part d); exact h
@[simp] theorem State.log_sqs (s : State) (code inst part : Nat) (d : Word) : (s.log code inst part d).sqs = s.sqs :=
  by
  have h := congrArg State.sqs (State.log_frame s code inst part d); exact h
@[simp] theorem State.log_cqs (s : State) (code inst part : Nat) (d : Word) : (s.log code inst part d).cqs = s.cqs :=
  by
  have h := congrArg State.cqs (State.log_frame s code inst part d); exact h

theorem State.log_pp (s : State) (code inst part : Nat) (d : Word) (n : Nat) : (s.log code inst part d).pp n = s.pp n := by
  simp [State.pp]
theorem State.log_cl (s : State) (code inst part : Nat) (d : Word) (c : Nat) : (s.log code inst part d).cl c = s.cl c := by
  simp [State.cl]

end Sys2Proof.Machine
end

