-- ==== Sys2Proof/Laws/HostReads.lean ====
section
/-!
SUPPORT. Commands that may read host memory (R17, R373): what the end of such a command is, and what the keeping of a read, its
return and its loss change.
-/
namespace Sys2Proof.Machine

open Sys2Proof

@[simp] theorem State.asking_hostMiss (s : State) : s.asking.hostMiss = none := rfl
@[simp] theorem State.asking_mem (s : State) : s.asking.mem = s.mem := rfl
@[simp] theorem State.asking_fc (s : State) : s.asking.fc = s.fc := rfl
@[simp] theorem State.asking_legs (s : State) : s.asking.legs = s.legs := rfl
@[simp] theorem State.asking_pp (s : State) (n : Nat) : s.asking.pp n = s.pp n := rfl
@[simp] theorem State.asking_cl (s : State) (c : Nat) : s.asking.cl c = s.cl c := rfl
@[simp] theorem State.asking_part (s : State) (p : Nat) : s.asking.part p = s.part p := rfl
@[simp] theorem State.asking_leg (s : State) (l : Nat) : s.asking.leg? l = s.leg? l := rfl

/-- A command that lacks no read ends in the state it has come to, and the returned reads of its requesters are gone. -/
theorem State.settled_done (s : State) (rs : List HostReq) (t : State) (h : t.hostMiss = none) :
    s.settled rs t = { t with hostMiss := s.hostMiss, hostGot := t.hostGot.filter (fun x => !rs.contains x.1.req) } := by
  simp only [State.settled, h]

/-- All that a command which may read host memory can end in: its own end; its first state, while the read it lacks is out or its port
can take no more; its first state with that read on its way. -/
theorem State.settled_cases (s : State) (rs : List HostReq) (t : State) :
    (t.hostMiss = none ∧ s.settled rs t = { t with hostMiss := s.hostMiss, hostGot := t.hostGot.filter (fun x => !rs.contains x.1.req) })
    ∨ (∃ x, t.hostMiss = some x ∧ (x ∈ s.hostWant ∨ s.portFull x.port = true) ∧ s.settled rs t = s)
    ∨ (∃ x, t.hostMiss = some x ∧ x ∉ s.hostWant ∧ s.portFull x.port = false
        ∧ s.settled rs t = State.emit { s with hostWant := s.hostWant ++ [x] } (.hostRead x.port x.pasid (x.dpa - hostBase) x.len false)) := by
  cases h : t.hostMiss with
  | none => exact .inl ⟨rfl, s.settled_done rs t h⟩
  | some x =>
    by_cases c : x ∈ s.hostWant
    · exact .inr (.inl ⟨x, rfl, .inl c, by simp [State.settled, h, c]⟩)
    · cases p : s.portFull x.port
      · exact .inr (.inr ⟨x, rfl, c, p, by simp [State.settled, h, c, p]⟩)
      · exact .inr (.inl ⟨x, rfl, .inr p, by simp [State.settled, h, p]⟩)

/-- All that the reading of host memory can answer: nothing more once a read is lacking; what a returned read brought; a failure, with the
link down; or the read is noted as lacking. -/
theorem State.hostTake_frame (s : State) (r : HostReq) (part : Option Nat) (d len : Nat) :
    { (s.hostTake r part d len).2 with hostGot := s.hostGot, hostMiss := s.hostMiss } = s := by
  unfold State.hostTake
  dsimp only
  split
  · rfl
  · split
    · split <;> rfl
    · split <;> rfl

theorem State.hostReturn_frame (s : State) (r : HostReq) (d st : Nat) :
    { s.hostReturn r d st with hostWant := s.hostWant, hostGot := s.hostGot } = s := by
  unfold State.hostReturn
  split <;> rfl

theorem State.hostLost_frame (s : State) (port : Nat) : { s.hostLost port with hostWant := s.hostWant, hostGot := s.hostGot } = s := rfl

theorem State.hostForget_frame (s : State) (r : HostReq) : { s.hostForget r with hostWant := s.hostWant, hostGot := s.hostGot } = s := rfl

end Sys2Proof.Machine
end

