-- ==== Sys2Proof/Laws/Memory.lean ====
section
/-!
SUPPORT. The memory laws: every memory operation keeps the canonical form; a read after a write; and the rules by which a
state function is shown to keep the form.
-/
namespace Sys2Proof.Machine

/-! ### The canonical form -/

theorem memWfFrom_weaken {m : List Host.Cell} {a b : Nat} (hab : b ≤ a) (h : memWfFrom (some a) m = true) :
    memWfFrom (some b) m = true := by
  cases m with
  | nil => rfl
  | cons c t =>
    simp only [memWfFrom, Bool.and_eq_true, decide_eq_true_eq] at h ⊢
    exact ⟨⟨by omega, h.1.2⟩, h.2⟩

theorem memWfFrom_none {m : List Host.Cell} {a : Nat} (h : memWfFrom (some a) m = true) : memWfFrom none m = true := by
  cases m with
  | nil => rfl
  | cons c t => simp only [memWfFrom, Bool.and_eq_true, decide_eq_true_eq] at h ⊢; exact ⟨⟨trivial, h.1.2⟩, h.2⟩

theorem memWfFrom_filter (p : Host.Cell → Bool) (m : List Host.Cell) (a : Option Nat) (h : memWfFrom a m = true) :
    memWfFrom a (m.filter p) = true := by
  induction m generalizing a with
  | nil => rfl
  | cons c t ih =>
    obtain ⟨k, v⟩ := c
    simp only [memWfFrom, Bool.and_eq_true, decide_eq_true_eq] at h
    by_cases hp : p (k, v) = true
    · simp only [List.filter_cons_of_pos hp, memWfFrom, Bool.and_eq_true, decide_eq_true_eq]
      exact ⟨h.1, ih _ h.2⟩
    · rw [List.filter_cons_of_neg hp]
      have := ih _ h.2
      cases a with
      | none => exact memWfFrom_none this
      | some b => exact memWfFrom_weaken (by simpa using Nat.le_of_lt (by simpa using h.1.1)) this

theorem memWfFrom_ins (m : List Host.Cell) (lo : Option Nat) (a : Nat) (b : Byte) (hb : b ≠ 0)
    (hlo : ∀ l, lo = some l → l < a) (h : memWfFrom lo m = true) : memWfFrom lo (memIns m a b) = true := by
  induction m generalizing lo with
  | nil =>
    cases lo with
    | none => simpa [memIns, memWfFrom] using hb
    | some l => simpa [memIns, memWfFrom, hlo l rfl] using hb
  | cons c t ih =>
    obtain ⟨k, v⟩ := c
    simp only [memWfFrom, Bool.and_eq_true, decide_eq_true_eq] at h
    unfold memIns
    split
    · simp only [memWfFrom, Bool.and_eq_true, decide_eq_true_eq]
      refine ⟨⟨?_, hb⟩, ⟨‹_›, h.1.2⟩, h.2⟩
      cases lo with
      | none => rfl
      | some l => simpa using hlo l rfl
    · split
      · subst_vars
        simp only [memWfFrom, Bool.and_eq_true, decide_eq_true_eq]
        exact ⟨⟨h.1.1, hb⟩, h.2⟩
      · simp only [memWfFrom, Bool.and_eq_true, decide_eq_true_eq]
        exact ⟨h.1, ih _ (by intro l hl; cases hl; omega) h.2⟩

/-- Writing a byte keeps the form. -/
theorem memPut_wf {m : List Host.Cell} (a : Nat) (b : Byte) (h : Memory.wf m = true) : Memory.wf (memPut m a b) = true := by
  unfold memPut
  split
  · exact memWfFrom_filter _ _ _ h
  · exact memWfFrom_ins _ _ _ _ ‹_› (by simp) h

theorem writeBytes_wf {m : List Host.Cell} (a : Nat) (bs : List Byte) (h : Memory.wf m = true) :
    Memory.wf (writeBytes m a bs) = true := by
  induction bs generalizing m a with
  | nil => exact h
  | cons b t ih => exact ih _ (memPut_wf _ _ h)

theorem filter_wf {m : List Host.Cell} (p : Host.Cell → Bool) (h : Memory.wf m = true) : Memory.wf (m.filter p) = true :=
  memWfFrom_filter p m none h

/-- The memory of reset has the form. -/
theorem reset_wf : Memory.wf State.reset.mem = true := rfl

/-! ### Reading what was written -/

theorem memGet_below {m : List Host.Cell} {l a : Nat} (h : memWfFrom (some l) m = true) (ha : a ≤ l) : memGet m a = 0 := by
  induction m generalizing l with
  | nil => rfl
  | cons c t ih =>
    obtain ⟨k, v⟩ := c
    simp only [memWfFrom, Bool.and_eq_true, decide_eq_true_eq] at h
    rw [memGet, if_neg (by omega)]
    exact ih h.2 (by omega)

theorem memGet_filter_ne (m : List Host.Cell) (a x : Nat) :
    memGet (m.filter (fun c => c.1 ≠ a)) x = if x = a then 0 else memGet m x := by
  induction m with
  | nil => simp [memGet]
  | cons c t ih =>
    obtain ⟨k, v⟩ := c
    by_cases hk : k = a
    · subst hk
      rw [List.filter_cons_of_neg (by simp), ih]
      by_cases hx : x = k
      · simp [hx]
      · simp [hx, memGet, Ne.symm hx]
    · rw [List.filter_cons_of_pos (by simpa using hk), memGet, memGet, ih]
      by_cases hkx : k = x
      · subst hkx; simp [hk]
      · simp [hkx]

/-- Keeping the cells of some addresses keeps what those read as, and the others read as unlisted. -/
theorem memGet_filter_addr (m : List Host.Cell) (p : Nat → Bool) (x : Nat) :
    memGet (m.filter (fun c => p c.1)) x = if p x then memGet m x else memGet [] x := by
  induction m with
  | nil => simp
  | cons c t ih =>
    obtain ⟨k, v⟩ := c
    have e : memGet ((k, v) :: t) x = if k = x then v else memGet t x := rfl
    by_cases hk : p k
    · have e' : memGet ((k, v) :: t.filter (fun c => p c.1)) x = if k = x then v else memGet (t.filter (fun c => p c.1)) x := rfl
      rw [List.filter_cons_of_pos (p := fun c : Host.Cell => p c.1) hk, e', e, ih]
      by_cases hkx : k = x
      · subst hkx; simp [hk]
      · simp only [if_neg hkx]
    · rw [List.filter_cons_of_neg (p := fun c : Host.Cell => p c.1) hk, e, ih]
      by_cases hkx : k = x
      · subst hkx; simp [hk]
      · simp only [if_neg hkx]

theorem memGet_ins (m : List Host.Cell) (a x : Nat) (b : Byte) : memGet (memIns m a b) x = if x = a then b else memGet m x := by
  induction m with
  | nil => simp [memIns, memGet, eq_comm]
  | cons c t ih =>
    obtain ⟨k, v⟩ := c
    unfold memIns
    split
    · simp only [memGet]; by_cases hx : a = x <;> simp [hx, eq_comm]
    · split
      · subst_vars
        simp only [memGet]
        by_cases hx : k = x
        · simp [hx]
        · simp [hx, Ne.symm hx]
      · simp only [memGet, ih]
        by_cases hx : k = x
        · subst hx; simp; intro h; omega
        · simp [hx]

/-- One byte written: it reads back, and every other byte reads as before. -/
theorem memGet_put (m : List Host.Cell) (a x : Nat) (b : Byte) : memGet (memPut m a b) x = if x = a then b else memGet m x := by
  unfold memPut
  split
  · subst_vars; exact memGet_filter_ne m a x
  · exact memGet_ins m a x b

/-- Every byte outside the bytes written reads as before. -/
theorem memGet_write_out (m : List Host.Cell) (a x : Nat) (bs : List Byte) (h : x < a ∨ a + bs.length ≤ x) :
    memGet (writeBytes m a bs) x = memGet m x := by
  induction bs generalizing m a with
  | nil => rfl
  | cons b t ih =>
    rw [writeBytes, ih _ _ (by simp at h; omega), memGet_put, if_neg (by simp at h; omega)]

/-- Bytes written read back. -/
theorem memGet_write_in (m : List Host.Cell) (a i : Nat) (bs : List Byte) (h : i < bs.length) :
    memGet (writeBytes m a bs) (a + i) = bs[i] := by
  induction bs generalizing m a i with
  | nil => simp at h
  | cons b t ih =>
    cases i with
    | zero => rw [writeBytes, memGet_write_out _ _ _ _ (by omega), memGet_put]; simp
    | succ j =>
      have := ih (memPut m a b) (a + 1) j (by simpa using h)
      rw [writeBytes, show a + (j + 1) = a + 1 + j by omega, this]; simp

/-! ### Rules for state functions -/

/-- A function of the unit monad keeps the form. -/
def RunInv {ε α : Type} (m : ExceptT ε (StateM State) α) : Prop := ∀ s, s.Inv → (m.run.run s).2.Inv

/-- A record update that leaves memory alone. -/
theorem inv_of_mem {s t : State} (h : s.Inv) (e : t.mem = s.mem) : t.Inv := by unfold State.Inv at *; rw [e]; exact h

theorem inv_write {s t : State} (a : Nat) (bs : List Byte) (h : s.Inv) (e : t.mem = writeBytes s.mem a bs) : t.Inv := by
  unfold State.Inv at *; rw [e]; exact writeBytes_wf a bs h

theorem inv_foldl {α : Type} {f : State → α → State} {l : List α} {s : State} (h : s.Inv) (hf : ∀ t x, t.Inv → (f t x).Inv) :
    (l.foldl f s).Inv := by
  induction l generalizing s with
  | nil => exact h
  | cons x t ih => exact ih (hf s x h)

theorem inv_foldl_snd {α β : Type} {f : β × State → α → β × State} {l : List α} {s : β × State} (h : s.2.Inv)
    (hf : ∀ t x, t.2.Inv → (f t x).2.Inv) : (l.foldl f s).2.Inv := by
  induction l generalizing s with
  | nil => exact h
  | cons x t ih => exact ih (hf s x h)

theorem inv_foldl_fst {α β : Type} {f : State × β → α → State × β} {l : List α} {s : State × β} (h : s.1.Inv)
    (hf : ∀ t x, t.1.Inv → (f t x).1.Inv) : (l.foldl f s).1.Inv := by
  induction l generalizing s with
  | nil => exact h
  | cons x t ih => exact ih (hf s x h)

/-! ### Record updates -/

/-- A state written field by field whose memory is that of `s`. -/
theorem inv_mk {f_pending : List Instr} {f_freeSeq : Nat} {f_bad : List Nat} {f_hostBad : Table Nat} {f_hostWant :
    List HostRead} {f_hostGot : List (HostRead × Nat)} {f_hostMiss : Option HostRead} {f_regs : Table Word} {f_latches
    : List Latch} {f_stalls : List Stall} {f_parity : List Nat} {f_parityLive : List Nat} {f_regErr : RegErr} {f_pps :
    Table Pp} {f_legs : Table Leg} {f_nextLeg : Nat} {f_order : Nat} {f_cls : Table Cluster} {f_ioWalk : List
    WalkEntry} {f_ioTlb : List XEntry} {f_stu : List XEntry} {f_stuWalk : List WalkEntry} {f_xinvDone : Bool} {f_fc :
    Fc} {f_fcClose : Option Nat} {f_schedTick : Nat} {f_sqs : Table Queue} {f_cqs : Table Queue} {f_admin : Admin}
    {f_parts : Table Part} {f_quenchDone : Bool} {f_quenchWait : Option Nat} {f_copies : List (Nat × List Byte)}
    {f_err : ErrLog} {f_evtMap : Table (BitVec 32)} {f_evtPend : List Nat} {f_asaCfg : Table (BitVec 32)} {f_asa :
    Table AsaEntry} {f_asaSets : Table AsaSet} {f_cursors : List AsaCursor} {f_asaErr : List Nat} {f_duQueue : List
    DuJob} {f_dus : Table DuUnit} {f_duPreempts : Nat} {f_dcs : Table Dc} {f_ddrSet : List Nat} {f_ddrGib : Nat}
    {f_hps : Table HostPort} {f_drives : Table Drive} {f_grants : Table Grant} {f_reqs : Table DriveReq} {f_cmds :
    Table DriveCmd} {f_nextReq : Nat} {f_chain : Chain} {f_pm : Pm} {f_ks : Ks} {f_dbg : Dbg} {f_out : List Out} {s :
    State} (h : s.Inv) : (State.mk f_pending f_freeSeq s.mem f_bad f_hostBad f_hostWant f_hostGot f_hostMiss f_regs
    f_latches f_stalls f_parity f_parityLive f_regErr f_pps f_legs f_nextLeg f_order f_cls f_ioWalk f_ioTlb f_stu
    f_stuWalk f_xinvDone f_fc f_fcClose f_schedTick f_sqs f_cqs f_admin f_parts f_quenchDone f_quenchWait f_copies
    f_err f_evtMap f_evtPend f_asaCfg f_asa f_asaSets f_cursors f_asaErr f_duQueue f_dus f_duPreempts f_dcs f_ddrSet
    f_ddrGib f_hps f_drives f_grants f_reqs f_cmds f_nextReq f_chain f_pm f_ks f_dbg f_out).Inv := h

/-- A state written field by field whose memory has the form. -/
theorem inv_mk_wf {f_pending : List Instr} {f_freeSeq : Nat} {f_bad : List Nat} {f_hostBad : Table Nat} {f_hostWant :
    List HostRead} {f_hostGot : List (HostRead × Nat)} {f_hostMiss : Option HostRead} {f_regs : Table Word} {f_latches
    : List Latch} {f_stalls : List Stall} {f_parity : List Nat} {f_parityLive : List Nat} {f_regErr : RegErr} {f_pps :
    Table Pp} {f_legs : Table Leg} {f_nextLeg : Nat} {f_order : Nat} {f_cls : Table Cluster} {f_ioWalk : List
    WalkEntry} {f_ioTlb : List XEntry} {f_stu : List XEntry} {f_stuWalk : List WalkEntry} {f_xinvDone : Bool} {f_fc :
    Fc} {f_fcClose : Option Nat} {f_schedTick : Nat} {f_sqs : Table Queue} {f_cqs : Table Queue} {f_admin : Admin}
    {f_parts : Table Part} {f_quenchDone : Bool} {f_quenchWait : Option Nat} {f_copies : List (Nat × List Byte)}
    {f_err : ErrLog} {f_evtMap : Table (BitVec 32)} {f_evtPend : List Nat} {f_asaCfg : Table (BitVec 32)} {f_asa :
    Table AsaEntry} {f_asaSets : Table AsaSet} {f_cursors : List AsaCursor} {f_asaErr : List Nat} {f_duQueue : List
    DuJob} {f_dus : Table DuUnit} {f_duPreempts : Nat} {f_dcs : Table Dc} {f_ddrSet : List Nat} {f_ddrGib : Nat}
    {f_hps : Table HostPort} {f_drives : Table Drive} {f_grants : Table Grant} {f_reqs : Table DriveReq} {f_cmds :
    Table DriveCmd} {f_nextReq : Nat} {f_chain : Chain} {f_pm : Pm} {f_ks : Ks} {f_dbg : Dbg} {f_out : List Out} {m :
    List Host.Cell} (h : Memory.wf m = true) : (State.mk f_pending f_freeSeq m f_bad f_hostBad f_hostWant f_hostGot
    f_hostMiss f_regs f_latches f_stalls f_parity f_parityLive f_regErr f_pps f_legs f_nextLeg f_order f_cls f_ioWalk
    f_ioTlb f_stu f_stuWalk f_xinvDone f_fc f_fcClose f_schedTick f_sqs f_cqs f_admin f_parts f_quenchDone
    f_quenchWait f_copies f_err f_evtMap f_evtPend f_asaCfg f_asa f_asaSets f_cursors f_asaErr f_duQueue f_dus
    f_duPreempts f_dcs f_ddrSet f_ddrGib f_hps f_drives f_grants f_reqs f_cmds f_nextReq f_chain f_pm f_ks f_dbg
    f_out).Inv := h

theorem inv_mem {s : State} (h : s.Inv) : Memory.wf s.mem = true := h


theorem inv_snd {α : Type} {x : α × State} {a : α} {t : State} (e : x = (a, t)) (h : x.2.Inv) : t.Inv := by rw [e] at h; exact h

theorem inv_snd2 {α β : Type} {x : α × β × State} {a : α} {b : β} {t : State} (e : x = (a, b, t)) (h : x.2.2.Inv) : t.Inv := by
  rw [e] at h; exact h

theorem inv_snd3 {α β γ : Type} {x : α × β × γ × State} {a : α} {b : β} {c : γ} {t : State} (e : x = (a, b, c, t))
    (h : x.2.2.2.Inv) : t.Inv := by
  rw [e] at h; exact h

theorem inv_ite {c : Prop} [Decidable c] {a b : State} (ha : a.Inv) (hb : b.Inv) : (if c then a else b).Inv := by
  split <;> assumption

theorem inv_ite_snd {α : Type} {c : Prop} [Decidable c] {a b : α × State} (ha : a.2.Inv) (hb : b.2.Inv) :
    (if c then a else b).2.Inv := by
  split <;> assumption

theorem inv_ite_snd2 {α β : Type} {c : Prop} [Decidable c] {a b : α × β × State} (ha : a.2.2.Inv) (hb : b.2.2.Inv) :
    (if c then a else b).2.2.Inv := by
  split <;> assumption

theorem inv_ite_snd3 {α β γ : Type} {c : Prop} [Decidable c] {a b : α × β × γ × State} (ha : a.2.2.2.Inv) (hb : b.2.2.2.Inv) :
    (if c then a else b).2.2.2.Inv := by
  split <;> assumption

/-- A state that an optional result holds. -/
def OptInv (o : Option State) : Prop := ∀ t, o = some t → t.Inv

theorem optInv_none : OptInv none := fun _ h => by cases h

theorem optInv_some {s : State} (h : s.Inv) : OptInv (some s) := fun _ e => by cases e; exact h

theorem optInv_elim {o : Option State} {t : State} (e : o = some t) (h : OptInv o) : t.Inv := h t e

theorem optInv_findSome {α : Type} {f : α → Option State} {l : List α} (h : ∀ x, OptInv (f x)) : OptInv (l.findSome? f) := by
  induction l with
  | nil => exact optInv_none
  | cons x t ih =>
    rw [List.findSome?_cons]
    split
    · exact fun t e => h x t (by cases e; assumption)
    · exact ih

theorem optInv_map {α : Type} {f : α → State} {o : Option α} (h : ∀ x, (f x).Inv) : OptInv (o.map f) := by
  cases o with
  | none => exact optInv_none
  | some x => exact optInv_some (h x)

theorem optInv_ite {c : Prop} [Decidable c] {a b : Option State} (ha : OptInv a) (hb : OptInv b) : OptInv (if c then a else b) := by
  split <;> assumption

/-- A result that holds a state on either side. -/
def ExInv {α : Type} (x : Except State α × State) : Prop := x.2.Inv ∧ ∀ t, x.1 = .error t → t.Inv

theorem exInv_ok {α : Type} {a : α} {s : State} (h : s.Inv) : ExInv (.ok a, s) := ⟨h, fun _ e => by cases e⟩

theorem exInv_error {α : Type} {t s : State} (ht : t.Inv) (hs : s.Inv) : ExInv ((.error t, s) : Except State α × State) :=
  ⟨hs, fun _ e => by cases e; exact ht⟩

theorem exInv_ite {α : Type} {c : Prop} [Decidable c] {a b : Except State α × State} (ha : ExInv a) (hb : ExInv b) :
    ExInv (if c then a else b) := by
  split <;> assumption

theorem exInv_snd {α : Type} {x : Except State α × State} {r : Except State α} {s : State} (e : x = (r, s)) (h : ExInv x) : s.Inv := by
  rw [e] at h; exact h.1

theorem exInv_fst {α : Type} {x : Except State α × State} {t s : State} (e : x = (.error t, s)) (h : ExInv x) : t.Inv := by
  rw [e] at h; exact h.2 t rfl

theorem run_pure {ε α : Type} (a : α) : RunInv (pure a : ExceptT ε (StateM State) α) := fun _ h => h

theorem run_throw {ε α : Type} (e : ε) : RunInv (throw e : ExceptT ε (StateM State) α) := fun _ h => h

theorem run_getThe {ε : Type} : RunInv (getThe State : ExceptT ε (StateM State) State) := fun _ h => h

theorem run_mk {ε α : Type} {f : State → Except ε α × State} (h : ∀ s, s.Inv → (f s).2.Inv) :
    RunInv (ExceptT.mk f : ExceptT ε (StateM State) α) := h

theorem run_bind {ε α β : Type} {m : ExceptT ε (StateM State) α} {k : α → ExceptT ε (StateM State) β} (hm : RunInv m)
    (hk : ∀ a, RunInv (k a)) : RunInv (m >>= k) := by
  intro s hs
  have h := hm s hs
  show (((ExceptT.bind m k).run.run s).2).Inv
  unfold ExceptT.bind
  show ((StateT.bind m.run (ExceptT.bindCont k) s).2).Inv
  unfold StateT.bind
  cases hr : m.run s with
  | mk r t =>
    have ht : t.Inv := by rw [show m.run.run s = (r, t) from hr] at h; exact h
    simp only [bind]
    cases r with
    | ok a => exact hk a t ht
    | error e => exact ht

theorem run_ite {ε α : Type} {c : Prop} [Decidable c] {a b : ExceptT ε (StateM State) α} (ha : RunInv a) (hb : RunInv b) :
    RunInv (if c then a else b) := by
  split <;> assumption

theorem run_elim {ε α : Type} {m : ExceptT ε (StateM State) α} {s : State} (h : RunInv m) (hs : s.Inv) : (ExceptT.run m s).2.Inv :=
  h s hs

theorem run_forM {ε α : Type} {f : α → ExceptT ε (StateM State) PUnit} {l : List α} (hf : ∀ a, RunInv (f a)) :
    RunInv (l.forM f) := by
  induction l with
  | nil => exact run_pure _
  | cons x t ih => exact run_bind (hf x) (fun _ => ih)

/-- Every piece of work of a list keeps the form. -/
def RunsInv {ε α : Type} (l : List (ExceptT ε (StateM State) α)) : Prop := ∀ m ∈ l, RunInv m

theorem runs_nil {ε α : Type} : RunsInv ([] : List (ExceptT ε (StateM State) α)) := fun _ h => absurd h List.not_mem_nil

theorem runs_one {ε α : Type} {m : ExceptT ε (StateM State) α} (h : RunInv m) : RunsInv [m] := fun x hx => by
  rw [List.mem_singleton.1 hx]; exact h

theorem runs_append {ε α : Type} {a b : List (ExceptT ε (StateM State) α)} (ha : RunsInv a) (hb : RunsInv b) : RunsInv (a ++ b) :=
  fun m h => (List.mem_append.1 h).elim (ha m) (hb m)

theorem runs_map {ε α β : Type} {l : List β} {f : β → ExceptT ε (StateM State) α} (h : ∀ x, RunInv (f x)) : RunsInv (l.map f) :=
  fun m hm => by
    obtain ⟨x, _, rfl⟩ := List.mem_map.1 hm
    exact h x

theorem runs_ite {ε α : Type} {c : Prop} [Decidable c] {a b : List (ExceptT ε (StateM State) α)} (ha : RunsInv a) (hb : RunsInv b) :
    RunsInv (if c then a else b) := by split <;> assumption

theorem run_mapM {ε α β : Type} {f : α → ExceptT ε (StateM State) β} {l : List α} (hf : ∀ a, RunInv (f a)) :
    RunInv (l.mapM f) := by
  induction l with
  | nil => rw [List.mapM_nil]; exact run_pure _
  | cons x t ih => rw [List.mapM_cons]; exact run_bind (hf x) (fun _ => run_bind ih (fun _ => run_pure _))

theorem run_foldlM {ε α β : Type} {f : β → α → ExceptT ε (StateM State) β} {l : List α} {b : β} (hf : ∀ b a, RunInv (f b a)) :
    RunInv (l.foldlM f b) := by
  induction l generalizing b with
  | nil => exact run_pure _
  | cons x t ih => rw [List.foldlM_cons]; exact run_bind (hf b x) (fun _ => ih)

theorem run_forIn {ε α β : Type} {f : α → β → ExceptT ε (StateM State) (ForInStep β)} {l : List α} {b : β}
    (hf : ∀ a b, RunInv (f a b)) : RunInv (forIn l b f) := by
  induction l generalizing b with
  | nil => rw [List.forIn_nil]; exact run_pure _
  | cons x t ih =>
    rw [List.forIn_cons]
    refine run_bind (hf x b) (fun r => ?_)
    cases r with
    | done c => exact run_pure _
    | yield c => exact ih

end Sys2Proof.Machine
end

