-- ==== Sys2Proof/Laws/MemOps.lean ====
section
/-!
SUPPORT. The state functions of Machine/Ops.lean keep the canonical form of memory.
-/
namespace Sys2Proof.Machine

open Sys2Proof

set_option linter.unusedTactic false
set_option linter.unreachableTactic false
set_option linter.unusedSimpArgs false
set_option linter.unusedVariables false

theorem State.free_inv {s : State} (h_s : s.Inv) : (State.free s).2.Inv := by
  unfold State.free
  with_reducible
    repeat' (first | assumption | (intro _) | dsimp only | (fail_if_no_progress apply inv_mk) | split)
theorem State.free_inv' {s : State} {r0} {tE : State} (hE : (State.free s) = (r0, tE)) (h_s : s.Inv) : tE.Inv := by
  have h := @State.free_inv s h_s; rw [hE] at h; exact h

theorem State.setPp_inv {s : State} {n : Nat} {p : Pp} (h_s : s.Inv) : (State.setPp s n p).Inv := by
  unfold State.setPp
  with_reducible
    repeat' (first | assumption | (intro _) | dsimp only | (fail_if_no_progress apply inv_mk) | split)

theorem State.setCl_inv {s : State} {c : Nat} {k : Cluster} (h_s : s.Inv) : (State.setCl s c k).Inv := by
  unfold State.setCl
  with_reducible
    repeat' (first | assumption | (intro _) | dsimp only | (fail_if_no_progress apply inv_mk) | split)

theorem State.setLeg_inv {s : State} {l : Nat} {g : Leg} (h_s : s.Inv) : (State.setLeg s l g).Inv := by
  unfold State.setLeg
  with_reducible
    repeat' (first | assumption | (intro _) | dsimp only | (fail_if_no_progress apply inv_mk) | split)

theorem State.setPart_inv {s : State} {p : Nat} {q : Part} (h_s : s.Inv) : (State.setPart s p q).Inv := by
  unfold State.setPart
  with_reducible
    repeat' (first | assumption | (intro _) | dsimp only | (fail_if_no_progress apply inv_mk) | split)

theorem State.setSq_inv {s : State} {q : Nat} {k : Queue} (h_s : s.Inv) : (State.setSq s q k).Inv := by
  unfold State.setSq
  with_reducible
    repeat' (first | assumption | (intro _) | dsimp only | (fail_if_no_progress apply inv_mk) | split)

theorem State.setCq_inv {s : State} {q : Nat} {k : Queue} (h_s : s.Inv) : (State.setCq s q k).Inv := by
  unfold State.setCq
  with_reducible
    repeat' (first | assumption | (intro _) | dsimp only | (fail_if_no_progress apply inv_mk) | split)

theorem State.setHp_inv {s : State} {h : Nat} {k : HostPort} (h_s : s.Inv) : (State.setHp s h k).Inv := by
  unfold State.setHp
  with_reducible
    repeat' (first | assumption | (intro _) | dsimp only | (fail_if_no_progress apply inv_mk) | split)

theorem State.setDc_inv {s : State} {n : Nat} {k : Dc} (h_s : s.Inv) : (State.setDc s n k).Inv := by
  unfold State.setDc
  with_reducible
    repeat' (first | assumption | (intro _) | dsimp only | (fail_if_no_progress apply inv_mk) | split)

theorem State.setDrive_inv {s : State} {d : Nat} {k : Drive} (h_s : s.Inv) : (State.setDrive s d k).Inv := by
  unfold State.setDrive
  with_reducible
    repeat' (first | assumption | (intro _) | dsimp only | (fail_if_no_progress apply inv_mk) | split)

theorem State.setGrant_inv {s : State} {g : Nat} {k : Grant} (h_s : s.Inv) : (State.setGrant s g k).Inv := by
  unfold State.setGrant
  with_reducible
    repeat' (first | assumption | (intro _) | dsimp only | (fail_if_no_progress apply inv_mk) | split)

theorem State.setLink_inv {s : State} {l : Nat} {k : Link} (h_s : s.Inv) : (State.setLink s l k).Inv := by
  unfold State.setLink
  with_reducible
    repeat' (first | assumption | (intro _) | dsimp only | (fail_if_no_progress apply inv_mk) | split)

theorem State.setDu_inv {s : State} {u : Nat} {k : DuUnit} (h_s : s.Inv) : (State.setDu s u k).Inv := by
  unfold State.setDu
  with_reducible
    repeat' (first | assumption | (intro _) | dsimp only | (fail_if_no_progress apply inv_mk) | split)

theorem State.setAsaSet_inv {s : State} {b : Nat} {k : AsaSet} (h_s : s.Inv) : (State.setAsaSet s b k).Inv := by
  unfold State.setAsaSet
  with_reducible
    repeat' (first | assumption | (intro _) | dsimp only | (fail_if_no_progress apply inv_mk) | split)

theorem State.emit_inv {s : State} {o : Out} (h_s : s.Inv) : (State.emit s o).Inv := by
  unfold State.emit
  with_reducible
    repeat' (first | assumption | (intro _) | dsimp only | (fail_if_no_progress apply inv_mk) | split)

theorem State.msix_inv {s : State} {port : Nat} {vector : Nat} (h_s : s.Inv) : (State.msix s port vector).Inv := by
  unfold State.msix
  with_reducible
    repeat' (first | assumption | (intro _) | apply State.setHp_inv | apply State.emit_inv | apply inv_ite | dsimp only
                     | (fail_if_no_progress apply inv_mk) | split)

theorem State.handOver_inv {s : State} {src : Nat} (h_s : s.Inv) : (State.handOver s src).Inv := by
  unfold State.handOver
  with_reducible
    repeat' (first | assumption | (intro _) | apply State.msix_inv | apply inv_ite | dsimp only
                     | (fail_if_no_progress apply inv_mk) | split)

theorem State.raise_inv {s : State} {src : Nat} (h_s : s.Inv) : (State.raise s src).Inv := by
  unfold State.raise
  with_reducible
    repeat' (first | assumption | (intro _) | apply State.handOver_inv | dsimp only | (fail_if_no_progress apply inv_mk) | split)

theorem State.raisePart_inv {s : State} {p : Nat} {k : Nat} (h_s : s.Inv) : (State.raisePart s p k).Inv := by
  unfold State.raisePart
  with_reducible
    repeat' (first | assumption | (intro _) | apply State.raise_inv | dsimp only | (fail_if_no_progress apply inv_mk) | split)

theorem State.logSev_inv {s : State} {code : Nat} {sev : Nat} {inst : Nat} {part : Nat} {detail : Word} (h_s : s.Inv) :
    (State.logSev s code sev inst part detail).Inv := by
  unfold State.logSev
  with_reducible
    repeat' (first | assumption | (intro _) | apply State.raise_inv | dsimp only | (fail_if_no_progress apply inv_mk) | split)

theorem State.log_inv {s : State} {code : Nat} {inst : Nat} {part : Nat} {detail : Word} (h_s : s.Inv) : (State.log s code
    inst part detail).Inv := by
  unfold State.log
  with_reducible
    repeat' (first | assumption | (intro _) | apply State.logSev_inv | dsimp only | (fail_if_no_progress apply inv_mk) | split)

theorem State.hostSend_inv {s : State} {port : Nat} {pasid : Option Nat} {a : Nat} {bytes : List Byte} {ro : Bool} {vc1 :
    Bool} (h_s : s.Inv) : (State.hostSend s port pasid a bytes ro vc1).2.Inv := by
  unfold State.hostSend
  with_reducible
    repeat' (first | assumption | (intro _) | apply writeBytes_wf | apply filter_wf | apply inv_mem | apply State.emit_inv
                     | apply inv_ite_snd | apply inv_ite | dsimp only | (fail_if_no_progress apply inv_mk)
                     | (fail_if_no_progress apply inv_mk_wf) | split)
theorem State.hostSend_inv' {s : State} {port : Nat} {pasid : Option Nat} {a : Nat} {bytes : List Byte} {ro : Bool} {vc1 :
    Bool} {r0} {tE : State} (hE : (State.hostSend s port pasid a bytes ro vc1) = (r0, tE)) (h_s : s.Inv) : tE.Inv := by
  have h := @State.hostSend_inv s port pasid a bytes ro vc1 h_s; rw [hE] at h; exact h

theorem State.hostPost_inv {s : State} {port : Nat} {pasid : Option Nat} {a : Nat} {bytes : List Byte} (h_s : s.Inv) :
    (State.hostPost s port pasid a bytes).2.Inv := by
  unfold State.hostPost
  with_reducible
    repeat' (first | assumption | (intro _) | apply State.hostSend_inv | refine State.hostSend_inv' (by assumption) ?_
                     | dsimp only | (fail_if_no_progress apply inv_mk) | refine inv_snd (by assumption) ?_ | split)
theorem State.hostPost_inv' {s : State} {port : Nat} {pasid : Option Nat} {a : Nat} {bytes : List Byte} {r0} {tE : State}
    (hE : (State.hostPost s port pasid a bytes) = (r0, tE)) (h_s : s.Inv) : tE.Inv := by
  have h := @State.hostPost_inv s port pasid a bytes h_s; rw [hE] at h; exact h

theorem State.hostPostData_inv {s : State} {port : Nat} {pasid : Option Nat} {a : Nat} {bytes : List Byte} (h_s : s.Inv) :
    (State.hostPostData s port pasid a bytes).2.Inv := by
  unfold State.hostPostData
  with_reducible
    repeat' (first | assumption | (intro _) | apply State.hostSend_inv | refine State.hostSend_inv' (by assumption) ?_
                     | dsimp only | (fail_if_no_progress apply inv_mk) | refine inv_snd (by assumption) ?_ | split)
theorem State.hostPostData_inv' {s : State} {port : Nat} {pasid : Option Nat} {a : Nat} {bytes : List Byte} {r0} {tE :
    State} (hE : (State.hostPostData s port pasid a bytes) = (r0, tE)) (h_s : s.Inv) : tE.Inv := by
  have h := @State.hostPostData_inv s port pasid a bytes h_s; rw [hE] at h; exact h

theorem State.countTimeout_inv {s : State} {h : Nat} {timeout : Bool} (h_s : s.Inv) : (State.countTimeout s h timeout).Inv
    := by
  unfold State.countTimeout
  with_reducible
    repeat' (first | assumption | (intro _) | apply State.setHp_inv | apply inv_ite | dsimp only
                     | (fail_if_no_progress apply inv_mk) | split)

theorem State.hostTake_inv {s : State} {r : HostReq} {part : Option Nat} {d : Nat} {len : Nat} (h_s : s.Inv) :
    (State.hostTake s r part d len).2.Inv := by
  unfold State.hostTake
  with_reducible
    repeat' (first | assumption | (intro _) | apply inv_ite_snd | apply inv_ite | dsimp only | (fail_if_no_progress apply inv_mk)
                     | split)
theorem State.hostTake_inv' {s : State} {r : HostReq} {part : Option Nat} {d : Nat} {len : Nat} {r0} {tE : State} (hE :
    (State.hostTake s r part d len) = (r0, tE)) (h_s : s.Inv) : tE.Inv := by
  have h := @State.hostTake_inv s r part d len h_s; rw [hE] at h; exact h

theorem State.asking_inv {s : State} (h_s : s.Inv) : (State.asking s).Inv := by
  unfold State.asking
  with_reducible
    repeat' (first | assumption | (intro _) | dsimp only | (fail_if_no_progress apply inv_mk) | split)

theorem State.settled_inv {s : State} {rs : List HostReq} {t : State} (h_s : s.Inv) (h_t : t.Inv) : (State.settled s rs
    t).Inv := by
  unfold State.settled
  with_reducible
    repeat' (first | assumption | (intro _) | apply State.emit_inv | apply inv_ite | dsimp only
                     | (fail_if_no_progress apply inv_mk) | split)

theorem State.settle_inv {s : State} {rs : List HostReq} {f : State → State} (h_s : s.Inv) (h_f : ∀ x0, State.Inv x0 → (f
    x0).Inv) : (State.settle s rs f).Inv := by
  unfold State.settle
  with_reducible
    repeat' (first | assumption | (intro _) | apply State.asking_inv | apply State.settled_inv | dsimp only | apply_assumption
                     | (fail_if_no_progress apply inv_mk) | split)

theorem State.hostReturn_inv {s : State} {r : HostReq} {d : Nat} {st : Nat} (h_s : s.Inv) : (State.hostReturn s r d st).Inv
    := by
  unfold State.hostReturn
  with_reducible
    repeat' (first | assumption | (intro _) | dsimp only | (fail_if_no_progress apply inv_mk) | split)

theorem State.hostLost_inv {s : State} {port : Nat} (h_s : s.Inv) : (State.hostLost s port).Inv := by
  unfold State.hostLost
  with_reducible
    repeat' (first | assumption | (intro _) | dsimp only | (fail_if_no_progress apply inv_mk) | split)

theorem State.hostForget_inv {s : State} {r : HostReq} (h_s : s.Inv) : (State.hostForget s r).Inv := by
  unfold State.hostForget
  with_reducible
    repeat' (first | assumption | (intro _) | dsimp only | (fail_if_no_progress apply inv_mk) | split)

theorem State.unitsGoOn_inv {s : State} (h_s : s.Inv) : (State.unitsGoOn s).Inv := by
  unfold State.unitsGoOn
  with_reducible
    repeat' (first | assumption | (intro _) | apply inv_ite | dsimp only | (fail_if_no_progress apply inv_mk) | split)

theorem idleOp_inv {s0 : State} (h_s0 : s0.Inv) : (idleOp s0).Inv := by
  unfold idleOp
  with_reducible
    repeat' (first | assumption | (intro _) | apply State.free_inv | refine State.free_inv' (by assumption) ?_
                     | apply State.unitsGoOn_inv | apply inv_ite | dsimp only | (fail_if_no_progress apply inv_mk)
                     | refine inv_snd (by assumption) ?_ | split)

theorem State.reach_inv {s : State} {t : Word} (h_s : s.Inv) : (State.reach s t).Inv := by
  unfold State.reach
  with_reducible
    repeat' (first | assumption | (intro _) | apply inv_ite | dsimp only | (fail_if_no_progress apply inv_mk) | split)

end Sys2Proof.Machine
end

