-- ==== Sys2Proof/Laws/MemLanistail.lean ====
section
/-!
SUPPORT. The state functions of Machine/Lanistail.lean keep the canonical form of memory.
-/
namespace Sys2Proof.Machine

open Sys2Proof

set_option linter.unusedTactic false
set_option linter.unreachableTactic false
set_option linter.unusedSimpArgs false
set_option linter.unusedVariables false

theorem State.sendFlit_inv {s : State} {l : Nat} {ftype : Nat} {f : TxFlit} {seq : Nat} (h_s : s.Inv) : (State.sendFlit s l
    ftype f seq).Inv := by
  unfold State.sendFlit
  with_reducible
    repeat' (first | assumption | (intro _) | apply State.setLink_inv | apply State.emit_inv | dsimp only
                     | (fail_if_no_progress apply inv_mk) | split)

theorem State.sendPlain_inv {s : State} {l : Nat} {ftype : Nat} {payload : List Byte} (h_s : s.Inv) : (State.sendPlain s l
    ftype payload).Inv := by
  unfold State.sendPlain
  with_reducible
    repeat' (first | assumption | (intro _) | apply State.sendFlit_inv | dsimp only | (fail_if_no_progress apply inv_mk) | split)

theorem State.sendData_inv {s : State} {l : Nat} {f : TxFlit} (h_s : s.Inv) : (State.sendData s l f).Inv := by
  unfold State.sendData
  with_reducible
    repeat' (first | assumption | (intro _) | apply State.setLink_inv | apply State.sendFlit_inv | dsimp only
                     | (fail_if_no_progress apply inv_mk) | split)

theorem State.pump_inv {s : State} {l : Nat} {a0 : Nat} (h_s : s.Inv) : (State.pump s l a0).Inv := by
  induction a0 generalizing s l h_s with
  | zero =>
    unfold State.pump
    with_reducible
      repeat' (first | assumption | (intro _) | apply State.setLink_inv | apply State.sendData_inv | apply inv_foldl
                         | apply inv_foldl_snd | apply inv_foldl_fst | apply inv_ite | dsimp only | apply ih
                         | (fail_if_no_progress apply inv_mk) | split)
  | succ n ih =>
    unfold State.pump
    with_reducible
      repeat' (first | assumption | (intro _) | apply State.setLink_inv | apply State.sendData_inv | apply inv_foldl
                         | apply inv_foldl_snd | apply inv_foldl_fst | apply inv_ite | dsimp only | apply ih
                         | (fail_if_no_progress apply inv_mk) | split)

theorem State.sendOn_inv {s : State} {next : Bool} {kind : Nat} {dest : Nat} {src : Nat} {ttl : Nat} {body : List Byte} (h_s
    : s.Inv) : (State.sendOn s next kind dest src ttl body).Inv := by
  unfold State.sendOn
  with_reducible
    repeat' (first | assumption | (intro _) | apply State.setLink_inv | apply State.pump_inv | dsimp only
                     | (fail_if_no_progress apply inv_mk) | split)

theorem State.sendMsg_inv {s : State} {kind : Nat} {dest : Nat} {body : List Byte} (h_s : s.Inv) : (State.sendMsg s kind
    dest body).Inv := by
  unfold State.sendMsg
  with_reducible
    repeat' (first | assumption | (intro _) | apply State.sendOn_inv | apply inv_ite | dsimp only
                     | (fail_if_no_progress apply inv_mk) | split)

theorem State.takeAck_inv {s : State} {l : Nat} {flit : List Byte} (h_s : s.Inv) : (State.takeAck s l flit).Inv := by
  unfold State.takeAck
  with_reducible
    repeat' (first | assumption | (intro _) | apply State.setLink_inv | apply State.pump_inv | apply inv_ite | dsimp only
                     | (fail_if_no_progress apply inv_mk) | split)

theorem State.resend_inv {s : State} {l : Nat} (h_s : s.Inv) : (State.resend s l).Inv := by
  unfold State.resend
  with_reducible
    repeat' (first | assumption | (intro _) | apply State.setLink_inv | apply State.sendFlit_inv | apply inv_foldl
                     | apply inv_foldl_snd | apply inv_foldl_fst | apply inv_ite | dsimp only
                     | (fail_if_no_progress apply inv_mk) | split)

theorem State.sendNak_inv {s : State} {l : Nat} (h_s : s.Inv) : (State.sendNak s l).Inv := by
  unfold State.sendNak
  with_reducible
    repeat' (first | assumption | (intro _) | apply State.sendPlain_inv | dsimp only | (fail_if_no_progress apply inv_mk) | split)

end Sys2Proof.Machine
end

