-- ==== Sys2Proof/Laws/MemCache.lean ====
section
/-!
SUPPORT. The state functions of Machine/Cache.lean keep the canonical form of memory.
-/
namespace Sys2Proof.Machine

open Sys2Proof

set_option linter.unusedTactic false
set_option linter.unreachableTactic false
set_option linter.unusedSimpArgs false
set_option linter.unusedVariables false

theorem State.dcTake_inv {s : State} {d : Nat} {write : Bool} {cluster : Nat} {known : Bool} (h_s : s.Inv) : (State.dcTake s
    d write cluster known).Inv := by
  unfold State.dcTake
  with_reducible
    repeat' (first | assumption | (intro _) | apply State.setDc_inv | apply inv_ite | dsimp only
                     | (fail_if_no_progress apply inv_mk) | split)

theorem State.dcAccept_inv {s : State} {d : Nat} {write : Bool} {cluster : Nat} (h_s : s.Inv) : (State.dcAccept s d write
    cluster).Inv := by
  unfold State.dcAccept
  with_reducible
    repeat' (first | assumption | (intro _) | apply State.dcTake_inv | dsimp only | (fail_if_no_progress apply inv_mk) | split)

theorem State.memUncorrectable_inv {s : State} {d : Nat} (h_s : s.Inv) : (State.memUncorrectable s d).Inv := by
  unfold State.memUncorrectable
  with_reducible
    repeat' (first | assumption | (intro _) | apply State.setDc_inv | apply State.log_inv | apply inv_ite | dsimp only
                     | (fail_if_no_progress apply inv_mk) | split)

theorem State.memCorrected_inv {s : State} {d : Nat} (h_s : s.Inv) : (State.memCorrected s d).Inv := by
  unfold State.memCorrected
  with_reducible
    repeat' (first | assumption | (intro _) | apply State.setDc_inv | apply State.log_inv | apply inv_ite | dsimp only
                     | (fail_if_no_progress apply inv_mk) | split)

theorem State.memRead_inv {s : State} {line : Nat} {cluster : Nat} (h_s : s.Inv) : (State.memRead s line cluster).2.Inv :=
    by
  unfold State.memRead
  with_reducible
    repeat' (first | assumption | (intro _) | apply State.dcTake_inv | apply State.dcAccept_inv | apply State.memUncorrectable_inv
                     | apply inv_ite_snd | apply inv_ite | dsimp only | (fail_if_no_progress apply inv_mk) | split)
theorem State.memRead_inv' {s : State} {line : Nat} {cluster : Nat} {r0} {tE : State} (hE : (State.memRead s line cluster) =
    (r0, tE)) (h_s : s.Inv) : tE.Inv := by
  have h := @State.memRead_inv s line cluster h_s; rw [hE] at h; exact h

theorem State.memWrite_inv {s : State} {d : Nat} {bs : List Byte} (h_s : s.Inv) : (State.memWrite s d bs).Inv := by
  unfold State.memWrite
  with_reducible
    repeat' (first | assumption | (intro _) | apply writeBytes_wf | apply filter_wf | apply inv_mem | apply State.dcAccept_inv
                     | dsimp only | (fail_if_no_progress apply inv_mk) | (fail_if_no_progress apply inv_mk_wf) | split)

theorem State.memFar_inv {s : State} {d : Nat} {size : Nat} {cluster : Nat} {g : List Byte → List Byte} (h_s : s.Inv) :
    (State.memFar s d size cluster g).2.Inv := by
  unfold State.memFar
  with_reducible
    repeat' (first | assumption | (intro _) | apply writeBytes_wf | apply filter_wf | apply inv_mem | apply State.dcTake_inv
                     | apply State.memUncorrectable_inv | apply inv_ite_snd | apply inv_ite | dsimp only
                     | (fail_if_no_progress apply inv_mk) | (fail_if_no_progress apply inv_mk_wf) | split)
theorem State.memFar_inv' {s : State} {d : Nat} {size : Nat} {cluster : Nat} {g : List Byte → List Byte} {r0} {tE : State}
    (hE : (State.memFar s d size cluster g) = (r0, tE)) (h_s : s.Inv) : tE.Inv := by
  have h := @State.memFar_inv s d size cluster g h_s; rw [hE] at h; exact h

theorem State.memWritePoison_inv {s : State} {line : Nat} {bs : List Byte} (h_s : s.Inv) : (State.memWritePoison s line
    bs).Inv := by
  unfold State.memWritePoison
  with_reducible
    repeat' (first | assumption | (intro _) | apply writeBytes_wf | apply filter_wf | apply inv_mem | apply State.setDc_inv
                     | apply State.dcAccept_inv | dsimp only | (fail_if_no_progress apply inv_mk)
                     | (fail_if_no_progress apply inv_mk_wf) | split)

theorem State.onPps_inv {s : State} {c : Nat} {f : Pp → Pp} (h_s : s.Inv) : (State.onPps s c f).Inv := by
  unfold State.onPps
  with_reducible
    repeat' (first | assumption | (intro _) | apply State.setPp_inv | apply inv_foldl | apply inv_foldl_snd | apply inv_foldl_fst
                     | dsimp only | (fail_if_no_progress apply inv_mk) | split)

theorem State.l1dDrop_inv {s : State} {c : Nat} {line : Nat} (h_s : s.Inv) : (State.l1dDrop s c line).Inv := by
  unfold State.l1dDrop
  with_reducible
    repeat' (first | assumption | (intro _) | apply State.onPps_inv | apply inv_ite | dsimp only
                     | (fail_if_no_progress apply inv_mk) | split)

theorem State.l1iDrop_inv {s : State} {c : Nat} {line : Nat} (h_s : s.Inv) : (State.l1iDrop s c line).Inv := by
  unfold State.l1iDrop
  with_reducible
    repeat' (first | assumption | (intro _) | apply State.onPps_inv | apply inv_ite | dsimp only
                     | (fail_if_no_progress apply inv_mk) | split)

theorem State.l1Scrub_inv {s : State} {n : Nat} {i : Bool} {line : Nat} (h_s : s.Inv) : (State.l1Scrub s n i line).Inv := by
  unfold State.l1Scrub
  with_reducible
    repeat' (first | assumption | (intro _) | apply State.setPp_inv | apply State.setCl_inv | apply State.log_inv | apply inv_ite
                     | dsimp only | (fail_if_no_progress apply inv_mk) | split)

theorem State.l1dDropOthers_inv {s : State} {c : Nat} {line : Nat} {keep : Nat} (h_s : s.Inv) : (State.l1dDropOthers s c
    line keep).Inv := by
  unfold State.l1dDropOthers
  with_reducible
    repeat' (first | assumption | (intro _) | apply State.setPp_inv | apply inv_foldl | apply inv_foldl_snd | apply inv_foldl_fst
                     | apply inv_ite | dsimp only | (fail_if_no_progress apply inv_mk) | split)

theorem State.l2Bad_inv {s : State} {c : Nat} {line : Nat} {way : Nat} (h_s : s.Inv) : (State.l2Bad s c line way).Inv := by
  unfold State.l2Bad
  with_reducible
    repeat' (first | assumption | (intro _) | apply State.log_inv | dsimp only | (fail_if_no_progress apply inv_mk) | split)

theorem State.writeBackLine_inv {s : State} {c : Nat} {line : Nat} {e : L2Line} (h_s : s.Inv) : (State.writeBackLine s c
    line e).Inv := by
  unfold State.writeBackLine
  with_reducible
    repeat' (first | assumption | (intro _) | apply State.memWrite_inv | apply State.memWritePoison_inv | apply State.l2Bad_inv
                     | apply inv_ite | dsimp only | (fail_if_no_progress apply inv_mk) | split)

theorem State.l2DropLine_inv {s : State} {c : Nat} {line : Nat} (h_s : s.Inv) : (State.l2DropLine s c line).Inv := by
  unfold State.l2DropLine
  with_reducible
    repeat' (first | assumption | (intro _) | apply State.setCl_inv | apply State.l1dDrop_inv | dsimp only
                     | (fail_if_no_progress apply inv_mk) | split)

theorem State.sideScrub_inv {s : State} {c : Nat} {line : Nat} (h_s : s.Inv) : (State.sideScrub s c line).Inv := by
  unfold State.sideScrub
  with_reducible
    repeat' (first | assumption | (intro _) | apply State.setCl_inv | apply State.l2Bad_inv | apply inv_ite | dsimp only
                     | (fail_if_no_progress apply inv_mk) | split)

theorem State.l2Scrub_inv {s0 : State} {c : Nat} {line : Nat} (h_s0 : s0.Inv) : (State.l2Scrub s0 c line).Inv := by
  unfold State.l2Scrub
  with_reducible
    repeat' (first | assumption | (intro _) | apply State.setCl_inv | apply State.log_inv | apply State.l2Bad_inv
                     | apply State.l2DropLine_inv | apply State.sideScrub_inv | apply inv_ite | dsimp only
                     | (fail_if_no_progress apply inv_mk) | split)

theorem State.l2Meets_inv {s : State} {c : Nat} {line : Nat} (h_s : s.Inv) : (State.l2Meets s c line).2.Inv := by
  unfold State.l2Meets
  with_reducible
    repeat' (first | assumption | (intro _) | apply State.l2Bad_inv | apply State.l2Scrub_inv | apply inv_ite_snd | apply inv_ite
                     | dsimp only | (fail_if_no_progress apply inv_mk) | split)
theorem State.l2Meets_inv' {s : State} {c : Nat} {line : Nat} {r0} {tE : State} (hE : (State.l2Meets s c line) = (r0, tE))
    (h_s : s.Inv) : tE.Inv := by
  have h := @State.l2Meets_inv s c line h_s; rw [hE] at h; exact h

theorem State.l2CleanLine_inv {s0 : State} {c : Nat} {line : Nat} (h_s0 : s0.Inv) : (State.l2CleanLine s0 c line).Inv := by
  unfold State.l2CleanLine
  with_reducible
    repeat' (first | assumption | (intro _) | apply State.setCl_inv | apply State.writeBackLine_inv | apply State.l2Scrub_inv
                     | apply inv_ite | dsimp only | (fail_if_no_progress apply inv_mk) | split)

theorem State.l2Evict_inv {s : State} {c : Nat} {line : Nat} (h_s : s.Inv) : (State.l2Evict s c line).Inv := by
  unfold State.l2Evict
  with_reducible
    repeat' (first | assumption | (intro _) | apply State.l2DropLine_inv | apply State.l2CleanLine_inv | dsimp only
                     | (fail_if_no_progress apply inv_mk) | split)

theorem State.l2Alloc_inv {s : State} {c : Nat} {line : Nat} {bs : List Byte} {dirty : Bool} {poison : Bool} {pilot : Bool}
    (h_s : s.Inv) : (State.l2Alloc s c line bs dirty poison pilot).Inv := by
  unfold State.l2Alloc
  with_reducible
    repeat' (first | assumption | (intro _) | apply State.setCl_inv | apply State.l2Evict_inv | dsimp only
                     | (fail_if_no_progress apply inv_mk) | split)

theorem State.sideFill_inv {s : State} {c : Nat} {line : Nat} (h_s : s.Inv) : (State.sideFill s c line).Inv := by
  unfold State.sideFill
  with_reducible
    repeat' (first | assumption | (intro _) | apply State.setCl_inv | apply State.dcAccept_inv | apply inv_ite | dsimp only
                     | (fail_if_no_progress apply inv_mk) | split)

theorem State.l2Read_inv {s0 : State} {c : Nat} {line : Nat} {req : Nat} {pilot : Bool} (h_s0 : s0.Inv) : (State.l2Read s0 c
    line req pilot).2.Inv := by
  unfold State.l2Read
  with_reducible
    repeat' (first | assumption | (intro _) | apply State.setCl_inv | apply State.memRead_inv
                     | refine State.memRead_inv' (by assumption) ?_ | apply State.l2Meets_inv
                     | refine State.l2Meets_inv' (by assumption) ?_ | apply State.l2Alloc_inv | apply inv_ite_snd
                     | apply inv_ite | dsimp only | (fail_if_no_progress apply inv_mk) | refine inv_snd (by assumption) ?_
                     | split)
theorem State.l2Read_inv' {s0 : State} {c : Nat} {line : Nat} {req : Nat} {pilot : Bool} {r0} {tE : State} (hE :
    (State.l2Read s0 c line req pilot) = (r0, tE)) (h_s0 : s0.Inv) : tE.Inv := by
  have h := @State.l2Read_inv s0 c line req pilot h_s0; rw [hE] at h; exact h

theorem State.ppLoadLine_inv {s0 : State} {n : Nat} {line : Nat} {pilot : Bool} (h_s0 : s0.Inv) : (State.ppLoadLine s0 n
    line pilot).2.Inv := by
  unfold State.ppLoadLine
  with_reducible
    repeat' (first | assumption | (intro _) | apply State.setPp_inv | apply State.l1Scrub_inv | apply State.l2Read_inv
                     | refine State.l2Read_inv' (by assumption) ?_ | apply inv_ite_snd | apply inv_ite | dsimp only
                     | (fail_if_no_progress apply inv_mk) | refine inv_snd (by assumption) ?_ | split)
theorem State.ppLoadLine_inv' {s0 : State} {n : Nat} {line : Nat} {pilot : Bool} {r0} {tE : State} (hE : (State.ppLoadLine
    s0 n line pilot) = (r0, tE)) (h_s0 : s0.Inv) : tE.Inv := by
  have h := @State.ppLoadLine_inv s0 n line pilot h_s0; rw [hE] at h; exact h

theorem State.ppFetchLine_inv {s0 : State} {n : Nat} {line : Nat} {pilot : Bool} (h_s0 : s0.Inv) : (State.ppFetchLine s0 n
    line pilot).2.Inv := by
  unfold State.ppFetchLine
  with_reducible
    repeat' (first | assumption | (intro _) | apply State.setPp_inv | apply State.l1Scrub_inv | apply State.l2Read_inv
                     | refine State.l2Read_inv' (by assumption) ?_ | apply inv_ite_snd | apply inv_ite | dsimp only
                     | (fail_if_no_progress apply inv_mk) | refine inv_snd (by assumption) ?_ | split)
theorem State.ppFetchLine_inv' {s0 : State} {n : Nat} {line : Nat} {pilot : Bool} {r0} {tE : State} (hE : (State.ppFetchLine
    s0 n line pilot) = (r0, tE)) (h_s0 : s0.Inv) : tE.Inv := by
  have h := @State.ppFetchLine_inv s0 n line pilot h_s0; rw [hE] at h; exact h

theorem State.l2Store_inv {s : State} {c : Nat} {keep : Nat} {d : Nat} {bs : List Byte} {pilot : Bool} (h_s : s.Inv) :
    (State.l2Store s c keep d bs pilot).Inv := by
  unfold State.l2Store
  with_reducible
    repeat' (first | assumption | (intro _) | apply State.setCl_inv | apply State.memRead_inv
                     | refine State.memRead_inv' (by assumption) ?_ | apply State.memWrite_inv | apply State.l1dDropOthers_inv
                     | apply State.l2Alloc_inv | apply inv_ite | dsimp only | (fail_if_no_progress apply inv_mk)
                     | refine inv_snd (by assumption) ?_ | split)

theorem State.unitReadLine_inv {s0 : State} {c : Nat} {line : Nat} (h_s0 : s0.Inv) : (State.unitReadLine s0 c line).2.Inv :=
    by
  unfold State.unitReadLine
  with_reducible
    repeat' (first | assumption | (intro _) | apply State.memRead_inv | refine State.memRead_inv' (by assumption) ?_
                     | apply State.l2Meets_inv | refine State.l2Meets_inv' (by assumption) ?_ | apply inv_ite_snd
                     | apply inv_ite | dsimp only | (fail_if_no_progress apply inv_mk) | refine inv_snd (by assumption) ?_
                     | split)
theorem State.unitReadLine_inv' {s0 : State} {c : Nat} {line : Nat} {r0} {tE : State} (hE : (State.unitReadLine s0 c line) =
    (r0, tE)) (h_s0 : s0.Inv) : tE.Inv := by
  have h := @State.unitReadLine_inv s0 c line h_s0; rw [hE] at h; exact h

theorem State.bypassRead_inv {s : State} {c : Nat} {line : Nat} (h_s : s.Inv) : (State.bypassRead s c line).2.Inv := by
  unfold State.bypassRead
  with_reducible
    repeat' (first | assumption | (intro _) | apply State.memRead_inv | refine State.memRead_inv' (by assumption) ?_
                     | apply State.l2CleanLine_inv | dsimp only | (fail_if_no_progress apply inv_mk)
                     | refine inv_snd (by assumption) ?_ | split)
theorem State.bypassRead_inv' {s : State} {c : Nat} {line : Nat} {r0} {tE : State} (hE : (State.bypassRead s c line) = (r0,
    tE)) (h_s : s.Inv) : tE.Inv := by
  have h := @State.bypassRead_inv s c line h_s; rw [hE] at h; exact h

theorem State.dmStore_inv {s : State} {c : Nat} {d : Nat} {bs : List Byte} (h_s : s.Inv) : (State.dmStore s c d bs).Inv :=
    by
  unfold State.dmStore
  with_reducible
    repeat' (first | assumption | (intro _) | apply State.setCl_inv | apply State.memWrite_inv | apply State.l1dDrop_inv
                     | apply inv_ite | dsimp only | (fail_if_no_progress apply inv_mk) | split)

theorem State.dmStores_inv {s : State} {c : Nat} {d : Nat} {bs : List Byte} {a0 : Nat} (h_s : s.Inv) : (State.dmStores s c d
    bs a0).Inv := by
  induction a0 generalizing s c d bs h_s with
  | zero =>
    unfold State.dmStores
    with_reducible
      repeat' (first | assumption | (intro _) | apply State.dmStore_inv | apply inv_ite | dsimp only | apply ih
                         | (fail_if_no_progress apply inv_mk) | split)
  | succ n ih =>
    unfold State.dmStores
    with_reducible
      repeat' (first | assumption | (intro _) | apply State.dmStore_inv | apply inv_ite | dsimp only | apply ih
                         | (fail_if_no_progress apply inv_mk) | split)

theorem State.wpWrite_inv {s : State} {c : Nat} {d : Nat} {bs : List Byte} (h_s : s.Inv) : (State.wpWrite s c d bs).Inv :=
    by
  unfold State.wpWrite
  with_reducible
    repeat' (first | assumption | (intro _) | apply writeBytes_wf | apply filter_wf | apply inv_mem | apply State.dmStores_inv
                     | apply inv_ite | dsimp only | (fail_if_no_progress apply inv_mk) | (fail_if_no_progress apply inv_mk_wf)
                     | split)

theorem State.wpRead_inv {s : State} {c : Nat} {d : Nat} {len : Nat} (h_s : s.Inv) : (State.wpRead s c d len).2.Inv := by
  unfold State.wpRead
  with_reducible
    repeat' (first | assumption | (intro _) | apply State.memUncorrectable_inv | apply State.l2Meets_inv
                     | refine State.l2Meets_inv' (by assumption) ?_ | apply inv_foldl | apply inv_foldl_snd
                     | apply inv_foldl_fst | apply inv_ite_snd | apply inv_ite | dsimp only | (fail_if_no_progress apply inv_mk)
                     | refine inv_snd (by assumption) ?_ | split)
theorem State.wpRead_inv' {s : State} {c : Nat} {d : Nat} {len : Nat} {r0} {tE : State} (hE : (State.wpRead s c d len) =
    (r0, tE)) (h_s : s.Inv) : tE.Inv := by
  have h := @State.wpRead_inv s c d len h_s; rw [hE] at h; exact h

theorem State.farCaches_inv {s : State} {c : Nat} {line : Nat} (h_s : s.Inv) : (State.farCaches s c line).Inv := by
  unfold State.farCaches
  with_reducible
    repeat' (first | assumption | (intro _) | apply State.setCl_inv | apply State.l1iDrop_inv | apply State.l2Evict_inv
                     | dsimp only | (fail_if_no_progress apply inv_mk) | split)

theorem State.cleanWhere_inv {s : State} {c : Nat} {p : Nat → Bool} (h_s : s.Inv) : (State.cleanWhere s c p).2.Inv := by
  unfold State.cleanWhere
  with_reducible
    repeat' (first | assumption | (intro _) | apply State.l2Scrub_inv | apply State.l2CleanLine_inv | apply inv_foldl
                     | apply inv_foldl_snd | apply inv_foldl_fst | dsimp only | (fail_if_no_progress apply inv_mk) | split)
theorem State.cleanWhere_inv' {s : State} {c : Nat} {p : Nat → Bool} {r0} {tE : State} (hE : (State.cleanWhere s c p) = (r0,
    tE)) (h_s : s.Inv) : tE.Inv := by
  have h := @State.cleanWhere_inv s c p h_s; rw [hE] at h; exact h

theorem State.cleanRange_inv {s : State} {c : Nat} {a : Nat} {len : Nat} (h_s : s.Inv) : (State.cleanRange s c a len).2.Inv
    := by
  unfold State.cleanRange
  with_reducible
    repeat' (first | assumption | (intro _) | apply State.cleanWhere_inv | refine State.cleanWhere_inv' (by assumption) ?_
                     | apply inv_ite_snd | apply inv_ite | dsimp only | (fail_if_no_progress apply inv_mk)
                     | refine inv_snd (by assumption) ?_ | split)
theorem State.cleanRange_inv' {s : State} {c : Nat} {a : Nat} {len : Nat} {r0} {tE : State} (hE : (State.cleanRange s c a
    len) = (r0, tE)) (h_s : s.Inv) : tE.Inv := by
  have h := @State.cleanRange_inv s c a len h_s; rw [hE] at h; exact h

end Sys2Proof.Machine
end

