-- ==== Sys2Proof/Laws/MemTranslate.lean ====
section
/-!
SUPPORT. The state functions of Machine/Translate.lean keep the canonical form of memory.
-/
namespace Sys2Proof.Machine

open Sys2Proof

set_option linter.unusedTactic false
set_option linter.unreachableTactic false
set_option linter.unusedSimpArgs false
set_option linter.unusedVariables false

theorem State.setWalk_inv {s : State} {a0 : WSel} {a1 : List WalkEntry} (h_s : s.Inv) : (State.setWalk s a0 a1).Inv := by
  unfold State.setWalk
  with_reducible
    repeat' (first | assumption | (intro _) | apply State.setCl_inv | dsimp only | (fail_if_no_progress apply inv_mk) | split)

theorem State.walkKeep_inv {s : State} {sel : WSel} {e : WalkEntry} (h_s : s.Inv) : (State.walkKeep s sel e).Inv := by
  unfold State.walkKeep
  with_reducible
    repeat' (first | assumption | (intro _) | apply State.free_inv | refine State.free_inv' (by assumption) ?_
                     | apply State.setWalk_inv | apply inv_ite | dsimp only | (fail_if_no_progress apply inv_mk)
                     | refine inv_snd (by assumption) ?_ | split)

theorem State.walkMissed_inv {s : State} {a0 : WSel} (h_s : s.Inv) : (State.walkMissed s a0).Inv := by
  unfold State.walkMissed
  with_reducible
    repeat' (first | assumption | (intro _) | apply State.setCl_inv | dsimp only | (fail_if_no_progress apply inv_mk) | split)

theorem State.readEntry_inv {s : State} {sel : WSel} {part : Nat} {st : Stage} {tag : Nat} {d : Nat} {dev : Bool} {host :
    Bool} (h_s : s.Inv) : (State.readEntry s sel part st tag d dev host).2.Inv := by
  unfold State.readEntry
  with_reducible
    repeat' (first | assumption | (intro _) | apply State.log_inv | apply State.hostTake_inv
                     | refine State.hostTake_inv' (by assumption) ?_ | apply State.memRead_inv
                     | refine State.memRead_inv' (by assumption) ?_ | apply State.bypassRead_inv
                     | refine State.bypassRead_inv' (by assumption) ?_ | apply State.walkMissed_inv | apply inv_ite_snd
                     | apply inv_ite | dsimp only | (fail_if_no_progress apply inv_mk) | refine inv_snd (by assumption) ?_
                     | split)
theorem State.readEntry_inv' {s : State} {sel : WSel} {part : Nat} {st : Stage} {tag : Nat} {d : Nat} {dev : Bool} {host :
    Bool} {r0} {tE : State} (hE : (State.readEntry s sel part st tag d dev host) = (r0, tE)) (h_s : s.Inv) : tE.Inv := by
  have h := @State.readEntry_inv s sel part st tag d dev host h_s; rw [hE] at h; exact h

theorem State.checkEntry_inv {s : State} {sel : WSel} {part : Nat} {st : Stage} {level : Nat} {tag : Nat} {e : Word} {hit :
    Bool} (h_s : s.Inv) : (State.checkEntry s sel part st level tag e hit).2.Inv := by
  unfold State.checkEntry
  with_reducible
    repeat' (first | assumption | (intro _) | apply State.walkKeep_inv | apply inv_ite_snd | apply inv_ite | dsimp only
                     | (fail_if_no_progress apply inv_mk) | split)
theorem State.checkEntry_inv' {s : State} {sel : WSel} {part : Nat} {st : Stage} {level : Nat} {tag : Nat} {e : Word} {hit :
    Bool} {r0} {tE : State} (hE : (State.checkEntry s sel part st level tag e hit) = (r0, tE)) (h_s : s.Inv) : tE.Inv := by
  have h := @State.checkEntry_inv s sel part st level tag e hit h_s; rw [hE] at h; exact h

theorem State.stepS2_inv {s : State} {sel : WSel} {part : Nat} {st : Stage} {a : Nat} {level : Nat} {table : Nat} (h_s :
    s.Inv) : (State.stepS2 s sel part st a level table).2.Inv := by
  unfold State.stepS2
  with_reducible
    repeat' (first | assumption | (intro _) | apply State.readEntry_inv | refine State.readEntry_inv' (by assumption) ?_
                     | apply State.checkEntry_inv | refine State.checkEntry_inv' (by assumption) ?_ | dsimp only
                     | (fail_if_no_progress apply inv_mk) | refine inv_snd (by assumption) ?_ | split)
theorem State.stepS2_inv' {s : State} {sel : WSel} {part : Nat} {st : Stage} {a : Nat} {level : Nat} {table : Nat} {r0} {tE
    : State} (hE : (State.stepS2 s sel part st a level table) = (r0, tE)) (h_s : s.Inv) : tE.Inv := by
  have h := @State.stepS2_inv s sel part st a level table h_s; rw [hE] at h; exact h

theorem State.walkS2At_inv {s : State} {sel : WSel} {part : Nat} {st : Stage} {a : Nat} {a0 : Nat} {a1 : Nat} {a2 : Nat}
    (h_s : s.Inv) : (State.walkS2At s sel part st a a0 a1 a2).2.Inv := by
  induction a0 generalizing s sel part st a a1 a2 h_s with
  | zero =>
    unfold State.walkS2At
    with_reducible
      repeat' (first | assumption | (intro _) | apply State.stepS2_inv | refine State.stepS2_inv' (by assumption) ?_
                         | apply inv_ite_snd | apply inv_ite | dsimp only | apply ih | (fail_if_no_progress apply inv_mk)
                         | refine inv_snd (by assumption) ?_ | split)
  | succ n ih =>
    unfold State.walkS2At
    with_reducible
      repeat' (first | assumption | (intro _) | apply State.stepS2_inv | refine State.stepS2_inv' (by assumption) ?_
                         | apply inv_ite_snd | apply inv_ite | dsimp only | apply ih | (fail_if_no_progress apply inv_mk)
                         | refine inv_snd (by assumption) ?_ | split)
theorem State.walkS2At_inv' {s : State} {sel : WSel} {part : Nat} {st : Stage} {a : Nat} {a0 : Nat} {a1 : Nat} {a2 : Nat}
    {r0} {tE : State} (hE : (State.walkS2At s sel part st a a0 a1 a2) = (r0, tE)) (h_s : s.Inv) : tE.Inv := by
  have h := @State.walkS2At_inv s sel part st a a0 a1 a2 h_s; rw [hE] at h; exact h

theorem State.walkS2_inv {s : State} {sel : WSel} {part : Nat} {st : Stage} {a : Nat} {f : Nat} {level : Nat} {table : Nat}
    (h_s : s.Inv) : (State.walkS2 s sel part st a f level table).2.Inv := by
  unfold State.walkS2
  with_reducible
    repeat' (first | assumption | (intro _) | apply State.walkS2At_inv | refine State.walkS2At_inv' (by assumption) ?_
                     | dsimp only | (fail_if_no_progress apply inv_mk) | refine inv_snd (by assumption) ?_ | split)
theorem State.walkS2_inv' {s : State} {sel : WSel} {part : Nat} {st : Stage} {a : Nat} {f : Nat} {level : Nat} {table : Nat}
    {r0} {tE : State} (hE : (State.walkS2 s sel part st a f level table) = (r0, tE)) (h_s : s.Inv) : tE.Inv := by
  have h := @State.walkS2_inv s sel part st a f level table h_s; rw [hE] at h; exact h

theorem State.stage2_inv {s : State} {sel : WSel} {part : Nat} {ppa : Nat} (h_s : s.Inv) : (State.stage2 s sel part
    ppa).2.Inv := by
  unfold State.stage2
  with_reducible
    repeat' (first | assumption | (intro _) | apply State.walkS2_inv | refine State.walkS2_inv' (by assumption) ?_ | dsimp only
                     | (fail_if_no_progress apply inv_mk) | refine inv_snd (by assumption) ?_ | split)
theorem State.stage2_inv' {s : State} {sel : WSel} {part : Nat} {ppa : Nat} {r0} {tE : State} (hE : (State.stage2 s sel part
    ppa) = (r0, tE)) (h_s : s.Inv) : tE.Inv := by
  have h := @State.stage2_inv s sel part ppa h_s; rw [hE] at h; exact h

theorem State.stepS1_inv {s : State} {sel : WSel} {part : Nat} {a : Nat} {level : Nat} {table : Nat} (h_s : s.Inv) :
    (State.stepS1 s sel part a level table).2.Inv := by
  unfold State.stepS1
  with_reducible
    repeat' (first | assumption | (intro _) | apply State.readEntry_inv | refine State.readEntry_inv' (by assumption) ?_
                     | apply State.checkEntry_inv | refine State.checkEntry_inv' (by assumption) ?_ | apply State.walkS2At_inv
                     | refine State.walkS2At_inv' (by assumption) ?_ | apply inv_ite_snd | apply inv_ite | dsimp only
                     | (fail_if_no_progress apply inv_mk) | refine inv_snd (by assumption) ?_ | split)
theorem State.stepS1_inv' {s : State} {sel : WSel} {part : Nat} {a : Nat} {level : Nat} {table : Nat} {r0} {tE : State} (hE
    : (State.stepS1 s sel part a level table) = (r0, tE)) (h_s : s.Inv) : tE.Inv := by
  have h := @State.stepS1_inv s sel part a level table h_s; rw [hE] at h; exact h

theorem State.walkS1_inv {s : State} {sel : WSel} {part : Nat} {va : Nat} {a0 : Nat} {a1 : Nat} {a2 : Nat} (h_s : s.Inv) :
    (State.walkS1 s sel part va a0 a1 a2).2.Inv := by
  induction a0 generalizing s sel part va a1 a2 h_s with
  | zero =>
    unfold State.walkS1
    with_reducible
      repeat' (first | assumption | (intro _) | apply State.stepS1_inv | refine State.stepS1_inv' (by assumption) ?_
                         | apply inv_ite_snd | apply inv_ite | dsimp only | apply ih | (fail_if_no_progress apply inv_mk)
                         | refine inv_snd (by assumption) ?_ | split)
  | succ n ih =>
    unfold State.walkS1
    with_reducible
      repeat' (first | assumption | (intro _) | apply State.stepS1_inv | refine State.stepS1_inv' (by assumption) ?_
                         | apply inv_ite_snd | apply inv_ite | dsimp only | apply ih | (fail_if_no_progress apply inv_mk)
                         | refine inv_snd (by assumption) ?_ | split)
theorem State.walkS1_inv' {s : State} {sel : WSel} {part : Nat} {va : Nat} {a0 : Nat} {a1 : Nat} {a2 : Nat} {r0} {tE :
    State} (hE : (State.walkS1 s sel part va a0 a1 a2) = (r0, tE)) (h_s : s.Inv) : tE.Inv := by
  have h := @State.walkS1_inv s sel part va a0 a1 a2 h_s; rw [hE] at h; exact h

theorem State.setUnitTlb_inv {s : State} {a0 : WSel} {a1 : List XEntry} (h_s : s.Inv) : (State.setUnitTlb s a0 a1).Inv := by
  unfold State.setUnitTlb
  with_reducible
    repeat' (first | assumption | (intro _) | apply State.setCl_inv | dsimp only | (fail_if_no_progress apply inv_mk) | split)

theorem State.tlbKeep_inv {s : State} {sel : WSel} {cap : Nat} {x : XEntry} (h_s : s.Inv) : (State.tlbKeep s sel cap x).Inv
    := by
  unfold State.tlbKeep
  with_reducible
    repeat' (first | assumption | (intro _) | apply State.free_inv | refine State.free_inv' (by assumption) ?_
                     | apply State.setUnitTlb_inv | apply inv_ite | dsimp only | (fail_if_no_progress apply inv_mk)
                     | refine inv_snd (by assumption) ?_ | split)

theorem State.xlateUnit_inv {s : State} {sel : WSel} {part : Nat} {va : Nat} {need : Need} (h_s : s.Inv) : (State.xlateUnit
    s sel part va need).2.Inv := by
  unfold State.xlateUnit
  with_reducible
    repeat' (first | assumption | (intro _) | apply State.stage2_inv | refine State.stage2_inv' (by assumption) ?_
                     | apply State.walkS1_inv | refine State.walkS1_inv' (by assumption) ?_ | apply State.tlbKeep_inv
                     | apply inv_ite_snd | apply inv_ite | dsimp only | (fail_if_no_progress apply inv_mk)
                     | refine inv_snd (by assumption) ?_ | split)
theorem State.xlateUnit_inv' {s : State} {sel : WSel} {part : Nat} {va : Nat} {need : Need} {r0} {tE : State} (hE :
    (State.xlateUnit s sel part va need) = (r0, tE)) (h_s : s.Inv) : tE.Inv := by
  have h := @State.xlateUnit_inv s sel part va need h_s; rw [hE] at h; exact h

theorem State.sttXlate_inv {s : State} {part : Nat} {ppa : Nat} {need : Need} (h_s : s.Inv) : (State.sttXlate s part ppa
    need).2.Inv := by
  unfold State.sttXlate
  with_reducible
    repeat' (first | assumption | (intro _) | apply State.walkS2_inv | refine State.walkS2_inv' (by assumption) ?_
                     | apply inv_ite_snd | apply inv_ite | dsimp only | (fail_if_no_progress apply inv_mk)
                     | refine inv_snd (by assumption) ?_ | split)
theorem State.sttXlate_inv' {s : State} {part : Nat} {ppa : Nat} {need : Need} {r0} {tE : State} (hE : (State.sttXlate s
    part ppa need) = (r0, tE)) (h_s : s.Inv) : tE.Inv := by
  have h := @State.sttXlate_inv s part ppa need h_s; rw [hE] at h; exact h

theorem State.dpaRefused_inv {s : State} {part : Nat} {inst : Nat} {d : Nat} (h_s : s.Inv) : (State.dpaRefused s part inst
    d).2.Inv := by
  unfold State.dpaRefused
  with_reducible
    repeat' (first | assumption | (intro _) | apply State.log_inv | dsimp only | (fail_if_no_progress apply inv_mk) | split)
theorem State.dpaRefused_inv' {s : State} {part : Nat} {inst : Nat} {d : Nat} {r0} {tE : State} (hE : (State.dpaRefused s
    part inst d) = (r0, tE)) (h_s : s.Inv) : tE.Inv := by
  have h := @State.dpaRefused_inv s part inst d h_s; rw [hE] at h; exact h

theorem State.sttAccess_inv {s : State} {part : Nat} {ppa : Nat} {need : Need} (h_s : s.Inv) : (State.sttAccess s part ppa
    need).2.Inv := by
  unfold State.sttAccess
  with_reducible
    repeat' (first | assumption | (intro _) | apply State.sttXlate_inv | refine State.sttXlate_inv' (by assumption) ?_
                     | apply State.dpaRefused_inv | refine State.dpaRefused_inv' (by assumption) ?_ | dsimp only
                     | (fail_if_no_progress apply inv_mk) | refine inv_snd (by assumption) ?_ | split)
theorem State.sttAccess_inv' {s : State} {part : Nat} {ppa : Nat} {need : Need} {r0} {tE : State} (hE : (State.sttAccess s
    part ppa need) = (r0, tE)) (h_s : s.Inv) : tE.Inv := by
  have h := @State.sttAccess_inv s part ppa need h_s; rw [hE] at h; exact h

theorem State.faultRecord_inv {s : State} {c : FaultCtx} {f : XFault} {write : Bool} {exec : Bool} {addr : Nat} (h_s :
    s.Inv) : (State.faultRecord s c f write exec addr).Inv := by
  unfold State.faultRecord
  with_reducible
    repeat' (first | assumption | (intro _) | apply State.setPart_inv | apply State.raisePart_inv | apply State.log_inv
                     | apply State.hostPost_inv | refine State.hostPost_inv' (by assumption) ?_ | apply State.memWrite_inv
                     | apply State.sttAccess_inv | refine State.sttAccess_inv' (by assumption) ?_ | apply inv_ite | dsimp only
                     | (fail_if_no_progress apply inv_mk) | refine inv_snd (by assumption) ?_ | split)

theorem State.dropStages_inv {s : State} {p : Nat} {range : Option (Nat × Nat)} (h_s : s.Inv) : (State.dropStages s p
    range).Inv := by
  unfold State.dropStages
  with_reducible
    repeat' (first | assumption | (intro _) | dsimp only | (fail_if_no_progress apply inv_mk) | split)

theorem State.dropStu_inv {s : State} {p : Nat} {range : Option (Nat × Nat)} (h_s : s.Inv) : (State.dropStu s p range).Inv
    := by
  unfold State.dropStu
  with_reducible
    repeat' (first | assumption | (intro _) | dsimp only | (fail_if_no_progress apply inv_mk) | split)

theorem State.setStale_inv {s : State} {p : Nat} (h_s : s.Inv) : (State.setStale s p).Inv := by
  unfold State.setStale
  with_reducible
    repeat' (first | assumption | (intro _) | apply inv_ite | dsimp only | (fail_if_no_progress apply inv_mk) | split)

theorem State.dropAllOf_inv {s : State} {p : Nat} (h_s : s.Inv) : (State.dropAllOf s p).Inv := by
  unfold State.dropAllOf
  with_reducible
    repeat' (first | assumption | (intro _) | apply State.dropStages_inv | apply State.dropStu_inv | apply State.setStale_inv
                     | dsimp only | (fail_if_no_progress apply inv_mk) | split)

end Sys2Proof.Machine
end

