-- ==== Sys2Proof/Laws/MemLegs.lean ====
section
/-!
SUPPORT. The state functions of Machine/Legs.lean keep the canonical form of memory.
-/
namespace Sys2Proof.Machine

open Sys2Proof

set_option linter.unusedTactic false
set_option linter.unreachableTactic false
set_option linter.unusedSimpArgs false
set_option linter.unusedVariables false

theorem State.chargeLeg_inv {s : State} {l : Nat} {n : Nat} {ch : Nat} (h_s : s.Inv) : (State.chargeLeg s l n ch).Inv := by
  unfold State.chargeLeg
  with_reducible
    repeat' (first | assumption | (intro _) | apply State.setPp_inv | apply State.setCl_inv | apply State.setLeg_inv | dsimp only
                     | (fail_if_no_progress apply inv_mk) | split)

theorem State.prefetchLeg_inv {s : State} {n : Nat} {g : Leg} (h_s : s.Inv) : (State.prefetchLeg s n g).Inv := by
  unfold State.prefetchLeg
  with_reducible
    repeat' (first | assumption | (intro _) | apply State.ppLoadLine_inv | refine State.ppLoadLine_inv' (by assumption) ?_
                     | apply State.ppFetchLine_inv | refine State.ppFetchLine_inv' (by assumption) ?_ | apply inv_foldl
                     | apply inv_foldl_snd | apply inv_foldl_fst | apply inv_ite | dsimp only
                     | (fail_if_no_progress apply inv_mk) | refine inv_snd (by assumption) ?_ | split)

theorem State.admitTo_inv {s : State} {l : Nat} {g : Leg} {n : Nat} {ch : Nat} (h_s : s.Inv) : (State.admitTo s l g n
    ch).Inv := by
  unfold State.admitTo
  with_reducible
    repeat' (first | assumption | (intro _) | apply State.setPp_inv | apply State.setLeg_inv | apply State.chargeLeg_inv
                     | apply State.prefetchLeg_inv | dsimp only | (fail_if_no_progress apply inv_mk) | split)

theorem State.wpPlace_inv {s : State} {c : Nat} {k : Nat} {g : Leg} (h_s : s.Inv) : (State.wpPlace s c k g).Inv := by
  unfold State.wpPlace
  with_reducible
    repeat' (first | assumption | (intro _) | apply State.wpWrite_inv | dsimp only | (fail_if_no_progress apply inv_mk) | split)

theorem State.tryAdmit_inv {s : State} {c : Nat} {within : Bool} {e : Nat × Leg} (h_s : s.Inv) : OptInv (State.tryAdmit s c
    within e) := by
  unfold State.tryAdmit
  with_reducible
    repeat' (first | assumption | (intro _) | apply State.admitTo_inv | apply State.wpPlace_inv | exact optInv_none
                     | apply optInv_some | apply optInv_findSome | apply optInv_map | refine optInv_elim (by assumption) ?_
                     | apply optInv_ite | apply inv_ite | dsimp only | (fail_if_no_progress apply inv_mk) | split)

theorem State.admitOne_inv {s : State} {c : Nat} (h_s : s.Inv) : OptInv (State.admitOne s c) := by
  unfold State.admitOne
  with_reducible
    repeat' (first | assumption | (intro _) | apply State.admitTo_inv | apply State.tryAdmit_inv | exact optInv_none
                     | apply optInv_some | apply optInv_findSome | apply optInv_map | refine optInv_elim (by assumption) ?_
                     | dsimp only | (fail_if_no_progress apply inv_mk) | split)

theorem State.admitLoop_inv {s : State} {c : Nat} {a0 : Nat} (h_s : s.Inv) : (State.admitLoop s c a0).Inv := by
  induction a0 generalizing s c h_s with
  | zero =>
    unfold State.admitLoop
    with_reducible
      repeat' (first | assumption | (intro _) | apply State.admitOne_inv | refine optInv_elim (by assumption) ?_ | dsimp only
                         | apply ih | (fail_if_no_progress apply inv_mk) | split)
  | succ n ih =>
    unfold State.admitLoop
    with_reducible
      repeat' (first | assumption | (intro _) | apply State.admitOne_inv | refine optInv_elim (by assumption) ?_ | dsimp only
                         | apply ih | (fail_if_no_progress apply inv_mk) | split)

theorem State.chargeWaiting_inv {s : State} {c : Nat} (h_s : s.Inv) : (State.chargeWaiting s c).Inv := by
  unfold State.chargeWaiting
  with_reducible
    repeat' (first | assumption | (intro _) | apply State.chargeLeg_inv | apply inv_foldl | apply inv_foldl_snd
                     | apply inv_foldl_fst | apply inv_ite | dsimp only | (fail_if_no_progress apply inv_mk) | split)

theorem State.letIn_inv {s : State} {c : Nat} (h_s : s.Inv) : (State.letIn s c).Inv := by
  unfold State.letIn
  with_reducible
    repeat' (first | assumption | (intro _) | apply State.admitLoop_inv | apply State.chargeWaiting_inv | apply inv_ite
                     | dsimp only | (fail_if_no_progress apply inv_mk) | split)

theorem State.admitAll_inv {s : State} (h_s : s.Inv) : (State.admitAll s).Inv := by
  unfold State.admitAll
  with_reducible
    repeat' (first | assumption | (intro _) | apply State.letIn_inv | apply inv_foldl | apply inv_foldl_snd | apply inv_foldl_fst
                     | dsimp only | (fail_if_no_progress apply inv_mk) | split)

theorem State.dropLegs_inv {s : State} {ls : List Nat} (h_s : s.Inv) : (State.dropLegs s ls).Inv := by
  unfold State.dropLegs
  with_reducible
    repeat' (first | assumption | (intro _) | dsimp only | (fail_if_no_progress apply inv_mk) | split)

theorem State.haltPart_inv {s : State} {p : Nat} {cause : Nat} {queue : Nat} {index : BitVec 32} (h_s : s.Inv) :
    (State.haltPart s p cause queue index).Inv := by
  unfold State.haltPart
  with_reducible
    repeat' (first | assumption | (intro _) | apply State.setPart_inv | apply State.raisePart_inv | apply State.log_inv
                     | apply inv_ite | dsimp only | (fail_if_no_progress apply inv_mk) | split)

theorem State.failStop_inv {s : State} {cause : Nat} (h_s : s.Inv) : (State.failStop s cause).Inv := by
  unfold State.failStop
  with_reducible
    repeat' (first | assumption | (intro _) | apply State.sendMsg_inv | apply inv_ite | dsimp only
                     | (fail_if_no_progress apply inv_mk) | split)

theorem State.sealsNoMore_inv {s : State} (h_s : s.Inv) : (State.sealsNoMore s).Inv := by
  unfold State.sealsNoMore
  with_reducible
    repeat' (first | assumption | (intro _) | apply State.sendMsg_inv | apply inv_ite | dsimp only
                     | (fail_if_no_progress apply inv_mk) | split)

theorem State.parityHit_inv {s : State} {owner : Option Nat} {o : Nat} (h_s : s.Inv) : (State.parityHit s owner o).Inv := by
  unfold State.parityHit
  with_reducible
    repeat' (first | assumption | (intro _) | apply State.logSev_inv | apply State.haltPart_inv | apply State.failStop_inv
                     | apply State.sealsNoMore_inv | apply inv_ite | dsimp only | (fail_if_no_progress apply inv_mk) | split)

theorem State.parityUse_inv {s : State} {live : Bool} {owner : Option Nat} {o : Nat} {n : Nat} (h_s : s.Inv) :
    (State.parityUse s live owner o n).Inv := by
  unfold State.parityUse
  with_reducible
    repeat' (first | assumption | (intro _) | apply State.parityHit_inv | apply inv_ite | dsimp only
                     | (fail_if_no_progress apply inv_mk) | split)

theorem State.epochUse_inv {s : State} {live : Bool} (h_s : s.Inv) : (State.epochUse s live).Inv := by
  unfold State.epochUse
  with_reducible
    repeat' (first | assumption | (intro _) | apply State.parityHit_inv | apply inv_foldl | apply inv_foldl_snd
                     | apply inv_foldl_fst | apply inv_ite | dsimp only | (fail_if_no_progress apply inv_mk) | split)

theorem State.parityTaken_inv {s : State} {o : Nat} {n : Nat} (h_s : s.Inv) : (State.parityTaken s o n).Inv := by
  unfold State.parityTaken
  with_reducible
    repeat' (first | assumption | (intro _) | dsimp only | (fail_if_no_progress apply inv_mk) | split)

theorem State.xlatUse_inv {s : State} {p : Nat} (h_s : s.Inv) : (State.xlatUse s p).Inv := by
  unfold State.xlatUse
  with_reducible
    repeat' (first | assumption | (intro _) | apply State.parityUse_inv | dsimp only | (fail_if_no_progress apply inv_mk) | split)

theorem State.postOne_inv {s0 : State} {c : Completion} (h_s0 : s0.Inv) : (State.postOne s0 c).2.Inv := by
  unfold State.postOne
  with_reducible
    repeat' (first | assumption | (intro _) | apply State.setCq_inv | apply State.hostPost_inv
                     | refine State.hostPost_inv' (by assumption) ?_ | apply State.memWrite_inv | apply State.sttAccess_inv
                     | refine State.sttAccess_inv' (by assumption) ?_ | apply State.faultRecord_inv | apply State.haltPart_inv
                     | apply State.parityUse_inv | apply State.xlatUse_inv | apply inv_ite_snd | apply inv_ite | dsimp only
                     | (fail_if_no_progress apply inv_mk) | refine inv_snd (by assumption) ?_ | split)
theorem State.postOne_inv' {s0 : State} {c : Completion} {r0} {tE : State} (hE : (State.postOne s0 c) = (r0, tE)) (h_s0 :
    s0.Inv) : tE.Inv := by
  have h := @State.postOne_inv s0 c h_s0; rw [hE] at h; exact h

theorem State.holdCpl_inv {s : State} {c : Completion} (h_s : s.Inv) : (State.holdCpl s c).Inv := by
  unfold State.holdCpl
  with_reducible
    repeat' (first | assumption | (intro _) | apply State.setPart_inv | dsimp only | (fail_if_no_progress apply inv_mk) | split)

theorem State.linkCpl_inv {s : State} {c : Completion} {r : Reserv} (h_s : s.Inv) : (State.linkCpl s c r).Inv := by
  unfold State.linkCpl
  with_reducible
    repeat' (first | assumption | (intro _) | apply State.setPart_inv | dsimp only | (fail_if_no_progress apply inv_mk) | split)

theorem State.convertLast_inv {s : State} {q : Nat} (h_s : s.Inv) : (State.convertLast s q).Inv := by
  unfold State.convertLast
  with_reducible
    repeat' (first | assumption | (intro _) | apply State.setLeg_inv | apply inv_foldl | apply inv_foldl_snd | apply inv_foldl_fst
                     | apply inv_ite | dsimp only | (fail_if_no_progress apply inv_mk) | split)

theorem State.convertOver_inv {s : State} {q : Nat} (h_s : s.Inv) : (State.convertOver s q).Inv := by
  unfold State.convertOver
  with_reducible
    repeat' (first | assumption | (intro _) | apply State.convertLast_inv | apply inv_ite | dsimp only
                     | (fail_if_no_progress apply inv_mk) | split)

theorem State.releaseOne_inv {s : State} {c : Completion} {r : Reserv} (h_s : s.Inv) : (State.releaseOne s c r).2.Inv := by
  unfold State.releaseOne
  with_reducible
    repeat' (first | assumption | (intro _) | apply State.postOne_inv | refine State.postOne_inv' (by assumption) ?_
                     | apply State.holdCpl_inv | apply State.linkCpl_inv | apply State.convertOver_inv | apply inv_ite_snd
                     | apply inv_ite | dsimp only | (fail_if_no_progress apply inv_mk) | refine inv_snd (by assumption) ?_
                     | split)
theorem State.releaseOne_inv' {s : State} {c : Completion} {r : Reserv} {r0} {tE : State} (hE : (State.releaseOne s c r) =
    (r0, tE)) (h_s : s.Inv) : tE.Inv := by
  have h := @State.releaseOne_inv s c r h_s; rw [hE] at h; exact h

theorem State.raiseCqs_inv {s : State} {qs : List Nat} (h_s : s.Inv) : (State.raiseCqs s qs).Inv := by
  unfold State.raiseCqs
  with_reducible
    repeat' (first | assumption | (intro _) | apply State.raisePart_inv | apply inv_foldl | apply inv_foldl_snd
                     | apply inv_foldl_fst | dsimp only | (fail_if_no_progress apply inv_mk) | split)

theorem State.moveHeld_inv {s : State} {q : Nat} {a0 : Nat} (h_s : s.Inv) : (State.moveHeld s q a0).2.Inv := by
  induction a0 generalizing s q h_s with
  | zero =>
    unfold State.moveHeld
    with_reducible
      repeat' (first | assumption | (intro _) | apply State.setPart_inv | apply State.postOne_inv
                         | refine State.postOne_inv' (by assumption) ?_ | apply inv_ite_snd | apply inv_ite | dsimp only | apply ih
                         | (fail_if_no_progress apply inv_mk) | refine inv_snd (by assumption) ?_ | split)
  | succ n ih =>
    unfold State.moveHeld
    with_reducible
      repeat' (first | assumption | (intro _) | apply State.setPart_inv | apply State.postOne_inv
                         | refine State.postOne_inv' (by assumption) ?_ | apply inv_ite_snd | apply inv_ite | dsimp only | apply ih
                         | (fail_if_no_progress apply inv_mk) | refine inv_snd (by assumption) ?_ | split)
theorem State.moveHeld_inv' {s : State} {q : Nat} {a0 : Nat} {r0} {tE : State} (hE : (State.moveHeld s q a0) = (r0, tE))
    (h_s : s.Inv) : tE.Inv := by
  have h := @State.moveHeld_inv s q a0 h_s; rw [hE] at h; exact h

theorem State.postKeptList_inv {p : Nat} {a0 : List (Completion × Reserv)} {a1 : List Nat} {a2 : List Nat × State} (h_a2 :
    a2.2.Inv) : (State.postKeptList p a0 a1 a2).2.Inv := by
  induction a0 generalizing p a1 a2 h_a2 with
  | nil =>
    unfold State.postKeptList
    with_reducible
      repeat' (first | assumption | (intro _) | apply State.setPart_inv | apply State.postOne_inv
                         | refine State.postOne_inv' (by assumption) ?_ | apply State.convertOver_inv | apply inv_ite_snd
                         | apply inv_ite | dsimp only | apply ih | (fail_if_no_progress apply inv_mk)
                         | refine inv_snd (by assumption) ?_ | split)
  | cons x xs ih =>
    unfold State.postKeptList
    with_reducible
      repeat' (first | assumption | (intro _) | apply State.setPart_inv | apply State.postOne_inv
                         | refine State.postOne_inv' (by assumption) ?_ | apply State.convertOver_inv | apply inv_ite_snd
                         | apply inv_ite | dsimp only | apply ih | (fail_if_no_progress apply inv_mk)
                         | refine inv_snd (by assumption) ?_ | split)
theorem State.postKeptList_inv' {p : Nat} {a0 : List (Completion × Reserv)} {a1 : List Nat} {a2 : List Nat × State} {r0} {tE
    : State} (hE : (State.postKeptList p a0 a1 a2) = (r0, tE)) (h_a2 : a2.2.Inv) : tE.Inv := by
  have h := @State.postKeptList_inv p a0 a1 a2 h_a2; rw [hE] at h; exact h

theorem State.postKept_inv {s : State} {p : Nat} (h_s : s.Inv) : (State.postKept s p).Inv := by
  unfold State.postKept
  with_reducible
    repeat' (first | assumption | (intro _) | apply State.raiseCqs_inv | apply State.moveHeld_inv
                     | refine State.moveHeld_inv' (by assumption) ?_ | apply State.postKeptList_inv
                     | refine State.postKeptList_inv' (by assumption) ?_ | apply inv_foldl | apply inv_foldl_snd
                     | apply inv_foldl_fst | apply inv_ite | dsimp only | (fail_if_no_progress apply inv_mk)
                     | refine inv_snd (by assumption) ?_ | split)

theorem State.cqFreed_inv {s : State} {q : Nat} (h_s : s.Inv) : (State.cqFreed s q).Inv := by
  unfold State.cqFreed
  with_reducible
    repeat' (first | assumption | (intro _) | apply State.admitAll_inv | apply State.postKept_inv | dsimp only
                     | (fail_if_no_progress apply inv_mk) | split)

theorem State.endTicket_inv {s : State} {l : Nat} {slot : Nat} {st : Word} (h_s : s.Inv) : (State.endTicket s l slot st).Inv
    := by
  unfold State.endTicket
  with_reducible
    repeat' (first | assumption | (intro _) | apply State.setLeg_inv | dsimp only | (fail_if_no_progress apply inv_mk) | split)

theorem State.dmStop_inv {s : State} {c : Nat} {ch : Nat} {code : Nat} (h_s : s.Inv) : (State.dmStop s c ch code).Inv := by
  unfold State.dmStop
  with_reducible
    repeat' (first | assumption | (intro _) | apply State.setCl_inv | apply State.endTicket_inv | dsimp only
                     | (fail_if_no_progress apply inv_mk) | split)

theorem State.dmEnd_inv {a0 : Nat} {a1 : State} {a2 : Nat} {a3 : Nat} {a4 : Nat} (h_a1 : a1.Inv) : (State.dmEnd a0 a1 a2 a3
    a4).Inv := by
  induction a0 generalizing a1 a2 a3 a4 h_a1 with
  | zero =>
    unfold State.dmEnd
    with_reducible
      repeat' (first | assumption | (intro _) | apply State.setCl_inv | apply State.dmStop_inv | apply inv_foldl
                         | apply inv_foldl_snd | apply inv_foldl_fst | apply inv_ite | dsimp only | apply ih
                         | (fail_if_no_progress apply inv_mk) | split)
  | succ n ih =>
    unfold State.dmEnd
    with_reducible
      repeat' (first | assumption | (intro _) | apply State.setCl_inv | apply State.dmStop_inv | apply inv_foldl
                         | apply inv_foldl_snd | apply inv_foldl_fst | apply inv_ite | dsimp only | apply ih
                         | (fail_if_no_progress apply inv_mk) | split)

theorem State.dmCancelWhere_inv {s : State} {p : Channel → Bool} {code : Nat} (h_s : s.Inv) : (State.dmCancelWhere s p
    code).Inv := by
  unfold State.dmCancelWhere
  with_reducible
    repeat' (first | assumption | (intro _) | apply State.dmStop_inv | apply inv_foldl | apply inv_foldl_snd | apply inv_foldl_fst
                     | dsimp only | (fail_if_no_progress apply inv_mk) | split)

theorem State.dmFreeLeg_inv {s : State} {l : Nat} (h_s : s.Inv) : (State.dmFreeLeg s l).Inv := by
  unfold State.dmFreeLeg
  with_reducible
    repeat' (first | assumption | (intro _) | dsimp only | (fail_if_no_progress apply inv_mk) | split)

theorem State.dmFreeSlot_inv {s : State} {l : Nat} {slot : Nat} (h_s : s.Inv) : (State.dmFreeSlot s l slot).Inv := by
  unfold State.dmFreeSlot
  with_reducible
    repeat' (first | assumption | (intro _) | dsimp only | (fail_if_no_progress apply inv_mk) | split)

theorem State.dropLegTables_inv {s : State} {c : Nat} {l : Nat} (h_s : s.Inv) : (State.dropLegTables s c l).Inv := by
  unfold State.dropLegTables
  with_reducible
    repeat' (first | assumption | (intro _) | apply State.setCl_inv | apply inv_ite | dsimp only
                     | (fail_if_no_progress apply inv_mk) | split)

theorem State.sample_inv {s : State} {n : Nat} (h_s : s.Inv) : (State.sample s n).Inv := by
  unfold State.sample
  with_reducible
    repeat' (first | assumption | (intro _) | apply State.free_inv | refine State.free_inv' (by assumption) ?_
                     | apply State.setPp_inv | apply inv_ite | dsimp only | (fail_if_no_progress apply inv_mk)
                     | refine inv_snd (by assumption) ?_ | split)

theorem State.capture_inv {s : State} {n : Nat} {l : Nat} {pc : Word} {pipeOp : Bool} (h_s : s.Inv) : (State.capture s n l
    pc pipeOp).Inv := by
  unfold State.capture
  with_reducible
    repeat' (first | assumption | (intro _) | apply State.setCl_inv | apply State.setLeg_inv | apply State.wpWrite_inv
                     | apply pipeOp_inv | dsimp only | (fail_if_no_progress apply inv_mk) | split)

theorem State.freePp_inv {s : State} {n : Nat} (h_s : s.Inv) : (State.freePp s n).Inv := by
  unfold State.freePp
  with_reducible
    repeat' (first | assumption | (intro _) | apply State.setPp_inv | apply State.hostForget_inv | dsimp only
                     | (fail_if_no_progress apply inv_mk) | split)

theorem State.returnCharge_inv {s : State} {l : Nat} {n : Nat} (h_s : s.Inv) : (State.returnCharge s l n).Inv := by
  unfold State.returnCharge
  with_reducible
    repeat' (first | assumption | (intro _) | apply State.setPp_inv | apply State.setLeg_inv | dsimp only
                     | (fail_if_no_progress apply inv_mk) | split)

theorem State.closeErr_inv {s : State} {l : Nat} (h_s : s.Inv) : (State.closeErr s l).Inv := by
  unfold State.closeErr
  with_reducible
    repeat' (first | assumption | (intro _) | apply State.setLeg_inv | apply State.dmFreeLeg_inv | apply State.dropLegTables_inv
                     | dsimp only | (fail_if_no_progress apply inv_mk) | split)

theorem State.errLeg_inv {s : State} {l : Nat} {status : Nat} {userCode : Nat} (h_s : s.Inv) : (State.errLeg s l status
    userCode).Inv := by
  unfold State.errLeg
  with_reducible
    repeat' (first | assumption | (intro _) | apply State.setPp_inv | apply State.setLeg_inv | apply State.letIn_inv
                     | apply State.dmCancelWhere_inv | apply State.freePp_inv | apply State.returnCharge_inv
                     | apply State.closeErr_inv | apply inv_ite | dsimp only | (fail_if_no_progress apply inv_mk) | split)

theorem State.nestEnd_inv {s : State} {l : Nat} {st : Option Nat} (h_s : s.Inv) : (State.nestEnd s l st).Inv := by
  unfold State.nestEnd
  with_reducible
    repeat' (first | assumption | (intro _) | apply State.free_inv | refine State.free_inv' (by assumption) ?_
                     | apply State.errLeg_inv | apply inv_ite | dsimp only | (fail_if_no_progress apply inv_mk)
                     | refine inv_snd (by assumption) ?_ | split)

theorem State.trap_inv {s : State} {n : Nat} {cause : Nat} {value : Word} (h_s : s.Inv) : (State.trap s n cause value).Inv
    := by
  unfold State.trap
  with_reducible
    repeat' (first | assumption | (intro _) | apply State.setPp_inv | apply State.log_inv | apply State.sample_inv
                     | apply State.errLeg_inv | apply State.nestEnd_inv | apply inv_ite | dsimp only
                     | (fail_if_no_progress apply inv_mk) | split)

theorem State.tlbMiss_inv {s : State} {n : Nat} {cause : Nat} {va : Nat} (h_s : s.Inv) : (State.tlbMiss s n cause va).Inv :=
    by
  unfold State.tlbMiss
  with_reducible
    repeat' (first | assumption | (intro _) | apply State.setPp_inv | apply State.trap_inv | dsimp only
                     | (fail_if_no_progress apply inv_mk) | split)

theorem State.accessFault_inv {s : State} {n : Nat} {cause : Nat} {va : Nat} {write : Bool} {exec : Bool} (h_s : s.Inv) :
    (State.accessFault s n cause va write exec).Inv := by
  unfold State.accessFault
  with_reducible
    repeat' (first | assumption | (intro _) | apply State.setPp_inv | apply State.faultRecord_inv | apply State.trap_inv
                     | apply inv_ite | dsimp only | (fail_if_no_progress apply inv_mk) | split)

theorem State.fwXlate_inv {s0 : State} {n : Nat} {part : Nat} {va : Nat} {need : Need} (h_s0 : s0.Inv) : (State.fwXlate s0 n
    part va need).2.Inv := by
  unfold State.fwXlate
  with_reducible
    repeat' (first | assumption | (intro _) | apply State.setPp_inv | apply State.walkS2At_inv
                     | refine State.walkS2At_inv' (by assumption) ?_ | apply State.walkS1_inv
                     | refine State.walkS1_inv' (by assumption) ?_ | apply State.xlatUse_inv | apply inv_ite_snd | apply inv_ite
                     | dsimp only | (fail_if_no_progress apply inv_mk) | refine inv_snd (by assumption) ?_ | split)
theorem State.fwXlate_inv' {s0 : State} {n : Nat} {part : Nat} {va : Nat} {need : Need} {r0} {tE : State} (hE :
    (State.fwXlate s0 n part va need) = (r0, tE)) (h_s0 : s0.Inv) : tE.Inv := by
  have h := @State.fwXlate_inv s0 n part va need h_s0; rw [hE] at h; exact h

theorem State.fwRead_inv {s : State} {n : Nat} {part : Nat} {va : Nat} {len : Nat} (h_s : s.Inv) : (State.fwRead s n part va
    len).2.Inv := by
  unfold State.fwRead
  with_reducible
    repeat' (first | assumption | (intro _) | apply State.hostTake_inv | refine State.hostTake_inv' (by assumption) ?_
                     | apply State.ppLoadLine_inv | refine State.ppLoadLine_inv' (by assumption) ?_ | apply State.bypassRead_inv
                     | refine State.bypassRead_inv' (by assumption) ?_ | apply State.dpaRefused_inv
                     | refine State.dpaRefused_inv' (by assumption) ?_ | apply State.fwXlate_inv
                     | refine State.fwXlate_inv' (by assumption) ?_ | apply inv_ite_snd | apply inv_ite | dsimp only
                     | (fail_if_no_progress apply inv_mk) | refine inv_snd (by assumption) ?_ | split)
theorem State.fwRead_inv' {s : State} {n : Nat} {part : Nat} {va : Nat} {len : Nat} {r0} {tE : State} (hE : (State.fwRead s
    n part va len) = (r0, tE)) (h_s : s.Inv) : tE.Inv := by
  have h := @State.fwRead_inv s n part va len h_s; rw [hE] at h; exact h

end Sys2Proof.Machine
end

