-- ==== Sys2Proof/Laws/MemOperands.lean ====
section
/-!
SUPPORT. The state functions of Machine/Operands.lean keep the canonical form of memory.
-/
namespace Sys2Proof.Machine

open Sys2Proof

set_option linter.unusedTactic false
set_option linter.unreachableTactic false
set_option linter.unusedSimpArgs false
set_option linter.unusedVariables false

theorem State.fetchScrub_inv {s : State} {n : Nat} {line : Nat} (h_s : s.Inv) : (State.fetchScrub s n line).Inv := by
  unfold State.fetchScrub
  with_reducible
    repeat' (first | assumption | (intro _) | apply State.l1Scrub_inv | apply State.l2Scrub_inv | apply inv_ite | dsimp only
                     | (fail_if_no_progress apply inv_mk) | split)

theorem State.fetchBad_inv {s0 : State} {n : Nat} {d : Nat} {va : Word} (h_s0 : s0.Inv) : OptInv (State.fetchBad s0 n d va)
    := by
  unfold State.fetchBad
  with_reducible
    repeat' (first | assumption | (intro _) | apply State.memUncorrectable_inv | apply State.l2Bad_inv | apply State.trap_inv
                     | apply State.fetchScrub_inv | exact optInv_none | apply optInv_some | apply optInv_findSome
                     | apply optInv_map | refine optInv_elim (by assumption) ?_ | apply optInv_ite | apply inv_ite | dsimp only
                     | (fail_if_no_progress apply inv_mk) | split)

theorem State.fetchStopPilot_inv {s : State} {n : Nat} {pc : Word} (h_s : s.Inv) : OptInv (State.fetchStopPilot s n pc) :=
    by
  unfold State.fetchStopPilot
  with_reducible
    repeat' (first | assumption | (intro _) | apply State.log_inv | apply State.trap_inv | apply State.fetchBad_inv
                     | exact optInv_none | apply optInv_some | apply optInv_findSome | apply optInv_map
                     | refine optInv_elim (by assumption) ?_ | apply optInv_ite | apply inv_ite | dsimp only
                     | (fail_if_no_progress apply inv_mk) | split)

theorem State.fetchStopLeg_inv {s : State} {n : Nat} {g : Leg} {pc : Word} (h_s : s.Inv) : OptInv (State.fetchStopLeg s n g
    pc) := by
  unfold State.fetchStopLeg
  with_reducible
    repeat' (first | assumption | (intro _) | apply State.dpaRefused_inv | refine State.dpaRefused_inv' (by assumption) ?_
                     | apply State.trap_inv | apply State.tlbMiss_inv | apply State.accessFault_inv | apply State.fetchBad_inv
                     | exact optInv_none | apply optInv_some | apply optInv_findSome | apply optInv_map
                     | refine optInv_elim (by assumption) ?_ | apply optInv_ite | apply inv_ite | dsimp only
                     | (fail_if_no_progress apply inv_mk) | refine inv_snd (by assumption) ?_ | split)

theorem State.fetchStop_inv {s : State} {n : Nat} {pc : Word} (h_s : s.Inv) : OptInv (State.fetchStop s n pc) := by
  unfold State.fetchStop
  with_reducible
    repeat' (first | assumption | (intro _) | apply State.fetchStopPilot_inv | apply State.fetchStopLeg_inv | exact optInv_none
                     | apply optInv_some | apply optInv_findSome | apply optInv_map | refine optInv_elim (by assumption) ?_
                     | dsimp only | (fail_if_no_progress apply inv_mk) | split)

theorem State.fetched_inv {s : State} {n : Nat} {pc : Word} (h_s : s.Inv) : (State.fetched s n pc).Inv := by
  unfold State.fetched
  with_reducible
    repeat' (first | assumption | (intro _) | apply State.fetchScrub_inv | dsimp only | (fail_if_no_progress apply inv_mk)
                     | split)

theorem State.stepDone_inv {s : State} {n : Nat} (h_s : s.Inv) : (State.stepDone s n).Inv := by
  unfold State.stepDone
  with_reducible
    repeat' (first | assumption | (intro _) | apply State.setPp_inv | apply inv_ite | dsimp only
                     | (fail_if_no_progress apply inv_mk) | split)

theorem ppGo_inv {s : State} {n : Nat} {f : State → State} (h_s : s.Inv) (h_f : ∀ x0, State.Inv x0 → (f x0).Inv) : (ppGo s n
    f).Inv := by
  unfold ppGo
  with_reducible
    repeat' (first | assumption | (intro _) | apply State.fetchStop_inv | apply State.fetched_inv | apply State.stepDone_inv
                     | refine optInv_elim (by assumption) ?_ | dsimp only | apply_assumption
                     | (fail_if_no_progress apply inv_mk) | split)

theorem ppRun_inv {s : State} {n : Nat} {f : State → State} (h_s : s.Inv) (h_f : ∀ x0, State.Inv x0 → (f x0).Inv) : (ppRun s
    n f).Inv := by
  unfold ppRun
  with_reducible
    repeat' (first | assumption | (intro _) | apply ppGo_inv | apply inv_ite | dsimp only | apply_assumption
                     | (fail_if_no_progress apply inv_mk) | split)

theorem ppRun2_inv {s : State} {n : Nat} {f : State → State} (h_s : s.Inv) (h_f : ∀ x0, State.Inv x0 → (f x0).Inv) : (ppRun2
    s n f).Inv := by
  unfold ppRun2
  with_reducible
    repeat' (first | assumption | (intro _) | apply State.fetchStop_inv | apply State.fetched_inv | apply ppRun_inv
                     | refine optInv_elim (by assumption) ?_ | dsimp only | apply_assumption
                     | (fail_if_no_progress apply inv_mk) | split)

theorem State.wr_inv {s : State} {n : Nat} {rd : BitVec 5} {v : Word} (h_s : s.Inv) : (State.wr s n rd v).Inv := by
  unfold State.wr
  with_reducible
    repeat' (first | assumption | (intro _) | apply State.setPp_inv | dsimp only | (fail_if_no_progress apply inv_mk) | split)

theorem State.illegal_inv {s : State} {n : Nat} {w : Word} (h_s : s.Inv) : (State.illegal s n w).Inv := by
  unfold State.illegal
  with_reducible
    repeat' (first | assumption | (intro _) | apply State.trap_inv | dsimp only | (fail_if_no_progress apply inv_mk) | split)

end Sys2Proof.Machine
end

