-- ==== Sys2Proof/Laws/MemPpScalar.lean ====
section
/-!
SUPPORT. The state functions of Machine/PpScalar.lean keep the canonical form of memory.
-/
namespace Sys2Proof.Machine

open Sys2Proof

set_option linter.unusedTactic false
set_option linter.unreachableTactic false
set_option linter.unusedSimpArgs false
set_option linter.unusedVariables false

theorem opBin_inv {n : Nat} {fn : Nat} {f : RF} {g : Word → Word → Word} {s : State} (h_s : s.Inv) : (opBin n fn f g s).Inv
    := by
  unfold opBin
  with_reducible
    repeat' (first | assumption | (intro _) | apply ppRun_inv | apply State.wr_inv | apply State.illegal_inv | apply inv_ite
                     | dsimp only | (fail_if_no_progress apply inv_mk) | split)

theorem opUn_inv {n : Nat} {fn : Nat} {f : RF} {g : Word → Word} {s : State} (h_s : s.Inv) : (opUn n fn f g s).Inv := by
  unfold opUn
  with_reducible
    repeat' (first | assumption | (intro _) | apply ppRun_inv | apply State.wr_inv | apply State.illegal_inv | apply inv_ite
                     | dsimp only | (fail_if_no_progress apply inv_mk) | split)

theorem opImm_inv {n : Nat} {f : IF} {g : Word → Word → Word} {s : State} (h_s : s.Inv) : (opImm n f g s).Inv := by
  unfold opImm
  with_reducible
    repeat' (first | assumption | (intro _) | apply ppRun_inv | apply State.wr_inv | dsimp only
                     | (fail_if_no_progress apply inv_mk) | split)

theorem branch_inv {n : Nat} {f : BF} {c : Word → Word → Bool} {s : State} (h_s : s.Inv) : (branch n f c s).Inv := by
  unfold branch
  with_reducible
    repeat' (first | assumption | (intro _) | apply State.setPp_inv | apply ppRun_inv | apply inv_ite | dsimp only
                     | (fail_if_no_progress apply inv_mk) | split)

end Sys2Proof.Machine
end

