-- ==== Sys2Proof/Laws/MemUnits.lean ====
section
/-!
SUPPORT. The state functions of Machine/Units.lean keep the canonical form of memory.
-/
namespace Sys2Proof.Machine

open Sys2Proof

set_option linter.unusedTactic false
set_option linter.unreachableTactic false
set_option linter.unusedSimpArgs false
set_option linter.unusedVariables false

theorem State.unitDpa_inv {s : State} {u : UCtx} {va : Nat} {need : Need} (h_s : s.Inv) : (State.unitDpa s u va need).2.Inv
    := by
  unfold State.unitDpa
  with_reducible
    repeat' (first | assumption | (intro _) | apply State.log_inv | apply State.xlateUnit_inv
                     | refine State.xlateUnit_inv' (by assumption) ?_ | apply State.dpaRefused_inv
                     | refine State.dpaRefused_inv' (by assumption) ?_ | apply State.faultRecord_inv | apply State.xlatUse_inv
                     | apply inv_ite_snd | apply inv_ite | dsimp only | (fail_if_no_progress apply inv_mk)
                     | refine inv_snd (by assumption) ?_ | split)
theorem State.unitDpa_inv' {s : State} {u : UCtx} {va : Nat} {need : Need} {r0} {tE : State} (hE : (State.unitDpa s u va
    need) = (r0, tE)) (h_s : s.Inv) : tE.Inv := by
  have h := @State.unitDpa_inv s u va need h_s; rw [hE] at h; exact h

theorem State.unitReadIn_inv {s : State} {u : UCtx} {va : Nat} {len : Nat} {bypass : Bool} (h_s : s.Inv) : (State.unitReadIn
    s u va len bypass).2.Inv := by
  unfold State.unitReadIn
  with_reducible
    repeat' (first | assumption | (intro _) | apply State.hostTake_inv | refine State.hostTake_inv' (by assumption) ?_
                     | apply State.memRead_inv | refine State.memRead_inv' (by assumption) ?_ | apply State.unitReadLine_inv
                     | refine State.unitReadLine_inv' (by assumption) ?_ | apply State.bypassRead_inv
                     | refine State.bypassRead_inv' (by assumption) ?_ | apply State.unitDpa_inv
                     | refine State.unitDpa_inv' (by assumption) ?_ | apply inv_ite_snd | apply inv_ite | dsimp only
                     | (fail_if_no_progress apply inv_mk) | refine inv_snd (by assumption) ?_ | split)
theorem State.unitReadIn_inv' {s : State} {u : UCtx} {va : Nat} {len : Nat} {bypass : Bool} {r0} {tE : State} (hE :
    (State.unitReadIn s u va len bypass) = (r0, tE)) (h_s : s.Inv) : tE.Inv := by
  have h := @State.unitReadIn_inv s u va len bypass h_s; rw [hE] at h; exact h

theorem State.unitWriteIn_inv {s : State} {u : UCtx} {va : Nat} {bs : List Byte} (h_s : s.Inv) : (State.unitWriteIn s u va
    bs).2.Inv := by
  unfold State.unitWriteIn
  with_reducible
    repeat' (first | assumption | (intro _) | apply State.hostPostData_inv | refine State.hostPostData_inv' (by assumption) ?_
                     | apply State.memWrite_inv | apply State.l2Meets_inv | refine State.l2Meets_inv' (by assumption) ?_
                     | apply State.l2Store_inv | apply State.dmStore_inv | apply State.unitDpa_inv
                     | refine State.unitDpa_inv' (by assumption) ?_ | apply inv_ite_snd | apply inv_ite | dsimp only
                     | (fail_if_no_progress apply inv_mk) | refine inv_snd (by assumption) ?_ | split)
theorem State.unitWriteIn_inv' {s : State} {u : UCtx} {va : Nat} {bs : List Byte} {r0} {tE : State} (hE : (State.unitWriteIn
    s u va bs) = (r0, tE)) (h_s : s.Inv) : tE.Inv := by
  have h := @State.unitWriteIn_inv s u va bs h_s; rw [hE] at h; exact h

theorem State.unitCanWrite_inv {s : State} {u : UCtx} {va : Nat} (h_s : s.Inv) : (State.unitCanWrite s u va).2.Inv := by
  unfold State.unitCanWrite
  with_reducible
    repeat' (first | assumption | (intro _) | apply State.l2Meets_inv | refine State.l2Meets_inv' (by assumption) ?_
                     | apply State.unitDpa_inv | refine State.unitDpa_inv' (by assumption) ?_ | apply inv_ite_snd
                     | apply inv_ite | dsimp only | (fail_if_no_progress apply inv_mk) | refine inv_snd (by assumption) ?_
                     | split)
theorem State.unitCanWrite_inv' {s : State} {u : UCtx} {va : Nat} {r0} {tE : State} (hE : (State.unitCanWrite s u va) = (r0,
    tE)) (h_s : s.Inv) : tE.Inv := by
  have h := @State.unitCanWrite_inv s u va h_s; rw [hE] at h; exact h

theorem uReadWith_inv {u : UCtx} {bypass : Bool} {a0 : List (Nat × Nat)}  : RunInv ((uReadWith u bypass a0) : UM (List
    Byte)) := by
  induction a0 generalizing u bypass with
  | nil =>
    unfold uReadWith
    with_reducible
      repeat' (first | assumption | (intro _) | apply State.unitReadIn_inv | refine State.unitReadIn_inv' (by assumption) ?_
                         | apply run_pure | apply run_throw | apply run_getThe | apply run_bind | apply run_mk | apply run_forM
                         | apply run_mapM | apply run_foldlM | apply run_forIn | apply run_elim | dsimp only | apply ih
                         | (fail_if_no_progress apply inv_mk) | refine inv_snd (by assumption) ?_ | split)
  | cons x xs ih =>
    unfold uReadWith
    with_reducible
      repeat' (first | assumption | (intro _) | apply State.unitReadIn_inv | refine State.unitReadIn_inv' (by assumption) ?_
                         | apply run_pure | apply run_throw | apply run_getThe | apply run_bind | apply run_mk | apply run_forM
                         | apply run_mapM | apply run_foldlM | apply run_forIn | apply run_elim | dsimp only | apply ih
                         | (fail_if_no_progress apply inv_mk) | refine inv_snd (by assumption) ?_ | split)

theorem uRead_inv {u : UCtx} {va : Nat} {len : Nat}  : RunInv ((uRead u va len) : UM (List Byte)) := by
  unfold uRead
  with_reducible
    repeat' (first | assumption | (intro _) | apply uReadWith_inv | apply run_pure | apply run_throw | apply run_getThe
                     | apply run_bind | apply run_mk | apply run_forM | apply run_mapM | apply run_foldlM | apply run_forIn
                     | apply run_elim | dsimp only | (fail_if_no_progress apply inv_mk) | split)

theorem uReadVis_inv {u : UCtx} {va : Nat} {len : Nat}  : RunInv ((uReadVis u va len) : UM (List Byte)) := by
  unfold uReadVis
  with_reducible
    repeat' (first | assumption | (intro _) | apply uReadWith_inv | apply run_pure | apply run_throw | apply run_getThe
                     | apply run_bind | apply run_mk | apply run_forM | apply run_mapM | apply run_foldlM | apply run_forIn
                     | apply run_elim | dsimp only | (fail_if_no_progress apply inv_mk) | split)

theorem uReadNat_inv {u : UCtx} {va : Nat} {len : Nat}  : RunInv ((uReadNat u va len) : UM Nat) := by
  unfold uReadNat
  with_reducible
    repeat' (first | assumption | (intro _) | apply uRead_inv | apply run_pure | apply run_throw | apply run_getThe
                     | apply run_bind | apply run_mk | apply run_forM | apply run_mapM | apply run_foldlM | apply run_forIn
                     | apply run_elim | dsimp only | (fail_if_no_progress apply inv_mk) | split)

theorem uWriteChunks_inv {u : UCtx} {a0 : List (Nat × Nat)} {a1 : List Byte}  : RunInv ((uWriteChunks u a0 a1) : UM Unit) :=
    by
  induction a0 generalizing u a1 with
  | nil =>
    unfold uWriteChunks
    with_reducible
      repeat' (first | assumption | (intro _) | apply State.unitWriteIn_inv | refine State.unitWriteIn_inv' (by assumption) ?_
                         | apply run_pure | apply run_throw | apply run_getThe | apply run_bind | apply run_mk | apply run_forM
                         | apply run_mapM | apply run_foldlM | apply run_forIn | apply run_elim | dsimp only | apply ih
                         | (fail_if_no_progress apply inv_mk) | refine inv_snd (by assumption) ?_ | split)
  | cons x xs ih =>
    unfold uWriteChunks
    with_reducible
      repeat' (first | assumption | (intro _) | apply State.unitWriteIn_inv | refine State.unitWriteIn_inv' (by assumption) ?_
                         | apply run_pure | apply run_throw | apply run_getThe | apply run_bind | apply run_mk | apply run_forM
                         | apply run_mapM | apply run_foldlM | apply run_forIn | apply run_elim | dsimp only | apply ih
                         | (fail_if_no_progress apply inv_mk) | refine inv_snd (by assumption) ?_ | split)

theorem uWrite_inv {u : UCtx} {va : Nat} {bs : List Byte}  : RunInv ((uWrite u va bs) : UM Unit) := by
  unfold uWrite
  with_reducible
    repeat' (first | assumption | (intro _) | apply uWriteChunks_inv | apply run_pure | apply run_throw | apply run_getThe
                     | apply run_bind | apply run_mk | apply run_forM | apply run_mapM | apply run_foldlM | apply run_forIn
                     | apply run_elim | dsimp only | (fail_if_no_progress apply inv_mk) | split)

theorem uProbeW_inv {u : UCtx} {va : Nat}  : RunInv ((uProbeW u va) : UM Unit) := by
  unfold uProbeW
  with_reducible
    repeat' (first | assumption | (intro _) | apply State.unitDpa_inv | refine State.unitDpa_inv' (by assumption) ?_
                     | apply run_pure | apply run_throw | apply run_getThe | apply run_bind | apply run_mk | apply run_forM
                     | apply run_mapM | apply run_foldlM | apply run_forIn | apply run_elim | dsimp only
                     | (fail_if_no_progress apply inv_mk) | refine inv_snd (by assumption) ?_ | split)

theorem uWriteWhole_inv {u : UCtx} {va : Nat} {bs : List Byte}  : RunInv ((uWriteWhole u va bs) : UM Unit) := by
  unfold uWriteWhole
  with_reducible
    repeat' (first | assumption | (intro _) | apply State.unitCanWrite_inv | refine State.unitCanWrite_inv' (by assumption) ?_
                     | apply uWrite_inv | apply run_pure | apply run_throw | apply run_getThe | apply run_bind | apply run_mk
                     | apply run_forM | apply run_mapM | apply run_foldlM | apply run_forIn | apply run_elim | dsimp only
                     | (fail_if_no_progress apply inv_mk) | refine inv_snd (by assumption) ?_ | split)

theorem uReadBuf_inv {u : UCtx} {a0 : List (Nat × Nat)} {a1 : LineBuf}  : RunInv ((uReadBuf u a0 a1) : UM (List Byte ×
    LineBuf)) := by
  induction a0 generalizing u a1 with
  | nil =>
    unfold uReadBuf
    with_reducible
      repeat' (first | assumption | (intro _) | apply uRead_inv | apply run_pure | apply run_throw | apply run_getThe
                         | apply run_bind | apply run_mk | apply run_forM | apply run_mapM | apply run_foldlM | apply run_forIn
                         | apply run_elim | apply run_ite | apply inv_ite | dsimp only | apply ih
                         | (fail_if_no_progress apply inv_mk) | split)
  | cons x xs ih =>
    unfold uReadBuf
    with_reducible
      repeat' (first | assumption | (intro _) | apply uRead_inv | apply run_pure | apply run_throw | apply run_getThe
                         | apply run_bind | apply run_mk | apply run_forM | apply run_mapM | apply run_foldlM | apply run_forIn
                         | apply run_elim | apply run_ite | apply inv_ite | dsimp only | apply ih
                         | (fail_if_no_progress apply inv_mk) | split)

theorem uModify_inv {f : State → State} (h_f : ∀ x0, State.Inv x0 → (f x0).Inv) : RunInv ((uModify f) : UM Unit) := by
  unfold uModify
  with_reducible
    repeat' (first | assumption | (intro _) | apply run_pure | apply run_throw | apply run_getThe | apply run_bind | apply run_mk
                     | apply run_forM | apply run_mapM | apply run_foldlM | apply run_forIn | apply run_elim | dsimp only
                     | apply_assumption | (fail_if_no_progress apply inv_mk) | split)

theorem uFail_inv {α : Type} {c : Nat}  : RunInv ((uFail c) : UM α) := by
  unfold uFail
  with_reducible
    repeat' (first | assumption | (intro _) | apply run_pure | apply run_throw | apply run_getThe | apply run_bind | apply run_mk
                     | apply run_forM | apply run_mapM | apply run_foldlM | apply run_forIn | apply run_elim | dsimp only
                     | (fail_if_no_progress apply inv_mk) | split)

theorem uCheck_inv {b : Bool} {c : Nat}  : RunInv ((uCheck b c) : UM Unit) := by
  unfold uCheck
  with_reducible
    repeat' (first | assumption | (intro _) | apply run_pure | apply run_throw | apply run_getThe | apply run_bind | apply run_mk
                     | apply run_forM | apply run_mapM | apply run_foldlM | apply run_forIn | apply run_elim | apply run_ite
                     | apply inv_ite | dsimp only | (fail_if_no_progress apply inv_mk) | split)

theorem uRun_inv {α : Type} {m : UM α} {s : State} (h_m : RunInv m) (h_s : s.Inv) : (uRun m s).2.Inv := by
  unfold uRun
  with_reducible
    repeat' (first | assumption | (intro _) | apply run_pure | apply run_throw | apply run_getThe | apply run_bind | apply run_mk
                     | apply run_forM | apply run_mapM | apply run_foldlM | apply run_forIn | apply run_elim | dsimp only
                     | apply_assumption | (fail_if_no_progress apply inv_mk) | split)
theorem uRun_inv' {α : Type} {m : UM α} {s : State} {r0} {tE : State} (hE : (uRun m s) = (r0, tE)) (h_m : RunInv m) (h_s :
    s.Inv) : tE.Inv := by
  have h := @uRun_inv α m s h_m h_s; rw [hE] at h; exact h

theorem uRunAll_inv {a0 : List (UM Unit)} {a1 : State} (h_a0 : RunsInv a0) (h_a1 : a1.Inv) : (uRunAll a0 a1).2.Inv := by
  induction a0 generalizing a1 with
  | nil => exact h_a1
  | cons m t ih =>
    have hm : RunInv m := h_a0 m List.mem_cons_self
    have ht : RunsInv t := fun x hx => h_a0 x (List.mem_cons_of_mem _ hx)
    unfold uRunAll
    split
    · exact ih ht (uRun_inv' (by assumption) hm h_a1)
    · exact ih ht (uRun_inv' (by assumption) hm h_a1)

theorem uRunAll_inv' {a0 : List (UM Unit)} {a1 : State} {r0} {tE : State} (hE : (uRunAll a0 a1) = (r0, tE)) (h_a0 : RunsInv a0)
    (h_a1 : a1.Inv) : tE.Inv := by
  have h := uRunAll_inv h_a0 h_a1; rw [hE] at h; exact h


theorem uDesc_inv {u : UCtx} {va : Nat} {bytes : Nat} {invalid : Nat}  : RunInv ((uDesc u va bytes invalid) : UM (List
    Byte)) := by
  unfold uDesc
  with_reducible
    repeat' (first | assumption | (intro _) | apply uRead_inv | apply uCheck_inv | apply run_pure | apply run_throw
                     | apply run_getThe | apply run_bind | apply run_mk | apply run_forM | apply run_mapM | apply run_foldlM
                     | apply run_forIn | apply run_elim | dsimp only | (fail_if_no_progress apply inv_mk) | split)

theorem State.peekDesc_inv {s : State} {u : UCtx} {va : Nat} {bytes : Nat} {f : List Byte → Nat} (h_s : s.Inv) :
    (State.peekDesc s u va bytes f).2.Inv := by
  unfold State.peekDesc
  with_reducible
    repeat' (first | assumption | (intro _) | apply uRun_inv | refine uRun_inv' (by assumption) ?_ | apply uDesc_inv
                     | apply run_pure | apply run_throw | apply run_getThe | apply run_bind | apply run_mk | apply run_forM
                     | apply run_mapM | apply run_foldlM | apply run_forIn | apply run_elim | dsimp only
                     | (fail_if_no_progress apply inv_mk) | refine inv_snd (by assumption) ?_ | split)
theorem State.peekDesc_inv' {s : State} {u : UCtx} {va : Nat} {bytes : Nat} {f : List Byte → Nat} {r0} {tE : State} (hE :
    (State.peekDesc s u va bytes f) = (r0, tE)) (h_s : s.Inv) : tE.Inv := by
  have h := @State.peekDesc_inv s u va bytes f h_s; rw [hE] at h; exact h

theorem State.startUnit_inv {s : State} {q : CmdUnit} {bound : UnitCmd → State → Nat × State} (h_s : s.Inv) (h_bound : ∀ x0
    x1, State.Inv x1 → (bound x0 x1).2.Inv) : (State.startUnit s q bound).2.Inv := by
  unfold State.startUnit
  with_reducible
    repeat' (first | assumption | (intro _) | dsimp only | apply_assumption | (fail_if_no_progress apply inv_mk) | split)
theorem State.startUnit_inv' {s : State} {q : CmdUnit} {bound : UnitCmd → State → Nat × State} {r0} {tE : State} (hE :
    (State.startUnit s q bound) = (r0, tE)) (h_s : s.Inv) (h_bound : ∀ x0 x1, State.Inv x1 → (bound x0 x1).2.Inv) : tE.Inv
    := by
  have h := @State.startUnit_inv s q bound h_s h_bound; rw [hE] at h; exact h

theorem State.cmdEnd_inv {s : State} {u : UnitCmd} {st : Word} (h_s : s.Inv) : (State.cmdEnd s u st).Inv := by
  unfold State.cmdEnd
  with_reducible
    repeat' (first | assumption | (intro _) | apply State.endTicket_inv | dsimp only | (fail_if_no_progress apply inv_mk) | split)

end Sys2Proof.Machine
end

