-- ==== Sys2Proof/Laws/MemScan.lean ====
section
/-!
SUPPORT. The state functions of Machine/Scan.lean keep the canonical form of memory.
-/
namespace Sys2Proof.Machine

open Sys2Proof

set_option linter.unusedTactic false
set_option linter.unreachableTactic false
set_option linter.unusedSimpArgs false
set_option linter.unusedVariables false

theorem uPacked_inv {u : UCtx} {addr : Nat} {w : Nat} {i : Nat}  : RunInv ((uPacked u addr w i) : UM Nat) := by
  unfold uPacked
  with_reducible
    repeat' (first | assumption | (intro _) | apply uReadNat_inv | apply run_pure | apply run_throw | apply run_getThe
                     | apply run_bind | apply run_mk | apply run_forM | apply run_mapM | apply run_foldlM | apply run_forIn
                     | apply run_elim | dsimp only | (fail_if_no_progress apply inv_mk) | split)

theorem uStr_inv {u : UCtx} {offs : Nat} {i : Nat} {limit : Option Nat}  : RunInv ((uStr u offs i limit) : UM (Nat × Nat))
    := by
  unfold uStr
  with_reducible
    repeat' (first | assumption | (intro _) | apply uReadNat_inv | apply uCheck_inv | apply run_pure | apply run_throw
                     | apply run_getThe | apply run_bind | apply run_mk | apply run_forM | apply run_mapM | apply run_foldlM
                     | apply run_forIn | apply run_elim | dsimp only | (fail_if_no_progress apply inv_mk) | split)

theorem uDict_inv {u : UCtx} {k : Chunk} {code : Nat}  : RunInv ((uDict u k code) : UM Val) := by
  unfold uDict
  with_reducible
    repeat' (first | assumption | (intro _) | apply uRead_inv | apply uReadNat_inv | apply uStr_inv | apply run_pure
                     | apply run_throw | apply run_getThe | apply run_bind | apply run_mk | apply run_forM | apply run_mapM
                     | apply run_foldlM | apply run_forIn | apply run_elim | apply run_ite | apply inv_ite | dsimp only
                     | (fail_if_no_progress apply inv_mk) | split)

theorem uRunTo_inv {u : UCtx} {k : Chunk} {rows : Nat} {i : Nat} {a0 : Nat} {a1 : ColPos}  : RunInv ((uRunTo u k rows i a0
    a1) : UM ColPos) := by
  induction a0 generalizing u k rows i a1 with
  | zero =>
    unfold uRunTo
    with_reducible
      repeat' (first | assumption | (intro _) | apply uReadNat_inv | apply uFail_inv | apply uCheck_inv | apply run_pure
                         | apply run_throw | apply run_getThe | apply run_bind | apply run_mk | apply run_forM | apply run_mapM
                         | apply run_foldlM | apply run_forIn | apply run_elim | apply run_ite | apply inv_ite | dsimp only
                         | apply ih | (fail_if_no_progress apply inv_mk) | split)
  | succ n ih =>
    unfold uRunTo
    with_reducible
      repeat' (first | assumption | (intro _) | apply uReadNat_inv | apply uFail_inv | apply uCheck_inv | apply run_pure
                         | apply run_throw | apply run_getThe | apply run_bind | apply run_mk | apply run_forM | apply run_mapM
                         | apply run_foldlM | apply run_forIn | apply run_elim | apply run_ite | apply inv_ite | dsimp only
                         | apply ih | (fail_if_no_progress apply inv_mk) | split)

theorem uDeltaTo_inv {u : UCtx} {k : Chunk} {i : Nat} {a0 : Nat} {a1 : ColPos}  : RunInv ((uDeltaTo u k i a0 a1) : UM
    ColPos) := by
  induction a0 generalizing u k i a1 with
  | zero =>
    unfold uDeltaTo
    with_reducible
      repeat' (first | assumption | (intro _) | apply uPacked_inv | apply run_pure | apply run_throw | apply run_getThe
                         | apply run_bind | apply run_mk | apply run_forM | apply run_mapM | apply run_foldlM | apply run_forIn
                         | apply run_elim | apply run_ite | apply inv_ite | dsimp only | apply ih
                         | (fail_if_no_progress apply inv_mk) | split)
  | succ n ih =>
    unfold uDeltaTo
    with_reducible
      repeat' (first | assumption | (intro _) | apply uPacked_inv | apply run_pure | apply run_throw | apply run_getThe
                         | apply run_bind | apply run_mk | apply run_forM | apply run_mapM | apply run_foldlM | apply run_forIn
                         | apply run_elim | apply run_ite | apply inv_ite | dsimp only | apply ih
                         | (fail_if_no_progress apply inv_mk) | split)

theorem uPass_inv {u : UCtx} {k : Chunk} {rows : Nat} {i : Nat} {p : ColPos}  : RunInv ((uPass u k rows i p) : UM ColPos) :=
    by
  unfold uPass
  with_reducible
    repeat' (first | assumption | (intro _) | apply uPacked_inv | apply uRunTo_inv | apply uDeltaTo_inv | apply run_pure
                     | apply run_throw | apply run_getThe | apply run_bind | apply run_mk | apply run_forM | apply run_mapM
                     | apply run_foldlM | apply run_forIn | apply run_elim | apply run_ite | apply inv_ite | dsimp only
                     | (fail_if_no_progress apply inv_mk) | split)

theorem uCell_inv {u : UCtx} {k : Chunk} {i : Nat} {p : ColPos} {deep : Bool}  : RunInv ((uCell u k i p deep) : UM Cell) :=
    by
  unfold uCell
  with_reducible
    repeat' (first | assumption | (intro _) | apply uReadNat_inv | apply uCheck_inv | apply uPacked_inv | apply uStr_inv
                     | apply uDict_inv | apply run_pure | apply run_throw | apply run_getThe | apply run_bind | apply run_mk
                     | apply run_forM | apply run_mapM | apply run_foldlM | apply run_forIn | apply run_elim | apply run_ite
                     | apply inv_ite | dsimp only | (fail_if_no_progress apply inv_mk) | split)

theorem uNull_inv {u : UCtx} {k : Chunk} {i : Nat}  : RunInv ((uNull u k i) : UM Bool) := by
  unfold uNull
  with_reducible
    repeat' (first | assumption | (intro _) | apply uReadNat_inv | apply run_pure | apply run_throw | apply run_getThe
                     | apply run_bind | apply run_mk | apply run_forM | apply run_mapM | apply run_foldlM | apply run_forIn
                     | apply run_elim | apply run_ite | apply inv_ite | dsimp only | (fail_if_no_progress apply inv_mk) | split)

theorem uTerm_inv {u : UCtx} {t : Term} {k : Chunk}  : RunInv ((uTerm u t k) : UM RTerm) := by
  unfold uTerm
  with_reducible
    repeat' (first | assumption | (intro _) | apply uRead_inv | apply uReadNat_inv | apply uDict_inv | apply run_pure
                     | apply run_throw | apply run_getThe | apply run_bind | apply run_mk | apply run_forM | apply run_mapM
                     | apply run_foldlM | apply run_forIn | apply run_elim | apply run_ite | apply inv_ite | dsimp only
                     | (fail_if_no_progress apply inv_mk) | split)

theorem uReadNatVis_inv {c : ScanCfg} {a : Nat} : RunInv (uBatchTo.uReadNatVis c a : UM Nat) := by
  unfold uBatchTo.uReadNatVis
  exact run_bind uReadVis_inv (fun _ => run_pure _)

theorem uBatchTo_inv {c : ScanCfg} {r : Nat} {a0 : Nat} {a1 : ScanSt}  : RunInv ((uBatchTo c r a0 a1) : UM ScanSt) := by
  induction a0 generalizing c r a1 with
  | zero =>
    unfold uBatchTo
    with_reducible
      repeat' (first | with_reducible apply uReadNatVis_inv | assumption | (intro _) | apply uReadVis_inv | apply uFail_inv
                         | apply uCheck_inv | apply run_pure | apply run_throw | apply run_getThe | apply run_bind | apply run_mk
                         | apply run_forM | apply run_mapM | apply run_foldlM | apply run_forIn | apply run_elim | apply run_ite
                         | apply inv_ite | dsimp only | apply ih | (fail_if_no_progress apply inv_mk) | split)
  | succ n ih =>
    unfold uBatchTo
    with_reducible
      repeat' (first | with_reducible apply uReadNatVis_inv | assumption | (intro _) | apply uReadVis_inv | apply uFail_inv
                         | apply uCheck_inv | apply run_pure | apply run_throw | apply run_getThe | apply run_bind | apply run_mk
                         | apply run_forM | apply run_mapM | apply run_foldlM | apply run_forIn | apply run_elim | apply run_ite
                         | apply inv_ite | dsimp only | apply ih | (fail_if_no_progress apply inv_mk) | split)

theorem uTermRow_inv {c : ScanCfg} {row : Nat} {st : ScanSt} {r : RTerm}  : RunInv ((uTermRow c row st r) : UM Bool) := by
  unfold uTermRow
  with_reducible
    repeat' (first | assumption | (intro _) | apply uCell_inv | apply uNull_inv | apply run_pure | apply run_throw
                     | apply run_getThe | apply run_bind | apply run_mk | apply run_forM | apply run_mapM | apply run_foldlM
                     | apply run_forIn | apply run_elim | apply run_ite | apply inv_ite | dsimp only
                     | (fail_if_no_progress apply inv_mk) | split)

theorem uRecord_inv {c : ScanCfg} {row : Nat} {st : ScanSt}  : RunInv ((uRecord c row st) : UM (List Byte)) := by
  unfold uRecord
  with_reducible
    repeat' (first | assumption | (intro _) | apply uCell_inv | apply uNull_inv | apply inv_foldl | apply inv_foldl_snd
                     | apply inv_foldl_fst | apply run_pure | apply run_throw | apply run_getThe | apply run_bind | apply run_mk
                     | apply run_forM | apply run_mapM | apply run_foldlM | apply run_forIn | apply run_elim | apply run_ite
                     | apply inv_ite | dsimp only | (fail_if_no_progress apply inv_mk) | split)

theorem uBitmap_inv {c : ScanCfg} {st : ScanSt} {j : Nat} {acc : Nat} {hit : Bool}  : RunInv ((uBitmap c st j acc hit) : UM
    ScanSt) := by
  unfold uBitmap
  with_reducible
    repeat' (first | assumption | (intro _) | apply uWrite_inv | apply uRun_inv | refine uRun_inv' (by assumption) ?_
                     | apply run_pure | apply run_throw | apply run_getThe | apply run_bind | apply run_mk | apply run_forM
                     | apply run_mapM | apply run_foldlM | apply run_forIn | apply run_elim | apply run_ite | apply inv_ite
                     | dsimp only | (fail_if_no_progress apply inv_mk) | refine inv_snd (by assumption) ?_ | split)

theorem uRowChecks_inv {c : ScanCfg} {row : Nat} {st : ScanSt}  : RunInv ((uRowChecks c row st) : UM Unit) := by
  unfold uRowChecks
  with_reducible
    repeat' (first | assumption | (intro _) | apply uCell_inv | apply uNull_inv | apply run_pure | apply run_throw
                     | apply run_getThe | apply run_bind | apply run_mk | apply run_forM | apply run_mapM | apply run_foldlM
                     | apply run_forIn | apply run_elim | apply run_ite | apply inv_ite | dsimp only
                     | (fail_if_no_progress apply inv_mk) | split)

theorem scanRow_inv {c : ScanCfg} {row : Nat} {st0 : ScanSt}  : RunInv ((scanRow c row st0) : UM ScanSt) := by
  unfold scanRow
  with_reducible
    repeat' (first | assumption | (intro _) | apply uReadVis_inv | apply uWrite_inv | apply uCheck_inv | apply uPass_inv
                     | apply uBatchTo_inv | apply uTermRow_inv | apply uRecord_inv | apply uBitmap_inv | apply uRowChecks_inv
                     | apply inv_foldl | apply inv_foldl_snd | apply inv_foldl_fst | apply run_pure | apply run_throw
                     | apply run_getThe | apply run_bind | apply run_mk | apply run_forM | apply run_mapM | apply run_foldlM
                     | apply run_forIn | apply run_elim | apply run_ite | apply inv_ite | dsimp only
                     | (fail_if_no_progress apply inv_mk) | split)

theorem scanLoop_inv {c : ScanCfg} {a0 : Nat} {a1 : Nat} {a2 : ScanSt} {a3 : State} (h_a3 : a3.Inv) : (scanLoop c a0 a1 a2
    a3).2.Inv := by
  induction a0 generalizing c a1 a2 a3 h_a3 with
  | zero =>
    unfold scanLoop
    with_reducible
      repeat' (first | assumption | (intro _) | apply uWrite_inv | apply uRun_inv | refine uRun_inv' (by assumption) ?_
                         | apply scanRow_inv | apply run_pure | apply run_throw | apply run_getThe | apply run_bind | apply run_mk
                         | apply run_forM | apply run_mapM | apply run_foldlM | apply run_forIn | apply run_elim | dsimp only
                         | apply ih | (fail_if_no_progress apply inv_mk) | refine inv_snd (by assumption) ?_ | split)
  | succ n ih =>
    unfold scanLoop
    with_reducible
      repeat' (first | assumption | (intro _) | apply uWrite_inv | apply uRun_inv | refine uRun_inv' (by assumption) ?_
                         | apply scanRow_inv | apply run_pure | apply run_throw | apply run_getThe | apply run_bind | apply run_mk
                         | apply run_forM | apply run_mapM | apply run_foldlM | apply run_forIn | apply run_elim | dsimp only
                         | apply ih | (fail_if_no_progress apply inv_mk) | refine inv_snd (by assumption) ?_ | split)
theorem scanLoop_inv' {c : ScanCfg} {a0 : Nat} {a1 : Nat} {a2 : ScanSt} {a3 : State} {r0} {tE : State} (hE : (scanLoop c a0
    a1 a2 a3) = (r0, tE)) (h_a3 : a3.Inv) : tE.Inv := by
  have h := @scanLoop_inv c a0 a1 a2 a3 h_a3; rw [hE] at h; exact h

theorem scanStart_inv {u : UCtx} {g : Leg} {cmd : UnitCmd}  : RunInv ((scanStart u g cmd) : UM (Option ScanCfg)) := by
  unfold scanStart
  with_reducible
    repeat' (first | assumption | (intro _) | apply uRead_inv | apply uReadNat_inv | apply uProbeW_inv | apply uFail_inv
                     | apply uCheck_inv | apply uDesc_inv | apply uTerm_inv | apply run_pure | apply run_throw
                     | apply run_getThe | apply run_bind | apply run_mk | apply run_forM | apply run_mapM | apply run_foldlM
                     | apply run_forIn | apply run_elim | apply run_ite | apply inv_ite | dsimp only
                     | (fail_if_no_progress apply inv_mk) | split)

theorem scanRun_inv {c : Nat} {g : Leg} {cmd : UnitCmd} {s : State} (h_s : s.Inv) : (scanRun c g cmd s).2.2.2.Inv := by
  unfold scanRun
  with_reducible
    repeat' (first | assumption | (intro _) | apply uWrite_inv | apply uRun_inv | refine uRun_inv' (by assumption) ?_
                     | apply scanLoop_inv | refine scanLoop_inv' (by assumption) ?_ | apply scanStart_inv | apply run_pure
                     | apply run_throw | apply run_getThe | apply run_bind | apply run_mk | apply run_forM | apply run_mapM
                     | apply run_foldlM | apply run_forIn | apply run_elim | apply inv_ite_snd3 | apply inv_ite | dsimp only
                     | (fail_if_no_progress apply inv_mk) | refine inv_snd (by assumption) ?_
                     | refine inv_snd2 (by assumption) ?_ | refine inv_snd3 (by assumption) ?_ | split)
theorem scanRun_inv' {c : Nat} {g : Leg} {cmd : UnitCmd} {s : State} {r0} {r1} {r2} {tE : State} (hE : (scanRun c g cmd s) =
    (r0, r1, r2, tE)) (h_s : s.Inv) : tE.Inv := by
  have h := @scanRun_inv c g cmd s h_s; rw [hE] at h; exact h

end Sys2Proof.Machine
end

