-- ==== Sys2Proof/Laws/MemDecompress.lean ====
section
/-!
SUPPORT. The state functions of Machine/Decompress.lean keep the canonical form of memory.
-/
namespace Sys2Proof.Machine

open Sys2Proof

set_option linter.unusedTactic false
set_option linter.unreachableTactic false
set_option linter.unusedSimpArgs false
set_option linter.unusedVariables false

theorem uReadSome_inv {u : UCtx} {a0 : List (Nat × Nat)} {a1 : State} {a2 : List (List Byte)} (h_a1 : a1.Inv) : (uReadSome u
    a0 a1 a2).2.2.Inv := by
  induction a0 generalizing u a1 a2 h_a1 with
  | nil =>
    unfold uReadSome
    with_reducible
      repeat' (first | assumption | (intro _) | apply State.unitReadIn_inv | refine State.unitReadIn_inv' (by assumption) ?_
                         | dsimp only | apply ih | (fail_if_no_progress apply inv_mk) | refine inv_snd (by assumption) ?_
                         | refine inv_snd2 (by assumption) ?_ | refine inv_snd3 (by assumption) ?_ | split)
  | cons x xs ih =>
    unfold uReadSome
    with_reducible
      repeat' (first | assumption | (intro _) | apply State.unitReadIn_inv | refine State.unitReadIn_inv' (by assumption) ?_
                         | dsimp only | apply ih | (fail_if_no_progress apply inv_mk) | refine inv_snd (by assumption) ?_
                         | refine inv_snd2 (by assumption) ?_ | refine inv_snd3 (by assumption) ?_ | split)
theorem uReadSome_inv' {u : UCtx} {a0 : List (Nat × Nat)} {a1 : State} {a2 : List (List Byte)} {r0} {r1} {tE : State} (hE :
    (uReadSome u a0 a1 a2) = (r0, r1, tE)) (h_a1 : a1.Inv) : tE.Inv := by
  have h := @uReadSome_inv u a0 a1 a2 h_a1; rw [hE] at h; exact h

theorem uWriteSome_inv {u : UCtx} {a0 : List (Nat × Nat)} {a1 : List Byte} {a2 : Nat} {a3 : State} (h_a3 : a3.Inv) :
    (uWriteSome u a0 a1 a2 a3).2.2.Inv := by
  induction a0 generalizing u a1 a2 a3 h_a3 with
  | nil =>
    unfold uWriteSome
    with_reducible
      repeat' (first | assumption | (intro _) | apply State.unitWriteIn_inv | refine State.unitWriteIn_inv' (by assumption) ?_
                         | dsimp only | apply ih | (fail_if_no_progress apply inv_mk) | refine inv_snd (by assumption) ?_
                         | refine inv_snd2 (by assumption) ?_ | refine inv_snd3 (by assumption) ?_ | split)
  | cons x xs ih =>
    unfold uWriteSome
    with_reducible
      repeat' (first | assumption | (intro _) | apply State.unitWriteIn_inv | refine State.unitWriteIn_inv' (by assumption) ?_
                         | dsimp only | apply ih | (fail_if_no_progress apply inv_mk) | refine inv_snd (by assumption) ?_
                         | refine inv_snd2 (by assumption) ?_ | refine inv_snd3 (by assumption) ?_ | split)
theorem uWriteSome_inv' {u : UCtx} {a0 : List (Nat × Nat)} {a1 : List Byte} {a2 : Nat} {a3 : State} {r0} {r1} {tE : State}
    (hE : (uWriteSome u a0 a1 a2 a3) = (r0, r1, tE)) (h_a3 : a3.Inv) : tE.Inv := by
  have h := @uWriteSome_inv u a0 a1 a2 a3 h_a3; rw [hE] at h; exact h

theorem decodeStart_inv {u : UCtx} {cmd : UnitCmd}  : RunInv ((decodeStart u cmd) : UM DecD) := by
  unfold decodeStart
  with_reducible
    repeat' (first | assumption | (intro _) | apply uCheck_inv | apply uDesc_inv | apply run_pure | apply run_throw
                     | apply run_getThe | apply run_bind | apply run_mk | apply run_forM | apply run_mapM | apply run_foldlM
                     | apply run_forIn | apply run_elim | dsimp only | (fail_if_no_progress apply inv_mk) | split)

theorem decGo_inv {u : UCtx} {d : DecD} {inp : Array Byte} {a0 : Nat} {a1 : List (List Byte)} {a2 : Nat} {a3 : State} (h_a3
    : a3.Inv) : (decGo u d inp a0 a1 a2 a3).2.2.2.Inv := by
  induction a0 generalizing u d inp a1 a2 a3 h_a3 with
  | zero =>
    unfold decGo
    with_reducible
      repeat' (first | assumption | (intro _) | apply uRead_inv | apply uRun_inv | refine uRun_inv' (by assumption) ?_
                         | apply uWriteSome_inv | refine uWriteSome_inv' (by assumption) ?_ | apply run_pure | apply run_throw
                         | apply run_getThe | apply run_bind | apply run_mk | apply run_forM | apply run_mapM | apply run_foldlM
                         | apply run_forIn | apply run_elim | apply inv_ite_snd3 | apply inv_ite | dsimp only | apply ih
                         | (fail_if_no_progress apply inv_mk) | refine inv_snd (by assumption) ?_
                         | refine inv_snd2 (by assumption) ?_ | refine inv_snd3 (by assumption) ?_ | split)
  | succ n ih =>
    unfold decGo
    with_reducible
      repeat' (first | assumption | (intro _) | apply uRead_inv | apply uRun_inv | refine uRun_inv' (by assumption) ?_
                         | apply uWriteSome_inv | refine uWriteSome_inv' (by assumption) ?_ | apply run_pure | apply run_throw
                         | apply run_getThe | apply run_bind | apply run_mk | apply run_forM | apply run_mapM | apply run_foldlM
                         | apply run_forIn | apply run_elim | apply inv_ite_snd3 | apply inv_ite | dsimp only | apply ih
                         | (fail_if_no_progress apply inv_mk) | refine inv_snd (by assumption) ?_
                         | refine inv_snd2 (by assumption) ?_ | refine inv_snd3 (by assumption) ?_ | split)
theorem decGo_inv' {u : UCtx} {d : DecD} {inp : Array Byte} {a0 : Nat} {a1 : List (List Byte)} {a2 : Nat} {a3 : State} {r0}
    {r1} {r2} {tE : State} (hE : (decGo u d inp a0 a1 a2 a3) = (r0, r1, r2, tE)) (h_a3 : a3.Inv) : tE.Inv := by
  have h := @decGo_inv u d inp a0 a1 a2 a3 h_a3; rw [hE] at h; exact h

theorem decodeRun_inv {c : Nat} {cmd : UnitCmd} {s : State} (h_s : s.Inv) : (decodeRun c cmd s).2.2.Inv := by
  unfold decodeRun
  with_reducible
    repeat' (first | assumption | (intro _) | apply uWrite_inv | apply uRun_inv | refine uRun_inv' (by assumption) ?_
                     | apply uReadSome_inv | refine uReadSome_inv' (by assumption) ?_ | apply decodeStart_inv | apply decGo_inv
                     | refine decGo_inv' (by assumption) ?_ | apply run_pure | apply run_throw | apply run_getThe
                     | apply run_bind | apply run_mk | apply run_forM | apply run_mapM | apply run_foldlM | apply run_forIn
                     | apply run_elim | apply inv_ite_snd2 | apply inv_ite | dsimp only | (fail_if_no_progress apply inv_mk)
                     | refine inv_snd (by assumption) ?_ | refine inv_snd2 (by assumption) ?_
                     | refine inv_snd3 (by assumption) ?_ | split)
theorem decodeRun_inv' {c : Nat} {cmd : UnitCmd} {s : State} {r0} {r1} {tE : State} (hE : (decodeRun c cmd s) = (r0, r1,
    tE)) (h_s : s.Inv) : tE.Inv := by
  have h := @decodeRun_inv c cmd s h_s; rw [hE] at h; exact h

theorem upuOn_inv {s : State} {c : Nat} {f : UnitCmd → State → State} (h_s : s.Inv) (h_f : ∀ x0 x1, State.Inv x1 → (f x0
    x1).Inv) : (upuOn s c f).Inv := by
  unfold upuOn
  with_reducible
    repeat' (first | assumption | (intro _) | apply inv_ite | dsimp only | apply_assumption | (fail_if_no_progress apply inv_mk)
                     | split)

theorem scanBound_inv {c : Nat} {cmd : UnitCmd} {s : State} (h_s : s.Inv) : (scanBound c cmd s).2.Inv := by
  unfold scanBound
  with_reducible
    repeat' (first | assumption | (intro _) | apply State.peekDesc_inv | refine State.peekDesc_inv' (by assumption) ?_
                     | apply inv_ite_snd | apply inv_ite | dsimp only | (fail_if_no_progress apply inv_mk)
                     | refine inv_snd (by assumption) ?_ | split)
theorem scanBound_inv' {c : Nat} {cmd : UnitCmd} {s : State} {r0} {tE : State} (hE : (scanBound c cmd s) = (r0, tE)) (h_s :
    s.Inv) : tE.Inv := by
  have h := @scanBound_inv c cmd s h_s; rw [hE] at h; exact h

theorem doUpuStart_inv {c : Nat} {s : State} (h_s : s.Inv) : (doUpuStart c s).Inv := by
  unfold doUpuStart
  with_reducible
    repeat' (first | assumption | (intro _) | apply State.setCl_inv | apply State.startUnit_inv
                     | refine State.startUnit_inv' (by assumption) ?_ | apply scanBound_inv
                     | refine scanBound_inv' (by assumption) ?_ | apply inv_ite | dsimp only
                     | (fail_if_no_progress apply inv_mk) | refine inv_snd (by assumption) ?_ | split)

theorem doUpuDone_inv {c : Nat} {s : State} (h_s : s.Inv) : (doUpuDone c s).Inv := by
  unfold doUpuDone
  with_reducible
    repeat' (first | assumption | (intro _) | apply State.free_inv | refine State.free_inv' (by assumption) ?_
                     | apply State.setCl_inv | apply State.cmdEnd_inv | apply scanRun_inv
                     | refine scanRun_inv' (by assumption) ?_ | apply decodeRun_inv | refine decodeRun_inv' (by assumption) ?_
                     | apply upuOn_inv | apply inv_ite | dsimp only | (fail_if_no_progress apply inv_mk)
                     | refine inv_snd (by assumption) ?_ | refine inv_snd2 (by assumption) ?_
                     | refine inv_snd3 (by assumption) ?_ | split)

theorem compressRun_inv {u : UCtx} {cmd : UnitCmd} {stamp : Word}  : RunInv ((compressRun u cmd stamp) : UM (Nat × Bool)) :=
    by
  unfold compressRun
  with_reducible
    repeat' (first | assumption | (intro _) | apply State.setCl_inv | apply State.log_inv | apply uRead_inv | apply uWrite_inv
                     | apply uModify_inv | apply uCheck_inv | apply uDesc_inv | apply run_pure | apply run_throw
                     | apply run_getThe | apply run_bind | apply run_mk | apply run_forM | apply run_mapM | apply run_foldlM
                     | apply run_forIn | apply run_elim | apply run_ite | apply inv_ite | dsimp only
                     | (fail_if_no_progress apply inv_mk) | split)

theorem cmpBound_inv {c : Nat} {cmd : UnitCmd} {s : State} (h_s : s.Inv) : (cmpBound c cmd s).2.Inv := by
  unfold cmpBound
  with_reducible
    repeat' (first | assumption | (intro _) | apply State.peekDesc_inv | refine State.peekDesc_inv' (by assumption) ?_
                     | apply inv_ite_snd | apply inv_ite | dsimp only | (fail_if_no_progress apply inv_mk)
                     | refine inv_snd (by assumption) ?_ | split)
theorem cmpBound_inv' {c : Nat} {cmd : UnitCmd} {s : State} {r0} {tE : State} (hE : (cmpBound c cmd s) = (r0, tE)) (h_s :
    s.Inv) : tE.Inv := by
  have h := @cmpBound_inv c cmd s h_s; rw [hE] at h; exact h

theorem doCmpStart_inv {c : Nat} {s : State} (h_s : s.Inv) : (doCmpStart c s).Inv := by
  unfold doCmpStart
  with_reducible
    repeat' (first | assumption | (intro _) | apply State.setCl_inv | apply State.startUnit_inv
                     | refine State.startUnit_inv' (by assumption) ?_ | apply cmpBound_inv
                     | refine cmpBound_inv' (by assumption) ?_ | apply inv_ite | dsimp only | (fail_if_no_progress apply inv_mk)
                     | refine inv_snd (by assumption) ?_ | split)

theorem doCmpDone_inv {c : Nat} {s : State} (h_s : s.Inv) : (doCmpDone c s).Inv := by
  unfold doCmpDone
  with_reducible
    repeat' (first | assumption | (intro _) | apply State.free_inv | refine State.free_inv' (by assumption) ?_
                     | apply State.setCl_inv | apply uRun_inv | refine uRun_inv' (by assumption) ?_ | apply State.cmdEnd_inv
                     | apply compressRun_inv | apply run_pure | apply run_throw | apply run_getThe | apply run_bind
                     | apply run_mk | apply run_forM | apply run_mapM | apply run_foldlM | apply run_forIn | apply run_elim
                     | apply inv_ite | dsimp only | (fail_if_no_progress apply inv_mk) | refine inv_snd (by assumption) ?_
                     | split)

end Sys2Proof.Machine
end

