-- ==== Sys2Proof/Laws/MemHash.lean ====
section
/-!
SUPPORT. The state functions of Machine/Hash.lean keep the canonical form of memory.
-/
namespace Sys2Proof.Machine

open Sys2Proof

set_option linter.unusedTactic false
set_option linter.unreachableTactic false
set_option linter.unusedSimpArgs false
set_option linter.unusedVariables false

theorem huBind_inv {u : UCtx} {c : Nat} {num : Nat} {cmd : Nat} {d : HuD}  : RunInv ((huBind u c num cmd d) : UM Unit) := by
  unfold huBind
  with_reducible
    repeat' (first | assumption | (intro _) | apply State.setCl_inv | apply uModify_inv | apply uFail_inv | apply uCheck_inv
                     | apply run_pure | apply run_throw | apply run_getThe | apply run_bind | apply run_mk | apply run_forM
                     | apply run_mapM | apply run_foldlM | apply run_forIn | apply run_elim | apply run_ite | apply inv_ite
                     | dsimp only | (fail_if_no_progress apply inv_mk) | split)

theorem huStart_inv {u : UCtx} {c : Nat} {cmd : UnitCmd}  : RunInv ((huStart u c cmd) : UM HuCfg) := by
  unfold huStart
  with_reducible
    repeat' (first | assumption | (intro _) | apply uRead_inv | apply uProbeW_inv | apply uCheck_inv | apply uDesc_inv
                     | apply huBind_inv | apply run_pure | apply run_throw | apply run_getThe | apply run_bind | apply run_mk
                     | apply run_forM | apply run_mapM | apply run_foldlM | apply run_forIn | apply run_elim | apply run_ite
                     | apply inv_ite | dsimp only | (fail_if_no_progress apply inv_mk) | split)

theorem huEcc_inv {c : HuCfg} {here : Bool}  : RunInv ((huEcc c here) : UM Unit) := by
  unfold huEcc
  with_reducible
    repeat' (first | assumption | (intro _) | apply State.setCl_inv | apply State.log_inv | apply uModify_inv | apply uFail_inv
                     | apply run_pure | apply run_throw | apply run_getThe | apply run_bind | apply run_mk | apply run_forM
                     | apply run_mapM | apply run_foldlM | apply run_forIn | apply run_elim | apply run_ite | apply inv_ite
                     | dsimp only | (fail_if_no_progress apply inv_mk) | split)

theorem huBuildRow_inv {c : HuCfg} {key : List Word} {rc : List Byte} {st : HuSt}  : RunInv ((huBuildRow c key rc st) : UM
    HuSt) := by
  unfold huBuildRow
  with_reducible
    repeat' (first | assumption | (intro _) | apply State.setCl_inv | apply uModify_inv | apply uCheck_inv | apply run_pure
                     | apply run_throw | apply run_getThe | apply run_bind | apply run_mk | apply run_forM | apply run_mapM
                     | apply run_foldlM | apply run_forIn | apply run_elim | dsimp only | (fail_if_no_progress apply inv_mk)
                     | split)

theorem huAggRow_inv {c : HuCfg} {key : List Word} {rc : List Byte} {st : HuSt}  : RunInv ((huAggRow c key rc st) : UM HuSt)
    := by
  unfold huAggRow
  with_reducible
    repeat' (first | assumption | (intro _) | apply State.setCl_inv | apply uModify_inv | apply uFail_inv | apply run_pure
                     | apply run_throw | apply run_getThe | apply run_bind | apply run_mk | apply run_forM | apply run_mapM
                     | apply run_foldlM | apply run_forIn | apply run_elim | apply run_ite | apply inv_ite | dsimp only
                     | (fail_if_no_progress apply inv_mk) | split)

theorem huEmit_inv {c : HuCfg} {recs : List (List Byte)} {st : HuSt}  : RunInv ((huEmit c recs st) : UM HuSt) := by
  unfold huEmit
  with_reducible
    repeat' (first | assumption | (intro _) | apply uWriteWhole_inv | apply uCheck_inv | apply run_pure | apply run_throw
                     | apply run_getThe | apply run_bind | apply run_mk | apply run_forM | apply run_mapM | apply run_foldlM
                     | apply run_forIn | apply run_elim | dsimp only | (fail_if_no_progress apply inv_mk) | split)

theorem huProbeNull_inv {c : HuCfg} {row : Nat} {st : HuSt}  : RunInv ((huProbeNull c row st) : UM HuSt) := by
  unfold huProbeNull
  with_reducible
    repeat' (first | assumption | (intro _) | apply huEmit_inv | apply run_pure | apply run_throw | apply run_getThe
                     | apply run_bind | apply run_mk | apply run_forM | apply run_mapM | apply run_foldlM | apply run_forIn
                     | apply run_elim | apply run_ite | apply inv_ite | dsimp only | (fail_if_no_progress apply inv_mk) | split)

theorem huProbeRow_inv {c : HuCfg} {row : Nat} {key : List Word} {st : HuSt}  : RunInv ((huProbeRow c row key st) : UM HuSt)
    := by
  unfold huProbeRow
  with_reducible
    repeat' (first | assumption | (intro _) | apply State.setCl_inv | apply uModify_inv | apply huEmit_inv | apply inv_foldl
                     | apply inv_foldl_snd | apply inv_foldl_fst | apply run_pure | apply run_throw | apply run_getThe
                     | apply run_bind | apply run_mk | apply run_forM | apply run_mapM | apply run_foldlM | apply run_forIn
                     | apply run_elim | apply run_ite | apply inv_ite | dsimp only | (fail_if_no_progress apply inv_mk) | split)

theorem huSpill_inv {c : HuCfg} {p : Nat} {rc : List Byte} {st : HuSt}  : RunInv ((huSpill c p rc st) : UM HuSt) := by
  unfold huSpill
  with_reducible
    repeat' (first | assumption | (intro _) | apply uWriteWhole_inv | apply uCheck_inv | apply run_pure | apply run_throw
                     | apply run_getThe | apply run_bind | apply run_mk | apply run_forM | apply run_mapM | apply run_foldlM
                     | apply run_forIn | apply run_elim | dsimp only | (fail_if_no_progress apply inv_mk) | split)

theorem huRow_inv {c : HuCfg} {row : Nat} {st : HuSt}  : RunInv ((huRow c row st) : UM HuSt) := by
  unfold huRow
  with_reducible
    repeat' (first | assumption | (intro _) | apply uRead_inv | apply uFail_inv | apply huEcc_inv | apply huBuildRow_inv
                     | apply huAggRow_inv | apply huProbeNull_inv | apply huProbeRow_inv | apply huSpill_inv | apply run_pure
                     | apply run_throw | apply run_getThe | apply run_bind | apply run_mk | apply run_forM | apply run_mapM
                     | apply run_foldlM | apply run_forIn | apply run_elim | apply run_ite | apply inv_ite | dsimp only
                     | (fail_if_no_progress apply inv_mk) | split)

theorem huLoop_inv {c : HuCfg} {a0 : Nat} {a1 : Nat} {a2 : HuSt} {a3 : State} (h_a3 : a3.Inv) : (huLoop c a0 a1 a2 a3).2.Inv
    := by
  induction a0 generalizing c a1 a2 a3 h_a3 with
  | zero =>
    unfold huLoop
    with_reducible
      repeat' (first | assumption | (intro _) | apply uRun_inv | refine uRun_inv' (by assumption) ?_ | apply huRow_inv
                         | apply run_pure | apply run_throw | apply run_getThe | apply run_bind | apply run_mk | apply run_forM
                         | apply run_mapM | apply run_foldlM | apply run_forIn | apply run_elim | dsimp only | apply ih
                         | (fail_if_no_progress apply inv_mk) | refine inv_snd (by assumption) ?_ | split)
  | succ n ih =>
    unfold huLoop
    with_reducible
      repeat' (first | assumption | (intro _) | apply uRun_inv | refine uRun_inv' (by assumption) ?_ | apply huRow_inv
                         | apply run_pure | apply run_throw | apply run_getThe | apply run_bind | apply run_mk | apply run_forM
                         | apply run_mapM | apply run_foldlM | apply run_forIn | apply run_elim | dsimp only | apply ih
                         | (fail_if_no_progress apply inv_mk) | refine inv_snd (by assumption) ?_ | split)
theorem huLoop_inv' {c : HuCfg} {a0 : Nat} {a1 : Nat} {a2 : HuSt} {a3 : State} {r0} {tE : State} (hE : (huLoop c a0 a1 a2
    a3) = (r0, tE)) (h_a3 : a3.Inv) : tE.Inv := by
  have h := @huLoop_inv c a0 a1 a2 a3 h_a3; rw [hE] at h; exact h

theorem huFlushLoop_inv {c : HuCfg} {t : HuTable} {a0 : Nat} {a1 : Nat} {a2 : Nat} {a3 : State} (h_a3 : a3.Inv) :
    (huFlushLoop c t a0 a1 a2 a3).2.Inv := by
  induction a0 generalizing c t a1 a2 a3 h_a3 with
  | zero =>
    unfold huFlushLoop
    with_reducible
      repeat' (first | assumption | (intro _) | apply uWriteWhole_inv | apply uCheck_inv | apply uRun_inv
                         | refine uRun_inv' (by assumption) ?_ | apply huEcc_inv | apply run_pure | apply run_throw
                         | apply run_getThe | apply run_bind | apply run_mk | apply run_forM | apply run_mapM | apply run_foldlM
                         | apply run_forIn | apply run_elim | apply inv_ite_snd | apply inv_ite | dsimp only | apply ih
                         | (fail_if_no_progress apply inv_mk) | refine inv_snd (by assumption) ?_ | split)
  | succ n ih =>
    unfold huFlushLoop
    with_reducible
      repeat' (first | assumption | (intro _) | apply uWriteWhole_inv | apply uCheck_inv | apply uRun_inv
                         | refine uRun_inv' (by assumption) ?_ | apply huEcc_inv | apply run_pure | apply run_throw
                         | apply run_getThe | apply run_bind | apply run_mk | apply run_forM | apply run_mapM | apply run_foldlM
                         | apply run_forIn | apply run_elim | apply inv_ite_snd | apply inv_ite | dsimp only | apply ih
                         | (fail_if_no_progress apply inv_mk) | refine inv_snd (by assumption) ?_ | split)
theorem huFlushLoop_inv' {c : HuCfg} {t : HuTable} {a0 : Nat} {a1 : Nat} {a2 : Nat} {a3 : State} {r0} {tE : State} (hE :
    (huFlushLoop c t a0 a1 a2 a3) = (r0, tE)) (h_a3 : a3.Inv) : tE.Inv := by
  have h := @huFlushLoop_inv c t a0 a1 a2 a3 h_a3; rw [hE] at h; exact h

theorem huFlush_inv {c : HuCfg} {s : State} (h_s : s.Inv) : (huFlush c s).2.2.Inv := by
  unfold huFlush
  with_reducible
    repeat' (first | assumption | (intro _) | apply State.setCl_inv | apply uWrite_inv | apply uRun_inv
                     | refine uRun_inv' (by assumption) ?_ | apply huFlushLoop_inv | refine huFlushLoop_inv' (by assumption) ?_
                     | apply run_pure | apply run_throw | apply run_getThe | apply run_bind | apply run_mk | apply run_forM
                     | apply run_mapM | apply run_foldlM | apply run_forIn | apply run_elim | apply inv_ite_snd2 | apply inv_ite
                     | dsimp only | (fail_if_no_progress apply inv_mk) | refine inv_snd (by assumption) ?_
                     | refine inv_snd2 (by assumption) ?_ | refine inv_snd3 (by assumption) ?_ | split)
theorem huFlush_inv' {c : HuCfg} {s : State} {r0} {r1} {tE : State} (hE : (huFlush c s) = (r0, r1, tE)) (h_s : s.Inv) :
    tE.Inv := by
  have h := @huFlush_inv c s h_s; rw [hE] at h; exact h

theorem huRows_inv {c : HuCfg} {s : State} (h_s : s.Inv) : (huRows c s).2.2.2.2.Inv := by
  unfold huRows
  with_reducible
    repeat' (first | assumption | (intro _) | apply uReadNat_inv | apply uWrite_inv | apply uRun_inv
                     | refine uRun_inv' (by assumption) ?_ | apply uRunAll_inv | refine uRunAll_inv' (by assumption) ?_
                     | apply huLoop_inv | refine huLoop_inv' (by assumption) ?_ | exact runs_nil | apply runs_one
                     | apply runs_append | apply runs_map | apply runs_ite | apply inv_foldl | apply inv_foldl_snd
                     | apply inv_foldl_fst | apply run_pure | apply run_throw | apply run_getThe | apply run_bind | apply run_mk
                     | apply run_forM | apply run_mapM | apply run_foldlM | apply run_forIn | apply run_elim
                     | apply inv_ite_snd4 | apply inv_ite | dsimp only | (fail_if_no_progress apply inv_mk)
                     | refine inv_snd (by assumption) ?_ | split)
theorem huRows_inv' {c : HuCfg} {s : State} {r0} {r1} {r2} {r3} {tE : State} (hE : (huRows c s) = (r0, r1, r2, r3, tE)) (h_s
    : s.Inv) : tE.Inv := by
  have h := @huRows_inv c s h_s; rw [hE] at h; exact h

theorem huRun_inv {c : Nat} {cmd : UnitCmd} {limit : Option (Nat × Nat)} {js : Ecc} {at' : Nat} {s : State} (h_s : s.Inv) :
    (huRun c cmd limit js at' s).2.2.2.2.2.Inv := by
  unfold huRun
  with_reducible
    repeat' (first | assumption | (intro _) | apply uRun_inv | refine uRun_inv' (by assumption) ?_ | apply huStart_inv
                     | apply huFlush_inv | refine huFlush_inv' (by assumption) ?_ | apply huRows_inv
                     | refine huRows_inv' (by assumption) ?_ | apply run_pure | apply run_throw | apply run_getThe
                     | apply run_bind | apply run_mk | apply run_forM | apply run_mapM | apply run_foldlM | apply run_forIn
                     | apply run_elim | apply inv_ite_snd5 | apply inv_ite | dsimp only | (fail_if_no_progress apply inv_mk)
                     | refine inv_snd (by assumption) ?_ | refine inv_snd2 (by assumption) ?_
                     | refine inv_snd3 (by assumption) ?_ | split)
theorem huRun_inv' {c : Nat} {cmd : UnitCmd} {limit : Option (Nat × Nat)} {js : Ecc} {at' : Nat} {s : State} {r0} {r1} {r2}
    {r3} {r4} {tE : State} (hE : (huRun c cmd limit js at' s) = (r0, r1, r2, r3, r4, tE)) (h_s : s.Inv) : tE.Inv := by
  have h := @huRun_inv c cmd limit js at' s h_s; rw [hE] at h; exact h

theorem State.shuffleNext_inv {s : State} {c : Nat} {from' : Nat} (h_s : s.Inv) : (State.shuffleNext s c from').Inv := by
  unfold State.shuffleNext
  with_reducible
    repeat' (first | assumption | (intro _) | apply State.setCl_inv | apply State.sendMsg_inv | apply uRun_inv
                     | refine uRun_inv' (by assumption) ?_ | apply huStart_inv | apply huRun_inv
                     | refine huRun_inv' (by assumption) ?_ | apply run_pure | apply run_throw | apply run_getThe
                     | apply run_bind | apply run_mk | apply run_forM | apply run_mapM | apply run_foldlM | apply run_forIn
                     | apply run_elim | apply inv_ite | dsimp only | (fail_if_no_progress apply inv_mk)
                     | refine inv_snd (by assumption) ?_ | split)

theorem huBound_inv {c : Nat} {cmd : UnitCmd} {s : State} (h_s : s.Inv) : (huBound c cmd s).2.Inv := by
  unfold huBound
  with_reducible
    repeat' (first | assumption | (intro _) | apply State.peekDesc_inv | refine State.peekDesc_inv' (by assumption) ?_
                     | apply inv_ite_snd | apply inv_ite | dsimp only | (fail_if_no_progress apply inv_mk)
                     | refine inv_snd (by assumption) ?_ | split)
theorem huBound_inv' {c : Nat} {cmd : UnitCmd} {s : State} {r0} {tE : State} (hE : (huBound c cmd s) = (r0, tE)) (h_s :
    s.Inv) : tE.Inv := by
  have h := @huBound_inv c cmd s h_s; rw [hE] at h; exact h

theorem doHuStart_inv {c : Nat} {s : State} (h_s : s.Inv) : (doHuStart c s).Inv := by
  unfold doHuStart
  with_reducible
    repeat' (first | assumption | (intro _) | apply State.setCl_inv | apply State.startUnit_inv
                     | refine State.startUnit_inv' (by assumption) ?_ | apply State.shuffleNext_inv | apply huBound_inv
                     | refine huBound_inv' (by assumption) ?_ | apply inv_ite | dsimp only | (fail_if_no_progress apply inv_mk)
                     | refine inv_snd (by assumption) ?_ | split)

theorem doHuDone_inv {c : Nat} {js : Ecc} {k : Nat} {s : State} (h_s : s.Inv) : (doHuDone c js k s).Inv := by
  unfold doHuDone
  with_reducible
    repeat' (first | assumption | (intro _) | apply State.setCl_inv | apply State.log_inv | apply State.cmdEnd_inv
                     | apply huRows_inv | refine huRows_inv' (by assumption) ?_ | apply huRun_inv
                     | refine huRun_inv' (by assumption) ?_ | apply run_pure | apply run_throw | apply run_getThe
                     | apply run_bind | apply run_mk | apply run_forM | apply run_mapM | apply run_foldlM | apply run_forIn
                     | apply run_elim | apply inv_ite | dsimp only | (fail_if_no_progress apply inv_mk)
                     | refine inv_snd (by assumption) ?_ | split)

end Sys2Proof.Machine
end

