-- ==== Sys2Proof/Laws/MemSort.lean ====
section
/-!
SUPPORT. The state functions of Machine/Sort.lean keep the canonical form of memory.
-/
namespace Sys2Proof.Machine

open Sys2Proof

set_option linter.unusedTactic false
set_option linter.unreachableTactic false
set_option linter.unusedSimpArgs false
set_option linter.unusedVariables false

theorem runLoad_inv {u : UCtx} {d : MergeD} {r : Run}  : RunInv ((runLoad u d r) : UM Run) := by
  unfold runLoad
  with_reducible
    repeat' (first | assumption | (intro _) | apply uReadBuf_inv | apply uCheck_inv | apply run_pure | apply run_throw
                     | apply run_getThe | apply run_bind | apply run_mk | apply run_forM | apply run_mapM | apply run_foldlM
                     | apply run_forIn | apply run_elim | apply run_ite | apply inv_ite | dsimp only
                     | (fail_if_no_progress apply inv_mk) | split)

theorem loadAll_inv {u : UCtx} {d : MergeD} {a0 : List Run} {a1 : List Run} {a2 : Nat} {a3 : State} (h_a3 : a3.Inv) :
    (loadAll u d a0 a1 a2 a3).2.Inv := by
  induction a0 generalizing u d a1 a2 a3 h_a3 with
  | nil =>
    unfold loadAll
    with_reducible
      repeat' (first | assumption | (intro _) | apply uRun_inv | refine uRun_inv' (by assumption) ?_ | apply runLoad_inv
                         | apply run_pure | apply run_throw | apply run_getThe | apply run_bind | apply run_mk | apply run_forM
                         | apply run_mapM | apply run_foldlM | apply run_forIn | apply run_elim | dsimp only | apply ih
                         | (fail_if_no_progress apply inv_mk) | refine inv_snd (by assumption) ?_ | split)
  | cons x xs ih =>
    unfold loadAll
    with_reducible
      repeat' (first | assumption | (intro _) | apply uRun_inv | refine uRun_inv' (by assumption) ?_ | apply runLoad_inv
                         | apply run_pure | apply run_throw | apply run_getThe | apply run_bind | apply run_mk | apply run_forM
                         | apply run_mapM | apply run_foldlM | apply run_forIn | apply run_elim | dsimp only | apply ih
                         | (fail_if_no_progress apply inv_mk) | refine inv_snd (by assumption) ?_ | split)
theorem loadAll_inv' {u : UCtx} {d : MergeD} {a0 : List Run} {a1 : List Run} {a2 : Nat} {a3 : State} {r0} {tE : State} (hE :
    (loadAll u d a0 a1 a2 a3) = (r0, tE)) (h_a3 : a3.Inv) : tE.Inv := by
  have h := @loadAll_inv u d a0 a1 a2 a3 h_a3; rw [hE] at h; exact h

theorem mergeLoop_inv {u : UCtx} {d : MergeD} {a0 : Nat} {a1 : Nat} {a2 : Nat} {a3 : MergeSt} {a4 : State} (h_a4 : a4.Inv) :
    (mergeLoop u d a0 a1 a2 a3 a4).2.Inv := by
  induction a0 generalizing u d a1 a2 a3 a4 h_a4 with
  | zero =>
    unfold mergeLoop
    with_reducible
      repeat' (first | assumption | (intro _) | apply uWriteWhole_inv | apply uRun_inv | refine uRun_inv' (by assumption) ?_
                         | apply runLoad_inv | apply run_pure | apply run_throw | apply run_getThe | apply run_bind | apply run_mk
                         | apply run_forM | apply run_mapM | apply run_foldlM | apply run_forIn | apply run_elim | apply inv_ite_snd
                         | apply inv_ite | dsimp only | apply ih | (fail_if_no_progress apply inv_mk)
                         | refine inv_snd (by assumption) ?_ | split)
  | succ n ih =>
    unfold mergeLoop
    with_reducible
      repeat' (first | assumption | (intro _) | apply uWriteWhole_inv | apply uRun_inv | refine uRun_inv' (by assumption) ?_
                         | apply runLoad_inv | apply run_pure | apply run_throw | apply run_getThe | apply run_bind | apply run_mk
                         | apply run_forM | apply run_mapM | apply run_foldlM | apply run_forIn | apply run_elim | apply inv_ite_snd
                         | apply inv_ite | dsimp only | apply ih | (fail_if_no_progress apply inv_mk)
                         | refine inv_snd (by assumption) ?_ | split)
theorem mergeLoop_inv' {u : UCtx} {d : MergeD} {a0 : Nat} {a1 : Nat} {a2 : Nat} {a3 : MergeSt} {a4 : State} {r0} {tE :
    State} (hE : (mergeLoop u d a0 a1 a2 a3 a4) = (r0, tE)) (h_a4 : a4.Inv) : tE.Inv := by
  have h := @mergeLoop_inv u d a0 a1 a2 a3 a4 h_a4; rw [hE] at h; exact h

theorem mergeRuns_inv {u : UCtx} {d : MergeD} {runs : List Run} {at' : Nat} {room : Nat} {s : State} (h_s : s.Inv) :
    (mergeRuns u d runs at' room s).2.Inv := by
  unfold mergeRuns
  with_reducible
    repeat' (first | assumption | (intro _) | apply loadAll_inv | refine loadAll_inv' (by assumption) ?_ | apply mergeLoop_inv
                     | refine mergeLoop_inv' (by assumption) ?_ | dsimp only | (fail_if_no_progress apply inv_mk)
                     | refine inv_snd (by assumption) ?_ | split)
theorem mergeRuns_inv' {u : UCtx} {d : MergeD} {runs : List Run} {at' : Nat} {room : Nat} {s : State} {r0} {tE : State} (hE
    : (mergeRuns u d runs at' room s) = (r0, tE)) (h_s : s.Inv) : tE.Inv := by
  have h := @mergeRuns_inv u d runs at' room s h_s; rw [hE] at h; exact h

theorem suFin_inv {e : Option UErr} {r : Except UErr Unit × State} (h_r : r.2.Inv) : (suFin e r).2.Inv := by
  unfold suFin
  with_reducible
    repeat' (first | assumption | (intro _) | dsimp only | (fail_if_no_progress apply inv_mk) | split)
theorem suFin_inv' {e : Option UErr} {r : Except UErr Unit × State} {r0} {tE : State} (hE : (suFin e r) = (r0, tE)) (h_r :
    r.2.Inv) : tE.Inv := by
  have h := @suFin_inv e r h_r; rw [hE] at h; exact h

theorem mergeTable_inv {u : UCtx} {d : MergeD} {tab : List (Nat × Nat × Nat)} {s : State} (h_s : s.Inv) : (mergeTable u d
    tab s).2.2.Inv := by
  unfold mergeTable
  with_reducible
    repeat' (first | assumption | (intro _) | apply uWrite_inv | apply uRun_inv | refine uRun_inv' (by assumption) ?_
                     | apply uRunAll_inv | refine uRunAll_inv' (by assumption) ?_ | apply mergeRuns_inv
                     | refine mergeRuns_inv' (by assumption) ?_ | apply suFin_inv | refine suFin_inv' (by assumption) ?_
                     | exact runs_nil | apply runs_one | apply runs_append | apply runs_map | apply runs_ite | apply run_pure
                     | apply run_throw | apply run_getThe | apply run_bind | apply run_mk | apply run_forM | apply run_mapM
                     | apply run_foldlM | apply run_forIn | apply run_elim | dsimp only | (fail_if_no_progress apply inv_mk)
                     | refine inv_snd (by assumption) ?_ | refine inv_snd2 (by assumption) ?_
                     | refine inv_snd3 (by assumption) ?_ | split)
theorem mergeTable_inv' {u : UCtx} {d : MergeD} {tab : List (Nat × Nat × Nat)} {s : State} {r0} {r1} {tE : State} (hE :
    (mergeTable u d tab s) = (r0, r1, tE)) (h_s : s.Inv) : tE.Inv := by
  have h := @mergeTable_inv u d tab s h_s; rw [hE] at h; exact h

theorem mergeGroups_inv {u : UCtx} {d : MergeD} {a0 : Nat} {a1 : Nat} {a2 : Nat} {a3 : Nat} {a4 : State} (h_a4 : a4.Inv) :
    (mergeGroups u d a0 a1 a2 a3 a4).2.Inv := by
  induction a0 generalizing u d a1 a2 a3 a4 h_a4 with
  | zero =>
    unfold mergeGroups
    with_reducible
      repeat' (first | assumption | (intro _) | apply State.wr_inv | apply mergeRuns_inv | refine mergeRuns_inv' (by assumption) ?_
                         | apply inv_ite_snd | apply inv_ite | dsimp only | apply ih | (fail_if_no_progress apply inv_mk)
                         | refine inv_snd (by assumption) ?_ | split)
  | succ n ih =>
    unfold mergeGroups
    with_reducible
      repeat' (first | assumption | (intro _) | apply State.wr_inv | apply mergeRuns_inv | refine mergeRuns_inv' (by assumption) ?_
                         | apply inv_ite_snd | apply inv_ite | dsimp only | apply ih | (fail_if_no_progress apply inv_mk)
                         | refine inv_snd (by assumption) ?_ | split)
theorem mergeGroups_inv' {u : UCtx} {d : MergeD} {a0 : Nat} {a1 : Nat} {a2 : Nat} {a3 : Nat} {a4 : State} {r0} {tE : State}
    (hE : (mergeGroups u d a0 a1 a2 a3 a4) = (r0, tE)) (h_a4 : a4.Inv) : tE.Inv := by
  have h := @mergeGroups_inv u d a0 a1 a2 a3 a4 h_a4; rw [hE] at h; exact h

theorem mergeUniform_inv {u : UCtx} {d : MergeD} {s : State} (h_s : s.Inv) : (mergeUniform u d s).2.2.Inv := by
  unfold mergeUniform
  with_reducible
    repeat' (first | assumption | (intro _) | apply State.wr_inv | apply uWrite_inv | apply uRun_inv
                     | refine uRun_inv' (by assumption) ?_ | apply suFin_inv | refine suFin_inv' (by assumption) ?_
                     | apply mergeGroups_inv | refine mergeGroups_inv' (by assumption) ?_ | apply run_pure | apply run_throw
                     | apply run_getThe | apply run_bind | apply run_mk | apply run_forM | apply run_mapM | apply run_foldlM
                     | apply run_forIn | apply run_elim | dsimp only | (fail_if_no_progress apply inv_mk)
                     | refine inv_snd (by assumption) ?_ | refine inv_snd2 (by assumption) ?_
                     | refine inv_snd3 (by assumption) ?_ | split)
theorem mergeUniform_inv' {u : UCtx} {d : MergeD} {s : State} {r0} {r1} {tE : State} (hE : (mergeUniform u d s) = (r0, r1,
    tE)) (h_s : s.Inv) : tE.Inv := by
  have h := @mergeUniform_inv u d s h_s; rw [hE] at h; exact h

theorem mergeStart_inv {u : UCtx} {cmd : UnitCmd}  : RunInv ((mergeStart u cmd) : UM (MergeD × Option (List (Nat × Nat ×
    Nat)))) := by
  unfold mergeStart
  with_reducible
    repeat' (first | assumption | (intro _) | apply uRead_inv | apply uProbeW_inv | apply uCheck_inv | apply uDesc_inv
                     | apply run_pure | apply run_throw | apply run_getThe | apply run_bind | apply run_mk | apply run_forM
                     | apply run_mapM | apply run_foldlM | apply run_forIn | apply run_elim | apply run_ite | apply inv_ite
                     | dsimp only | (fail_if_no_progress apply inv_mk) | split)

theorem mergeRun_inv {u : UCtx} {cmd : UnitCmd} {s : State} (h_s : s.Inv) : (mergeRun u cmd s).2.2.Inv := by
  unfold mergeRun
  with_reducible
    repeat' (first | assumption | (intro _) | apply uRun_inv | refine uRun_inv' (by assumption) ?_ | apply mergeTable_inv
                     | refine mergeTable_inv' (by assumption) ?_ | apply mergeUniform_inv
                     | refine mergeUniform_inv' (by assumption) ?_ | apply mergeStart_inv | apply run_pure | apply run_throw
                     | apply run_getThe | apply run_bind | apply run_mk | apply run_forM | apply run_mapM | apply run_foldlM
                     | apply run_forIn | apply run_elim | apply inv_ite_snd2 | apply inv_ite | dsimp only
                     | (fail_if_no_progress apply inv_mk) | refine inv_snd (by assumption) ?_
                     | refine inv_snd2 (by assumption) ?_ | refine inv_snd3 (by assumption) ?_ | split)
theorem mergeRun_inv' {u : UCtx} {cmd : UnitCmd} {s : State} {r0} {r1} {tE : State} (hE : (mergeRun u cmd s) = (r0, r1, tE))
    (h_s : s.Inv) : tE.Inv := by
  have h := @mergeRun_inv u cmd s h_s; rw [hE] at h; exact h

theorem topkLoop_inv {u : UCtx} {d : TopD} {a0 : Nat} {a1 : Nat} {a2 : Option Nat} {a3 : LineBuf} {a4 : List (Nat × List
    Byte)} {a5 : State} (h_a5 : a5.Inv) : (topkLoop u d a0 a1 a2 a3 a4 a5).2.Inv := by
  induction a0 generalizing u d a1 a2 a3 a4 a5 h_a5 with
  | zero =>
    unfold topkLoop
    with_reducible
      repeat' (first | assumption | (intro _) | apply uReadBuf_inv | apply uCheck_inv | apply uRun_inv
                         | refine uRun_inv' (by assumption) ?_ | apply run_pure | apply run_throw | apply run_getThe
                         | apply run_bind | apply run_mk | apply run_forM | apply run_mapM | apply run_foldlM | apply run_forIn
                         | apply run_elim | apply inv_ite_snd | apply inv_ite | dsimp only | apply ih
                         | (fail_if_no_progress apply inv_mk) | refine inv_snd (by assumption) ?_ | split)
  | succ n ih =>
    unfold topkLoop
    with_reducible
      repeat' (first | assumption | (intro _) | apply uReadBuf_inv | apply uCheck_inv | apply uRun_inv
                         | refine uRun_inv' (by assumption) ?_ | apply run_pure | apply run_throw | apply run_getThe
                         | apply run_bind | apply run_mk | apply run_forM | apply run_mapM | apply run_foldlM | apply run_forIn
                         | apply run_elim | apply inv_ite_snd | apply inv_ite | dsimp only | apply ih
                         | (fail_if_no_progress apply inv_mk) | refine inv_snd (by assumption) ?_ | split)
theorem topkLoop_inv' {u : UCtx} {d : TopD} {a0 : Nat} {a1 : Nat} {a2 : Option Nat} {a3 : LineBuf} {a4 : List (Nat × List
    Byte)} {a5 : State} {r0} {tE : State} (hE : (topkLoop u d a0 a1 a2 a3 a4 a5) = (r0, tE)) (h_a5 : a5.Inv) : tE.Inv := by
  have h := @topkLoop_inv u d a0 a1 a2 a3 a4 a5 h_a5; rw [hE] at h; exact h

theorem topkStart_inv {u : UCtx} {cmd : UnitCmd}  : RunInv ((topkStart u cmd) : UM TopD) := by
  unfold topkStart
  with_reducible
    repeat' (first | assumption | (intro _) | apply uProbeW_inv | apply uCheck_inv | apply uDesc_inv | apply run_pure
                     | apply run_throw | apply run_getThe | apply run_bind | apply run_mk | apply run_forM | apply run_mapM
                     | apply run_foldlM | apply run_forIn | apply run_elim | apply run_ite | apply inv_ite | dsimp only
                     | (fail_if_no_progress apply inv_mk) | split)

theorem topkRun_inv {u : UCtx} {cmd : UnitCmd} {s : State} (h_s : s.Inv) : (topkRun u cmd s).2.2.Inv := by
  unfold topkRun
  with_reducible
    repeat' (first | assumption | (intro _) | apply uWrite_inv | apply uWriteWhole_inv | apply uRun_inv
                     | refine uRun_inv' (by assumption) ?_ | apply suFin_inv | refine suFin_inv' (by assumption) ?_
                     | apply topkLoop_inv | refine topkLoop_inv' (by assumption) ?_ | apply topkStart_inv | apply run_pure
                     | apply run_throw | apply run_getThe | apply run_bind | apply run_mk | apply run_forM | apply run_mapM
                     | apply run_foldlM | apply run_forIn | apply run_elim | apply inv_ite_snd2 | apply inv_ite | dsimp only
                     | (fail_if_no_progress apply inv_mk) | refine inv_snd (by assumption) ?_
                     | refine inv_snd2 (by assumption) ?_ | refine inv_snd3 (by assumption) ?_ | split)
theorem topkRun_inv' {u : UCtx} {cmd : UnitCmd} {s : State} {r0} {r1} {tE : State} (hE : (topkRun u cmd s) = (r0, r1, tE))
    (h_s : s.Inv) : tE.Inv := by
  have h := @topkRun_inv u cmd s h_s; rw [hE] at h; exact h

theorem resLoop_inv {u : UCtx} {d : ResD} {a0 : Nat} {a1 : Nat} {a2 : LineBuf} {a3 : List ResEnt} {a4 : State} (h_a4 :
    a4.Inv) : (resLoop u d a0 a1 a2 a3 a4).2.Inv := by
  induction a0 generalizing u d a1 a2 a3 a4 h_a4 with
  | zero =>
    unfold resLoop
    with_reducible
      repeat' (first | assumption | (intro _) | apply uRead_inv | apply uReadBuf_inv | apply uCheck_inv | apply uRun_inv
                         | refine uRun_inv' (by assumption) ?_ | apply run_pure | apply run_throw | apply run_getThe
                         | apply run_bind | apply run_mk | apply run_forM | apply run_mapM | apply run_foldlM | apply run_forIn
                         | apply run_elim | dsimp only | apply ih | (fail_if_no_progress apply inv_mk)
                         | refine inv_snd (by assumption) ?_ | split)
  | succ n ih =>
    unfold resLoop
    with_reducible
      repeat' (first | assumption | (intro _) | apply uRead_inv | apply uReadBuf_inv | apply uCheck_inv | apply uRun_inv
                         | refine uRun_inv' (by assumption) ?_ | apply run_pure | apply run_throw | apply run_getThe
                         | apply run_bind | apply run_mk | apply run_forM | apply run_mapM | apply run_foldlM | apply run_forIn
                         | apply run_elim | dsimp only | apply ih | (fail_if_no_progress apply inv_mk)
                         | refine inv_snd (by assumption) ?_ | split)
theorem resLoop_inv' {u : UCtx} {d : ResD} {a0 : Nat} {a1 : Nat} {a2 : LineBuf} {a3 : List ResEnt} {a4 : State} {r0} {tE :
    State} (hE : (resLoop u d a0 a1 a2 a3 a4) = (r0, tE)) (h_a4 : a4.Inv) : tE.Inv := by
  have h := @resLoop_inv u d a0 a1 a2 a3 a4 h_a4; rw [hE] at h; exact h

theorem scratchFill_inv {u : UCtx} {a : Nat} {a0 : Nat}  : RunInv ((scratchFill u a a0) : UM Unit) := by
  induction a0 generalizing u a with
  | zero =>
    unfold scratchFill
    with_reducible
      repeat' (first | assumption | (intro _) | apply uWrite_inv | apply uModify_inv | apply run_pure | apply run_throw
                         | apply run_getThe | apply run_bind | apply run_mk | apply run_forM | apply run_mapM | apply run_foldlM
                         | apply run_forIn | apply run_elim | dsimp only | apply ih | (fail_if_no_progress apply inv_mk) | split)
  | succ n ih =>
    unfold scratchFill
    with_reducible
      repeat' (first | assumption | (intro _) | apply uWrite_inv | apply uModify_inv | apply run_pure | apply run_throw
                         | apply run_getThe | apply run_bind | apply run_mk | apply run_forM | apply run_mapM | apply run_foldlM
                         | apply run_forIn | apply run_elim | dsimp only | apply ih | (fail_if_no_progress apply inv_mk) | split)

theorem restoreStart_inv {u : UCtx} {cmd : UnitCmd}  : RunInv ((restoreStart u cmd) : UM ResD) := by
  unfold restoreStart
  with_reducible
    repeat' (first | assumption | (intro _) | apply uProbeW_inv | apply uCheck_inv | apply uDesc_inv | apply run_pure
                     | apply run_throw | apply run_getThe | apply run_bind | apply run_mk | apply run_forM | apply run_mapM
                     | apply run_foldlM | apply run_forIn | apply run_elim | apply run_ite | apply inv_ite | dsimp only
                     | (fail_if_no_progress apply inv_mk) | split)

theorem restoreRun_inv {u : UCtx} {cmd : UnitCmd} {s : State} (h_s : s.Inv) : (restoreRun u cmd s).2.2.Inv := by
  unfold restoreRun
  with_reducible
    repeat' (first | assumption | (intro _) | apply uWrite_inv | apply uWriteWhole_inv | apply uRun_inv
                     | refine uRun_inv' (by assumption) ?_ | apply suFin_inv | refine suFin_inv' (by assumption) ?_
                     | apply resLoop_inv | refine resLoop_inv' (by assumption) ?_ | apply scratchFill_inv
                     | apply restoreStart_inv | apply inv_foldl | apply inv_foldl_snd | apply inv_foldl_fst | apply run_pure
                     | apply run_throw | apply run_getThe | apply run_bind | apply run_mk | apply run_forM | apply run_mapM
                     | apply run_foldlM | apply run_forIn | apply run_elim | apply inv_ite_snd2 | apply inv_ite | dsimp only
                     | (fail_if_no_progress apply inv_mk) | refine inv_snd (by assumption) ?_
                     | refine inv_snd2 (by assumption) ?_ | refine inv_snd3 (by assumption) ?_ | split)
theorem restoreRun_inv' {u : UCtx} {cmd : UnitCmd} {s : State} {r0} {r1} {tE : State} (hE : (restoreRun u cmd s) = (r0, r1,
    tE)) (h_s : s.Inv) : tE.Inv := by
  have h := @restoreRun_inv u cmd s h_s; rw [hE] at h; exact h

theorem suBound_inv {c : Nat} {cmd : UnitCmd} {s : State} (h_s : s.Inv) : (suBound c cmd s).2.Inv := by
  unfold suBound
  with_reducible
    repeat' (first | assumption | (intro _) | apply State.peekDesc_inv | refine State.peekDesc_inv' (by assumption) ?_
                     | apply inv_ite_snd | apply inv_ite | dsimp only | (fail_if_no_progress apply inv_mk)
                     | refine inv_snd (by assumption) ?_ | split)
theorem suBound_inv' {c : Nat} {cmd : UnitCmd} {s : State} {r0} {tE : State} (hE : (suBound c cmd s) = (r0, tE)) (h_s :
    s.Inv) : tE.Inv := by
  have h := @suBound_inv c cmd s h_s; rw [hE] at h; exact h

theorem doSuStart_inv {c : Nat} {s : State} (h_s : s.Inv) : (doSuStart c s).Inv := by
  unfold doSuStart
  with_reducible
    repeat' (first | assumption | (intro _) | apply State.setCl_inv | apply State.startUnit_inv
                     | refine State.startUnit_inv' (by assumption) ?_ | apply suBound_inv
                     | refine suBound_inv' (by assumption) ?_ | apply inv_ite | dsimp only | (fail_if_no_progress apply inv_mk)
                     | refine inv_snd (by assumption) ?_ | split)

theorem suRun_inv {c : Nat} {cmd : UnitCmd} {s : State} (h_s : s.Inv) : (suRun c cmd s).2.2.Inv := by
  unfold suRun
  with_reducible
    repeat' (first | assumption | (intro _) | apply State.log_inv | apply mergeRun_inv | refine mergeRun_inv' (by assumption) ?_
                     | apply topkRun_inv | refine topkRun_inv' (by assumption) ?_ | apply restoreRun_inv
                     | refine restoreRun_inv' (by assumption) ?_ | apply inv_ite_snd2 | apply inv_ite | dsimp only
                     | (fail_if_no_progress apply inv_mk) | refine inv_snd (by assumption) ?_
                     | refine inv_snd2 (by assumption) ?_ | refine inv_snd3 (by assumption) ?_ | split)
theorem suRun_inv' {c : Nat} {cmd : UnitCmd} {s : State} {r0} {r1} {tE : State} (hE : (suRun c cmd s) = (r0, r1, tE)) (h_s :
    s.Inv) : tE.Inv := by
  have h := @suRun_inv c cmd s h_s; rw [hE] at h; exact h

theorem doSuDone_inv {c : Nat} {s : State} (h_s : s.Inv) : (doSuDone c s).Inv := by
  unfold doSuDone
  with_reducible
    repeat' (first | assumption | (intro _) | apply State.setCl_inv | apply State.cmdEnd_inv | apply suRun_inv
                     | refine suRun_inv' (by assumption) ?_ | apply run_pure | apply run_throw | apply run_getThe
                     | apply run_bind | apply run_mk | apply run_forM | apply run_mapM | apply run_foldlM | apply run_forIn
                     | apply run_elim | apply inv_ite | dsimp only | (fail_if_no_progress apply inv_mk)
                     | refine inv_snd (by assumption) ?_ | refine inv_snd2 (by assumption) ?_
                     | refine inv_snd3 (by assumption) ?_ | split)

end Sys2Proof.Machine
end

