-- ==== Sys2Proof/Laws/MemAsa.lean ====
section
/-!
SUPPORT. The state functions of Machine/Asa.lean keep the canonical form of memory.
-/
namespace Sys2Proof.Machine

open Sys2Proof

set_option linter.unusedTactic false
set_option linter.unreachableTactic false
set_option linter.unusedSimpArgs false
set_option linter.unusedVariables false

theorem State.asaCount_inv {s : State} {i : Nat} (h_s : s.Inv) : (State.asaCount s i).Inv := by
  unfold State.asaCount
  with_reducible
    repeat' (first | assumption | (intro _) | apply inv_ite | dsimp only | (fail_if_no_progress apply inv_mk) | split)

theorem State.asaLog_inv {s : State} {code : Nat} {key : Nat} {part : Nat} (h_s : s.Inv) : (State.asaLog s code key
    part).Inv := by
  unfold State.asaLog
  with_reducible
    repeat' (first | assumption | (intro _) | apply State.log_inv | dsimp only | (fail_if_no_progress apply inv_mk) | split)

theorem State.asaPut_inv {s : State} {key : Nat} {e : AsaEntry} (h_s : s.Inv) : (State.asaPut s key e).Inv := by
  unfold State.asaPut
  with_reducible
    repeat' (first | assumption | (intro _) | dsimp only | (fail_if_no_progress apply inv_mk) | split)

theorem State.asaFalse_inv {s : State} {key : Nat} {part : Nat} (h_s : s.Inv) : (State.asaFalse s key part).Inv := by
  unfold State.asaFalse
  with_reducible
    repeat' (first | assumption | (intro _) | apply State.asaCount_inv | apply State.asaLog_inv | apply State.asaPut_inv
                     | dsimp only | (fail_if_no_progress apply inv_mk) | split)

theorem State.asaFallback_inv {s : State} {key : Nat} {r : Bool} {part : Nat} (h_s : s.Inv) : (State.asaFallback s key r
    part).Inv := by
  unfold State.asaFallback
  with_reducible
    repeat' (first | assumption | (intro _) | apply State.asaCount_inv | apply State.asaLog_inv | apply State.asaPut_inv
                     | apply inv_ite | dsimp only | (fail_if_no_progress apply inv_mk) | split)

theorem asaLook_inv {g : AsaGroup} {k : BitVec 256} {a0 : List (Nat × Nat × AsaEntry)} {a1 : List Nat} {a2 : State} (h_a2 :
    a2.Inv) : (asaLook g k a0 a1 a2).2.2.2.Inv := by
  induction a0 generalizing g k a1 a2 h_a2 with
  | nil =>
    unfold asaLook
    with_reducible
      repeat' (first | assumption | (intro _) | apply State.asaCount_inv | apply State.asaLog_inv | apply State.asaPut_inv
                         | apply State.asaFalse_inv | apply State.asaFallback_inv | apply inv_ite_snd3 | apply inv_ite | dsimp only
                         | apply ih | (fail_if_no_progress apply inv_mk) | refine inv_snd2 (by assumption) ?_
                         | refine inv_snd3 (by assumption) ?_ | split)
  | cons x xs ih =>
    unfold asaLook
    with_reducible
      repeat' (first | assumption | (intro _) | apply State.asaCount_inv | apply State.asaLog_inv | apply State.asaPut_inv
                         | apply State.asaFalse_inv | apply State.asaFallback_inv | apply inv_ite_snd3 | apply inv_ite | dsimp only
                         | apply ih | (fail_if_no_progress apply inv_mk) | refine inv_snd2 (by assumption) ?_
                         | refine inv_snd3 (by assumption) ?_ | split)
theorem asaLook_inv' {g : AsaGroup} {k : BitVec 256} {a0 : List (Nat × Nat × AsaEntry)} {a1 : List Nat} {a2 : State} {r0}
    {r1} {r2} {tE : State} (hE : (asaLook g k a0 a1 a2) = (r0, r1, r2, tE)) (h_a2 : a2.Inv) : tE.Inv := by
  have h := @asaLook_inv g k a0 a1 a2 h_a2; rw [hE] at h; exact h

theorem asaFind_inv {g : AsaGroup} {k : BitVec 256} {after : Option Nat} {a : AsaSet} {s : State} (h_s : s.Inv) : (asaFind g
    k after a s).2.2.2.Inv := by
  unfold asaFind
  with_reducible
    repeat' (first | assumption | (intro _) | apply asaLook_inv | refine asaLook_inv' (by assumption) ?_ | dsimp only
                     | (fail_if_no_progress apply inv_mk) | refine inv_snd (by assumption) ?_
                     | refine inv_snd2 (by assumption) ?_ | refine inv_snd3 (by assumption) ?_ | split)
theorem asaFind_inv' {g : AsaGroup} {k : BitVec 256} {after : Option Nat} {a : AsaSet} {s : State} {r0} {r1} {r2} {tE :
    State} (hE : (asaFind g k after a s) = (r0, r1, r2, tE)) (h_s : s.Inv) : tE.Inv := by
  have h := @asaFind_inv g k after a s h_s; rw [hE] at h; exact h

theorem State.asaConfirm_inv {s : State} {key : Nat} {part : Nat} {c : Option AsaImg} {lost : Bool} {q : Nat} (h_s : s.Inv)
    : (State.asaConfirm s key part c lost q).Inv := by
  unfold State.asaConfirm
  with_reducible
    repeat' (first | assumption | (intro _) | apply State.setAsaSet_inv | apply State.asaCount_inv | apply State.asaLog_inv
                     | apply inv_ite | dsimp only | (fail_if_no_progress apply inv_mk) | split)

theorem doAsaFallback_inv {b : Nat} {slot : Nat} {ec : Ecc} {s : State} (h_s : s.Inv) : (doAsaFallback b slot ec s).Inv :=
    by
  unfold doAsaFallback
  with_reducible
    repeat' (first | assumption | (intro _) | apply State.asaCount_inv | apply State.asaLog_inv | apply State.asaPut_inv
                     | apply State.asaConfirm_inv | apply inv_foldl | apply inv_foldl_snd | apply inv_foldl_fst | apply inv_ite
                     | dsimp only | (fail_if_no_progress apply inv_mk) | split)

theorem uBank_inv {part : Nat} {arg : Word}  : RunInv ((uBank part arg) : UM AsaGroup) := by
  unfold uBank
  with_reducible
    repeat' (first | assumption | (intro _) | apply uFail_inv | apply run_pure | apply run_throw | apply run_getThe
                     | apply run_bind | apply run_mk | apply run_forM | apply run_mapM | apply run_foldlM | apply run_forIn
                     | apply run_elim | dsimp only | (fail_if_no_progress apply inv_mk) | split)

theorem searchStart_inv {u : UCtx} {cmd : UnitCmd}  : RunInv ((searchStart u cmd) : UM (List Byte)) := by
  unfold searchStart
  with_reducible
    repeat' (first | assumption | (intro _) | apply uProbeW_inv | apply uCheck_inv | apply uDesc_inv | apply uBank_inv
                     | apply run_pure | apply run_throw | apply run_getThe | apply run_bind | apply run_mk | apply run_forM
                     | apply run_mapM | apply run_foldlM | apply run_forIn | apply run_elim | apply run_ite | apply inv_ite
                     | dsimp only | (fail_if_no_progress apply inv_mk) | split)

theorem State.keepCursor_inv {s : State} {k : AsaCursor} (h_s : s.Inv) : (State.keepCursor s k).2.Inv := by
  unfold State.keepCursor
  with_reducible
    repeat' (first | assumption | (intro _) | apply inv_ite_snd | apply inv_ite | dsimp only | (fail_if_no_progress apply inv_mk)
                     | split)
theorem State.keepCursor_inv' {s : State} {k : AsaCursor} {r0} {tE : State} (hE : (State.keepCursor s k) = (r0, tE)) (h_s :
    s.Inv) : tE.Inv := by
  have h := @State.keepCursor_inv s k h_s; rw [hE] at h; exact h

theorem searchLoop_inv {u : UCtx} {cmd : UnitCmd} {g : AsaGroup} {d : SearchD} {a0 : Nat} {a1 : AsaSet} {a2 : State} (h_a2 :
    a2.Inv) : (searchLoop u cmd g d a0 a1 a2).2.2.Inv := by
  induction a0 generalizing u cmd g d a1 a2 h_a2 with
  | zero =>
    unfold searchLoop
    with_reducible
      repeat' (first | assumption | (intro _) | apply uRead_inv | apply uWrite_inv | apply uRun_inv
                         | refine uRun_inv' (by assumption) ?_ | apply asaFind_inv | refine asaFind_inv' (by assumption) ?_
                         | apply State.keepCursor_inv | refine State.keepCursor_inv' (by assumption) ?_ | apply run_pure
                         | apply run_throw | apply run_getThe | apply run_bind | apply run_mk | apply run_forM | apply run_mapM
                         | apply run_foldlM | apply run_forIn | apply run_elim | apply inv_ite_snd2 | apply inv_ite | dsimp only
                         | apply ih | (fail_if_no_progress apply inv_mk) | refine inv_snd (by assumption) ?_
                         | refine inv_snd2 (by assumption) ?_ | refine inv_snd3 (by assumption) ?_ | split)
  | succ n ih =>
    unfold searchLoop
    with_reducible
      repeat' (first | assumption | (intro _) | apply uRead_inv | apply uWrite_inv | apply uRun_inv
                         | refine uRun_inv' (by assumption) ?_ | apply asaFind_inv | refine asaFind_inv' (by assumption) ?_
                         | apply State.keepCursor_inv | refine State.keepCursor_inv' (by assumption) ?_ | apply run_pure
                         | apply run_throw | apply run_getThe | apply run_bind | apply run_mk | apply run_forM | apply run_mapM
                         | apply run_foldlM | apply run_forIn | apply run_elim | apply inv_ite_snd2 | apply inv_ite | dsimp only
                         | apply ih | (fail_if_no_progress apply inv_mk) | refine inv_snd (by assumption) ?_
                         | refine inv_snd2 (by assumption) ?_ | refine inv_snd3 (by assumption) ?_ | split)
theorem searchLoop_inv' {u : UCtx} {cmd : UnitCmd} {g : AsaGroup} {d : SearchD} {a0 : Nat} {a1 : AsaSet} {a2 : State} {r0}
    {r1} {tE : State} (hE : (searchLoop u cmd g d a0 a1 a2) = (r0, r1, tE)) (h_a2 : a2.Inv) : tE.Inv := by
  have h := @searchLoop_inv u cmd g d a0 a1 a2 h_a2; rw [hE] at h; exact h

theorem nextStart_inv {u : UCtx} {cmd : UnitCmd}  : RunInv ((nextStart u cmd) : UM (List Byte)) := by
  unfold nextStart
  with_reducible
    repeat' (first | assumption | (intro _) | apply uProbeW_inv | apply uFail_inv | apply uCheck_inv | apply uDesc_inv
                     | apply run_pure | apply run_throw | apply run_getThe | apply run_bind | apply run_mk | apply run_forM
                     | apply run_mapM | apply run_foldlM | apply run_forIn | apply run_elim | apply run_ite | apply inv_ite
                     | dsimp only | (fail_if_no_progress apply inv_mk) | split)

theorem nextLoop_inv {u : UCtx} {cmd : UnitCmd} {g : AsaGroup} {d : NextD} {a0 : Nat} {a1 : AsaSet} {a2 : State} (h_a2 :
    a2.Inv) : (nextLoop u cmd g d a0 a1 a2).2.2.Inv := by
  induction a0 generalizing u cmd g d a1 a2 h_a2 with
  | zero =>
    unfold nextLoop
    with_reducible
      repeat' (first | assumption | (intro _) | apply uWrite_inv | apply uRun_inv | refine uRun_inv' (by assumption) ?_
                         | apply asaFind_inv | refine asaFind_inv' (by assumption) ?_ | apply run_pure | apply run_throw
                         | apply run_getThe | apply run_bind | apply run_mk | apply run_forM | apply run_mapM | apply run_foldlM
                         | apply run_forIn | apply run_elim | apply inv_ite_snd2 | apply inv_ite | dsimp only | apply ih
                         | (fail_if_no_progress apply inv_mk) | refine inv_snd (by assumption) ?_
                         | refine inv_snd2 (by assumption) ?_ | refine inv_snd3 (by assumption) ?_ | split)
  | succ n ih =>
    unfold nextLoop
    with_reducible
      repeat' (first | assumption | (intro _) | apply uWrite_inv | apply uRun_inv | refine uRun_inv' (by assumption) ?_
                         | apply asaFind_inv | refine asaFind_inv' (by assumption) ?_ | apply run_pure | apply run_throw
                         | apply run_getThe | apply run_bind | apply run_mk | apply run_forM | apply run_mapM | apply run_foldlM
                         | apply run_forIn | apply run_elim | apply inv_ite_snd2 | apply inv_ite | dsimp only | apply ih
                         | (fail_if_no_progress apply inv_mk) | refine inv_snd (by assumption) ?_
                         | refine inv_snd2 (by assumption) ?_ | refine inv_snd3 (by assumption) ?_ | split)
theorem nextLoop_inv' {u : UCtx} {cmd : UnitCmd} {g : AsaGroup} {d : NextD} {a0 : Nat} {a1 : AsaSet} {a2 : State} {r0} {r1}
    {tE : State} (hE : (nextLoop u cmd g d a0 a1 a2) = (r0, r1, tE)) (h_a2 : a2.Inv) : tE.Inv := by
  have h := @nextLoop_inv u cmd g d a0 a1 a2 h_a2; rw [hE] at h; exact h

theorem updateStart_inv {u : UCtx} {cmd : UnitCmd}  : RunInv ((updateStart u cmd) : UM (List Byte)) := by
  unfold updateStart
  with_reducible
    repeat' (first | assumption | (intro _) | apply uCheck_inv | apply uDesc_inv | apply uBank_inv | apply run_pure
                     | apply run_throw | apply run_getThe | apply run_bind | apply run_mk | apply run_forM | apply run_mapM
                     | apply run_foldlM | apply run_forIn | apply run_elim | dsimp only | (fail_if_no_progress apply inv_mk)
                     | split)

theorem doAsaCommit_inv {b : Nat} {s : State} (h_s : s.Inv) : (doAsaCommit b s).Inv := by
  unfold doAsaCommit
  with_reducible
    repeat' (first | assumption | (intro _) | apply State.setAsaSet_inv | apply uRead_inv | apply uWrite_inv | apply uRun_inv
                     | refine uRun_inv' (by assumption) ?_ | apply State.asaPut_inv | apply run_pure | apply run_throw
                     | apply run_getThe | apply run_bind | apply run_mk | apply run_forM | apply run_mapM | apply run_foldlM
                     | apply run_forIn | apply run_elim | apply inv_ite | dsimp only | (fail_if_no_progress apply inv_mk)
                     | refine inv_snd (by assumption) ?_ | split)

theorem doAsaSearchStart_inv {b : Nat} {s : State} (h_s : s.Inv) : (doAsaSearchStart b s).Inv := by
  unfold doAsaSearchStart
  with_reducible
    repeat' (first | assumption | (intro _) | apply State.setAsaSet_inv | apply inv_ite | dsimp only
                     | (fail_if_no_progress apply inv_mk) | split)

theorem doAsaUpdateStart_inv {b : Nat} {s : State} (h_s : s.Inv) : (doAsaUpdateStart b s).Inv := by
  unfold doAsaUpdateStart
  with_reducible
    repeat' (first | assumption | (intro _) | apply State.setAsaSet_inv | apply uRun_inv | refine uRun_inv' (by assumption) ?_
                     | apply updateStart_inv | apply run_pure | apply run_throw | apply run_getThe | apply run_bind
                     | apply run_mk | apply run_forM | apply run_mapM | apply run_foldlM | apply run_forIn | apply run_elim
                     | apply inv_ite | dsimp only | (fail_if_no_progress apply inv_mk) | refine inv_snd (by assumption) ?_
                     | split)

theorem searchEnd_inv {u : UCtx} {cmd : UnitCmd} {b : Nat} {out : Nat} {code : Nat} {a : AsaSet} {s : State} (h_s : s.Inv) :
    (searchEnd u cmd b out code a s).Inv := by
  unfold searchEnd
  with_reducible
    repeat' (first | assumption | (intro _) | apply State.setAsaSet_inv | apply uWrite_inv | apply uRun_inv
                     | refine uRun_inv' (by assumption) ?_ | apply State.cmdEnd_inv | apply run_pure | apply run_throw
                     | apply run_getThe | apply run_bind | apply run_mk | apply run_forM | apply run_mapM | apply run_foldlM
                     | apply run_forIn | apply run_elim | apply inv_ite | dsimp only | (fail_if_no_progress apply inv_mk)
                     | refine inv_snd (by assumption) ?_ | split)

theorem doSearchDone_inv {b : Nat} {cmd : UnitCmd} {s : State} (h_s : s.Inv) : (doSearchDone b cmd s).Inv := by
  unfold doSearchDone
  with_reducible
    repeat' (first | assumption | (intro _) | apply State.setAsaSet_inv | apply uRun_inv | refine uRun_inv' (by assumption) ?_
                     | apply State.cmdEnd_inv | apply searchStart_inv | apply searchLoop_inv
                     | refine searchLoop_inv' (by assumption) ?_ | apply nextStart_inv | apply nextLoop_inv
                     | refine nextLoop_inv' (by assumption) ?_ | apply searchEnd_inv | apply run_pure | apply run_throw
                     | apply run_getThe | apply run_bind | apply run_mk | apply run_forM | apply run_mapM | apply run_foldlM
                     | apply run_forIn | apply run_elim | apply inv_ite | dsimp only | (fail_if_no_progress apply inv_mk)
                     | refine inv_snd (by assumption) ?_ | refine inv_snd2 (by assumption) ?_
                     | refine inv_snd3 (by assumption) ?_ | split)

theorem doAsaDone_inv {b : Nat} {update : Bool} {s : State} (h_s : s.Inv) : (doAsaDone b update s).Inv := by
  unfold doAsaDone
  with_reducible
    repeat' (first | assumption | (intro _) | apply State.setAsaSet_inv | apply State.cmdEnd_inv | apply doSearchDone_inv
                     | apply inv_ite | dsimp only | (fail_if_no_progress apply inv_mk) | split)

theorem doAsaScrub_inv {b : Nat} {slot : Nat} {s : State} (h_s : s.Inv) : (doAsaScrub b slot s).Inv := by
  unfold doAsaScrub
  with_reducible
    repeat' (first | assumption | (intro _) | apply State.asaCount_inv | apply State.asaLog_inv | apply State.asaPut_inv
                     | apply State.asaFallback_inv | apply inv_ite | dsimp only | (fail_if_no_progress apply inv_mk) | split)

theorem State.asaClearBank_inv {s : State} {b : Nat} (h_s : s.Inv) : (State.asaClearBank s b).Inv := by
  unfold State.asaClearBank
  with_reducible
    repeat' (first | assumption | (intro _) | dsimp only | (fail_if_no_progress apply inv_mk) | split)

end Sys2Proof.Machine
end

