-- ==== Sys2Proof/Laws/MemDigest.lean ====
section
/-!
SUPPORT. The state functions of Machine/Digest.lean keep the canonical form of memory.
-/
namespace Sys2Proof.Machine

open Sys2Proof

set_option linter.unusedTactic false
set_option linter.unreachableTactic false
set_option linter.unusedSimpArgs false
set_option linter.unusedVariables false

theorem digestStart_inv {u : Nat} {j : DuJob}  : RunInv ((digestStart u j) : UM DuCtx) := by
  unfold digestStart
  with_reducible
    repeat' (first | assumption | (intro _) | apply uCheck_inv | apply uDesc_inv | apply run_pure | apply run_throw
                     | apply run_getThe | apply run_bind | apply run_mk | apply run_forM | apply run_mapM | apply run_foldlM
                     | apply run_forIn | apply run_elim | dsimp only | (fail_if_no_progress apply inv_mk) | split)

theorem gather_inv {u : UCtx} {a0 : Nat} {a1 : Nat} {a2 : List Byte} {a3 : DuCtx} {a4 : State} (h_a4 : a4.Inv) : (gather u
    a0 a1 a2 a3 a4).2.Inv := by
  induction a0 generalizing u a1 a2 a3 a4 h_a4 with
  | zero =>
    unfold gather
    with_reducible
      repeat' (first | assumption | (intro _) | apply uRead_inv | apply uRun_inv | refine uRun_inv' (by assumption) ?_
                         | apply run_pure | apply run_throw | apply run_getThe | apply run_bind | apply run_mk | apply run_forM
                         | apply run_mapM | apply run_foldlM | apply run_forIn | apply run_elim | apply inv_ite_snd | apply inv_ite
                         | dsimp only | apply ih | (fail_if_no_progress apply inv_mk) | refine inv_snd (by assumption) ?_ | split)
  | succ n ih =>
    unfold gather
    with_reducible
      repeat' (first | assumption | (intro _) | apply uRead_inv | apply uRun_inv | refine uRun_inv' (by assumption) ?_
                         | apply run_pure | apply run_throw | apply run_getThe | apply run_bind | apply run_mk | apply run_forM
                         | apply run_mapM | apply run_foldlM | apply run_forIn | apply run_elim | apply inv_ite_snd | apply inv_ite
                         | dsimp only | apply ih | (fail_if_no_progress apply inv_mk) | refine inv_snd (by assumption) ?_ | split)
theorem gather_inv' {u : UCtx} {a0 : Nat} {a1 : Nat} {a2 : List Byte} {a3 : DuCtx} {a4 : State} {r0} {tE : State} (hE :
    (gather u a0 a1 a2 a3 a4) = (r0, tE)) (h_a4 : a4.Inv) : tE.Inv := by
  have h := @gather_inv u a0 a1 a2 a3 a4 h_a4; rw [hE] at h; exact h

theorem gatherBlock_inv {u : UCtx} {c : DuCtx} {s : State} (h_s : s.Inv) : (gatherBlock u c s).2.Inv := by
  unfold gatherBlock
  with_reducible
    repeat' (first | assumption | (intro _) | apply gather_inv | refine gather_inv' (by assumption) ?_ | dsimp only
                     | (fail_if_no_progress apply inv_mk) | refine inv_snd (by assumption) ?_ | split)
theorem gatherBlock_inv' {u : UCtx} {c : DuCtx} {s : State} {r0} {tE : State} (hE : (gatherBlock u c s) = (r0, tE)) (h_s :
    s.Inv) : tE.Inv := by
  have h := @gatherBlock_inv u c s h_s; rw [hE] at h; exact h

theorem absorbAll_inv {u : UCtx} {a0 : Nat} {a1 : DuCtx} {a2 : State} (h_a2 : a2.Inv) : (absorbAll u a0 a1 a2).2.Inv := by
  induction a0 generalizing u a1 a2 h_a2 with
  | zero =>
    unfold absorbAll
    with_reducible
      repeat' (first | assumption | (intro _) | apply gatherBlock_inv | refine gatherBlock_inv' (by assumption) ?_
                         | apply inv_ite_snd | apply inv_ite | dsimp only | apply ih | (fail_if_no_progress apply inv_mk)
                         | refine inv_snd (by assumption) ?_ | split)
  | succ n ih =>
    unfold absorbAll
    with_reducible
      repeat' (first | assumption | (intro _) | apply gatherBlock_inv | refine gatherBlock_inv' (by assumption) ?_
                         | apply inv_ite_snd | apply inv_ite | dsimp only | apply ih | (fail_if_no_progress apply inv_mk)
                         | refine inv_snd (by assumption) ?_ | split)
theorem absorbAll_inv' {u : UCtx} {a0 : Nat} {a1 : DuCtx} {a2 : State} {r0} {tE : State} (hE : (absorbAll u a0 a1 a2) = (r0,
    tE)) (h_a2 : a2.Inv) : tE.Inv := by
  have h := @absorbAll_inv u a0 a1 a2 h_a2; rw [hE] at h; exact h

theorem absorbSome_inv {u : UCtx} {a0 : Nat} {a1 : DuCtx} {a2 : State} (h_a2 : a2.Inv) : (absorbSome u a0 a1 a2).2.Inv := by
  induction a0 generalizing u a1 a2 h_a2 with
  | zero =>
    unfold absorbSome
    with_reducible
      repeat' (first | assumption | (intro _) | apply gatherBlock_inv | refine gatherBlock_inv' (by assumption) ?_
                         | apply inv_ite_snd | apply inv_ite | dsimp only | apply ih | (fail_if_no_progress apply inv_mk)
                         | refine inv_snd (by assumption) ?_ | split)
  | succ n ih =>
    unfold absorbSome
    with_reducible
      repeat' (first | assumption | (intro _) | apply gatherBlock_inv | refine gatherBlock_inv' (by assumption) ?_
                         | apply inv_ite_snd | apply inv_ite | dsimp only | apply ih | (fail_if_no_progress apply inv_mk)
                         | refine inv_snd (by assumption) ?_ | split)
theorem absorbSome_inv' {u : UCtx} {a0 : Nat} {a1 : DuCtx} {a2 : State} {r0} {tE : State} (hE : (absorbSome u a0 a1 a2) =
    (r0, tE)) (h_a2 : a2.Inv) : tE.Inv := by
  have h := @absorbSome_inv u a0 a1 a2 h_a2; rw [hE] at h; exact h

theorem digestRun_inv {u : Nat} {j : DuJob} {s : State} (h_s : s.Inv) : (digestRun u j s).2.2.2.Inv := by
  unfold digestRun
  with_reducible
    repeat' (first | assumption | (intro _) | apply uWriteWhole_inv | apply uRun_inv | refine uRun_inv' (by assumption) ?_
                     | apply digestStart_inv | apply absorbAll_inv | refine absorbAll_inv' (by assumption) ?_ | apply run_pure
                     | apply run_throw | apply run_getThe | apply run_bind | apply run_mk | apply run_forM | apply run_mapM
                     | apply run_foldlM | apply run_forIn | apply run_elim | apply inv_ite_snd3 | apply inv_ite | dsimp only
                     | (fail_if_no_progress apply inv_mk) | refine inv_snd (by assumption) ?_
                     | refine inv_snd2 (by assumption) ?_ | refine inv_snd3 (by assumption) ?_ | split)
theorem digestRun_inv' {u : Nat} {j : DuJob} {s : State} {r0} {r1} {r2} {tE : State} (hE : (digestRun u j s) = (r0, r1, r2,
    tE)) (h_s : s.Inv) : tE.Inv := by
  have h := @digestRun_inv u j s h_s; rw [hE] at h; exact h

theorem State.duBegin_inv {s : State} {u : Nat} {d : DuUnit} {j : DuJob} (h_s : s.Inv) : (State.duBegin s u d j).Inv := by
  unfold State.duBegin
  with_reducible
    repeat' (first | assumption | (intro _) | apply State.setDu_inv | apply State.peekDesc_inv
                     | refine State.peekDesc_inv' (by assumption) ?_ | apply inv_ite | dsimp only
                     | (fail_if_no_progress apply inv_mk) | refine inv_snd (by assumption) ?_ | split)

theorem doDuStart_inv {u : Nat} {s : State} (h_s : s.Inv) : (doDuStart u s).Inv := by
  unfold doDuStart
  with_reducible
    repeat' (first | assumption | (intro _) | apply State.duBegin_inv | apply inv_ite | dsimp only
                     | (fail_if_no_progress apply inv_mk) | split)

theorem duSave_inv {u : Nat} {j : DuJob} {s : State} (h_s : s.Inv) : (duSave u j s).2.Inv := by
  unfold duSave
  with_reducible
    repeat' (first | assumption | (intro _) | apply State.free_inv | refine State.free_inv' (by assumption) ?_ | apply uRun_inv
                     | refine uRun_inv' (by assumption) ?_ | apply digestStart_inv | apply absorbSome_inv
                     | refine absorbSome_inv' (by assumption) ?_ | apply run_pure | apply run_throw | apply run_getThe
                     | apply run_bind | apply run_mk | apply run_forM | apply run_mapM | apply run_foldlM | apply run_forIn
                     | apply run_elim | apply inv_ite_snd | apply inv_ite | dsimp only | (fail_if_no_progress apply inv_mk)
                     | refine inv_snd (by assumption) ?_ | split)
theorem duSave_inv' {u : Nat} {j : DuJob} {s : State} {r0} {tE : State} (hE : (duSave u j s) = (r0, tE)) (h_s : s.Inv) :
    tE.Inv := by
  have h := @duSave_inv u j s h_s; rw [hE] at h; exact h

theorem doDuPreempt_inv {u : Nat} {s : State} (h_s : s.Inv) : (doDuPreempt u s).Inv := by
  unfold doDuPreempt
  with_reducible
    repeat' (first | assumption | (intro _) | apply State.duBegin_inv | apply duSave_inv | refine duSave_inv' (by assumption) ?_
                     | apply inv_ite | dsimp only | (fail_if_no_progress apply inv_mk) | refine inv_snd (by assumption) ?_
                     | split)

theorem doDuDone_inv {u : Nat} {s : State} (h_s : s.Inv) : (doDuDone u s).Inv := by
  unfold doDuDone
  with_reducible
    repeat' (first | assumption | (intro _) | apply State.setDu_inv | apply State.log_inv | apply State.endTicket_inv
                     | apply digestRun_inv | refine digestRun_inv' (by assumption) ?_ | apply inv_ite | dsimp only
                     | (fail_if_no_progress apply inv_mk) | refine inv_snd (by assumption) ?_
                     | refine inv_snd2 (by assumption) ?_ | refine inv_snd3 (by assumption) ?_ | split)

theorem State.duAbort_inv {s : State} {p : Nat} (h_s : s.Inv) : (State.duAbort s p).Inv := by
  unfold State.duAbort
  with_reducible
    repeat' (first | assumption | (intro _) | apply State.free_inv | refine State.free_inv' (by assumption) ?_
                     | apply State.setDu_inv | apply State.endTicket_inv | apply inv_foldl | apply inv_foldl_snd
                     | apply inv_foldl_fst | apply inv_ite | dsimp only | (fail_if_no_progress apply inv_mk)
                     | refine inv_snd (by assumption) ?_ | split)

end Sys2Proof.Machine
end

