-- ==== Sys2Proof/Laws/MemMover.lean ====
section
/-!
SUPPORT. The state functions of Machine/Mover.lean keep the canonical form of memory.
-/
namespace Sys2Proof.Machine

open Sys2Proof

set_option linter.unusedTactic false
set_option linter.unreachableTactic false
set_option linter.unusedSimpArgs false
set_option linter.unusedVariables false

theorem State.setChan_inv {s : State} {c : Nat} {ch : Nat} {k : Channel} (h_s : s.Inv) : (State.setChan s c ch k).Inv := by
  unfold State.setChan
  with_reducible
    repeat' (first | assumption | (intro _) | apply State.setCl_inv | dsimp only | (fail_if_no_progress apply inv_mk) | split)

theorem State.dmTidy_inv {s : State} {l : Nat} (h_s : s.Inv) : (State.dmTidy s l).Inv := by
  unfold State.dmTidy
  with_reducible
    repeat' (first | assumption | (intro _) | apply State.dmFreeLeg_inv | dsimp only | (fail_if_no_progress apply inv_mk) | split)

theorem State.dmFinish_inv {s : State} {c : Nat} {ch : Nat} {code : Nat} (h_s : s.Inv) : (State.dmFinish s c ch code).Inv :=
    by
  unfold State.dmFinish
  with_reducible
    repeat' (first | assumption | (intro _) | apply State.dmEnd_inv | apply State.dmTidy_inv | dsimp only
                     | (fail_if_no_progress apply inv_mk) | split)

theorem State.dmWaits_inv {s : State} {c : Nat} {ch : Nat} (h_s : s.Inv) : (State.dmWaits s c ch).Inv := by
  unfold State.dmWaits
  with_reducible
    repeat' (first | assumption | (intro _) | apply State.dmFinish_inv | apply inv_ite | dsimp only
                     | (fail_if_no_progress apply inv_mk) | split)

theorem dmWork_inv {u : UCtx} {c : Nat} {k : Channel}  : RunInv ((dmWork u c k) : UM Channel) := by
  unfold dmWork
  with_reducible
    repeat' (first | assumption | (intro _) | apply State.setCl_inv | apply uRead_inv | apply uWrite_inv | apply uModify_inv
                     | apply uCheck_inv | apply run_pure | apply run_throw | apply run_getThe | apply run_bind | apply run_mk
                     | apply run_forM | apply run_mapM | apply run_foldlM | apply run_forIn | apply run_elim | apply run_ite
                     | apply inv_ite | dsimp only | (fail_if_no_progress apply inv_mk) | split)

theorem State.dmBus_inv {s : State} {c : Nat} {ch : Nat} {addr : Nat} (h_s : s.Inv) : (State.dmBus s c ch addr).Inv := by
  unfold State.dmBus
  with_reducible
    repeat' (first | assumption | (intro _) | apply State.setCl_inv | apply State.log_inv | apply State.setChan_inv
                     | apply State.dmFinish_inv | apply inv_ite | dsimp only | (fail_if_no_progress apply inv_mk) | split)

theorem State.pipeBad_inv {s : State} {c : Nat} {k : Pipe} (h_s : s.Inv) : (State.pipeBad s c k).Inv := by
  unfold State.pipeBad
  with_reducible
    repeat' (first | assumption | (intro _) | apply State.setCl_inv | apply State.l2Bad_inv | dsimp only
                     | (fail_if_no_progress apply inv_mk) | split)

theorem State.dmPop_inv {s : State} {c : Nat} {ch : Nat} {k : Channel} (h_s : s.Inv) : (State.dmPop s c ch k).Inv := by
  unfold State.dmPop
  with_reducible
    repeat' (first | assumption | (intro _) | apply State.setCl_inv | apply State.setChan_inv | apply State.dmFinish_inv
                     | apply State.dmWaits_inv | apply State.pipeBad_inv | apply inv_ite | dsimp only
                     | (fail_if_no_progress apply inv_mk) | split)

theorem State.dmBeat_inv {s : State} {c : Nat} {ch : Nat} (h_s : s.Inv) : (State.dmBeat s c ch).Inv := by
  unfold State.dmBeat
  with_reducible
    repeat' (first | assumption | (intro _) | apply State.setCl_inv | apply State.asking_inv | apply State.settled_inv
                     | apply uRun_inv | refine uRun_inv' (by assumption) ?_ | apply State.setChan_inv | apply State.dmFinish_inv
                     | apply dmWork_inv | apply State.dmBus_inv | apply State.dmPop_inv | apply run_pure | apply run_throw
                     | apply run_getThe | apply run_bind | apply run_mk | apply run_forM | apply run_mapM | apply run_foldlM
                     | apply run_forIn | apply run_elim | apply inv_ite | dsimp only | (fail_if_no_progress apply inv_mk)
                     | refine inv_snd (by assumption) ?_ | split)

theorem State.dmGo_inv {c : Nat} {ch : Nat} {stop : Channel → Bool} {a0 : Nat} {a1 : State} (h_a1 : a1.Inv) : (State.dmGo c
    ch stop a0 a1).Inv := by
  induction a0 generalizing c ch stop a1 h_a1 with
  | zero =>
    unfold State.dmGo
    with_reducible
      repeat' (first | assumption | (intro _) | apply State.dmBeat_inv | apply inv_ite | dsimp only | apply ih
                         | (fail_if_no_progress apply inv_mk) | split)
  | succ n ih =>
    unfold State.dmGo
    with_reducible
      repeat' (first | assumption | (intro _) | apply State.dmBeat_inv | apply inv_ite | dsimp only | apply ih
                         | (fail_if_no_progress apply inv_mk) | split)

theorem State.dmRunTo_inv {s : State} {c : Nat} {ch : Nat} (h_s : s.Inv) : (State.dmRunTo s c ch).Inv := by
  unfold State.dmRunTo
  with_reducible
    repeat' (first | assumption | (intro _) | apply State.dmFinish_inv | apply State.dmGo_inv | apply inv_ite | dsimp only
                     | (fail_if_no_progress apply inv_mk) | split)

theorem doDmDone_inv {c : Nat} {ch : Nat} {s : State} (h_s : s.Inv) : (doDmDone c ch s).Inv := by
  unfold doDmDone
  with_reducible
    repeat' (first | assumption | (intro _) | apply State.dmRunTo_inv | apply inv_ite | dsimp only
                     | (fail_if_no_progress apply inv_mk) | split)

theorem doDmRetry_inv {c : Nat} {ch : Nat} {addr : Word} {s : State} (h_s : s.Inv) : (doDmRetry c ch addr s).Inv := by
  unfold doDmRetry
  with_reducible
    repeat' (first | assumption | (intro _) | apply State.dmBus_inv | apply State.dmGo_inv | apply inv_ite | dsimp only
                     | (fail_if_no_progress apply inv_mk) | split)

theorem doDmChrono_inv {c : Nat} {ch : Nat} {s : State} (h_s : s.Inv) : (doDmChrono c ch s).Inv := by
  unfold doDmChrono
  with_reducible
    repeat' (first | assumption | (intro _) | apply State.reach_inv | apply State.setChan_inv | apply inv_ite | dsimp only
                     | (fail_if_no_progress apply inv_mk) | split)

theorem State.dmPipe_inv {s : State} {c : Nat} {ch : Nat} (h_s : s.Inv) : (State.dmPipe s c ch).Inv := by
  unfold State.dmPipe
  with_reducible
    repeat' (first | assumption | (intro _) | apply State.setChan_inv | apply State.dmFinish_inv | apply State.dmRunTo_inv
                     | apply inv_ite | dsimp only | (fail_if_no_progress apply inv_mk) | split)

theorem State.dmWake_inv {s : State} {c : Nat} (h_s : s.Inv) : (State.dmWake s c).Inv := by
  unfold State.dmWake
  with_reducible
    repeat' (first | assumption | (intro _) | apply State.setCl_inv | apply State.dmRunTo_inv | apply inv_foldl
                     | apply inv_foldl_snd | apply inv_foldl_fst | apply inv_ite | dsimp only
                     | (fail_if_no_progress apply inv_mk) | split)

theorem State.dmWakeAll_inv {s : State} (h_s : s.Inv) : (State.dmWakeAll s).Inv := by
  unfold State.dmWakeAll
  with_reducible
    repeat' (first | assumption | (intro _) | apply State.dmWake_inv | apply inv_foldl | apply inv_foldl_snd | apply inv_foldl_fst
                     | dsimp only | (fail_if_no_progress apply inv_mk) | split)

theorem State.dmWatch_inv {s : State} {c : Nat} {i : Nat} (h_s : s.Inv) : (State.dmWatch s c i).Inv := by
  unfold State.dmWatch
  with_reducible
    repeat' (first | assumption | (intro _) | apply State.dmPipe_inv | apply inv_foldl | apply inv_foldl_snd | apply inv_foldl_fst
                     | dsimp only | (fail_if_no_progress apply inv_mk) | split)

theorem State.dmLoaded_inv {s : State} {c : Nat} {ch : Nat} {part : Nat} (h_s : s.Inv) : (State.dmLoaded s c ch part).Inv :=
    by
  unfold State.dmLoaded
  with_reducible
    repeat' (first | assumption | (intro _) | apply State.dmFinish_inv | apply State.dmWaits_inv | apply State.dmPipe_inv
                     | apply inv_ite | dsimp only | (fail_if_no_progress apply inv_mk) | split)

theorem State.dmRun_inv {s : State} {c : Nat} {cmd : UnitCmd} (h_s : s.Inv) : (State.dmRun s c cmd).2.Inv := by
  unfold State.dmRun
  with_reducible
    repeat' (first | assumption | (intro _) | apply uRun_inv | refine uRun_inv' (by assumption) ?_ | apply uDesc_inv
                     | apply State.setChan_inv | apply State.pipeBad_inv | apply State.dmLoaded_inv | apply run_pure
                     | apply run_throw | apply run_getThe | apply run_bind | apply run_mk | apply run_forM | apply run_mapM
                     | apply run_foldlM | apply run_forIn | apply run_elim | apply inv_ite_snd | apply inv_ite | dsimp only
                     | (fail_if_no_progress apply inv_mk) | refine inv_snd (by assumption) ?_ | split)
theorem State.dmRun_inv' {s : State} {c : Nat} {cmd : UnitCmd} {r0} {tE : State} (hE : (State.dmRun s c cmd) = (r0, tE))
    (h_s : s.Inv) : tE.Inv := by
  have h := @State.dmRun_inv s c cmd h_s; rw [hE] at h; exact h

theorem State.dmKick_inv {s : State} {c : Nat} {cmd : UnitCmd} (h_s : s.Inv) : (State.dmKick s c cmd).2.Inv := by
  unfold State.dmKick
  with_reducible
    repeat' (first | assumption | (intro _) | apply State.setChan_inv | apply State.dmPipe_inv | apply inv_ite_snd | apply inv_ite
                     | dsimp only | (fail_if_no_progress apply inv_mk) | split)
theorem State.dmKick_inv' {s : State} {c : Nat} {cmd : UnitCmd} {r0} {tE : State} (hE : (State.dmKick s c cmd) = (r0, tE))
    (h_s : s.Inv) : tE.Inv := by
  have h := @State.dmKick_inv s c cmd h_s; rw [hE] at h; exact h

theorem State.dmBurstEnd_inv {c : Nat} {ch : Nat} {a0 : Nat} {a1 : State} (h_a1 : a1.Inv) : (State.dmBurstEnd c ch a0
    a1).Inv := by
  induction a0 generalizing c ch a1 h_a1 with
  | zero =>
    unfold State.dmBurstEnd
    with_reducible
      repeat' (first | assumption | (intro _) | apply State.dmBeat_inv | apply inv_ite | dsimp only | apply ih
                         | (fail_if_no_progress apply inv_mk) | split)
  | succ n ih =>
    unfold State.dmBurstEnd
    with_reducible
      repeat' (first | assumption | (intro _) | apply State.dmBeat_inv | apply inv_ite | dsimp only | apply ih
                         | (fail_if_no_progress apply inv_mk) | split)

theorem State.dmTurns_inv {c : Nat} {a0 : Nat} {a1 : State} (h_a1 : a1.Inv) : (State.dmTurns c a0 a1).Inv := by
  induction a0 generalizing c a1 h_a1 with
  | zero =>
    unfold State.dmTurns
    with_reducible
      repeat' (first | assumption | (intro _) | apply State.dmBeat_inv | dsimp only | apply ih | (fail_if_no_progress apply inv_mk)
                         | split)
  | succ n ih =>
    unfold State.dmTurns
    with_reducible
      repeat' (first | assumption | (intro _) | apply State.dmBeat_inv | dsimp only | apply ih | (fail_if_no_progress apply inv_mk)
                         | split)

theorem State.dmQuenchOne_inv {s : State} {c : Nat} {ch : Nat} (h_s : s.Inv) : (State.dmQuenchOne s c ch).Inv := by
  unfold State.dmQuenchOne
  with_reducible
    repeat' (first | assumption | (intro _) | apply State.dmFinish_inv | apply State.dmBurstEnd_inv | apply inv_ite | dsimp only
                     | (fail_if_no_progress apply inv_mk) | split)

theorem State.dmQuenchIn_inv {s : State} {c : Nat} {p : Nat} (h_s : s.Inv) : (State.dmQuenchIn s c p).Inv := by
  unfold State.dmQuenchIn
  with_reducible
    repeat' (first | assumption | (intro _) | apply State.free_inv | refine State.free_inv' (by assumption) ?_
                     | apply State.dmTurns_inv | apply State.dmQuenchOne_inv | apply inv_foldl | apply inv_foldl_snd
                     | apply inv_foldl_fst | apply inv_ite | dsimp only | (fail_if_no_progress apply inv_mk)
                     | refine inv_snd (by assumption) ?_ | split)

theorem State.dmQuench_inv {s : State} {p : Nat} (h_s : s.Inv) : (State.dmQuench s p).Inv := by
  unfold State.dmQuench
  with_reducible
    repeat' (first | assumption | (intro _) | apply State.dmCancelWhere_inv | apply State.dmQuenchIn_inv | apply inv_foldl
                     | apply inv_foldl_snd | apply inv_foldl_fst | dsimp only | (fail_if_no_progress apply inv_mk) | split)

end Sys2Proof.Machine
end

