-- ==== Sys2Proof/Laws/MemL2.lean ====
section
/-!
SUPPORT. The state functions of Machine/L2.lean keep the canonical form of memory.
-/
namespace Sys2Proof.Machine

open Sys2Proof

set_option linter.unusedTactic false
set_option linter.unreachableTactic false
set_option linter.unusedSimpArgs false
set_option linter.unusedVariables false

theorem State.evictWays_inv {s : State} {c : Nat} {ws : List Nat} (h_s : s.Inv) : (State.evictWays s c ws).Inv := by
  unfold State.evictWays
  with_reducible
    repeat' (first | assumption | (intro _) | apply State.l2Evict_inv | apply inv_foldl | apply inv_foldl_snd
                     | apply inv_foldl_fst | dsimp only | (fail_if_no_progress apply inv_mk) | split)

theorem doWayCfg_inv {c : Nat} {w : Word} {s : State} (h_s : s.Inv) : (doWayCfg c w s).Inv := by
  unfold doWayCfg
  with_reducible
    repeat' (first | assumption | (intro _) | apply State.setCl_inv | apply State.log_inv | apply inv_ite | dsimp only
                     | (fail_if_no_progress apply inv_mk) | split)

theorem doWayDone_inv {c : Nat} {s : State} (h_s : s.Inv) : (doWayDone c s).Inv := by
  unfold doWayDone
  with_reducible
    repeat' (first | assumption | (intro _) | apply State.setCl_inv | apply State.evictWays_inv | apply inv_ite | dsimp only
                     | (fail_if_no_progress apply inv_mk) | split)

theorem State.convertWay_inv {s : State} {c : Nat} (h_s : s.Inv) : OptInv (State.convertWay s c) := by
  unfold State.convertWay
  with_reducible
    repeat' (first | assumption | (intro _) | apply State.setCl_inv | apply State.evictWays_inv | exact optInv_none
                     | apply optInv_some | apply optInv_findSome | apply optInv_map | refine optInv_elim (by assumption) ?_
                     | apply optInv_ite | apply inv_ite | dsimp only | (fail_if_no_progress apply inv_mk) | split)

theorem State.bindPipe_inv {s : State} {p : Nat} {c : Nat} {i : Nat} {dl : Nat} (h_s : s.Inv) : OptInv (State.bindPipe s p c
    i dl) := by
  unfold State.bindPipe
  with_reducible
    repeat' (first | assumption | (intro _) | apply State.setCl_inv | apply State.convertWay_inv | exact optInv_none
                     | apply optInv_some | apply optInv_findSome | apply optInv_map | refine optInv_elim (by assumption) ?_
                     | dsimp only | (fail_if_no_progress apply inv_mk) | split)

theorem State.bindPipes_inv {s : State} {p : Nat} {c : Nat} {dl : Nat} {a0 : List Nat} (h_s : s.Inv) : OptInv
    (State.bindPipes s p c dl a0) := by
  induction a0 generalizing s p c dl h_s with
  | nil =>
    unfold State.bindPipes
    with_reducible
      repeat' (first | assumption | (intro _) | apply State.bindPipe_inv | exact optInv_none | apply optInv_some
                         | apply optInv_findSome | apply optInv_map | refine optInv_elim (by assumption) ?_ | dsimp only | apply ih
                         | (fail_if_no_progress apply inv_mk) | split)
  | cons x xs ih =>
    unfold State.bindPipes
    with_reducible
      repeat' (first | assumption | (intro _) | apply State.bindPipe_inv | exact optInv_none | apply optInv_some
                         | apply optInv_findSome | apply optInv_map | refine optInv_elim (by assumption) ?_ | dsimp only | apply ih
                         | (fail_if_no_progress apply inv_mk) | split)

theorem State.unbindPipe_inv {s : State} {c : Nat} {i : Nat} (h_s : s.Inv) : (State.unbindPipe s c i).Inv := by
  unfold State.unbindPipe
  with_reducible
    repeat' (first | assumption | (intro _) | apply State.setCl_inv | apply State.dmWatch_inv | apply inv_ite | dsimp only
                     | (fail_if_no_progress apply inv_mk) | split)

theorem State.invWhere_inv {s : State} {c : Nat} {f : Nat → Bool} {g : L2Line → Bool} (h_s : s.Inv) : (State.invWhere s c f
    g).Inv := by
  unfold State.invWhere
  with_reducible
    repeat' (first | assumption | (intro _) | apply State.setCl_inv | apply State.onPps_inv | dsimp only
                     | (fail_if_no_progress apply inv_mk) | split)

theorem State.maintRun_inv {s : State} {c : Nat} {op : MaintOp} {line : Nat} {n : Nat} (h_s : s.Inv) : (State.maintRun s c
    op line n).Inv := by
  unfold State.maintRun
  with_reducible
    repeat' (first | assumption | (intro _) | apply State.cleanWhere_inv | refine State.cleanWhere_inv' (by assumption) ?_
                     | apply State.invWhere_inv | dsimp only | (fail_if_no_progress apply inv_mk)
                     | refine inv_snd (by assumption) ?_ | split)

theorem doMaint_inv {c : Nat} {op : MaintOp} {addr : Word} {n : Nat} {s : State} (h_s : s.Inv) : (doMaint c op addr n s).Inv
    := by
  unfold doMaint
  with_reducible
    repeat' (first | assumption | (intro _) | apply State.setCl_inv | apply State.log_inv | apply State.maintRun_inv
                     | apply inv_ite | dsimp only | (fail_if_no_progress apply inv_mk) | split)

theorem doMaintDone_inv {c : Nat} {s : State} (h_s : s.Inv) : (doMaintDone c s).Inv := by
  unfold doMaintDone
  with_reducible
    repeat' (first | assumption | (intro _) | apply State.setCl_inv | apply inv_ite | dsimp only
                     | (fail_if_no_progress apply inv_mk) | split)

theorem doL2Disable_inv {c : Nat} {s : State} (h_s : s.Inv) : (doL2Disable c s).Inv := by
  unfold doL2Disable
  with_reducible
    repeat' (first | assumption | (intro _) | apply State.setCl_inv | apply State.onPps_inv | apply inv_ite | dsimp only
                     | (fail_if_no_progress apply inv_mk) | split)

theorem doDrainDone_inv {c : Nat} {s : State} (h_s : s.Inv) : (doDrainDone c s).Inv := by
  unfold doDrainDone
  with_reducible
    repeat' (first | assumption | (intro _) | apply State.setCl_inv | apply State.onPps_inv | apply State.cleanWhere_inv
                     | refine State.cleanWhere_inv' (by assumption) ?_ | apply State.maintRun_inv | apply inv_ite | dsimp only
                     | (fail_if_no_progress apply inv_mk) | refine inv_snd (by assumption) ?_ | split)

end Sys2Proof.Machine
end

