-- ==== Sys2Proof/Laws/MemXlat.lean ====
section
/-!
SUPPORT. The state functions of Machine/Xlat.lean keep the canonical form of memory.
-/
namespace Sys2Proof.Machine

open Sys2Proof

set_option linter.unusedTactic false
set_option linter.unreachableTactic false
set_option linter.unusedSimpArgs false
set_option linter.unusedVariables false

theorem State.xlatApply_inv {s0 : State} {p : Nat} (h_s0 : s0.Inv) : (State.xlatApply s0 p).Inv := by
  unfold State.xlatApply
  with_reducible
    repeat' (first | assumption | (intro _) | apply State.setPart_inv | apply State.log_inv | apply State.dropAllOf_inv
                     | apply State.parityUse_inv | apply State.parityTaken_inv | apply inv_ite | dsimp only
                     | (fail_if_no_progress apply inv_mk) | split)

theorem doXlatCtl_inv {p : Nat} {w : BitVec 32} {s : State} (h_s : s.Inv) : (doXlatCtl p w s).Inv := by
  unfold doXlatCtl
  with_reducible
    repeat' (first | assumption | (intro _) | apply State.setPart_inv | apply State.xlatApply_inv | apply inv_ite | dsimp only
                     | (fail_if_no_progress apply inv_mk) | split)

theorem doXinvCtl_inv {w : BitVec 32} {s : State} (h_s : s.Inv) : (doXinvCtl w s).Inv := by
  unfold doXinvCtl
  with_reducible
    repeat' (first | assumption | (intro _) | apply State.log_inv | apply State.dropStages_inv | apply State.dropStu_inv
                     | apply State.setStale_inv | apply State.dropAllOf_inv | apply inv_ite | dsimp only
                     | (fail_if_no_progress apply inv_mk) | split)

theorem doXinvDone_inv {s : State} (h_s : s.Inv) : (doXinvDone s).Inv := by
  unfold doXinvDone
  with_reducible
    repeat' (first | assumption | (intro _) | apply inv_ite | dsimp only | (fail_if_no_progress apply inv_mk) | split)

end Sys2Proof.Machine
end

