-- ==== Sys2Proof/Laws/MemLs.lean ====
section
/-!
SUPPORT. The state functions of Machine/Ls.lean keep the canonical form of memory.
-/
namespace Sys2Proof.Machine

open Sys2Proof

set_option linter.unusedTactic false
set_option linter.unreachableTactic false
set_option linter.unusedSimpArgs false
set_option linter.unusedVariables false

theorem State.addLeg_inv {s : State} {g : Leg} (h_s : s.Inv) : (State.addLeg s g).Inv := by
  unfold State.addLeg
  with_reducible
    repeat' (first | assumption | (intro _) | dsimp only | (fail_if_no_progress apply inv_mk) | split)

theorem State.placeEntry_inv {s : State} {e : LegEntry} (h_s : s.Inv) : OptInv (State.placeEntry s e) := by
  unfold State.placeEntry
  with_reducible
    repeat' (first | assumption | (intro _) | apply State.letIn_inv | apply State.addLeg_inv | exact optInv_none
                     | apply optInv_some | apply optInv_findSome | apply optInv_map | refine optInv_elim (by assumption) ?_
                     | apply optInv_ite | apply inv_ite | dsimp only | (fail_if_no_progress apply inv_mk) | split)

theorem matureOne_inv {a : List Nat × State} {e : Nat × Leg} (h_a : a.2.Inv) : (matureOne a e).2.Inv := by
  unfold matureOne
  with_reducible
    repeat' (first | assumption | (intro _) | apply State.setLeg_inv | apply inv_ite_snd | apply inv_ite | dsimp only
                     | (fail_if_no_progress apply inv_mk) | split)
theorem matureOne_inv' {a : List Nat × State} {e : Nat × Leg} {r0} {tE : State} (hE : (matureOne a e) = (r0, tE)) (h_a :
    a.2.Inv) : tE.Inv := by
  have h := @matureOne_inv a e h_a; rw [hE] at h; exact h

theorem doSchedTick_inv {s : State} (h_s : s.Inv) : (doSchedTick s).Inv := by
  unfold doSchedTick
  with_reducible
    repeat' (first | assumption | (intro _) | apply State.reach_inv | apply State.admitAll_inv | apply matureOne_inv
                     | refine matureOne_inv' (by assumption) ?_ | apply inv_foldl | apply inv_foldl_snd | apply inv_foldl_fst
                     | apply inv_ite | dsimp only | (fail_if_no_progress apply inv_mk) | refine inv_snd (by assumption) ?_
                     | split)

theorem State.inlineLine_inv {s : State} {g : Leg} {c : Nat} {va : Nat} {bs : List Byte} (h_s : s.Inv) : (State.inlineLine s
    g c va bs).2.Inv := by
  unfold State.inlineLine
  with_reducible
    repeat' (first | assumption | (intro _) | apply State.hostPost_inv | refine State.hostPost_inv' (by assumption) ?_
                     | apply State.l2Meets_inv | refine State.l2Meets_inv' (by assumption) ?_ | apply State.l2Store_inv
                     | apply State.xlateUnit_inv | refine State.xlateUnit_inv' (by assumption) ?_ | apply State.dpaRefused_inv
                     | refine State.dpaRefused_inv' (by assumption) ?_ | apply State.faultRecord_inv | apply State.xlatUse_inv
                     | apply inv_ite_snd | apply inv_ite | dsimp only | (fail_if_no_progress apply inv_mk)
                     | refine inv_snd (by assumption) ?_ | split)
theorem State.inlineLine_inv' {s : State} {g : Leg} {c : Nat} {va : Nat} {bs : List Byte} {r0} {tE : State} (hE :
    (State.inlineLine s g c va bs) = (r0, tE)) (h_s : s.Inv) : tE.Inv := by
  have h := @State.inlineLine_inv s g c va bs h_s; rw [hE] at h; exact h

theorem State.inlineWrite_inv {s : State} {g : Leg} {c : Nat} (h_s : s.Inv) : (State.inlineWrite s g c).2.Inv := by
  unfold State.inlineWrite
  with_reducible
    repeat' (first | assumption | (intro _) | apply State.inlineLine_inv | refine State.inlineLine_inv' (by assumption) ?_
                     | apply inv_ite_snd | apply inv_ite | dsimp only | (fail_if_no_progress apply inv_mk)
                     | refine inv_snd (by assumption) ?_ | split)
theorem State.inlineWrite_inv' {s : State} {g : Leg} {c : Nat} {r0} {tE : State} (hE : (State.inlineWrite s g c) = (r0, tE))
    (h_s : s.Inv) : tE.Inv := by
  have h := @State.inlineWrite_inv s g c h_s; rw [hE] at h; exact h

theorem State.legRead_inv {s : State} {n : Nat} {g : Leg} {va : Nat} {len : Nat} (h_s : s.Inv) : (State.legRead s n g va
    len).2.Inv := by
  unfold State.legRead
  with_reducible
    repeat' (first | assumption | (intro _) | apply State.faultRecord_inv | apply State.fwRead_inv
                     | refine State.fwRead_inv' (by assumption) ?_ | dsimp only | (fail_if_no_progress apply inv_mk)
                     | refine inv_snd (by assumption) ?_ | split)
theorem State.legRead_inv' {s : State} {n : Nat} {g : Leg} {va : Nat} {len : Nat} {r0} {tE : State} (hE : (State.legRead s n
    g va len) = (r0, tE)) (h_s : s.Inv) : tE.Inv := by
  have h := @State.legRead_inv s n g va len h_s; rw [hE] at h; exact h

theorem State.readOutDescs_inv {s : State} {n : Nat} {g : Leg} {va : Nat} {a0 : Nat} (h_s : s.Inv) : (State.readOutDescs s n
    g va a0).2.Inv := by
  induction a0 generalizing s n g va h_s with
  | zero =>
    unfold State.readOutDescs
    with_reducible
      repeat' (first | assumption | (intro _) | apply State.legRead_inv | refine State.legRead_inv' (by assumption) ?_
                         | apply inv_ite_snd | apply inv_ite | dsimp only | apply ih | (fail_if_no_progress apply inv_mk)
                         | refine inv_snd (by assumption) ?_ | split)
  | succ n ih =>
    unfold State.readOutDescs
    with_reducible
      repeat' (first | assumption | (intro _) | apply State.legRead_inv | refine State.legRead_inv' (by assumption) ?_
                         | apply inv_ite_snd | apply inv_ite | dsimp only | apply ih | (fail_if_no_progress apply inv_mk)
                         | refine inv_snd (by assumption) ?_ | split)
theorem State.readOutDescs_inv' {s : State} {n : Nat} {g : Leg} {va : Nat} {a0 : Nat} {r0} {tE : State} (hE :
    (State.readOutDescs s n g va a0) = (r0, tE)) (h_s : s.Inv) : tE.Inv := by
  have h := @State.readOutDescs_inv s n g va a0 h_s; rw [hE] at h; exact h

theorem State.readOuts_inv {s : State} {n : Nat} {g : Leg} (h_s : s.Inv) : (State.readOuts s n g).2.Inv := by
  unfold State.readOuts
  with_reducible
    repeat' (first | assumption | (intro _) | apply State.legRead_inv | refine State.legRead_inv' (by assumption) ?_
                     | apply State.readOutDescs_inv | refine State.readOutDescs_inv' (by assumption) ?_ | apply inv_ite_snd
                     | apply inv_ite | dsimp only | (fail_if_no_progress apply inv_mk) | refine inv_snd (by assumption) ?_
                     | split)
theorem State.readOuts_inv' {s : State} {n : Nat} {g : Leg} {r0} {tE : State} (hE : (State.readOuts s n g) = (r0, tE)) (h_s
    : s.Inv) : tE.Inv := by
  have h := @State.readOuts_inv s n g h_s; rw [hE] at h; exact h

theorem State.readSnapshot_inv {s : State} {n : Nat} {g : Leg} (h_s : s.Inv) : (State.readSnapshot s n g).2.Inv := by
  unfold State.readSnapshot
  with_reducible
    repeat' (first | assumption | (intro _) | apply State.legRead_inv | refine State.legRead_inv' (by assumption) ?_
                     | apply inv_ite_snd | apply inv_ite | dsimp only | (fail_if_no_progress apply inv_mk)
                     | refine inv_snd (by assumption) ?_ | split)
theorem State.readSnapshot_inv' {s : State} {n : Nat} {g : Leg} {r0} {tE : State} (hE : (State.readSnapshot s n g) = (r0,
    tE)) (h_s : s.Inv) : tE.Inv := by
  have h := @State.readSnapshot_inv s n g h_s; rw [hE] at h; exact h

theorem State.resumeLeg_inv {s : State} {n : Nat} {l : Nat} (h_s : s.Inv) : (State.resumeLeg s n l).Inv := by
  unfold State.resumeLeg
  with_reducible
    repeat' (first | assumption | (intro _) | apply State.setPp_inv | apply State.setLeg_inv | apply State.wpRead_inv
                     | refine State.wpRead_inv' (by assumption) ?_ | apply State.errLeg_inv | dsimp only
                     | (fail_if_no_progress apply inv_mk) | refine inv_snd (by assumption) ?_ | split)

theorem State.enterLeg_inv {s : State} {n : Nat} {l : Nat} {g : Leg} (h_s : s.Inv) : (State.enterLeg s n l g).Inv := by
  unfold State.enterLeg
  with_reducible
    repeat' (first | assumption | (intro _) | apply State.setPp_inv | apply State.setLeg_inv | apply State.letIn_inv
                     | apply State.errLeg_inv | apply State.inlineWrite_inv | refine State.inlineWrite_inv' (by assumption) ?_
                     | apply State.readOuts_inv | refine State.readOuts_inv' (by assumption) ?_ | apply State.readSnapshot_inv
                     | refine State.readSnapshot_inv' (by assumption) ?_ | dsimp only | (fail_if_no_progress apply inv_mk)
                     | refine inv_snd (by assumption) ?_ | split)

theorem doLegStart_inv {n : Nat} {s : State} (h_s : s.Inv) : (doLegStart n s).Inv := by
  unfold doLegStart
  with_reducible
    repeat' (first | assumption | (intro _) | apply State.setPp_inv | apply State.letIn_inv | apply State.resumeLeg_inv
                     | apply State.enterLeg_inv | apply inv_ite | dsimp only | (fail_if_no_progress apply inv_mk) | split)

end Sys2Proof.Machine
end

