-- ==== Sys2Proof/Laws/MemFc.lean ====
section
/-!
SUPPORT. The state functions of Machine/Fc.lean keep the canonical form of memory.
-/
namespace Sys2Proof.Machine

open Sys2Proof

set_option linter.unusedTactic false
set_option linter.unreachableTactic false
set_option linter.unusedSimpArgs false
set_option linter.unusedVariables false

theorem State.sendTick_inv {s : State} (h_s : s.Inv) : (State.sendTick s).Inv := by
  unfold State.sendTick
  with_reducible
    repeat' (first | assumption | (intro _) | apply State.sendMsg_inv | apply run_pure | apply run_throw | apply run_getThe
                     | apply run_bind | apply run_mk | apply run_forM | apply run_mapM | apply run_foldlM | apply run_forIn
                     | apply run_elim | dsimp only | (fail_if_no_progress apply inv_mk) | split)

theorem State.openLegs_inv {s : State} (h_s : s.Inv) : (State.openLegs s).Inv := by
  unfold State.openLegs
  with_reducible
    repeat' (first | assumption | (intro _) | apply State.chargeLeg_inv | apply State.admitTo_inv | apply State.admitAll_inv
                     | apply State.resumeLeg_inv | apply inv_foldl | apply inv_foldl_snd | apply inv_foldl_fst | apply inv_ite
                     | dsimp only | (fail_if_no_progress apply inv_mk) | split)

theorem State.startTicking_inv {s : State} {e : EpochSet} (h_s : s.Inv) : (State.startTicking s e).Inv := by
  unfold State.startTicking
  with_reducible
    repeat' (first | assumption | (intro _) | apply State.sendTick_inv | apply State.openLegs_inv | apply inv_ite | dsimp only
                     | (fail_if_no_progress apply inv_mk) | split)

theorem doEpochApply_inv {s0 : State} (h_s0 : s0.Inv) : (doEpochApply s0).Inv := by
  unfold doEpochApply
  with_reducible
    repeat' (first | assumption | (intro _) | apply State.log_inv | apply State.epochUse_inv | apply State.startTicking_inv
                     | apply run_pure | apply run_throw | apply run_getThe | apply run_bind | apply run_mk | apply run_forM
                     | apply run_mapM | apply run_foldlM | apply run_forIn | apply run_elim | apply inv_ite | dsimp only
                     | (fail_if_no_progress apply inv_mk) | split)

theorem State.toReadyHead_inv {s : State} {l : Nat} {c : Nat} {n : Nat} {g : Leg} (h_s : s.Inv) : (State.toReadyHead s l c n
    g).Inv := by
  unfold State.toReadyHead
  with_reducible
    repeat' (first | assumption | (intro _) | apply inv_ite | dsimp only | (fail_if_no_progress apply inv_mk) | split)

theorem State.toHeld_inv {s : State} {l : Nat} {c : Nat} {g : Leg} {k : HoldKind} {carry : Bool} (h_s : s.Inv) :
    (State.toHeld s l c g k carry).Inv := by
  unfold State.toHeld
  with_reducible
    repeat' (first | assumption | (intro _) | dsimp only | (fail_if_no_progress apply inv_mk) | split)

theorem tickLeg_inv {last : Bool} {s : State} {l : Nat} (h_s : s.Inv) : (tickLeg last s l).Inv := by
  unfold tickLeg
  with_reducible
    repeat' (first | assumption | (intro _) | apply State.setPp_inv | apply State.setLeg_inv | apply State.sample_inv
                     | apply State.toReadyHead_inv | apply inv_ite | dsimp only | (fail_if_no_progress apply inv_mk) | split)

theorem State.tickDiscard_inv {s : State} (h_s : s.Inv) : (State.tickDiscard s).Inv := by
  unfold State.tickDiscard
  with_reducible
    repeat' (first | assumption | (intro _) | apply State.setPp_inv | apply State.dropLegs_inv | apply State.freePp_inv
                     | apply inv_foldl | apply inv_foldl_snd | apply inv_foldl_fst | dsimp only
                     | (fail_if_no_progress apply inv_mk) | split)

theorem State.nextBase_inv {s : State} (h_s : s.Inv) : (State.nextBase s).2.Inv := by
  unfold State.nextBase
  with_reducible
    repeat' (first | assumption | (intro _) | apply State.free_inv | refine State.free_inv' (by assumption) ?_ | apply inv_ite_snd
                     | apply inv_ite | dsimp only | (fail_if_no_progress apply inv_mk) | refine inv_snd (by assumption) ?_
                     | split)
theorem State.nextBase_inv' {s : State} {r0} {tE : State} (hE : (State.nextBase s) = (r0, tE)) (h_s : s.Inv) : tE.Inv := by
  have h := @State.nextBase_inv s h_s; rw [hE] at h; exact h

theorem State.tickClock_inv {s : State} (h_s : s.Inv) : (State.tickClock s).Inv := by
  unfold State.tickClock
  with_reducible
    repeat' (first | assumption | (intro _) | apply State.nextBase_inv | refine State.nextBase_inv' (by assumption) ?_
                     | apply inv_ite | dsimp only | (fail_if_no_progress apply inv_mk) | refine inv_snd (by assumption) ?_
                     | split)

theorem State.takeEarly_inv {s : State} (h_s : s.Inv) : (State.takeEarly s).Inv := by
  unfold State.takeEarly
  with_reducible
    repeat' (first | assumption | (intro _) | apply inv_ite | dsimp only | (fail_if_no_progress apply inv_mk) | split)

theorem State.endTicking_inv {s : State} (h_s : s.Inv) : (State.endTicking s).Inv := by
  unfold State.endTicking
  with_reducible
    repeat' (first | assumption | (intro _) | apply inv_ite | dsimp only | (fail_if_no_progress apply inv_mk) | split)

theorem State.tick_inv {sa : State} (h_sa : sa.Inv) : (State.tick sa).Inv := by
  unfold State.tick
  with_reducible
    repeat' (first | assumption | (intro _) | apply State.reach_inv | apply State.epochUse_inv | apply State.sendTick_inv
                     | apply tickLeg_inv | apply State.tickDiscard_inv | apply State.tickClock_inv | apply State.takeEarly_inv
                     | apply State.endTicking_inv | apply inv_foldl | apply inv_foldl_snd | apply inv_foldl_fst | apply inv_ite
                     | dsimp only | (fail_if_no_progress apply inv_mk) | split)

theorem State.orphanTick_inv {s0 : State} (h_s0 : s0.Inv) : (State.orphanTick s0).Inv := by
  unfold State.orphanTick
  with_reducible
    repeat' (first | assumption | (intro _) | apply State.reach_inv | apply tickLeg_inv | apply State.tickDiscard_inv
                     | apply inv_foldl | apply inv_foldl_snd | apply inv_foldl_fst | apply inv_ite | dsimp only
                     | (fail_if_no_progress apply inv_mk) | split)

theorem doEpochTick_inv {s : State} (h_s : s.Inv) : (doEpochTick s).Inv := by
  unfold doEpochTick
  with_reducible
    repeat' (first | assumption | (intro _) | apply State.tick_inv | apply State.orphanTick_inv | apply inv_ite | dsimp only
                     | (fail_if_no_progress apply inv_mk) | split)

theorem doTickLate_inv {s : State} (h_s : s.Inv) : (doTickLate s).Inv := by
  unfold doTickLate
  with_reducible
    repeat' (first | assumption | (intro _) | apply State.log_inv | apply State.tick_inv | apply inv_ite | dsimp only
                     | (fail_if_no_progress apply inv_mk) | split)

theorem State.openEpoch_inv {s : State} (h_s : s.Inv) : (State.openEpoch s).Inv := by
  unfold State.openEpoch
  with_reducible
    repeat' (first | assumption | (intro _) | apply State.openLegs_inv | apply inv_ite | dsimp only
                     | (fail_if_no_progress apply inv_mk) | split)

theorem doEpochOpenTimeout_inv {s : State} (h_s : s.Inv) : (doEpochOpenTimeout s).Inv := by
  unfold doEpochOpenTimeout
  with_reducible
    repeat' (first | assumption | (intro _) | apply State.reach_inv | apply State.openEpoch_inv | apply inv_ite | dsimp only
                     | (fail_if_no_progress apply inv_mk) | split)

theorem State.stopPp_inv {s : State} {n : Nat} {l : Nat} {stamp : Word} (h_s : s.Inv) : (State.stopPp s n l stamp).Inv := by
  unfold State.stopPp
  with_reducible
    repeat' (first | assumption | (intro _) | apply State.setPp_inv | apply State.capture_inv | dsimp only
                     | (fail_if_no_progress apply inv_mk) | split)

theorem State.recarry_inv {s : State} {l : Nat} (h_s : s.Inv) : (State.recarry s l).Inv := by
  unfold State.recarry
  with_reducible
    repeat' (first | assumption | (intro _) | apply State.setLeg_inv | apply State.dmStores_inv | dsimp only
                     | (fail_if_no_progress apply inv_mk) | split)

theorem State.holdIfQuiescing_inv {s : State} {n : Nat} {l : Nat} (h_s : s.Inv) : (State.holdIfQuiescing s n l).Inv := by
  unfold State.holdIfQuiescing
  with_reducible
    repeat' (first | assumption | (intro _) | apply State.freePp_inv | apply State.toHeld_inv | apply inv_ite | dsimp only
                     | (fail_if_no_progress apply inv_mk) | split)

theorem State.cutPp_inv {s : State} {n : Nat} {stamp : Word} (h_s : s.Inv) : (State.cutPp s n stamp).2.Inv := by
  unfold State.cutPp
  with_reducible
    repeat' (first | assumption | (intro _) | apply State.stopPp_inv | apply State.recarry_inv | apply State.holdIfQuiescing_inv
                     | apply inv_ite_snd | apply inv_ite | dsimp only | (fail_if_no_progress apply inv_mk) | split)
theorem State.cutPp_inv' {s : State} {n : Nat} {stamp : Word} {r0} {tE : State} (hE : (State.cutPp s n stamp) = (r0, tE))
    (h_s : s.Inv) : tE.Inv := by
  have h := @State.cutPp_inv s n stamp h_s; rw [hE] at h; exact h

theorem State.sendFix_inv {s : State} {n : Nat} {carry : Bool} {lost : Nat} {members : BitVec 16} (h_s : s.Inv) :
    (State.sendFix s n carry lost members).Inv := by
  unfold State.sendFix
  with_reducible
    repeat' (first | assumption | (intro _) | apply State.sendMsg_inv | apply State.openEpoch_inv | apply inv_ite | dsimp only
                     | (fail_if_no_progress apply inv_mk) | split)

theorem State.headCheck_inv {s : State} {n : Nat} (h_s : s.Inv) : (State.headCheck s n).Inv := by
  unfold State.headCheck
  with_reducible
    repeat' (first | assumption | (intro _) | apply State.sendFix_inv | apply inv_ite | dsimp only
                     | (fail_if_no_progress apply inv_mk) | split)

theorem State.sendReady_inv {s : State} (h_s : s.Inv) : (State.sendReady s).Inv := by
  unfold State.sendReady
  with_reducible
    repeat' (first | assumption | (intro _) | apply State.sendMsg_inv | apply State.headCheck_inv | apply inv_ite | dsimp only
                     | (fail_if_no_progress apply inv_mk) | split)

theorem State.resumeCut_inv {s : State} {c : Nat} (h_s : s.Inv) : (State.resumeCut s c).Inv := by
  unfold State.resumeCut
  with_reducible
    repeat' (first | assumption | (intro _) | apply State.resumeLeg_inv | apply inv_foldl | apply inv_foldl_snd
                     | apply inv_foldl_fst | apply inv_ite | dsimp only | (fail_if_no_progress apply inv_mk) | split)

theorem doCutDone_inv {c : Nat} {s : State} (h_s : s.Inv) : (doCutDone c s).Inv := by
  unfold doCutDone
  with_reducible
    repeat' (first | assumption | (intro _) | apply State.cutPp_inv | refine State.cutPp_inv' (by assumption) ?_
                     | apply State.sendReady_inv | apply State.resumeCut_inv | apply inv_foldl | apply inv_foldl_snd
                     | apply inv_foldl_fst | apply inv_ite | dsimp only | (fail_if_no_progress apply inv_mk)
                     | refine inv_snd (by assumption) ?_ | split)

theorem State.fcWrite_inv {s : State} {d : Nat} {v : Nat} {p : Nat} (h_s : s.Inv) : (State.fcWrite s d v p).Inv := by
  unfold State.fcWrite
  with_reducible
    repeat' (first | assumption | (intro _) | apply State.hostPost_inv | refine State.hostPost_inv' (by assumption) ?_
                     | apply State.memWrite_inv | dsimp only | (fail_if_no_progress apply inv_mk)
                     | refine inv_snd (by assumption) ?_ | split)

theorem State.restage_inv {s : State} {n : Nat} (h_s : s.Inv) : (State.restage s n).Inv := by
  unfold State.restage
  with_reducible
    repeat' (first | assumption | (intro _) | apply State.setLeg_inv | apply State.tick_inv | apply State.fcWrite_inv
                     | apply inv_foldl | apply inv_foldl_snd | apply inv_foldl_fst | apply inv_ite | dsimp only
                     | (fail_if_no_progress apply inv_mk) | split)

theorem State.sysRefuse_inv {s : State} (h_s : s.Inv) : (State.sysRefuse s).Inv := by
  unfold State.sysRefuse
  with_reducible
    repeat' (first | assumption | (intro _) | apply State.log_inv | apply State.failStop_inv | dsimp only
                     | (fail_if_no_progress apply inv_mk) | split)

theorem State.sysWrites_inv {s : State} {a0 : List (Nat × List Byte)} (h_s : s.Inv) : (State.sysWrites s a0).2.Inv := by
  induction a0 generalizing s h_s with
  | nil =>
    unfold State.sysWrites
    with_reducible
      repeat' (first | assumption | (intro _) | apply State.memWrite_inv | apply State.sysRefuse_inv | apply inv_ite_snd
                         | apply inv_ite | dsimp only | apply ih | (fail_if_no_progress apply inv_mk) | split)
  | cons x xs ih =>
    unfold State.sysWrites
    with_reducible
      repeat' (first | assumption | (intro _) | apply State.memWrite_inv | apply State.sysRefuse_inv | apply inv_ite_snd
                         | apply inv_ite | dsimp only | apply ih | (fail_if_no_progress apply inv_mk) | split)
theorem State.sysWrites_inv' {s : State} {a0 : List (Nat × List Byte)} {r0} {tE : State} (hE : (State.sysWrites s a0) = (r0,
    tE)) (h_s : s.Inv) : tE.Inv := by
  have h := @State.sysWrites_inv s a0 h_s; rw [hE] at h; exact h

theorem State.sealRecord_inv {s : State} {n : Nat} {x : Fix} {carry : Bool} (h_s : s.Inv) : (State.sealRecord s n x
    carry).2.Inv := by
  unfold State.sealRecord
  with_reducible
    repeat' (first | assumption | (intro _) | apply State.sealsNoMore_inv | apply State.sysWrites_inv
                     | refine State.sysWrites_inv' (by assumption) ?_ | apply inv_ite_snd | apply inv_ite | dsimp only
                     | (fail_if_no_progress apply inv_mk) | refine inv_snd (by assumption) ?_ | split)
theorem State.sealRecord_inv' {s : State} {n : Nat} {x : Fix} {carry : Bool} {r0} {tE : State} (hE : (State.sealRecord s n x
    carry) = (r0, tE)) (h_s : s.Inv) : tE.Inv := by
  have h := @State.sealRecord_inv s n x carry h_s; rw [hE] at h; exact h

theorem State.sweepLegs_inv {s : State} (h_s : s.Inv) : (State.sweepLegs s).Inv := by
  unfold State.sweepLegs
  with_reducible
    repeat' (first | assumption | (intro _) | dsimp only | (fail_if_no_progress apply inv_mk) | split)

theorem State.releaseFix_inv {s : State} {n : Nat} {stamp : Word} (h_s : s.Inv) : (State.releaseFix s n stamp).Inv := by
  unfold State.releaseFix
  with_reducible
    repeat' (first | assumption | (intro _) | apply State.setLeg_inv | apply State.releaseOne_inv
                     | refine State.releaseOne_inv' (by assumption) ?_ | apply State.raiseCqs_inv | apply State.sweepLegs_inv
                     | apply inv_foldl | apply inv_foldl_snd | apply inv_foldl_fst | apply inv_ite | dsimp only
                     | (fail_if_no_progress apply inv_mk) | refine inv_snd (by assumption) ?_ | split)

theorem doSealFix_inv {s : State} (h_s : s.Inv) : (doSealFix s).Inv := by
  unfold doSealFix
  with_reducible
    repeat' (first | assumption | (intro _) | apply State.log_inv | apply State.admitAll_inv | apply State.endTicking_inv
                     | apply State.openEpoch_inv | apply State.sendReady_inv | apply State.restage_inv
                     | apply State.sealRecord_inv | refine State.sealRecord_inv' (by assumption) ?_ | apply State.releaseFix_inv
                     | apply inv_ite | dsimp only | (fail_if_no_progress apply inv_mk) | refine inv_snd (by assumption) ?_
                     | split)

theorem doFixReady_inv {src : Nat} {n : Nat} {_legs : Nat} {s : State} (h_s : s.Inv) : (doFixReady src n _legs s).Inv := by
  unfold doFixReady
  with_reducible
    repeat' (first | assumption | (intro _) | apply State.headCheck_inv | apply inv_ite | dsimp only
                     | (fail_if_no_progress apply inv_mk) | split)

theorem State.loseUnit_inv {s : State} {u : Nat} {members : BitVec 16} (h_s : s.Inv) : (State.loseUnit s u members).Inv :=
    by
  unfold State.loseUnit
  with_reducible
    repeat' (first | assumption | (intro _) | dsimp only | (fail_if_no_progress apply inv_mk) | split)

theorem State.becomeOrphan_inv {s : State} (h_s : s.Inv) : (State.becomeOrphan s).Inv := by
  unfold State.becomeOrphan
  with_reducible
    repeat' (first | assumption | (intro _) | apply State.log_inv | apply State.sendMsg_inv | apply inv_ite | dsimp only
                     | (fail_if_no_progress apply inv_mk) | split)

theorem doFix_inv {n : Nat} {carry : Bool} {lost : Nat} {members : BitVec 16} {s : State} (h_s : s.Inv) : (doFix n carry
    lost members s).Inv := by
  unfold doFix
  with_reducible
    repeat' (first | assumption | (intro _) | apply State.openEpoch_inv | apply State.loseUnit_inv | apply State.becomeOrphan_inv
                     | apply inv_ite | dsimp only | (fail_if_no_progress apply inv_mk) | split)

theorem doReadyDeadline_inv {s : State} (h_s : s.Inv) : (doReadyDeadline s).Inv := by
  unfold doReadyDeadline
  with_reducible
    repeat' (first | assumption | (intro _) | apply State.log_inv | apply State.reach_inv | apply State.sendFix_inv
                     | apply State.loseUnit_inv | apply inv_foldl | apply inv_foldl_snd | apply inv_foldl_fst | apply inv_ite
                     | dsimp only | (fail_if_no_progress apply inv_mk) | split)

theorem doBudget_inv {n : Nat} {s : State} (h_s : s.Inv) : (doBudget n s).Inv := by
  unfold doBudget
  with_reducible
    repeat' (first | assumption | (intro _) | apply State.setPp_inv | apply State.log_inv | apply State.trap_inv | apply inv_ite
                     | dsimp only | (fail_if_no_progress apply inv_mk) | split)

theorem State.cleanOut_inv {s : State} {c : Nat} {p : Nat} {a0 : Nat} {a1 : Nat} {a2 : Nat} (h_s : s.Inv) : (State.cleanOut
    s c p a0 a1 a2).2.Inv := by
  induction a0 generalizing s c p a1 a2 h_s with
  | zero =>
    unfold State.cleanOut
    with_reducible
      repeat' (first | assumption | (intro _) | apply State.cleanRange_inv | refine State.cleanRange_inv' (by assumption) ?_
                         | apply State.xlateUnit_inv | refine State.xlateUnit_inv' (by assumption) ?_ | apply inv_ite_snd
                         | apply inv_ite | dsimp only | apply ih | (fail_if_no_progress apply inv_mk)
                         | refine inv_snd (by assumption) ?_ | split)
  | succ n ih =>
    unfold State.cleanOut
    with_reducible
      repeat' (first | assumption | (intro _) | apply State.cleanRange_inv | refine State.cleanRange_inv' (by assumption) ?_
                         | apply State.xlateUnit_inv | refine State.xlateUnit_inv' (by assumption) ?_ | apply inv_ite_snd
                         | apply inv_ite | dsimp only | apply ih | (fail_if_no_progress apply inv_mk)
                         | refine inv_snd (by assumption) ?_ | split)
theorem State.cleanOut_inv' {s : State} {c : Nat} {p : Nat} {a0 : Nat} {a1 : Nat} {a2 : Nat} {r0} {tE : State} (hE :
    (State.cleanOut s c p a0 a1 a2) = (r0, tE)) (h_s : s.Inv) : tE.Inv := by
  have h := @State.cleanOut_inv s c p a0 a1 a2 h_s; rw [hE] at h; exact h

theorem State.cleanOuts_inv {s : State} {c : Nat} {p : Nat} {a0 : List OutDesc} (h_s : s.Inv) : (State.cleanOuts s c p
    a0).2.Inv := by
  induction a0 generalizing s c p h_s with
  | nil =>
    unfold State.cleanOuts
    with_reducible
      repeat' (first | assumption | (intro _) | apply State.cleanOut_inv | refine State.cleanOut_inv' (by assumption) ?_
                         | dsimp only | apply ih | (fail_if_no_progress apply inv_mk) | refine inv_snd (by assumption) ?_ | split)
  | cons x xs ih =>
    unfold State.cleanOuts
    with_reducible
      repeat' (first | assumption | (intro _) | apply State.cleanOut_inv | refine State.cleanOut_inv' (by assumption) ?_
                         | dsimp only | apply ih | (fail_if_no_progress apply inv_mk) | refine inv_snd (by assumption) ?_ | split)
theorem State.cleanOuts_inv' {s : State} {c : Nat} {p : Nat} {a0 : List OutDesc} {r0} {tE : State} (hE : (State.cleanOuts s
    c p a0) = (r0, tE)) (h_s : s.Inv) : tE.Inv := by
  have h := @State.cleanOuts_inv s c p a0 h_s; rw [hE] at h; exact h

theorem State.fcDpa_inv {s : State} {p : Nat} {va : Nat} {vcol : Bool} (h_s : s.Inv) : (State.fcDpa s p va vcol).2.Inv := by
  unfold State.fcDpa
  with_reducible
    repeat' (first | assumption | (intro _) | apply State.xlateUnit_inv | refine State.xlateUnit_inv' (by assumption) ?_
                     | apply State.dpaRefused_inv | refine State.dpaRefused_inv' (by assumption) ?_ | apply State.xlatUse_inv
                     | apply inv_ite_snd | apply inv_ite | dsimp only | (fail_if_no_progress apply inv_mk)
                     | refine inv_snd (by assumption) ?_ | split)
theorem State.fcDpa_inv' {s : State} {p : Nat} {va : Nat} {vcol : Bool} {r0} {tE : State} (hE : (State.fcDpa s p va vcol) =
    (r0, tE)) (h_s : s.Inv) : tE.Inv := by
  have h := @State.fcDpa_inv s p va vcol h_s; rw [hE] at h; exact h

theorem State.fcReadAt_inv {s : State} {p : Nat} {d : Nat} {len : Nat} (h_s : s.Inv) : (State.fcReadAt s p d len).2.Inv :=
    by
  unfold State.fcReadAt
  with_reducible
    repeat' (first | assumption | (intro _) | apply State.hostTake_inv | refine State.hostTake_inv' (by assumption) ?_
                     | apply State.memRead_inv | refine State.memRead_inv' (by assumption) ?_ | apply inv_ite_snd
                     | apply inv_ite | dsimp only | (fail_if_no_progress apply inv_mk) | refine inv_snd (by assumption) ?_
                     | split)
theorem State.fcReadAt_inv' {s : State} {p : Nat} {d : Nat} {len : Nat} {r0} {tE : State} (hE : (State.fcReadAt s p d len) =
    (r0, tE)) (h_s : s.Inv) : tE.Inv := by
  have h := @State.fcReadAt_inv s p d len h_s; rw [hE] at h; exact h

theorem fcLoc_inv {p : Nat} {va : Nat} {vcol : Bool}  : RunInv ((fcLoc p va vcol) : FM Nat) := by
  unfold fcLoc
  with_reducible
    repeat' (first | assumption | (intro _) | apply State.fcDpa_inv | refine State.fcDpa_inv' (by assumption) ?_ | apply run_pure
                     | apply run_throw | apply run_getThe | apply run_bind | apply run_mk | apply run_forM | apply run_mapM
                     | apply run_foldlM | apply run_forIn | apply run_elim | dsimp only | (fail_if_no_progress apply inv_mk)
                     | refine inv_snd (by assumption) ?_ | split)

theorem fcRead_inv {p : Nat} {va : Nat} {len : Nat} {vcol : Bool}  : RunInv ((fcRead p va len vcol) : FM (List Byte)) := by
  unfold fcRead
  with_reducible
    repeat' (first | assumption | (intro _) | apply State.fcReadAt_inv | refine State.fcReadAt_inv' (by assumption) ?_
                     | apply fcLoc_inv | apply run_pure | apply run_throw | apply run_getThe | apply run_bind | apply run_mk
                     | apply run_forM | apply run_mapM | apply run_foldlM | apply run_forIn | apply run_elim | dsimp only
                     | (fail_if_no_progress apply inv_mk) | refine inv_snd (by assumption) ?_ | split)

theorem fcBatch_inv {p : Nat} {bs : Nat} {batches : Nat} {rows : Nat} {r : Nat} {a0 : Nat} {a1 : Nat} {a2 : Nat}  : RunInv
    ((fcBatch p bs batches rows r a0 a1 a2) : FM (Option Nat)) := by
  induction a0 generalizing p bs batches rows r a1 a2 with
  | zero =>
    unfold fcBatch
    with_reducible
      repeat' (first | assumption | (intro _) | apply fcRead_inv | apply run_pure | apply run_throw | apply run_getThe
                         | apply run_bind | apply run_mk | apply run_forM | apply run_mapM | apply run_foldlM | apply run_forIn
                         | apply run_elim | apply run_ite | apply inv_ite | dsimp only | apply ih
                         | (fail_if_no_progress apply inv_mk) | split)
  | succ n ih =>
    unfold fcBatch
    with_reducible
      repeat' (first | assumption | (intro _) | apply fcRead_inv | apply run_pure | apply run_throw | apply run_getThe
                         | apply run_bind | apply run_mk | apply run_forM | apply run_mapM | apply run_foldlM | apply run_forIn
                         | apply run_elim | apply run_ite | apply inv_ite | dsimp only | apply ih
                         | (fail_if_no_progress apply inv_mk) | split)

theorem fcRow_inv {p : Nat} {indesc : Nat} {x : Nat × Nat}  : RunInv ((fcRow p indesc x) : FM (Nat × Nat × Nat × Bool)) :=
    by
  unfold fcRow
  with_reducible
    repeat' (first | assumption | (intro _) | apply State.fcReadAt_inv | refine State.fcReadAt_inv' (by assumption) ?_
                     | apply fcLoc_inv | apply fcRead_inv | apply fcBatch_inv | apply run_pure | apply run_throw
                     | apply run_getThe | apply run_bind | apply run_mk | apply run_forM | apply run_mapM | apply run_foldlM
                     | apply run_forIn | apply run_elim | apply run_ite | apply inv_ite | dsimp only
                     | (fail_if_no_progress apply inv_mk) | refine inv_snd (by assumption) ?_ | split)

theorem fcStage_inv {g : Leg} {n : Nat}  : RunInv ((fcStage g n) : FM (List Nat)) := by
  unfold fcStage
  with_reducible
    repeat' (first | assumption | (intro _) | apply State.fcWrite_inv | apply fcLoc_inv | apply fcRead_inv | apply fcRow_inv
                     | apply run_pure | apply run_throw | apply run_getThe | apply run_bind | apply run_mk | apply run_forM
                     | apply run_mapM | apply run_foldlM | apply run_forIn | apply run_elim | apply run_ite | apply inv_ite
                     | dsimp only | (fail_if_no_progress apply inv_mk) | split)

theorem State.acceptClose_inv {s : State} {l : Nat} {n : Nat} {rows : List Nat} (h_s : s.Inv) : (State.acceptClose s l n
    rows).Inv := by
  unfold State.acceptClose
  with_reducible
    repeat' (first | assumption | (intro _) | apply State.setLeg_inv | apply State.letIn_inv | apply State.dmFreeLeg_inv
                     | apply State.dropLegTables_inv | apply State.returnCharge_inv | dsimp only
                     | (fail_if_no_progress apply inv_mk) | split)

theorem doLegClose_inv {l : Nat} {s : State} (h_s : s.Inv) : (doLegClose l s).Inv := by
  unfold doLegClose
  with_reducible
    repeat' (first | assumption | (intro _) | apply State.letIn_inv | apply State.returnCharge_inv | apply State.closeErr_inv
                     | apply State.errLeg_inv | apply State.cleanOuts_inv | refine State.cleanOuts_inv' (by assumption) ?_
                     | apply fcStage_inv | apply State.acceptClose_inv | apply run_pure | apply run_throw | apply run_getThe
                     | apply run_bind | apply run_mk | apply run_forM | apply run_mapM | apply run_foldlM | apply run_forIn
                     | apply run_elim | apply inv_ite | dsimp only | (fail_if_no_progress apply inv_mk)
                     | refine inv_snd (by assumption) ?_ | split)

theorem takeLegClose_inv {l : Nat} {s : State} (h_s : s.Inv) : (takeLegClose l s).Inv := by
  unfold takeLegClose
  with_reducible
    repeat' (first | assumption | (intro _) | apply State.asking_inv | apply State.settle_inv | apply doLegClose_inv
                     | apply inv_ite | dsimp only | (fail_if_no_progress apply inv_mk) | split)

end Sys2Proof.Machine
end

