-- ==== Sys2Proof/Laws/MemQm.lean ====
section
/-!
SUPPORT. The state functions of Machine/Qm.lean keep the canonical form of memory.
-/
namespace Sys2Proof.Machine

open Sys2Proof

set_option linter.unusedTactic false
set_option linter.unreachableTactic false
set_option linter.unusedSimpArgs false
set_option linter.unusedVariables false

theorem State.dropDoorbell_inv {s : State} {p : Nat} (h_s : s.Inv) : (State.dropDoorbell s p).Inv := by
  unfold State.dropDoorbell
  with_reducible
    repeat' (first | assumption | (intro _) | apply State.log_inv | dsimp only | (fail_if_no_progress apply inv_mk) | split)

theorem doSqDoorbell_inv {q : Nat} {v : BitVec 32} {s : State} (h_s : s.Inv) : (doSqDoorbell q v s).Inv := by
  unfold doSqDoorbell
  with_reducible
    repeat' (first | assumption | (intro _) | apply State.setSq_inv | apply State.haltPart_inv | apply State.dropDoorbell_inv
                     | apply inv_ite | dsimp only | (fail_if_no_progress apply inv_mk) | split)

theorem doCqDoorbell_inv {q : Nat} {v : BitVec 32} {s : State} (h_s : s.Inv) : (doCqDoorbell q v s).Inv := by
  unfold doCqDoorbell
  with_reducible
    repeat' (first | assumption | (intro _) | apply State.setCq_inv | apply State.haltPart_inv | apply State.cqFreed_inv
                     | apply State.dropDoorbell_inv | apply inv_ite | dsimp only | (fail_if_no_progress apply inv_mk) | split)

theorem State.takeSlots_inv {q : Nat} {upTo : BitVec 32} {a0 : Nat} {a1 : State} (h_a1 : a1.Inv) : (State.takeSlots q upTo
    a0 a1).Inv := by
  induction a0 generalizing q upTo a1 h_a1 with
  | zero =>
    unfold State.takeSlots
    with_reducible
      repeat' (first | assumption | (intro _) | apply State.setSq_inv | apply State.haltPart_inv | apply State.placeEntry_inv
                         | refine optInv_elim (by assumption) ?_ | apply inv_ite | dsimp only | apply ih
                         | (fail_if_no_progress apply inv_mk) | split)
  | succ n ih =>
    unfold State.takeSlots
    with_reducible
      repeat' (first | assumption | (intro _) | apply State.setSq_inv | apply State.haltPart_inv | apply State.placeEntry_inv
                         | refine optInv_elim (by assumption) ?_ | apply inv_ite | dsimp only | apply ih
                         | (fail_if_no_progress apply inv_mk) | split)

theorem State.issueRead_inv {s : State} {q : Nat} {f : Fetch} (h_s : s.Inv) : (State.issueRead s q f).Inv := by
  unfold State.issueRead
  with_reducible
    repeat' (first | assumption | (intro _) | apply State.setSq_inv | apply State.emit_inv | apply inv_ite | dsimp only
                     | (fail_if_no_progress apply inv_mk) | split)

theorem doFetchIssue_inv {q : Nat} {s0 : State} (h_s0 : s0.Inv) : (doFetchIssue q s0).Inv := by
  unfold doFetchIssue
  with_reducible
    repeat' (first | assumption | (intro _) | apply State.sttAccess_inv | refine State.sttAccess_inv' (by assumption) ?_
                     | apply State.faultRecord_inv | apply State.haltPart_inv | apply State.parityUse_inv
                     | apply State.xlatUse_inv | apply State.takeSlots_inv | apply State.issueRead_inv | apply inv_ite
                     | dsimp only | (fail_if_no_progress apply inv_mk) | refine inv_snd (by assumption) ?_ | split)

theorem State.lineOrFree_inv {s : State} {line : Nat} (h_s : s.Inv) : (State.lineOrFree s line).2.Inv := by
  unfold State.lineOrFree
  with_reducible
    repeat' (first | assumption | (intro _) | apply State.memRead_inv | refine State.memRead_inv' (by assumption) ?_ | dsimp only
                     | (fail_if_no_progress apply inv_mk) | refine inv_snd (by assumption) ?_ | split)
theorem State.lineOrFree_inv' {s : State} {line : Nat} {r0} {tE : State} (hE : (State.lineOrFree s line) = (r0, tE)) (h_s :
    s.Inv) : tE.Inv := by
  have h := @State.lineOrFree_inv s line h_s; rw [hE] at h; exact h

theorem State.linesOrFree_inv {s : State} {line : Nat} {a0 : Nat} (h_s : s.Inv) : (State.linesOrFree s line a0).2.Inv := by
  induction a0 generalizing s line h_s with
  | zero =>
    unfold State.linesOrFree
    with_reducible
      repeat' (first | assumption | (intro _) | apply State.lineOrFree_inv | refine State.lineOrFree_inv' (by assumption) ?_
                         | dsimp only | apply ih | (fail_if_no_progress apply inv_mk) | refine inv_snd (by assumption) ?_ | split)
  | succ n ih =>
    unfold State.linesOrFree
    with_reducible
      repeat' (first | assumption | (intro _) | apply State.lineOrFree_inv | refine State.lineOrFree_inv' (by assumption) ?_
                         | dsimp only | apply ih | (fail_if_no_progress apply inv_mk) | refine inv_snd (by assumption) ?_ | split)
theorem State.linesOrFree_inv' {s : State} {line : Nat} {a0 : Nat} {r0} {tE : State} (hE : (State.linesOrFree s line a0) =
    (r0, tE)) (h_s : s.Inv) : tE.Inv := by
  have h := @State.linesOrFree_inv s line a0 h_s; rw [hE] at h; exact h

theorem doFetchData_inv {q : Nat} {data : List Byte} {s : State} (h_s : s.Inv) : (doFetchData q data s).Inv := by
  unfold doFetchData
  with_reducible
    repeat' (first | assumption | (intro _) | apply State.setSq_inv | apply State.takeSlots_inv | apply State.linesOrFree_inv
                     | refine State.linesOrFree_inv' (by assumption) ?_ | apply inv_ite | dsimp only
                     | (fail_if_no_progress apply inv_mk) | refine inv_snd (by assumption) ?_ | split)

theorem doFetchFail_inv {q : Nat} {timeout : Bool} {s : State} (h_s : s.Inv) : (doFetchFail q timeout s).Inv := by
  unfold doFetchFail
  with_reducible
    repeat' (first | assumption | (intro _) | apply State.setSq_inv | apply State.countTimeout_inv | apply State.haltPart_inv
                     | apply inv_ite | dsimp only | (fail_if_no_progress apply inv_mk) | split)

theorem doFetchReissue_inv {q : Nat} {s : State} (h_s : s.Inv) : (doFetchReissue q s).Inv := by
  unfold doFetchReissue
  with_reducible
    repeat' (first | assumption | (intro _) | apply State.issueRead_inv | apply inv_ite | dsimp only
                     | (fail_if_no_progress apply inv_mk) | split)

theorem doSqCtl_inv {q : Nat} {w : BitVec 32} {s : State} (h_s : s.Inv) : (doSqCtl q w s).Inv := by
  unfold doSqCtl
  with_reducible
    repeat' (first | assumption | (intro _) | apply State.setSq_inv | apply State.log_inv | apply State.parityUse_inv
                     | apply State.parityTaken_inv | apply inv_ite | dsimp only | (fail_if_no_progress apply inv_mk) | split)

theorem doCqCtl_inv {q : Nat} {w : BitVec 32} {s : State} (h_s : s.Inv) : (doCqCtl q w s).Inv := by
  unfold doCqCtl
  with_reducible
    repeat' (first | assumption | (intro _) | apply State.setCq_inv | apply State.log_inv | apply State.admitAll_inv
                     | apply State.parityUse_inv | apply State.parityTaken_inv | apply State.postKept_inv | apply inv_ite
                     | dsimp only | (fail_if_no_progress apply inv_mk) | split)

end Sys2Proof.Machine
end

