-- ==== Sys2Proof/Laws/MemAdmin.lean ====
section
/-!
SUPPORT. The state functions of Machine/Admin.lean keep the canonical form of memory.
-/
namespace Sys2Proof.Machine

open Sys2Proof

set_option linter.unusedTactic false
set_option linter.unreachableTactic false
set_option linter.unusedSimpArgs false
set_option linter.unusedVariables false

theorem State.sendCopies_inv {a0 : Nat} {a1 : State} (h_a1 : a1.Inv) : (State.sendCopies a0 a1).2.Inv := by
  induction a0 generalizing a1 h_a1 with
  | zero =>
    unfold State.sendCopies
    with_reducible
      repeat' (first | assumption | (intro _) | apply State.log_inv | apply State.hostPost_inv
                         | refine State.hostPost_inv' (by assumption) ?_ | dsimp only | apply ih
                         | (fail_if_no_progress apply inv_mk) | refine inv_snd (by assumption) ?_ | split)
  | succ n ih =>
    unfold State.sendCopies
    with_reducible
      repeat' (first | assumption | (intro _) | apply State.log_inv | apply State.hostPost_inv
                         | refine State.hostPost_inv' (by assumption) ?_ | dsimp only | apply ih
                         | (fail_if_no_progress apply inv_mk) | refine inv_snd (by assumption) ?_ | split)
theorem State.sendCopies_inv' {a0 : Nat} {a1 : State} {r0} {tE : State} (hE : (State.sendCopies a0 a1) = (r0, tE)) (h_a1 :
    a1.Inv) : tE.Inv := by
  have h := @State.sendCopies_inv a0 a1 h_a1; rw [hE] at h; exact h

theorem State.hostAdmin_inv {s : State} {a : Nat} {bytes : List Byte} (h_s : s.Inv) : (State.hostAdmin s a bytes).2.Inv :=
    by
  unfold State.hostAdmin
  with_reducible
    repeat' (first | assumption | (intro _) | apply State.hostSend_inv | refine State.hostSend_inv' (by assumption) ?_
                     | dsimp only | (fail_if_no_progress apply inv_mk) | refine inv_snd (by assumption) ?_ | split)
theorem State.hostAdmin_inv' {s : State} {a : Nat} {bytes : List Byte} {r0} {tE : State} (hE : (State.hostAdmin s a bytes) =
    (r0, tE)) (h_s : s.Inv) : tE.Inv := by
  have h := @State.hostAdmin_inv s a bytes h_s; rw [hE] at h; exact h

theorem State.adminPosts_inv {a0 : Nat} {a1 : State} (h_a1 : a1.Inv) : (State.adminPosts a0 a1).2.Inv := by
  induction a0 generalizing a1 h_a1 with
  | zero =>
    unfold State.adminPosts
    with_reducible
      repeat' (first | assumption | (intro _) | apply State.log_inv | apply State.hostAdmin_inv
                         | refine State.hostAdmin_inv' (by assumption) ?_ | apply inv_ite_snd | apply inv_ite | dsimp only
                         | apply ih | (fail_if_no_progress apply inv_mk) | refine inv_snd (by assumption) ?_ | split)
  | succ n ih =>
    unfold State.adminPosts
    with_reducible
      repeat' (first | assumption | (intro _) | apply State.log_inv | apply State.hostAdmin_inv
                         | refine State.hostAdmin_inv' (by assumption) ?_ | apply inv_ite_snd | apply inv_ite | dsimp only
                         | apply ih | (fail_if_no_progress apply inv_mk) | refine inv_snd (by assumption) ?_ | split)
theorem State.adminPosts_inv' {a0 : Nat} {a1 : State} {r0} {tE : State} (hE : (State.adminPosts a0 a1) = (r0, tE)) (h_a1 :
    a1.Inv) : tE.Inv := by
  have h := @State.adminPosts_inv a0 a1 h_a1; rw [hE] at h; exact h

theorem State.adminPost_inv {s : State} (h_s : s.Inv) : (State.adminPost s).Inv := by
  unfold State.adminPost
  with_reducible
    repeat' (first | assumption | (intro _) | apply State.raise_inv | apply State.sendCopies_inv
                     | refine State.sendCopies_inv' (by assumption) ?_ | apply State.adminPosts_inv
                     | refine State.adminPosts_inv' (by assumption) ?_ | dsimp only | (fail_if_no_progress apply inv_mk)
                     | refine inv_snd (by assumption) ?_ | split)

theorem State.adminDone_inv {s : State} {cid : BitVec 16} {idx : BitVec 32} {op : Nat} {status : Nat} {result : Word} (h_s :
    s.Inv) : (State.adminDone s cid idx op status result).Inv := by
  unfold State.adminDone
  with_reducible
    repeat' (first | assumption | (intro _) | apply State.adminPost_inv | dsimp only | (fail_if_no_progress apply inv_mk) | split)

theorem State.adminDoneAll_inv {s : State} {op : Nat} {status : Nat} {l : List (BitVec 16 × BitVec 32)} (h_s : s.Inv) :
    (State.adminDoneAll s op status l).Inv := by
  unfold State.adminDoneAll
  with_reducible
    repeat' (first | assumption | (intro _) | apply State.adminDone_inv | apply inv_foldl | apply inv_foldl_snd
                     | apply inv_foldl_fst | dsimp only | (fail_if_no_progress apply inv_mk) | split)

theorem doCreatePartition_inv {cid : BitVec 16} {idx : BitVec 32} {pasid : Nat} {hostPort : Nat} {s : State} (h_s : s.Inv) :
    (doCreatePartition cid idx pasid hostPort s).Inv := by
  unfold doCreatePartition
  with_reducible
    repeat' (first | assumption | (intro _) | apply State.setPart_inv | apply State.adminDone_inv | apply inv_ite | dsimp only
                     | (fail_if_no_progress apply inv_mk) | split)

theorem State.quenchStart_inv {s : State} {p : Nat} (h_s : s.Inv) : (State.quenchStart s p).Inv := by
  unfold State.quenchStart
  with_reducible
    repeat' (first | assumption | (intro _) | apply State.setPart_inv | dsimp only | (fail_if_no_progress apply inv_mk) | split)

theorem doQuench_inv {cid : BitVec 16} {idx : BitVec 32} {p : Nat} {s : State} (h_s : s.Inv) : (doQuench cid idx p s).Inv :=
    by
  unfold doQuench
  with_reducible
    repeat' (first | assumption | (intro _) | apply State.setPart_inv | apply State.adminDone_inv | apply State.quenchStart_inv
                     | apply inv_ite | dsimp only | (fail_if_no_progress apply inv_mk) | split)

theorem doQuenchNow_inv {p : Nat} {s : State} (h_s : s.Inv) : (doQuenchNow p s).Inv := by
  unfold doQuenchNow
  with_reducible
    repeat' (first | assumption | (intro _) | apply State.log_inv | apply State.quenchStart_inv | apply inv_ite | dsimp only
                     | (fail_if_no_progress apply inv_mk) | split)

theorem doQuenchEffect_inv {p : Nat} {s : State} (h_s : s.Inv) : (doQuenchEffect p s).Inv := by
  unfold doQuenchEffect
  with_reducible
    repeat' (first | assumption | (intro _) | apply State.setPart_inv | apply State.raisePart_inv | apply State.dmQuench_inv
                     | apply State.adminDoneAll_inv | apply inv_ite | dsimp only | (fail_if_no_progress apply inv_mk) | split)

theorem State.resumePart_inv {s : State} {p : Nat} {l : List (BitVec 16 × BitVec 32)} (h_s : s.Inv) : (State.resumePart s p
    l).Inv := by
  unfold State.resumePart
  with_reducible
    repeat' (first | assumption | (intro _) | apply State.setPart_inv | apply State.raisePart_inv | apply State.admitAll_inv
                     | apply State.adminDoneAll_inv | apply doQuenchEffect_inv | apply inv_ite | dsimp only
                     | (fail_if_no_progress apply inv_mk) | split)

theorem doResume_inv {cid : BitVec 16} {idx : BitVec 32} {p : Nat} {s : State} (h_s : s.Inv) : (doResume cid idx p s).Inv :=
    by
  unfold doResume
  with_reducible
    repeat' (first | assumption | (intro _) | apply State.setPart_inv | apply State.adminDone_inv | apply State.resumePart_inv
                     | apply inv_ite | dsimp only | (fail_if_no_progress apply inv_mk) | split)

theorem doQuiesce_inv {cid : BitVec 16} {idx : BitVec 32} {p : Nat} {s : State} (h_s : s.Inv) : (doQuiesce cid idx p s).Inv
    := by
  unfold doQuiesce
  with_reducible
    repeat' (first | assumption | (intro _) | apply State.setPart_inv | apply State.raisePart_inv | apply State.dmCancelWhere_inv
                     | apply State.tick_inv | apply State.adminDone_inv | apply inv_ite | dsimp only
                     | (fail_if_no_progress apply inv_mk) | split)

theorem doQuiesceDone_inv {p : Nat} {s : State} (h_s : s.Inv) : (doQuiesceDone p s).Inv := by
  unfold doQuiesceDone
  with_reducible
    repeat' (first | assumption | (intro _) | apply State.setPart_inv | apply State.raisePart_inv | apply State.adminDoneAll_inv
                     | apply State.resumePart_inv | apply inv_ite | dsimp only | (fail_if_no_progress apply inv_mk) | split)

theorem State.createQueue_inv {s : State} {cid : BitVec 16} {idx : BitVec 32} {op : Nat} {p : Nat} {size : Nat} {base :
    Word} {event : Nat} {sq : Bool} (h_s : s.Inv) : (State.createQueue s cid idx op p size base event sq).Inv := by
  unfold State.createQueue
  with_reducible
    repeat' (first | assumption | (intro _) | apply State.setSq_inv | apply State.setCq_inv | apply State.adminDone_inv
                     | apply inv_ite | dsimp only | (fail_if_no_progress apply inv_mk) | split)

theorem doCreateCq_inv {cid : BitVec 16} {idx : BitVec 32} {p : Nat} {size : Nat} {base : Word} {event : Nat} {s : State}
    (h_s : s.Inv) : (doCreateCq cid idx p size base event s).Inv := by
  unfold doCreateCq
  with_reducible
    repeat' (first | assumption | (intro _) | apply State.createQueue_inv | dsimp only | (fail_if_no_progress apply inv_mk)
                     | split)

theorem doCreateSq_inv {cid : BitVec 16} {idx : BitVec 32} {p : Nat} {size : Nat} {base : Word} {s : State} (h_s : s.Inv) :
    (doCreateSq cid idx p size base s).Inv := by
  unfold doCreateSq
  with_reducible
    repeat' (first | assumption | (intro _) | apply State.createQueue_inv | dsimp only | (fail_if_no_progress apply inv_mk)
                     | split)

theorem doDeleteCq_inv {cid : BitVec 16} {idx : BitVec 32} {p : Nat} {ln : Nat} {s : State} (h_s : s.Inv) : (doDeleteCq cid
    idx p ln s).Inv := by
  unfold doDeleteCq
  with_reducible
    repeat' (first | assumption | (intro _) | apply State.adminDone_inv | apply inv_ite | dsimp only
                     | (fail_if_no_progress apply inv_mk) | split)

theorem doDeleteSq_inv {cid : BitVec 16} {idx : BitVec 32} {p : Nat} {ln : Nat} {s : State} (h_s : s.Inv) : (doDeleteSq cid
    idx p ln s).Inv := by
  unfold doDeleteSq
  with_reducible
    repeat' (first | assumption | (intro _) | apply State.adminDone_inv | apply inv_ite | dsimp only
                     | (fail_if_no_progress apply inv_mk) | split)

theorem State.removeCluster_inv {s : State} {p : Nat} {c : Nat} (h_s : s.Inv) : (State.removeCluster s p c).Inv := by
  unfold State.removeCluster
  with_reducible
    repeat' (first | assumption | (intro _) | apply State.setCl_inv | apply State.log_inv | apply State.dropLegs_inv
                     | apply State.unbindPipe_inv | apply inv_foldl | apply inv_foldl_snd | apply inv_foldl_fst | apply inv_ite
                     | dsimp only | (fail_if_no_progress apply inv_mk) | split)

theorem State.removeClusters_inv {s : State} {p : Nat} {old : Word} {new : Word} (h_s : s.Inv) : (State.removeClusters s p
    old new).Inv := by
  unfold State.removeClusters
  with_reducible
    repeat' (first | assumption | (intro _) | apply State.removeCluster_inv | apply inv_foldl | apply inv_foldl_snd
                     | apply inv_foldl_fst | apply inv_ite | dsimp only | (fail_if_no_progress apply inv_mk) | split)

theorem doSetResources_inv {cid : BitVec 16} {idx : BitVec 32} {p : Nat} {clusters : Word} {classM : Bool} {ceiling : Nat}
    {s : State} (h_s : s.Inv) : (doSetResources cid idx p clusters classM ceiling s).Inv := by
  unfold doSetResources
  with_reducible
    repeat' (first | assumption | (intro _) | apply State.setPart_inv | apply State.admitAll_inv | apply State.adminDone_inv
                     | apply State.removeClusters_inv | apply inv_ite | dsimp only | (fail_if_no_progress apply inv_mk) | split)

theorem doAllocJoin_inv {cid : BitVec 16} {idx : BitVec 32} {p : Nat} {c : Nat} {granules : Word} {s : State} (h_s : s.Inv)
    : (doAllocJoin cid idx p c granules s).Inv := by
  unfold doAllocJoin
  with_reducible
    repeat' (first | assumption | (intro _) | apply State.setCl_inv | apply State.adminDone_inv | apply inv_foldl
                     | apply inv_foldl_snd | apply inv_foldl_fst | apply inv_ite | dsimp only
                     | (fail_if_no_progress apply inv_mk) | split)

theorem State.setBank_inv {s : State} {b : Nat} {w : BitVec 32} (h_s : s.Inv) : (State.setBank s b w).Inv := by
  unfold State.setBank
  with_reducible
    repeat' (first | assumption | (intro _) | apply State.asaClearBank_inv | apply inv_ite | dsimp only
                     | (fail_if_no_progress apply inv_mk) | split)

theorem doAllocAsa_inv {cid : BitVec 16} {idx : BitVec 32} {p : Nat} {first : Nat} {lg : Nat} {width : Nat} {s : State} (h_s
    : s.Inv) : (doAllocAsa cid idx p first lg width s).Inv := by
  unfold doAllocAsa
  with_reducible
    repeat' (first | assumption | (intro _) | apply State.adminDone_inv | apply State.setBank_inv | apply inv_foldl
                     | apply inv_foldl_snd | apply inv_foldl_fst | apply inv_ite | dsimp only
                     | (fail_if_no_progress apply inv_mk) | split)

theorem doBindPipes_inv {cid : BitVec 16} {idx : BitVec 32} {p : Nat} {c : Nat} {first : Nat} {count : Nat} {dl : Nat} {s :
    State} (h_s : s.Inv) : (doBindPipes cid idx p c first count dl s).Inv := by
  unfold doBindPipes
  with_reducible
    repeat' (first | assumption | (intro _) | apply State.bindPipes_inv | apply State.adminDone_inv
                     | refine optInv_elim (by assumption) ?_ | apply inv_ite | dsimp only | (fail_if_no_progress apply inv_mk)
                     | split)

theorem doUnbindPipes_inv {cid : BitVec 16} {idx : BitVec 32} {p : Nat} {c : Nat} {first : Nat} {count : Nat} {s : State}
    (h_s : s.Inv) : (doUnbindPipes cid idx p c first count s).Inv := by
  unfold doUnbindPipes
  with_reducible
    repeat' (first | assumption | (intro _) | apply State.unbindPipe_inv | apply State.adminDone_inv | apply inv_foldl
                     | apply inv_foldl_snd | apply inv_foldl_fst | apply inv_ite | dsimp only
                     | (fail_if_no_progress apply inv_mk) | split)

theorem State.inboxWrite_inv {s : State} {p : Nat} {a0 : List (Nat × Nat)} {a1 : List Byte} (h_s : s.Inv) :
    (State.inboxWrite s p a0 a1).2.Inv := by
  induction a0 generalizing s p a1 h_s with
  | nil =>
    unfold State.inboxWrite
    with_reducible
      repeat' (first | assumption | (intro _) | apply State.hostPost_inv | refine State.hostPost_inv' (by assumption) ?_
                         | apply State.memWrite_inv | apply State.sttAccess_inv | refine State.sttAccess_inv' (by assumption) ?_
                         | apply State.faultRecord_inv | dsimp only | apply ih | (fail_if_no_progress apply inv_mk)
                         | refine inv_snd (by assumption) ?_ | split)
  | cons x xs ih =>
    unfold State.inboxWrite
    with_reducible
      repeat' (first | assumption | (intro _) | apply State.hostPost_inv | refine State.hostPost_inv' (by assumption) ?_
                         | apply State.memWrite_inv | apply State.sttAccess_inv | refine State.sttAccess_inv' (by assumption) ?_
                         | apply State.faultRecord_inv | dsimp only | apply ih | (fail_if_no_progress apply inv_mk)
                         | refine inv_snd (by assumption) ?_ | split)
theorem State.inboxWrite_inv' {s : State} {p : Nat} {a0 : List (Nat × Nat)} {a1 : List Byte} {r0} {tE : State} (hE :
    (State.inboxWrite s p a0 a1) = (r0, tE)) (h_s : s.Inv) : tE.Inv := by
  have h := @State.inboxWrite_inv s p a0 a1 h_s; rw [hE] at h; exact h

theorem State.inboxHeader_inv {s : State} {p : Nat} {b : Inbox} (h_s : s.Inv) : (State.inboxHeader s p b).2.Inv := by
  unfold State.inboxHeader
  with_reducible
    repeat' (first | assumption | (intro _) | apply State.inboxWrite_inv | refine State.inboxWrite_inv' (by assumption) ?_
                     | dsimp only | (fail_if_no_progress apply inv_mk) | refine inv_snd (by assumption) ?_ | split)
theorem State.inboxHeader_inv' {s : State} {p : Nat} {b : Inbox} {r0} {tE : State} (hE : (State.inboxHeader s p b) = (r0,
    tE)) (h_s : s.Inv) : tE.Inv := by
  have h := @State.inboxHeader_inv s p b h_s; rw [hE] at h; exact h

theorem doSetInbox_inv {cid : BitVec 16} {idx : BitVec 32} {p : Nat} {inbox : Nat} {base : Word} {bytes : Nat} {s : State}
    (h_s : s.Inv) : (doSetInbox cid idx p inbox base bytes s).Inv := by
  unfold doSetInbox
  with_reducible
    repeat' (first | assumption | (intro _) | apply State.setPart_inv | apply State.adminDone_inv | apply State.inboxHeader_inv
                     | refine State.inboxHeader_inv' (by assumption) ?_ | apply inv_ite | dsimp only
                     | (fail_if_no_progress apply inv_mk) | refine inv_snd (by assumption) ?_ | split)

theorem doMapEvent_inv {cid : BitVec 16} {idx : BitVec 32} {source : Nat} {port : Nat} {vector : Nat} {enable : Bool} {s :
    State} (h_s : s.Inv) : (doMapEvent cid idx source port vector enable s).Inv := by
  unfold doMapEvent
  with_reducible
    repeat' (first | assumption | (intro _) | apply State.handOver_inv | apply State.adminDone_inv | apply inv_ite | dsimp only
                     | (fail_if_no_progress apply inv_mk) | split)

theorem State.parityRewrite_inv {s : State} {p : Nat} (h_s : s.Inv) : (State.parityRewrite s p).Inv := by
  unfold State.parityRewrite
  with_reducible
    repeat' (first | assumption | (intro _) | apply inv_ite | dsimp only | (fail_if_no_progress apply inv_mk) | split)

theorem State.resetPart_inv {s : State} {p : Nat} (h_s : s.Inv) : (State.resetPart s p).Inv := by
  unfold State.resetPart
  with_reducible
    repeat' (first | assumption | (intro _) | apply State.setPart_inv | apply State.dropAllOf_inv | apply State.dropLegs_inv
                     | apply State.asaClearBank_inv | apply State.duAbort_inv | apply doQuenchEffect_inv
                     | apply State.parityRewrite_inv | apply inv_foldl | apply inv_foldl_snd | apply inv_foldl_fst
                     | apply inv_ite | dsimp only | (fail_if_no_progress apply inv_mk) | split)

theorem doResetPartition_inv {cid : BitVec 16} {idx : BitVec 32} {p : Nat} {s : State} (h_s : s.Inv) : (doResetPartition cid
    idx p s).Inv := by
  unfold doResetPartition
  with_reducible
    repeat' (first | assumption | (intro _) | apply State.raisePart_inv | apply State.admitAll_inv | apply State.adminDone_inv
                     | apply State.resetPart_inv | apply inv_ite | dsimp only | (fail_if_no_progress apply inv_mk) | split)

theorem State.dropQueues_inv {s : State} {p : Nat} (h_s : s.Inv) : (State.dropQueues s p).Inv := by
  unfold State.dropQueues
  with_reducible
    repeat' (first | assumption | (intro _) | dsimp only | (fail_if_no_progress apply inv_mk) | split)

theorem State.dropBanks_inv {s : State} {p : Nat} (h_s : s.Inv) : (State.dropBanks s p).Inv := by
  unfold State.dropBanks
  with_reducible
    repeat' (first | assumption | (intro _) | apply State.setBank_inv | apply inv_foldl | apply inv_foldl_snd
                     | apply inv_foldl_fst | apply inv_ite | dsimp only | (fail_if_no_progress apply inv_mk) | split)

theorem State.dropShares_inv {s : State} {p : Nat} (h_s : s.Inv) : (State.dropShares s p).Inv := by
  unfold State.dropShares
  with_reducible
    repeat' (first | assumption | (intro _) | apply inv_ite | dsimp only | (fail_if_no_progress apply inv_mk) | split)

theorem State.destroyPart_inv {s : State} {p : Nat} (h_s : s.Inv) : (State.destroyPart s p).Inv := by
  unfold State.destroyPart
  with_reducible
    repeat' (first | assumption | (intro _) | apply State.setPart_inv | apply State.removeClusters_inv | apply State.resetPart_inv
                     | apply State.dropQueues_inv | apply State.dropBanks_inv | apply State.dropShares_inv | dsimp only
                     | (fail_if_no_progress apply inv_mk) | split)

theorem doDestroyPartition_inv {cid : BitVec 16} {idx : BitVec 32} {p : Nat} {s : State} (h_s : s.Inv) : (doDestroyPartition
    cid idx p s).Inv := by
  unfold doDestroyPartition
  with_reducible
    repeat' (first | assumption | (intro _) | apply State.admitAll_inv | apply State.adminDone_inv | apply State.destroyPart_inv
                     | apply inv_ite | dsimp only | (fail_if_no_progress apply inv_mk) | split)

theorem State.copyOut_inv {s : State} {dest : Word} {bs : List Byte} (h_s : s.Inv) : (State.copyOut s dest bs).Inv := by
  unfold State.copyOut
  with_reducible
    repeat' (first | assumption | (intro _) | dsimp only | (fail_if_no_progress apply inv_mk) | split)

theorem doReadFixLog_inv {cid : BitVec 16} {idx : BitVec 32} {firstFix : Word} {count : Nat} {dest : Word} {s : State} (h_s
    : s.Inv) : (doReadFixLog cid idx firstFix count dest s).Inv := by
  unfold doReadFixLog
  with_reducible
    repeat' (first | assumption | (intro _) | apply State.adminDone_inv | apply State.copyOut_inv | apply inv_ite | dsimp only
                     | (fail_if_no_progress apply inv_mk) | split)

theorem doReadPartFix_inv {cid : BitVec 16} {idx : BitVec 32} {dest : Word} {s : State} (h_s : s.Inv) : (doReadPartFix cid
    idx dest s).Inv := by
  unfold doReadPartFix
  with_reducible
    repeat' (first | assumption | (intro _) | apply State.adminDone_inv | apply State.copyOut_inv | apply inv_ite | dsimp only
                     | (fail_if_no_progress apply inv_mk) | split)

theorem State.adminStart_inv {s : State} {b : List Byte} {idx : BitVec 32} (h_s : s.Inv) : (State.adminStart s b idx).Inv :=
    by
  unfold State.adminStart
  with_reducible
    repeat' (first | assumption | (intro _) | apply State.adminDone_inv | apply doCreatePartition_inv | apply doQuench_inv
                     | apply doResume_inv | apply doQuiesce_inv | apply doCreateCq_inv | apply doCreateSq_inv
                     | apply doDeleteCq_inv | apply doDeleteSq_inv | apply doSetResources_inv | apply doAllocJoin_inv
                     | apply doAllocAsa_inv | apply doBindPipes_inv | apply doUnbindPipes_inv | apply doSetInbox_inv
                     | apply doMapEvent_inv | apply doResetPartition_inv | apply doDestroyPartition_inv | apply doReadFixLog_inv
                     | apply doReadPartFix_inv | dsimp only | (fail_if_no_progress apply inv_mk) | split)

theorem State.adminMalformed_inv {s : State} {cause : Nat} (h_s : s.Inv) : (State.adminMalformed s cause).Inv := by
  unfold State.adminMalformed
  with_reducible
    repeat' (first | assumption | (intro _) | apply State.log_inv | apply State.failStop_inv | dsimp only
                     | (fail_if_no_progress apply inv_mk) | split)

theorem doAdminSqDb_inv {v : BitVec 32} {s : State} (h_s : s.Inv) : (doAdminSqDb v s).Inv := by
  unfold doAdminSqDb
  with_reducible
    repeat' (first | assumption | (intro _) | apply State.dropDoorbell_inv | apply State.adminMalformed_inv | apply inv_ite
                     | dsimp only | (fail_if_no_progress apply inv_mk) | split)

theorem doAdminCqDb_inv {v : BitVec 32} {s : State} (h_s : s.Inv) : (doAdminCqDb v s).Inv := by
  unfold doAdminCqDb
  with_reducible
    repeat' (first | assumption | (intro _) | apply State.dropDoorbell_inv | apply State.adminPost_inv
                     | apply State.adminMalformed_inv | apply inv_ite | dsimp only | (fail_if_no_progress apply inv_mk) | split)

theorem State.adminRead_inv {s : State} {f : Fetch} (h_s : s.Inv) : (State.adminRead s f).Inv := by
  unfold State.adminRead
  with_reducible
    repeat' (first | assumption | (intro _) | apply State.emit_inv | apply State.log_inv | apply inv_ite | dsimp only
                     | (fail_if_no_progress apply inv_mk) | split)

theorem State.adminUse_inv {s : State} {live : Bool} (h_s : s.Inv) : (State.adminUse s live).Inv := by
  unfold State.adminUse
  with_reducible
    repeat' (first | assumption | (intro _) | apply State.parityUse_inv | dsimp only | (fail_if_no_progress apply inv_mk) | split)

theorem doAdminFetchIssue_inv {s0 : State} (h_s0 : s0.Inv) : (doAdminFetchIssue s0).Inv := by
  unfold doAdminFetchIssue
  with_reducible
    repeat' (first | assumption | (intro _) | apply State.adminRead_inv | apply State.adminUse_inv | apply inv_ite | dsimp only
                     | (fail_if_no_progress apply inv_mk) | split)

theorem doAdminFetchData_inv {data : List Byte} {s : State} (h_s : s.Inv) : (doAdminFetchData data s).Inv := by
  unfold doAdminFetchData
  with_reducible
    repeat' (first | assumption | (intro _) | apply State.adminStart_inv | apply State.adminMalformed_inv | apply inv_ite
                     | dsimp only | (fail_if_no_progress apply inv_mk) | split)

theorem State.adminFails_inv {s : State} (h_s : s.Inv) : (State.adminFails s).Inv := by
  unfold State.adminFails
  with_reducible
    repeat' (first | assumption | (intro _) | apply State.log_inv | apply inv_ite | dsimp only
                     | (fail_if_no_progress apply inv_mk) | split)

theorem doAdminRetry_inv {s : State} (h_s : s.Inv) : (doAdminRetry s).Inv := by
  unfold doAdminRetry
  with_reducible
    repeat' (first | assumption | (intro _) | apply State.adminPost_inv | apply State.adminRead_inv | apply inv_ite | dsimp only
                     | (fail_if_no_progress apply inv_mk) | split)

theorem doAdminCtl_inv {w : BitVec 32} {s0 : State} (h_s0 : s0.Inv) : (doAdminCtl w s0).Inv := by
  unfold doAdminCtl
  with_reducible
    repeat' (first | assumption | (intro _) | apply State.log_inv | apply State.parityTaken_inv | apply State.adminPost_inv
                     | apply State.adminUse_inv | apply inv_ite | dsimp only | (fail_if_no_progress apply inv_mk) | split)

theorem adminRow_inv {bad : List (Bool × Nat)} {f : State → State} {s : State} (h_f : ∀ x0, State.Inv x0 → (f x0).Inv) (h_s
    : s.Inv) : (adminRow bad f s).Inv := by
  unfold adminRow
  with_reducible
    repeat' (first | assumption | (intro _) | apply State.adminMalformed_inv | apply inv_ite | dsimp only | apply_assumption
                     | (fail_if_no_progress apply inv_mk) | split)

end Sys2Proof.Machine
end

