-- ==== Sys2Proof/Laws/MemHost.lean ====
section
/-!
SUPPORT. The state functions of Machine/Host.lean keep the canonical form of memory.
-/
namespace Sys2Proof.Machine

open Sys2Proof

set_option linter.unusedTactic false
set_option linter.unreachableTactic false
set_option linter.unusedSimpArgs false
set_option linter.unusedVariables false

theorem State.msixFlush_inv {s : State} {h : Nat} {f : Nat → Bool} (h_s : s.Inv) : (State.msixFlush s h f).Inv := by
  unfold State.msixFlush
  with_reducible
    repeat' (first | assumption | (intro _) | apply State.setHp_inv | apply State.emit_inv | apply State.msix_inv
                     | apply inv_foldl | apply inv_foldl_snd | apply inv_foldl_fst | apply inv_ite | dsimp only
                     | (fail_if_no_progress apply inv_mk) | split)

theorem doMsixUnmask_inv {h : Nat} {x : MsixEvent} {s : State} (h_s : s.Inv) : (doMsixUnmask h x s).Inv := by
  unfold doMsixUnmask
  with_reducible
    repeat' (first | assumption | (intro _) | apply State.setHp_inv | apply State.msixFlush_inv | apply inv_ite | dsimp only
                     | (fail_if_no_progress apply inv_mk) | split)

theorem State.failPps_inv {s : State} {h : Nat} (h_s : s.Inv) : (State.failPps s h).Inv := by
  unfold State.failPps
  with_reducible
    repeat' (first | assumption | (intro _) | apply inv_ite | dsimp only | (fail_if_no_progress apply inv_mk) | split)

theorem State.failFetches_inv {s : State} {h : Nat} (h_s : s.Inv) : (State.failFetches s h).Inv := by
  unfold State.failFetches
  with_reducible
    repeat' (first | assumption | (intro _) | apply inv_ite | dsimp only | (fail_if_no_progress apply inv_mk) | split)

theorem State.linkFalls_inv {s : State} {h : Nat} (h_s : s.Inv) : (State.linkFalls s h).Inv := by
  unfold State.linkFalls
  with_reducible
    repeat' (first | assumption | (intro _) | apply State.setHp_inv | apply State.hostLost_inv | apply State.dmWakeAll_inv
                     | apply State.failPps_inv | apply State.failFetches_inv | dsimp only | (fail_if_no_progress apply inv_mk)
                     | split)

theorem doHostLinkDown_inv {h : Nat} {s : State} (h_s : s.Inv) : (doHostLinkDown h s).Inv := by
  unfold doHostLinkDown
  with_reducible
    repeat' (first | assumption | (intro _) | apply State.setHp_inv | apply State.linkFalls_inv | apply inv_ite | dsimp only
                     | (fail_if_no_progress apply inv_mk) | split)

theorem doHostLinkUp_inv {h speed : Nat} {x : LinkIn} {s : State} (h_s : s.Inv) : (doHostLinkUp h speed x s).Inv := by
  unfold doHostLinkUp
  with_reducible apply inv_ite h_s
  extract_lets k s1 s2 s3
  have h1 : s1.Inv := State.msixFlush_inv (State.setHp_inv h_s)
  have h2 : s2.Inv := by
    refine State.admitAll_inv ?_
    refine inv_foldl h1 ?_
    intro t e ht
    split
    · exact State.postKept_inv ht
    · exact ht
  have h3 : s3.Inv := by
    refine inv_foldl h2 ?_
    intro t e ht
    split
    · split
      · exact State.issueRead_inv ht
      · exact ht
    · exact ht
  split
  · split
    · split
      · exact State.adminRead_inv h3
      · exact h3
    · exact h3
  · exact h3

theorem doHostPortReset_inv {h : Nat} {s : State} (h_s : s.Inv) : (doHostPortReset h s).Inv := by
  unfold doHostPortReset
  with_reducible
    repeat' (first | assumption | (intro _) | apply State.setHp_inv | apply State.linkFalls_inv | apply inv_ite | dsimp only
                     | (fail_if_no_progress apply inv_mk) | split)

theorem doHostUnclaimed_inv {h : Nat} {posted : Bool} {s : State} (h_s : s.Inv) : (doHostUnclaimed h posted s).Inv := by
  unfold doHostUnclaimed
  with_reducible
    repeat' (first | assumption | (intro _) | apply State.emit_inv | apply State.log_inv | apply inv_ite | dsimp only
                     | (fail_if_no_progress apply inv_mk) | split)

theorem State.ppHostDone_inv {s : State} {n : Nat} {h : Nat} {d : Nat} {failed : Bool} (h_s : s.Inv) : (State.ppHostDone s n
    h d failed).Inv := by
  unfold State.ppHostDone
  with_reducible
    repeat' (first | assumption | (intro _) | apply State.setPp_inv | apply inv_ite | dsimp only
                     | (fail_if_no_progress apply inv_mk) | split)

theorem State.hostDone_inv {s : State} {h : Nat} {r : HostReq} {d : Nat} {st : Nat} (h_s : s.Inv) : (State.hostDone s h r d
    st).Inv := by
  unfold State.hostDone
  with_reducible
    repeat' (first | assumption | (intro _) | apply State.hostReturn_inv | apply State.dmWake_inv | apply State.adminFails_inv
                     | apply State.ppHostDone_inv | apply inv_ite | dsimp only | (fail_if_no_progress apply inv_mk) | split)

theorem State.hostFail_inv {s : State} {h : Nat} {r : HostReq} {d : Nat} (h_s : s.Inv) : (State.hostFail s h r d).Inv := by
  unfold State.hostFail
  with_reducible
    repeat' (first | assumption | (intro _) | apply State.hostDone_inv | dsimp only | (fail_if_no_progress apply inv_mk) | split)

theorem doHostTimeout_inv {h : Nat} {r : HostReq} {dpa : Word} {s : State} (h_s : s.Inv) : (doHostTimeout h r dpa s).Inv :=
    by
  unfold doHostTimeout
  with_reducible
    repeat' (first | assumption | (intro _) | apply State.countTimeout_inv | apply State.hostFail_inv | apply inv_ite | dsimp only
                     | (fail_if_no_progress apply inv_mk) | split)

theorem doHostCompletion_inv {h : Nat} {r : HostReq} {dpa : Word} {st : CplStatus} {data : List Byte} {s : State} (h_s : s.Inv) :
    (doHostCompletion h r dpa st data s).Inv := by
  unfold doHostCompletion
  dsimp only
  with_reducible apply inv_ite h_s
  cases st with
  | refused => exact State.hostFail_inv h_s
  | ok => exact State.hostDone_inv (inv_mk_wf (writeBytes_wf _ _ (inv_mem h_s)))
  | poisoned => exact State.hostDone_inv (inv_mk_wf (writeBytes_wf _ _ (inv_mem h_s)))

end Sys2Proof.Machine
end

