-- ==== Sys2Proof/Laws/MemDram.lean ====
section
/-!
SUPPORT. The state functions of Machine/Dram.lean keep the canonical form of memory.
-/
namespace Sys2Proof.Machine

open Sys2Proof

set_option linter.unusedTactic false
set_option linter.unreachableTactic false
set_option linter.unusedSimpArgs false
set_option linter.unusedVariables false

theorem State.eccOf_inv {s : State} {n : Nat} {x : MemError} (h_s : s.Inv) : (State.eccOf s n x).2.Inv := by
  unfold State.eccOf
  with_reducible
    repeat' (first | assumption | (intro _) | apply State.free_inv | refine State.free_inv' (by assumption) ?_ | apply inv_ite_snd
                     | apply inv_ite | dsimp only | (fail_if_no_progress apply inv_mk) | refine inv_snd (by assumption) ?_
                     | split)
theorem State.eccOf_inv' {s : State} {n : Nat} {x : MemError} {r0} {tE : State} (hE : (State.eccOf s n x) = (r0, tE)) (h_s :
    s.Inv) : tE.Inv := by
  have h := @State.eccOf_inv s n x h_s; rw [hE] at h; exact h

theorem State.eccRead_inv {s : State} {line : Nat} {e : Ecc} (h_s : s.Inv) : (State.eccRead s line e).Inv := by
  unfold State.eccRead
  with_reducible
    repeat' (first | assumption | (intro _) | apply State.memUncorrectable_inv | apply State.memCorrected_inv | apply inv_ite
                     | dsimp only | (fail_if_no_progress apply inv_mk) | split)

theorem State.eccServe_inv {s : State} {replaced : Bool} {r : MemReq} {e : Ecc} (h_s : s.Inv) : (State.eccServe s replaced r
    e).Inv := by
  unfold State.eccServe
  with_reducible
    repeat' (first | assumption | (intro _) | apply State.memUncorrectable_inv | apply State.memCorrected_inv | apply inv_ite
                     | dsimp only | (fail_if_no_progress apply inv_mk) | split)

theorem doMemServe_inv {n : Nat} {ch : Nat} {hits : List Nat} {bank : Nat} {row : Nat} {x : MemError} {s : State} (h_s :
    s.Inv) : (doMemServe n ch hits bank row x s).Inv := by
  unfold doMemServe
  with_reducible
    repeat' (first | assumption | (intro _) | apply State.setDc_inv | apply State.eccOf_inv
                     | refine State.eccOf_inv' (by assumption) ?_ | apply State.eccServe_inv | apply inv_ite | dsimp only
                     | (fail_if_no_progress apply inv_mk) | refine inv_snd (by assumption) ?_ | split)

theorem doRefreshDue_inv {n : Nat} {rank : Nat} {s : State} (h_s : s.Inv) : (doRefreshDue n rank s).Inv := by
  unfold doRefreshDue
  with_reducible
    repeat' (first | assumption | (intro _) | apply State.setDc_inv | apply inv_ite | dsimp only
                     | (fail_if_no_progress apply inv_mk) | split)

theorem doActClear_inv {n : Nat} {s : State} (h_s : s.Inv) : (doActClear n s).Inv := by
  unfold doActClear
  with_reducible
    repeat' (first | assumption | (intro _) | apply State.setDc_inv | apply inv_ite | dsimp only
                     | (fail_if_no_progress apply inv_mk) | split)

theorem doMemScrub_inv {n : Nat} {line : Nat} {x : MemError} {s : State} (h_s : s.Inv) : (doMemScrub n line x s).Inv := by
  unfold doMemScrub
  with_reducible
    repeat' (first | assumption | (intro _) | apply State.setDc_inv | apply State.eccOf_inv
                     | refine State.eccOf_inv' (by assumption) ?_ | apply State.eccRead_inv | apply inv_ite | dsimp only
                     | (fail_if_no_progress apply inv_mk) | refine inv_snd (by assumption) ?_ | split)

theorem doCorrectedWriteback_inv {n : Nat} {s : State} (h_s : s.Inv) : (doCorrectedWriteback n s).Inv := by
  unfold doCorrectedWriteback
  with_reducible
    repeat' (first | assumption | (intro _) | apply State.setDc_inv | apply inv_ite | dsimp only
                     | (fail_if_no_progress apply inv_mk) | split)

theorem doHotChange_inv {n : Nat} {dimm : Nat} {temp : Int} {s : State} (h_s : s.Inv) : (doHotChange n dimm temp s).Inv :=
    by
  unfold doHotChange
  with_reducible
    repeat' (first | assumption | (intro _) | apply State.setDc_inv | apply inv_ite | dsimp only
                     | (fail_if_no_progress apply inv_mk) | split)

end Sys2Proof.Machine
end

