-- ==== Sys2Proof/Laws/MemNvme.lean ====
section
/-!
SUPPORT. The state functions of Machine/Nvme.lean keep the canonical form of memory.
-/
namespace Sys2Proof.Machine

open Sys2Proof

set_option linter.unusedTactic false
set_option linter.unreachableTactic false
set_option linter.unusedSimpArgs false
set_option linter.unusedVariables false

theorem State.npDpa_inv {s : State} {p : Nat} {ppa : Nat} {need : Need} (h_s : s.Inv) : (State.npDpa s p ppa need).2.Inv :=
    by
  unfold State.npDpa
  with_reducible
    repeat' (first | assumption | (intro _) | apply State.sttAccess_inv | refine State.sttAccess_inv' (by assumption) ?_
                     | apply State.faultRecord_inv | apply State.xlatUse_inv | dsimp only | (fail_if_no_progress apply inv_mk)
                     | refine inv_snd (by assumption) ?_ | split)
theorem State.npDpa_inv' {s : State} {p : Nat} {ppa : Nat} {need : Need} {r0} {tE : State} (hE : (State.npDpa s p ppa need)
    = (r0, tE)) (h_s : s.Inv) : tE.Inv := by
  have h := @State.npDpa_inv s p ppa need h_s; rw [hE] at h; exact h

theorem State.npWrite_inv {s : State} {p : Nat} {d : Nat} {bs : List Byte} (h_s : s.Inv) : (State.npWrite s p d bs).Inv :=
    by
  unfold State.npWrite
  with_reducible
    repeat' (first | assumption | (intro _) | apply State.hostPost_inv | refine State.hostPost_inv' (by assumption) ?_
                     | apply State.memWrite_inv | apply inv_foldl | apply inv_foldl_snd | apply inv_foldl_fst | dsimp only
                     | (fail_if_no_progress apply inv_mk) | refine inv_snd (by assumption) ?_ | split)

theorem State.npResult_inv {s : State} {q : DriveReq} (h_s : s.Inv) : (State.npResult s q).Inv := by
  unfold State.npResult
  with_reducible
    repeat' (first | assumption | (intro _) | apply State.log_inv | apply State.hostPost_inv
                     | refine State.hostPost_inv' (by assumption) ?_ | apply State.memWrite_inv | apply State.npDpa_inv
                     | refine State.npDpa_inv' (by assumption) ?_ | apply inv_ite | dsimp only
                     | (fail_if_no_progress apply inv_mk) | refine inv_snd (by assumption) ?_ | split)

theorem State.npRemove_inv {s : State} {r : Nat} {g : Nat} (h_s : s.Inv) : (State.npRemove s r g).Inv := by
  unfold State.npRemove
  with_reducible
    repeat' (first | assumption | (intro _) | apply State.setGrant_inv | dsimp only | (fail_if_no_progress apply inv_mk) | split)

theorem State.npPush_inv {s : State} {r : Nat} {q : DriveReq} (h_s : s.Inv) : (State.npPush s r q).Inv := by
  unfold State.npPush
  with_reducible
    repeat' (first | assumption | (intro _) | apply State.setCl_inv | apply State.log_inv | apply State.dmWatch_inv
                     | apply State.npRemove_inv | apply inv_ite | dsimp only | (fail_if_no_progress apply inv_mk) | split)

theorem State.npFinish_inv {s : State} {r : Nat} {q : DriveReq} (h_s : s.Inv) : (State.npFinish s r q).Inv := by
  unfold State.npFinish
  with_reducible
    repeat' (first | assumption | (intro _) | apply State.npResult_inv | apply State.npPush_inv | dsimp only
                     | (fail_if_no_progress apply inv_mk) | split)

theorem State.npEndNow_inv {s : State} {r : Nat} {q : DriveReq} {status : Nat} (h_s : s.Inv) : (State.npEndNow s r q
    status).Inv := by
  unfold State.npEndNow
  with_reducible
    repeat' (first | assumption | (intro _) | apply State.npFinish_inv | dsimp only | (fail_if_no_progress apply inv_mk) | split)

theorem State.npBuffer_inv {s : State} {p : Nat} {need : Need} {a0 : List (Nat × Nat)} (h_s : s.Inv) : (State.npBuffer s p
    need a0).2.Inv := by
  induction a0 generalizing s p need h_s with
  | nil =>
    unfold State.npBuffer
    with_reducible
      repeat' (first | assumption | (intro _) | apply State.npDpa_inv | refine State.npDpa_inv' (by assumption) ?_ | dsimp only
                         | apply ih | (fail_if_no_progress apply inv_mk) | refine inv_snd (by assumption) ?_ | split)
  | cons x xs ih =>
    unfold State.npBuffer
    with_reducible
      repeat' (first | assumption | (intro _) | apply State.npDpa_inv | refine State.npDpa_inv' (by assumption) ?_ | dsimp only
                         | apply ih | (fail_if_no_progress apply inv_mk) | refine inv_snd (by assumption) ?_ | split)
theorem State.npBuffer_inv' {s : State} {p : Nat} {need : Need} {a0 : List (Nat × Nat)} {r0} {tE : State} (hE :
    (State.npBuffer s p need a0) = (r0, tE)) (h_s : s.Inv) : tE.Inv := by
  have h := @State.npBuffer_inv s p need a0 h_s; rw [hE] at h; exact h

theorem State.npQueue_inv {s : State} {d : Nat} {qp : Nat} {r : Nat} {win : List (Nat × Nat)} {a0 : List (Nat × Nat × Nat)}
    (h_s : s.Inv) : (State.npQueue s d qp r win a0).Inv := by
  induction a0 generalizing s d qp r win h_s with
  | nil =>
    unfold State.npQueue
    with_reducible
      repeat' (first | assumption | (intro _) | dsimp only | apply ih | (fail_if_no_progress apply inv_mk) | split)
  | cons x xs ih =>
    unfold State.npQueue
    with_reducible
      repeat' (first | assumption | (intro _) | dsimp only | apply ih | (fail_if_no_progress apply inv_mk) | split)

theorem State.npFetch_inv {s : State} {p : Nat} {a0 : List (Nat × Nat)} (h_s : s.Inv) : (State.npFetch s p a0).Inv := by
  induction a0 generalizing s p h_s with
  | nil =>
    unfold State.npFetch
    with_reducible
      repeat' (first | assumption | (intro _) | apply State.emit_inv | apply State.memUncorrectable_inv | apply inv_foldl
                         | apply inv_foldl_snd | apply inv_foldl_fst | apply inv_ite | dsimp only | apply ih
                         | (fail_if_no_progress apply inv_mk) | split)
  | cons x xs ih =>
    unfold State.npFetch
    with_reducible
      repeat' (first | assumption | (intro _) | apply State.emit_inv | apply State.memUncorrectable_inv | apply inv_foldl
                         | apply inv_foldl_snd | apply inv_foldl_fst | apply inv_ite | dsimp only | apply ih
                         | (fail_if_no_progress apply inv_mk) | split)

theorem State.npIssue_inv {s : State} {cmd : Nat} {k : DriveCmd} {q : DriveReq} (h_s : s.Inv) : (State.npIssue s cmd k
    q).Inv := by
  unfold State.npIssue
  with_reducible
    repeat' (first | assumption | (intro _) | apply State.setDrive_inv | apply State.emit_inv | apply State.npFetch_inv
                     | apply inv_ite | dsimp only | (fail_if_no_progress apply inv_mk) | split)

theorem State.npKick_inv {s : State} {d : Nat} (h_s : s.Inv) : (State.npKick s d).Inv := by
  unfold State.npKick
  with_reducible
    repeat' (first | assumption | (intro _) | apply State.npIssue_inv | apply inv_foldl | apply inv_foldl_snd
                     | apply inv_foldl_fst | apply inv_ite | dsimp only | (fail_if_no_progress apply inv_mk) | split)

theorem State.npRequest_inv {s : State} {g : Nat} {idx : BitVec 32} {b : List Byte} (h_s : s.Inv) : (State.npRequest s g idx
    b).Inv := by
  unfold State.npRequest
  with_reducible
    repeat' (first | assumption | (intro _) | apply State.npEndNow_inv | apply State.npBuffer_inv
                     | refine State.npBuffer_inv' (by assumption) ?_ | apply State.npQueue_inv | apply State.npKick_inv
                     | apply inv_ite | dsimp only | (fail_if_no_progress apply inv_mk) | refine inv_snd (by assumption) ?_
                     | split)

theorem State.npEntry_inv {s : State} {p : Nat} {d : Nat} (h_s : s.Inv) : (State.npEntry s p d).2.Inv := by
  unfold State.npEntry
  with_reducible
    repeat' (first | assumption | (intro _) | apply State.hostTake_inv | refine State.hostTake_inv' (by assumption) ?_
                     | apply State.lineOrFree_inv | refine State.lineOrFree_inv' (by assumption) ?_ | apply inv_ite_snd
                     | apply inv_ite | dsimp only | (fail_if_no_progress apply inv_mk) | refine inv_snd (by assumption) ?_
                     | split)
theorem State.npEntry_inv' {s : State} {p : Nat} {d : Nat} {r0} {tE : State} (hE : (State.npEntry s p d) = (r0, tE)) (h_s :
    s.Inv) : tE.Inv := by
  have h := @State.npEntry_inv s p d h_s; rw [hE] at h; exact h

theorem State.npPass_inv {s : State} {g : Nat} {a0 : Nat} (h_s : s.Inv) : (State.npPass s g a0).Inv := by
  induction a0 generalizing s g h_s with
  | zero =>
    unfold State.npPass
    with_reducible
      repeat' (first | assumption | (intro _) | apply State.setGrant_inv | apply State.npDpa_inv
                         | refine State.npDpa_inv' (by assumption) ?_ | apply State.npWrite_inv | apply State.npRequest_inv
                         | apply State.npEntry_inv | refine State.npEntry_inv' (by assumption) ?_ | apply inv_ite | dsimp only
                         | apply ih | (fail_if_no_progress apply inv_mk) | refine inv_snd (by assumption) ?_ | split)
  | succ n ih =>
    unfold State.npPass
    with_reducible
      repeat' (first | assumption | (intro _) | apply State.setGrant_inv | apply State.npDpa_inv
                         | refine State.npDpa_inv' (by assumption) ?_ | apply State.npWrite_inv | apply State.npRequest_inv
                         | apply State.npEntry_inv | refine State.npEntry_inv' (by assumption) ?_ | apply inv_ite | dsimp only
                         | apply ih | (fail_if_no_progress apply inv_mk) | refine inv_snd (by assumption) ?_ | split)

theorem doRingPass_inv {g : Nat} {s0 : State} (h_s0 : s0.Inv) : (doRingPass g s0).Inv := by
  unfold doRingPass
  with_reducible
    repeat' (first | assumption | (intro _) | apply State.setGrant_inv | apply State.parityUse_inv | apply State.npKick_inv
                     | apply State.npPass_inv | apply inv_ite | dsimp only | (fail_if_no_progress apply inv_mk) | split)

theorem State.grantCheck_inv {s : State} {k : Grant} (h_s : s.Inv) : (State.grantCheck s k).2.Inv := by
  unfold State.grantCheck
  with_reducible
    repeat' (first | assumption | (intro _) | apply State.sttXlate_inv | refine State.sttXlate_inv' (by assumption) ?_
                     | apply State.faultRecord_inv | apply inv_ite_snd | apply inv_ite | dsimp only
                     | (fail_if_no_progress apply inv_mk) | refine inv_snd (by assumption) ?_ | split)
theorem State.grantCheck_inv' {s : State} {k : Grant} {r0} {tE : State} (hE : (State.grantCheck s k) = (r0, tE)) (h_s :
    s.Inv) : tE.Inv := by
  have h := @State.grantCheck_inv s k h_s; rw [hE] at h; exact h

theorem doGrantCtl_inv {g : Nat} {w : Word} {s : State} (h_s : s.Inv) : (doGrantCtl g w s).Inv := by
  unfold doGrantCtl
  with_reducible
    repeat' (first | assumption | (intro _) | apply State.setGrant_inv | apply State.log_inv | apply State.parityUse_inv
                     | apply State.parityTaken_inv | apply State.npWrite_inv | apply State.grantCheck_inv
                     | refine State.grantCheck_inv' (by assumption) ?_ | apply inv_ite | dsimp only
                     | (fail_if_no_progress apply inv_mk) | refine inv_snd (by assumption) ?_ | split)

theorem State.notifyGrants_inv {s : State} {d : Nat} (h_s : s.Inv) : (State.notifyGrants s d).Inv := by
  unfold State.notifyGrants
  with_reducible
    repeat' (first | assumption | (intro _) | apply inv_ite | dsimp only | (fail_if_no_progress apply inv_mk) | split)

theorem State.npDeliver_inv {s : State} {p : Nat} {a0 : List (Nat × Nat)} {a1 : List Byte} (h_s : s.Inv) : (State.npDeliver
    s p a0 a1).Inv := by
  induction a0 generalizing s p a1 h_s with
  | nil =>
    unfold State.npDeliver
    with_reducible
      repeat' (first | assumption | (intro _) | apply State.npWrite_inv | apply inv_ite | dsimp only | apply ih
                         | (fail_if_no_progress apply inv_mk) | split)
  | cons x xs ih =>
    unfold State.npDeliver
    with_reducible
      repeat' (first | assumption | (intro _) | apply State.npWrite_inv | apply inv_ite | dsimp only | apply ih
                         | (fail_if_no_progress apply inv_mk) | split)

theorem State.npScramble_inv {s : State} {p : Nat} {k : DriveCmd} (h_s : s.Inv) : (State.npScramble s p k).Inv := by
  unfold State.npScramble
  with_reducible
    repeat' (first | assumption | (intro _) | apply State.npDeliver_inv | dsimp only | (fail_if_no_progress apply inv_mk) | split)

theorem State.npCmdEnd_inv {s : State} {cmd : Nat} {k : DriveCmd} {status : Nat} {sc : Nat} {bytes : Nat} (h_s : s.Inv) :
    (State.npCmdEnd s cmd k status sc bytes).Inv := by
  unfold State.npCmdEnd
  with_reducible
    repeat' (first | assumption | (intro _) | apply State.npFinish_inv | apply State.npKick_inv | apply inv_ite | dsimp only
                     | (fail_if_no_progress apply inv_mk) | split)

theorem doNvmeComplete_inv {cmd : Nat} {sc : BitVec 16} {data : List Byte} {s : State} (h_s : s.Inv) : (doNvmeComplete cmd
    sc data s).Inv := by
  unfold doNvmeComplete
  with_reducible
    repeat' (first | assumption | (intro _) | apply State.npDeliver_inv | apply State.npCmdEnd_inv | apply inv_ite | dsimp only
                     | (fail_if_no_progress apply inv_mk) | split)

theorem State.npAbort_inv {s : State} {cmd : Nat} {status : Nat} (h_s : s.Inv) : (State.npAbort s cmd status).Inv := by
  unfold State.npAbort
  with_reducible
    repeat' (first | assumption | (intro _) | apply State.free_inv | refine State.free_inv' (by assumption) ?_
                     | apply State.npScramble_inv | apply State.npCmdEnd_inv | apply inv_ite | dsimp only
                     | (fail_if_no_progress apply inv_mk) | refine inv_snd (by assumption) ?_ | split)

theorem doNvmeTimeout_inv {cmd : Nat} {s : State} (h_s : s.Inv) : (doNvmeTimeout cmd s).Inv := by
  unfold doNvmeTimeout
  with_reducible
    repeat' (first | assumption | (intro _) | apply State.npAbort_inv | apply inv_ite | dsimp only
                     | (fail_if_no_progress apply inv_mk) | split)

theorem doDriveCplTimeout_inv {cmd : Nat} {s : State} (h_s : s.Inv) : (doDriveCplTimeout cmd s).Inv := by
  unfold doDriveCplTimeout
  with_reducible
    repeat' (first | assumption | (intro _) | apply State.free_inv | refine State.free_inv' (by assumption) ?_
                     | apply State.npAbort_inv | apply inv_ite | dsimp only | (fail_if_no_progress apply inv_mk)
                     | refine inv_snd (by assumption) ?_ | split)

theorem doPushRetry_inv {r : Nat} {s : State} (h_s : s.Inv) : (doPushRetry r s).Inv := by
  unfold doPushRetry
  with_reducible
    repeat' (first | assumption | (intro _) | apply State.npPush_inv | apply inv_ite | dsimp only
                     | (fail_if_no_progress apply inv_mk) | split)

theorem doDriveLinkUp_inv {d : Nat} {speed : Nat} {width : Nat} {s : State} (h_s : s.Inv) : (doDriveLinkUp d speed width
    s).Inv := by
  unfold doDriveLinkUp
  with_reducible
    repeat' (first | assumption | (intro _) | apply State.setDrive_inv | apply inv_ite | dsimp only
                     | (fail_if_no_progress apply inv_mk) | split)

theorem doDriveReady_inv {d : Nat} {qp : Nat} {mqes : Nat} {xfer : Nat} {ns : List NsInfo} {s : State} (h_s : s.Inv) :
    (doDriveReady d qp mqes xfer ns s).Inv := by
  unfold doDriveReady
  with_reducible
    repeat' (first | assumption | (intro _) | apply State.setDrive_inv | apply inv_ite | dsimp only
                     | (fail_if_no_progress apply inv_mk) | split)

theorem doDriveLinkDown_inv {x : DriveLoss} {s : State} (h_s : s.Inv) : (doDriveLinkDown x s).Inv := by
  unfold doDriveLinkDown
  with_reducible
    repeat' (first | assumption | (intro _) | apply State.setDrive_inv | apply State.log_inv | apply State.npAbort_inv
                     | apply inv_foldl | apply inv_foldl_snd | apply inv_foldl_fst | apply inv_ite | dsimp only
                     | (fail_if_no_progress apply inv_mk) | split)

theorem doDriveStray_inv {d : Nat} {addr : Word} {s : State} (h_s : s.Inv) : (doDriveStray d addr s).Inv := by
  unfold doDriveStray
  with_reducible
    repeat' (first | assumption | (intro _) | apply State.emit_inv | apply State.log_inv | apply inv_ite | dsimp only
                     | (fail_if_no_progress apply inv_mk) | split)

end Sys2Proof.Machine
end

