-- ==== Sys2Proof/Laws/MemChain.lean ====
section
/-!
SUPPORT. The state functions of Machine/Chain.lean keep the canonical form of memory.
-/
namespace Sys2Proof.Machine

open Sys2Proof

set_option linter.unusedTactic false
set_option linter.unreachableTactic false
set_option linter.unusedSimpArgs false
set_option linter.unusedVariables false

theorem State.chainUpd_inv {s : State} {f : Chain → Chain} (h_s : s.Inv) : (State.chainUpd s f).Inv := by
  unfold State.chainUpd
  with_reducible
    repeat' (first | assumption | (intro _) | dsimp only | (fail_if_no_progress apply inv_mk) | split)

theorem State.sendEnum_inv {s : State} {next : Bool} {ftype : Nat} {value : Nat} {excess : Bool} {stamp : Word} {fix : Word}
    (h_s : s.Inv) : (State.sendEnum s next ftype value excess stamp fix).Inv := by
  unfold State.sendEnum
  with_reducible
    repeat' (first | assumption | (intro _) | apply State.sendPlain_inv | dsimp only | (fail_if_no_progress apply inv_mk) | split)

theorem State.enumStart_inv {s : State} (h_s : s.Inv) : (State.enumStart s).Inv := by
  unfold State.enumStart
  with_reducible
    repeat' (first | assumption | (intro _) | apply State.chainUpd_inv | apply State.sendEnum_inv | dsimp only
                     | (fail_if_no_progress apply inv_mk) | split)

theorem doEnumerate_inv {s : State} (h_s : s.Inv) : (doEnumerate s).Inv := by
  unfold doEnumerate
  with_reducible
    repeat' (first | assumption | (intro _) | apply State.log_inv | apply State.enumStart_inv | apply inv_ite | dsimp only
                     | (fail_if_no_progress apply inv_mk) | split)

theorem State.enumDone_inv {s : State} {n : Nat} {ring : Bool} {stamp : Word} {fix : Word} (h_s : s.Inv) : (State.enumDone s
    n ring stamp fix).Inv := by
  unfold State.enumDone
  with_reducible
    repeat' (first | assumption | (intro _) | apply State.chainUpd_inv | apply inv_ite | dsimp only
                     | (fail_if_no_progress apply inv_mk) | split)

theorem doEnum_inv {value : Nat} {stamp : Word} {fix : Word} {s : State} (h_s : s.Inv) : (doEnum value stamp fix s).Inv :=
    by
  unfold doEnum
  with_reducible
    repeat' (first | assumption | (intro _) | apply State.log_inv | apply State.chainUpd_inv | apply State.sendEnum_inv
                     | apply State.enumDone_inv | apply inv_ite | dsimp only | (fail_if_no_progress apply inv_mk) | split)

theorem doEnumEnd_inv {count : Nat} {excess : Bool} {stamp : Word} {fix : Word} {s : State} (h_s : s.Inv) : (doEnumEnd count
    excess stamp fix s).Inv := by
  unfold doEnumEnd
  with_reducible
    repeat' (first | assumption | (intro _) | apply State.log_inv | apply State.sendEnum_inv | apply State.enumDone_inv
                     | apply inv_ite | dsimp only | (fail_if_no_progress apply inv_mk) | split)

theorem doEnumTimeout_inv {s : State} (h_s : s.Inv) : (doEnumTimeout s).Inv := by
  unfold doEnumTimeout
  with_reducible
    repeat' (first | assumption | (intro _) | apply State.log_inv | apply State.enumStart_inv | apply inv_ite | dsimp only
                     | (fail_if_no_progress apply inv_mk) | split)

theorem State.firstTick_inv {s : State} {fresh : Bool} {l : Nat} {n : Nat} {stamp : Word} {len : Nat} {last : Bool} {lost :
    Nat} {sendStamp : Word} (h_s : s.Inv) : (State.firstTick s fresh l n stamp len last lost sendStamp).Inv := by
  unfold State.firstTick
  with_reducible
    repeat' (first | assumption | (intro _) | apply State.openLegs_inv | apply inv_ite | dsimp only
                     | (fail_if_no_progress apply inv_mk) | split)

theorem State.laterTick_inv {s : State} {l : Nat} {n : Nat} {stamp : Word} {len : Nat} {last : Bool} {lost : Nat} {sendStamp
    : Word} (h_s : s.Inv) : (State.laterTick s l n stamp len last lost sendStamp).Inv := by
  unfold State.laterTick
  with_reducible
    repeat' (first | assumption | (intro _) | apply inv_ite | dsimp only | (fail_if_no_progress apply inv_mk) | split)

theorem doTick_inv {l : Nat} {n : Nat} {stamp : Word} {len : Nat} {units : Nat} {ring : Bool} {last : Bool} {members :
    BitVec 16} {lost : Nat} {sendStamp : Word} {s : State} (h_s : s.Inv) : (doTick l n stamp len units ring last members
    lost sendStamp s).Inv := by
  unfold doTick
  with_reducible
    repeat' (first | assumption | (intro _) | apply State.becomeOrphan_inv | apply State.chainUpd_inv | apply State.firstTick_inv
                     | apply State.laterTick_inv | apply inv_ite | dsimp only | (fail_if_no_progress apply inv_mk) | split)

theorem doChainDown_inv {src : Nat} {_cause : Nat} {_lastFix : Word} {s : State} (h_s : s.Inv) : (doChainDown src _cause
    _lastFix s).Inv := by
  unfold doChainDown
  with_reducible
    repeat' (first | assumption | (intro _) | apply State.log_inv | apply State.becomeOrphan_inv | apply inv_ite | dsimp only
                     | (fail_if_no_progress apply inv_mk) | split)

theorem doOrphaned_inv {s : State} (h_s : s.Inv) : (doOrphaned s).Inv := by
  unfold doOrphaned
  with_reducible
    repeat' (first | assumption | (intro _) | apply State.becomeOrphan_inv | apply inv_ite | dsimp only
                     | (fail_if_no_progress apply inv_mk) | split)

theorem State.setInbox_inv {s : State} {p : Nat} {i : Nat} {b : Inbox} (h_s : s.Inv) : (State.setInbox s p i b).Inv := by
  unfold State.setInbox
  with_reducible
    repeat' (first | assumption | (intro _) | apply State.setPart_inv | dsimp only | (fail_if_no_progress apply inv_mk) | split)

theorem State.appendRecords_inv {s : State} {p : Nat} {i : Nat} {n : Nat} {a0 : Nat} {a1 : List Byte} {a2 : Nat} (h_s :
    s.Inv) : (State.appendRecords s p i n a0 a1 a2).2.2.Inv := by
  induction a0 generalizing s p i n a1 a2 h_s with
  | zero =>
    unfold State.appendRecords
    with_reducible
      repeat' (first | assumption | (intro _) | apply State.inboxWrite_inv | refine State.inboxWrite_inv' (by assumption) ?_
                         | apply State.setInbox_inv | apply inv_ite_snd2 | apply inv_ite | dsimp only | apply ih
                         | (fail_if_no_progress apply inv_mk) | refine inv_snd (by assumption) ?_
                         | refine inv_snd2 (by assumption) ?_ | refine inv_snd3 (by assumption) ?_ | split)
  | succ n ih =>
    unfold State.appendRecords
    with_reducible
      repeat' (first | assumption | (intro _) | apply State.inboxWrite_inv | refine State.inboxWrite_inv' (by assumption) ?_
                         | apply State.setInbox_inv | apply inv_ite_snd2 | apply inv_ite | dsimp only | apply ih
                         | (fail_if_no_progress apply inv_mk) | refine inv_snd (by assumption) ?_
                         | refine inv_snd2 (by assumption) ?_ | refine inv_snd3 (by assumption) ?_ | split)
theorem State.appendRecords_inv' {s : State} {p : Nat} {i : Nat} {n : Nat} {a0 : Nat} {a1 : List Byte} {a2 : Nat} {r0} {r1}
    {tE : State} (hE : (State.appendRecords s p i n a0 a1 a2) = (r0, r1, tE)) (h_s : s.Inv) : tE.Inv := by
  have h := @State.appendRecords_inv s p i n a0 a1 a2 h_s; rw [hE] at h; exact h

theorem State.refuse_inv {s : State} {src : Nat} {stream : BitVec 32} (h_s : s.Inv) : (State.refuse s src stream).Inv := by
  unfold State.refuse
  with_reducible
    repeat' (first | assumption | (intro _) | apply State.chainUpd_inv | apply inv_ite | dsimp only
                     | (fail_if_no_progress apply inv_mk) | split)

theorem doShuffleData_inv {src : Nat} {p : Nat} {i : Nat} {rw : Nat} {stream : BitVec 32} {first : Nat} {records : List
    Byte} {s : State} (h_s : s.Inv) : (doShuffleData src p i rw stream first records s).Inv := by
  unfold doShuffleData
  with_reducible
    repeat' (first | assumption | (intro _) | apply State.raisePart_inv | apply State.log_inv | apply State.sendMsg_inv
                     | apply State.inboxHeader_inv | refine State.inboxHeader_inv' (by assumption) ?_ | apply State.setInbox_inv
                     | apply State.appendRecords_inv | refine State.appendRecords_inv' (by assumption) ?_
                     | apply State.refuse_inv | apply inv_ite | dsimp only | (fail_if_no_progress apply inv_mk)
                     | refine inv_snd (by assumption) ?_ | refine inv_snd2 (by assumption) ?_
                     | refine inv_snd3 (by assumption) ?_ | split)

theorem doRemoteCompletion_inv {_src : Nat} {stream : BitVec 32} {first : Nat} {accepted : Nat} {status : Nat} {s : State}
    (h_s : s.Inv) : (doRemoteCompletion _src stream first accepted status s).Inv := by
  unfold doRemoteCompletion
  with_reducible
    repeat' (first | assumption | (intro _) | apply State.shuffleNext_inv | apply State.chainUpd_inv | apply inv_ite | dsimp only
                     | (fail_if_no_progress apply inv_mk) | split)

theorem doChainLinkUp_inv {l : Nat} {s : State} (h_s : s.Inv) : (doChainLinkUp l s).Inv := by
  unfold doChainLinkUp
  with_reducible
    repeat' (first | assumption | (intro _) | apply State.setLink_inv | apply State.sendFlit_inv | apply State.sendPlain_inv
                     | apply State.pump_inv | apply inv_foldl | apply inv_foldl_snd | apply inv_foldl_fst | apply inv_ite
                     | dsimp only | (fail_if_no_progress apply inv_mk) | split)

theorem doProbe_inv {l : Nat} {s : State} (h_s : s.Inv) : (doProbe l s).Inv := by
  unfold doProbe
  with_reducible
    repeat' (first | assumption | (intro _) | apply State.free_inv | refine State.free_inv' (by assumption) ?_
                     | apply State.sendPlain_inv | apply inv_ite | dsimp only | (fail_if_no_progress apply inv_mk)
                     | refine inv_snd (by assumption) ?_ | split)

theorem doProbeReply_inv {l : Nat} {rtt : Nat} {turnaround : Nat} {s : State} (h_s : s.Inv) : (doProbeReply l rtt turnaround
    s).Inv := by
  unfold doProbeReply
  with_reducible
    repeat' (first | assumption | (intro _) | apply State.setLink_inv | apply State.sendPlain_inv | apply inv_ite | dsimp only
                     | (fail_if_no_progress apply inv_mk) | split)

theorem doReplayTimeout_inv {l : Nat} {s : State} (h_s : s.Inv) : (doReplayTimeout l s).Inv := by
  unfold doReplayTimeout
  with_reducible
    repeat' (first | assumption | (intro _) | apply State.resend_inv | apply inv_ite | dsimp only
                     | (fail_if_no_progress apply inv_mk) | split)

theorem doLinkRetrain_inv {l : Nat} {s : State} (h_s : s.Inv) : (doLinkRetrain l s).Inv := by
  unfold doLinkRetrain
  with_reducible
    repeat' (first | assumption | (intro _) | apply State.setLink_inv | apply inv_ite | dsimp only
                     | (fail_if_no_progress apply inv_mk) | split)

theorem doLinkRetrainFail_inv {l : Nat} {s : State} (h_s : s.Inv) : (doLinkRetrainFail l s).Inv := by
  unfold doLinkRetrainFail
  with_reducible
    repeat' (first | assumption | (intro _) | apply State.free_inv | refine State.free_inv' (by assumption) ?_
                     | apply State.setLink_inv | apply State.pump_inv | apply inv_foldl | apply inv_foldl_snd
                     | apply inv_foldl_fst | apply inv_ite | dsimp only | (fail_if_no_progress apply inv_mk)
                     | refine inv_snd (by assumption) ?_ | split)

end Sys2Proof.Machine
end

