-- ==== Sys2Proof/Laws/MemPower.lean ====
section
/-!
SUPPORT. The state functions of Machine/Power.lean keep the canonical form of memory.
-/
namespace Sys2Proof.Machine

open Sys2Proof

set_option linter.unusedTactic false
set_option linter.unreachableTactic false
set_option linter.unusedSimpArgs false
set_option linter.unusedVariables false

theorem doThrottle_inv {mv : Nat} {s : State} (h_s : s.Inv) : (doThrottle mv s).Inv := by
  unfold doThrottle
  with_reducible
    repeat' (first | assumption | (intro _) | apply State.log_inv | apply inv_ite | dsimp only
                     | (fail_if_no_progress apply inv_mk) | split)

theorem doThrottleLift_inv {mv : Nat} {s : State} (h_s : s.Inv) : (doThrottleLift mv s).Inv := by
  unfold doThrottleLift
  with_reducible
    repeat' (first | assumption | (intro _) | apply State.log_inv | apply inv_ite | dsimp only
                     | (fail_if_no_progress apply inv_mk) | split)

theorem State.finishFix_inv {s : State} (h_s : s.Inv) : (State.finishFix s).Inv := by
  unfold State.finishFix
  with_reducible
    repeat' (first | assumption | (intro _) | apply State.restage_inv | apply State.sealRecord_inv
                     | refine State.sealRecord_inv' (by assumption) ?_ | apply inv_ite | dsimp only
                     | (fail_if_no_progress apply inv_mk) | refine inv_snd (by assumption) ?_ | split)

theorem State.scopeEnd_inv {s : State} (h_s : s.Inv) : (State.scopeEnd s).Inv := by
  unfold State.scopeEnd
  with_reducible
    repeat' (first | assumption | (intro _) | apply State.setPp_inv | apply State.errLeg_inv | apply inv_foldl
                     | apply inv_foldl_snd | apply inv_foldl_fst | dsimp only | (fail_if_no_progress apply inv_mk) | split)

theorem doPfail_inv {pin : Bool} {mv : Nat} {s : State} (h_s : s.Inv) : (doPfail pin mv s).Inv := by
  unfold doPfail
  with_reducible
    repeat' (first | assumption | (intro _) | apply State.emit_inv | apply State.log_inv | apply State.sendMsg_inv
                     | apply State.finishFix_inv | apply State.scopeEnd_inv | apply inv_ite | dsimp only
                     | (fail_if_no_progress apply inv_mk) | split)

theorem State.savedSlot_inv {s : State} {ok : Bool} {saveUs : Nat} {poison : List Nat} (h_s : s.Inv) : (State.savedSlot s ok
    saveUs poison).2.Inv := by
  unfold State.savedSlot
  with_reducible
    repeat' (first | assumption | (intro _) | apply State.free_inv | refine State.free_inv' (by assumption) ?_
                     | apply State.sysRefuse_inv | apply inv_ite_snd | apply inv_ite | dsimp only
                     | (fail_if_no_progress apply inv_mk) | refine inv_snd (by assumption) ?_ | split)
theorem State.savedSlot_inv' {s : State} {ok : Bool} {saveUs : Nat} {poison : List Nat} {r0} {tE : State} (hE :
    (State.savedSlot s ok saveUs poison) = (r0, tE)) (h_s : s.Inv) : tE.Inv := by
  have h := @State.savedSlot_inv s ok saveUs poison h_s; rw [hE] at h; exact h

theorem doSaveDone_inv {ok : Bool} {saveUs : Nat} {poison : List Nat} {s : State} (h_s : s.Inv) : (doSaveDone ok saveUs
    poison s).Inv := by
  unfold doSaveDone
  with_reducible
    repeat' (first | assumption | (intro _) | apply State.emit_inv | apply State.savedSlot_inv
                     | refine State.savedSlot_inv' (by assumption) ?_ | apply inv_ite | dsimp only
                     | (fail_if_no_progress apply inv_mk) | refine inv_snd (by assumption) ?_ | split)

theorem doHupFall_inv {s : State} (h_s : s.Inv) : (doHupFall s).Inv := by
  unfold doHupFall
  with_reducible
    repeat' (first | assumption | (intro _) | apply State.log_inv | apply inv_ite | dsimp only
                     | (fail_if_no_progress apply inv_mk) | split)

theorem doReserve_inv {s : State} (h_s : s.Inv) : (doReserve s).Inv := by
  unfold doReserve
  with_reducible
    repeat' (first | assumption | (intro _) | apply inv_ite | dsimp only | (fail_if_no_progress apply inv_mk) | split)

theorem doCoreStop_inv {k : Nat} {s : State} (h_s : s.Inv) : (doCoreStop k s).Inv := by
  unfold doCoreStop
  with_reducible
    repeat' (first | assumption | (intro _) | apply State.logSev_inv | apply State.log_inv | apply State.failStop_inv
                     | apply inv_ite | dsimp only | (fail_if_no_progress apply inv_mk) | split)

theorem doRefLost_inv {s : State} (h_s : s.Inv) : (doRefLost s).Inv := by
  unfold doRefLost
  with_reducible
    repeat' (first | assumption | (intro _) | apply State.log_inv | apply State.failStop_inv | apply inv_ite | dsimp only
                     | (fail_if_no_progress apply inv_mk) | split)

theorem State.keepCut_inv {s : State} (h_s : s.Inv) : (State.keepCut s).Inv := by
  unfold State.keepCut
  with_reducible
    repeat' (first | assumption | (intro _) | apply State.free_inv | refine State.free_inv' (by assumption) ?_ | apply inv_ite
                     | dsimp only | (fail_if_no_progress apply inv_mk) | refine inv_snd (by assumption) ?_ | split)

theorem State.enterReset_inv {s0 : State} {cause : Nat} {powerOn : Bool} (h_s0 : s0.Inv) : (State.enterReset s0 cause
    powerOn).Inv := by
  unfold State.enterReset
  with_reducible
    repeat' (first | assumption | (intro _) | apply writeBytes_wf | apply filter_wf | apply inv_mem | apply State.keepCut_inv
                     | apply inv_ite | dsimp only | (fail_if_no_progress apply inv_mk) | (fail_if_no_progress apply inv_mk_wf)
                     | split)

theorem State.requestReset_inv {s : State} {cause : Nat} (h_s : s.Inv) : (State.requestReset s cause).Inv := by
  unfold State.requestReset
  with_reducible
    repeat' (first | assumption | (intro _) | apply State.finishFix_inv | apply State.enterReset_inv | apply inv_ite | dsimp only
                     | (fail_if_no_progress apply inv_mk) | split)

theorem State.afterSave_inv {s : State} (h_s : s.Inv) : (State.afterSave s).Inv := by
  unfold State.afterSave
  with_reducible
    repeat' (first | assumption | (intro _) | apply State.enterReset_inv | apply inv_ite | dsimp only
                     | (fail_if_no_progress apply inv_mk) | split)

theorem doResetN_inv {s : State} (h_s : s.Inv) : (doResetN s).Inv := by
  unfold doResetN
  with_reducible
    repeat' (first | assumption | (intro _) | apply State.requestReset_inv | dsimp only | (fail_if_no_progress apply inv_mk)
                     | split)

theorem doDeviceReset_inv {w : BitVec 32} {s : State} (h_s : s.Inv) : (doDeviceReset w s).Inv := by
  unfold doDeviceReset
  with_reducible
    repeat' (first | assumption | (intro _) | apply State.log_inv | apply State.requestReset_inv | apply inv_ite | dsimp only
                     | (fail_if_no_progress apply inv_mk) | split)

end Sys2Proof.Machine
end

