-- ==== Sys2Proof/Laws/RegRules.lean ====
section
/-!
SUPPORT. The rules by which a register's write is shown to keep the canonical form of memory.
-/
namespace Sys2Proof.Machine

/-- A write of the register keeps the form. -/
def RegInv (r : Reg) : Prop := ∀ v s, s.Inv → (r.write v s).Inv

/-- Any register that the option holds. -/
def RegsInv (o : Option Reg) : Prop := ∀ r, o = some r → RegInv r

theorem regsInv_none : RegsInv none := fun _ h => by cases h

theorem regsInv_some {r : Reg} (h : RegInv r) : RegsInv (some r) := fun _ e => by cases e; exact h

theorem regsInv_elim {o : Option Reg} {r : Reg} (e : o = some r) (h : RegsInv o) : RegInv r := h r e

theorem regsInv_map {α : Type} {f : α → Reg} {o : Option α} (h : ∀ x, RegInv (f x)) : RegsInv (o.map f) := by
  cases o with
  | none => exact regsInv_none
  | some x => exact regsInv_some (h x)

theorem regsInv_ite {c : Prop} [Decidable c] {a b : Option Reg} (ha : RegsInv a) (hb : RegsInv b) :
    RegsInv (if c then a else b) := by
  split <;> assumption

theorem regInv_ite {c : Prop} [Decidable c] {a b : Reg} (ha : RegInv a) (hb : RegInv b) : RegInv (if c then a else b) := by
  split <;> assumption

theorem regInv_write {r : Reg} {v : Nat} {s : State} (hr : RegInv r) (h : s.Inv) : (r.write v s).Inv := hr v s h

theorem regInv_mk {b : Nat} {w f c : Bool} {o : Option Nat} {hi : Nat} {rd : State → Nat} {wr : Nat → State → State}
    (h : ∀ v s, s.Inv → (wr v s).Inv) : RegInv (Reg.mk b w f c o hi rd wr) := h

theorem regInv_status {o : Nat} {w : Bool} {f : State → Nat} : RegInv (Reg.status o w f) := fun _ _ h => h

theorem regInv_config {o : Nat} {w : Bool} {hi : Nat} {f : State → Nat} {wr : Nat → State → State}
    (h : ∀ v s, s.Inv → (wr v s).Inv) : RegInv (Reg.config o w hi f wr) := h

theorem regInv_loaded {o : Nat} {w : Bool} {f : State → Nat} : RegInv (Reg.loaded o w f) := fun _ _ h => h

theorem regInv_partScope {r : Reg} {p : State → Nat} {s : State} (h : RegInv r) : RegInv (Reg.partScope r p s) := h

end Sys2Proof.Machine
end

