-- ==== Sys2Proof/Laws/MemRegisters.lean ====
section
/-!
SUPPORT. The state functions of Machine/Registers.lean keep the canonical form of memory.
-/
namespace Sys2Proof.Machine

open Sys2Proof

set_option linter.unusedTactic false
set_option linter.unreachableTactic false
set_option linter.unusedSimpArgs false
set_option linter.unusedVariables false

theorem State.setRaw_inv {s : State} {o : Nat} {v : Nat} (h_s : s.Inv) : (State.setRaw s o v).Inv := by
  unfold State.setRaw
  with_reducible
    repeat' (first | assumption | (intro _) | dsimp only | (fail_if_no_progress apply inv_mk) | split)

theorem State.fcUpd_inv {s : State} {f : Fc → Fc} (h_s : s.Inv) : (State.fcUpd s f).Inv := by
  unfold State.fcUpd
  with_reducible
    repeat' (first | assumption | (intro _) | dsimp only | (fail_if_no_progress apply inv_mk) | split)

theorem State.shUpd_inv {s : State} {f : EpochSet → EpochSet} (h_s : s.Inv) : (State.shUpd s f).Inv := by
  unfold State.shUpd
  with_reducible
    repeat' (first | assumption | (intro _) | apply State.fcUpd_inv | dsimp only | (fail_if_no_progress apply inv_mk) | split)

theorem fcReg_inv {o : Nat} {b : Nat}  : RegsInv (fcReg o b) := by
  unfold fcReg
  with_reducible
    repeat' (first | assumption | (intro _) | apply doEpochApply_inv | apply State.fcUpd_inv | apply State.shUpd_inv
                     | exact regsInv_none | apply regsInv_some | apply regsInv_map | apply regsInv_ite | apply regInv_ite
                     | exact regInv_status | apply regInv_config | exact regInv_loaded | apply regInv_partScope
                     | refine regsInv_elim (by assumption) ?_ | (fail_if_no_progress apply regInv_mk) | apply regInv_write
                     | apply run_pure | apply run_throw | apply run_getThe | apply run_bind | apply run_mk | apply run_forM
                     | apply run_mapM | apply run_foldlM | apply run_forIn | apply run_elim | apply inv_ite_snd | apply inv_ite
                     | dsimp only | (fail_if_no_progress apply inv_mk) | split)

theorem lsReg_inv {o : Nat} {b : Nat}  : RegsInv (lsReg o b) := by
  unfold lsReg
  with_reducible
    repeat' (first | assumption | (intro _) | apply State.setRaw_inv | exact regsInv_none | apply regsInv_some | apply regsInv_map
                     | apply regsInv_ite | apply regInv_ite | exact regInv_status | apply regInv_config | exact regInv_loaded
                     | apply regInv_partScope | refine regsInv_elim (by assumption) ?_ | (fail_if_no_progress apply regInv_mk)
                     | apply regInv_write | apply inv_ite_snd | apply inv_ite | dsimp only | (fail_if_no_progress apply inv_mk)
                     | split)

theorem duReg_inv {o : Nat} {b : Nat}  : RegsInv (duReg o b) := by
  unfold duReg
  with_reducible
    repeat' (first | assumption | (intro _) | exact regsInv_none | apply regsInv_some | apply regsInv_map | apply regsInv_ite
                     | apply regInv_ite | exact regInv_status | apply regInv_config | exact regInv_loaded
                     | apply regInv_partScope | refine regsInv_elim (by assumption) ?_ | (fail_if_no_progress apply regInv_mk)
                     | apply regInv_write | apply inv_ite_snd | apply inv_ite | dsimp only | (fail_if_no_progress apply inv_mk)
                     | split)

theorem State.writeBank_inv {s : State} {k : Nat} {v : Nat} (h_s : s.Inv) : (State.writeBank s k v).Inv := by
  unfold State.writeBank
  with_reducible
    repeat' (first | assumption | (intro _) | apply State.log_inv | apply State.setBank_inv | apply inv_ite | dsimp only
                     | (fail_if_no_progress apply inv_mk) | split)

theorem asaReg_inv {o : Nat} {b : Nat}  : RegsInv (asaReg o b) := by
  unfold asaReg
  with_reducible
    repeat' (first | assumption | (intro _) | apply State.writeBank_inv | exact regsInv_none | apply regsInv_some
                     | apply regsInv_map | apply regsInv_ite | apply regInv_ite | exact regInv_status | apply regInv_config
                     | exact regInv_loaded | apply regInv_partScope | refine regsInv_elim (by assumption) ?_
                     | (fail_if_no_progress apply regInv_mk) | apply regInv_write | apply inv_ite_snd | apply inv_ite
                     | dsimp only | (fail_if_no_progress apply inv_mk) | split)

theorem State.clCtl_inv {s : State} {v : Nat} (h_s : s.Inv) : (State.clCtl s v).Inv := by
  unfold State.clCtl
  with_reducible
    repeat' (first | assumption | (intro _) | apply State.log_inv | apply State.chainUpd_inv | apply doEnumerate_inv
                     | apply inv_ite | dsimp only | (fail_if_no_progress apply inv_mk) | split)

theorem clReg_inv {relay : BitVec 32 → State → State} {o : Nat} {b : Nat} (h_relay : ∀ x0 x1, State.Inv x1 → (relay x0
    x1).Inv) : RegsInv (clReg relay o b) := by
  unfold clReg
  with_reducible
    repeat' (first | assumption | (intro _) | apply State.chainUpd_inv | apply State.clCtl_inv | exact regsInv_none
                     | apply regsInv_some | apply regsInv_map | apply regsInv_ite | apply regInv_ite | exact regInv_status
                     | apply regInv_config | exact regInv_loaded | apply regInv_partScope
                     | refine regsInv_elim (by assumption) ?_ | (fail_if_no_progress apply regInv_mk) | apply regInv_write
                     | dsimp only | apply_assumption | (fail_if_no_progress apply inv_mk) | split)

theorem State.hpCtl_inv {s : State} {h : Nat} {v : Nat} (h_s : s.Inv) : (State.hpCtl s h v).Inv := by
  unfold State.hpCtl
  with_reducible
    repeat' (first | assumption | (intro _) | apply State.setHp_inv | apply State.log_inv | apply inv_ite | dsimp only
                     | (fail_if_no_progress apply inv_mk) | split)

theorem hpReg_inv {o : Nat} {b : Nat}  : RegsInv (hpReg o b) := by
  unfold hpReg
  with_reducible
    repeat' (first | assumption | (intro _) | apply State.hpCtl_inv | exact regsInv_none | apply regsInv_some | apply regsInv_map
                     | apply regsInv_ite | apply regInv_ite | exact regInv_status | apply regInv_config | exact regInv_loaded
                     | apply regInv_partScope | refine regsInv_elim (by assumption) ?_ | (fail_if_no_progress apply regInv_mk)
                     | apply regInv_write | dsimp only | (fail_if_no_progress apply inv_mk) | split)

theorem State.npCtl_inv {s : State} {v : Nat} (h_s : s.Inv) : (State.npCtl s v).Inv := by
  unfold State.npCtl
  with_reducible
    repeat' (first | assumption | (intro _) | apply State.log_inv | apply State.setRaw_inv | apply inv_ite | dsimp only
                     | (fail_if_no_progress apply inv_mk) | split)

theorem State.shGrant_inv {s : State} {g : Nat} {f : GrantSet → GrantSet} (h_s : s.Inv) : (State.shGrant s g f).Inv := by
  unfold State.shGrant
  with_reducible
    repeat' (first | assumption | (intro _) | apply State.setGrant_inv | dsimp only | (fail_if_no_progress apply inv_mk) | split)

theorem grantFields_inv {g k b : Nat} : RegInv (grantFields g k b) := by
  unfold grantFields
  extract_lets
  split
  · exact regInv_config (fun _ _ h => doGrantCtl_inv h)
  · exact regInv_config (fun _ _ h => State.shGrant_inv h)
  · exact regInv_config (fun _ _ h => State.shGrant_inv h)
  · exact regInv_config (fun _ _ h => State.shGrant_inv h)

theorem grantReg_inv {s : State} {g : Nat} {k : Nat} {b : Nat}  : RegInv (grantReg s g k b) := by
  unfold grantReg
  with_reducible
    repeat' (first | assumption | (intro _) | apply grantFields_inv | exact regsInv_none | apply regsInv_some | apply regsInv_map
                     | apply regsInv_ite | apply regInv_ite | exact regInv_status | apply regInv_config | exact regInv_loaded
                     | apply regInv_partScope | refine regsInv_elim (by assumption) ?_ | (fail_if_no_progress apply regInv_mk)
                     | apply regInv_write | dsimp only | (fail_if_no_progress apply inv_mk) | split)

theorem npReg_inv {s : State} {o : Nat} {b : Nat}  : RegsInv (npReg s o b) := by
  unfold npReg
  with_reducible
    repeat' (first | assumption | (intro _) | apply State.npCtl_inv | apply grantReg_inv | exact regsInv_none | apply regsInv_some
                     | apply regsInv_map | apply regsInv_ite | apply regInv_ite | exact regInv_status | apply regInv_config
                     | exact regInv_loaded | apply regInv_partScope | refine regsInv_elim (by assumption) ?_
                     | (fail_if_no_progress apply regInv_mk) | apply regInv_write | apply inv_ite_snd | apply inv_ite
                     | dsimp only | (fail_if_no_progress apply inv_mk) | split)

theorem State.actCfg_inv {s : State} {n : Nat} {v : Nat} (h_s : s.Inv) : (State.actCfg s n v).Inv := by
  unfold State.actCfg
  with_reducible
    repeat' (first | assumption | (intro _) | apply State.setDc_inv | apply State.log_inv | apply inv_ite | dsimp only
                     | (fail_if_no_progress apply inv_mk) | split)

theorem dcReg_inv {o : Nat} {b : Nat}  : RegsInv (dcReg o b) := by
  unfold dcReg
  with_reducible
    repeat' (first | assumption | (intro _) | apply State.setDc_inv | apply State.actCfg_inv | exact regsInv_none
                     | apply regsInv_some | apply regsInv_map | apply regsInv_ite | apply regInv_ite | exact regInv_status
                     | apply regInv_config | exact regInv_loaded | apply regInv_partScope
                     | refine regsInv_elim (by assumption) ?_ | (fail_if_no_progress apply regInv_mk) | apply regInv_write
                     | apply inv_foldl | apply inv_foldl_snd | apply inv_foldl_fst | apply inv_ite_snd | apply inv_ite
                     | dsimp only | (fail_if_no_progress apply inv_mk) | split)

theorem State.writeSag_inv {s : State} {v : Nat} (h_s : s.Inv) : (State.writeSag s v).Inv := by
  unfold State.writeSag
  with_reducible
    repeat' (first | assumption | (intro _) | apply State.log_inv | apply State.setRaw_inv | apply inv_ite | dsimp only
                     | (fail_if_no_progress apply inv_mk) | split)

theorem State.writeTimer_inv {s : State} {v : Nat} (h_s : s.Inv) : (State.writeTimer s v).Inv := by
  unfold State.writeTimer
  with_reducible
    repeat' (first | assumption | (intro _) | apply State.log_inv | apply State.setRaw_inv | apply inv_ite | dsimp only
                     | (fail_if_no_progress apply inv_mk) | split)

theorem pmReg_inv {o : Nat} {b : Nat}  : RegsInv (pmReg o b) := by
  unfold pmReg
  with_reducible
    repeat' (first | assumption | (intro _) | apply doDeviceReset_inv | apply State.writeSag_inv | apply State.writeTimer_inv
                     | exact regsInv_none | apply regsInv_some | apply regsInv_map | apply regsInv_ite | apply regInv_ite
                     | exact regInv_status | apply regInv_config | exact regInv_loaded | apply regInv_partScope
                     | refine regsInv_elim (by assumption) ?_ | (fail_if_no_progress apply regInv_mk) | apply regInv_write
                     | apply inv_ite_snd | apply inv_ite | dsimp only | (fail_if_no_progress apply inv_mk) | split)

theorem ksReg_inv {o : Nat} {b : Nat}  : RegsInv (ksReg o b) := by
  unfold ksReg
  with_reducible
    repeat' (first | assumption | (intro _) | exact regsInv_none | apply regsInv_some | apply regsInv_map | apply regsInv_ite
                     | apply regInv_ite | exact regInv_status | apply regInv_config | exact regInv_loaded
                     | apply regInv_partScope | refine regsInv_elim (by assumption) ?_ | (fail_if_no_progress apply regInv_mk)
                     | apply regInv_write | dsimp only | (fail_if_no_progress apply inv_mk) | split)

theorem sqReg_inv {s : State} {q : Nat} {k : Nat} {b : Nat}  : RegsInv (sqReg s q k b) := by
  unfold sqReg
  with_reducible
    repeat' (first | assumption | (intro _) | apply State.setSq_inv | apply doSqCtl_inv | exact regsInv_none | apply regsInv_some
                     | apply regsInv_map | apply regsInv_ite | apply regInv_ite | exact regInv_status | apply regInv_config
                     | exact regInv_loaded | apply regInv_partScope | refine regsInv_elim (by assumption) ?_
                     | (fail_if_no_progress apply regInv_mk) | apply regInv_write | dsimp only
                     | (fail_if_no_progress apply inv_mk) | split)

theorem cqReg_inv {s : State} {q : Nat} {k : Nat} {b : Nat}  : RegsInv (cqReg s q k b) := by
  unfold cqReg
  with_reducible
    repeat' (first | assumption | (intro _) | apply State.setCq_inv | apply doCqCtl_inv | exact regsInv_none | apply regsInv_some
                     | apply regsInv_map | apply regsInv_ite | apply regInv_ite | exact regInv_status | apply regInv_config
                     | exact regInv_loaded | apply regInv_partScope | refine regsInv_elim (by assumption) ?_
                     | (fail_if_no_progress apply regInv_mk) | apply regInv_write | dsimp only
                     | (fail_if_no_progress apply inv_mk) | split)

theorem rootReg_inv {p : Nat} {k : Nat} {b : Nat}  : RegInv (rootReg p k b) := by
  unfold rootReg
  with_reducible
    repeat' (first | assumption | (intro _) | apply State.setPart_inv | exact regsInv_none | apply regsInv_some
                     | apply regsInv_map | apply regsInv_ite | apply regInv_ite | exact regInv_status | apply regInv_config
                     | exact regInv_loaded | apply regInv_partScope | refine regsInv_elim (by assumption) ?_
                     | (fail_if_no_progress apply regInv_mk) | apply regInv_write | dsimp only
                     | (fail_if_no_progress apply inv_mk) | split)

theorem State.writeQuench_inv {s : State} {v : Nat} (h_s : s.Inv) : (State.writeQuench s v).Inv := by
  unfold State.writeQuench
  with_reducible
    repeat' (first | assumption | (intro _) | apply doQuenchNow_inv | apply State.setRaw_inv | apply inv_ite | dsimp only
                     | (fail_if_no_progress apply inv_mk) | split)

theorem qmPlain_inv {o : Nat} {b : Nat}  : RegsInv (qmPlain o b) := by
  unfold qmPlain
  with_reducible
    repeat' (first | assumption | (intro _) | apply doXinvCtl_inv | apply doAdminSqDb_inv | apply doAdminCqDb_inv
                     | apply doAdminCtl_inv | apply State.setRaw_inv | apply State.writeQuench_inv | exact regsInv_none
                     | apply regsInv_some | apply regsInv_map | apply regsInv_ite | apply regInv_ite | exact regInv_status
                     | apply regInv_config | exact regInv_loaded | apply regInv_partScope
                     | refine regsInv_elim (by assumption) ?_ | (fail_if_no_progress apply regInv_mk) | apply regInv_write
                     | dsimp only | (fail_if_no_progress apply inv_mk) | split)

theorem qmTables_inv {o : Nat} {b : Nat}  : RegsInv (qmTables o b) := by
  unfold qmTables
  with_reducible
    repeat' (first | assumption | (intro _) | exact regsInv_none | apply regsInv_some | apply regsInv_map | apply regsInv_ite
                     | apply regInv_ite | exact regInv_status | apply regInv_config | exact regInv_loaded
                     | apply regInv_partScope | refine regsInv_elim (by assumption) ?_ | (fail_if_no_progress apply regInv_mk)
                     | apply regInv_write | dsimp only | (fail_if_no_progress apply inv_mk) | split)

theorem qmParts_inv {o : Nat} {b : Nat}  : RegsInv (qmParts o b) := by
  unfold qmParts
  with_reducible
    repeat' (first | assumption | (intro _) | apply doXlatCtl_inv | apply rootReg_inv | exact regsInv_none | apply regsInv_some
                     | apply regsInv_map | apply regsInv_ite | apply regInv_ite | exact regInv_status | apply regInv_config
                     | exact regInv_loaded | apply regInv_partScope | refine regsInv_elim (by assumption) ?_
                     | (fail_if_no_progress apply regInv_mk) | apply regInv_write | dsimp only
                     | (fail_if_no_progress apply inv_mk) | split)

theorem qmReg_inv {s : State} {o : Nat} {b : Nat}  : RegsInv (qmReg s o b) := by
  unfold qmReg
  with_reducible
    repeat' (first | assumption | (intro _) | apply sqReg_inv | apply cqReg_inv | apply qmPlain_inv | apply qmTables_inv
                     | apply qmParts_inv | exact regsInv_none | apply regsInv_some | apply regsInv_map | apply regsInv_ite
                     | apply regInv_ite | exact regInv_status | apply regInv_config | exact regInv_loaded
                     | apply regInv_partScope | refine regsInv_elim (by assumption) ?_ | (fail_if_no_progress apply regInv_mk)
                     | apply regInv_write | apply inv_ite_snd | apply inv_ite | dsimp only | (fail_if_no_progress apply inv_mk)
                     | split)

theorem State.l2Ctl_inv {s : State} {c : Nat} {v : Nat} (h_s : s.Inv) : (State.l2Ctl s c v).Inv := by
  unfold State.l2Ctl
  with_reducible
    repeat' (first | assumption | (intro _) | apply State.setCl_inv | apply doL2Disable_inv | apply inv_ite | dsimp only
                     | (fail_if_no_progress apply inv_mk) | split)

theorem State.l2Maint_inv {s : State} {c : Nat} {v : Nat} (h_s : s.Inv) : (State.l2Maint s c v).Inv := by
  unfold State.l2Maint
  with_reducible
    repeat' (first | assumption | (intro _) | apply State.setCl_inv | apply State.log_inv | apply doMaint_inv | apply inv_ite
                     | dsimp only | (fail_if_no_progress apply inv_mk) | split)

theorem qcReg_inv {c : Nat} {o : Nat} {b : Nat}  : RegsInv (qcReg c o b) := by
  unfold qcReg
  with_reducible
    repeat' (first | assumption | (intro _) | apply State.setCl_inv | apply doWayCfg_inv | apply State.l2Ctl_inv
                     | apply State.l2Maint_inv | exact regsInv_none | apply regsInv_some | apply regsInv_map | apply regsInv_ite
                     | apply regInv_ite | exact regInv_status | apply regInv_config | exact regInv_loaded
                     | apply regInv_partScope | refine regsInv_elim (by assumption) ?_ | (fail_if_no_progress apply regInv_mk)
                     | apply regInv_write | dsimp only | (fail_if_no_progress apply inv_mk) | split)

theorem State.writeOwner_inv {s : State} {c : Nat} {g : Nat} {v : Nat} (h_s : s.Inv) : (State.writeOwner s c g v).Inv := by
  unfold State.writeOwner
  with_reducible
    repeat' (first | assumption | (intro _) | apply State.setCl_inv | dsimp only | (fail_if_no_progress apply inv_mk) | split)

theorem clusterReg_inv {c : Nat} {o : Nat} {b : Nat}  : RegsInv (clusterReg c o b) := by
  unfold clusterReg
  with_reducible
    repeat' (first | assumption | (intro _) | apply State.setCl_inv | apply huRows_inv | refine huRows_inv' (by assumption) ?_
                     | apply qcReg_inv | apply State.writeOwner_inv | exact regsInv_none | apply regsInv_some
                     | apply regsInv_map | apply regsInv_ite | apply regInv_ite | exact regInv_status | apply regInv_config
                     | exact regInv_loaded | apply regInv_partScope | refine regsInv_elim (by assumption) ?_
                     | (fail_if_no_progress apply regInv_mk) | apply regInv_write | dsimp only
                     | (fail_if_no_progress apply inv_mk) | refine inv_snd (by assumption) ?_ | split)

theorem doorbellReg_inv {q : Nat} {o : Nat} {b : Nat}  : RegsInv (doorbellReg q o b) := by
  unfold doorbellReg
  with_reducible
    repeat' (first | assumption | (intro _) | apply doSqDoorbell_inv | apply doCqDoorbell_inv | exact regsInv_none
                     | apply regsInv_some | apply regsInv_map | apply regsInv_ite | apply regInv_ite | exact regInv_status
                     | apply regInv_config | exact regInv_loaded | apply regInv_partScope
                     | refine regsInv_elim (by assumption) ?_ | (fail_if_no_progress apply regInv_mk) | apply regInv_write
                     | dsimp only | (fail_if_no_progress apply inv_mk) | split)

theorem regFrom_inv {relay : BitVec 32 → State → State} {s : State} {o : Nat} (h_relay : ∀ x0 x1, State.Inv x1 → (relay x0
    x1).Inv) : RegsInv (regFrom relay s o) := by
  unfold regFrom
  with_reducible
    repeat' (first | assumption | (intro _) | apply fcReg_inv | apply lsReg_inv | apply duReg_inv | apply asaReg_inv
                     | apply clReg_inv | apply hpReg_inv | apply npReg_inv | apply dcReg_inv | apply pmReg_inv | apply ksReg_inv
                     | apply qmReg_inv | apply clusterReg_inv | apply doorbellReg_inv | exact regsInv_none | apply regsInv_some
                     | apply regsInv_map | apply regsInv_ite | apply regInv_ite | exact regInv_status | apply regInv_config
                     | exact regInv_loaded | apply regInv_partScope | refine regsInv_elim (by assumption) ?_
                     | (fail_if_no_progress apply regInv_mk) | apply regInv_write | apply inv_ite_snd | apply inv_ite
                     | dsimp only | apply_assumption | (fail_if_no_progress apply inv_mk) | split)

theorem regAt_inv {relay : BitVec 32 → State → State} {s : State} {o : Nat} (h_relay : ∀ x0 x1, State.Inv x1 → (relay x0
    x1).Inv) : RegsInv (regAt relay s o) := by
  unfold regAt
  with_reducible
    repeat' (first | assumption | (intro _) | apply regFrom_inv | exact regsInv_none | apply regsInv_some | apply regsInv_map
                     | apply regsInv_ite | apply regInv_ite | exact regInv_status | apply regInv_config | exact regInv_loaded
                     | apply regInv_partScope | refine regsInv_elim (by assumption) ?_ | (fail_if_no_progress apply regInv_mk)
                     | apply regInv_write | apply inv_ite_snd | apply inv_ite | dsimp only | apply_assumption
                     | (fail_if_no_progress apply inv_mk) | split)

end Sys2Proof.Machine
end

