-- ==== Sys2Proof/Laws/MemAccess.lean ====
section
/-!
SUPPORT. The state functions of Machine/Access.lean keep the canonical form of memory.
-/
namespace Sys2Proof.Machine

open Sys2Proof

set_option linter.unusedTactic false
set_option linter.unreachableTactic false
set_option linter.unusedSimpArgs false
set_option linter.unusedVariables false

theorem State.regError_inv {s : State} {who : Requester} {o : Nat} {cause : Nat} {write : Bool} (h_s : s.Inv) :
    (State.regError s who o cause write).Inv := by
  unfold State.regError
  with_reducible
    repeat' (first | assumption | (intro _) | apply inv_ite | dsimp only | (fail_if_no_progress apply inv_mk) | split)

theorem State.setLatch_inv {s : State} {l : Latch} (h_s : s.Inv) : (State.setLatch s l).Inv := by
  unfold State.setLatch
  with_reducible
    repeat' (first | assumption | (intro _) | dsimp only | (fail_if_no_progress apply inv_mk) | split)

theorem State.parityRead_inv {s : State} {r : Reg} {o : Nat} {width : Nat} (h_s : s.Inv) (h_r : RegInv r) :
    (State.parityRead s r o width).Inv := by
  unfold State.parityRead
  with_reducible
    repeat' (first | assumption | (intro _) | apply State.parityHit_inv | exact regsInv_none | apply regsInv_some
                     | apply regsInv_map | apply regsInv_ite | apply regInv_ite | exact regInv_status | apply regInv_config
                     | exact regInv_loaded | apply regInv_partScope | refine regsInv_elim (by assumption) ?_
                     | (fail_if_no_progress apply regInv_mk) | apply regInv_write | apply inv_ite | dsimp only
                     | (fail_if_no_progress apply inv_mk) | split)

theorem State.parityMade_inv {s : State} {o : Nat} {n : Nat} (h_s : s.Inv) : (State.parityMade s o n).Inv := by
  unfold State.parityMade
  with_reducible
    repeat' (first | assumption | (intro _) | dsimp only | (fail_if_no_progress apply inv_mk) | split)

theorem State.regReadAt_inv {s : State} {r : Reg} {k : Requester} {o : Nat} {width : Nat} (h_s : s.Inv) (h_r : RegInv r) :
    (State.regReadAt s r k o width).2.Inv := by
  unfold State.regReadAt
  with_reducible
    repeat' (first | assumption | (intro _) | apply State.setLatch_inv | apply State.parityRead_inv | exact regsInv_none
                     | apply regsInv_some | apply regsInv_map | apply regsInv_ite | apply regInv_ite | exact regInv_status
                     | apply regInv_config | exact regInv_loaded | apply regInv_partScope
                     | refine regsInv_elim (by assumption) ?_ | (fail_if_no_progress apply regInv_mk) | apply regInv_write
                     | apply inv_ite_snd | apply inv_ite | dsimp only | (fail_if_no_progress apply inv_mk) | split)
theorem State.regReadAt_inv' {s : State} {r : Reg} {k : Requester} {o : Nat} {width : Nat} {r0} {tE : State} (hE :
    (State.regReadAt s r k o width) = (r0, tE)) (h_s : s.Inv) (h_r : RegInv r) : tE.Inv := by
  have h := @State.regReadAt_inv s r k o width h_s h_r; rw [hE] at h; exact h

theorem State.regWriteAt_inv {s : State} {r : Reg} {k : Requester} {o : Nat} {width : Nat} {v : Nat} (h_s : s.Inv) (h_r :
    RegInv r) : (State.regWriteAt s r k o width v).Inv := by
  unfold State.regWriteAt
  with_reducible
    repeat' (first | assumption | (intro _) | apply State.setLatch_inv | apply State.parityMade_inv | exact regsInv_none
                     | apply regsInv_some | apply regsInv_map | apply regsInv_ite | apply regInv_ite | exact regInv_status
                     | apply regInv_config | exact regInv_loaded | apply regInv_partScope
                     | refine regsInv_elim (by assumption) ?_ | (fail_if_no_progress apply regInv_mk) | apply regInv_write
                     | apply inv_ite | dsimp only | (fail_if_no_progress apply inv_mk) | split)

theorem regOf_inv {relay : BitVec 32 → State → State} {s : State} {who : Requester} {o : Nat} (h_relay : ∀ x0 x1, State.Inv
    x1 → (relay x0 x1).Inv) : RegsInv (regOf relay s who o) := by
  unfold regOf
  with_reducible
    repeat' (first | assumption | (intro _) | apply regAt_inv | exact regsInv_none | apply regsInv_some | apply regsInv_map
                     | apply regsInv_ite | apply regInv_ite | exact regInv_status | apply regInv_config | exact regInv_loaded
                     | apply regInv_partScope | refine regsInv_elim (by assumption) ?_ | (fail_if_no_progress apply regInv_mk)
                     | apply regInv_write | apply inv_ite_snd | apply inv_ite | dsimp only | apply_assumption
                     | (fail_if_no_progress apply inv_mk) | split)

theorem regTry_inv {relay : BitVec 32 → State → State} {who : Requester} {o : Nat} {width : Nat} {write : Bool} {v : Nat} {s
    : State} (h_relay : ∀ x0 x1, State.Inv x1 → (relay x0 x1).Inv) (h_s : s.Inv) : (regTry relay who o width write v
    s).2.Inv := by
  unfold regTry
  with_reducible
    repeat' (first | assumption | (intro _) | apply State.regError_inv | apply State.regReadAt_inv
                     | refine State.regReadAt_inv' (by assumption) ?_ | apply State.regWriteAt_inv | apply regOf_inv
                     | exact regsInv_none | apply regsInv_some | apply regsInv_map | apply regsInv_ite | apply regInv_ite
                     | exact regInv_status | apply regInv_config | exact regInv_loaded | apply regInv_partScope
                     | refine regsInv_elim (by assumption) ?_ | (fail_if_no_progress apply regInv_mk) | apply regInv_write
                     | apply inv_ite_snd | apply inv_ite | dsimp only | apply_assumption | (fail_if_no_progress apply inv_mk)
                     | refine inv_snd (by assumption) ?_ | split)
theorem regTry_inv' {relay : BitVec 32 → State → State} {who : Requester} {o : Nat} {width : Nat} {write : Bool} {v : Nat}
    {s : State} {r0} {tE : State} (hE : (regTry relay who o width write v s) = (r0, tE)) (h_relay : ∀ x0 x1, State.Inv x1 →
    (relay x0 x1).Inv) (h_s : s.Inv) : tE.Inv := by
  have h := @regTry_inv relay who o width write v s h_relay h_s; rw [hE] at h; exact h

theorem State.relayEnds_inv {s : State} {token : BitVec 16} {status : Nat} {write : Bool} {data : Word} (h_s : s.Inv) :
    (State.relayEnds s token status write data).Inv := by
  unfold State.relayEnds
  with_reducible
    repeat' (first | assumption | (intro _) | apply State.chainUpd_inv | apply inv_ite | dsimp only
                     | (fail_if_no_progress apply inv_mk) | split)

theorem State.relayAnswer_inv {s : State} {u : Nat} {token : Option (BitVec 16)} {o : Nat} {width : Nat} {write : Bool}
    {status : Nat} {data : Word} (h_s : s.Inv) : (State.relayAnswer s u token o width write status data).Inv := by
  unfold State.relayAnswer
  with_reducible
    repeat' (first | assumption | (intro _) | apply State.sendMsg_inv | apply State.relayEnds_inv | apply inv_ite | dsimp only
                     | (fail_if_no_progress apply inv_mk) | split)

theorem State.ppRegBad_inv {s : State} {n : Nat} {o : Nat} {write : Bool} (h_s : s.Inv) : (State.ppRegBad s n o write).Inv
    := by
  unfold State.ppRegBad
  with_reducible
    repeat' (first | assumption | (intro _) | apply State.log_inv | apply State.trap_inv | apply inv_ite | dsimp only
                     | (fail_if_no_progress apply inv_mk) | split)

theorem State.regAnswer_inv {s : State} {who : Requester} {token : Option (BitVec 16)} {o : Nat} {width : Nat} {write :
    Bool} {res : Option Nat} (h_s : s.Inv) : (State.regAnswer s who token o width write res).Inv := by
  unfold State.regAnswer
  with_reducible
    repeat' (first | assumption | (intro _) | apply State.emit_inv | apply State.log_inv | apply State.relayAnswer_inv
                     | apply State.ppRegBad_inv | apply inv_ite | dsimp only | (fail_if_no_progress apply inv_mk) | split)

theorem State.coreStalls_inv {s : State} {who : Requester} (h_s : s.Inv) : (State.coreStalls s who).Inv := by
  unfold State.coreStalls
  with_reducible
    repeat' (first | assumption | (intro _) | apply doCoreStop_inv | apply inv_ite | dsimp only
                     | (fail_if_no_progress apply inv_mk) | split)

theorem State.stallIt_inv {s : State} {who : Requester} {token : Option (BitVec 16)} {o : Nat} {width : Nat} {write : Bool}
    {v : Nat} {made : Bool} (h_s : s.Inv) : (State.stallIt s who token o width write v made).Inv := by
  unfold State.stallIt
  with_reducible
    repeat' (first | assumption | (intro _) | apply State.coreStalls_inv | dsimp only | (fail_if_no_progress apply inv_mk)
                     | split)

theorem regArrive_inv {relay : BitVec 32 → State → State} {who : Requester} {token : Option (BitVec 16)} {o : Nat} {width :
    Nat} {write : Bool} {v : Nat} {s : State} (h_relay : ∀ x0 x1, State.Inv x1 → (relay x0 x1).Inv) (h_s : s.Inv) :
    (regArrive relay who token o width write v s).Inv := by
  unfold regArrive
  with_reducible
    repeat' (first | assumption | (intro _) | apply regTry_inv | refine regTry_inv' (by assumption) ?_ | apply State.regAnswer_inv
                     | apply State.stallIt_inv | apply inv_ite | dsimp only | apply_assumption
                     | (fail_if_no_progress apply inv_mk) | refine inv_snd (by assumption) ?_ | split)

theorem relayAccess_inv {u : Nat} {token : BitVec 16} {write : Bool} {wide : Bool} {o : Nat} {v : Nat} {s : State} (h_s :
    s.Inv) : (relayAccess u token write wide o v s).Inv := by
  unfold relayAccess
  with_reducible
    repeat' (first | assumption | (intro _) | apply regArrive_inv | apply inv_ite | dsimp only
                     | (fail_if_no_progress apply inv_mk) | split)

theorem doRelayGo_inv {w : BitVec 32} {s : State} (h_s : s.Inv) : (doRelayGo w s).Inv := by
  unfold doRelayGo
  with_reducible
    repeat' (first | assumption | (intro _) | apply State.log_inv | apply State.sendMsg_inv | apply State.chainUpd_inv
                     | apply relayAccess_inv | apply inv_ite | dsimp only | (fail_if_no_progress apply inv_mk) | split)

theorem doAdminRelay_inv {src : Nat} {token : BitVec 16} {write : Bool} {wide : Bool} {o : Nat} {v : Word} {s : State} (h_s
    : s.Inv) : (doAdminRelay src token write wide o v s).Inv := by
  unfold doAdminRelay
  with_reducible
    repeat' (first | assumption | (intro _) | apply relayAccess_inv | apply inv_ite | dsimp only
                     | (fail_if_no_progress apply inv_mk) | split)

theorem doRelayReply_inv {_src : Nat} {token : BitVec 16} {status : Nat} {v : Word} {s : State} (h_s : s.Inv) :
    (doRelayReply _src token status v s).Inv := by
  unfold doRelayReply
  with_reducible
    repeat' (first | assumption | (intro _) | apply State.relayEnds_inv | apply inv_ite | dsimp only
                     | (fail_if_no_progress apply inv_mk) | split)

theorem doRelayTimeout_inv {s : State} (h_s : s.Inv) : (doRelayTimeout s).Inv := by
  unfold doRelayTimeout
  with_reducible
    repeat' (first | assumption | (intro _) | apply State.chainUpd_inv | apply inv_ite | dsimp only
                     | (fail_if_no_progress apply inv_mk) | split)

theorem State.bar4Access_inv {s : State} {h : Nat} {o : Nat} {width : Nat} {write : Bool} {v : Nat} (h_s : s.Inv) :
    (State.bar4Access s h o width write v).Inv := by
  unfold State.bar4Access
  with_reducible
    repeat' (first | assumption | (intro _) | apply State.setHp_inv | apply State.msixFlush_inv | apply State.regAnswer_inv
                     | apply inv_ite | dsimp only | (fail_if_no_progress apply inv_mk) | split)

theorem doRegAccess_inv {who : Requester} {o : Nat} {width : Nat} {write : Bool} {v : Word} {s : State} (h_s : s.Inv) :
    (doRegAccess who o width write v s).Inv := by
  unfold doRegAccess
  with_reducible
    repeat' (first | assumption | (intro _) | apply doHostUnclaimed_inv | apply regArrive_inv | apply doRelayGo_inv
                     | apply State.bar4Access_inv | apply inv_ite | dsimp only | (fail_if_no_progress apply inv_mk) | split)

theorem State.dropStall_inv {s : State} {a : Stall} (h_s : s.Inv) : (State.dropStall s a).Inv := by
  unfold State.dropStall
  with_reducible
    repeat' (first | assumption | (intro _) | dsimp only | (fail_if_no_progress apply inv_mk) | split)

theorem State.drainStalls_inv {k : Requester} {a0 : Nat} {a1 : State} (h_a1 : a1.Inv) : (State.drainStalls k a0 a1).Inv :=
    by
  induction a0 generalizing k a1 h_a1 with
  | zero =>
    unfold State.drainStalls
    with_reducible
      repeat' (first | assumption | (intro _) | apply regTry_inv | refine regTry_inv' (by assumption) ?_ | apply State.regAnswer_inv
                         | apply doRelayGo_inv | apply State.dropStall_inv | apply inv_ite | dsimp only | apply ih
                         | (fail_if_no_progress apply inv_mk) | refine inv_snd (by assumption) ?_ | split)
  | succ n ih =>
    unfold State.drainStalls
    with_reducible
      repeat' (first | assumption | (intro _) | apply regTry_inv | refine regTry_inv' (by assumption) ?_ | apply State.regAnswer_inv
                         | apply doRelayGo_inv | apply State.dropStall_inv | apply inv_ite | dsimp only | apply ih
                         | (fail_if_no_progress apply inv_mk) | refine inv_snd (by assumption) ?_ | split)

theorem State.wakeStalls_inv {s : State} (h_s : s.Inv) : (State.wakeStalls s).Inv := by
  unfold State.wakeStalls
  with_reducible
    repeat' (first | assumption | (intro _) | apply State.drainStalls_inv | apply inv_foldl | apply inv_foldl_snd
                     | apply inv_foldl_fst | dsimp only | (fail_if_no_progress apply inv_mk) | split)

theorem doReplyTimer_inv {who : Requester} {s : State} (h_s : s.Inv) : (doReplyTimer who s).Inv := by
  unfold doReplyTimer
  with_reducible
    repeat' (first | assumption | (intro _) | apply State.regError_inv | apply State.ppRegBad_inv | apply State.regAnswer_inv
                     | apply State.dropStall_inv | apply State.drainStalls_inv | apply inv_ite | dsimp only
                     | (fail_if_no_progress apply inv_mk) | split)

theorem State.ppReg_inv {s : State} {n : Nat} {o : Nat} {width : Nat} {write : Bool} {v : Nat} (h_s : s.Inv) : (State.ppReg
    s n o width write v).2.Inv := by
  unfold State.ppReg
  with_reducible
    repeat' (first | assumption | (intro _) | apply regTry_inv | refine regTry_inv' (by assumption) ?_ | apply State.stallIt_inv
                     | apply doRelayGo_inv | apply State.dropStall_inv | apply inv_ite_snd | apply inv_ite | dsimp only
                     | (fail_if_no_progress apply inv_mk) | refine inv_snd (by assumption) ?_ | split)
theorem State.ppReg_inv' {s : State} {n : Nat} {o : Nat} {width : Nat} {write : Bool} {v : Nat} {r0} {tE : State} (hE :
    (State.ppReg s n o width write v) = (r0, tE)) (h_s : s.Inv) : tE.Inv := by
  have h := @State.ppReg_inv s n o width write v h_s; rw [hE] at h; exact h

end Sys2Proof.Machine
end

