-- ==== Sys2Proof/Laws/MemRelay.lean ====
section
/-!
SUPPORT. The state functions of Machine/Relay.lean keep the canonical form of memory.
-/
namespace Sys2Proof.Machine

open Sys2Proof

set_option linter.unusedTactic false
set_option linter.unreachableTactic false
set_option linter.unusedSimpArgs false
set_option linter.unusedVariables false

theorem State.discardMsg_inv {s : State} {l : Nat} {m : ChainMsg} (h_s : s.Inv) : (State.discardMsg s l m).Inv := by
  unfold State.discardMsg
  with_reducible
    repeat' (first | assumption | (intro _) | apply State.log_inv | apply State.sendMsg_inv | apply State.relayAnswer_inv
                     | apply inv_ite | dsimp only | (fail_if_no_progress apply inv_mk) | split)

theorem State.deliverMsg_inv {s : State} {l : Nat} {m : ChainMsg} (h_s : s.Inv) : (State.deliverMsg s l m).Inv := by
  unfold State.deliverMsg
  with_reducible
    repeat' (first | assumption | (intro _) | apply doFixReady_inv | apply doFix_inv | apply doTick_inv | apply doChainDown_inv
                     | apply doShuffleData_inv | apply doRemoteCompletion_inv | apply doAdminRelay_inv | apply doRelayReply_inv
                     | apply inv_ite | dsimp only | (fail_if_no_progress apply inv_mk) | split)

theorem State.takeMsg_inv {s : State} {l : Nat} {m : ChainMsg} (h_s : s.Inv) : (State.takeMsg s l m).Inv := by
  unfold State.takeMsg
  with_reducible
    repeat' (first | assumption | (intro _) | apply State.sendOn_inv | apply State.deliverMsg_inv | apply inv_ite | dsimp only
                     | (fail_if_no_progress apply inv_mk) | split)

theorem State.endMsg_inv {s : State} {l : Nat} {whole : Bool} (h_s : s.Inv) : (State.endMsg s l whole).Inv := by
  unfold State.endMsg
  with_reducible
    repeat' (first | assumption | (intro _) | apply State.setLink_inv | apply State.discardMsg_inv | apply State.takeMsg_inv
                     | apply inv_ite | dsimp only | (fail_if_no_progress apply inv_mk) | split)

theorem State.takeData_inv {s : State} {l : Nat} {flit : List Byte} (h_s : s.Inv) : (State.takeData s l flit).Inv := by
  unfold State.takeData
  with_reducible
    repeat' (first | assumption | (intro _) | apply State.setLink_inv | apply State.sendPlain_inv | apply State.endMsg_inv
                     | apply inv_ite | dsimp only | (fail_if_no_progress apply inv_mk) | split)

theorem doFlit_inv {l : Nat} {flit : List Byte} {s : State} (h_s : s.Inv) : (doFlit l flit s).Inv := by
  unfold doFlit
  with_reducible
    repeat' (first | assumption | (intro _) | apply State.takeAck_inv | apply State.resend_inv | apply State.sendNak_inv
                     | apply State.takeData_inv | apply inv_ite | dsimp only | (fail_if_no_progress apply inv_mk) | split)

end Sys2Proof.Machine
end

