-- ==== Sys2Proof/Laws/MemPpMem.lean ====
section
/-!
SUPPORT. The state functions of Machine/PpMem.lean keep the canonical form of memory.
-/
namespace Sys2Proof.Machine

open Sys2Proof

set_option linter.unusedTactic false
set_option linter.unreachableTactic false
set_option linter.unusedSimpArgs false
set_option linter.unusedVariables false

theorem State.legCheck_inv {s : State} {n : Nat} {g : Leg} {va : Nat} {need : Need} (h_s : s.Inv) : (State.legCheck s n g va
    need).2.Inv := by
  unfold State.legCheck
  with_reducible
    repeat' (first | assumption | (intro _) | apply State.log_inv | apply State.dpaRefused_inv
                     | refine State.dpaRefused_inv' (by assumption) ?_ | apply inv_ite_snd | apply inv_ite | dsimp only
                     | (fail_if_no_progress apply inv_mk) | refine inv_snd (by assumption) ?_ | split)
theorem State.legCheck_inv' {s : State} {n : Nat} {g : Leg} {va : Nat} {need : Need} {r0} {tE : State} (hE : (State.legCheck
    s n g va need) = (r0, tE)) (h_s : s.Inv) : tE.Inv := by
  have h := @State.legCheck_inv s n g va need h_s; rw [hE] at h; exact h

theorem State.ppCheck_inv {s : State} {n : Nat} {va : Nat} {need : Need} (h_s : s.Inv) : (State.ppCheck s n va need).2.Inv
    := by
  unfold State.ppCheck
  with_reducible
    repeat' (first | assumption | (intro _) | apply State.log_inv | apply State.legCheck_inv
                     | refine State.legCheck_inv' (by assumption) ?_ | dsimp only | (fail_if_no_progress apply inv_mk)
                     | refine inv_snd (by assumption) ?_ | split)
theorem State.ppCheck_inv' {s : State} {n : Nat} {va : Nat} {need : Need} {r0} {tE : State} (hE : (State.ppCheck s n va
    need) = (r0, tE)) (h_s : s.Inv) : tE.Inv := by
  have h := @State.ppCheck_inv s n va need h_s; rw [hE] at h; exact h

theorem State.takeErr_inv {s : State} {n : Nat} {va : Nat} {e : AccErr} {write : Bool} {miss : Nat} (h_s : s.Inv) :
    (State.takeErr s n va e write miss).Inv := by
  unfold State.takeErr
  with_reducible
    repeat' (first | assumption | (intro _) | apply State.trap_inv | apply State.tlbMiss_inv | apply State.accessFault_inv
                     | dsimp only | (fail_if_no_progress apply inv_mk) | split)

theorem State.accStop_inv {s : State} {n : Nat} {va : Nat} {x : AccStop} {write : Bool} {miss : Nat} (h_s : s.Inv) :
    (State.accStop s n va x write miss).Inv := by
  unfold State.accStop
  with_reducible
    repeat' (first | assumption | (intro _) | apply State.takeErr_inv | dsimp only | (fail_if_no_progress apply inv_mk) | split)

theorem State.legAddr_inv {s : State} {n : Nat} {g : Leg} {va : Nat} {need : Need} {miss : Nat} (h_s : s.Inv) : ExInv
    (State.legAddr s n g va need miss) := by
  unfold State.legAddr
  with_reducible
    repeat' (first | assumption | (intro _) | apply State.legCheck_inv | refine State.legCheck_inv' (by assumption) ?_
                     | apply State.takeErr_inv | apply exInv_ok | apply exInv_error | dsimp only
                     | (fail_if_no_progress apply inv_mk) | refine inv_snd (by assumption) ?_ | split)

theorem State.ppAddr_inv {s : State} {n : Nat} {va : Nat} {need : Need} {miss : Nat} (h_s : s.Inv) : ExInv (State.ppAddr s n
    va need miss) := by
  unfold State.ppAddr
  with_reducible
    repeat' (first | assumption | (intro _) | apply State.ppCheck_inv | refine State.ppCheck_inv' (by assumption) ?_
                     | apply State.takeErr_inv | apply exInv_ok | apply exInv_error | dsimp only
                     | (fail_if_no_progress apply inv_mk) | refine inv_snd (by assumption) ?_ | split)

theorem State.ppWaits_inv {s : State} {n : Nat} (h_s : s.Inv) : (State.ppWaits s n).Inv := by
  unfold State.ppWaits
  with_reducible
    repeat' (first | assumption | (intro _) | apply State.setPp_inv | dsimp only | (fail_if_no_progress apply inv_mk) | split)

theorem State.ppHostRead_inv {s : State} {n : Nat} {d : Nat} {size : Nat} {dev : Bool} {who : Option Nat} (h_s : s.Inv) :
    (State.ppHostRead s n d size dev who).2.Inv := by
  unfold State.ppHostRead
  with_reducible
    repeat' (first | assumption | (intro _) | apply State.setPp_inv | apply State.emit_inv | apply State.ppWaits_inv
                     | apply inv_ite_snd | apply inv_ite | dsimp only | (fail_if_no_progress apply inv_mk) | split)
theorem State.ppHostRead_inv' {s : State} {n : Nat} {d : Nat} {size : Nat} {dev : Bool} {who : Option Nat} {r0} {tE : State}
    (hE : (State.ppHostRead s n d size dev who) = (r0, tE)) (h_s : s.Inv) : tE.Inv := by
  have h := @State.ppHostRead_inv s n d size dev who h_s; rw [hE] at h; exact h

theorem State.accRead_inv {s : State} {n : Nat} {size : Nat} {a : PpAcc} {bypass : Bool} (h_s : s.Inv) : (State.accRead s n
    size a bypass).2.Inv := by
  unfold State.accRead
  with_reducible
    repeat' (first | assumption | (intro _) | apply State.ppLoadLine_inv | refine State.ppLoadLine_inv' (by assumption) ?_
                     | apply State.bypassRead_inv | refine State.bypassRead_inv' (by assumption) ?_ | apply State.ppReg_inv
                     | refine State.ppReg_inv' (by assumption) ?_ | apply State.ppWaits_inv | apply State.ppHostRead_inv
                     | refine State.ppHostRead_inv' (by assumption) ?_ | apply inv_ite_snd | apply inv_ite | dsimp only
                     | (fail_if_no_progress apply inv_mk) | refine inv_snd (by assumption) ?_ | split)
theorem State.accRead_inv' {s : State} {n : Nat} {size : Nat} {a : PpAcc} {bypass : Bool} {r0} {tE : State} (hE :
    (State.accRead s n size a bypass) = (r0, tE)) (h_s : s.Inv) : tE.Inv := by
  have h := @State.accRead_inv s n size a bypass h_s; rw [hE] at h; exact h

theorem State.memStore_inv {s : State} {n : Nat} {a : PpAcc} {bs : List Byte} (h_s : s.Inv) : (State.memStore s n a bs).Inv
    := by
  unfold State.memStore
  with_reducible
    repeat' (first | assumption | (intro _) | apply State.memWrite_inv | apply State.l2Store_inv | apply State.farCaches_inv
                     | apply inv_ite | dsimp only | (fail_if_no_progress apply inv_mk) | split)

theorem State.accWrite_inv {s : State} {n : Nat} {a : PpAcc} {bs : List Byte} (h_s : s.Inv) : (State.accWrite s n a
    bs).2.Inv := by
  unfold State.accWrite
  with_reducible
    repeat' (first | assumption | (intro _) | apply State.log_inv | apply State.hostPost_inv
                     | refine State.hostPost_inv' (by assumption) ?_ | apply State.l2Meets_inv
                     | refine State.l2Meets_inv' (by assumption) ?_ | apply State.ppReg_inv
                     | refine State.ppReg_inv' (by assumption) ?_ | apply State.ppWaits_inv | apply State.memStore_inv
                     | dsimp only | (fail_if_no_progress apply inv_mk) | refine inv_snd (by assumption) ?_ | split)
theorem State.accWrite_inv' {s : State} {n : Nat} {a : PpAcc} {bs : List Byte} {r0} {tE : State} (hE : (State.accWrite s n a
    bs) = (r0, tE)) (h_s : s.Inv) : tE.Inv := by
  have h := @State.accWrite_inv s n a bs h_s; rw [hE] at h; exact h

theorem State.accLoad_inv {s : State} {n : Nat} {va : Nat} {size : Nat} {bypass : Bool} (h_s : s.Inv) : (State.accLoad s n
    va size bypass).2.Inv := by
  unfold State.accLoad
  with_reducible
    repeat' (first | assumption | (intro _) | apply State.ppCheck_inv | refine State.ppCheck_inv' (by assumption) ?_
                     | apply State.accRead_inv | refine State.accRead_inv' (by assumption) ?_ | apply inv_ite_snd
                     | apply inv_ite | dsimp only | (fail_if_no_progress apply inv_mk) | refine inv_snd (by assumption) ?_
                     | split)
theorem State.accLoad_inv' {s : State} {n : Nat} {va : Nat} {size : Nat} {bypass : Bool} {r0} {tE : State} (hE :
    (State.accLoad s n va size bypass) = (r0, tE)) (h_s : s.Inv) : tE.Inv := by
  have h := @State.accLoad_inv s n va size bypass h_s; rw [hE] at h; exact h

theorem State.accStore_inv {s : State} {n : Nat} {va : Nat} {bs : List Byte} (h_s : s.Inv) : (State.accStore s n va
    bs).2.Inv := by
  unfold State.accStore
  with_reducible
    repeat' (first | assumption | (intro _) | apply State.ppCheck_inv | refine State.ppCheck_inv' (by assumption) ?_
                     | apply State.accWrite_inv | refine State.accWrite_inv' (by assumption) ?_ | apply inv_ite_snd
                     | apply inv_ite | dsimp only | (fail_if_no_progress apply inv_mk) | refine inv_snd (by assumption) ?_
                     | split)
theorem State.accStore_inv' {s : State} {n : Nat} {va : Nat} {bs : List Byte} {r0} {tE : State} (hE : (State.accStore s n va
    bs) = (r0, tE)) (h_s : s.Inv) : tE.Inv := by
  have h := @State.accStore_inv s n va bs h_s; rw [hE] at h; exact h

theorem loadOp_inv {n : Nat} {f : IF} {size : Nat} {signed : Bool} {bypass : Bool} {s : State} (h_s : s.Inv) : (loadOp n f
    size signed bypass s).Inv := by
  unfold loadOp
  with_reducible
    repeat' (first | assumption | (intro _) | apply ppRun_inv | apply State.wr_inv | apply State.accStop_inv
                     | apply State.accLoad_inv | refine State.accLoad_inv' (by assumption) ?_ | dsimp only
                     | (fail_if_no_progress apply inv_mk) | refine inv_snd (by assumption) ?_ | split)

theorem storeOp_inv {n : Nat} {f : SF} {size : Nat} {s : State} (h_s : s.Inv) : (storeOp n f size s).Inv := by
  unfold storeOp
  with_reducible
    repeat' (first | assumption | (intro _) | apply State.setPp_inv | apply ppRun_inv | apply State.accStop_inv
                     | apply State.accStore_inv | refine State.accStore_inv' (by assumption) ?_ | dsimp only
                     | (fail_if_no_progress apply inv_mk) | refine inv_snd (by assumption) ?_ | split)

theorem State.farAt_inv {s : State} {n : Nat} {va : Nat} {size : Nat} {d : Nat} {rd : BitVec 5} {g : Nat → Nat} (h_s :
    s.Inv) : (State.farAt s n va size d rd g).Inv := by
  unfold State.farAt
  with_reducible
    repeat' (first | assumption | (intro _) | apply State.memFar_inv | refine State.memFar_inv' (by assumption) ?_
                     | apply State.farCaches_inv | apply State.trap_inv | apply State.wr_inv | apply State.notifyGrants_inv
                     | dsimp only | (fail_if_no_progress apply inv_mk) | refine inv_snd (by assumption) ?_ | split)

theorem farOp_inv {n : Nat} {fn : Nat} {wide : Bool} {cas : Bool} {f : RF} {g : Nat → Nat → Nat → Nat → Nat} {s : State}
    (h_s : s.Inv) : (farOp n fn wide cas f g s).Inv := by
  unfold farOp
  with_reducible
    repeat' (first | assumption | (intro _) | apply State.trap_inv | apply State.accessFault_inv | apply ppRun_inv
                     | apply State.illegal_inv | apply State.ppAddr_inv | apply State.farAt_inv
                     | refine exInv_snd (by assumption) ?_ | refine exInv_fst (by assumption) ?_ | apply inv_ite | dsimp only
                     | (fail_if_no_progress apply inv_mk) | refine inv_snd (by assumption) ?_ | split)

theorem State.cleanVa_inv {s : State} {n : Nat} {part : Nat} {a0 : List Nat} {a1 : Nat} {a2 : Nat} (h_s : s.Inv) :
    (State.cleanVa s n part a0 a1 a2).Inv := by
  induction a0 generalizing s n part a1 a2 h_s with
  | nil =>
    unfold State.cleanVa
    with_reducible
      repeat' (first | assumption | (intro _) | apply State.cleanRange_inv | refine State.cleanRange_inv' (by assumption) ?_
                         | apply State.fwXlate_inv | refine State.fwXlate_inv' (by assumption) ?_ | dsimp only | apply ih
                         | (fail_if_no_progress apply inv_mk) | refine inv_snd (by assumption) ?_ | split)
  | cons x xs ih =>
    unfold State.cleanVa
    with_reducible
      repeat' (first | assumption | (intro _) | apply State.cleanRange_inv | refine State.cleanRange_inv' (by assumption) ?_
                         | apply State.fwXlate_inv | refine State.fwXlate_inv' (by assumption) ?_ | dsimp only | apply ih
                         | (fail_if_no_progress apply inv_mk) | refine inv_snd (by assumption) ?_ | split)

theorem State.fenceRange_inv {s : State} {n : Nat} {a : Nat} {len : Nat} (h_s : s.Inv) : (State.fenceRange s n a len).Inv :=
    by
  unfold State.fenceRange
  with_reducible
    repeat' (first | assumption | (intro _) | apply State.cleanRange_inv | refine State.cleanRange_inv' (by assumption) ?_
                     | apply State.cleanVa_inv | apply inv_ite | dsimp only | (fail_if_no_progress apply inv_mk)
                     | refine inv_snd (by assumption) ?_ | split)

theorem doFenceM_inv {n : Nat} {f : RF} {s : State} (h_s : s.Inv) : (doFenceM n f s).Inv := by
  unfold doFenceM
  with_reducible
    repeat' (first | assumption | (intro _) | apply State.setPp_inv | apply ppRun_inv | apply State.illegal_inv
                     | apply State.fenceRange_inv | apply inv_ite | dsimp only | (fail_if_no_progress apply inv_mk) | split)

end Sys2Proof.Machine
end

