-- ==== Sys2Proof/Laws/MemPpPipe.lean ====
section
/-!
SUPPORT. The state functions of Machine/PpPipe.lean keep the canonical form of memory.
-/
namespace Sys2Proof.Machine

open Sys2Proof

set_option linter.unusedTactic false
set_option linter.unreachableTactic false
set_option linter.unusedSimpArgs false
set_option linter.unusedVariables false

theorem pipeOp_inv {n : Nat} {fn : Nat} {f : RF} {zero : Bool} {pops : Bool} {g : State → Nat → Nat → Pipe → State} {s :
    State} (h_g : ∀ x0 x1 x2 x3, State.Inv x0 → (g x0 x1 x2 x3).Inv) (h_s : s.Inv) : (pipeOp n fn f zero pops g s).Inv := by
  unfold pipeOp
  with_reducible
    repeat' (first | assumption | (intro _) | apply State.trap_inv | apply ppRun_inv | apply State.illegal_inv | apply inv_ite
                     | dsimp only | apply_assumption | (fail_if_no_progress apply inv_mk) | split)

theorem State.setPipe_inv {s : State} {c : Nat} {i : Nat} {k : Pipe} {es : List Word} (h_s : s.Inv) : (State.setPipe s c i k
    es).Inv := by
  unfold State.setPipe
  with_reducible
    repeat' (first | assumption | (intro _) | apply State.setCl_inv | apply State.dmWatch_inv | dsimp only
                     | (fail_if_no_progress apply inv_mk) | split)

theorem State.block_inv {s : State} {n : Nat} {b : Block} (h_s : s.Inv) : (State.block s n b).Inv := by
  unfold State.block
  with_reducible
    repeat' (first | assumption | (intro _) | apply State.setPp_inv | dsimp only | (fail_if_no_progress apply inv_mk) | split)

theorem doPush_inv {n : Nat} {f : RF} {s : State} (h_s : s.Inv) : (doPush n f s).Inv := by
  unfold doPush
  with_reducible
    repeat' (first | assumption | (intro _) | apply State.setPp_inv | apply pipeOp_inv | apply State.setPipe_inv
                     | apply State.block_inv | apply inv_ite | dsimp only | (fail_if_no_progress apply inv_mk) | split)

theorem doPop_inv {n : Nat} {f : RF} {s : State} (h_s : s.Inv) : (doPop n f s).Inv := by
  unfold doPop
  with_reducible
    repeat' (first | assumption | (intro _) | apply State.trap_inv | apply State.wr_inv | apply State.pipeBad_inv
                     | apply pipeOp_inv | apply State.setPipe_inv | apply State.block_inv | apply inv_ite | dsimp only
                     | (fail_if_no_progress apply inv_mk) | split)

theorem doTpush_inv {n : Nat} {f : RF} {s : State} (h_s : s.Inv) : (doTpush n f s).Inv := by
  unfold doTpush
  with_reducible
    repeat' (first | assumption | (intro _) | apply State.wr_inv | apply pipeOp_inv | apply State.setPipe_inv | apply inv_ite
                     | dsimp only | (fail_if_no_progress apply inv_mk) | split)

theorem doPlevel_inv {n : Nat} {f : RF} {s : State} (h_s : s.Inv) : (doPlevel n f s).Inv := by
  unfold doPlevel
  with_reducible
    repeat' (first | assumption | (intro _) | apply State.wr_inv | apply pipeOp_inv | dsimp only
                     | (fail_if_no_progress apply inv_mk) | split)

end Sys2Proof.Machine
end

