-- ==== Sys2Proof/Laws/MemPpSys.lean ====
section
/-!
SUPPORT. The state functions of Machine/PpSys.lean keep the canonical form of memory.
-/
namespace Sys2Proof.Machine

open Sys2Proof

set_option linter.unusedTactic false
set_option linter.unreachableTactic false
set_option linter.unusedSimpArgs false
set_option linter.unusedVariables false

theorem State.csrRoot_inv {s : State} {n : Nat} {root : Xlat → Word} (h_s : s.Inv) : (State.csrRoot s n root).2.Inv := by
  unfold State.csrRoot
  with_reducible
    repeat' (first | assumption | (intro _) | apply State.free_inv | refine State.free_inv' (by assumption) ?_ | dsimp only
                     | (fail_if_no_progress apply inv_mk) | refine inv_snd (by assumption) ?_ | split)
theorem State.csrRoot_inv' {s : State} {n : Nat} {root : Xlat → Word} {r0} {tE : State} (hE : (State.csrRoot s n root) =
    (r0, tE)) (h_s : s.Inv) : tE.Inv := by
  have h := @State.csrRoot_inv s n root h_s; rw [hE] at h; exact h

theorem State.csrRead_inv {s : State} {n : Nat} {k : Nat} (h_s : s.Inv) : (State.csrRead s n k).2.Inv := by
  unfold State.csrRead
  with_reducible
    repeat' (first | assumption | (intro _) | apply State.sample_inv | apply State.csrRoot_inv
                     | refine State.csrRoot_inv' (by assumption) ?_ | apply inv_ite_snd | apply inv_ite | dsimp only
                     | (fail_if_no_progress apply inv_mk) | refine inv_snd (by assumption) ?_ | split)
theorem State.csrRead_inv' {s : State} {n : Nat} {k : Nat} {r0} {tE : State} (hE : (State.csrRead s n k) = (r0, tE)) (h_s :
    s.Inv) : tE.Inv := by
  have h := @State.csrRead_inv s n k h_s; rw [hE] at h; exact h

theorem csrOp_inv {n : Nat} {op : Nat} {f : IF} {new : Option (Word → Word → Word)} {s : State} (h_s : s.Inv) : (csrOp n op
    f new s).Inv := by
  unfold csrOp
  with_reducible
    repeat' (first | assumption | (intro _) | apply State.setPp_inv | apply State.trap_inv | apply ppRun_inv | apply State.wr_inv
                     | apply State.illegal_inv | apply State.csrRead_inv | refine State.csrRead_inv' (by assumption) ?_
                     | apply inv_ite | dsimp only | (fail_if_no_progress apply inv_mk) | refine inv_snd (by assumption) ?_
                     | split)

theorem sysOp_inv {n : Nat} {fn : Nat} {f : RF} {zero : Bool} {g : State → State} {s : State} (h_g : ∀ x0, State.Inv x0 → (g
    x0).Inv) (h_s : s.Inv) : (sysOp n fn f zero g s).Inv := by
  unfold sysOp
  with_reducible
    repeat' (first | assumption | (intro _) | apply ppRun_inv | apply State.illegal_inv | apply inv_ite | dsimp only
                     | apply_assumption | (fail_if_no_progress apply inv_mk) | split)

theorem State.exitLeg_inv {s : State} {n : Nat} {l : Nat} {code : Nat} (h_s : s.Inv) : (State.exitLeg s n l code).Inv := by
  unfold State.exitLeg
  with_reducible
    repeat' (first | assumption | (intro _) | apply State.setLeg_inv | apply State.letIn_inv | apply State.dmCancelWhere_inv
                     | apply State.sample_inv | apply State.freePp_inv | dsimp only | (fail_if_no_progress apply inv_mk)
                     | split)

theorem legEnd_inv {n : Nat} {fn : Nat} {f : RF} {e : State → Nat → Nat → State} {s : State} (h_e : ∀ x0 x1 x2, State.Inv x0
    → (e x0 x1 x2).Inv) (h_s : s.Inv) : (legEnd n fn f e s).Inv := by
  unfold legEnd
  with_reducible
    repeat' (first | assumption | (intro _) | apply State.setPp_inv | apply sysOp_inv | dsimp only | apply_assumption
                     | (fail_if_no_progress apply inv_mk) | split)

theorem doExit_inv {n : Nat} {f : RF} {s : State} (h_s : s.Inv) : (doExit n f s).Inv := by
  unfold doExit
  with_reducible
    repeat' (first | assumption | (intro _) | apply State.exitLeg_inv | apply legEnd_inv | dsimp only
                     | (fail_if_no_progress apply inv_mk) | split)

theorem doAbort_inv {n : Nat} {f : RF} {s : State} (h_s : s.Inv) : (doAbort n f s).Inv := by
  unfold doAbort
  with_reducible
    repeat' (first | assumption | (intro _) | apply State.sample_inv | apply State.errLeg_inv | apply legEnd_inv | dsimp only
                     | (fail_if_no_progress apply inv_mk) | split)

theorem doBrk_inv {n : Nat} {f : RF} {s : State} (h_s : s.Inv) : (doBrk n f s).Inv := by
  unfold doBrk
  with_reducible
    repeat' (first | assumption | (intro _) | apply State.trap_inv | apply sysOp_inv | dsimp only
                     | (fail_if_no_progress apply inv_mk) | split)

theorem State.legLine_inv {s : State} {n : Nat} {va : Nat} {len : Nat} {g : Leg} {a : PpAcc} (h_s : s.Inv) : ExInv
    (State.legLine s n va len g a) := by
  unfold State.legLine
  with_reducible
    repeat' (first | assumption | (intro _) | apply State.ppLoadLine_inv | refine State.ppLoadLine_inv' (by assumption) ?_
                     | apply State.bypassRead_inv | refine State.bypassRead_inv' (by assumption) ?_ | apply State.trap_inv
                     | apply State.accessFault_inv | apply State.ppHostRead_inv
                     | refine State.ppHostRead_inv' (by assumption) ?_ | apply exInv_ok | apply exInv_error | apply exInv_ite
                     | apply inv_ite | dsimp only | (fail_if_no_progress apply inv_mk) | refine inv_snd (by assumption) ?_
                     | split)

theorem State.legLoad_inv {s : State} {n : Nat} {g : Leg} {va : Nat} {len : Nat} (h_s : s.Inv) : ExInv (State.legLoad s n g
    va len) := by
  unfold State.legLoad
  with_reducible
    repeat' (first | assumption | (intro _) | apply State.legAddr_inv | apply State.legLine_inv | apply exInv_ok
                     | apply exInv_error | refine exInv_snd (by assumption) ?_ | refine exInv_fst (by assumption) ?_
                     | dsimp only | (fail_if_no_progress apply inv_mk) | refine inv_snd (by assumption) ?_ | split)

theorem State.retireSeg_inv {s : State} {n : Nat} {g : Leg} {i : Nat} (h_s : s.Inv) : ExInv (State.retireSeg s n g i) := by
  unfold State.retireSeg
  with_reducible
    repeat' (first | assumption | (intro _) | apply State.legLoad_inv | apply exInv_ok | apply exInv_error
                     | refine exInv_snd (by assumption) ?_ | refine exInv_fst (by assumption) ?_ | apply exInv_ite
                     | apply inv_ite | dsimp only | (fail_if_no_progress apply inv_mk) | refine inv_snd (by assumption) ?_
                     | split)

theorem doRetire_inv {n : Nat} {f : RF} {s : State} (h_s : s.Inv) : (doRetire n f s).Inv := by
  unfold doRetire
  with_reducible
    repeat' (first | assumption | (intro _) | apply State.setPp_inv | apply State.setLeg_inv | apply State.trap_inv
                     | apply sysOp_inv | apply State.retireSeg_inv | refine exInv_snd (by assumption) ?_
                     | refine exInv_fst (by assumption) ?_ | apply inv_ite | dsimp only | (fail_if_no_progress apply inv_mk)
                     | refine inv_snd (by assumption) ?_ | split)

theorem State.batchLocs_inv {s : State} {p : Nat} {a0 : List Nat} (h_s : s.Inv) : (State.batchLocs s p a0).2.Inv := by
  induction a0 generalizing s p h_s with
  | nil =>
    unfold State.batchLocs
    with_reducible
      repeat' (first | assumption | (intro _) | apply State.fcDpa_inv | refine State.fcDpa_inv' (by assumption) ?_ | dsimp only
                         | apply ih | (fail_if_no_progress apply inv_mk) | refine inv_snd (by assumption) ?_ | split)
  | cons x xs ih =>
    unfold State.batchLocs
    with_reducible
      repeat' (first | assumption | (intro _) | apply State.fcDpa_inv | refine State.fcDpa_inv' (by assumption) ?_ | dsimp only
                         | apply ih | (fail_if_no_progress apply inv_mk) | refine inv_snd (by assumption) ?_ | split)
theorem State.batchLocs_inv' {s : State} {p : Nat} {a0 : List Nat} {r0} {tE : State} (hE : (State.batchLocs s p a0) = (r0,
    tE)) (h_s : s.Inv) : tE.Inv := by
  have h := @State.batchLocs_inv s p a0 h_s; rw [hE] at h; exact h

theorem State.headerWrite_inv {s : State} {n : Nat} {d : Nat} {port : Nat} {pasid : Nat} {lo : List Byte} {hi : List Byte}
    (h_s : s.Inv) : (State.headerWrite s n d port pasid lo hi).Inv := by
  unfold State.headerWrite
  with_reducible
    repeat' (first | assumption | (intro _) | apply State.hostPost_inv | refine State.hostPost_inv' (by assumption) ?_
                     | apply State.l2Store_inv | dsimp only | (fail_if_no_progress apply inv_mk)
                     | refine inv_snd (by assumption) ?_ | split)

theorem State.headerMeets_inv {s : State} {n : Nat} {d : Nat} (h_s : s.Inv) : (State.headerMeets s n d).2.Inv := by
  unfold State.headerMeets
  with_reducible
    repeat' (first | assumption | (intro _) | apply State.l2Meets_inv | refine State.l2Meets_inv' (by assumption) ?_ | dsimp only
                     | (fail_if_no_progress apply inv_mk) | refine inv_snd (by assumption) ?_ | split)
theorem State.headerMeets_inv' {s : State} {n : Nat} {d : Nat} {r0} {tE : State} (hE : (State.headerMeets s n d) = (r0, tE))
    (h_s : s.Inv) : tE.Inv := by
  have h := @State.headerMeets_inv s n d h_s; rw [hE] at h; exact h

theorem State.obatchCommit_inv {s : State} {n : Nat} {l : Nat} {g : Leg} {rd : BitVec 5} {d : Nat} {h : List Byte} (h_s :
    s.Inv) : (State.obatchCommit s n l g rd d h).Inv := by
  unfold State.obatchCommit
  with_reducible
    repeat' (first | assumption | (intro _) | apply State.setPp_inv | apply State.setLeg_inv | apply State.errLeg_inv
                     | apply State.wr_inv | apply State.fcWrite_inv | apply State.batchLocs_inv
                     | refine State.batchLocs_inv' (by assumption) ?_ | apply State.headerWrite_inv | apply inv_foldl
                     | apply inv_foldl_snd | apply inv_foldl_fst | apply inv_ite | dsimp only
                     | (fail_if_no_progress apply inv_mk) | refine inv_snd (by assumption) ?_ | split)

theorem doObatch_inv {n : Nat} {f : RF} {s : State} (h_s : s.Inv) : (doObatch n f s).Inv := by
  unfold doObatch
  with_reducible
    repeat' (first | assumption | (intro _) | apply State.errLeg_inv | apply State.trap_inv | apply State.legAddr_inv
                     | apply sysOp_inv | apply State.legLine_inv | apply State.headerMeets_inv
                     | refine State.headerMeets_inv' (by assumption) ?_ | apply State.obatchCommit_inv
                     | refine exInv_snd (by assumption) ?_ | refine exInv_fst (by assumption) ?_ | apply inv_ite | dsimp only
                     | (fail_if_no_progress apply inv_mk) | refine inv_snd (by assumption) ?_ | split)

end Sys2Proof.Machine
end

