-- ==== Sys2Proof/Laws/MemPpPilot.lean ====
section
/-!
SUPPORT. The state functions of Machine/PpPilot.lean keep the canonical form of memory.
-/
namespace Sys2Proof.Machine

open Sys2Proof

set_option linter.unusedTactic false
set_option linter.unreachableTactic false
set_option linter.unusedSimpArgs false
set_option linter.unusedVariables false

theorem pilotOp_inv {n : Nat} {fn : Nat} {f : RF} {zero : Bool} {g : State → State} {s : State} (h_g : ∀ x0, State.Inv x0 →
    (g x0).Inv) (h_s : s.Inv) : (pilotOp n fn f zero g s).Inv := by
  unfold pilotOp
  with_reducible
    repeat' (first | assumption | (intro _) | apply State.trap_inv | apply ppRun_inv | apply State.illegal_inv | apply inv_ite
                     | dsimp only | apply_assumption | (fail_if_no_progress apply inv_mk) | split)

theorem State.takeHeldStop_inv {s : State} {n : Nat} (h_s : s.Inv) : (State.takeHeldStop s n).Inv := by
  unfold State.takeHeldStop
  with_reducible
    repeat' (first | assumption | (intro _) | apply State.letIn_inv | apply State.freePp_inv | apply State.toHeld_inv
                     | apply State.stopPp_inv | apply inv_ite | dsimp only | (fail_if_no_progress apply inv_mk) | split)

theorem State.trapReturn_inv {s : State} {n : Nat} (h_s : s.Inv) : (State.trapReturn s n).Inv := by
  unfold State.trapReturn
  with_reducible
    repeat' (first | assumption | (intro _) | apply State.setPp_inv | apply State.takeHeldStop_inv | dsimp only
                     | (fail_if_no_progress apply inv_mk) | split)

theorem doPret_inv {n : Nat} {f : RF} {s : State} (h_s : s.Inv) : (doPret n f s).Inv := by
  unfold doPret
  with_reducible
    repeat' (first | assumption | (intro _) | apply pilotOp_inv | apply State.trapReturn_inv | dsimp only
                     | (fail_if_no_progress apply inv_mk) | split)

theorem doTlbld_inv {n : Nat} {f : RF} {s : State} (h_s : s.Inv) : (doTlbld n f s).Inv := by
  unfold doTlbld
  with_reducible
    repeat' (first | assumption | (intro _) | apply State.setPp_inv | apply State.wr_inv | apply State.illegal_inv
                     | apply pilotOp_inv | apply inv_ite | dsimp only | (fail_if_no_progress apply inv_mk) | split)

theorem doTlbinv_inv {n : Nat} {f : RF} {s : State} (h_s : s.Inv) : (doTlbinv n f s).Inv := by
  unfold doTlbinv
  with_reducible
    repeat' (first | assumption | (intro _) | apply State.setPp_inv | apply State.setCl_inv | apply State.illegal_inv
                     | apply pilotOp_inv | apply inv_ite | dsimp only | (fail_if_no_progress apply inv_mk) | split)

theorem doWalk_inv {n : Nat} {f : RF} {s : State} (h_s : s.Inv) : (doWalk n f s).Inv := by
  unfold doWalk
  with_reducible
    repeat' (first | assumption | (intro _) | apply State.setPp_inv | apply State.stepS2_inv
                     | refine State.stepS2_inv' (by assumption) ?_ | apply State.stepS1_inv
                     | refine State.stepS1_inv' (by assumption) ?_ | apply State.xlatUse_inv | apply State.wr_inv
                     | apply State.illegal_inv | apply pilotOp_inv | apply inv_ite | dsimp only
                     | (fail_if_no_progress apply inv_mk) | refine inv_snd (by assumption) ?_ | split)

theorem State.frecKind_inv {s : State} {n : Nat} (h_s : s.Inv) : (State.frecKind s n).2.2.Inv := by
  unfold State.frecKind
  with_reducible
    repeat' (first | assumption | (intro _) | apply State.free_inv | refine State.free_inv' (by assumption) ?_
                     | apply inv_ite_snd2 | apply inv_ite | dsimp only | (fail_if_no_progress apply inv_mk)
                     | refine inv_snd (by assumption) ?_ | refine inv_snd2 (by assumption) ?_
                     | refine inv_snd3 (by assumption) ?_ | split)
theorem State.frecKind_inv' {s : State} {n : Nat} {r0} {r1} {tE : State} (hE : (State.frecKind s n) = (r0, r1, tE)) (h_s :
    s.Inv) : tE.Inv := by
  have h := @State.frecKind_inv s n h_s; rw [hE] at h; exact h

theorem doFrec_inv {n : Nat} {f : RF} {s : State} (h_s : s.Inv) : (doFrec n f s).Inv := by
  unfold doFrec
  with_reducible
    repeat' (first | assumption | (intro _) | apply State.setPp_inv | apply State.faultRecord_inv | apply State.errLeg_inv
                     | apply State.illegal_inv | apply pilotOp_inv | apply State.frecKind_inv
                     | refine State.frecKind_inv' (by assumption) ?_ | apply inv_ite | dsimp only
                     | (fail_if_no_progress apply inv_mk) | refine inv_snd (by assumption) ?_
                     | refine inv_snd2 (by assumption) ?_ | refine inv_snd3 (by assumption) ?_ | split)

end Sys2Proof.Machine
end

