-- ==== Sys2Proof/Laws/MemPpUnit.lean ====
section
/-!
SUPPORT. The state functions of Machine/PpUnit.lean keep the canonical form of memory.
-/
namespace Sys2Proof.Machine

open Sys2Proof

set_option linter.unusedTactic false
set_option linter.unreachableTactic false
set_option linter.unusedSimpArgs false
set_option linter.unusedVariables false

theorem State.unitAccept_inv {s : State} {c : Nat} {unit : Nat} {u : UnitCmd} (h_s : s.Inv) : (State.unitAccept s c unit
    u).Inv := by
  unfold State.unitAccept
  with_reducible
    repeat' (first | assumption | (intro _) | apply State.setCl_inv | apply State.setAsaSet_inv | apply State.endTicket_inv
                     | apply State.dmRun_inv | refine State.dmRun_inv' (by assumption) ?_ | apply State.dmKick_inv
                     | refine State.dmKick_inv' (by assumption) ?_ | apply inv_ite | dsimp only
                     | (fail_if_no_progress apply inv_mk) | refine inv_snd (by assumption) ?_ | split)

theorem State.wr8_inv {s : State} {n : Nat} {rd : BitVec 5} {v : Word} (h_s : s.Inv) : (State.wr8 s n rd v).Inv := by
  unfold State.wr8
  with_reducible
    repeat' (first | assumption | (intro _) | apply State.setPp_inv | dsimp only | (fail_if_no_progress apply inv_mk) | split)

theorem State.submit_inv {s : State} {n : Nat} {l : Nat} {g : Leg} {unit : Nat} {cmd : Nat} {f : CF} (h_s : s.Inv) :
    (State.submit s n l g unit cmd f).Inv := by
  unfold State.submit
  with_reducible
    repeat' (first | assumption | (intro _) | apply State.setLeg_inv | apply State.trap_inv | apply State.block_inv
                     | apply State.unitAccept_inv | apply State.wr8_inv | apply inv_ite | dsimp only
                     | (fail_if_no_progress apply inv_mk) | split)

theorem unitOp_inv {n : Nat} {unit : Nat} {cmd : Nat} {f : CF} {reads : Bool} {s : State} (h_s : s.Inv) : (unitOp n unit cmd
    f reads s).Inv := by
  unfold unitOp
  with_reducible
    repeat' (first | assumption | (intro _) | apply State.free_inv | refine State.free_inv' (by assumption) ?_ | apply ppRun2_inv
                     | apply State.ppAddr_inv | apply State.wr8_inv | apply State.submit_inv
                     | refine exInv_snd (by assumption) ?_ | refine exInv_fst (by assumption) ?_ | apply inv_ite | dsimp only
                     | (fail_if_no_progress apply inv_mk) | refine inv_snd (by assumption) ?_ | split)

theorem collectOp_inv {n : Nat} {cmd : Nat} {unit : BitVec 5} {f : CF} {g : State → State} {s : State} (h_g : ∀ x0,
    State.Inv x0 → (g x0).Inv) (h_s : s.Inv) : (collectOp n cmd unit f g s).Inv := by
  unfold collectOp
  with_reducible
    repeat' (first | assumption | (intro _) | apply ppRun2_inv | apply State.illegal_inv | apply inv_ite | dsimp only
                     | apply_assumption | (fail_if_no_progress apply inv_mk) | split)

theorem State.freeTicket_inv {s : State} {l : Nat} {k : Nat} {unit : Nat} (h_s : s.Inv) : (State.freeTicket s l k unit).Inv
    := by
  unfold State.freeTicket
  with_reducible
    repeat' (first | assumption | (intro _) | apply State.setLeg_inv | apply State.dmFreeSlot_inv | apply inv_ite | dsimp only
                     | (fail_if_no_progress apply inv_mk) | split)

theorem ticketOp_inv {n : Nat} {f : CF} {busy : State → State} {s : State} (h_busy : ∀ x0, State.Inv x0 → (busy x0).Inv)
    (h_s : s.Inv) : (ticketOp n f busy s).Inv := by
  unfold ticketOp
  with_reducible
    repeat' (first | assumption | (intro _) | apply State.wr8_inv | apply State.freeTicket_inv | dsimp only | apply_assumption
                     | (fail_if_no_progress apply inv_mk) | split)

theorem doWait_inv {n : Nat} {unit : BitVec 5} {f : CF} {s : State} (h_s : s.Inv) : (doWait n unit f s).Inv := by
  unfold doWait
  with_reducible
    repeat' (first | assumption | (intro _) | apply State.block_inv | apply collectOp_inv | apply ticketOp_inv | dsimp only
                     | (fail_if_no_progress apply inv_mk) | split)

theorem doTest_inv {n : Nat} {unit : BitVec 5} {f : CF} {s : State} (h_s : s.Inv) : (doTest n unit f s).Inv := by
  unfold doTest
  with_reducible
    repeat' (first | assumption | (intro _) | apply State.wr8_inv | apply collectOp_inv | apply ticketOp_inv | dsimp only
                     | (fail_if_no_progress apply inv_mk) | split)

theorem doDrain_inv {n : Nat} {unit : BitVec 5} {f : CF} {s : State} (h_s : s.Inv) : (doDrain n unit f s).Inv := by
  unfold doDrain
  with_reducible
    repeat' (first | assumption | (intro _) | apply State.block_inv | apply State.wr8_inv | apply collectOp_inv
                     | apply State.freeTicket_inv | apply inv_foldl | apply inv_foldl_snd | apply inv_foldl_fst | apply inv_ite
                     | dsimp only | (fail_if_no_progress apply inv_mk) | split)

end Sys2Proof.Machine
end

