-- ==== Sys2Proof/Laws/MemPpVector.lean ====
section
/-!
SUPPORT. The state functions of Machine/PpVector.lean keep the canonical form of memory.
-/
namespace Sys2Proof.Machine

open Sys2Proof

set_option linter.unusedTactic false
set_option linter.unreachableTactic false
set_option linter.unusedSimpArgs false
set_option linter.unusedVariables false

theorem State.pickSub_inv {s : State} {a0 : List Nat} (h_s : s.Inv) : (State.pickSub s a0).2.Inv := by
  unfold State.pickSub
  with_reducible
    repeat' (first | assumption | (intro _) | apply State.free_inv | refine State.free_inv' (by assumption) ?_ | dsimp only
                     | (fail_if_no_progress apply inv_mk) | refine inv_snd (by assumption) ?_ | split)
theorem State.pickSub_inv' {s : State} {a0 : List Nat} {r0} {tE : State} (hE : (State.pickSub s a0) = (r0, tE)) (h_s :
    s.Inv) : tE.Inv := by
  have h := @State.pickSub_inv s a0 h_s; rw [hE] at h; exact h

theorem State.vecFault_inv {s : State} {n : Nat} {w : Word} {subs : List Nat} (h_s : s.Inv) : (State.vecFault s n w
    subs).Inv := by
  unfold State.vecFault
  with_reducible
    repeat' (first | assumption | (intro _) | apply State.trap_inv | apply State.pickSub_inv
                     | refine State.pickSub_inv' (by assumption) ?_ | dsimp only | (fail_if_no_progress apply inv_mk)
                     | refine inv_snd (by assumption) ?_ | split)

theorem vecOp_inv {n : Nat} {w : Word} {ill : Bool} {subs : VC → List Nat} {g : VC → State → State} {s : State} (h_g : ∀ x0
    x1, State.Inv x1 → (g x0 x1).Inv) (h_s : s.Inv) : (vecOp n w ill subs g s).Inv := by
  unfold vecOp
  with_reducible
    repeat' (first | assumption | (intro _) | apply ppRun_inv | apply State.illegal_inv | apply State.vecFault_inv | apply inv_ite
                     | dsimp only | apply_assumption | (fail_if_no_progress apply inv_mk) | split)

theorem State.vecDone_inv {s : State} {n : Nat} {p : Pp} (h_s : s.Inv) : (State.vecDone s n p).Inv := by
  unfold State.vecDone
  with_reducible
    repeat' (first | assumption | (intro _) | apply State.setPp_inv | dsimp only | (fail_if_no_progress apply inv_mk) | split)

theorem eltOp_inv {n : Nat} {o : VForm} {f : VF} {fn : Nat → Nat → Nat → Nat → Nat → Nat} {s : State} (h_s : s.Inv) : (eltOp
    n o f fn s).Inv := by
  unfold eltOp
  with_reducible
    repeat' (first | assumption | (intro _) | apply vecOp_inv | apply State.vecDone_inv | apply inv_ite | dsimp only
                     | (fail_if_no_progress apply inv_mk) | split)

theorem int2_inv {n : Nat} {code : Nat} {dec : Bool} {f : VF} {g : Nat → Nat → Nat → Nat} {s : State} (h_s : s.Inv) : (int2
    n code dec f g s).Inv := by
  unfold int2
  with_reducible
    repeat' (first | assumption | (intro _) | apply eltOp_inv | dsimp only | (fail_if_no_progress apply inv_mk) | split)

theorem doVadd_inv {n : Nat} {f : VF} {s : State} (h_s : s.Inv) : (doVadd n f s).Inv := by
  unfold doVadd
  with_reducible
    repeat' (first | assumption | (intro _) | apply int2_inv | dsimp only | (fail_if_no_progress apply inv_mk) | split)

theorem doVsub_inv {n : Nat} {f : VF} {s : State} (h_s : s.Inv) : (doVsub n f s).Inv := by
  unfold doVsub
  with_reducible
    repeat' (first | assumption | (intro _) | apply int2_inv | dsimp only | (fail_if_no_progress apply inv_mk) | split)

theorem doVrsub_inv {n : Nat} {f : VF} {s : State} (h_s : s.Inv) : (doVrsub n f s).Inv := by
  unfold doVrsub
  with_reducible
    repeat' (first | assumption | (intro _) | apply int2_inv | dsimp only | (fail_if_no_progress apply inv_mk) | split)

theorem doVlogic_inv {n : Nat} {k : Logic} {f : VF} {s : State} (h_s : s.Inv) : (doVlogic n k f s).Inv := by
  unfold doVlogic
  with_reducible
    repeat' (first | assumption | (intro _) | apply int2_inv | dsimp only | (fail_if_no_progress apply inv_mk) | split)

theorem doVshift_inv {n : Nat} {k : ShiftOp} {f : VF} {s : State} (h_s : s.Inv) : (doVshift n k f s).Inv := by
  unfold doVshift
  with_reducible
    repeat' (first | assumption | (intro _) | apply int2_inv | dsimp only | (fail_if_no_progress apply inv_mk) | split)

theorem doVminmax_inv {n : Nat} {k : MinMax} {f : VF} {s : State} (h_s : s.Inv) : (doVminmax n k f s).Inv := by
  unfold doVminmax
  with_reducible
    repeat' (first | assumption | (intro _) | apply int2_inv | dsimp only | (fail_if_no_progress apply inv_mk) | split)

theorem doVmul_inv {n : Nat} {f : VF} {s : State} (h_s : s.Inv) : (doVmul n f s).Inv := by
  unfold doVmul
  with_reducible
    repeat' (first | assumption | (intro _) | apply int2_inv | dsimp only | (fail_if_no_progress apply inv_mk) | split)

theorem doVmulh_inv {n : Nat} {k : Sign} {f : VF} {s : State} (h_s : s.Inv) : (doVmulh n k f s).Inv := by
  unfold doVmulh
  with_reducible
    repeat' (first | assumption | (intro _) | apply int2_inv | dsimp only | (fail_if_no_progress apply inv_mk) | split)

theorem doVsat_inv {n : Nat} {k : SatOp} {f : VF} {s : State} (h_s : s.Inv) : (doVsat n k f s).Inv := by
  unfold doVsat
  with_reducible
    repeat' (first | assumption | (intro _) | apply int2_inv | dsimp only | (fail_if_no_progress apply inv_mk) | split)

theorem doVmerge_inv {n : Nat} {f : VF} {s : State} (h_s : s.Inv) : (doVmerge n f s).Inv := by
  unfold doVmerge
  with_reducible
    repeat' (first | assumption | (intro _) | apply vecOp_inv | apply State.vecDone_inv | apply inv_ite | dsimp only
                     | (fail_if_no_progress apply inv_mk) | split)

theorem doVmv_inv {n : Nat} {f : VF} {s : State} (h_s : s.Inv) : (doVmv n f s).Inv := by
  unfold doVmv
  with_reducible
    repeat' (first | assumption | (intro _) | apply eltOp_inv | dsimp only | (fail_if_no_progress apply inv_mk) | split)

theorem doVid_inv {n : Nat} {f : VF} {s : State} (h_s : s.Inv) : (doVid n f s).Inv := by
  unfold doVid
  with_reducible
    repeat' (first | assumption | (intro _) | apply eltOp_inv | dsimp only | (fail_if_no_progress apply inv_mk) | split)

theorem fpTwo_inv {n : Nat} {code : Nat} {f : VF} {g : Bool → Nat → Nat → Nat} {s : State} (h_s : s.Inv) : (fpTwo n code f g
    s).Inv := by
  unfold fpTwo
  with_reducible
    repeat' (first | assumption | (intro _) | apply eltOp_inv | dsimp only | (fail_if_no_progress apply inv_mk) | split)

theorem fpOne_inv {n : Nat} {code : Nat} {f : VF} {g : Nat → Nat → Nat} {s : State} (h_s : s.Inv) : (fpOne n code f g s).Inv
    := by
  unfold fpOne
  with_reducible
    repeat' (first | assumption | (intro _) | apply eltOp_inv | dsimp only | (fail_if_no_progress apply inv_mk) | split)

theorem doVfarith_inv {n : Nat} {k : FArith} {f : VF} {s : State} (h_s : s.Inv) : (doVfarith n k f s).Inv := by
  unfold doVfarith
  with_reducible
    repeat' (first | assumption | (intro _) | apply fpTwo_inv | dsimp only | (fail_if_no_progress apply inv_mk) | split)

theorem doVfminmax_inv {n : Nat} {k : Alt} {f : VF} {s : State} (h_s : s.Inv) : (doVfminmax n k f s).Inv := by
  unfold doVfminmax
  with_reducible
    repeat' (first | assumption | (intro _) | apply fpTwo_inv | dsimp only | (fail_if_no_progress apply inv_mk) | split)

theorem doVfma_inv {n : Nat} {f : VF} {s : State} (h_s : s.Inv) : (doVfma n f s).Inv := by
  unfold doVfma
  with_reducible
    repeat' (first | assumption | (intro _) | apply eltOp_inv | dsimp only | (fail_if_no_progress apply inv_mk) | split)

theorem doVfsqrt_inv {n : Nat} {f : VF} {s : State} (h_s : s.Inv) : (doVfsqrt n f s).Inv := by
  unfold doVfsqrt
  with_reducible
    repeat' (first | assumption | (intro _) | apply fpOne_inv | dsimp only | (fail_if_no_progress apply inv_mk) | split)

theorem doVfcvtF_inv {n : Nat} {k : Sign} {f : VF} {s : State} (h_s : s.Inv) : (doVfcvtF n k f s).Inv := by
  unfold doVfcvtF
  with_reducible
    repeat' (first | assumption | (intro _) | apply fpOne_inv | apply inv_ite | dsimp only | (fail_if_no_progress apply inv_mk)
                     | split)

theorem doVfcvtI_inv {n : Nat} {k : Sign} {f : VF} {s : State} (h_s : s.Inv) : (doVfcvtI n k f s).Inv := by
  unfold doVfcvtI
  with_reducible
    repeat' (first | assumption | (intro _) | apply fpOne_inv | apply inv_ite | dsimp only | (fail_if_no_progress apply inv_mk)
                     | split)

theorem doVfabsneg_inv {n : Nat} {k : Alt} {f : VF} {s : State} (h_s : s.Inv) : (doVfabsneg n k f s).Inv := by
  unfold doVfabsneg
  with_reducible
    repeat' (first | assumption | (intro _) | apply fpOne_inv | apply inv_ite | dsimp only | (fail_if_no_progress apply inv_mk)
                     | split)

theorem cmpOp_inv {n : Nat} {code : Nat} {dec : Bool} {fp : Bool} {f : VF} {rel : Nat → Nat → Nat → Bool} {s : State} (h_s :
    s.Inv) : (cmpOp n code dec fp f rel s).Inv := by
  unfold cmpOp
  with_reducible
    repeat' (first | assumption | (intro _) | apply vecOp_inv | apply State.vecDone_inv | apply inv_foldl | apply inv_foldl_snd
                     | apply inv_foldl_fst | apply inv_ite | dsimp only | (fail_if_no_progress apply inv_mk) | split)

theorem doVcmpEq_inv {n : Nat} {k : Alt} {f : VF} {s : State} (h_s : s.Inv) : (doVcmpEq n k f s).Inv := by
  unfold doVcmpEq
  with_reducible
    repeat' (first | assumption | (intro _) | apply cmpOp_inv | apply inv_ite | dsimp only | (fail_if_no_progress apply inv_mk)
                     | split)

theorem doVcmpLt_inv {n : Nat} {k : Sign} {f : VF} {s : State} (h_s : s.Inv) : (doVcmpLt n k f s).Inv := by
  unfold doVcmpLt
  with_reducible
    repeat' (first | assumption | (intro _) | apply cmpOp_inv | dsimp only | (fail_if_no_progress apply inv_mk) | split)

theorem doVcmpLe_inv {n : Nat} {k : Sign} {f : VF} {s : State} (h_s : s.Inv) : (doVcmpLe n k f s).Inv := by
  unfold doVcmpLe
  with_reducible
    repeat' (first | assumption | (intro _) | apply cmpOp_inv | dsimp only | (fail_if_no_progress apply inv_mk) | split)

theorem doVcmpGt_inv {n : Nat} {k : Sign} {f : VF} {s : State} (h_s : s.Inv) : (doVcmpGt n k f s).Inv := by
  unfold doVcmpGt
  with_reducible
    repeat' (first | assumption | (intro _) | apply cmpOp_inv | dsimp only | (fail_if_no_progress apply inv_mk) | split)

theorem doVcmpGe_inv {n : Nat} {k : Sign} {f : VF} {s : State} (h_s : s.Inv) : (doVcmpGe n k f s).Inv := by
  unfold doVcmpGe
  with_reducible
    repeat' (first | assumption | (intro _) | apply cmpOp_inv | dsimp only | (fail_if_no_progress apply inv_mk) | split)

theorem doVcmpAddo_inv {n : Nat} {f : VF} {s : State} (h_s : s.Inv) : (doVcmpAddo n f s).Inv := by
  unfold doVcmpAddo
  with_reducible
    repeat' (first | assumption | (intro _) | apply cmpOp_inv | dsimp only | (fail_if_no_progress apply inv_mk) | split)

theorem doVcmpSubo_inv {n : Nat} {f : VF} {s : State} (h_s : s.Inv) : (doVcmpSubo n f s).Inv := by
  unfold doVcmpSubo
  with_reducible
    repeat' (first | assumption | (intro _) | apply cmpOp_inv | dsimp only | (fail_if_no_progress apply inv_mk) | split)

theorem doVcmpF_inv {n : Nat} {k : FRel} {f : VF} {s : State} (h_s : s.Inv) : (doVcmpF n k f s).Inv := by
  unfold doVcmpF
  with_reducible
    repeat' (first | assumption | (intro _) | apply cmpOp_inv | dsimp only | (fail_if_no_progress apply inv_mk) | split)

theorem redOp_inv {n : Nat} {code : Nat} {dec : Bool} {fp : Bool} {f : VF} {g : Nat → Nat → Nat → Nat} {s : State} (h_s :
    s.Inv) : (redOp n code dec fp f g s).Inv := by
  unfold redOp
  with_reducible
    repeat' (first | assumption | (intro _) | apply vecOp_inv | apply State.vecDone_inv | apply inv_foldl | apply inv_foldl_snd
                     | apply inv_foldl_fst | apply inv_ite | dsimp only | (fail_if_no_progress apply inv_mk) | split)

theorem doVrsum_inv {n : Nat} {f : VF} {s : State} (h_s : s.Inv) : (doVrsum n f s).Inv := by
  unfold doVrsum
  with_reducible
    repeat' (first | assumption | (intro _) | apply redOp_inv | dsimp only | (fail_if_no_progress apply inv_mk) | split)

theorem doVrminmax_inv {n : Nat} {k : MinMax} {f : VF} {s : State} (h_s : s.Inv) : (doVrminmax n k f s).Inv := by
  unfold doVrminmax
  with_reducible
    repeat' (first | assumption | (intro _) | apply redOp_inv | dsimp only | (fail_if_no_progress apply inv_mk) | split)

theorem doVrlogic_inv {n : Nat} {k : RLogic} {f : VF} {s : State} (h_s : s.Inv) : (doVrlogic n k f s).Inv := by
  unfold doVrlogic
  with_reducible
    repeat' (first | assumption | (intro _) | apply redOp_inv | dsimp only | (fail_if_no_progress apply inv_mk) | split)

theorem doVfrsum_inv {n : Nat} {f : VF} {s : State} (h_s : s.Inv) : (doVfrsum n f s).Inv := by
  unfold doVfrsum
  with_reducible
    repeat' (first | assumption | (intro _) | apply redOp_inv | dsimp only | (fail_if_no_progress apply inv_mk) | split)

theorem doVfrminmax_inv {n : Nat} {k : Alt} {f : VF} {s : State} (h_s : s.Inv) : (doVfrminmax n k f s).Inv := by
  unfold doVfrminmax
  with_reducible
    repeat' (first | assumption | (intro _) | apply redOp_inv | dsimp only | (fail_if_no_progress apply inv_mk) | split)

theorem doVrsumx_inv {n : Nat} {k : Alt} {f : VF} {s : State} (h_s : s.Inv) : (doVrsumx n k f s).Inv := by
  unfold doVrsumx
  with_reducible
    repeat' (first | assumption | (intro _) | apply vecOp_inv | apply State.vecDone_inv | apply inv_foldl | apply inv_foldl_snd
                     | apply inv_foldl_fst | apply inv_ite | dsimp only | (fail_if_no_progress apply inv_mk) | split)

theorem doVcompress_inv {n : Nat} {f : VF} {s : State} (h_s : s.Inv) : (doVcompress n f s).Inv := by
  unfold doVcompress
  with_reducible
    repeat' (first | assumption | (intro _) | apply vecOp_inv | apply State.vecDone_inv | apply inv_ite | dsimp only
                     | (fail_if_no_progress apply inv_mk) | split)

theorem doVexpand_inv {n : Nat} {f : VF} {s : State} (h_s : s.Inv) : (doVexpand n f s).Inv := by
  unfold doVexpand
  with_reducible
    repeat' (first | assumption | (intro _) | apply vecOp_inv | apply State.vecDone_inv | apply inv_ite | dsimp only
                     | (fail_if_no_progress apply inv_mk) | split)

theorem doVextract_inv {n : Nat} {f : VF} {s : State} (h_s : s.Inv) : (doVextract n f s).Inv := by
  unfold doVextract
  with_reducible
    repeat' (first | assumption | (intro _) | apply vecOp_inv | apply State.vecDone_inv | apply inv_ite | dsimp only
                     | (fail_if_no_progress apply inv_mk) | split)

theorem doVinsert_inv {n : Nat} {f : VF} {s : State} (h_s : s.Inv) : (doVinsert n f s).Inv := by
  unfold doVinsert
  with_reducible
    repeat' (first | assumption | (intro _) | apply vecOp_inv | apply State.vecDone_inv | apply inv_ite | dsimp only
                     | (fail_if_no_progress apply inv_mk) | split)

theorem maskOp_inv {n : Nat} {code : Nat} {f : VF} {ill : Bool} {g : VReg → VReg → VReg} {s : State} (h_s : s.Inv) : (maskOp
    n code f ill g s).Inv := by
  unfold maskOp
  with_reducible
    repeat' (first | assumption | (intro _) | apply vecOp_inv | apply State.vecDone_inv | exact regsInv_none | apply regsInv_some
                     | apply regsInv_map | apply regsInv_ite | apply regInv_ite | exact regInv_status | apply regInv_config
                     | exact regInv_loaded | apply regInv_partScope | refine regsInv_elim (by assumption) ?_
                     | (fail_if_no_progress apply regInv_mk) | apply regInv_write | apply inv_ite | dsimp only
                     | (fail_if_no_progress apply inv_mk) | split)

theorem doMlogic_inv {n : Nat} {k : Logic} {f : VF} {s : State} (h_s : s.Inv) : (doMlogic n k f s).Inv := by
  unfold doMlogic
  with_reducible
    repeat' (first | assumption | (intro _) | apply maskOp_inv | dsimp only | (fail_if_no_progress apply inv_mk) | split)

theorem doMnot_inv {n : Nat} {f : VF} {s : State} (h_s : s.Inv) : (doMnot n f s).Inv := by
  unfold doMnot
  with_reducible
    repeat' (first | assumption | (intro _) | apply maskOp_inv | dsimp only | (fail_if_no_progress apply inv_mk) | split)

theorem maskRead_inv {n : Nat} {code : Nat} {f : VF} {g : List Nat → Word} {s : State} (h_s : s.Inv) : (maskRead n code f g
    s).Inv := by
  unfold maskRead
  with_reducible
    repeat' (first | assumption | (intro _) | apply vecOp_inv | apply State.vecDone_inv | apply inv_ite | dsimp only
                     | (fail_if_no_progress apply inv_mk) | split)

theorem doMpopc_inv {n : Nat} {f : VF} {s : State} (h_s : s.Inv) : (doMpopc n f s).Inv := by
  unfold doMpopc
  with_reducible
    repeat' (first | assumption | (intro _) | apply maskRead_inv | dsimp only | (fail_if_no_progress apply inv_mk) | split)

theorem doMfirst_inv {n : Nat} {f : VF} {s : State} (h_s : s.Inv) : (doMfirst n f s).Inv := by
  unfold doMfirst
  with_reducible
    repeat' (first | assumption | (intro _) | apply maskRead_inv | dsimp only | (fail_if_no_progress apply inv_mk) | split)

theorem State.configure_inv {s : State} {n : Nat} {w : Word} {rd : BitVec 5} {rs1 : BitVec 5} {c : Nat} (h_s : s.Inv) :
    (State.configure s n w rd rs1 c).Inv := by
  unfold State.configure
  with_reducible
    repeat' (first | assumption | (intro _) | apply State.vecFault_inv | apply State.vecDone_inv | apply inv_ite | dsimp only
                     | (fail_if_no_progress apply inv_mk) | split)

theorem doVcfgi_inv {n : Nat} {f : IF} {s : State} (h_s : s.Inv) : (doVcfgi n f s).Inv := by
  unfold doVcfgi
  with_reducible
    repeat' (first | assumption | (intro _) | apply ppRun_inv | apply State.illegal_inv | apply State.configure_inv
                     | apply inv_ite | dsimp only | (fail_if_no_progress apply inv_mk) | split)

theorem doVcfgr_inv {n : Nat} {f : VF} {s : State} (h_s : s.Inv) : (doVcfgr n f s).Inv := by
  unfold doVcfgr
  with_reducible
    repeat' (first | assumption | (intro _) | apply ppRun_inv | apply State.illegal_inv | apply State.configure_inv
                     | apply inv_ite | dsimp only | (fail_if_no_progress apply inv_mk) | split)

theorem doVrd_inv {n : Nat} {f : VF} {s : State} (h_s : s.Inv) : (doVrd n f s).Inv := by
  unfold doVrd
  with_reducible
    repeat' (first | assumption | (intro _) | apply ppRun_inv | apply State.wr_inv | apply State.illegal_inv | apply inv_ite
                     | dsimp only | (fail_if_no_progress apply inv_mk) | split)

theorem doVwr_inv {n : Nat} {f : VF} {s : State} (h_s : s.Inv) : (doVwr n f s).Inv := by
  unfold doVwr
  with_reducible
    repeat' (first | assumption | (intro _) | apply State.trap_inv | apply ppRun_inv | apply State.illegal_inv
                     | apply State.vecFault_inv | apply State.vecDone_inv | apply inv_ite | dsimp only
                     | (fail_if_no_progress apply inv_mk) | split)

end Sys2Proof.Machine
end

