-- ==== Sys2Proof/Laws/MemPpVecMem.lean ====
section
/-!
SUPPORT. The state functions of Machine/PpVecMem.lean keep the canonical form of memory.
-/
namespace Sys2Proof.Machine

open Sys2Proof

set_option linter.unusedTactic false
set_option linter.unreachableTactic false
set_option linter.unusedSimpArgs false
set_option linter.unusedVariables false

theorem State.vecStop_inv {s : State} {n : Nat} {va : Nat} {x : AccStop} {write : Bool} (h_s : s.Inv) : (State.vecStop s n
    va x write).Inv := by
  unfold State.vecStop
  with_reducible
    repeat' (first | assumption | (intro _) | apply State.trap_inv | apply State.takeErr_inv | apply inv_ite | dsimp only
                     | (fail_if_no_progress apply inv_mk) | split)

theorem State.segRead_inv {s : State} {n : Nat} {ew : Nat} {a0 : Nat} {a1 : Nat} (h_s : s.Inv) : (State.segRead s n ew a0
    a1).2.Inv := by
  induction a0 generalizing s n ew a1 h_s with
  | zero =>
    unfold State.segRead
    with_reducible
      repeat' (first | assumption | (intro _) | apply State.accLoad_inv | refine State.accLoad_inv' (by assumption) ?_ | dsimp only
                         | apply ih | (fail_if_no_progress apply inv_mk) | refine inv_snd (by assumption) ?_ | split)
  | succ n ih =>
    unfold State.segRead
    with_reducible
      repeat' (first | assumption | (intro _) | apply State.accLoad_inv | refine State.accLoad_inv' (by assumption) ?_ | dsimp only
                         | apply ih | (fail_if_no_progress apply inv_mk) | refine inv_snd (by assumption) ?_ | split)
theorem State.segRead_inv' {s : State} {n : Nat} {ew : Nat} {a0 : Nat} {a1 : Nat} {r0} {tE : State} (hE : (State.segRead s n
    ew a0 a1) = (r0, tE)) (h_s : s.Inv) : tE.Inv := by
  have h := @State.segRead_inv s n ew a0 a1 h_s; rw [hE] at h; exact h

theorem State.storeCheck_inv {s : State} {n : Nat} {ew : Nat} {va : Nat} (h_s : s.Inv) : (State.storeCheck s n ew va).2.Inv
    := by
  unfold State.storeCheck
  with_reducible
    repeat' (first | assumption | (intro _) | apply State.l2Meets_inv | refine State.l2Meets_inv' (by assumption) ?_
                     | apply State.ppCheck_inv | refine State.ppCheck_inv' (by assumption) ?_ | apply State.accWrite_inv
                     | refine State.accWrite_inv' (by assumption) ?_ | apply inv_ite_snd | apply inv_ite | dsimp only
                     | (fail_if_no_progress apply inv_mk) | refine inv_snd (by assumption) ?_ | split)
theorem State.storeCheck_inv' {s : State} {n : Nat} {ew : Nat} {va : Nat} {r0} {tE : State} (hE : (State.storeCheck s n ew
    va) = (r0, tE)) (h_s : s.Inv) : tE.Inv := by
  have h := @State.storeCheck_inv s n ew va h_s; rw [hE] at h; exact h

theorem State.segCheck_inv {s : State} {n : Nat} {ew : Nat} {a0 : Nat} {a1 : Nat} (h_s : s.Inv) : (State.segCheck s n ew a0
    a1).2.Inv := by
  induction a0 generalizing s n ew a1 h_s with
  | zero =>
    unfold State.segCheck
    with_reducible
      repeat' (first | assumption | (intro _) | apply State.storeCheck_inv | refine State.storeCheck_inv' (by assumption) ?_
                         | dsimp only | apply ih | (fail_if_no_progress apply inv_mk) | refine inv_snd (by assumption) ?_ | split)
  | succ n ih =>
    unfold State.segCheck
    with_reducible
      repeat' (first | assumption | (intro _) | apply State.storeCheck_inv | refine State.storeCheck_inv' (by assumption) ?_
                         | dsimp only | apply ih | (fail_if_no_progress apply inv_mk) | refine inv_snd (by assumption) ?_ | split)
theorem State.segCheck_inv' {s : State} {n : Nat} {ew : Nat} {a0 : Nat} {a1 : Nat} {r0} {tE : State} (hE : (State.segCheck s
    n ew a0 a1) = (r0, tE)) (h_s : s.Inv) : tE.Inv := by
  have h := @State.segCheck_inv s n ew a0 a1 h_s; rw [hE] at h; exact h

theorem State.storePut_inv {s : State} {n : Nat} {va : Nat} {bs : List Byte} (h_s : s.Inv) : (State.storePut s n va
    bs).2.Inv := by
  unfold State.storePut
  with_reducible
    repeat' (first | assumption | (intro _) | apply State.ppCheck_inv | refine State.ppCheck_inv' (by assumption) ?_
                     | apply State.memStore_inv | apply State.accWrite_inv | refine State.accWrite_inv' (by assumption) ?_
                     | dsimp only | (fail_if_no_progress apply inv_mk) | refine inv_snd (by assumption) ?_ | split)
theorem State.storePut_inv' {s : State} {n : Nat} {va : Nat} {bs : List Byte} {r0} {tE : State} (hE : (State.storePut s n va
    bs) = (r0, tE)) (h_s : s.Inv) : tE.Inv := by
  have h := @State.storePut_inv s n va bs h_s; rw [hE] at h; exact h

theorem State.segStore_inv {s : State} {n : Nat} {ew : Nat} {a0 : List Nat} {a1 : Nat} (h_s : s.Inv) : (State.segStore s n
    ew a0 a1).2.Inv := by
  induction a0 generalizing s n ew a1 h_s with
  | nil =>
    unfold State.segStore
    with_reducible
      repeat' (first | assumption | (intro _) | apply State.storePut_inv | refine State.storePut_inv' (by assumption) ?_
                         | dsimp only | apply ih | (fail_if_no_progress apply inv_mk) | refine inv_snd (by assumption) ?_ | split)
  | cons x xs ih =>
    unfold State.segStore
    with_reducible
      repeat' (first | assumption | (intro _) | apply State.storePut_inv | refine State.storePut_inv' (by assumption) ?_
                         | dsimp only | apply ih | (fail_if_no_progress apply inv_mk) | refine inv_snd (by assumption) ?_ | split)
theorem State.segStore_inv' {s : State} {n : Nat} {ew : Nat} {a0 : List Nat} {a1 : Nat} {r0} {tE : State} (hE :
    (State.segStore s n ew a0 a1) = (r0, tE)) (h_s : s.Inv) : tE.Inv := by
  have h := @State.segStore_inv s n ew a0 a1 h_s; rw [hE] at h; exact h

theorem State.segWrite_inv {s : State} {n : Nat} {ew : Nat} {va : Nat} {vs : List Nat} (h_s : s.Inv) : (State.segWrite s n
    ew va vs).2.Inv := by
  unfold State.segWrite
  with_reducible
    repeat' (first | assumption | (intro _) | apply State.segCheck_inv | refine State.segCheck_inv' (by assumption) ?_
                     | apply State.segStore_inv | refine State.segStore_inv' (by assumption) ?_ | dsimp only
                     | (fail_if_no_progress apply inv_mk) | refine inv_snd (by assumption) ?_ | split)
theorem State.segWrite_inv' {s : State} {n : Nat} {ew : Nat} {va : Nat} {vs : List Nat} {r0} {tE : State} (hE :
    (State.segWrite s n ew va vs) = (r0, tE)) (h_s : s.Inv) : tE.Inv := by
  have h := @State.segWrite_inv s n ew va vs h_s; rw [hE] at h; exact h

theorem State.markElt_inv {s : State} {n : Nat} {i : Nat} {leg : Bool} (h_s : s.Inv) : (State.markElt s n i leg).Inv := by
  unfold State.markElt
  with_reducible
    repeat' (first | assumption | (intro _) | apply State.setPp_inv | apply inv_ite | dsimp only
                     | (fail_if_no_progress apply inv_mk) | split)

theorem State.waitElt_inv {s : State} {n : Nat} {first : Bool} (h_s : s.Inv) : (State.waitElt s n first).Inv := by
  unfold State.waitElt
  with_reducible
    repeat' (first | assumption | (intro _) | apply State.setPp_inv | dsimp only | (fail_if_no_progress apply inv_mk) | split)

theorem vecLoads_inv {m : VMem} {a0 : Bool} {a1 : List Nat} {a2 : State} (h_a2 : a2.Inv) : (vecLoads m a0 a1 a2).2.Inv := by
  revert h_a2
  fun_induction vecLoads m a0 a1 a2 <;> intros <;>
  with_reducible
    repeat' (first | assumption | (intro _) | apply State.setPp_inv | apply State.vecStop_inv | apply State.segRead_inv
                     | refine State.segRead_inv' (by assumption) ?_ | apply State.markElt_inv | apply State.waitElt_inv
                     | apply inv_ite_snd | apply inv_ite | dsimp only | apply_assumption | (fail_if_no_progress apply inv_mk)
                     | refine inv_snd (by assumption) ?_ | split)
theorem vecLoads_inv' {m : VMem} {a0 : Bool} {a1 : List Nat} {a2 : State} {r0} {tE : State} (hE : (vecLoads m a0 a1 a2) =
    (r0, tE)) (h_a2 : a2.Inv) : tE.Inv := by
  have h := @vecLoads_inv m a0 a1 a2 h_a2; rw [hE] at h; exact h

theorem vecStores_inv {m : VMem} {a0 : List Nat} {a1 : State} (h_a1 : a1.Inv) : (vecStores m a0 a1).2.Inv := by
  induction a0 generalizing m a1 h_a1 with
  | nil =>
    unfold vecStores
    with_reducible
      repeat' (first | assumption | (intro _) | apply State.vecStop_inv | apply State.segWrite_inv
                         | refine State.segWrite_inv' (by assumption) ?_ | apply State.markElt_inv | apply inv_ite_snd
                         | apply inv_ite | dsimp only | apply ih | (fail_if_no_progress apply inv_mk)
                         | refine inv_snd (by assumption) ?_ | split)
  | cons x xs ih =>
    unfold vecStores
    with_reducible
      repeat' (first | assumption | (intro _) | apply State.vecStop_inv | apply State.segWrite_inv
                         | refine State.segWrite_inv' (by assumption) ?_ | apply State.markElt_inv | apply inv_ite_snd
                         | apply inv_ite | dsimp only | apply ih | (fail_if_no_progress apply inv_mk)
                         | refine inv_snd (by assumption) ?_ | split)
theorem vecStores_inv' {m : VMem} {a0 : List Nat} {a1 : State} {r0} {tE : State} (hE : (vecStores m a0 a1) = (r0, tE)) (h_a1
    : a1.Inv) : tE.Inv := by
  have h := @vecStores_inv m a0 a1 h_a1; rw [hE] at h; exact h

theorem State.vecEnd_inv {s : State} {n : Nat} {leg : Bool} {p : Pp} (h_s : s.Inv) : (State.vecEnd s n leg p).Inv := by
  unfold State.vecEnd
  with_reducible
    repeat' (first | assumption | (intro _) | apply State.vecDone_inv | apply inv_ite | dsimp only
                     | (fail_if_no_progress apply inv_mk) | split)

theorem State.vecSElts_inv {s : State} {n : Nat} {ew : Nat} {a : PpAcc} {a0 : List Nat} {a1 : List Byte} (h_s : s.Inv) :
    (State.vecSElts s n ew a a0 a1).2.Inv := by
  induction a0 generalizing s n ew a a1 h_s with
  | nil =>
    unfold State.vecSElts
    with_reducible
      repeat' (first | assumption | (intro _) | apply State.accRead_inv | refine State.accRead_inv' (by assumption) ?_ | dsimp only
                         | apply ih | (fail_if_no_progress apply inv_mk) | refine inv_snd (by assumption) ?_ | split)
  | cons x xs ih =>
    unfold State.vecSElts
    with_reducible
      repeat' (first | assumption | (intro _) | apply State.accRead_inv | refine State.accRead_inv' (by assumption) ?_ | dsimp only
                         | apply ih | (fail_if_no_progress apply inv_mk) | refine inv_snd (by assumption) ?_ | split)
theorem State.vecSElts_inv' {s : State} {n : Nat} {ew : Nat} {a : PpAcc} {a0 : List Nat} {a1 : List Byte} {r0} {tE : State}
    (hE : (State.vecSElts s n ew a a0 a1) = (r0, tE)) (h_s : s.Inv) : tE.Inv := by
  have h := @State.vecSElts_inv s n ew a a0 a1 h_s; rw [hE] at h; exact h

theorem State.vecSLoad_inv {s : State} {n : Nat} {ew : Nat} {va : Nat} {on : List Nat} (h_s : s.Inv) : (State.vecSLoad s n
    ew va on).2.Inv := by
  unfold State.vecSLoad
  with_reducible
    repeat' (first | assumption | (intro _) | apply State.ppCheck_inv | refine State.ppCheck_inv' (by assumption) ?_
                     | apply State.accRead_inv | refine State.accRead_inv' (by assumption) ?_ | apply State.vecSElts_inv
                     | refine State.vecSElts_inv' (by assumption) ?_ | dsimp only | (fail_if_no_progress apply inv_mk)
                     | refine inv_snd (by assumption) ?_ | split)
theorem State.vecSLoad_inv' {s : State} {n : Nat} {ew : Nat} {va : Nat} {on : List Nat} {r0} {tE : State} (hE :
    (State.vecSLoad s n ew va on) = (r0, tE)) (h_s : s.Inv) : tE.Inv := by
  have h := @State.vecSLoad_inv s n ew va on h_s; rw [hE] at h; exact h

theorem State.vecSCheck_inv {s : State} {n : Nat} {ew : Nat} {va : Nat} {on : List Nat} (h_s : s.Inv) : (State.vecSCheck s n
    ew va on).2.Inv := by
  unfold State.vecSCheck
  with_reducible
    repeat' (first | assumption | (intro _) | apply State.ppCheck_inv | refine State.ppCheck_inv' (by assumption) ?_
                     | apply State.accWrite_inv | refine State.accWrite_inv' (by assumption) ?_ | apply State.storeCheck_inv
                     | refine State.storeCheck_inv' (by assumption) ?_ | apply inv_ite_snd | apply inv_ite | dsimp only
                     | (fail_if_no_progress apply inv_mk) | refine inv_snd (by assumption) ?_ | split)
theorem State.vecSCheck_inv' {s : State} {n : Nat} {ew : Nat} {va : Nat} {on : List Nat} {r0} {tE : State} (hE :
    (State.vecSCheck s n ew va on) = (r0, tE)) (h_s : s.Inv) : tE.Inv := by
  have h := @State.vecSCheck_inv s n ew va on h_s; rw [hE] at h; exact h

theorem State.vecS_inv {s : State} {n : Nat} {f : VF} {load : Bool} {v : VC} (h_s : s.Inv) : (State.vecS s n f load v).Inv
    := by
  unfold State.vecS
  with_reducible
    repeat' (first | assumption | (intro _) | apply State.trap_inv | apply State.vecDone_inv | apply State.vecStop_inv
                     | apply State.segStore_inv | refine State.segStore_inv' (by assumption) ?_ | apply State.vecSLoad_inv
                     | refine State.vecSLoad_inv' (by assumption) ?_ | apply State.vecSCheck_inv
                     | refine State.vecSCheck_inv' (by assumption) ?_ | apply inv_foldl | apply inv_foldl_snd
                     | apply inv_foldl_fst | apply inv_ite | dsimp only | (fail_if_no_progress apply inv_mk)
                     | refine inv_snd (by assumption) ?_ | split)

theorem memOp_inv {n : Nat} {o : MForm} {f : VF} {s : State} (h_s : s.Inv) : (memOp n o f s).Inv := by
  unfold memOp
  with_reducible
    repeat' (first | assumption | (intro _) | apply State.trap_inv | apply vecOp_inv | apply State.vecDone_inv
                     | apply State.markElt_inv | apply vecLoads_inv | refine vecLoads_inv' (by assumption) ?_
                     | apply vecStores_inv | refine vecStores_inv' (by assumption) ?_ | apply State.vecEnd_inv
                     | apply State.vecS_inv | apply inv_ite | dsimp only | (fail_if_no_progress apply inv_mk)
                     | refine inv_snd (by assumption) ?_ | split)

theorem doVld_inv {n : Nat} {f : VF} {s : State} (h_s : s.Inv) : (doVld n f s).Inv := by
  unfold doVld
  with_reducible
    repeat' (first | assumption | (intro _) | apply memOp_inv | dsimp only | (fail_if_no_progress apply inv_mk) | split)

theorem doVlds_inv {n : Nat} {f : VF} {s : State} (h_s : s.Inv) : (doVlds n f s).Inv := by
  unfold doVlds
  with_reducible
    repeat' (first | assumption | (intro _) | apply memOp_inv | dsimp only | (fail_if_no_progress apply inv_mk) | split)

theorem doVldx_inv {n : Nat} {f : VF} {s : State} (h_s : s.Inv) : (doVldx n f s).Inv := by
  unfold doVldx
  with_reducible
    repeat' (first | assumption | (intro _) | apply memOp_inv | dsimp only | (fail_if_no_progress apply inv_mk) | split)

theorem doVldff_inv {n : Nat} {f : VF} {s : State} (h_s : s.Inv) : (doVldff n f s).Inv := by
  unfold doVldff
  with_reducible
    repeat' (first | assumption | (intro _) | apply memOp_inv | dsimp only | (fail_if_no_progress apply inv_mk) | split)

theorem doVldseg_inv {n : Nat} {f : VF} {s : State} (h_s : s.Inv) : (doVldseg n f s).Inv := by
  unfold doVldseg
  with_reducible
    repeat' (first | assumption | (intro _) | apply memOp_inv | dsimp only | (fail_if_no_progress apply inv_mk) | split)

theorem doVldsegs_inv {n : Nat} {f : VF} {s : State} (h_s : s.Inv) : (doVldsegs n f s).Inv := by
  unfold doVldsegs
  with_reducible
    repeat' (first | assumption | (intro _) | apply memOp_inv | dsimp only | (fail_if_no_progress apply inv_mk) | split)

theorem doVst_inv {n : Nat} {f : VF} {s : State} (h_s : s.Inv) : (doVst n f s).Inv := by
  unfold doVst
  with_reducible
    repeat' (first | assumption | (intro _) | apply memOp_inv | dsimp only | (fail_if_no_progress apply inv_mk) | split)

theorem doVsts_inv {n : Nat} {f : VF} {s : State} (h_s : s.Inv) : (doVsts n f s).Inv := by
  unfold doVsts
  with_reducible
    repeat' (first | assumption | (intro _) | apply memOp_inv | dsimp only | (fail_if_no_progress apply inv_mk) | split)

theorem doVstx_inv {n : Nat} {f : VF} {s : State} (h_s : s.Inv) : (doVstx n f s).Inv := by
  unfold doVstx
  with_reducible
    repeat' (first | assumption | (intro _) | apply memOp_inv | dsimp only | (fail_if_no_progress apply inv_mk) | split)

theorem doVstseg_inv {n : Nat} {f : VF} {s : State} (h_s : s.Inv) : (doVstseg n f s).Inv := by
  unfold doVstseg
  with_reducible
    repeat' (first | assumption | (intro _) | apply memOp_inv | dsimp only | (fail_if_no_progress apply inv_mk) | split)

theorem doVstsegs_inv {n : Nat} {f : VF} {s : State} (h_s : s.Inv) : (doVstsegs n f s).Inv := by
  unfold doVstsegs
  with_reducible
    repeat' (first | assumption | (intro _) | apply memOp_inv | dsimp only | (fail_if_no_progress apply inv_mk) | split)

theorem maskLoads_inv {n : Nat} {md : Nat} {base : Nat} {start : Nat} {vl : Nat} {leg : Bool} {a0 : List Nat} {a1 : State}
    (h_a1 : a1.Inv) : (maskLoads n md base start vl leg a0 a1).2.Inv := by
  induction a0 generalizing n md base start vl leg a1 h_a1 with
  | nil =>
    unfold maskLoads
    with_reducible
      repeat' (first | assumption | (intro _) | apply State.setPp_inv | apply State.accLoad_inv
                         | refine State.accLoad_inv' (by assumption) ?_ | apply State.vecStop_inv | apply State.markElt_inv
                         | apply inv_foldl | apply inv_foldl_snd | apply inv_foldl_fst | apply inv_ite_snd | apply inv_ite
                         | dsimp only | apply ih | (fail_if_no_progress apply inv_mk) | refine inv_snd (by assumption) ?_ | split)
  | cons x xs ih =>
    unfold maskLoads
    with_reducible
      repeat' (first | assumption | (intro _) | apply State.setPp_inv | apply State.accLoad_inv
                         | refine State.accLoad_inv' (by assumption) ?_ | apply State.vecStop_inv | apply State.markElt_inv
                         | apply inv_foldl | apply inv_foldl_snd | apply inv_foldl_fst | apply inv_ite_snd | apply inv_ite
                         | dsimp only | apply ih | (fail_if_no_progress apply inv_mk) | refine inv_snd (by assumption) ?_ | split)
theorem maskLoads_inv' {n : Nat} {md : Nat} {base : Nat} {start : Nat} {vl : Nat} {leg : Bool} {a0 : List Nat} {a1 : State}
    {r0} {tE : State} (hE : (maskLoads n md base start vl leg a0 a1) = (r0, tE)) (h_a1 : a1.Inv) : tE.Inv := by
  have h := @maskLoads_inv n md base start vl leg a0 a1 h_a1; rw [hE] at h; exact h

theorem maskStores_inv {n : Nat} {md : Nat} {base : Nat} {start : Nat} {vl : Nat} {leg : Bool} {a0 : List Nat} {a1 : State}
    (h_a1 : a1.Inv) : (maskStores n md base start vl leg a0 a1).2.Inv := by
  induction a0 generalizing n md base start vl leg a1 h_a1 with
  | nil =>
    unfold maskStores
    with_reducible
      repeat' (first | assumption | (intro _) | apply State.accStore_inv | refine State.accStore_inv' (by assumption) ?_
                         | apply State.vecStop_inv | apply State.markElt_inv | dsimp only | apply ih
                         | (fail_if_no_progress apply inv_mk) | refine inv_snd (by assumption) ?_ | split)
  | cons x xs ih =>
    unfold maskStores
    with_reducible
      repeat' (first | assumption | (intro _) | apply State.accStore_inv | refine State.accStore_inv' (by assumption) ?_
                         | apply State.vecStop_inv | apply State.markElt_inv | dsimp only | apply ih
                         | (fail_if_no_progress apply inv_mk) | refine inv_snd (by assumption) ?_ | split)
theorem maskStores_inv' {n : Nat} {md : Nat} {base : Nat} {start : Nat} {vl : Nat} {leg : Bool} {a0 : List Nat} {a1 : State}
    {r0} {tE : State} (hE : (maskStores n md base start vl leg a0 a1) = (r0, tE)) (h_a1 : a1.Inv) : tE.Inv := by
  have h := @maskStores_inv n md base start vl leg a0 a1 h_a1; rw [hE] at h; exact h

theorem maskMem_inv {n : Nat} {load : Bool} {f : VF} {s : State} (h_s : s.Inv) : (maskMem n load f s).Inv := by
  unfold maskMem
  with_reducible
    repeat' (first | assumption | (intro _) | apply vecOp_inv | apply State.vecDone_inv | apply State.vecEnd_inv
                     | apply maskLoads_inv | refine maskLoads_inv' (by assumption) ?_ | apply maskStores_inv
                     | refine maskStores_inv' (by assumption) ?_ | apply inv_ite | dsimp only
                     | (fail_if_no_progress apply inv_mk) | refine inv_snd (by assumption) ?_ | split)

theorem doVldm_inv {n : Nat} {f : VF} {s : State} (h_s : s.Inv) : (doVldm n f s).Inv := by
  unfold doVldm
  with_reducible
    repeat' (first | assumption | (intro _) | apply maskMem_inv | dsimp only | (fail_if_no_progress apply inv_mk) | split)

theorem doVstm_inv {n : Nat} {f : VF} {s : State} (h_s : s.Inv) : (doVstm n f s).Inv := by
  unfold doVstm
  with_reducible
    repeat' (first | assumption | (intro _) | apply maskMem_inv | dsimp only | (fail_if_no_progress apply inv_mk) | split)

end Sys2Proof.Machine
end

