-- ==== Sys2Proof/Laws/MemBoot.lean ====
section
/-!
SUPPORT. The state functions of Machine/Boot.lean keep the canonical form of memory.
-/
namespace Sys2Proof.Machine

open Sys2Proof

set_option linter.unusedTactic false
set_option linter.unreachableTactic false
set_option linter.unusedSimpArgs false
set_option linter.unusedVariables false

theorem State.takeStraps_inv {s : State} {b : BootIn} (h_s : s.Inv) : (State.takeStraps s b).Inv := by
  unfold State.takeStraps
  with_reducible
    repeat' (first | assumption | (intro _) | apply State.setHp_inv | apply inv_foldl | apply inv_foldl_snd | apply inv_foldl_fst
                     | apply inv_ite | dsimp only | (fail_if_no_progress apply inv_mk) | split)

theorem State.ddrUnsupported_inv {s : State} {b : BootIn} (h_s : s.Inv) : (State.ddrUnsupported s b).Inv := by
  unfold State.ddrUnsupported
  with_reducible
    repeat' (first | assumption | (intro _) | apply State.log_inv | apply inv_foldl | apply inv_foldl_snd | apply inv_foldl_fst
                     | apply inv_ite | dsimp only | (fail_if_no_progress apply inv_mk) | split)

theorem State.trainHbm_inv {s : State} {b : BootIn} (h_s : s.Inv) : (State.trainHbm s b).Inv := by
  unfold State.trainHbm
  with_reducible
    repeat' (first | assumption | (intro _) | apply writeBytes_wf | apply filter_wf | apply inv_mem | apply State.setDc_inv
                     | apply inv_foldl | apply inv_foldl_snd | apply inv_foldl_fst | dsimp only
                     | (fail_if_no_progress apply inv_mk) | (fail_if_no_progress apply inv_mk_wf) | split)

theorem State.trainDdr5_inv {s : State} {b : BootIn} (h_s : s.Inv) : (State.trainDdr5 s b).Inv := by
  unfold State.trainDdr5
  with_reducible
    repeat' (first | assumption | (intro _) | apply State.setDc_inv | apply State.log_inv | apply State.ddrUnsupported_inv
                     | apply inv_foldl | apply inv_foldl_snd | apply inv_foldl_fst | apply inv_ite | dsimp only
                     | (fail_if_no_progress apply inv_mk) | split)

theorem keepFrom_wf {mem keep : List Host.Cell} (h : Memory.wf mem = true) : Memory.wf (keepFrom mem keep) = true := by
  unfold keepFrom
  have h0 := filter_wf (fun (c : Host.Cell) => decide (keepEnd ≤ c.1)) h
  revert h0
  generalize mem.filter (fun (c : Host.Cell) => decide (keepEnd ≤ c.1)) = m
  intro h0
  induction keep.filter (fun (c : Host.Cell) => decide (c.1 < keepEnd)) generalizing m with
  | nil => exact h0
  | cons c t ih => exact ih _ (memPut_wf c.1 c.2 h0)

theorem State.copySlot_inv {s : State} {k : KsSlot} (h_s : s.Inv) : (State.copySlot s k).Inv := by
  unfold State.copySlot
  exact inv_mk_wf (keepFrom_wf (inv_mem h_s))

theorem State.bridge_inv {s : State} (h_s : s.Inv) : (State.bridge s).Inv := by
  unfold State.bridge
  with_reducible
    repeat' (first | assumption | (intro _) | apply State.memWrite_inv | dsimp only | (fail_if_no_progress apply inv_mk) | split)

theorem State.restoreKeep_inv {s : State} (h_s : s.Inv) : (State.restoreKeep s).Inv := by
  unfold State.restoreKeep
  with_reducible
    repeat' (first | assumption | (intro _) | apply State.copySlot_inv | apply State.bridge_inv | apply inv_ite | dsimp only
                     | (fail_if_no_progress apply inv_mk) | split)

theorem State.restoreLoad_inv {s : State} (h_s : s.Inv) : (State.restoreLoad s).Inv := by
  unfold State.restoreLoad
  with_reducible
    repeat' (first | assumption | (intro _) | apply State.memWrite_inv | dsimp only | (fail_if_no_progress apply inv_mk) | split)

theorem State.eraseStarts_inv {s : State} (h_s : s.Inv) : (State.eraseStarts s).Inv := by
  unfold State.eraseStarts
  with_reducible
    repeat' (first | assumption | (intro _) | dsimp only | (fail_if_no_progress apply inv_mk) | split)

theorem State.bootFail_inv {s : State} {code : Nat} (h_s : s.Inv) : (State.bootFail s code).Inv := by
  unfold State.bootFail
  with_reducible
    repeat' (first | assumption | (intro _) | apply State.log_inv | dsimp only | (fail_if_no_progress apply inv_mk) | split)

theorem doBootStart_inv {b : BootIn} {s : State} (h_s : s.Inv) : (doBootStart b s).Inv := by
  unfold doBootStart
  with_reducible
    repeat' (first | assumption | (intro _) | apply State.takeStraps_inv | apply State.trainHbm_inv | apply State.trainDdr5_inv
                     | apply State.restoreKeep_inv | apply State.restoreLoad_inv | apply State.eraseStarts_inv
                     | apply State.bootFail_inv | apply inv_ite | dsimp only | (fail_if_no_progress apply inv_mk) | split)

theorem State.arm_inv {s : State} (h_s : s.Inv) : (State.arm s).Inv := by
  unfold State.arm
  with_reducible
    repeat' (first | assumption | (intro _) | apply inv_ite | dsimp only | (fail_if_no_progress apply inv_mk) | split)

theorem doBootDone_inv {ms : Nat} {s : State} (h_s : s.Inv) : (doBootDone ms s).Inv := by
  unfold doBootDone
  with_reducible
    repeat' (first | assumption | (intro _) | apply State.memWrite_inv | apply doEnumerate_inv | apply State.wakeStalls_inv
                     | apply State.arm_inv | apply inv_ite | dsimp only | (fail_if_no_progress apply inv_mk) | split)

theorem doPpReset_inv {n : Nat} {s : State} (h_s : s.Inv) : (doPpReset n s).Inv := by
  unfold doPpReset
  with_reducible
    repeat' (first | assumption | (intro _) | apply State.setPp_inv | apply State.hostForget_inv | apply inv_ite | dsimp only
                     | (fail_if_no_progress apply inv_mk) | split)

theorem mctpMsg_inv {s : State} {code : Nat} {body : List Byte} (h_s : s.Inv) : (mctpMsg s code body).Inv := by
  unfold mctpMsg
  with_reducible
    repeat' (first | assumption | (intro _) | apply State.emit_inv | dsimp only | (fail_if_no_progress apply inv_mk) | split)

theorem vendorMsg_inv {code : Nat} {ok : Bool} {body : List Byte} {s : State} (h_s : s.Inv) : (vendorMsg code ok body s).Inv
    := by
  unfold vendorMsg
  with_reducible
    repeat' (first | assumption | (intro _) | apply mctpMsg_inv | apply inv_ite | dsimp only | (fail_if_no_progress apply inv_mk)
                     | split)

theorem doSetEid_inv {e : BitVec 8} {s : State} (h_s : s.Inv) : (doSetEid e s).Inv := by
  unfold doSetEid
  with_reducible
    repeat' (first | assumption | (intro _) | apply mctpMsg_inv | apply inv_ite | dsimp only | (fail_if_no_progress apply inv_mk)
                     | split)

theorem doGetEid_inv {s : State} (h_s : s.Inv) : (doGetEid s).Inv := by
  unfold doGetEid
  with_reducible
    repeat' (first | assumption | (intro _) | apply State.free_inv | refine State.free_inv' (by assumption) ?_ | apply mctpMsg_inv
                     | apply inv_ite | dsimp only | (fail_if_no_progress apply inv_mk) | refine inv_snd (by assumption) ?_
                     | split)

theorem doGetVersion_inv {t : BitVec 8} {s : State} (h_s : s.Inv) : (doGetVersion t s).Inv := by
  unfold doGetVersion
  with_reducible
    repeat' (first | assumption | (intro _) | apply State.free_inv | refine State.free_inv' (by assumption) ?_ | apply mctpMsg_inv
                     | apply inv_ite | dsimp only | (fail_if_no_progress apply inv_mk) | refine inv_snd (by assumption) ?_
                     | split)

theorem doGetTypes_inv {s : State} (h_s : s.Inv) : (doGetTypes s).Inv := by
  unfold doGetTypes
  with_reducible
    repeat' (first | assumption | (intro _) | apply mctpMsg_inv | apply inv_ite | dsimp only | (fail_if_no_progress apply inv_mk)
                     | split)

theorem doGetBootState_inv {body : List Byte} {s : State} (h_s : s.Inv) : (doGetBootState body s).Inv := by
  unfold doGetBootState
  with_reducible
    repeat' (first | assumption | (intro _) | apply vendorMsg_inv | dsimp only | (fail_if_no_progress apply inv_mk) | split)

theorem doGetThermal_inv {body : List Byte} {s : State} (h_s : s.Inv) : (doGetThermal body s).Inv := by
  unfold doGetThermal
  with_reducible
    repeat' (first | assumption | (intro _) | apply vendorMsg_inv | dsimp only | (fail_if_no_progress apply inv_mk) | split)

theorem doGetPower_inv {body : List Byte} {s : State} (h_s : s.Inv) : (doGetPower body s).Inv := by
  unfold doGetPower
  with_reducible
    repeat' (first | assumption | (intro _) | apply vendorMsg_inv | dsimp only | (fail_if_no_progress apply inv_mk) | split)

theorem doReadErrorLog_inv {body : List Byte} {s : State} (h_s : s.Inv) : (doReadErrorLog body s).Inv := by
  unfold doReadErrorLog
  with_reducible
    repeat' (first | assumption | (intro _) | apply vendorMsg_inv | dsimp only | (fail_if_no_progress apply inv_mk) | split)

theorem doMctpReset_inv {body : List Byte} {s : State} (h_s : s.Inv) : (doMctpReset body s).Inv := by
  unfold doMctpReset
  with_reducible
    repeat' (first | assumption | (intro _) | apply State.requestReset_inv | apply mctpMsg_inv | apply inv_ite | dsimp only
                     | (fail_if_no_progress apply inv_mk) | split)

end Sys2Proof.Machine
end

