-- ==== Sys2Proof/Laws/MemDebug.lean ====
section
/-!
SUPPORT. The state functions of Machine/Debug.lean keep the canonical form of memory.
-/
namespace Sys2Proof.Machine

open Sys2Proof

set_option linter.unusedTactic false
set_option linter.unreachableTactic false
set_option linter.unusedSimpArgs false
set_option linter.unusedVariables false

theorem State.tapIr_inv {s : State} {code : Nat} (h_s : s.Inv) : (State.tapIr s code).Inv := by
  unfold State.tapIr
  with_reducible
    repeat' (first | assumption | (intro _) | dsimp only | (fail_if_no_progress apply inv_mk) | split)

theorem tapRun_inv {code : Nat} {f : State → State} {s : State} (h_f : ∀ x0, State.Inv x0 → (f x0).Inv) (h_s : s.Inv) :
    (tapRun code f s).Inv := by
  unfold tapRun
  with_reducible
    repeat' (first | assumption | (intro _) | apply State.tapIr_inv | apply inv_ite | dsimp only | apply_assumption
                     | (fail_if_no_progress apply inv_mk) | split)

theorem State.boundary_inv {s : State} {scan : List Bool} (h_s : s.Inv) : (State.boundary s scan).Inv := by
  unfold State.boundary
  with_reducible
    repeat' (first | assumption | (intro _) | apply State.free_inv | refine State.free_inv' (by assumption) ?_
                     | apply State.emit_inv | dsimp only | (fail_if_no_progress apply inv_mk)
                     | refine inv_snd (by assumption) ?_ | split)

theorem doExtest_inv {scan : List Bool} {s : State} (h_s : s.Inv) : (doExtest scan s).Inv := by
  unfold doExtest
  with_reducible
    repeat' (first | assumption | (intro _) | apply State.emit_inv | apply State.log_inv | apply tapRun_inv
                     | apply State.boundary_inv | apply inv_ite | dsimp only | (fail_if_no_progress apply inv_mk) | split)

theorem doSample_inv {scan : List Bool} {s : State} (h_s : s.Inv) : (doSample scan s).Inv := by
  unfold doSample
  with_reducible
    repeat' (first | assumption | (intro _) | apply tapRun_inv | apply State.boundary_inv | dsimp only
                     | (fail_if_no_progress apply inv_mk) | split)

theorem doIdcode_inv {s : State} (h_s : s.Inv) : (doIdcode s).Inv := by
  unfold doIdcode
  with_reducible
    repeat' (first | assumption | (intro _) | apply State.emit_inv | apply State.tapIr_inv | dsimp only
                     | (fail_if_no_progress apply inv_mk) | split)

theorem doBypass_inv {bit : Bool} {s : State} (h_s : s.Inv) : (doBypass bit s).Inv := by
  unfold doBypass
  with_reducible
    repeat' (first | assumption | (intro _) | apply State.emit_inv | apply State.tapIr_inv | dsimp only
                     | (fail_if_no_progress apply inv_mk) | split)

theorem doDbgStatus_inv {s : State} (h_s : s.Inv) : (doDbgStatus s).Inv := by
  unfold doDbgStatus
  with_reducible
    repeat' (first | assumption | (intro _) | apply State.emit_inv | apply tapRun_inv | dsimp only
                     | (fail_if_no_progress apply inv_mk) | split)

theorem doTrst_inv {s : State} (h_s : s.Inv) : (doTrst s).Inv := by
  unfold doTrst
  with_reducible
    repeat' (first | assumption | (intro _) | apply State.scopeEnd_inv | apply State.tapIr_inv | dsimp only
                     | (fail_if_no_progress apply inv_mk) | split)

theorem doDbgNonce_inv {s : State} (h_s : s.Inv) : (doDbgNonce s).Inv := by
  unfold doDbgNonce
  with_reducible
    repeat' (first | assumption | (intro _) | apply State.emit_inv | apply tapRun_inv | dsimp only
                     | (fail_if_no_progress apply inv_mk) | split)

theorem doNonceExpiry_inv {s : State} (h_s : s.Inv) : (doNonceExpiry s).Inv := by
  unfold doNonceExpiry
  with_reducible
    repeat' (first | assumption | (intro _) | apply State.reach_inv | dsimp only | (fail_if_no_progress apply inv_mk) | split)

theorem State.dbgSt_inv {s : State} {st : Nat} (h_s : s.Inv) : (State.dbgSt s st).Inv := by
  unfold State.dbgSt
  with_reducible
    repeat' (first | assumption | (intro _) | dsimp only | (fail_if_no_progress apply inv_mk) | split)

theorem State.authOk_inv {s : State} {scope : Nat} (h_s : s.Inv) : (State.authOk s scope).Inv := by
  unfold State.authOk
  with_reducible
    repeat' (first | assumption | (intro _) | dsimp only | (fail_if_no_progress apply inv_mk) | split)

theorem State.authFail_inv {s : State} (h_s : s.Inv) : (State.authFail s).Inv := by
  unfold State.authFail
  with_reducible
    repeat' (first | assumption | (intro _) | apply State.free_inv | refine State.free_inv' (by assumption) ?_
                     | apply State.log_inv | apply State.scopeEnd_inv | apply inv_ite | dsimp only
                     | (fail_if_no_progress apply inv_mk) | refine inv_snd (by assumption) ?_ | split)

theorem State.nonceOver_inv {s : State} (h_s : s.Inv) : (State.nonceOver s).Inv := by
  unfold State.nonceOver
  with_reducible
    repeat' (first | assumption | (intro _) | dsimp only | (fail_if_no_progress apply inv_mk) | split)

theorem doDbgAuth_inv {scope : BitVec 8} {secret : BitVec 128} {s : State} (h_s : s.Inv) : (doDbgAuth scope secret s).Inv :=
    by
  unfold doDbgAuth
  with_reducible
    repeat' (first | assumption | (intro _) | apply tapRun_inv | apply State.dbgSt_inv | apply State.authOk_inv
                     | apply State.authFail_inv | apply State.nonceOver_inv | apply inv_ite | dsimp only
                     | (fail_if_no_progress apply inv_mk) | split)

theorem doDbgClose_inv {s : State} (h_s : s.Inv) : (doDbgClose s).Inv := by
  unfold doDbgClose
  with_reducible
    repeat' (first | assumption | (intro _) | apply State.scopeEnd_inv | apply tapRun_inv | dsimp only
                     | (fail_if_no_progress apply inv_mk) | split)

theorem doDbgLock_inv {s : State} (h_s : s.Inv) : (doDbgLock s).Inv := by
  unfold doDbgLock
  with_reducible
    repeat' (first | assumption | (intro _) | apply State.scopeEnd_inv | apply tapRun_inv | apply inv_ite | dsimp only
                     | (fail_if_no_progress apply inv_mk) | split)

theorem State.dbgEnd_inv {s : State} {st : Nat} (h_s : s.Inv) : (State.dbgEnd s st).Inv := by
  unfold State.dbgEnd
  with_reducible
    repeat' (first | assumption | (intro _) | dsimp only | (fail_if_no_progress apply inv_mk) | split)

theorem State.dbgData_inv {s : State} {v : Word} (h_s : s.Inv) : (State.dbgData s v).Inv := by
  unfold State.dbgData
  with_reducible
    repeat' (first | assumption | (intro _) | apply State.dbgEnd_inv | dsimp only | (fail_if_no_progress apply inv_mk) | split)

theorem dbgCmd_inv {op : Nat} {need : Nat} {f : State → State} {s : State} (h_f : ∀ x0, State.Inv x0 → (f x0).Inv) (h_s :
    s.Inv) : (dbgCmd op need f s).Inv := by
  unfold dbgCmd
  with_reducible
    repeat' (first | assumption | (intro _) | apply tapRun_inv | apply State.dbgSt_inv | apply State.dbgEnd_inv | apply inv_ite
                     | dsimp only | apply_assumption | (fail_if_no_progress apply inv_mk) | split)

theorem dbgReg_inv {wide : Bool} {write : Bool} {o : Nat} {v : Word} {s : State} (h_s : s.Inv) : (dbgReg wide write o v
    s).Inv := by
  unfold dbgReg
  with_reducible
    repeat' (first | assumption | (intro _) | apply regOf_inv | apply doRelayGo_inv | apply doRegAccess_inv
                     | apply State.dbgEnd_inv | exact regsInv_none | apply regsInv_some | apply regsInv_map | apply regsInv_ite
                     | apply regInv_ite | exact regInv_status | apply regInv_config | exact regInv_loaded
                     | apply regInv_partScope | refine regsInv_elim (by assumption) ?_ | (fail_if_no_progress apply regInv_mk)
                     | apply regInv_write | apply inv_ite | dsimp only | (fail_if_no_progress apply inv_mk) | split)

theorem State.dbgBusErr_inv {s : State} {write : Bool} (h_s : s.Inv) : (State.dbgBusErr s write).Inv := by
  unfold State.dbgBusErr
  with_reducible
    repeat' (first | assumption | (intro _) | apply State.free_inv | refine State.free_inv' (by assumption) ?_
                     | apply State.regError_inv | apply State.dbgEnd_inv | dsimp only | (fail_if_no_progress apply inv_mk)
                     | refine inv_snd (by assumption) ?_ | split)

theorem dbgMem_inv {write : Bool} {d : Nat} {v : Word} {s : State} (h_s : s.Inv) : (dbgMem write d v s).Inv := by
  unfold dbgMem
  with_reducible
    repeat' (first | assumption | (intro _) | apply State.log_inv | apply State.hostPost_inv
                     | refine State.hostPost_inv' (by assumption) ?_ | apply State.hostTake_inv
                     | refine State.hostTake_inv' (by assumption) ?_ | apply State.memRead_inv
                     | refine State.memRead_inv' (by assumption) ?_ | apply State.memWrite_inv | apply State.regError_inv
                     | apply doRegAccess_inv | apply State.dbgEnd_inv | apply State.dbgData_inv | apply State.dbgBusErr_inv
                     | apply inv_ite | dsimp only | (fail_if_no_progress apply inv_mk) | refine inv_snd (by assumption) ?_
                     | split)

theorem doDbgNop_inv {s : State} (h_s : s.Inv) : (doDbgNop s).Inv := by
  unfold doDbgNop
  with_reducible
    repeat' (first | assumption | (intro _) | apply State.dbgEnd_inv | apply dbgCmd_inv | dsimp only
                     | (fail_if_no_progress apply inv_mk) | split)

theorem doRegRead_inv {wide : Bool} {a : BitVec 48} {s : State} (h_s : s.Inv) : (doRegRead wide a s).Inv := by
  unfold doRegRead
  with_reducible
    repeat' (first | assumption | (intro _) | apply dbgCmd_inv | apply dbgReg_inv | dsimp only
                     | (fail_if_no_progress apply inv_mk) | split)

theorem doLogRead_inv {a : BitVec 48} {s : State} (h_s : s.Inv) : (doLogRead a s).Inv := by
  unfold doLogRead
  with_reducible
    repeat' (first | assumption | (intro _) | apply State.free_inv | refine State.free_inv' (by assumption) ?_
                     | apply State.dbgData_inv | apply dbgCmd_inv | dsimp only | (fail_if_no_progress apply inv_mk)
                     | refine inv_snd (by assumption) ?_ | split)

theorem doRegWrite_inv {wide : Bool} {a : BitVec 48} {d : Word} {s : State} (h_s : s.Inv) : (doRegWrite wide a d s).Inv :=
    by
  unfold doRegWrite
  with_reducible
    repeat' (first | assumption | (intro _) | apply dbgCmd_inv | apply dbgReg_inv | dsimp only
                     | (fail_if_no_progress apply inv_mk) | split)

theorem doMemRead_inv {a : BitVec 48} {s : State} (h_s : s.Inv) : (doMemRead a s).Inv := by
  unfold doMemRead
  with_reducible
    repeat' (first | assumption | (intro _) | apply dbgCmd_inv | apply dbgMem_inv | dsimp only
                     | (fail_if_no_progress apply inv_mk) | split)

theorem doMemWrite_inv {a : BitVec 48} {d : Word} {s : State} (h_s : s.Inv) : (doMemWrite a d s).Inv := by
  unfold doMemWrite
  with_reducible
    repeat' (first | assumption | (intro _) | apply dbgCmd_inv | apply dbgMem_inv | dsimp only
                     | (fail_if_no_progress apply inv_mk) | split)

theorem State.haltPp_inv {s : State} {n : Nat} (h_s : s.Inv) : (State.haltPp s n).Inv := by
  unfold State.haltPp
  with_reducible
    repeat' (first | assumption | (intro _) | apply State.setPp_inv | apply inv_ite | dsimp only
                     | (fail_if_no_progress apply inv_mk) | split)

theorem State.resumePp_inv {s : State} {n : Nat} {next' : DbgHalt} (h_s : s.Inv) : (State.resumePp s n next').Inv := by
  unfold State.resumePp
  with_reducible
    repeat' (first | assumption | (intro _) | apply State.setPp_inv | apply State.takeHeldStop_inv | apply State.trapReturn_inv
                     | dsimp only | (fail_if_no_progress apply inv_mk) | split)

theorem doPpHalt_inv {a : BitVec 48} {s : State} (h_s : s.Inv) : (doPpHalt a s).Inv := by
  unfold doPpHalt
  with_reducible
    repeat' (first | assumption | (intro _) | apply State.dbgEnd_inv | apply dbgCmd_inv | apply State.haltPp_inv | dsimp only
                     | (fail_if_no_progress apply inv_mk) | split)

theorem doPpResume_inv {a : BitVec 48} {s : State} (h_s : s.Inv) : (doPpResume a s).Inv := by
  unfold doPpResume
  with_reducible
    repeat' (first | assumption | (intro _) | apply State.dbgEnd_inv | apply dbgCmd_inv | apply State.resumePp_inv | dsimp only
                     | (fail_if_no_progress apply inv_mk) | split)

theorem doPpStep_inv {a : BitVec 48} {s : State} (h_s : s.Inv) : (doPpStep a s).Inv := by
  unfold doPpStep
  with_reducible
    repeat' (first | assumption | (intro _) | apply State.dbgEnd_inv | apply dbgCmd_inv | apply State.resumePp_inv | dsimp only
                     | (fail_if_no_progress apply inv_mk) | split)

theorem doPpState_inv {a : BitVec 48} {s : State} (h_s : s.Inv) : (doPpState a s).Inv := by
  unfold doPpState
  with_reducible
    repeat' (first | assumption | (intro _) | apply State.free_inv | refine State.free_inv' (by assumption) ?_
                     | apply State.dbgData_inv | apply dbgCmd_inv | apply inv_ite | dsimp only
                     | (fail_if_no_progress apply inv_mk) | refine inv_snd (by assumption) ?_ | split)

theorem State.haltBits_inv {s : State} {b : Bool} (h_s : s.Inv) : (State.haltBits s b).Inv := by
  unfold State.haltBits
  with_reducible
    repeat' (first | assumption | (intro _) | apply State.setPp_inv | apply inv_foldl | apply inv_foldl_snd | apply inv_foldl_fst
                     | apply inv_ite | dsimp only | (fail_if_no_progress apply inv_mk) | split)

theorem doHaltOnBreak_inv {d : Word} {s : State} (h_s : s.Inv) : (doHaltOnBreak d s).Inv := by
  unfold doHaltOnBreak
  with_reducible
    repeat' (first | assumption | (intro _) | apply State.dbgEnd_inv | apply dbgCmd_inv | apply State.haltBits_inv | dsimp only
                     | (fail_if_no_progress apply inv_mk) | split)

theorem doDbgReset_inv {s : State} (h_s : s.Inv) : (doDbgReset s).Inv := by
  unfold doDbgReset
  with_reducible
    repeat' (first | assumption | (intro _) | apply State.requestReset_inv | apply State.dbgEnd_inv | apply dbgCmd_inv
                     | dsimp only | (fail_if_no_progress apply inv_mk) | split)

theorem State.fusePart_inv {s : State} {k : Nat} {d : Word} (h_s : s.Inv) : (State.fusePart s k d).Inv := by
  unfold State.fusePart
  with_reducible
    repeat' (first | assumption | (intro _) | apply inv_ite | dsimp only | (fail_if_no_progress apply inv_mk) | split)

theorem doFuseHash_inv {a : BitVec 48} {d : Word} {s : State} (h_s : s.Inv) : (doFuseHash a d s).Inv := by
  unfold doFuseHash
  with_reducible
    repeat' (first | assumption | (intro _) | apply State.dbgEnd_inv | apply dbgCmd_inv | apply State.fusePart_inv | apply inv_ite
                     | dsimp only | (fail_if_no_progress apply inv_mk) | split)

theorem doThermal_inv {temps : List Int} {powerDw : Nat} {s : State} (h_s : s.Inv) : (doThermal temps powerDw s).Inv := by
  unfold doThermal
  with_reducible
    repeat' (first | assumption | (intro _) | apply State.emit_inv | apply doHotChange_inv | apply inv_foldl | apply inv_foldl_snd
                     | apply inv_foldl_fst | apply inv_ite | dsimp only | (fail_if_no_progress apply inv_mk) | split)

theorem doTripStop_inv {s : State} (h_s : s.Inv) : (doTripStop s).Inv := by
  unfold doTripStop
  with_reducible
    repeat' (first | assumption | (intro _) | apply inv_ite | dsimp only | (fail_if_no_progress apply inv_mk) | split)

end Sys2Proof.Machine
end

