-- ==== Sys2Proof/Laws/PpOps.lean ====
section
/-!
SUPPORT. What the shared operations of the instructions of a PP do: registers, the run of one instruction, the write of
a result, taking a trap and returning from one.
-/
namespace Sys2Proof.Machine

open Sys2Proof

/-- A write of X[r] changes nothing else of the PP. -/
theorem Pp.setX_frame (p : Pp) (r : BitVec 5) (v : Word) : { p.setX r v with x := p.x } = p := by
  unfold Pp.setX; split <;> rfl

/-! ### The run of one instruction -/

/-- A PP that does not execute stays as it is. -/
theorem ppRun_stays {s : State} {n : Nat} (f : State → State) (h : s.ppCan n = false) : ppRun s n f = s := by simp [ppRun, h]

/-- A fetch that traps runs no instruction. -/
theorem ppRun_stops {s t : State} {n : Nat} (f : State → State) (h : s.ppCan n = true) (w : s.ppStall n = none)
    (e : s.fetchStop n (s.pp n).pc = some t) : ppRun s n f = t.stepDone n := by simp [ppRun, ppGo, h, w, e]

/-- The instruction runs, on the state that its fetch leaves. -/
theorem ppRun_runs {s u : State} {n : Nat} (f : State → State) (h : s.ppCan n = true) (w : s.ppStall n = none)
    (e : s.fetchStop n (s.pp n).pc = none) (g : s.fetched n (s.pp n).pc = u) : ppRun s n f = (f u).stepDone n := by
  simp [ppRun, ppGo, h, w, e, g]

/-- An instruction of two words runs. -/
theorem ppRun2_runs {s u v : State} {n : Nat} (f : State → State) (h : s.ppCan n = true) (w : s.ppStall n = none)
    (e : s.fetchStop n (s.pp n).pc = none) (g : s.fetched n (s.pp n).pc = u) (e2 : u.fetchStop n ((u.pp n).pc + 4) = none)
    (g2 : u.fetched n ((u.pp n).pc + 4) = v) : ppRun2 s n f = (f v).stepDone n := by
  rw [ppRun2, ppRun_runs _ h w e g]; simp only [e2, g2]

/-- While an access of the PP waits at the fabric, an instruction that leaves it waiting changes nothing. -/
theorem ppRun_stalled {s : State} {n : Nat} {a : Stall} (f : State → State) (w : s.ppStall n = some a)
    (e : (ppGo s n f).stalls.contains a = true) : ppRun s n f = s := by
  simp only [ppRun, w, e, if_true, ite_self]

/-- PP_STEP's halt touches the halt state of its PP alone. -/
theorem State.stepDone_eq (s : State) (n : Nat) :
    s.stepDone n = s ∨ ((s.pp n).dbg = .step ∧ s.stepDone n = s.setPp n { s.pp n with dbg := .byHalt }) := by
  unfold State.stepDone
  split
  · rename_i h; exact .inr ⟨h.1, rfl⟩
  · exact .inl rfl

theorem State.stepDone_pp (s : State) (n : Nat) :
    (s.stepDone n).pp n = if (s.pp n).dbg = .step ∧ (s.pp n).blocked = .none then { s.pp n with dbg := .byHalt } else s.pp n := by
  unfold State.stepDone; split <;> simp

theorem State.stepDone_pp_other (s : State) {n m : Nat} (h : m ≠ n) : (s.stepDone n).pp m = s.pp m := by
  unfold State.stepDone
  split
  · exact State.pp_setPp_other s _ h
  · rfl

@[simp] theorem State.stepDone_mem (s : State) (n : Nat) : (s.stepDone n).mem = s.mem := by unfold State.stepDone; split <;> rfl

/-- Nothing but its PP's record differs. -/
theorem State.stepDone_frame (s : State) (n : Nat) : { s.stepDone n with pps := s.pps } = s := by unfold State.stepDone; split <;> rfl

/-! ### The write of a result -/

/-- `wr` touches its PP alone: X[rd], the pc, and the wait of a blocked access. -/
theorem State.wr_eq (s : State) (n : Nat) (rd : BitVec 5) (v : Word) :
    s.wr n rd v = s.setPp n { (s.pp n).setX rd v with
      pc := (s.pp n).pc + 4, blocked := .none, hostAt := none, hostSeen := [], hostLeft := [], eltAt := 0 } := by
  simp [State.wr, Pp.advance]

theorem State.wr_pp (s : State) (n : Nat) (rd : BitVec 5) (v : Word) :
    (s.wr n rd v).pp n = { (s.pp n).setX rd v with
      pc := (s.pp n).pc + 4, blocked := .none, hostAt := none, hostSeen := [], hostLeft := [], eltAt := 0 } := by
  rw [State.wr_eq, State.pp_setPp]

theorem State.wr_pp_other (s : State) {n m : Nat} (rd : BitVec 5) (v : Word) (h : m ≠ n) : (s.wr n rd v).pp m = s.pp m :=
  State.pp_setPp_other s _ h

@[simp] theorem State.wr_mem (s : State) (n : Nat) (rd : BitVec 5) (v : Word) : (s.wr n rd v).mem = s.mem := rfl

theorem State.wr_frame (s : State) (n : Nat) (rd : BitVec 5) (v : Word) : { s.wr n rd v with pps := s.pps } = s := rfl

/-- A binary OP instruction that executes and is well formed: the write of its function's value. -/
theorem opBin_runs {s : State} {n fn : Nat} {f : RF} (g : Word → Word → Word) (h : s.ppCan n = true) (w : s.ppStall n = none)
    (e : s.fetchStop n (s.pp n).pc = none) (q : s.fetched n (s.pp n).pc = s) (z : f.rs3 = 0) :
    opBin n fn f g s = (s.wr n f.rd (g ((s.pp n).getX f.rs1) ((s.pp n).getX f.rs2))).stepDone n := by
  rw [opBin, ppRun_runs _ h w e q, if_neg (by simp [z])]

/-- A malformed one traps. -/
theorem opBin_traps {s : State} {n fn : Nat} {f : RF} (g : Word → Word → Word) (h : s.ppCan n = true) (w : s.ppStall n = none)
    (e : s.fetchStop n (s.pp n).pc = none) (q : s.fetched n (s.pp n).pc = s) (z : f.rs3 ≠ 0) :
    opBin n fn f g s = (s.illegal n (encR 0 fn f)).stepDone n := by
  rw [opBin, ppRun_runs _ h w e q, if_pos z]

theorem opUn_runs {s : State} {n fn : Nat} {f : RF} (g : Word → Word) (h : s.ppCan n = true) (w : s.ppStall n = none)
    (e : s.fetchStop n (s.pp n).pc = none) (q : s.fetched n (s.pp n).pc = s) (z3 : f.rs3 = 0) (z2 : f.rs2 = 0) :
    opUn n fn f g s = (s.wr n f.rd (g ((s.pp n).getX f.rs1))).stepDone n := by
  rw [opUn, ppRun_runs _ h w e q, if_neg (by simp [z3, z2])]

/-! ### Taking a trap and returning from one (R93, R94) -/

/-- What is given up is no part of the program's state. -/
theorem Pp.giveUp_keeps (p : Pp) :
    p.giveUp.mode = p.mode ∧ p.giveUp.pc = p.pc ∧ p.giveUp.x = p.x ∧ p.giveUp.halted = p.halted
    ∧ ∀ r, p.giveUp.getCsr r = p.getCsr r := ⟨rfl, rfl, rfl, rfl, fun _ => rfl⟩

/-- From leg mode: the pc, the cause and the value are saved in PEPC, PCAUSE and PTVAL; pilot mode at the cause's entry. -/
theorem Pp.takeTrap_leg {p : Pp} (cause : Nat) (value : Word) (h : p.mode = .leg) :
    let q := p.takeTrap cause value
    q.mode = .pilot ∧ q.pc = p.getCsr csrPVEC + BitVec.ofNat 64 (cause * 0x40) ∧ q.getCsr csrPEPC = p.pc
    ∧ q.getCsr csrPCAUSE = BitVec.ofNat 64 cause ∧ q.getCsr csrPTVAL = value ∧ q.x = p.x ∧ q.halted = p.halted
    ∧ ∀ r, r ≠ csrPEPC → r ≠ csrPCAUSE → r ≠ csrPTVAL → q.getCsr r = p.getCsr r := by
  intro q
  obtain ⟨hm, ep, ex, eh, eg⟩ := p.giveUp_keeps
  rw [h] at hm
  have hq : q = { ((p.giveUp.setCsr csrPEPC p.giveUp.pc).setCsr csrPCAUSE (BitVec.ofNat 64 cause)).setCsr csrPTVAL value with
      mode := .pilot, pc := p.giveUp.getCsr csrPVEC + BitVec.ofNat 64 (cause * 0x40) } := by
    simp only [q, Pp.takeTrap, hm]
  rw [hq, ← ep, ← ex, ← eh, ← eg csrPVEC]
  simp only [← eg]
  clear hq eg eh ex ep hm q
  generalize p.giveUp = r
  refine ⟨trivial, trivial, ?_, ?_, ?_, rfl, rfl, ?_⟩
  · show (((r.setCsr csrPEPC r.pc).setCsr csrPCAUSE _).setCsr csrPTVAL value).getCsr csrPEPC = _
    rw [Pp.getCsr_setCsr_other _ _ (by decide), Pp.getCsr_setCsr_other _ _ (by decide), Pp.getCsr_setCsr]
  · show (((r.setCsr csrPEPC r.pc).setCsr csrPCAUSE _).setCsr csrPTVAL value).getCsr csrPCAUSE = _
    rw [Pp.getCsr_setCsr_other _ _ (by decide), Pp.getCsr_setCsr]
  · exact Pp.getCsr_setCsr _ _ _
  · intro k h1 h2 h3
    show (((r.setCsr csrPEPC r.pc).setCsr csrPCAUSE _).setCsr csrPTVAL value).getCsr k = _
    rw [Pp.getCsr_setCsr_other _ _ h3, Pp.getCsr_setCsr_other _ _ h2, Pp.getCsr_setCsr_other _ _ h1]

/-- From pilot mode with NEST clear: the second set of registers, and NEST is set. -/
theorem Pp.takeTrap_pilot {p : Pp} (cause : Nat) (value : Word) (h : p.mode = .pilot) (hn : p.nest = false) :
    let q := p.takeTrap cause value
    q.mode = .pilot ∧ q.pc = p.getCsr csrPVEC + BitVec.ofNat 64 (cause * 0x40) ∧ q.getCsr csrPEPC2 = p.pc
    ∧ q.getCsr csrPCAUSE2 = BitVec.ofNat 64 cause ∧ q.getCsr csrPTVAL2 = value ∧ q.getCsr csrPSTATUS = p.getCsr csrPSTATUS ||| 1
    ∧ q.x = p.x ∧ q.halted = p.halted := by
  intro q
  obtain ⟨hm, ep, ex, eh, eg⟩ := p.giveUp_keeps
  rw [h] at hm
  have hn' : p.giveUp.nest = false := hn
  have hq : q = { (((p.giveUp.setCsr csrPEPC2 p.giveUp.pc).setCsr csrPCAUSE2 (BitVec.ofNat 64 cause)).setCsr csrPTVAL2 value).setCsr
      csrPSTATUS (p.giveUp.getCsr csrPSTATUS ||| 1) with pc := p.giveUp.getCsr csrPVEC + BitVec.ofNat 64 (cause * 0x40) } := by
    simp only [q, Pp.takeTrap, hm, hn']; rfl
  rw [hq, ← ep, ← ex, ← eh, ← eg csrPVEC, ← eg csrPSTATUS]
  clear hq eg eh ex ep hn' q
  generalize p.giveUp = r at hm ⊢
  refine ⟨hm, rfl, ?_, ?_, ?_, ?_, rfl, rfl⟩
  · show ((((r.setCsr csrPEPC2 r.pc).setCsr csrPCAUSE2 _).setCsr csrPTVAL2 value).setCsr csrPSTATUS _).getCsr csrPEPC2 = _
    rw [Pp.getCsr_setCsr_other _ _ (by decide), Pp.getCsr_setCsr_other _ _ (by decide), Pp.getCsr_setCsr_other _ _ (by decide),
      Pp.getCsr_setCsr]
  · show ((((r.setCsr csrPEPC2 r.pc).setCsr csrPCAUSE2 _).setCsr csrPTVAL2 value).setCsr csrPSTATUS _).getCsr csrPCAUSE2 = _
    rw [Pp.getCsr_setCsr_other _ _ (by decide), Pp.getCsr_setCsr_other _ _ (by decide), Pp.getCsr_setCsr]
  · show ((((r.setCsr csrPEPC2 r.pc).setCsr csrPCAUSE2 _).setCsr csrPTVAL2 value).setCsr csrPSTATUS _).getCsr csrPTVAL2 = _
    rw [Pp.getCsr_setCsr_other _ _ (by decide), Pp.getCsr_setCsr]
  · exact Pp.getCsr_setCsr _ _ _

/-- With NEST set the PP halts; besides, only what it waited for is given up. -/
theorem Pp.takeTrap_double {p : Pp} (cause : Nat) (value : Word) (h : p.mode = .pilot) (hn : p.nest = true) :
    p.takeTrap cause value = { p.giveUp with halted := true } := by
  have hm : p.giveUp.mode = .pilot := h
  have hn' : p.giveUp.nest = true := hn
  simp only [Pp.takeTrap, hm, hn', if_true]

/-- PRET from the outer level goes to leg mode at PEPC. -/
theorem Pp.pret_leg {p : Pp} (hn : p.nest = false) : p.pret = { p with mode := .leg, pc := p.getCsr csrPEPC } := by simp [Pp.pret, hn]

/-! ### The instant of a time-driven command -/

theorem State.reach_chrono (s : State) (w : Word) : (s.reach w).fc.chrono = if s.fc.chrono.toNat < w.toNat then w else s.fc.chrono := by
  unfold State.reach; split <;> rfl

/-- Nothing but the chronometer differs. -/
theorem State.reach_frame (s : State) (w : Word) : { s.reach w with fc := { (s.reach w).fc with chrono := s.fc.chrono } } = s := by
  unfold State.reach; split <;> rfl

@[simp] theorem State.reach_mem (s : State) (w : Word) : (s.reach w).mem = s.mem := by unfold State.reach; split <;> rfl
@[simp] theorem State.reach_pps (s : State) (w : Word) : (s.reach w).pps = s.pps := by unfold State.reach; split <;> rfl
@[simp] theorem State.reach_legs (s : State) (w : Word) : (s.reach w).legs = s.legs := by unfold State.reach; split <;> rfl

end Sys2Proof.Machine
end

