-- ==== Sys2Proof/WellFormed.lean ====
section
/-!
DEFINITION. Which commands can be spelled at all: numbers of processors, clusters, banks, queues, ports and links that the
engine has (01 R8, R9), lengths of the data a command brings.  A command that is not well formed names nothing of the
engine.
-/
namespace Sys2Proof

/-- Two strap bits each (R369, R389, R445), SVN 0–63 (R443), 12 DDR5 channels, four stacks and 16 controllers (R339). -/
def bootOk (b : BootIn) : Bool :=
  decide (b.mgmtPort < 4 ∧ b.chainMode < 4 ∧ b.smbAddr < 4 ∧ b.hbmRepaired.length = 4 ∧ b.ddr.length = 12 ∧ b.directed.length = 16
    ∧ b.sparePct ≤ 100)
  && (b.svnA.all (fun v => decide (v < 64))) && (b.svnB.all (fun v => decide (v < 64)))
  && b.ddr.all (fun d => decide (d.dimms.length ≤ 2 ∧ d.rate ≤ 3))


def ppOk (n : Nat) : Bool := decide (n < 256)
def clOk (c : Nat) : Bool := decide (c < 64)
def bankOk (b : Nat) : Bool := decide (b < 32)
def slotOk (k : Nat) : Bool := decide (k < 8192)
def duOk (u : Nat) : Bool := decide (u < 16)
def chanOk (k : Nat) : Bool := decide (k < 64)
def queueOk (q : Nat) : Bool := decide (q < 8192)
def partOk (p : Nat) : Bool := decide (p < 512)
def portOk (h : Nat) : Bool := decide (h < 4)
def vecOk (v : Nat) : Bool := decide (v < 4096)
def ctrlOk (n : Nat) : Bool := decide (n < 16)
def pchOk (k : Nat) : Bool := decide (k < 32)
def driveOk (d : Nat) : Bool := decide (d < 32)
def grantOk (g : Nat) : Bool := decide (g < 1024)
def linkOk (l : Nat) : Bool := decide (l < 8)
def unitOk (u : Nat) : Bool := decide (u < 16)
def coreOk (k : Nat) : Bool := decide (k < 4)
def widthOk (w : Nat) : Bool := decide (w = 8 ∨ w = 16 ∨ w = 32 ∨ w = 64 ∨ w = 128)
def lineOk (d : List Byte) : Bool := decide (d.length ≤ 64)
def linesOk (d : List Byte) : Bool := decide (d.length % 64 = 0)
def flitSizeOk (f : List Byte) : Bool := decide (f.length = 256)

/-- R413, PM.REG_ERR: a requester of register space that exists. -/
def reqOk : Requester → Bool
  | .hostPort h => portOk h
  | .core k => coreOk k
  | .pp n => ppOk n
  | .ccc c => clOk c
  | .relay u => unitOk u

def hostReqOk : HostReq → Bool
  | .pp n => ppOk n
  | .channel c ch => clOk c && chanOk ch
  | .unit c => decide (c < 1024)
  | .walk c => decide (c < 65)
  | .admin => true

def msixOk : MsixEvent → Bool
  | .unmask v => vecOk v
  | .mask v => vecOk v
  | .enable _ => true

/-- R368: a generation of PCI Express, and a width of a host or a drive link. -/
def rateOk (speed : Nat) : Bool := decide (1 ≤ speed ∧ speed ≤ 6)
def lanesOk (w : Nat) : Bool := w == 1 || w == 2 || w == 4 || w == 8 || w == 16

/-- A command that names parts the engine has. -/
def Instr.WellFormed (i : Instr) : Bool :=
  match i with
  | .epochTick => true
  | .cutDone c => clOk c
  | .sealFix => true
  | .epochOpenTimeout => true
  | .epochApply => true
  | .budget pp => ppOk pp
  | .legClose _ => true
  | .fixReady src _ _ => unitOk src
  | .fix _ _ _ _ => true
  | .readyDeadline => true
  | .add pp _ => ppOk pp
  | .sub pp _ => ppOk pp
  | .and pp _ => ppOk pp
  | .or pp _ => ppOk pp
  | .xor pp _ => ppOk pp
  | .andn pp _ => ppOk pp
  | .sll pp _ => ppOk pp
  | .srl pp _ => ppOk pp
  | .sra pp _ => ppOk pp
  | .ror pp _ => ppOk pp
  | .slt pp _ => ppOk pp
  | .sltu pp _ => ppOk pp
  | .minMax pp _ _ => ppOk pp
  | .mul pp _ => ppOk pp
  | .mulh pp _ => ppOk pp
  | .mulhu pp _ => ppOk pp
  | .div pp _ => ppOk pp
  | .divu pp _ => ppOk pp
  | .rem pp _ => ppOk pp
  | .remu pp _ => ppOk pp
  | .crc32cw pp _ => ppOk pp
  | .crc32c pp _ => ppOk pp
  | .clz pp _ => ppOk pp
  | .ctz pp _ => ppOk pp
  | .popc pp _ => ppOk pp
  | .bswap pp _ => ppOk pp
  | .sel pp _ => ppOk pp
  | .addw pp _ => ppOk pp
  | .subw pp _ => ppOk pp
  | .addi pp _ => ppOk pp
  | .andi pp _ => ppOk pp
  | .ori pp _ => ppOk pp
  | .xori pp _ => ppOk pp
  | .slti pp _ => ppOk pp
  | .sltiu pp _ => ppOk pp
  | .shi pp _ => ppOk pp
  | .uimm pp _ => ppOk pp
  | .pgaddr pp _ => ppOk pp
  | .lb pp _ => ppOk pp
  | .lh pp _ => ppOk pp
  | .lw pp _ => ppOk pp
  | .ld pp _ => ppOk pp
  | .lbu pp _ => ppOk pp
  | .lhu pp _ => ppOk pp
  | .lwu pp _ => ppOk pp
  | .ldnc pp _ => ppOk pp
  | .sb pp _ => ppOk pp
  | .sh pp _ => ppOk pp
  | .sw pp _ => ppOk pp
  | .sd pp _ => ppOk pp
  | .beq pp _ => ppOk pp
  | .bne pp _ => ppOk pp
  | .blt pp _ => ppOk pp
  | .bge pp _ => ppOk pp
  | .bltu pp _ => ppOk pp
  | .bgeu pp _ => ppOk pp
  | .jal pp _ => ppOk pp
  | .jalr pp _ => ppOk pp
  | .fadd pp _ _ => ppOk pp
  | .fswap pp _ _ => ppOk pp
  | .fcas pp _ _ => ppOk pp
  | .fmin pp _ _ => ppOk pp
  | .fmax pp _ _ => ppOk pp
  | .fminu pp _ _ => ppOk pp
  | .fmaxu pp _ _ => ppOk pp
  | .fand pp _ _ => ppOk pp
  | .farOr pp _ _ => ppOk pp
  | .push pp _ => ppOk pp
  | .pop pp _ => ppOk pp
  | .tpush pp _ => ppOk pp
  | .plevel pp _ => ppOk pp
  | .fenceC pp _ => ppOk pp
  | .fenceM pp _ => ppOk pp
  | .fenceI pp _ => ppOk pp
  | .csrr pp _ => ppOk pp
  | .csrw pp _ => ppOk pp
  | .csrs pp _ => ppOk pp
  | .csrc pp _ => ppOk pp
  | .exit pp _ => ppOk pp
  | .abort pp _ => ppOk pp
  | .brk pp _ => ppOk pp
  | .retire pp _ => ppOk pp
  | .obatch pp _ => ppOk pp
  | .pret pp _ => ppOk pp
  | .tlbld pp _ => ppOk pp
  | .tlbinv pp _ => ppOk pp
  | .walk pp _ => ppOk pp
  | .frec pp _ => ppOk pp
  | .scan pp _ => ppOk pp
  | .decode pp _ => ppOk pp
  | .build pp _ => ppOk pp
  | .probe pp _ => ppOk pp
  | .aggregate pp _ => ppOk pp
  | .flush pp _ => ppOk pp
  | .merge pp _ => ppOk pp
  | .topk pp _ => ppOk pp
  | .restore pp _ => ppOk pp
  | .compress pp _ => ppOk pp
  | .run pp _ => ppOk pp
  | .kick pp _ => ppOk pp
  | .search pp _ => ppOk pp
  | .next pp _ => ppOk pp
  | .update pp _ => ppOk pp
  | .digest pp _ => ppOk pp
  | .wait pp _ _ => ppOk pp
  | .test pp _ _ => ppOk pp
  | .drain pp _ _ => ppOk pp
  | .vcfgi pp _ => ppOk pp
  | .vcfgr pp _ => ppOk pp
  | .vld pp _ => ppOk pp
  | .vlds pp _ => ppOk pp
  | .vldx pp _ => ppOk pp
  | .vldff pp _ => ppOk pp
  | .vldseg pp _ => ppOk pp
  | .vldsegs pp _ => ppOk pp
  | .vldm pp _ => ppOk pp
  | .vst pp _ => ppOk pp
  | .vsts pp _ => ppOk pp
  | .vstx pp _ => ppOk pp
  | .vstseg pp _ => ppOk pp
  | .vstsegs pp _ => ppOk pp
  | .vstm pp _ => ppOk pp
  | .vadd pp _ => ppOk pp
  | .vsub pp _ => ppOk pp
  | .vrsub pp _ => ppOk pp
  | .vlogic pp _ _ => ppOk pp
  | .vshift pp _ _ => ppOk pp
  | .vminmax pp _ _ => ppOk pp
  | .vmul pp _ => ppOk pp
  | .vmulh pp _ _ => ppOk pp
  | .vsat pp _ _ => ppOk pp
  | .vmerge pp _ => ppOk pp
  | .vmv pp _ => ppOk pp
  | .vid pp _ => ppOk pp
  | .vfarith pp _ _ => ppOk pp
  | .vfminmax pp _ _ => ppOk pp
  | .vfma pp _ => ppOk pp
  | .vfsqrt pp _ => ppOk pp
  | .vfcvtF pp _ _ => ppOk pp
  | .vfcvtI pp _ _ => ppOk pp
  | .vfabsneg pp _ _ => ppOk pp
  | .vcmpEq pp _ _ => ppOk pp
  | .vcmpLt pp _ _ => ppOk pp
  | .vcmpLe pp _ _ => ppOk pp
  | .vcmpGt pp _ _ => ppOk pp
  | .vcmpGe pp _ _ => ppOk pp
  | .vcmpAddo pp _ => ppOk pp
  | .vcmpSubo pp _ => ppOk pp
  | .vcmpF pp _ _ => ppOk pp
  | .vrsum pp _ => ppOk pp
  | .vrminmax pp _ _ => ppOk pp
  | .vrlogic pp _ _ => ppOk pp
  | .vfrsum pp _ => ppOk pp
  | .vfrminmax pp _ _ => ppOk pp
  | .vrsumx pp _ _ => ppOk pp
  | .vcompress pp _ => ppOk pp
  | .vexpand pp _ => ppOk pp
  | .vextract pp _ => ppOk pp
  | .vinsert pp _ => ppOk pp
  | .mlogic pp _ _ => ppOk pp
  | .mnot pp _ => ppOk pp
  | .mpopc pp _ => ppOk pp
  | .mfirst pp _ => ppOk pp
  | .vrd pp _ => ppOk pp
  | .vwr pp _ => ppOk pp
  | .upuCommandStart c => clOk c
  | .upuCommandDone c => clOk c
  | .huCommandStart c => clOk c
  | .huCommandDone c _ _ => clOk c
  | .suCommandStart c => clOk c
  | .suCommandDone c => clOk c
  | .compressorCommandStart c => clOk c
  | .compressorCommandDone c => clOk c
  | .asaSearchStart b => bankOk b
  | .asaUpdateStart b => bankOk b
  | .asaImageCommit b => bankOk b
  | .asaFallbackReturn b slot _ => bankOk b && slotOk slot
  | .asaCommandDone b _ => bankOk b
  | .asaScrub b slot => bankOk b && slotOk slot
  | .duJobStart u => duOk u
  | .duPreempt u => duOk u
  | .duJobDone u => duOk u
  | .dmChronoTrigger c ch => clOk c && chanOk ch
  | .dmBusErrorRetry c ch _ => clOk c && chanOk ch
  | .dmChannelDone c ch => clOk c && chanOk ch
  | .sqDoorbell q _ => queueOk q
  | .cqDoorbell q _ => queueOk q
  | .sqFetchIssue q => queueOk q
  | .sqFetchData q bs => queueOk q && linesOk bs
  | .sqFetchFail q => queueOk q.q
  | .sqFetchReissue q => queueOk q
  | .adminSqDoorbell _ => true
  | .adminCqDoorbell _ => true
  | .adminFetchIssue => true
  | .adminFetchData bs => linesOk bs
  | .adminFetchRetry => true
  | .adminNop _ _ => true
  | .createPartition _ _ _ _ => true
  | .destroyPartition _ _ _ => true
  | .resetPartition _ _ _ => true
  | .quiescePartition _ _ _ => true
  | .quiesceDone p => partOk p
  | .resumePartition _ _ _ => true
  | .quenchPartition _ _ _ => true
  | .quenchNow p => partOk p
  | .quenchEffect p => partOk p
  | .createCq _ _ _ _ _ _ => true
  | .deleteCq _ _ _ _ => true
  | .createSq _ _ _ _ _ => true
  | .deleteSq _ _ _ _ => true
  | .setResources _ _ _ _ _ _ => true
  | .allocJoinStore _ _ _ _ _ => true
  | .allocAsa _ _ _ _ _ _ => true
  | .bindPipes _ _ _ _ _ _ _ => true
  | .unbindPipes _ _ _ _ _ _ => true
  | .setInbox _ _ _ _ _ _ => true
  | .mapEvent _ _ _ _ _ _ => true
  | .readFixLog _ _ _ _ _ => true
  | .readPartitionFix _ _ _ => true
  | .sqRingApply q _ => queueOk q
  | .cqRingApply q _ => queueOk q
  | .adminApply _ => true
  | .msixUnmask port vector => portOk port && msixOk vector
  | .schedulerTick => true
  | .legStart pp => ppOk pp
  | .xlatApply p _ => partOk p
  | .xlatInvGo _ => true
  | .xlatInvDone => true
  | .l2WaycfgWrite c _ => clOk c
  | .l2WayWritebackDone c => clOk c
  | .clean c _ _ => clOk c
  | .invalidate c _ _ => clOk c
  | .cleanInv c _ _ => clOk c
  | .cleanAll c => clOk c
  | .invAll c => clOk c
  | .l2MaintDone c => clOk c
  | .l2Disable c => clOk c
  | .l2DrainDone c => clOk c
  | .l2Fill c _ => clOk c
  | .memRequestServe n ch _ _ _ _ => ctrlOk n && pchOk ch
  | .refreshDue n rank => ctrlOk n && pchOk rank
  | .actTableClear n => ctrlOk n
  | .memScrub n _ _ => ctrlOk n
  | .correctedWriteback n => ctrlOk n
  | .hotChange n x => ctrlOk n && decide (x.dimm < 2)
  | .hostLinkDown h => portOk h
  | .hostLinkUp h speed w => portOk h && rateOk speed && lanesOk w.lanes
  | .hostPortReset h => portOk h
  | .hostUnclaimed h _ => portOk h
  | .hostCompletionTimeout h r _ => portOk h && hostReqOk r
  | .driveLinkUp d speed w => driveOk d && rateOk speed && lanesOk w && decide (w ≤ 4)
  | .driveReady d _ _ _ _ => driveOk d
  | .driveLinkDown x => driveOk x.d
  | .driveStray d _ => driveOk d
  | .grantApply g _ => grantOk g
  | .ringPass g => grantOk g
  | .nvmeCmdComplete _ _ _ => true
  | .npPushRetry _ => true
  | .nvmeCmdTimeout _ => true
  | .enumerate => true
  | .enum _ _ _ => true
  | .enumEnd _ _ _ _ => true
  | .enumTimeout => true
  | .tick link _ _ _ _ _ _ _ _ _ => linkOk link
  | .tickLate => true
  | .chainDown src _ _ => unitOk src
  | .orphaned => true
  | .shuffleData src _ _ _ _ _ _ => unitOk src
  | .remoteCompletion src _ _ _ _ => unitOk src
  | .adminRelay src _ _ _ _ _ => unitOk src
  | .adminRelayReply src _ _ _ => unitOk src
  | .relayGo _ => true
  | .relayTimeout => true
  | .data link flit => linkOk link && flitSizeOk flit
  | .nak link flit => linkOk link && flitSizeOk flit
  | .replayTimeout link => linkOk link
  | .linkRetrain link => linkOk link
  | .linkRetrainFail link => linkOk link
  | .probeReply link _ _ => linkOk link
  | .registerWrite r _ width _ => reqOk r && widthOk width
  | .replyTimer r => reqOk r
  | .throttle _ => true
  | .throttleLift _ => true
  | .pfail _ _ => true
  | .saveDone _ _ poison => poison.all (fun l => decide (l < 0x10000000 / 64))
  | .hupReadyFall => true
  | .ksReserveAppend => true
  | .mgmtCoreStop k => coreOk k
  | .powerOnReset => true
  | .resetN => true
  | .pwrgoodFall => true
  | .deviceReset _ => true
  | .bootStart b => bootOk b
  | .bootDone _ => true
  | .ppReset pp => ppOk pp
  | .refclkLost => true
  | .setEndpointId _ => true
  | .getEndpointId => true
  | .getMctpVersionSupport _ => true
  | .getMessageTypeSupport => true
  | .getBootState _ => true
  | .getThermal _ => true
  | .getPower _ => true
  | .readErrorLog _ => true
  | .mctpDeviceReset _ => true
  | .extest _ => true
  | .samplePreload _ => true
  | .idcode => true
  | .bypass _ => true
  | .dbgStatus => true
  | .dbgNonce => true
  | .dbgAuth _ _ => true
  | .dbgClose => true
  | .dbgLock => true
  | .trstN => true
  | .nonceExpiry => true
  | .dbgNop => true
  | .regRead _ _ => true
  | .logRead _ => true
  | .regWrite _ _ _ => true
  | .memRead _ => true
  | .memWrite _ _ => true
  | .ppHalt _ => true
  | .ppResume _ => true
  | .ppStep _ => true
  | .ppState _ => true
  | .haltOnBreak _ => true
  | .dbgDeviceReset => true
  | .fuseHash _ _ => true
  | .thermalSample _ _ => true
  | .tripNoPfail => true
  | .hostCompletion h r _ _ bs => portOk h && hostReqOk r && lineOk bs
  | .registerRead r _ width => reqOk r && widthOk width
  | .chainLinkUp link => linkOk link
  | .idle link flit => linkOk link && flitSizeOk flit
  | .probeFlit link => linkOk link
  | .driveCompletionTimeout _ => true

end Sys2Proof
end

