-- ==== Sys2Proof/Tests/Slice0.lean ====
section
/-!
SUPPORT. Tests: for each statement, concrete states and operands that meet its hypotheses, clause by clause; an ill-formed command for
each check of WellFormed; values that the spec or the standard it names gives.
-/
namespace Sys2Proof.Tests

open Sys2Proof Sys2Proof.Machine

set_option Elab.async false

/-! ### Small states -/

/-- Bytes from address `a` on in an otherwise empty memory. -/
def memOf (l : List (Nat × List Byte)) : List Host.Cell := l.foldl (fun m e => writeBytes m e.1 e.2) []

def xsOf (l : List Word) : Table Word := (List.range l.length).map (fun i => (i + 1, l.getD i 0))

def ent0 : LegEntry :=
  { part := 2, sq := 7, seq := 11, priority := 3, release := false, inl := false, cqLocal := 9, cq := 9, cluster := 1, budget := 100000, tag := 77,
    code := 0x400000, argp := 0x1234, indesc := 0, outdesc := 0, scratch := 0x500000, scratchBytes := 4096, releaseTime := 5000,
    inlineBlk := [] }

def leg0 (pl : LegPlace) : Leg :=
  { entry := ent0, place := pl, home := 1, order := 4, started := true, stopped := false, hold := none, holdOver := false, used := 0,
    usedAtOpen := 0, charge := 50, snapshot := 8, startStamp := 900, batchSeq := 0, carries := 0, tickets := [], retire := [],
    batches := [], stagedRows := [], outs := [], resv := none, resvOrder := 0, wpSlot := none, waypoint := none, status := 0,
    userCode := 0, closeStamp := 0 }

/-- A TLB entry of partition 2: 2 ^ `log` bytes at `va` onto `dpa`, with the permissions `perm`. -/
def tlbE (va log dpa perm : Nat) : Word × Word := (BitVec.ofNat 64 (va + 2 * 2 ^ 48 + log * 2 ^ 57), BitVec.ofNat 64 (dpa + perm))

def part0 : Part :=
  { Part.reset with exist := true, clusters := 0xFFFFFFFFFFFFFFFF, pasid := 33, hostPort := 1, ceiling := 7,
                    xlat := { Xlat.reset with enable := true, faultLog2 := 4, s2 := 0x70000000, stt := 0x71000000, fb := 0x90000 } }

/-- PP 5 as it runs leg 3 in leg mode. -/
def ppLeg : Pp :=
  { Pp.reset with mode := .leg, running := some 3, pc := 0x400000, csr := [(5, 100000), (263, 0x41000000)],
                  tlb := [(0, tlbE 0x400000 20 0x50000000 7), (3, tlbE 0x800000 12 0x60000000 0x13)] }

def ports : Table HostPort :=
  [(0, { HostPort.reset with linkUp := true, mgmt := true, msixEn := true, unmasked := [1, 2, 3] }), (1, { HostPort.reset with linkUp := true })]

/-- A booted engine with partition 2, in epoch 9. -/
def base : State :=
  { State.reset with hps := ports, pm := { Pm.reset with bootDone := true, stage := 4 }, parts := [(2, part0)],
                     fc := { Fc.reset with chrono := 123456, epoch := 9, sealed := 8, ticking := true, open' := true, nextTick := 200000 } }

def legS (x : List Word) : State := { base with pps := [(5, { ppLeg with x := xsOf x })], legs := [(3, leg0 (.running 5))] }

/-- PP 5 in pilot mode, with no leg. -/
def pilS (x : List Word) : State :=
  { base with pps := [(5, { Pp.reset with pc := 0x41000000, x := xsOf x, csr := [(263, 0x41000000)] })] }

/-- As `legS`, in pilot mode. -/
def pilLegS (x : List Word) : State :=
  { legS x with pps := [(5, { ppLeg with mode := .pilot, pc := 0x41000000, x := xsOf x })] }

def onCl (s : State) (f : Cluster → Cluster) : State := s.setCl 1 (f (s.cl 1))
def onPp (s : State) (f : Pp → Pp) : State := s.setPp 5 (f (s.pp 5))
def onLeg (s : State) (f : Leg → Leg) : State := { s with legs := [(3, f (leg0 (.running 5)))] }
def quiet (s : State) : State := { s with fc := { s.fc with open' := false } }

def lineOf (dirty : Bool) : L2Line := { way := 1, dirty := dirty, poison := false, data := List.replicate 64 7 }
def withLine (s : State) (line : Nat) (dirty : Bool) : State := onCl s (fun k => { k with l2 := [(line, lineOf dirty)] })
def withCsr (s : State) (k : Nat) (v : Word) : State := onPp s (fun p => { p with csr := tput p.csr k v })

/-! ### Witnesses: scalar instructions -/

theorem test_w_ScalarFunctions : (legS [5, 6]).executes 5 ∧ ((legS [5, 6]).pp 5).getX 1 = 5 ∧ ((legS [5, 6]).pp 5).getX 2 = 6
    ∧ (pilS [7, 0]).executes 5 ∧ ((pilS [7, 0]).pp 5).getX 1 = 7 ∧ ((pilS [7, 0]).pp 5).getX 2 = 0 := by
  repeat' apply And.intro
  all_goals decide +kernel

theorem test_w_ImmediateForms : (legS [5]).executes 5 ∧ (-1 : Word) = BitVec.ofInt 64 ((0xFFFF#16).toInt)
    ∧ (63#16).toNat = 63 ∧ (127#16).toNat = 64 + 63 ∧ (128#16).toNat = 128 + 0 ∧ (255#16).toNat = 192 + 63 := by
  repeat' apply And.intro
  all_goals decide +kernel

theorem test_w_BranchesAndJumps : (legS [5, 5]).executes 5 ∧ ((legS [5, 5]).pp 5).getX 1 = 5 ∧ ((legS [5, 5]).pp 5).getX 2 = 5
    ∧ ((legS [5, 5]).pp 5).pc = 0x400000 ∧ (-4 : Word) = BitVec.ofInt 64 ((0xFFFF#16).toInt * 4) := by
  repeat' apply And.intro
  all_goals decide +kernel

def ldS : State := { legS [0x4000F8, 0x800040] with mem := memOf [(0x500000F8, [1, 2, 3, 4, 5, 6, 7, 8])] }

theorem test_w_Loads : ldS.executes 5 ∧ ldS.soundCaches 5 ∧ 0x4000F8 = ((ldS.pp 5).getX 1 + BitVec.ofInt 64 (0#16).toInt).toNat ∧ 0x4000F8 % 8 = 0
    ∧ ldS.ppCheck 5 0x4000F8 needR = (.ok { dpa := 0x500000F8, vcol := false }, ldS) ∧ ldS.inMemory 0x500000F8
    ∧ ldS.lineSeen 1 (0x500000F8 / 64) = some (readBytes ldS.mem (0x500000F8 / 64 * 64) 64) ∧ (∀ e ∈ (ldS.cl 1).l2, e.2.dirty = false)
    ∧ tget? (ldS.cl 1).l2 (0x500000F8 / 64) = none ∧ ldS.bad.contains (0x500000F8 / 64) = false := by
  repeat' apply And.intro
  all_goals first | decide +kernel | rfl

theorem test_w_Loads_dirty : (withLine ldS (0x60000040 / 64) true).executes 5 ∧ (withLine ldS (0x60000040 / 64) true).soundCaches 5
    ∧ 0x800040 = (((withLine ldS (0x60000040 / 64) true).pp 5).getX 2 + BitVec.ofInt 64 (0#16).toInt).toNat
    ∧ (withLine ldS (0x60000040 / 64) true).ppCheck 5 0x800040 needR
        = (.ok { dpa := 0x60000040, vcol := true }, withLine ldS (0x60000040 / 64) true)
    ∧ (withLine ldS (0x60000040 / 64) true).inMemory 0x60000040
    ∧ tget? ((withLine ldS (0x60000040 / 64) true).cl 1).l2 (0x60000040 / 64) = some (lineOf true)
    ∧ (lineOf true).dirty = true ∧ (lineOf true).poison = false ∧ (lineOf true).data.length = 64 := by
  repeat' apply And.intro
  all_goals first | decide +kernel | rfl

/-- The page at 0xC00000 has DEVICE = 1. -/
def devS : State :=
  { onPp (legS [0xC00008]) (fun p => { p with tlb := [(0, tlbE 0x400000 20 0x50000000 7), (1, tlbE 0xC00000 12 0x60000000 0xB)] }) with
    mem := memOf [(0x60000008, [1, 2, 3, 4, 5, 6, 7, 8])] }

theorem test_w_Loads_device : devS.executes 5 ∧ devS.soundCaches 5 ∧ 0xC00008 = ((devS.pp 5).getX 1 + BitVec.ofInt 64 (0#16).toInt).toNat
    ∧ devS.ppCheck 5 0xC00008 needR = (.ok { dpa := 0x60000008, vcol := false, dev := true }, devS)
    ∧ devS.ppCheck 5 0xC00008 needW = (.ok { dpa := 0x60000008, vcol := false, dev := true }, devS) ∧ devS.inMemory 0x60000008
    ∧ (devS.cl 1).l2 = [] ∧ devS.bad.contains (0x60000008 / 64) = false := by
  repeat' apply And.intro
  all_goals first | decide +kernel | rfl

/-- The line of address 0x4000F8 stands poisoned in the L2. -/
def poisS : State := onCl ldS (fun k => { k with l2 := [(0x500000F8 / 64, { lineOf true with poison := true })] })

theorem test_w_StoreResults_poisoned : poisS.executes 5 ∧ poisS.soundCaches 5
    ∧ poisS.ppCheck 5 0x4000F8 needW = (.ok { dpa := 0x500000F8, vcol := false }, poisS) ∧ poisS.inMemory 0x500000F8
    ∧ tget? (poisS.cl 1).l2 (0x500000F8 / 64) = some { lineOf true with poison := true } := by
  repeat' apply And.intro
  all_goals first | decide +kernel | rfl

theorem test_w_StoreResults : ldS.executes 5 ∧ ldS.soundCaches 5 ∧ ldS.ppCheck 5 0x4000F8 needW = (.ok { dpa := 0x500000F8, vcol := false }, ldS)
    ∧ ldS.inMemory 0x500000F8 ∧ tget? (ldS.cl 1).l2 (0x500000F8 / 64) = none ∧ ldS.bad.contains (0x500000F8 / 64) = false
    ∧ (ldS.cl 1).allocates = true ∧ (ldS.cl 1).sideGet (0x500000F8 / 64) = none ∧ (∀ e ∈ (ldS.cl 1).l2, e.2.dirty = false)
    ∧ ((onCl ldS (fun k => { k with l2En := false, drained := true })).cl 1).allocates = false
    ∧ (onCl ldS (fun k => { k with l2En := false, drained := true })).executes 5
    ∧ (withLine ldS (0x500000F8 / 64) false).executes 5 ∧ ((withLine ldS (0x500000F8 / 64) false).cl 1).allocates = true ∧ (lineOf false).poison = false
    ∧ tget? ((withLine ldS (0x500000F8 / 64) false).cl 1).l2 (0x500000F8 / 64) = some (lineOf false) := by
  repeat' apply And.intro
  all_goals first | decide +kernel | rfl

theorem test_w_MisalignedTraps : ldS.executes 5 ∧ 0x4000F9 = ((ldS.pp 5).getX 1 + BitVec.ofInt 64 (1#16).toInt).toNat
    ∧ 0x4000F9 % 2 ≠ 0 ∧ 0x4000F9 % 4 ≠ 0 ∧ 0x4000F9 % 8 ≠ 0 ∧ (legS [0x40000C]).executes 5
    ∧ 0x40000C = (((legS [0x40000C]).pp 5).getX 1).toNat ∧ 0x40000C % 8 ≠ 0 := by
  repeat' apply And.intro
  all_goals decide +kernel

theorem test_w_FarAtomicResults : ldS.executes 5 ∧ ldS.soundCaches 5 ∧ 0x4000F8 = ((ldS.pp 5).getX 1).toNat ∧ 0x4000F8 % 8 = 0
    ∧ ldS.ppCheck 5 0x4000F8 needRW = (.ok { dpa := 0x500000F8, vcol := false }, ldS) ∧ ldS.inMemory 0x500000F8
    ∧ tget? (ldS.cl 1).l2 (0x500000F8 / 64) = none ∧ ldS.bad.contains (0x500000F8 / 64) = false
    ∧ 0x800040 = ((ldS.pp 5).getX 2).toNat % 2 ^ 64 := by
  repeat' apply And.intro
  all_goals first | decide +kernel | rfl

def fenceS : State := withLine (pilS [0x50000100, 64]) (0x50000100 / 64) true

theorem test_w_Fences : (legS []).executes 5 ∧ (∀ e ∈ ((legS []).cl 1).l2, e.2.dirty = false) ∧ (legS []).hostGot = [] ∧ fenceS.executes 5 ∧ fenceS.soundCaches 5 ∧ (fenceS.pp 5).mode = .pilot
    ∧ ((fenceS.pp 5).getX 1).toNat = 0x50000100 / 64 * 64 ∧ ((fenceS.pp 5).getX 2).toNat = 64 ∧ 0x50000100 / 64 * 64 < 2 ^ 48
    ∧ (fenceS.cl 1).l2 = [(0x50000100 / 64, lineOf true)] := by
  repeat' apply And.intro
  all_goals decide +kernel

def pipeOf (es : List Word) : Pipe := { part := 2, depthLog2 := 2, way := 1, set := 0, entries := es, head := 3, flaws := [] }
def pipeS (es : List Word) : State := onCl (legS [0x102, 9]) (fun k => { k with pipes := [(2, pipeOf es)] })

def badPipe : Pipe := { pipeOf [1, 2, 3] with flaws := [0, 2] }
def badPipeS : State := onCl (legS [0x102, 9]) (fun k => { k with pipes := [(2, badPipe)] })

theorem test_w_Pipes_uncorrectable : badPipeS.executes 5 ∧ badPipeS.ppPipe 5 0x102 true = some (1, 2, badPipe)
    ∧ (∀ e ∈ (badPipeS.cl 1).dm, e.2.trigger ≠ 4) ∧ badPipe.entries = 1 :: [2, 3] ∧ 0 ∈ badPipe.flaws ∧ 0 ∉ (pipeOf [1, 2, 3]).flaws := by
  repeat' apply And.intro
  all_goals decide +kernel

theorem test_w_Pipes : (pipeS [1, 2, 3]).executes 5 ∧ (pipeS [1, 2, 3]).ppPipe 5 0x102 false = some (1, 2, pipeOf [1, 2, 3])
    ∧ (∀ e ∈ ((pipeS [1, 2, 3]).cl 1).dm, e.2.trigger ≠ 4) ∧ (pipeOf [1, 2, 3]).entries.length < 2 ^ (pipeOf [1, 2, 3]).depthLog2
    ∧ (pipeS [1, 2, 3, 4]).ppPipe 5 0x102 false = some (1, 2, pipeOf [1, 2, 3, 4])
    ∧ 2 ^ (pipeOf [1, 2, 3, 4]).depthLog2 ≤ (pipeOf [1, 2, 3, 4]).entries.length
    ∧ (pipeS [1, 2, 3]).ppPipe 5 0x102 true = some (1, 2, pipeOf [1, 2, 3]) ∧ (pipeOf [1, 2, 3]).entries = 1 :: [2, 3]
    ∧ (pipeS []).ppPipe 5 0x102 true = some (1, 2, pipeOf []) ∧ (pipeS []).ppPipe 5 0x103 false = none
    ∧ (pipeS []).ppPipe 5 0x103 true = none := by
  repeat' apply And.intro
  all_goals decide +kernel

theorem test_w_CsrInstructions : (legS [5]).executes 5 ∧ (pilS [5]).executes 5 ∧ ((pilS [5]).pp 5).mode = .pilot
    ∧ (0x3FFF#16).toNat < 0x4000 ∧ 0x4000 ≤ (0x4000#16).toNat
    ∧ 19 = (19#16).toNat % 4096 ∧ 0x10B = (0x110B#16).toNat % 4096 ∧ 0x186 = (0x186#16).toNat % 4096
    ∧ ((legS [5]).pp 5).mode = .leg ∧ ((legS [5]).pp 5).running = some 3 ∧ (legS [5]).leg? 3 = some (leg0 (.running 5))
    ∧ ¬ (0x10C ≤ 0x13 ∨ (0x100 ≤ 0x10C ∧ 0x10C ≤ 0x10B) ∨ (0x180 ≤ 0x10C ∧ 0x10C ≤ 0x186)) := by
  repeat' apply And.intro
  all_goals decide +kernel

theorem test_w_LegEnds : (quiet (legS [7])).fc.chrono.toNat < (quiet (legS [7])).fc.nextTick.toNat
    ∧ (withCsr (withCsr (quiet (pilLegS [7])) csrPSTATUS 1) csrPCAUSE 5).executes 5 ∧ ((withCsr (quiet (pilLegS [7])) csrPSTATUS 1).pp 5).nest = true
    ∧ (quiet (legS [7])).executes 5 ∧ (quiet (legS [7])).quiet ∧ ((quiet (legS [7])).pp 5).running = some 3
    ∧ (quiet (legS [7])).leg? 3 = some (leg0 (.running 5)) ∧ (leg0 (.running 5)).place = .running 5 ∧ (leg0 (.running 5)).waits = false
    ∧ ({ leg0 (.running 5) with tickets := [(0, { gen := 1, held := true, unit := 0, status := none })] }).waits = true := by
  repeat' apply And.intro
  all_goals decide +kernel

/-! A descriptor table of one segment of 100 rows with a row retirement column, and one of an output range. -/

def segS (x : List Word) : State :=
  { onLeg (legS x) (fun g => { g with entry := { ent0 with indesc := 0x401000 } }) with
    mem := memOf [(0x50001000, [2, 0]), (0x50001040, [100]), (0x50001044, [2, 0, 3, 0]), (0x50001049, [0x10])] }

theorem test_w_RowsAndBatches_row : (segS [0, 99]).executes 5 ∧ ((segS [0, 99]).pp 5).running = some 3
    ∧ 0 = (((segS [0, 99]).pp 5).getX 1).toNat ∧ 99 = (((segS [0, 99]).pp 5).getX 2).toNat ∧ 99 < 100 ∧ 100 ≤ 100
    ∧ ((segS [0, 99]).leg? 3).map (fun g => ((segS [0, 99]).retireSeg 5 g 0).1) = some (.ok (some 100))
    ∧ ((segS [0, 99]).leg? 3).map (fun g => ((segS [0, 99]).retireSeg 5 g 1).1) = some (.ok none)
    ∧ ((segS [0, 99]).leg? 3).map (fun g => decide (g.retire.length < 1048576)) = some true := by
  repeat' apply And.intro
  all_goals first | decide +kernel | rfl

def outR : OutDesc :=
  { kind := 1, rowRetire := true, addr := 0x402000, bytes := 0x1000, bvt := 0x40000100, batchCap := 8, rowCap := 100, rrc := 0x40000800 }

/-- The partition's first 2^30 bytes at 0x40000000, for the units as well. -/
def mapOf : XEntry :=
  { part := 2, va := 0, ppa := 0, sizeLog2 := 30, dpa := 0x40000000, r := true, w := true, x := true, device := false, vcol := false }

/-- The next 2^30 bytes are version columns, at 0x80000000. -/
def vmapOf : XEntry := { mapOf with va := 0x40000000, dpa := 0x80000000, w := false, vcol := true }

def batS (x : List Word) (b : Word) : State :=
  onCl (withCsr { onLeg (legS x) (fun g => { g with outs := [outR] }) with
      mem := memOf [(0x5000200C, [2]), (0x50002028, [3, 0, 0, 0, 5])], ioTlb := [mapOf, vmapOf], stu := [mapOf, vmapOf] } csrBATCH b)
    (fun k => { k with unitTlb := [mapOf, vmapOf] })

/-- As `batS`, with an error in the line of the batch's header (R338). -/
def batBad : State := onCl (batS [0x402000] 4) (fun k => { k with l2 := [(0x50002000 / 64, { lineOf false with poison := true })] })

/-- The batch of `batS`, as OBATCH reads and checks it: the places of its batch record and of its two row records. -/
def batPlaces : Option (List Nat × Bool) :=
  match (batS [0x402000] 4).leg? 3 with
  | none => none
  | some g => match (batS [0x402000] 4).legAddr 5 g 0x402000 needRW trapTlbStore with
    | (.error _, _) => none
    | (.ok a, s1) => match s1.legLine 5 0x402000 64 g a with
      | (.error _, _) => none
      | (.ok b, s2) =>
        if s2.headerMeets 5 a.dpa = (false, s2) ∧ g.outs[fld b 37 1]? = some outR ∧ fld b 40 4 < outR.batchCap ∧ fld b 44 4 + fld b 12 4 ≤ outR.rowCap then
          let r := s2.batchLocs 2 ((outR.bvt.toNat + 16 * fld b 40 4) ::
            (List.range (fld b 12 4)).map (fun i => outR.rrc.toNat + 8 * (fld b 44 4 + i)))
          r.1.map (fun l => (l, r.2.hostMiss.isNone))
        else none

theorem test_w_RowsAndBatches_batch : batS [0x402000] 4 = (batS [0x402000] 4).asking ∧ (batS [0x402000] 4).executes 5 ∧ (0x402000 : Word).toNat % 64 = 0
    ∧ outR.addr.toNat ≤ (0x402000 : Word).toNat ∧ (0x402FC0 : Word).toNat < outR.addr.toNat + outR.bytes.toNat
    ∧ (((batS [0x402000] 4).pp 5).getCsr csrBATCH).toNat < 0xFFFFFFFF ∧ ((batS [0x402000] 0xFFFFFFFF).pp 5).getCsr csrBATCH = 0xFFFFFFFF
    ∧ batPlaces = some ([0x80000130, 0x80000828, 0x80000830], true) ∧ batBad.executes 5 ∧ (batBad.headerMeets 5 0x50002000).1 = true := by
  repeat' apply And.intro
  all_goals decide +kernel

theorem test_w_PilotReturn : (pilS []).executes 5 ∧ (pilS []).ppLeg 5 = none ∧ ((pilS []).pp 5).stopPend = false
    ∧ ((pilS []).pp 5).getCsr csrPSTATUS &&& 1 ≠ 1 ∧ ((withCsr (pilS []) csrPSTATUS 1).pp 5).getCsr csrPSTATUS &&& 1 = 1
    ∧ (withCsr (pilS []) csrPSTATUS 1).executes 5 ∧ (legS []).executes 5 ∧ ((legS []).ppLeg 5).isSome = true := by
  repeat' apply And.intro
  all_goals decide +kernel

theorem test_w_TakeTrap : ((legS []).pp 5).mode = .leg ∧ ((pilS []).pp 5).mode = .pilot ∧ ((pilS []).pp 5).nest = false
    ∧ ((withCsr (pilS []) csrPSTATUS 1).pp 5).nest = true := by
  repeat' apply And.intro
  all_goals decide +kernel

def tlbS (a b : Word) : State := onPp (pilS [a, b]) (fun p => { p with tlb := [(0, tlbE 0x400000 20 0x50000000 7)] })

theorem test_w_TlbWalkAndFaultRecord_tlb : (tlbS (tlbE 0x410000 12 0x70000000 3).1 (tlbE 0x410000 12 0x70000000 3).2).executes 5
    ∧ (tlbS 0 0).ppLeg 5 = none ∧ tlbWordsOk (tlbE 0x410000 12 0x70000000 3).1 (tlbE 0x410000 12 0x70000000 3).2 = true
    ∧ ((tlbS 0 0).pp 5).stale = false ∧ ((withCsr (tlbS 0 0) csrXWSTAT 0x8000).pp 5).stale = true
    ∧ (0xFFF : Word).toNat < 4096 ∧ tlbPart (tlbE 0x400000 20 0x50000000 7) = (0x10 : Word).toNat / 8
    ∧ tlbVa (tlbE 0x400000 20 0x50000000 7) / 2 ^ 20 = (0x400000 : Word).toNat / 2 ^ 20 := by
  repeat' apply And.intro
  all_goals decide +kernel

/-- One level of the partition's own table, its entry at 0x70000010. -/
def walkS : State := { pilS [0x400000, 0x70000014] with mem := memOf [(0x70000000 + 8 * ptIndex 0x400000 0, [3, 0, 0, 0x71])] }

theorem test_w_TlbWalkAndFaultRecord_walk : walkS.parityLive = [] ∧ walkS = walkS.asking ∧ (walkS.part (((walkS.pp 5).getX 2).toNat / 8 % 512)).xlat.enable = true
    ∧ (walkS.stepS2 (.cluster 1) 2 .two 0x400000 0 0x70000000).2.hostMiss = none ∧ walkS.executes 5 ∧ walkS.ppLeg 5 = none ∧ ((walkS.pp 5).getX 2).toNat < 2 ^ 48
    ∧ ((walkS.pp 5).getX 2).toNat / 4 % 2 = 1
    ∧ (walkS.stepS2 (.cluster 1) 2 .two 0x400000 0 0x70000000).1 = .ok (0x71000003, false)
    ∧ (walkS.stepS2 (.cluster 1) 2 .two 0x400000 0 0x70000000).2.pps = walkS.pps := by
  repeat' apply And.intro
  all_goals first | decide +kernel | rfl

theorem test_w_TlbWalkAndFaultRecord_frec : (withCsr (pilLegS [10]) csrPCAUSE 4).executes 5 ∧ (withCsr (pilLegS [10]) csrPCAUSE 4).ppLeg 5 = none
    ∧ 10 = (((withCsr (pilLegS [10]) csrPCAUSE 4).pp 5).getX 1).toNat ∧ ((withCsr (pilLegS [10]) csrPCAUSE 4).pp 5).running = some 3
    ∧ ((withCsr (pilLegS [10]) csrPCAUSE 4).pp 5).walked = none ∧ ((withCsr (pilLegS [10]) csrPCAUSE 4).pp 5).getCsr csrPCAUSE = 4
    ∧ (pilS [1]).executes 5 ∧ ((pilS [1]).pp 5).running = none := by
  repeat' apply And.intro
  all_goals decide +kernel

def tick (gen : Nat) (held : Bool) (unit : Nat) (status : Option Word) : Ticket :=
  { gen := gen, held := held, unit := unit, status := status }

def subS (x : List Word) (t : Table Ticket) : State := onLeg (legS x) (fun g => { g with tickets := t })

/-- All 16 tickets, or 15 of them, are held. -/
def held (k : Nat) : Table Ticket := (List.range k).map (fun i => (i, tick 1 true 0 none))

theorem test_w_Submissions : (subS [0x400040] []).executes8 5 ∧ ((subS [0x400040] []).pp 5).running = some 3
    ∧ (subS [0x400040] []).ppCheck 5 (((subS [0x400040] []).pp 5).getX 1).toNat needR
        = (.ok { dpa := 0x50000040, vcol := false }, subS [0x400040] [])
    ∧ (∀ j, j < 15 → (tget? (held 15) j).isSome = true ∧ (tget? (held 15) j).map (·.held) = some true) ∧ tget? (held 15) 15 = none
    ∧ (∀ j, j < 16 → (tget? (held 16) j).map (·.held) = some true) ∧ (subS [0x400040] (held 15)).executes8 5
    ∧ ((subS [] []).cl 1).upu.queue.length < 8 ∧ ((subS [] []).cl 1).hu.queue.length < 8 ∧ ((subS [] []).cl 1).su.queue.length < 8
    ∧ ((subS [] []).cl 1).cmp.queue.length < 8 ∧ ((subS [] []).asaSet 0).sq.length < 8 ∧ ((subS [] []).asaSet 0).uq.length < 8
    ∧ (subS [] []).duQueue.length < 256 := by
  repeat' apply And.intro
  all_goals first | decide +kernel | rfl

def oldCmd : UnitCmd := { leg := 9, part := 2, slot := 1, pp := 4, cmd := 1, desc := 64, arg := 0, imm := 0, order := 2 }
def fullS : State :=
  onCl { subS [0x400040] [] with duQueue := List.replicate 256 ((subS [] []).duJob oldCmd) }
    (fun k => { k with upu := { k.upu with queue := List.replicate 8 oldCmd }, hu := { k.hu with queue := List.replicate 8 oldCmd } })

theorem test_w_Submissions_stops : fullS.executes8 5 ∧ 8 ≤ (fullS.cl 1).upu.queue.length ∧ 8 ≤ (fullS.cl 1).hu.queue.length
    ∧ 256 ≤ fullS.duQueue.length := by
  repeat' apply And.intro
  all_goals decide +kernel

/-- A mover descriptor for IMMEDIATE or MANUAL copies of 3 rows of 8 bytes. -/
def moveS (trigger : Byte) : State :=
  onCl { subS [0x400040, 1] [] with
      mem := memOf [(0x50000040, [trigger, 0, 0, 0, 3, 0, 0, 0, 0, 0x10]), (0x40400040, [trigger, 0, 0, 0, 3, 0, 0, 0, 0, 0x10]),
                    (0x40400050, [0, 0x20, 0, 0, 0, 0, 0, 0, 8]), (0x40400060, [8, 0, 0, 0, 0, 0, 0, 0, 8])], ioTlb := [mapOf], stu := [mapOf] }
    (fun k => { k with unitTlb := [mapOf] })

def chan (state trigger : Nat) : Channel :=
  { state := state, leg := 3, part := 2, slot := 5, trigger := trigger, mode := 0, level := 1, afterCh := 0, count := 4, src := 0x1000,
    dst := 0x2000, rowBytes := 16, srcStride := 16, dstStride := 32, trigArg := 0, high := 0, low := 0, rows := 0, retry := 0,
    drain := false, status := 0, off := 0, pos := 0, item := none, buf := [], put := 0, wait := false, mid := false }

theorem test_w_Submissions_mover : (moveS 0).executes8 5 ∧ moveS 0 = (moveS 0).asking ∧ ((moveS 0).part 2).quenched = false ∧ ((moveS 0).part 2).quiesce = none
    ∧ fld (readBytes (moveS 0).mem 0x40400040 64) 0 1 ≠ 4
    ∧ (((State.wr8 { (moveS 0).setLeg 3 ((leg0 (.running 5)).takeTicket 0 4) with order := (moveS 0).order + 1 } 5 1
        (BitVec.ofNat 64 (4 * 2 ^ 8 + 2 ^ 16))).dmRun 1 ((moveS 0).newCmd 5 3 0 1 (leg0 (.running 5)) ⟨1, 1, 2, 0⟩)).1 = none)
    ∧ (onCl (subS [0, 7] []) (fun k => { k with dm := [(7, chan 1 1)] })).executes8 5 ∧ (chan 1 1).leg = 3 ∧ (chan 1 1).trigger = 1
    ∧ (chan 1 1).state = 1 ∧ tget? ((onCl (subS [0, 7] []) (fun k => { k with dm := [(7, chan 1 1)] })).cl 1).dm 7 = some (chan 1 1) := by
  repeat' apply And.intro
  all_goals decide +kernel

theorem test_w_TicketCollection : (subS [0x1_0300F] [(15, tick 1 true 3 (some 6))]).executes8 5 ∧ (6 : BitVec 5).toNat ≤ 6
    ∧ (0x1030F : Word) = BitVec.ofNat 64 (15 + (tick 1 true 3 (some 6)).unit * 2 ^ 8 + (tick 1 true 3 (some 6)).gen * 2 ^ 16)
    ∧ (tick 1 true 3 (some 6)).status = some 6 ∧ (tick 1 true 3 none).status = none
    ∧ (∃ e ∈ [(15, tick 1 true 3 none)], e.2.held = true ∧ e.2.unit = (3 : BitVec 5).toNat ∧ e.2.status = none)
    ∧ ([(15, tick 1 true 3 (some 6))].map (·.1)).Nodup
    ∧ (∀ e ∈ [(15, tick 1 true 3 (some 6))], e.2.held = true → e.2.unit = (3 : BitVec 5).toNat → e.2.status ≠ none) := by
  repeat' apply And.intro
  all_goals decide +kernel

/-! ### Witnesses: vectors -/

/-- PP 5 with the configuration `c`, VL = `vl` and X1 = `x`. -/
def vecS (c vl : Nat) (x : Word) : State :=
  onPp (legS [x, 16]) (fun p => { p with vcfg := BitVec.ofNat 32 c, vl := BitVec.ofNat 32 vl, m := [(3, 0b1011)],
                                          v := [(8, BitVec.ofNat 2048 0x77665544332211), (16, BitVec.ofNat 2048 0x8000000000000001)] })

def vf (vd vs1 vs2 : BitVec 5) (men s x : Bool) : VF := { vd := vd, vs1 := vs1, vs2 := vs2, ms := if men then 3 else 0, men := men, s := s, x := x, md := 0 }

/-- SEW 64 with G 8, its largest groups; DEC with G 2; SEW 8 with VL 0. -/
theorem test_w_VectorIntegerAndMoves : (vecS 15 256 5).executes 5 ∧ ((vecS 15 256 5).pp 5).groupOk 8 ∧ ((vecS 15 256 5).pp 5).groupOk 16
    ∧ ((vecS 15 256 5).pp 5).groupOk 24 ∧ ((vecS 15 256 5).pp 5).vc.dec = false ∧ ((vecS 15 256 5).pp 5).vc.vl = ((vecS 15 256 5).pp 5).vc.max
    ∧ (vecS 71 32 5).executes 5 ∧ ((vecS 71 32 5).pp 5).vc.dec = true ∧ ((vecS 71 32 5).pp 5).groupOk 30 ∧ (vecS 0 0 5).executes 5
    ∧ ((vecS 0 0 5).pp 5).vc.vl = 0 ∧ (vf 8 16 24 true false false).men = true ∧ (vf 8 0 24 true false false).vs1 = 0 := by
  repeat' apply And.intro
  all_goals first | decide +kernel | rfl

theorem test_w_VectorFloat : (vecS 2 64 5).executes 5 ∧ ((vecS 2 64 5).pp 5).vc.dec = false ∧ 32 ≤ ((vecS 2 64 5).pp 5).vc.sew
    ∧ 32 ≤ ((vecS 15 256 5).pp 5).vc.sew ∧ ((vecS 2 64 5).pp 5).groupOk 31 ∧ (vf 8 16 0 true false false).vs2 = 0 := by
  repeat' apply And.intro
  all_goals first | decide +kernel | rfl

theorem test_w_VectorComparesAndReductions : (vecS 15 256 5).executes 5 ∧ (vf 7 16 24 true false false).vd.toNat < 8
    ∧ ((vecS 15 256 5).pp 5).groupOk 16 ∧ ((vecS 15 256 5).pp 5).groupOk 24 ∧ ((vecS 15 256 5).pp 5).groupOk 0
    ∧ ((vecS 15 256 5).pp 5).vc.dec = false ∧ 32 ≤ ((vecS 15 256 5).pp 5).vc.sew ∧ ((vecS 71 32 5).pp 5).vc.dec = true
    ∧ ((vecS 71 32 5).pp 5).groupOk 8 ∧ (vf 8 16 0 true false false).vs2 = 0 := by
  repeat' apply And.intro
  all_goals first | decide +kernel | rfl

theorem test_w_VectorPermutes : (vecS 15 256 5).executes 5 ∧ (vf 8 16 2 true false false).men = true ∧ ((vecS 15 256 5).pp 5).groupOk 8
    ∧ ((vecS 15 256 5).pp 5).groupOk 16 ∧ (8 : BitVec 5).toNat + ((vecS 15 256 5).pp 5).vc.g ≤ (16 : BitVec 5).toNat
    ∧ (vf 8 16 2 false false false).ms = 0 ∧ ((vecS 15 256 5).pp 5).vc.vl ≤ ((vecS 15 256 5).pp 5).vc.max
    ∧ (((vecS 15 256 5).pp 5).getX 2).toNat < ((vecS 15 256 5).pp 5).vc.vl
    ∧ ¬ (((vecS 15 16 5).pp 5).getX 2).toNat < ((vecS 15 16 5).pp 5).vc.vl := by
  repeat' apply And.intro
  all_goals first | decide +kernel | rfl

theorem test_w_VectorMasks : (vecS 0 256 5).executes 5 ∧ (vf 7 7 7 false false false).vs1.toNat < 8
    ∧ ((vecS 0 256 5).pp 5).vc.dec = false ∧ (vf 7 7 7 false false false).ms = 0 ∧ (vf 7 7 0 false false false).vs2 = 0 := by
  repeat' apply And.intro
  all_goals decide +kernel

theorem test_w_VectorControlAndTraps_control : (legS [256, 71]).executes 5 ∧ (127 < 128 ∧ (127 / 64 = 1 → 127 % 4 = 3 ∧ 127 / 4 % 4 ≠ 0))
    ∧ (((legS [256, 71]).pp 5).getX 2).toNat = 71 ∧ (71 < 128 ∧ (71 / 64 = 1 → 71 % 4 = 3 ∧ 71 / 4 % 4 ≠ 0))
    ∧ (pilS [256, 71]).executes 5 ∧ ((pilS [256, 71]).pp 5).mode = .pilot ∧ ((legS [256, 71]).ppLeg 5).isSome = true := by
  repeat' apply And.intro
  all_goals decide +kernel

theorem test_w_VectorControlAndTraps_traps : (vecS 15 256 5).executes 5 ∧ (128 > (67#16).toNat ∧ ¬ ((67#16).toNat / 64 = 1 → (67#16).toNat % 4 = 3
      ∧ (67#16).toNat / 4 % 4 ≠ 0)) ∧ (9 : BitVec 5).toNat % ((vecS 15 256 5).pp 5).vc.g ≠ 0
    ∧ (16 : BitVec 5).toNat % ((vecS 15 256 5).pp 5).vc.g = 0 ∧ ((vecS 71 32 5).pp 5).vc.dec = true
    ∧ (8 : BitVec 5).toNat % ((vecS 71 32 5).pp 5).vc.g = 0 ∧ 32 < (24 : BitVec 5).toNat + ((1 : BitVec 3).toNat + 1) * ((vecS 15 256 5).pp 5).vc.g
    ∧ (24 : BitVec 5).toNat % ((vecS 15 256 5).pp 5).vc.g = 0 := by
  repeat' apply And.intro
  all_goals decide +kernel

/-- The L2 holds the line of address 0x4000C0. -/
def vmS (c vl : Nat) : State := withLine (vecS c vl 0x4000C0) (0x500000C0 / 64) false

theorem test_w_VectorLoadsAndStores_long : (vmS 3 8).executes 5 ∧ ((vmS 3 8).pp 5).vresume = 0 ∧ ((vmS 3 8).pp 5).eltAt = 0 ∧ ((vmS 3 8).pp 5).vc.vl ≤ ((vmS 3 8).pp 5).vc.max
    ∧ ((vmS 3 8).pp 5).groupOk 8 ∧ (((vmS 3 8).pp 5).getX 1).toNat % (((vmS 3 8).pp 5).vc.w / 8) = 0
    ∧ (vmS 3 8).ppCheck 5 ((((vmS 3 8).pp 5).getX 1).toNat + 0 * 8) needR = (.ok { dpa := 0x500000C0, vcol := false }, vmS 3 8)
    ∧ (vmS 3 8).ppCheck 5 ((((vmS 3 8).pp 5).getX 1).toNat + 7 * 8) needR = (.ok { dpa := 0x500000F8, vcol := false }, vmS 3 8)
    ∧ (vmS 3 8).ppCheck 5 ((((vmS 3 8).pp 5).getX 1).toNat + 7 * 8) needW = (.ok { dpa := 0x500000F8, vcol := false }, vmS 3 8)
    ∧ tget? ((vmS 3 8).cl 1).l2 (0x500000C0 / 64) = some (lineOf false) ∧ ((vmS 3 8).cl 1).l2En = true ∧ (vmS 3 8).inMemory 0x500000F8
    ∧ ((vmS 3 8).pp 5).vc.dec = false ∧ max 1 (((vmS 3 8).pp 5).vc.g * (8 * 2 ^ 3) / ((vmS 3 8).pp 5).vc.sew) ≤ 8
    ∧ ((7 : BitVec 3).toNat + 1) * ((vmS 3 8).pp 5).vc.g ≤ 8 ∧ (24 : BitVec 5).toNat + ((7 : BitVec 3).toNat + 1) * ((vmS 3 8).pp 5).vc.g ≤ 32 := by
  repeat' apply And.intro
  all_goals first | decide +kernel | rfl

theorem test_w_VectorLoadsAndStores_short : (vmS 0 2047).executes 5 ∧ ((vmS 0 2047).pp 5).vresume = 0 ∧ ((vmS 0 2047).pp 5).eltAt = 0 ∧ ((vmS 0 2047).pp 5).vc.dec = false
    ∧ (vmS 0 2047).ppCheck 5 (((vmS 0 2047).pp 5).getX 1).toNat needR = (.ok { dpa := 0x500000C0, vcol := false }, vmS 0 2047)
    ∧ ((vmS 0 2047).pp 5).vc.vl ≠ 0 ∧ (((vmS 0 9).pp 5).vc.vl + 7) / 8 = 2 ∧ (((vmS 0 2047).pp 5).getX 1).toNat % 32 = 0
    ∧ (vmS 0 9).ppCheck 5 ((((vmS 0 9).pp 5).getX 1).toNat + 31) needW = (.ok { dpa := 0x500000DF, vcol := false }, vmS 0 9) := by
  repeat' apply And.intro
  all_goals first | decide +kernel | rfl

/-! ### Witnesses: operator units -/

def cmdOf (cmd : Nat) (desc : Word) : UnitCmd :=
  { leg := 3, part := 2, slot := 0, pp := 5, cmd := cmd, desc := desc, arg := 0, imm := 0, order := 5 }
def tk0 : Ticket := tick 3 true 0 none
def legT : Leg := { leg0 (.running 5) with tickets := [(0, tk0)] }

/-- Cluster 1 with the command `u` queued in, or run by, its units. -/
def unitS (u : UnitCmd) (busy : Bool) : State :=
  let k : CmdUnit := { queue := if busy then [] else [u], running := if busy then some u else none, done := 0, limit := 0 }
  onCl { subS [] [(0, tk0)] with asaSets := [(1, { AsaSet.reset with sq := k.queue, uq := [u], srun := k.running })], asaCfg := [(1, 0x202)] }
    (fun c => { c with upu := k, hu := k, su := k, cmp := k })

def jobOf (cls order : Nat) (desc : Word) : DuJob :=
  { leg := 3, part := 2, slot := 0, desc := desc, cls := cls, capped := false, bad := false, preempted := false, start := none, ctx := none,
    order := order }
def duS (n : Nat) (cls : Nat) : State :=
  { subS [] [(0, tk0)] with duQueue := [jobOf 1 50 64, jobOf 3 49 64],
                            dus := (List.range n).map (fun i => (i, { DuUnit.reset with running := some (jobOf cls (i + 10) 64) })) }

theorem test_w_UnitStartsAndRejects : (unitS (cmdOf 1 64) false).unitsOn 1 = true ∧ ((unitS (cmdOf 1 64) false).cl 1).upu.running = none
    ∧ ((unitS (cmdOf 1 64) false).cl 1).upu.queue = cmdOf 1 64 :: [] ∧ ((unitS (cmdOf 1 64) false).cl 1).hu.queue = cmdOf 1 64 :: []
    ∧ ((unitS (cmdOf 1 64) false).cl 1).su.queue = cmdOf 1 64 :: [] ∧ ((unitS (cmdOf 1 64) false).cl 1).cmp.queue = cmdOf 1 64 :: []
    ∧ (unitS (cmdOf 1 64) false).frozen = false ∧ ((unitS (cmdOf 1 64) false).asaSet 1).srun = none
    ∧ ((unitS (cmdOf 1 64) false).asaSet 1).sq = cmdOf 1 64 :: [] ∧ ((unitS (cmdOf 1 64) false).asaSet 1).urun = none
    ∧ ((unitS (cmdOf 1 64) false).asaSet 1).uq = cmdOf 1 64 :: [] := by
  repeat' apply And.intro
  all_goals decide +kernel

theorem test_w_UnitStartsAndRejects_digest : ((duS 15 2).du 15).running = none ∧ ((duS 15 2).du 15).saved = [] ∧ (∀ o, o < 15 → ((duS 15 2).du o).running ≠ none)
    ∧ (duS 15 2).duQueue ≠ [] ∧ (duS 15 2).frozen = false ∧ (∀ o, o < 16 → ((duS 16 2).du o).running ≠ none)
    ∧ bestJob (duS 16 2).duQueue = some (jobOf 3 49 64) ∧ ((duS 16 2).du 0).running = some (jobOf 2 10 64)
    ∧ (duS 16 2).duVictim (jobOf 3 49 64).cls = some 0 := by
  repeat' apply And.intro
  all_goals decide +kernel

theorem test_w_UnitStartsAndRejects_misaligned : (cmdOf 1 65).desc.toNat % 64 ≠ 0 ∧ (unitS (cmdOf 1 65) true).awaits 3 0 legT tk0
    ∧ (unitS (cmdOf 1 65) true).unitsOn 1 = true ∧ ((unitS (cmdOf 1 65) true).cl 1).upu.running = some (cmdOf 1 65)
    ∧ ((unitS (cmdOf 4 65) true).cl 1).hu.running = some (cmdOf 4 65) ∧ 1 ≤ (cmdOf 4 65).cmd ∧ (cmdOf 4 65).cmd ≤ 4
    ∧ (unitS (cmdOf 4 65) true).chain.shuffles = [] ∧ ((unitS (cmdOf 1 65) true).cl 1).su.running = some (cmdOf 1 65)
    ∧ ((unitS (cmdOf 1 65) true).cl 1).cmp.running = some (cmdOf 1 65) ∧ ((unitS (cmdOf 1 65) true).asaSet 1).srun = some (cmdOf 1 65)
    ∧ ((unitS (cmdOf 1 65) true).asaSet 1).sdesc = none ∧ ((unitS (cmdOf 1 65) true).asaSet 1).urun = none
    ∧ ((unitS (cmdOf 1 65) true).asaSet 1).uq = cmdOf 1 65 :: [] ∧ (legT.place ≠ .closed 9) := by
  repeat' apply And.intro
  all_goals decide +kernel

/-- The units' commands with the descriptor `d` and the data `x` at tenant address 0x1000. -/
def runS (u : UnitCmd) (d x : List Byte) : State :=
  onCl { unitS u true with mem := memOf [(0x40001000, x), (0x40400040, d)], ioTlb := [mapOf], stu := [mapOf],
                           dus := [(2, { DuUnit.reset with running := some (jobOf 2 7 0x400040) })] }
    (fun k => { k with unitTlb := [mapOf] })

def scanU : State := runS (cmdOf 1 0x400040) [] []
def decodeU : State := runS (cmdOf 2 0x400040) [] []
/-- COMPRESS of 16 bytes in format 0 to 0x3000; the SHA-256 digest of the 3 bytes "abc", by a gather list of one entry. -/
def compU : State := runS (cmdOf 1 0x400040) [0, 0, 0, 0, 16, 0, 0, 0, 0, 0x10, 0, 0, 0, 0, 0, 0, 0, 0x30, 0, 0, 0, 0, 0, 0, 0, 1] (List.replicate 16 5)
def shaU : State :=
  runS (cmdOf 1 0x400040) [0, 0, 0, 0, 1, 0, 0, 0, 3, 0, 0, 0, 0, 0, 0, 0, 0, 0x10, 0, 0, 0, 0, 0, 0, 0, 0x30]
    [0x10, 0x10, 0, 0, 0, 0, 0, 0, 3, 0, 0, 0, 0, 0, 0, 0, 0x61, 0x62, 0x63]

/-- `s` with the command `u` waiting in each unit of cluster 1, and its ASA set. -/
def queued (u : UnitCmd) (s : State) : State :=
  onCl { s with asaSets := [(1, { AsaSet.reset with uq := [u] })] }
    (fun c => { c with upu := { CmdUnit.reset with queue := [u] }, hu := { CmdUnit.reset with queue := [u] },
                       su := { CmdUnit.reset with queue := [u] }, cmp := { CmdUnit.reset with queue := [u] } })

/-- The compressor's progress can reach the 16 bytes of `compU`; the other units' commands are not valid, and no read waits for a port. -/
theorem test_w_UnitStartsAndRejects_bounds : (queued (cmdOf 1 0x400040) compU).unitsOn 1 = true ∧ ((queued (cmdOf 1 0x400040) compU).cl 1).cmp.running = none
    ∧ ((queued (cmdOf 1 0x400040) compU).cl 1).cmp.queue = cmdOf 1 0x400040 :: []
    ∧ cmpBound 1 (cmdOf 1 0x400040) (queued (cmdOf 1 0x400040) compU).asking = (16, (queued (cmdOf 1 0x400040) compU).asking)
    ∧ scanBound 1 (cmdOf 1 0x400040) (queued (cmdOf 1 0x400040) compU).asking = (0, (queued (cmdOf 1 0x400040) compU).asking)
    ∧ suBound 1 (cmdOf 1 0x400040) (queued (cmdOf 1 0x400040) compU).asking = (0, (queued (cmdOf 1 0x400040) compU).asking)
    ∧ huBound 1 (cmdOf 1 0x400040) (queued (cmdOf 1 0x400040) compU).asking = (0, (queued (cmdOf 1 0x400040) compU).asking)
    ∧ (uRun (huStart (huCtx 1 (cmdOf 1 0x400040)) 1 (cmdOf 1 0x400040)) (queued (cmdOf 1 0x400040) compU).asking).2.hostMiss = none
    ∧ (doHuStart 1 (queued (cmdOf 1 0x400040) compU).asking).hostMiss = none
    ∧ (uRun (updateStart ((cmdOf 3 0x400040).ctx 6 .io 1) (cmdOf 3 0x400040)) (queued (cmdOf 3 0x400040) compU).asking).2.hostMiss = none
    ∧ ((queued (cmdOf 3 0x400040) compU).asaSet 1).uq = cmdOf 3 0x400040 :: [] := by
  repeat' apply And.intro
  all_goals decide +kernel

/-- A digest unit that is free and has a saved job, and none waits. -/
def savedS : State := { duS 0 0 with duQueue := [], dus := [(2, { DuUnit.reset with saved := [jobOf 2 7 64] })] }

theorem test_w_UnitStartsAndRejects_saved : (savedS.du 2).running = none ∧ (savedS.du 2).saved = [jobOf 2 7 64] ∧ savedS.duQueue = []
    ∧ (doDuStart 2 savedS.asking).hostMiss = none ∧ (doDuStart 15 (duS 15 2).asking).hostMiss = none
    ∧ bestJob (duS 15 2).duQueue = some (jobOf 3 49 64) ∧ (doDuPreempt 0 (duS 16 2).asking).hostMiss = none ∧ ((duS 16 2).du 0).saved.length < 4 := by
  repeat' apply And.intro
  all_goals decide +kernel

/-- The command's ticket in the state that the work leaves. -/
def waits (s : State) : Bool := decide (s.leg? 3 = some legT) && decide (tget? legT.tickets 0 = some tk0)

theorem test_w_UnitCompletions : scanU.unitsOn 1 = true ∧ (scanU.cl 1).upu.running = some (cmdOf 1 0x400040) ∧ scanU.leg? 3 = some legT
    ∧ waits (scanRun 1 legT (cmdOf 1 0x400040) scanU).2.2.2 = true
    ∧ (decodeU.cl 1).upu.running = some (cmdOf 2 0x400040) ∧ (cmdOf 2 0x400040).cmd ≠ 1 ∧ waits (decodeRun 1 (cmdOf 2 0x400040) decodeU).2.2 = true
    ∧ (scanU.cl 1).su.running = some (cmdOf 1 0x400040) ∧ waits (suRun 1 (cmdOf 1 0x400040) scanU).2.2 = true
    ∧ (scanU.cl 1).hu.running = some (cmdOf 1 0x400040) ∧ waits (huRun 1 (cmdOf 1 0x400040) none .clean 0 scanU).2.2.2.2.2 = true
    ∧ scanU.chain.shuffleEnd = [] ∧ (scanU.cl 1).huFault = none ∧ (scanU.cl 1).huSent = 0 ∧ scanU.frozen = false ∧ (shaU.du 2).running = some (jobOf 2 7 0x400040)
    ∧ (digestRun 2 (jobOf 2 7 0x400040) shaU).1 ≠ 0x0705 ∧ waits (digestRun 2 (jobOf 2 7 0x400040) shaU).2.2.2 = true := by
  repeat' apply And.intro
  all_goals decide +kernel

theorem test_w_UnitCompletions_compress : (compU.cl 1).cmp.running = some (cmdOf 1 0x400040)
    ∧ waits (uRun (compressRun ((cmdOf 1 0x400040).ctx 4 (.cluster 1)) (cmdOf 1 0x400040) (compU.cl 1).cmpStamp) compU).2 = true
    ∧ (uRun (compressRun ((cmdOf 1 0x400040).ctx 4 (.cluster 1)) (cmdOf 1 0x400040) (compU.cl 1).cmpStamp) compU).1.toBool = true := by
  repeat' apply And.intro
  all_goals decide +kernel

/-! ### Values of the standards that the spec names -/

/-- FIPS 180-4's example, as the digest unit writes it into the L2 of the leg's cluster: R155, R246, R248, R250. -/
theorem test_sha256_abc : (digestRun 2 (jobOf 2 7 0x400040) shaU).1 = 0
    ∧ (tget? ((digestRun 2 (jobOf 2 7 0x400040) shaU).2.2.2.cl 1).l2 (0x40003000 / 64)).map (fun e => e.data.take 32)
      = some [0xba, 0x78, 0x16, 0xbf, 0x8f, 0x01, 0xcf, 0xea, 0x41, 0x41, 0x40, 0xde, 0x5d, 0xae, 0x22, 0x23,
         0xb0, 0x03, 0x61, 0xa3, 0x96, 0x17, 0x7a, 0x9c, 0xb4, 0x10, 0xff, 0x61, 0xf2, 0x00, 0x15, 0xad] := by
  repeat' apply And.intro
  all_goals decide +kernel

/-- R249: the digest of the empty message begins with these bytes. -/
theorem test_sha256_empty : (sha256 []).take 4 = [0xE3, 0xB0, 0xC4, 0x42] := by
  all_goals decide +kernel

theorem test_sha512_abc : (sha512 [0x61, 0x62, 0x63]).take 8 = [0xdd, 0xaf, 0x35, 0xa1, 0x93, 0x61, 0x7a, 0xba] := by
  all_goals decide +kernel

theorem test_sha3_abc : (sha3_256 [0x61, 0x62, 0x63]).take 8 = [0x3a, 0x98, 0x5d, 0xa7, 0x4f, 0xe2, 0x25, 0xb2] := by
  all_goals decide +kernel

/-! ### Witnesses: associative array, movers, queues, administration -/

/-- An image of entry 3 of the group, and an UPDATE descriptor of `n` images at 0x1000. -/
def imgOf : List Byte := [3, 0, 0, 0, 4] ++ List.replicate 91 0
def updOf (n : Byte) : List Byte := [0, 0, 0, 0, n, 0, 0, 0, 0, 0x10] ++ List.replicate 54 0
def entOf (fb : Bool) : AsaEntry :=
  { AsaEntry.empty with valid := true, fbs := if fb then [false] else [], canon0 := some (AsaImg.ofBytes imgOf), arr := AsaImg.ofBytes imgOf, ecc := AsaImg.ofBytes imgOf }
def asaS (a : AsaSet) (fb : Bool) : State :=
  { runS (cmdOf 1 0x400040) [] [] with mem := memOf [(0x40001000, imgOf)], asaSets := [(1, a)], asaCfg := [(1, 0x202)], asa := [(8192 + 3, entOf fb)] }

def updA (n : Byte) : AsaSet := { AsaSet.reset with urun := some (cmdOf 3 0x400040), udesc := some (updOf n) }
def srchA : AsaSet := { AsaSet.reset with srun := some (cmdOf 1 0x400040), sdesc := some (List.replicate 64 0) }

theorem test_w_AssociativeArray : (asaS (updA 1) false).frozen = false ∧ ((asaS (updA 1) false).asaSet 1).urun = some (cmdOf 3 0x400040)
    ∧ ((asaS (updA 1) false).asaSet 1).udesc = some (updOf 1) ∧ ((asaS (updA 1) false).asaSet 1).ustop = none
    ∧ ((asaS (updA 1) false).asaSet 1).uidx < (UpdD.ofBytes (updOf 1)).count ∧ (UpdD.ofBytes (updOf 1)).op = 0
    ∧ (asaGroup (asaS (updA 1) false).asaCfg 1).isSome = true
    ∧ ((uRun (uRead ((cmdOf 3 0x400040).ctx 6 .io 1) 0x1000 96) (asaS (updA 1) false)).1.toOption = some imgOf)
    ∧ (asaGroup (asaS (updA 1) false).asaCfg 1).map (fun g => imgOk g.w imgOf && decide (3 < g.size) && decide (g.key 3 = 8192 + 3)) = some true
    ∧ (uRun (uRead ((cmdOf 3 0x400040).ctx 6 .io 1) 0x1000 96) (asaS (updA 1) false)).2.hostMiss = none
    ∧ (tgetD (uRun (uRead ((cmdOf 3 0x400040).ctx 6 .io 1) 0x1000 96) (asaS (updA 1) false)).2.asa (8192 + 3) .empty).held = false
    ∧ (UpdD.ofBytes (updOf 0)).count ≤ ((asaS (updA 0) false).asaSet 1).uidx ∧ (asaS (updA 0) false).awaits 3 0 legT tk0 := by
  repeat' apply And.intro
  all_goals decide +kernel

theorem test_w_AssociativeArray_repairs : (tgetD (asaS .reset true).asa (1 * 8192 + 3) .empty) = entOf true ∧ (entOf true).fbs = [false]
    ∧ (entOf true).canon false = some (AsaImg.ofBytes imgOf) ∧ (entOf true).sel = false ∧ ({ entOf true with sel := true }).sel ≠ false
    ∧ ({ entOf true with eccState := .uncorrectable }).sel ∉ (entOf false).fbs
    ∧ asaS .reset true = (asaS .reset true).asking
    ∧ ((asaS .reset true).asaSet 1).sprop = none ∧ tget? (asaS .reset false).asa (1 * 8192 + 3) = some (entOf false)
    ∧ (entOf false).quarantined = false ∧ (entOf false).eccState = .clean ∧ ((asaS srchA false).asaSet 1).srun = some (cmdOf 1 0x400040)
    ∧ ((asaS srchA false).asaSet 1).sdesc = some (List.replicate 64 0) ∧ (SearchD.ofBytes (List.replicate 64 0)).count = 0 := by
  repeat' apply And.intro
  all_goals decide +kernel

def chanS (k : Channel) (retries : Nat) : State :=
  onCl (runS (cmdOf 1 0x400040) [] [1, 2, 3, 4, 5, 6, 7, 8]) (fun c => { c with dm := [(2, k)], dmRetryMax := retries })

/-- Channel 2 as `chanS` moves its rows. -/
def movedS : State := State.dmGo 1 2 (fun _ => false) dmFuel (chanS (chan 2 0) 3)
def movedK : Channel := tgetD (movedS.cl 1).dm 2 (chan 0 0)

theorem test_w_MoverEvents : (chanS (chan 1 2) 3).unitsOn 1 = true ∧ tget? ((chanS (chan 1 2) 3).cl 1).dm 2 = some (chan 1 2)
    ∧ (chan 1 2).state = 1 ∧ (chan 1 2).trigger = 2 ∧ (chan 2 0).wait = false ∧ (chan 2 0).touches 0x1000 = true
    ∧ (chan 2 0).retry < ((chanS (chan 2 0) 1).cl 1).dmRetryMax
    ∧ ((chanS (chan 2 0) 0).cl 1).dmRetryMax ≤ (chan 2 0).retry ∧ ((chanS (chan 2 0) 0).cl 1).dm = [(2, chan 2 0)]
    ∧ (chanS { chan 2 0 with slot := 0 } 0).awaits 3 0 legT tk0
    ∧ (movedS.cl 1).dm = [(2, movedK)] ∧ movedK.state = 2 ∧ movedK.count ≤ movedK.rows ∧ movedK.leg = 3 ∧ waits movedS = true
    ∧ legT.place ≠ .closed 9 := by
  repeat' apply And.intro
  all_goals decide +kernel

def que (p c : BitVec 32) (enable : Bool) : Queue :=
  { Queue.reset with exist := true, part := 2, ln := 9, enable := enable, base := 0x1000, sizeLog2 := 4, shBase := 0x8000, shSize := 3, p := p, c := c }
def adm (p c : BitVec 32) (enable : Bool) : Admin :=
  { Admin.reset with enable := enable, sqSize := 4, cqSize := 4, sqBase := 0x10000, cqBase := 0x20000, sqP := p, sqC := c, cqP := p, cqC := c,
                     shSqBase := 0x30000, shCqBase := 0x40000 }
/-- SQ 7 and CQ 7 and the administrative pair, with their indexes about the wrap at 2^32. -/
def queS (p c : BitVec 32) (enable : Bool) : State :=
  quiet { base with sqs := [(7, que p c enable)], cqs := [(7, que p c enable)], admin := adm p c enable, stu := [mapOf], ioTlb := [mapOf] }

theorem test_w_Doorbells : (queS 2 0xFFFFFFFE true).serves ∧ ((queS 2 0xFFFFFFFE true).sq 7).exist = true
    ∧ ((queS 2 0xFFFFFFFE true).sq 7).enable = true ∧ ((queS 2 0xFFFFFFFE true).part 2).halted = false
    ∧ (((2 : BitVec 32) - 0xFFFFFFFE).toNat ≤ ((14 : BitVec 32) - 0xFFFFFFFE).toNat ∧ ((14 : BitVec 32) - 0xFFFFFFFE).toNat ≤ 2 ^ 4)
    ∧ 2 ^ 4 < ((15 : BitVec 32) - 0xFFFFFFFE).toNat ∧ ((1 : BitVec 32) - 0xFFFFFFFE).toNat < ((2 : BitVec 32) - 0xFFFFFFFE).toNat
    ∧ ((0xFFFFFFFE : BitVec 32) - 0xFFFFFFFE).toNat = 0 ∧ 1 ≤ ((2 : BitVec 32) - 0xFFFFFFFE).toNat
    ∧ ((queS 2 0xFFFFFFFE true).part 2).holding = [] ∧ ((queS 2 0xFFFFFFFE true).part 2).linkHeld = [] ∧ (queS 2 0xFFFFFFFE true).fc.open' = false
    ∧ ((2 : BitVec 32) - 0xFFFFFFFE).toNat < ((3 : BitVec 32) - 0xFFFFFFFE).toNat ∧ ((queS 0 0 false).sq 7).enable = false
    ∧ (queS 2 0xFFFFFFFE true).admin.waiting = [] ∧ (queS 2 0xFFFFFFFE true).copies = [] ∧ (queS 0 0 false).admin.enable = false := by
  repeat' apply And.intro
  all_goals decide +kernel

def fetchOf (fails : Nat) (waiting : Bool) (dpa : Nat) : Fetch :=
  { first := 5, count := 1, fails := fails, waiting := waiting, upTo := 9, dpa := dpa, linkDown := false }
def fetchS (f : Option Fetch) (up : Bool) : State :=
  { queS 9 5 true with sqs := [(7, { que 9 5 true with fetch := f })], hps := if up then ports else [] }

/-- An SQ entry that starts a leg of the partition's CQ 9, and a NOP. -/
def legEnt : List Byte :=
  [1, 1, 0, 0, 9, 255, 0, 0, 0xE8, 3, 0, 0, 5, 0, 0, 0, 0, 0, 0x40] ++ List.replicate 109 0
def nopEnt : List Byte := [0, 1] ++ List.replicate 126 0

theorem test_w_SubmissionFetches : (fetchS none true).sqFetches 7 = true ∧ (fetchS none true).parityLive = [] ∧ ((fetchS none true).sq 7).slots = []
    ∧ ((fetchS none true).sq 7).fetch = none ∧ ((fetchS none true).sq 7).c ≠ ((fetchS none true).sq 7).p
    ∧ ((fetchS none true).sttAccess 2 (1 * 4096 + 5 * 128) needR).1.toOption = some 0x40001280
    ∧ region (fetchS none true) 0x40001280 ≠ .host ∧ ((fetchS none true).sttAccess 2 0x123456789000 needR).1.toOption = none
    ∧ (fetchS (some (fetchOf 0 false 0x800000001280)) true).sqFetches 7 = true
    ∧ region (fetchS (some (fetchOf 0 false 0x800000001280)) true) 0x800000001280 = .host ∧ nopEnt.length = 128 ∧ fld nopEnt 0 1 = 0
    ∧ fld nopEnt 1 1 = 1 ∧ zeroAt nopEnt 2 126 = true ∧ legEnt.length = 128 ∧ fld legEnt 0 1 = 1 ∧ inlineOf legEnt = false
    ∧ 2 ≤ fld (2 :: nopEnt) 0 1 := by
  repeat' apply And.intro
  all_goals decide +kernel

theorem test_w_SubmissionFetches_failures : (fetchS (some (fetchOf 1 false 0x800000001280)) true).sqFetches 7 = true
    ∧ ((fetchS (some (fetchOf 1 false 0x800000001280)) true).hp 1).timeouts ≤ 0xFFFF
    ∧ ((fetchS (some (fetchOf 1 false 0x800000001280)) true).hp 1).linkUp = true ∧ (fetchOf 1 false 0x800000001280).fails < 2
    ∧ 2 ≤ (fetchOf 2 false 0x800000001280).fails ∧ ((fetchS (some (fetchOf 1 false 0x800000001280)) false).hp 1).linkUp = false
    ∧ (fetchS (some (fetchOf 1 false 0x800000001280)) false).sqFetches 7 = true ∧ (fetchOf 1 true 0x40001280).waiting = true
    ∧ region (fetchS (some (fetchOf 1 true 0x40001280)) true) 0x40001280 ≠ .host := by
  repeat' apply And.intro
  all_goals decide +kernel

/-- The entry is accepted, and its leg placed. -/
theorem test_w_SubmissionFetches_entry : (fetchS (some (fetchOf 0 false 0x800000001280)) true).entryCause (que 9 5 true) legEnt 5 9 = none
    ∧ ((fetchS (some (fetchOf 0 false 0x800000001280)) true).placeEntry
        ((fetchS (some (fetchOf 0 false 0x800000001280)) true).legEntry 7 (que 9 5 true) legEnt [] 5)).isSome = true := by
  repeat' apply And.intro
  all_goals decide +kernel

theorem test_w_RingConfiguration : (queS 9 5 false).frozen = false ∧ (queS 9 5 false).parity = [] ∧ (queS 9 5 false).bootFailed = false
    ∧ ((queS 9 5 false).part 2).holding = [] ∧ (queS 9 5 false).fc.open' = false ∧ (0x20024 : BitVec 32).getLsbD 6 = false ∧ (0x20050 : BitVec 32).getLsbD 6 = true
    ∧ (0x20050 : BitVec 32).toNat % 32 = 16 ∧ (0x20044 : BitVec 32).toNat % 32 = 4 ∧ ((queS 9 5 false).sq 7).enable = false
    ∧ ((queS 9 5 false).cq 7).enable = false ∧ (0x20043 : BitVec 32).toNat % 32 = 3 ∧ ((queS 9 5 false).part 2).linkHeld = []
    ∧ (queS 9 5 false).pm.bootDone = true ∧ (queS 9 5 false).admin.enable = false ∧ (0x31004 : BitVec 32).getLsbD 17 = true
    ∧ (0x31004 : BitVec 32).toNat % 32 = 4 ∧ (0x31004 : BitVec 32).toNat / 256 % 32 = 16 ∧ (0x30003 : BitVec 32).toNat % 32 = 3
    ∧ (queS 9 5 false).admin.shSqBase.toNat < 0x700000000000 ∧ (queS 9 5 false).admin.resv ≤ 2 ^ 16 ∧ (0x10000 : BitVec 32).getLsbD 17 = false := by
  repeat' apply And.intro
  all_goals decide +kernel

def admS (f : Option Fetch) (up : Bool) (p : BitVec 32) : State :=
  { queS 9 5 true with admin := { adm p 5 true with fetch := f }, hps := if up then ports else [(0, { HostPort.reset with mgmt := true })] }

theorem test_w_AdministrativePair : (admS none true 20).serves ∧ (admS none true 20).admin.waiting = [] ∧ (admS none true 20).copies = []
    ∧ (admS none true 20).admin.enable = true ∧ ((admS none true 20).admin.cqP - (admS none true 20).admin.cqC).toNat < 2 ^ (admS none true 20).admin.cqSize
    ∧ ((admS none true 20).hp (admS none true 20).mgmtPort).linkUp = true ∧ ((admS none false 20).hp (admS none false 20).mgmtPort).linkUp = false
    ∧ (admS none true 20).admin.fetch = none ∧ (admS none true 20).admin.sqP ≠ (admS none true 20).admin.sqC
    ∧ (admS (some (fetchOf 0 false 0x800000010280)) true 9).serves ∧ fld nopEnt 0 1 = 0 ∧ zeroAt nopEnt 4 124 = true ∧ 0x32 ≤ fld (0x32 :: nopEnt) 0 1
    ∧ (fetchOf 0 true 0x800000010280).waiting = true ∧ (fetchOf 0 true 0x800000010280).dpa + 128 ≤ hostBase + 0x700000000000
    ∧ (fetchOf 0 false 0x800000010280).waiting = false ∧ (admS none true 20).parityLive = []
    ∧ (admS none true 20).admin.cqBase.toNat + (admS none true 20).admin.cqP.toNat % 2 ^ 4 * 32 + 32 ≤ 0x700000000000
    ∧ (admS none true 20).admin.sqBase.toNat + (admS none true 20).admin.sqC.toNat % 2 ^ 4 * 128 + 128 ≤ 0x700000000000 := by
  repeat' apply And.intro
  all_goals decide +kernel

def parS (q : Part) : State := { queS 9 9 true with parts := [(0, part0), (1, { part0 with pasid := 34 }), (2, q)] }
def quiP : Part := { part0 with quiesced := true }

theorem test_w_PartitionCommands : (parS quiP).serves ∧ 511 < 512 ∧ 0xFFFFF < 2 ^ 20 ∧ 3 ≤ 3 ∧ 2 ^ 20 ≤ 0x100000 ∧ 3 < 4 ∧ 511 < 512
    ∧ (∀ e ∈ (parS part0).legs, e.2.entry.part = 2 → e.2.hold = none) ∧ ((parS quiP).part 3).exist = false ∧ (∀ k, k < 3 → ((parS quiP).part k).exist = true)
    ∧ (∀ e ∈ (parS quiP).parts, e.2.exist = true → e.2.pasid ≠ 35)
    ∧ ((parS part0).part 2).exist = true ∧ ((parS part0).part 2).quiesced = false ∧ ((parS part0).part 2).quiesce = none
    ∧ (∀ e ∈ (parS part0).cls, ∀ x ∈ e.2.dm, x.2.part ≠ 2) ∧ ((parS { part0 with halted := true }).part 2).halted = true
    ∧ ((parS part0).part 2).halted = false ∧ (parS part0).grants = [] ∧ (parS part0).fc.open' = false
    ∧ ((parS quiP).part 2).quiesced = true ∧ ((parS quiP).part 2).quenchGo = false := by
  repeat' apply And.intro
  all_goals decide +kernel

/-- A table of the same entry under every number from `n` to `n + k - 1` has it there. -/
theorem tget?_all {α : Type} (x : α) (k : Nat) : ∀ n m, n ≤ m → m < n + k → tget? ((List.range' n k).map (fun i => (i, x))) m = some x := by
  induction k with
  | zero => intro n m h1 h2; omega
  | succ k ih =>
    intro n m h1 h2
    by_cases h : n = m
    · simp [List.range'_succ, tget?, h]
    · simp only [List.range'_succ, List.map_cons, tget?, if_neg h]
      exact ih (n + 1) m (by omega) (by omega)

/-- All 512 partitions exist. -/
theorem test_w_PartitionCommands_noneFree (k : Nat) (h : k < 512) :
    (({ base with parts := (List.range' 0 512).map (fun i => (i, part0)) } : State).part k).exist = true := by
  simp only [State.part, tgetD, tget?_all part0 512 0 k (by omega) (by omega)]
  rfl

def goneP : Part := { part0 with quiesce := some { tick := 7, cids := [(11, 22)], resume := [] }, quenchGo := true }

theorem test_w_PartitionCommands_ends : (parS goneP).serves ∧ ((parS goneP).part 2).quiesce = some { tick := 7, cids := [(11, 22)], resume := [] } ∧ 7 < ({ (parS goneP).fc with sealedIn := 8 }).sealedIn
    ∧ ((parS goneP).part 2).linkHeld = [] ∧ (∀ e ∈ (parS goneP).legs, e.2.entry.part ≠ 2)
    ∧ (∀ e ∈ (parS goneP).cls, e.2.dm = [] ∧ e.2.unitCmds = []) ∧ (∀ e ∈ (parS goneP).asaSets, e.2.cmds = []) ∧ (parS goneP).cmds = []
    ∧ (∀ e ∈ (parS goneP).sqs, e.2.fetch = none) ∧ ((parS goneP).part 2).quenchGo = true ∧ ((parS goneP).part 2).quenching = []
    ∧ ({ parS goneP with quenchWait := some 2 } : State).quenchWait = some 2 := by
  repeat' apply And.intro
  all_goals decide +kernel

/-- The first `k` local numbers are taken, and the first `k` queue numbers; a leg holds the last queues. -/
def numS (k : Nat) (busy : Bool) : State :=
  { base with sqs := (List.range k).map (fun i => (i, { que 0 0 true with ln := i })),
              cqs := (List.range k).map (fun i => (i, { que 0 0 true with ln := i })),
              legs := if busy then [(3, { leg0 (.ready 1) with entry := { ent0 with cq := 2, sq := 2 }, resv := some .slot })] else [] }

theorem test_w_QueueCommands : (numS 3 false).serves ∧ 2 < 512 ∧ (4 ≤ 4 ∧ 16 ≤ 16) ∧ 31 ≤ 31 ∧ (∀ y, y < 17 → 4 ≤ y → 17 ≠ 2 ^ y ∧ 8 ≠ 2 ^ y ∧ 131072 ≠ 2 ^ y)
    ∧ 511 < 512 ∧ 63 < 64 ∧ ((numS 3 false).part 2).exist = true ∧ 3 < 64 ∧ 63 < 64
    ∧ (∀ e ∈ (numS 3 false).cqs, e.2.exist = true → e.2.part = 2 → e.2.ln ≠ 3)
    ∧ (∀ m, m < 3 → ∃ e ∈ (numS 3 false).cqs, e.2.exist = true ∧ e.2.part = 2 ∧ e.2.ln = m)
    ∧ (∀ e ∈ (numS 3 false).sqs, e.2.exist = true → e.2.part = 2 → e.2.ln ≠ 3)
    ∧ (∀ m, m < 3 → ∃ e ∈ (numS 3 false).sqs, e.2.exist = true ∧ e.2.part = 2 ∧ e.2.ln = m)
    ∧ ((numS 3 false).sq 3).exist = false ∧ ((numS 3 false).cq 3).exist = false
    ∧ (∀ m, m < 3 → ((numS 3 false).sq m).exist = true ∨ ((numS 3 false).cq m).exist = true)
    ∧ (0xFFFFFFFFF000 : Word).toNat % 4096 = 0 ∧ (0xFFFFFFFFF000 : Word).toNat < 2 ^ 48 ∧ ¬ (0x1000000000000 : Word).toNat < 2 ^ 48
    ∧ (numS 3 false).cqLocal 2 3 = none ∧ (numS 3 false).cqLocal 2 2 = some 2 ∧ (numS 3 false).cqUsed 2 = false
    ∧ (numS 3 true).cqUsed 2 = true ∧ (numS 3 true).sqBusy 2 = true ∧ (numS 3 false).sqBusy 2 = false
    ∧ ((numS 3 false).sqs.find? (fun e => e.2.exist && e.2.part = 2 && e.2.ln = 2)).map (·.1) = some 2 := by
  repeat' apply And.intro
  all_goals decide +kernel

def resS (k : Cluster) (chained : Bool) : State :=
  { parS quiP with cls := [(1, k)], chain := { State.reset.chain with status := if chained then 3 else 0 } }
/-- A table of partition 2 in granules 62 and 63, which it owns. -/
def usedK : Cluster :=
  { Cluster.reset with owner := [(62, 0x8002), (63, 0x8002)],
                       tables := [{ part := 2, num := 1, agg := false, base := 62, granules := 2, seed := 0, kw := 1, pw := 1, classes := [],
                                    nullable := false, accs := [], legScope := none, poisoned := false }] }
def pipe1 (p : Nat) : Pipe := { part := p, depthLog2 := 3, way := 4, set := 0, entries := [], head := 0, flaws := [] }

theorem test_w_ResourceAndReadCommands : (resS .reset true).serves ∧ (63 < 64 ∧ 3 ≤ 3) ∧ (resS .reset true).fc.open' = false ∧ (4 ≤ 4 ∧ 14 ≤ 14)
    ∧ (((resS .reset true).setPart 2 { (resS .reset true).part 2 with inboxes := tput ((resS .reset true).part 2).inboxes 255 { base := 0x1000, bytes := 128, fill := 0, records := 0 } }).sttAccess 2 (0x1000 : Word).toNat needW).1.toOption = some 0x40001000
    ∧ region (resS .reset true) 0x40001000 ≠ .host ∧ (255 ≤ 255 ∧ 0xFFFFFFFF ≤ 0xFFFFFFFF ∧ 16895 ≤ 16895) ∧ ((resS .reset true).part 2).exist = true ∧ (3 : Word) ≠ ((resS .reset true).part 2).clusters
    ∧ ((parS part0).part 2).quiesced = false ∧ ((resS .reset true).part 2).quiesced = true
    ∧ ((parS { quiP with clusters := 1 }).part 2).clusters &&& ~~~ (3 : Word) = 0
    ∧ (2 ^ 63 : Word).getLsbD 63 = true ∧ ((resS usedK true).cl 1).granuleUsed 63 = true
    ∧ (∀ g, g < 64 → (2 ^ 63 : Word).getLsbD g = true → ((resS .reset true).cl 1).granuleUsed g = false)
    ∧ (30 % 2 ^ 1 = 0 ∧ 30 + 2 ^ 1 ≤ 32)
    ∧ (∀ b, b < 32 → 30 ≤ b → asaGroup (resS .reset true).asaCfg b = none ∧ (resS .reset true).asaBusy b = false)
    ∧ ((resS { Cluster.reset with wayCfg := 0x200 } true).cl 1).pipes = [] ∧ wayMode 0x200 4 = .pipe ∧ (∀ m, m < 4 → wayMode 0x200 m ≠ .pipe)
    ∧ ((resS { Cluster.reset with pipes := [(255, pipe1 5)] } true).cl 1).pipes = [(255, pipe1 5)] ∧ (pipe1 5).part ≠ 2 ∧ (pipe1 2).part = 2
    ∧ (resS .reset true).pps = [] ∧ ((resS .reset true).cl 1).dm = [] ∧ (resS .reset true).chain.status = 3 ∧ (resS .reset false).chain.status ≠ 3
    ∧ (0xFFFFFFFFFFC0 : Word).toNat % 64 = 0 ∧ (0xFFFFFFFFFFC0 : Word).toNat < 2 ^ 48 ∧ 128 % 64 = 0 ∧ 0xFFFFFFC0 % 64 = 0
    ∧ (resS .reset true).evtPend.contains 5 = false := by
  repeat' apply And.intro
  all_goals decide +kernel

/-- The record of fix 8, and port 2 with a message held for vector 4,095. -/
def fixS (unmasked : List Nat) : State :=
  { base with mem := memOf [(keepLog + 8 * 64, [0x58, 0x46]), (keepLog + 8 * 64 + 8, [8])],
              hps := ports ++ [(2, { HostPort.reset with linkUp := true, msixEn := true, pba := [4095], unmasked := unmasked })] }

theorem test_w_ResourceAndReadCommands_reads : (fixS []).serves ∧ (1 ≤ 65536 ∧ 65536 ≤ 65536) ∧ (0 = 0 ∨ 65536 < 0) ∧ 65536 < 65537 ∧ (0x6FFFFFFFFFC0 : Word).toNat % 64 = 0 ∧ (0x6FFFFFFFFFC0 : Word).toNat + 64 * 1 ≤ 0x700000000000
    ∧ (fixS []).fc.sealed.toNat < 9 ∧ (fixS []).fc.sealed.toNat = 8
    ∧ fld (readBytes (fixS []).mem (keepLog + 8 % logRing * 64) 64) 0 2 = 0x4658 ∧ fld (readBytes (fixS []).mem (keepLog + 8 % logRing * 64) 64) 8 8 = 8
    ∧ (0x6FFFFFFFE000 : Word).toNat % 64 = 0 ∧ (0x6FFFFFFFE000 : Word).toNat + 8192 ≤ 0x700000000000 ∧ (0x1001 : Word).toNat % 64 ≠ 0
    ∧ ((fixS []).hp 2).linkUp = true ∧ ((fixS []).hp 2).msixEn = true ∧ ((fixS []).hp 2).unmasked.contains 4095 = false ∧ ((fixS []).hp 2).pba = [4095]
    ∧ ((fixS [4095]).hp 2).unmasked = [4095] ∧ 2 < 4 ∧ 4095 < 4096 := by
  repeat' apply And.intro
  all_goals decide +kernel

/-! ### Witnesses: epochs, scheduling, translation, caches -/

def setOf (len : Nat) (run : Bool) (shares : Table Nat) : EpochSet := { EpochSet.reset with lenUs := len, run := run, share := shares }
def epS (e : EpochSet) (ticking : Bool) : State :=
  { parS part0 with fc := { base.fc with sh := e, live := setOf 100 true [], ticking := ticking, open' := false, lastTick := 100000, nextTick := 200000 } }

theorem test_w_EpochTicks : (epS (setOf 10 true [(2, 1000)]) false).serves ∧ (epS (setOf 10 true [(2, 1000)]) false).parity = []
    ∧ (epS (setOf 10 true [(2, 1000)]) false).parityLive = [] ∧ (epS (setOf 10 true [(2, 1000)]) false).alone
    ∧ (epS (setOf 10 true [(2, 1000)]) false).fc.sh.lenUs = 10 ∧ (∀ x ∈ (setOf 10 true [(2, 1000)]).share, x.2 ≤ 1000)
    ∧ (setOf 10 true [(2, 1000)]).run = true ∧ 1000 ≤ 1000 ∧ (epS (setOf 10 true []) false).fc.ticking = false
    ∧ (epS (setOf 10 true []) false).legs = [] ∧ ¬ 10 ≤ (setOf 9 true []).lenUs ∧ ¬ (setOf 1001 true []).lenUs ≤ 1000
    ∧ ¬ (∀ x ∈ (setOf 10 true [(2, 1001)]).share, x.2 ≤ 1000) ∧ (epS (setOf 10 true []) true).fc.ticking = true
    ∧ (∀ x ∈ (epS (setOf 10 true []) true).fc.fixes, x.2.last = false) ∧ (epS (setOf 10 true []) true).fc.tickEarly = none := by
  repeat' apply And.intro
  all_goals decide +kernel

theorem test_w_EpochTicks_stops : ({ legS [] with fc := (epS (setOf 10 true []) true).fc } : State).leg? 3 = some (leg0 (.running 5))
    ∧ ((legS []).pp 5).mode = .leg ∧ ((legS []).pp 5).dbg = .no ∧ (legS []).alone ∧ (pilLegS []).leg? 3 = some (leg0 (.running 5))
    ∧ ((pilLegS []).pp 5).mode = .pilot ∧ (leg0 (.running 5)).stopped = false := by
  repeat' apply And.intro
  all_goals decide +kernel

/-- A unit of a chain of three, with fix 9 cut. -/
def fixOf (cut : List Nat) : Fix :=
  { tickStamp := 77777, lenUs := 100, cut := cut, carriedLegs := 2, newSet := true, readySent := false, fixIn := none, last := false }
def chS (mode : Nat) (address : Nat) (ready : BitVec 16) (misses : Nat) : State :=
  { epS (setOf 10 true []) true with
    fc := { (epS (setOf 10 true []) true).fc with fixes := [(9, fixOf [])], epoch := 11, ready := [(9, ready)], misses := [(1, misses)],
                                                   live := { setOf 100 true [] with lostFixes := 2 } },
    chain := { State.reset.chain with mode := mode, status := 3, units := 3, members := 7, address := address } }

theorem test_w_EpochTicks_opens : (chS 2 1 0 0).inChain = true ∧ (chS 2 1 0 0).fc.ticking = true ∧ (chS 2 1 0 0).fc.open' = false
    ∧ (∀ x ∈ (chS 2 1 0 0).fc.fixes, x.2.last = false) ∧ (chS 2 1 0 0).legs = [] := by
  repeat' apply And.intro
  all_goals decide +kernel

def stopLeg : Leg := { leg0 (.running 5) with stopped := true, wpSlot := some (1, 3), carries := 2 }
def cutS (cut : List Nat) (legs : Table Leg) (res : Nat) (late : Bool) : State :=
  { legS [1, 2] with fc := { (epS (setOf 10 true []) true).fc with fixes := [(9, fixOf cut)], epoch := 10, late := late }, legs := legs,
                     ks := { State.reset.ks with resFix := BitVec.ofNat 64 res }, cqs := [(7, { que 2 0 true with base := 0x2000 })], stu := [mapOf] }

theorem test_w_CutAndSeal_cut : (cutS [1, 3] [(3, stopLeg)] 9 false).serves ∧ ((cutS [1, 3] [(3, stopLeg)] 9 false).cl 1).l2 = [] ∧ (cutS [1, 3] [(3, stopLeg)] 9 false).alone
    ∧ (cutS [1, 3] [(3, stopLeg)] 9 false).fc.fixes = [((cutS [1, 3] [(3, stopLeg)] 9 false).fc.sealed.toNat + 1, fixOf [1, 3])]
    ∧ (fixOf [1, 3]).cut.contains 1 = true ∧ (cutS [1, 3] [] 9 false).legs = [] ∧ 1 < 4
    ∧ (cutS [1, 3] [(3, stopLeg)] 9 false).pps = [(4 * 1 + 1, (cutS [1, 3] [(3, stopLeg)] 9 false).pp 5)]
    ∧ ((cutS [1, 3] [(3, stopLeg)] 9 false).pp 5).running = some 3 ∧ ((cutS [1, 3] [(3, stopLeg)] 9 false).pp 5).mode = .leg
    ∧ ((cutS [1, 3] [(3, stopLeg)] 9 false).pp 5).blocked = .none ∧ stopLeg.stopped = true ∧ stopLeg.wpSlot = some (1, 3)
    ∧ (cutS [1, 3] [(3, stopLeg)] 9 false).quiescing 2 = false ∧ (cutS [1, 3] [(3, stopLeg)] 9 false).fc.open' = false
    ∧ (((cutS [1, 3] [(3, stopLeg)] 9 false).pp 5).getCsr csrCARRIES).toNat < 65535 := by
  repeat' apply And.intro
  all_goals decide +kernel

def endLeg : Leg := { leg0 (.closed 9) with resv := some .slot, entry := { ent0 with cq := 7 }, userCode := 5 }

theorem test_w_CutAndSeal_seal : (cutS [] [(3, endLeg)] 9 false).serves ∧ (cutS [] [(3, endLeg)] 9 false).fc.noSeal = false
    ∧ ((cutS [] [(3, endLeg)] 9 false).part 2).holding = [] ∧ (cutS [] [(3, endLeg)] 9 false).parityLive = []
    ∧ ((cutS [] [(3, endLeg)] 9 false).cq 7).exist = true ∧ ((cutS [] [(3, endLeg)] 9 false).cq 7).part = endLeg.entry.part
    ∧ (((cutS [] [(3, endLeg)] 9 false).cq 7).p - ((cutS [] [(3, endLeg)] 9 false).cq 7).c).toNat < 2 ^ ((cutS [] [(3, endLeg)] 9 false).cq 7).sizeLog2 ∧ (cutS [] [(3, endLeg)] 9 false).alone
    ∧ tget? (cutS [] [(3, endLeg)] 9 false).fc.fixes ((cutS [] [(3, endLeg)] 9 false).fc.sealed.toNat + 1) = some (fixOf [])
    ∧ (cutS [] [] 8 true).ks.resFix.toNat < 9 ∧ (cutS [] [] 8 true).ks.protOff = false ∧ (cutS [] [] 8 true).fc.late = true
    ∧ 9 ≤ (cutS [] [(3, endLeg)] 9 false).ks.resFix.toNat ∧ (fixOf []).fixIn = none ∧ (cutS [] [] 9 false).legs = []
    ∧ endLeg.resv = some .slot ∧ endLeg.entry.part < 512 ∧ ((cutS [] [(3, endLeg)] 9 false).cq 7).enable = true ∧ (cutS [] [(3, endLeg)] 9 false).legBusy 3 = false
    ∧ ((cutS [] [(3, endLeg)] 9 false).part 2).linkHeld = []
    ∧ ((((cutS [] [(3, endLeg)] 9 false).sealRecord 9 (fixOf []) false).2.setLeg 3 { endLeg with resv := none }).sttAccess 2 0x2040 needW).1.toOption
        = some 0x40002040
    ∧ region ((((cutS [] [(3, endLeg)] 9 false).sealRecord 9 (fixOf []) false).2.setLeg 3 { endLeg with resv := none }).sttAccess 2 0x2040 needW).2 0x40002040
        ≠ .host := by
  repeat' apply And.intro
  all_goals decide +kernel

def closeS (batches : List Nat) (t : Table Ticket) : State :=
  { quiet base with legs := [(3, { leg0 (.closing 5) with batches := batches, tickets := t, used := 40, usedAtOpen := 10 })] }

/-- A leg that ended in error, and a read out for the close of another leg that closes. -/
def turnS : State :=
  { closeS [] [] with fcClose := some 4, legs := [(3, { leg0 (.closing 5) with status := 1 }), (4, leg0 (.closing 6))] }

theorem test_w_LegCloseAndBudget_turn : turnS.closeTurn 3 = false ∧ turnS.quiet ∧ turnS.leg? 3 = some { leg0 (.closing 5) with status := 1 }
    ∧ (closeS [] []).closeTurn 3 = true ∧ { turnS with fcClose := none }.closeTurn 3 = true ∧ ({ leg0 (.closing 5) with status := 1 }).status ≠ 0
    ∧ ({ leg0 (.closing 5) with status := 1 }).tickets = [] := by
  repeat' apply And.intro
  all_goals decide +kernel

theorem test_w_LegCloseAndBudget_close : (closeS [] []).quiet ∧ (closeS [] []).unitsOn (5 / 4) = true
    ∧ (∃ k ∈ held 1, k.2.held = true ∧ k.2.status = none) ∧ ((closeS [0x50000100] []).leg? 3).map (·.batches) = some [0x50000100]
    ∧ (∀ k ∈ [(0, tick 1 true 0 (some 6))], k.2.held = true → k.2.status.isSome = true) ∧ region (closeS [0x50000100] []) 0x50000100 ≠ .host
    ∧ (closeS [] []).fc.epoch < 2 ^ 64
    ∧ (closeS [] []).fc.chrono.toNat < (closeS [] []).fc.nextTick.toNat := by
  repeat' apply And.intro
  all_goals decide +kernel

theorem test_w_LegCloseAndBudget_budget : (quiet (legS [])).quiet ∧ (quiet (legS [])).ppCan 5 = true ∧ ((quiet (legS [])).pp 5).running = some 3
    ∧ ((quiet (legS [])).pp 5).mode = .leg ∧ ((quiet (legS [])).pp 5).blocked = .none ∧ (quiet (legS [])).leg? 3 = some (leg0 (.running 5)) := by
  repeat' apply And.intro
  all_goals decide +kernel

theorem test_w_ChainFixes : (chS 1 0 5 0).serves ∧ (chS 1 0 5 0).legs = [] ∧ (chS 1 0 5 0).headAlone ∧ (chS 1 0 5 0).fc.epoch ≠ 9 + 1
    ∧ (chS 1 0 5 0).fc.fixes = [(9, fixOf [])] ∧ (chS 1 0 5 0).chain.members.getLsbD 1 = true ∧ (chS 1 0 5 0).fc.sealed.toNat < 9
    ∧ (1 ||| 1#16 <<< 1) &&& 7 ≠ 7 ∧ (5 ||| 1#16 <<< 1) &&& 7 = 7 ∧ (chS 1 0 5 0).chain.address ≠ 1 ∧ (tgetD (chS 1 0 5 0).fc.ready 9 0).getLsbD 1 = false
    ∧ (∀ u, u < 16 → u ≠ 1 → (7#16).getLsbD u = true → (tgetD (chS 1 0 5 0).fc.ready 9 0).getLsbD u = true)
    ∧ tgetD (chS 1 0 5 0).fc.misses 1 0 + 1 < (chS 1 0 5 0).fc.live.lostFixes ∧ (chS 1 0 5 0).fc.downSeen.getLsbD 1 = false
    ∧ (chS 1 0 5 1).fc.live.lostFixes ≤ tgetD (chS 1 0 5 1).fc.misses 1 0 + 1 := by
  repeat' apply And.intro
  all_goals decide +kernel

theorem test_w_ChainFixes_member : (chS 2 1 0 0).memberAlone ∧ (5#16).getLsbD (chS 2 1 0 0).chain.address = false
    ∧ (2#16).getLsbD (chS 2 1 0 0).chain.address = true ∧ 8 ≤ (chS 2 1 0 0).fc.sealed.toNat ∧ (chS 2 1 0 0).fc.sealed.toNat < 9
    ∧ (chS 2 1 0 0).fc.epoch ≠ 9 + 1 ∧ tget? (chS 2 1 0 0).fc.fixes 9 = some (fixOf []) := by
  repeat' apply And.intro
  all_goals decide +kernel

def schS (g : Leg) (ticking : Bool) : State :=
  quiet { base with fc := { base.fc with ticking := ticking }, legs := [(3, g)], schedTick := 123,
                    pps := [(5, { Pp.reset with nextSlot := some 3, csr := [(263, 0x41000000)] })],
                    mem := memOf [(waypointBase 1 3 + 8, [0xBC, 0x0A, 0x40])] }
def delayed (t : Nat) : Leg := { leg0 (.delay 3) with entry := { ent0 with cluster := 63, releaseTime := t } }

/-- Delays that mature at, and one tick after, microsecond 124. -/
theorem test_w_Scheduling_tick : (schS (delayed 124000) true).serves ∧ (schS (delayed 124000) true).parity = [] ∧ (schS (delayed 124000) true).fc.ticking = true
    ∧ (schS (delayed 124000) true).fc.open' = false ∧ (schS (delayed 124000) false).legs = [(3, delayed 124000)] ∧ 63 < 64
    ∧ ((delayed 124000).entry.releaseTime + 999) / 1000 ≤ max ((schS (delayed 124000) false).fc.chrono.toNat / 1000) ((schS (delayed 124000) false).schedTick + 1)
    ∧ max ((schS (delayed 124001) false).fc.chrono.toNat / 1000) ((schS (delayed 124001) false).schedTick + 1)
        < ((delayed 124001).entry.releaseTime + 999) / 1000 := by
  repeat' apply And.intro
  all_goals decide +kernel

def nextLeg (started : Bool) : Leg := { leg0 (.next 5) with started := started, wpSlot := some (1, 3) }

theorem test_w_Scheduling_start : (schS (nextLeg false) true).ppIdle 5 = true ∧ ((schS (nextLeg false) true).cl 1).l2 = [] ∧ ((schS (nextLeg false) true).pp 5).nextSlot = some 3
    ∧ (schS (nextLeg false) true).leg? 3 = some (nextLeg false) ∧ (nextLeg false).charge ≠ 0 ∧ ent0.inl = false ∧ ent0.indesc = 0 ∧ ent0.outdesc = 0
    ∧ (nextLeg true).wpSlot = some (5 / 4, 3) ∧ (∀ j, j < 192 → (schS (nextLeg true) true).bad.contains (waypointBase 1 3 / 64 + j) = false) := by
  repeat' apply And.intro
  all_goals decide +kernel

def xlS (a : Word) (quiesced : Bool) (done : Bool) : State :=
  { parS { part0 with quiesced := quiesced, faultN := 4, shXlat := { Xlat.reset with s2 := a, stt := 0x40002000 } } with xinvDone := done }

theorem test_w_TranslationRegisters : (xlS 0x40001000 true true).frozen = false ∧ (xlS 0x40001000 true true).parity = [] ∧ (0x11 : BitVec 32).getLsbD 6 = false ∧ (0x51 : BitVec 32).getLsbD 6 = true
    ∧ ((xlS 0x40001000 true true).part 2).quiesced = true ∧ (0x51 : BitVec 32).toNat / 4 % 16 = 4 ∧ (0x69 : BitVec 32).toNat / 4 % 16 = 10
    ∧ (xlS 0x40001000 true true).general (ptAddr 0x40001000) = true ∧ (xlS 0x40001000 true true).general (ptAddr 0x40002000) = true
    ∧ (0x4D : BitVec 32).toNat / 4 % 16 = 3 ∧ (0x6D : BitVec 32).toNat / 4 % 16 = 11 ∧ ((xlS 0x40001000 false true).part 2).quiesced = false
    ∧ ((xlS 0x40001000 false true).part 2).xlat.enable = true ∧ (0x2002 : BitVec 32).getLsbD 17 = false ∧ (0x26002 : BitVec 32).getLsbD 17 = true
    ∧ (0x26002 : BitVec 32).toNat / 2048 % 64 = 12 ∧ (0x38002 : BitVec 32).toNat / 2048 % 64 = 48 ∧ (0x25802 : BitVec 32).toNat / 2048 % 64 = 11
    ∧ (0x38802 : BitVec 32).toNat / 2048 % 64 = 49 ∧ (xlS 0 true true).xinvDone = true ∧ (xlS 0 true false).xinvDone = false
    ∧ (0x26402 : BitVec 32).toNat / 512 % 4 = 2 ∧ (0x26602 : BitVec 32).toNat / 512 % 4 = 3 := by
  repeat' apply And.intro
  all_goals decide +kernel

def caS (l2 : Table L2Line) (done drained en : Bool) : State :=
  onCl (pilS []) (fun k => { k with l2 := l2, maintDone := done, drained := drained, l2En := en, fills := [0x50000100 / 64] })

theorem test_w_CacheCommands : ((caS [(7, lineOf true)] true true true).cl 1).flaws = [] ∧ ((caS [(7, lineOf true)] true true true).cl 1).sideBad = [] ∧ (caS [] true true true).unitsOn 1 = true ∧ ((caS [] true true true).cl 1).pipes = []
    ∧ ((caS [] true true true).cl 1).waysOut = [] ∧ Cluster.outside 0x00555555 ≤ 12
    ∧ (∀ i, i < 16 → wayMode 0x00555555 i = .pipe → wayMode 0 i = .pipe ∨ wayMode 0 i = .normal) ∧ 12 < Cluster.outside 0x01555555
    ∧ ((caS [(7, lineOf true)] true true true).cl 1).maintDone = true ∧ ((caS [(7, lineOf true)] true true true).cl 1).drained = true
    ∧ ((caS [(7, lineOf true)] true true true).cl 1).l2 = [(7, lineOf true)] ∧ (lineOf true).data.length = 64
    ∧ wayMode ((caS [(7, lineOf true)] true true true).cl 1).wayCfg (lineOf true).way ≠ .locked ∧ ((caS [] false true true).cl 1).maintDone = false
    ∧ ((caS [] true true true).cl 1).maintWait = none ∧ ((caS [] true true true).cl 1).l2En = true ∧ ((caS [] true false true).cl 1).drained = false
    ∧ (∀ e ∈ ((caS [] true false true).cl 1).l2, e.2.dirty = false) ∧ ((caS [] true true true).cl 1).fills.contains (0x50000100 / 64) = true
    ∧ (caS [] true true true).bad.contains (0x50000100 / 64) = false ∧ ((caS [] true true true).cl 1).side.length < 32 := by
  repeat' apply And.intro
  all_goals decide +kernel

/-! ### Witnesses: memory controllers, ports, drives -/

def reqOf (write : Bool) : MemReq := { id := 6, ch := 1, line := 0x800000, write := write, stamp := 100, cluster := 1, rank := 1, known := false }
def dcS (n : Nat) (k : Dc) : State := { base with dcs := [(n, k)] }
def dcQ (act : Table (List ActEntry)) (threshold : Nat) : Dc := { Dc.reset with queue := [reqOf true], act := act, threshold := threshold }

theorem test_w_MemoryControllers : (dcS 2 (dcQ [] 2)).frozen = false ∧ (reqOf false).known = false ∧ ({ reqOf false with known := true }).known = true
    ∧ (({ bits := 1, devices := 1, symbols := 1 } : MemError).bits ≠ 0 ∧ (2 < 4 → ({ bits := 1, devices := 1, symbols := 1 } : MemError).bits = 1))
    ∧ ({ bits := 2, devices := 2, symbols := 2 } : MemError).bits = 2 ∧ ({ Dc.reset with x4 := true }).x4 = true
    ∧ ({ bits := 8, devices := 1, symbols := 2 } : MemError).devices ≤ 1 ∧ ({ bits := 8, devices := 2, symbols := 4 } : MemError).devices = 2
    ∧ ({ bits := 9, devices := 1, symbols := 1 } : MemError).symbols ≤ 1
    ∧ (2 ≤ ({ bits := 16, devices := 1, symbols := 2 } : MemError).symbols ∧ ({ bits := 16, devices := 1, symbols := 2 } : MemError).devices ≤ 1)
    ∧ ((dcS 2 { dcQ [] 2 with queue := [reqOf false] }).ctrlOf ((reqOf false).line * 64)).1 = 2 ∧ MemError.none.bits = 0 ∧ ((dcS 2 (dcQ [] 2)).dc 2).queue = [reqOf true] ∧ (reqOf true).ch = 1
    ∧ (reqOf false).write = false ∧ (dcS 2 { dcQ [] 2 with queue := [reqOf false] }).ctrlOf ((reqOf false).line * 64) = (dcS 2 (dcQ [] 2)).ctrlOf (0x800000 * 64)
    ∧ (∃ x ∈ [reqOf true], x.rank = 1) ∧ (∀ x ∈ [reqOf true], x.rank ≠ 0) ∧ 0 < tgetD ({ dcQ [] 2 with owed := [(0, 3)] }).owed 0 0
    ∧ 8 ≤ tgetD ({ dcQ [] 2 with owed := [(1, 8)] }).owed 1 0 ∧ (reqOf true).id ∈ [6] ∧ (reqOf true).id ∉ [5]
    ∧ tget? ((dcS 2 (dcQ [] 2)).dc 2).act 3 = none ∧ 2 ≤ ((dcS 2 (dcQ [] 2)).dc 2).threshold
    ∧ tget? ((dcS 2 (dcQ [(3, [{ row := 9, count := 15 }])] 16)).dc 2).act 3 = some [{ row := 9, count := 15 }] ∧ (15 + 1) % 16 = 0
    ∧ ((dcS 2 (dcQ [] 2)).dc 2).targeted < 0xFFFFFFFF ∧ 4 ≤ 4 ∧ tgetD ((dcS 4 { dcQ [] 2 with owed := [(1, 7)] }).dc 4).owed 1 0 < 8
    ∧ ((dcS 4 .reset).dc 4).queue = [] ∧ (dcS 4 .reset).dcOwns ((dcS 4 .reset).ctrlOf (0x50000100 / 64 * 64)).1 (0x50000100 / 64) = true
    ∧ ((dcS 4 .reset).dc 4).corrected < 0xFFFFFFFF ∧ ((dcS 4 .reset).dc 4).uncorrectable < 0xFFFF
    ∧ ({ dcS 4 .reset with bad := [9] } : State).bad.contains 9 = true := by
  repeat' apply And.intro
  all_goals decide +kernel

theorem test_w_MemoryControllers_writeback : ((dcS ((dcS 0 .reset).ctrlOf (0x50000100 / 64 * 64)).1 { Dc.reset with fixups := [0x50000100 / 64, 7] }).ctrlOf
      (0x50000100 / 64 * 64)).1 = ((dcS 0 .reset).ctrlOf (0x50000100 / 64 * 64)).1
    ∧ ({ Dc.reset with fixups := [0x50000100 / 64, 7] } : Dc).fixups = 0x50000100 / 64 :: [7]
    ∧ (∃ x ∈ tput [(0, (700 : Int))] 1 851, 850 < x.2) ∧ (∀ x ∈ tput [(0, (700 : Int))] 1 820, x.2 ≤ 820)
    ∧ (∀ x ∈ tput [(0, (821 : Int))] 1 700, x.2 ≤ 850) ∧ (∃ x ∈ tput [(0, (821 : Int))] 1 700, 820 < x.2) := by
  repeat' apply And.intro
  all_goals decide +kernel

def hpS (up : Bool) : State :=
  { onPp (legS []) (fun p => { p with blocked := .hostLoad, hostAt := some (1, 0x800000000000) }) with
    hps := [(1, { HostPort.reset with lanes := 16, linkUp := up, msixEn := true, unmasked := [1], vc1 := true, timeouts := 0xFFFE })] }

theorem test_w_HostPorts : (hpS true).frozen = false ∧ 3 < 4 ∧ ((hpS true).hp 1).linkUp = true ∧ (hpS true).sqs = [] ∧ (hpS true).admin.fetch = none
    ∧ ((hpS true).pp 5).blocked = .hostLoad ∧ ((hpS true).pp 5).hostReady = none
    ∧ ((hpS true).pp 5).hostAt = some (1, (0x800000000000 : Word).toNat) ∧ (1, (0x800000000000 : Word).toNat) ∉ ((hpS true).pp 5).hostDrop
    ∧ (hpS true).hostWant = [] ∧ ((hpS true).pp 5).outOn 1 = true ∧ ((hpS true).pp 5).outOn 2 = false ∧ (1 ≤ 6 ∧ 6 ≤ 6) ∧ 16 ≤ ((hpS false).hp 1).lanes
    ∧ ¬ 6 < 6 ∧ 6 < 7 ∧ ((hpS false).hp 1).lanes < 32 ∧ (quiet (hpS false)).fc.open' = false ∧ (∀ e ∈ (hpS false).parts, e.2.holding = [])
    ∧ ((hpS false).hp 1).linkUp = false
    ∧ (∀ e ∈ (hpS false).parts, e.2.linkHeld = []) ∧ (∀ e ∈ (hpS false).sqs, e.2.fetch = none) ∧ ((hpS false).hp 1).pba = []
    ∧ hostBase ≤ (0x800000000000 : Word).toNat ∧ (0x800000000000 : Word).toNat + 64 < regBase ∧ ((hpS true).hp 1).timeouts < 0xFFFF := by
  repeat' apply And.intro
  all_goals decide +kernel

/-- The data of an abandoned load of PP 5 are still to come on port 1; the administrative fetch is out on port 0. -/
def dropS : State :=
  { onPp (legS []) (fun p => { p with hostDrop := [(1, 0x800000000000)] }) with
    admin := { adm 9 5 true with fetch := some (fetchOf 0 false 0x800000010280) } }

theorem test_w_HostPorts_others : (1, (0x800000000000 : Word).toNat) ∈ (dropS.pp 5).hostDrop ∧ dropS.hostWant = [] ∧ (dropS.hp 1).linkUp = true
    ∧ 0 = dropS.mgmtPort ∧ dropS.admin.fetch = some (fetchOf 0 false 0x800000010280) ∧ (fetchOf 0 false 0x800000010280).waiting = false
    ∧ (fetchOf 0 false 0x800000010280).dpa = (0x800000010280 : Word).toNat ∧ (dropS.hp 0).timeouts < 0xFFFF ∧ (dropS.hp 0).linkUp = true
    ∧ hostBase ≤ (0x800000010280 : Word).toNat ∧ (0x800000010280 : Word).toNat < regBase := by
  repeat' apply And.intro
  all_goals decide +kernel

/-- A read of unit 66 is out on port 3, and one of another unit on port 1. -/
def askS : State :=
  { hpS true with hps := (3, { HostPort.reset with linkUp := true }) :: (hpS true).hps,
                  hostWant := [{ req := .unit 66, port := 3, pasid := some 33, dpa := 0x800000000000, len := 64 }] }

theorem test_w_HostPorts_units : askS.frozen = false ∧ (askS.hp 3).linkUp = true ∧ (∀ e ∈ askS.cls, ∀ x ∈ e.2.dm, x.2.wait = false)
    ∧ askS.hostWant = [{ req := .unit 66, port := 3, pasid := some 33, dpa := (0x800000000000 : Word).toNat, len := 64 }]
    ∧ askS.sqs = [] ∧ askS.admin.fetch = none ∧ (quiet askS).fc.open' = false := by
  repeat' apply And.intro
  all_goals decide +kernel

def nsOf (blocks : Nat) : NsInfo := { nsid := 4, blocks := blocks, lba := 512, metaBytes := 0 }
def gsOf (enable : Bool) : GrantSet :=
  { nsid := 4, port := 3, part := 2, sizeLog2 := 4, writeOk := true, enable := enable, ring := 0x1000, first := 10, count := 20 }

/-- Drive 3 with a namespace, grant 3 onto its blocks 10 to 29, and request 8 with command 7. -/
def drvS (up : Bool) (live sh : GrantSet) (q : DriveReq) (x : DriveCmd) : State :=
  onCl { parS part0 with drives := [(3, { Drive.reset with linkUp := up, ready := up, ns := [nsOf 30], ioq := 3, depth := 10, xfer := 65536 })],
                         grants := [(3, { Grant.reset with live := live, sh := sh, notified := true, head := 5 })], cmds := [(7, x)], reqs := [(8, q)],
                         nextReq := 10, mem := memOf [] }
    (fun k => { k with pipes := [(2, pipeOf [1, 2, 3])] })

def rqOf (op opn : Nat) (push wait : Bool) : DriveReq :=
  { grant := 3, idx := 5, op := op, part := 2, lba := 4, blocks := 2, buf := 0x2000, result := 0x1200, fua := false, nsid := 4, push := push, pipe := 0x102, tag := 77,
    status := 0, statusLba := 0, sc := 0, bytes := 3, issue := some 55, open' := opn, pushWait := wait }
def cmdX : DriveCmd := { drive := 3, qp := 0, issued := true, win := 0x9000, req := 8, lba := 14, bytes := 4, pages := [(0x40002000, 4)] }
def ctlOf (enable apply : Bool) (size : Nat) : Word :=
  BitVec.ofNat 64 (4 + 3 * 2 ^ 32 + 2 * 2 ^ 37 + size * 2 ^ 46 + 2 ^ 50 + b2n enable * 2 ^ 51 + b2n apply * 2 ^ 52)

theorem test_w_DrivesGrantsAndRequests_drives : (drvS true (gsOf true) (gsOf true) (rqOf 2 2 false false) cmdX).serves ∧ 31 < 32
    ∧ ((drvS false (gsOf true) (gsOf true) (rqOf 2 2 false false) cmdX).drive 3).linkUp = false
    ∧ ((drvS true (gsOf true) (gsOf true) (rqOf 2 2 false false) cmdX).drive 3).linkUp = true
    ∧ (1 ≤ 6 ∧ 6 ≤ 6) ∧ ({ Drive.reset with linkUp := true }).ready = false
    ∧ (drvS true (gsOf true) (gsOf true) (rqOf 2 2 false false) cmdX).inWindow 3 (0x9004 : Word).toNat = false
    ∧ (drvS true (gsOf true) (gsOf true) (rqOf 2 2 false false) cmdX).inWindow 3 (0x9003 : Word).toNat = true
    ∧ (drvS true (gsOf true) (gsOf true) (rqOf 2 2 false false) cmdX).parity = []
    ∧ (∀ e ∈ (drvS true (gsOf true) (gsOf true) (rqOf 2 2 false false) { cmdX with drive := 4 }).cmds, e.2.drive ≠ 3)
    ∧ (drvS true (gsOf true) (gsOf true) (rqOf 2 2 false false) cmdX).cmds = [(7, cmdX)]
    ∧ tget? (drvS true (gsOf true) (gsOf true) (rqOf 2 2 false false) cmdX).reqs cmdX.req = some (rqOf 2 2 false false)
    ∧ (ctlOf true false 4).getLsbD 52 = false ∧ (ctlOf true true 4).getLsbD 52 = true ∧ ((gsOf false).ofCtl (ctlOf false true 4)).enable = false
    ∧ ((gsOf false).ofCtl (ctlOf true true 4)) = gsOf true ∧ ((gsOf false).ofCtl (ctlOf true true 3)).sizeLog2 = 3
    ∧ ((drvS true (gsOf false) (gsOf true) (rqOf 2 2 false false) cmdX).grant 3).live.enable = false
    ∧ ((drvS true (gsOf false) (gsOf true) (rqOf 2 2 false false) cmdX).part 2).exist = true
    ∧ ((drvS true (gsOf false) (gsOf true) (rqOf 2 2 false false) cmdX).drive 3).ns.find? (fun n => n.nsid == 4) = some (nsOf 30)
    ∧ (gsOf true).first.toNat + (gsOf true).count.toNat ≤ (nsOf 30).blocks ∧ ¬ (gsOf true).first.toNat + (gsOf true).count.toNat ≤ (nsOf 29).blocks
    ∧ ((drvS true (gsOf false) (gsOf true) (rqOf 2 2 false false) cmdX).sttXlate 2 0x1000 needRW).1.toOption = some 0x40001000 := by
  repeat' apply And.intro
  all_goals decide +kernel

/-- A write of the grant's last two blocks, from 0x2C00 to the end of its page. -/
def ringEnt : List Byte :=
  [2, 0, 0, 0, 2, 0, 0, 0, 18, 0, 0, 0, 0, 0, 0, 0, 0, 0x2C, 0, 0, 0, 0, 0, 0, 0, 0x30] ++ List.replicate 38 0

/-- Grant 3's ring in memory, with `ringEnt` as its next entry when `fresh`; or with 255 requests open. -/
def ringS (fresh : Bool) (reqs : Nat) : State :=
  { drvS true (gsOf true) (gsOf true) (rqOf 2 2 false false) cmdX with
    mem := memOf [(0x400011C0, if fresh then ringEnt.take 60 ++ [5] else [])], reqs := (List.range reqs).map (fun i => (i + 20, rqOf 2 2 false false)) }
/-- Once a pass has begun, and the state after the read of the entry at HEAD. -/
def ringU (fresh : Bool) (reqs : Nat) : State := (ringS fresh reqs).setGrant 3 { (ringS fresh reqs).grant 3 with notified := false }
def ringR (fresh : Bool) (reqs : Nat) : Option (List Byte) × State :=
  ((ringU fresh reqs).npDpa 2 (0x1000 + 128 + 64 * (5 % 2 ^ 4)) needR).2.npEntry 2 0x400011C0
/-- The write of HEAD, and the request. -/
def ringH : Option Nat × State :=
  ((ringR true 255).2.setGrant 3 { (ringS true 255).grant 3 with notified := false, head := 6 }).npDpa 2 (0x1000 + 64) needW

theorem test_w_DrivesGrantsAndRequests_pass : ringS true 255 = (ringS true 255).asking ∧ ((ringS true 255).part 2).halted = false
    ∧ (ringS true 255).parityLive = [] ∧ (∀ e ∈ (ringS true 255).cmds, e.2.issued = true) ∧ ((ringS true 255).grant 3).notified = true
    ∧ ((ringS true 255).grant 3).live.enable = true ∧ ((ringS true 255).part 2).quenched = false
    ∧ ((ringS true 255).part 2).quenchGo = false ∧ ((ringS true 255).part 2).quiesced = false ∧ ((ringS true 255).part 2).quiesce = none
    ∧ (ringU true 255).grantOpen 3 < 256 ∧ 256 ≤ (ringU true 256).grantOpen 3
    ∧ ((ringU true 255).npDpa 2 (0x1000 + 128 + 64 * (5 % 2 ^ 4)) needR).1 = some 0x400011C0
    ∧ (ringR true 255).1.map (fun b => fld b 60 4) = some 5 ∧ (ringR false 2).1.map (fun b => fld b 60 4) = some 0 ∧ ringH.1 = some 0x40001040
    ∧ 256 ≤ ((ringH.2.npWrite 2 0x40001040 (leBytes 4 6)).npRequest 3 5 ((ringR true 255).1.getD [])).grantOpen 3 := by
  repeat' apply And.intro
  all_goals decide +kernel

theorem test_w_DrivesGrantsAndRequests_new : (drvS true (gsOf true) (gsOf true) (rqOf 2 2 false false) cmdX).frozen = false
    ∧ ((drvS true (gsOf true) (gsOf true) (rqOf 2 2 false false) cmdX).drive 3).ready = true ∧ (nsOf 30).lba = 512 ∧ fld ringEnt 0 1 = 2
    ∧ npEntryOk ringEnt 512 = true ∧ 1 ≤ fld ringEnt 4 4 ∧ fld ringEnt 4 4 * 512 ≤ 65536 ∧ fld ringEnt 16 8 % 4096 + fld ringEnt 4 4 * 512 ≤ 4096
    ∧ fld ringEnt 8 8 + fld ringEnt 4 4 ≤ (gsOf true).count.toNat ∧ (gsOf true).writeOk = true
    ∧ ((drvS true (gsOf true) (gsOf true) (rqOf 2 2 false false) cmdX).npDpa 2 (fld ringEnt 16 8) needR).1 = some 0x40002C00 := by
  repeat' apply And.intro
  all_goals decide +kernel

/-- As the request of `ringEnt` is made: grant 3's queue pair is pair 0 of 3, where one command is out of at most nine. -/
def newQ (r : Nat) : State := drvS true (gsOf true) (gsOf true) { rqOf r 2 false false with buf := 0x2C00 } cmdX

/-- The same buffer in the host window. -/
def newHost : State :=
  { newQ 2 with stu := [{ mapOf with dpa := 0x800040000000 }], ioTlb := [] }

theorem test_w_DrivesGrantsAndRequests_issue : (newQ 2).npStops 2 = false ∧ (newQ 2).npRoom 3 (3 % ((newQ 2).drive 3).ioq) = true
    ∧ (∀ e ∈ (newQ 2).cmds, e.2.issued = true) ∧ region (newQ 2) 0x40002C00 ≠ .host ∧ (newQ 2).bad = []
    ∧ (newHost.npDpa 2 (fld ringEnt 16 8) needR).1 = some 0x800040002C00 ∧ region newHost 0x800040002C00 = .host
    ∧ (newHost.hp (newHost.part 2).hostPort).linkUp = true := by
  repeat' apply And.intro
  all_goals decide +kernel

theorem test_w_DrivesGrantsAndRequests_commands : cmdX.issued = true ∧ tget? (drvS true (gsOf true) (gsOf true) (rqOf 1 2 false false) cmdX).cmds 7 = some cmdX
    ∧ tget? (drvS true (gsOf true) (gsOf true) (rqOf 1 2 false false) cmdX).reqs cmdX.req = some (rqOf 1 2 false false) ∧ 2 ≤ (rqOf 1 2 false false).open'
    ∧ (rqOf 1 2 false false).status = 0 ∧ (rqOf 1 2 false false).op = 1 ∧ (1 : BitVec 16).toNat < 2 ∧ 2 ≤ (2 : BitVec 16).toNat
    ∧ cmdX.pages = [(0x40002000, cmdX.bytes)] ∧ region (drvS true (gsOf true) (gsOf true) (rqOf 1 2 false false) cmdX) 0x40002000 ≠ .host
    ∧ (rqOf 2 1 false false).open' = 1 ∧ (rqOf 2 1 false false).result.toNat % 32 = 0
    ∧ ((State.npDpa { drvS true (gsOf true) (gsOf true) (rqOf 2 1 false false) cmdX with
          cmds := [], reqs := [(8, (rqOf 2 1 false false).after 0 0 4 14)] } 2 0x1200 needW).1 = some 0x40001200)
    ∧ (drvS true (gsOf true) (gsOf true) (rqOf 2 1 true true) cmdX).pipeOf 0x102 2 = some (1, 2, pipeOf [1, 2, 3]) ∧ (rqOf 2 1 true true).pushWait = true
    ∧ ((drvS true (gsOf true) (gsOf true) (rqOf 2 1 true true) cmdX).cl 1).dm = [] ∧ (pipeOf [1, 2, 3]).entries.length < 2 ^ (pipeOf [1, 2, 3]).depthLog2
    ∧ 2 ^ (pipeOf [1, 2, 3, 4]).depthLog2 ≤ (pipeOf [1, 2, 3, 4]).entries.length := by
  repeat' apply And.intro
  all_goals decide +kernel

/-! ### Witnesses: the chain -/

def enS (mode status : Nat) (links : Table Link) (ticking : Bool) : State :=
  { epS (setOf 10 true []) ticking with chain := { State.reset.chain with mode := mode, status := status, links := links } }
def upL : Link := { Link.reset with up := true }

theorem test_w_Enumeration : (enS 1 0 [(0, upL)] false).serves ∧ (2 ≤ 2 ∧ 1 < 2) ∧ (enS 1 3 [] false).chain.status ≠ 2 ∧ (enS 1 3 [] false).chain.mode = 1 ∧ (enS 1 0 [(0, upL)] false).chain.mode = 1 ∧ (enS 1 0 [(0, upL)] false).fc.ticking = false
    ∧ ((enS 1 0 [(0, upL)] false).link 0).up = true ∧ (enS 1 0 [] false).chain.links = [] ∧ (enS 1 0 [] true).fc.ticking = true
    ∧ (enS 1 2 [] false).chain.status = 2 ∧ (enS 2 1 [] false).chain.status = 1 ∧ 15 < 16 ∧ 16 ≤ 16
    ∧ (enS 2 3 [(4, upL)] false).chain.links = [(4, { Link.reset with up := true })] := by
  repeat' apply And.intro
  all_goals decide +kernel

/-- A member of a chain; `noFix` ticks have passed without a FIX. -/
def memS (ticking hold : Bool) (noFix : Nat) : State :=
  { chS 2 1 0 0 with fc := { (chS 2 1 0 0).fc with ticking := ticking, tickHeld := hold, noFix := noFix, lostFixes := 3 },
                     parts := [(2, { part0 with inboxes := [(1, { base := 0x1000, bytes := 128, fill := 56, records := 1 })] })] }

theorem test_w_ChainMessages : (memS true true 0).serves ∧ (memS true true 0).fc.noSeal = false ∧ (memS true true 0).parityLive = []
    ∧ (memS true true 0).chain.fresh = true ∧ ({ (memS false true 0).chain with fresh := false }).fresh = false
    ∧ (memS false true 0).fc.chrono.toNat < ((200000 : Word) + BitVec.ofNat 64 ((memS false true 0).link 4).latency).toNat ∧ (memS true true 0).legs = [] ∧ (memS true true 0).memberAlone
    ∧ (5#16).getLsbD (memS true true 0).chain.address = false ∧ (2#16).getLsbD (memS true true 0).chain.address = true
    ∧ (memS false true 0).fc.ticking = false ∧ (memS true true 0).fc.epoch = 11 ∧ (memS true false 0).fc.tickHeld = false
    ∧ (∀ x ∈ (memS true false 0).fc.fixes, x.2.last = false) ∧ (memS true false 0).fc.tickEarly = none ∧ (memS true true 0).fc.tickHeld = true
    ∧ (memS true true 4).fc.lostFixes + 1 ≤ (memS true true 4).fc.noFix ∧ (memS true true 3).fc.noFix < (memS true true 3).fc.lostFixes + 1
    ∧ (memS true true 0).chain.members.getLsbD 2 = true ∧ ((memS true true 0).part 2).exist = true ∧ ((memS true true 0).inbox 2 0).bytes = 0
    ∧ ((memS true true 0).inbox 2 1).bytes ≠ 0 ∧ (memS true true 0).chain.refused.contains (2, 5) = false
    ∧ 72 + ((memS true true 0).inbox 2 1).fill ≤ ((memS true true 0).inbox 2 1).bytes
    ∧ ((memS true true 0).inboxWrite 2 (chunksOf (0x1000 + 64 + 56) 8) (List.replicate 8 3)).1 = true
    ∧ ((((memS true true 0).inboxWrite 2 (chunksOf (0x1000 + 64 + 56) 8) (List.replicate 8 3)).2.setInbox 2 1
          { (memS true true 0).inbox 2 1 with fill := 64, records := 2 }).inboxHeader 2
          { (memS true true 0).inbox 2 1 with fill := 64, records := 2 }).1 = true
    ∧ (memS true true 0).chain.shuffles = [] ∧ (chS 1 0 0 0).headAlone := by
  repeat' apply And.intro
  all_goals decide +kernel

def shufS : State :=
  { memS true true 0 with chain := { (memS true true 0).chain with shuffles := [{ cluster := 1, stream := 5, unit := 2, first := 3, count := 1 }] } }

theorem test_w_ChainMessages_shuffle : shufS.serves ∧ shufS.legs = [] ∧ shufS.memberAlone
    ∧ shufS.chain.shuffles = [{ cluster := 1, stream := 5, unit := 2, first := 3, count := 1 }] := by
  repeat' apply And.intro
  all_goals decide +kernel

def lnkS (k : Link) : State := { base with chain := { State.reset.chain with mode := 1, status := 3, links := [(1, k)], replayMax := 3 } }
/-- A flit of the peer whose first 16 bytes are `a`, the rest zero. -/
def flitOf (a : List Byte) : List Byte := a ++ List.replicate 240 0
/-- The header of a PACKET, IDLE or NAK with SEQ 0 and ACK 0, and eight bytes of payload after which the CRC is zero. -/
def hPacket : List Byte := [1, 0, 0, 0, 0, 0, 0, 0, 0x6E, 0x4D, 0x3E, 0x59, 0x35, 0x61, 0xEE, 0x88]
def hIdle : List Byte := List.replicate 16 0
def hNak : List Byte := [2, 0, 0, 0, 0, 0, 0, 0, 0xDC, 0x9A, 0x7C, 0xB2, 0x6A, 0xC3, 0xDD, 0x10]
def sent : TxFlit := { first := true, last := true, cls := 1, payload := List.replicate 240 9 }

theorem crc64_zeros (n : Nat) : (List.replicate n (0 : Byte)).foldl crc64Byte 0 = 0 := by
  induction n with
  | zero => rfl
  | succ n ih => rw [List.replicate_succ, List.foldl_cons, show crc64Byte 0 0 = 0 by decide]; exact ih

/-- The checks of a flit that do not go through the CRC. -/
def flitPlain (a : List Byte) : Bool :=
  let h := fld (flitOf a) 0 8
  (flitOf a).length == 256 && fld (flitOf a) 248 8 == 0 && decide (bits h 3 0 ≤ 6) && !(bits h 3 0 == 1 && bits h 7 6 == 3)

theorem flitOk_flitOf (a : List Byte) (hc : a.foldl crc64Byte 0 = 0) (ht : (flitOf a).take 248 = a ++ List.replicate 232 0)
    (hp : flitPlain a = true) : flitOk (flitOf a) = true := by
  have e : crc64 ((flitOf a).take 248) = 0 := by rw [ht]; simp only [crc64, List.foldl_append, hc, crc64_zeros]
  simp only [flitPlain, Bool.and_eq_true, beq_iff_eq, decide_eq_true_eq] at hp
  simp only [flitOk, e, hp.1.1.1, hp.1.1.2, hp.1.2, hp.2]; rfl

theorem test_flitOk : flitOk (flitOf hPacket) = true ∧ flitOk (flitOf hIdle) = true ∧ flitOk (flitOf hNak) = true :=
  ⟨flitOk_flitOf _ (by decide +kernel) (by decide +kernel) (by decide +kernel),
   flitOk_flitOf _ (by decide +kernel) (by decide +kernel) (by decide +kernel),
   flitOk_flitOf _ (by decide +kernel) (by decide +kernel) (by decide +kernel)⟩

theorem test_w_ChainLinks : (lnkS .reset).frozen = false ∧ 7 < 8 ∧ ((lnkS .reset).link 1).up = false ∧ (lnkS .reset).chain.mode ≠ 0
    ∧ (lnkS .reset).chain.status ≠ 5 ∧ ((lnkS .reset).link 1).unacked = [] ∧ ((lnkS .reset).link 1).txQ = [] ∧ ((lnkS upL).link 1).up = true
    ∧ ((lnkS upL).link 1).owed = [0, 0, 0] ∧ flitOk [] = false ∧ fld (flitOf hPacket) 0 8 % 16 = 1
    ∧ fld (flitOf hPacket) 0 8 / 256 % 4096 ≠ ((lnkS { upL with rxSeq := 5 }).link 1).rxSeq
    ∧ fld (flitOf hPacket) 0 8 / 256 % 4096 = ((lnkS upL).link 1).rxSeq ∧ fld (flitOf hPacket) 0 8 / 32 % 2 = 0
    ∧ ((lnkS upL).link 1).rx = [] ∧ ((lnkS upL).link 1).rxHold = [] ∧ ((lnkS { upL with unacked := [(0, sent)] }).link 1).unacked = [(0, sent)]
    ∧ ((lnkS { upL with unacked := [(4095, sent)] }).link 1).unacked = [(4095, sent)]
    ∧ fld (flitOf hIdle) 0 8 % 16 = 0 ∧ fld (flitOf hIdle) 0 8 / 2 ^ 20 % 4096 = 0 ∧ fld (flitOf hNak) 0 8 % 16 = 2
    ∧ fld (flitOf hNak) 0 8 / 2 ^ 20 % 4096 ≠ 4095 ∧ ((lnkS upL).link 1).replays < 0xFFFFFFFF := by
  repeat' apply And.intro
  all_goals decide +kernel

theorem test_w_ChainLinks_training : (lnkS { upL with noProgress := 3 }).chain.replayMax ≤ ((lnkS { upL with noProgress := 3 }).link 1).noProgress
    ∧ ((lnkS { upL with noProgress := 2 }).link 1).noProgress < (lnkS { upL with noProgress := 2 }).chain.replayMax
    ∧ ((lnkS upL).link 1).retrains < 0xFFFF ∧ ((lnkS { upL with probes := 14 }).link 1).probes < 15 ∧ ((lnkS { upL with probes := 15 }).link 1).probes = 15
    ∧ ((lnkS { Link.reset with training := true }).link 1).training = true
    ∧ (∀ m, m < 8 → m ≠ 1 → ((lnkS { Link.reset with training := true }).link m).up = false
      ∧ ((lnkS { Link.reset with training := true }).link m).training = false) := by
  repeat' apply And.intro
  all_goals decide +kernel

/-! ### Witnesses: register space -/

def latOf (tag : Option Nat) : List Latch := [{ who := .hostPort 0, readTag := tag, readHi := 0xABCD, writeTag := tag, writeHi := 0x12345678 }]
def regS (tag : Option Nat) (waits : List Stall) : State := { base with latches := latOf tag, stalls := waits }
def waitOf (write : Bool) : Stall :=
  { who := .hostPort 0, offset := 0x10000, width := 32, write := write, value := 5, timed := true, made := false, token := none }

theorem test_w_RegisterAccesses : ((regS none []).hp (regS none []).mgmtPort).linkUp = true ∧ (regS none []).noAccess = false ∧ (regS none []).pm.frozen = false ∧ (regS none []).stalls = [] ∧ (regS none []).parity = []
    ∧ (regS none []).pm.bootDone = true ∧ ((regS (some 0) []).latch (.hostPort 0)).readTag = some 0 ∧ (regS (some 0) []).mgmtPort = 0
    ∧ ((regS none []).latch (.hostPort 0)).readTag ≠ some 0 ∧ ((regS (some 0x4080E8) []).latch (.hostPort 0)).writeTag = some 0x4080E8
    ∧ 10 ≤ 0x10A % 32 ∧ 0x10A % 32 ≤ 24 ∧ 0x119 % 32 = 25 ∧ 10 ≤ 0x118 % 32 ∧ 0x118 % 32 ≤ 24 ∧ 0x109 % 32 < 10
    ∧ 0x10002 % (32 / 8) ≠ 0 ∧ 0x10004 % (64 / 8) ≠ 0 ∧ 0xB0000 % 4 = 0 ∧ 0x500008 + 0x20 * 8191 < 0x10000000
    ∧ ({ regS none [] with pm := Pm.reset }).pm.bootDone = false ∧ ({ regS none [] with pm := Pm.reset }).noAccess = false
    ∧ (regS none [waitOf true]).stalls = [waitOf true] ∧ (regS none [waitOf false]).stalls = [waitOf false] ∧ (waitOf true).write = true
    ∧ (waitOf true).who = .hostPort 0 ∧ (waitOf false).write = false ∧ (waitOf false).timed = true := by
  repeat' apply And.intro
  all_goals decide +kernel

def relS (done : Bool) (status : Nat) : State :=
  { base with chain := { State.reset.chain with mode := 1, status := status, members := 3, relayDone := done, token := 0x77 } }

theorem test_w_RelayAccesses : (relS true 3).frozen = false ∧ (relS true 3).noAccess = false ∧ (relS true 3).stalls = [] ∧ 1 ≠ (relS true 3).chain.address ∧ (0x20#32).getLsbD 6 = false ∧ (0x41#32).getLsbD 6 = true
    ∧ (relS false 3).chain.relayDone = false ∧ (relS true 0).chain.status ≠ 3 ∧ (relS true 3).chain.members.getLsbD ((0x42#32).toNat % 16) = false
    ∧ (relS true 3).chain.members.getLsbD ((0x41#32).toNat % 16) = true ∧ (0x41#32).toNat % 16 ≠ (relS true 3).chain.address
    ∧ 0x40000 < 2 ^ 32 ∧ 0x4FFFF < 0x50000 ∧ (relS true 3).regsQuiet ∧ (relS false 3).chain.token = 0x77 ∧ (relS true 3).chain.relayDone = true := by
  repeat' apply And.intro
  all_goals decide +kernel

/-! ### Witnesses: power, reset and boot -/

def hdrOf (seq : Word) : SlotHdr :=
  let h : SlotHdr := { cause := 1, seq := seq, lastFix := 3, saveUs := 4, poison := 0, crc := 6, unit := 0, units := 1, hdrCrc := 0 }
  { h with hdrCrc := crc32c (hdrBytes h) }
def slotOf (seq : Word) : KsSlot := { KsSlot.reset with programmed := true, hdr := some (hdrOf seq), dataCrc := 6 }

def pwrS (cfg : Word) (pm : Pm) : State :=
  { base with regs := [(0x90000, cfg)], pm := pm, ks := { Ks.reset with slot0 := slotOf 5, armed := true },
              admin := { Admin.reset with failStopped := false } }
def pmOn : Pm := { Pm.reset with bootDone := true, stage := 4 }
/-- The sense on, the throttle below 900 mV, PFAIL below 800 mV. -/
def cfgOn : Word := 900 + 800 * 1024 + 5 * 2 ^ 20 + 2 ^ 25

theorem test_w_PowerEvents : (pwrS cfgOn pmOn).frozen = false ∧ (pwrS cfgOn { pmOn with bootDone := false }).pm.bootDone = false ∧ (pwrS cfgOn pmOn).pm.bootDone = true ∧ (pwrS cfgOn pmOn).ks.current ≤ 1
    ∧ decide ((pwrS cfgOn pmOn).rawReg 0x90000 0x2ADC398#64 / 2 ^ 25 % 2 = 1) = true
    ∧ (pwrS cfgOn pmOn).rawReg 0x90000 0x2ADC398#64 % 1024 = 900 ∧ min 899 1023 < 900 ∧ 900 ≤ min 900 1023 ∧ 900 + 10 ≤ min 910 1023
    ∧ (pwrS cfgOn pmOn).pm.throttled = false ∧ (pwrS cfgOn { pmOn with throttled := true }).pm.throttled = true
    ∧ decide ((pwrS 0x5000 pmOn).rawReg 0x90000 0x2ADC398#64 / 2 ^ 25 % 2 = 1) = false
    ∧ (pwrS cfgOn pmOn).rawReg 0x90000 0x2ADC398#64 / 1024 % 1024 = 800 ∧ min 799 1023 < 800 ∧ 800 ≤ min 800 1023
    ∧ (pwrS cfgOn pmOn).pm.pfail = false ∧ (pwrS cfgOn pmOn).sealReady = none ∧ (pwrS cfgOn pmOn).inChain = false
    ∧ (∀ e ∈ (pwrS cfgOn pmOn).pps, e.2.dbg = .no) ∧ (pwrS cfgOn { pmOn with pfail := true }).pm.pfail = true
    ∧ (pwrS cfgOn pmOn).ks.protOff = false ∧ (pwrS cfgOn pmOn).ks.armed = true ∧ (pwrS cfgOn pmOn).pm.coresDown = []
    ∧ (pwrS cfgOn pmOn).admin.failStopped = false ∧ (pwrS cfgOn pmOn).pm.refLost = false := by
  repeat' apply And.intro
  all_goals decide +kernel

/-- The engine as PFAIL left it (`pf`), with a save under way and a reset held, if any. -/
def rstS (p : Pm) : State := pwrS cfgOn { p with minSvn := 4, hupReady := true }

theorem test_w_Resets : (rstS pmOn).frozen = false ∧ (rstS pmOn).pm.saving = false ∧ (rstS pmOn).ks.erasing = false ∧ (rstS { pmOn with inReset := true }).pm.pfail = false ∧ (rstS pmOn).pm.pfail = false ∧ (rstS pmOn).sealReady = none
    ∧ (rstS pmOn).pm.saveDone = false ∧ (0xD501#32).getLsbD 0 = true ∧ (0xD501#32).toNat / 256 % 256 = 0xD5 ∧ (rstS pmOn).noAccess = false
    ∧ (0xD401#32).getLsbD 0 = true ∧ (0xD401#32).toNat / 256 % 256 ≠ 0xD5 ∧ (0xD500#32).getLsbD 0 = false
    ∧ (rstS { pmOn with inReset := true }).pm.inReset = true ∧ (rstS { pmOn with pfail := true, saving := true }).pm.inReset = false
    ∧ (rstS { pmOn with pfail := true, saving := true }).pm.pfail = true ∧ (rstS { pmOn with pfail := true, saving := true }).pm.saveDone = false
    ∧ (rstS { pmOn with pfail := true, saving := true }).pm.resetWait = none
    ∧ (rstS { pmOn with pfail := true, saving := true, resetWait := some 1 }).pm.resetWait = some 1
    ∧ (rstS { pmOn with pfail := true, saving := true, resetWait := some 1 }).pm.saving = true := by
  repeat' apply And.intro
  all_goals decide +kernel

def strapsOf (hpcfg : BitVec 8) (port : Nat) (a b : Option Nat) (hbm : Bool) : BootIn :=
  { hpcfg := hpcfg, mgmtPort := port, chainMode := 2, smbAddr := 0x33, svnA := a, svnB := b, commitSvn := true, hbmOk := hbm,
    hbmRepaired := [1], ddr := [], directed := [], sparePct := 50, ksBad := [], hupReady := true }
def lanesOf (b : BootIn) : List Nat :=
  (List.range 4).flatMap (fun g => match b.hpcfg.toNat / 4 ^ g % 4 with | 1 => [16] | 2 => [8, 8] | _ => [])

theorem test_w_BootAndPpReset : (rstS pmOn).pm.frozen = false ∧ (rstS pmOn).pm.stage ≠ 0 ∧ (rstS Pm.reset).pm.stage = 0 ∧ (rstS Pm.reset).pm.bootDone = false
    ∧ (rstS Pm.reset).pm.minSvn = 4 ∧ lanesOf (strapsOf 0x06 3 (some 5) none true) = [8, 8, 16] ∧ ¬ (3 < 3) ∧ 2 < 3
    ∧ (strapsOf 0x06 2 (some 4) (some 3) true).svnA = some 4 ∧ (4 ≤ 4 ∧ ¬ (4 ≤ 3)) ∧ (strapsOf 0x06 2 (some 3) none true).svnB = none
    ∧ (∀ y, (strapsOf 0x06 2 (some 4) (some 3) true).svnB = some y → y ≤ 4) ∧ (strapsOf 0x06 2 (some 4) none false).hbmOk = false
    ∧ (rstS { Pm.reset with stage := 3 }).pm.stage = 3 ∧ (rstS { Pm.reset with stage := 3 }).pm.inReset = false
    ∧ (rstS { Pm.reset with stage := 3 }).chain.mode ≠ 1 ∧ (rstS { Pm.reset with stage := 3 }).stalls = []
    ∧ (rstS { Pm.reset with stage := 3 }).ks.protOff = false ∧ (rstS { Pm.reset with stage := 3 }).ks.logged = none ∧ ((rstS pmOn).pp 5).running = none
    ∧ ({ rstS Pm.reset with ks := Ks.reset }).keepValid = false ∧ Ks.reset.slot0.valid = false ∧ Ks.reset.slot1.valid = false := by
  refine ⟨?_, ?_, ?_, ?_, ?_, ?_, ?_, ?_, ?_, ?_, ?_, ?_, ?_, ?_, ?_, ?_, ?_, ?_, ?_, ?_, ?_, ?_, ?_⟩
  case refine_12 => intro y h; cases h; decide
  all_goals decide +kernel

theorem test_w_BootAndPpReset_stacks : (strapsOf 0x06 2 (some 4) none true).hbmOk = true ∧ (∀ k ∈ (strapsOf 0x06 2 (some 4) none true).hbmRepaired, k ≤ 64)
    ∧ ¬ (∀ k ∈ ({ strapsOf 0x06 2 (some 4) none true with hbmRepaired := [65] }).hbmRepaired, k ≤ 64)
    ∧ ((slotOf 5).asRead true).valid = false ∧ ((slotOf 5).asRead false).valid = true
    ∧ (rstS { Pm.reset with stage := 3, throttled := true }).pm.throttled = true ∧ (rstS { Pm.reset with stage := 3 }).pm.throttled = false := by
  repeat' apply And.intro
  all_goals decide +kernel

/-- The keep region of a unit that was saved: its header is valid, its fix log empty. -/
def keptS : State := { rstS Pm.reset with mem := memOf [(0, keepHdr Ks.reset)] }

theorem test_w_BootAndPpReset_kept : keptS.keepValid = true ∧ chainsBack keptS.fixRecs = true ∧ keptS.pm.stage = 0 ∧ keptS.pm.bootDone = false := by
  repeat' apply And.intro
  all_goals decide +kernel

theorem test_w_BootAndPpReset_done : ({ Ks.reset with logged := some (5, 6) }).logged = some (5, 6)
    ∧ ({ Ks.reset with outcome := 1 }).outcome = 1 ∧ ({ Ks.reset with outcome := 1 }).slotNo = 0 := by
  repeat' apply And.intro
  all_goals decide +kernel

/-! ### Witnesses: management and debug -/

def errOf (n : Nat) : ErrEntry := { code := n, severity := 2, restored := false, inst := 5, part := 7, count := 9, detail := 0x123, first := 4, last := 8 }
def mgtS : State :=
  { base with pm := { pmOn with temps := [1, -2, 300, 400, 500, 600, 700], tripped := true },
              err := { slots := [(4094, errOf 1), (4095, errOf 2), (0, errOf 3), (1, errOf 4)], newest := 1, writes := 4 } }

theorem test_w_Management : mgtS.noAccess = false ∧ (5#8 ≠ 0x00 ∧ 5#8 ≠ 0x7E ∧ 5#8 ≠ 0xFF) ∧ mgtS.pm.temps.length = 7
    ∧ [5#8, 0#8].length = 2 ∧ (∀ k, k < 4 → (tget? mgtS.err.slots ((leNat [5#8, 0#8] + k) % 4096)) = none)
    ∧ (List.range 4).map (fun k => tget? mgtS.err.slots ((leNat [0xFE#8, 0x0F#8] + k) % 4096)) = [errOf 1, errOf 2, errOf 3, errOf 4].map some
    ∧ mgtS.pm.pfail = false ∧ mgtS.sealReady = none ∧ mgtS.pm.tripped = true ∧ base.pm.tripped = false ∧ [1#8].length ≠ 2 := by
  repeat' apply And.intro
  all_goals decide +kernel

def dbgS (d : Dbg) : State := { base with dbg := d, pm := { pmOn with resetPin := true } }

theorem leBytes_leNat (l : List Byte) : leBytes l.length (leNat l) = l := by
  induction l with
  | nil => rfl
  | cons b t ih =>
    have hb := b.isLt
    have h : (b.toNat + 256 * leNat t) / 256 = leNat t := by omega
    have h2 : BitVec.ofNat 8 (b.toNat + 256 * leNat t) = b := by apply BitVec.eq_of_toNat_eq; simp only [BitVec.toNat_ofNat]; omega
    simp only [leNat, List.length_cons, leBytes, h, h2, ih]

theorem leNat_lt (l : List Byte) : leNat l < 256 ^ l.length := by
  induction l with
  | nil => decide
  | cons b t ih =>
    have hb := b.isLt
    simp only [leNat, List.length_cons, Nat.pow_succ]; omega

theorem leBytes_length (n v : Nat) : (leBytes n v).length = n := by
  induction n generalizing v with
  | zero => rfl
  | succ n ih => simp only [leBytes, List.length_cons, ih]

theorem sha256_length (m : List Byte) : (sha256 m).length = 32 := by
  simp only [sha256, Sha.bytes, Sha.words, beBytes, List.map_cons, List.map_nil, List.flatten_cons, List.flatten_nil, List.length_append, List.length_reverse,
    leBytes_length, List.length_nil]

/-- The response that opens scope FULL for a nonce of 5. -/
def macOf : List Byte := (hmacSha256 (leBytes 32 Config.unlockKey.toNat) (leBytes 32 (5 : BitVec 256).toNat ++ leBytes 8 Config.serial.toNat ++ [2])).take 16
def secretOf : BitVec 128 := BitVec.ofNat 128 (leNat macOf)

theorem take16_length (l : List Byte) (h : l.length = 32) : (l.take 16).length = 16 := by rw [List.length_take, h]; rfl

theorem macOf_length : macOf.length = 16 := take16_length _ (sha256_length _)

theorem leBytes_ofNat (l : List Byte) (hl : l.length = 16) : leBytes 16 (BitVec.ofNat 128 (leNat l)).toNat = l := by
  have h := leNat_lt l
  have e := leBytes_leNat l
  rw [hl] at h e
  rw [BitVec.toNat_ofNat, Nat.mod_eq_of_lt (by omega), e]

theorem leBytes_inj (n : Nat) : ∀ a b, leBytes n a = leBytes n b → a % 256 ^ n = b % 256 ^ n := by
  induction n with
  | zero => intro a b _; omega
  | succ n ih =>
    intro a b h
    simp only [leBytes, List.cons.injEq] at h
    have h1 := congrArg BitVec.toNat h.1
    simp only [BitVec.toNat_ofNat] at h1
    have h2 := ih _ _ h.2
    rw [Nat.pow_succ, Nat.mul_comm, Nat.mod_mul, Nat.mod_mul, h1, h2]

theorem leBytes_ne (x y : BitVec 128) (h : x ≠ y) : leBytes 16 x.toNat ≠ leBytes 16 y.toNat := by
  intro e
  have h2 := leBytes_inj 16 _ _ e
  have hx := x.isLt
  have hy := y.isLt
  rw [Nat.mod_eq_of_lt (by omega), Nat.mod_eq_of_lt (by omega)] at h2
  exact h (BitVec.eq_of_toNat_eq h2)

theorem succ_ne (x : BitVec 128) : x + 1 ≠ x := by
  intro h; have h2 := congrArg BitVec.toNat h; have h1 : (1 : BitVec 128).toNat = 1 := rfl; rw [BitVec.toNat_add, h1] at h2; omega

theorem test_w_DebugPort_response : leBytes 16 secretOf.toNat = macOf := leBytes_ofNat _ macOf_length

theorem test_w_DebugPort_wrongResponse : leBytes 16 (secretOf + 1).toNat ≠ macOf :=
  fun h => leBytes_ne _ _ (succ_ne secretOf) (h.trans test_w_DebugPort_response.symm)

/-- SHA-256 of 16 zero bytes, as OBS_HASH holds it. -/
def hash0 : BitVec 256 := BitVec.ofNat 256 (leNat (sha256 (leBytes 16 0)))

theorem test_w_DebugPort : (dbgS Dbg.reset).pm.pfail = false ∧ (dbgS Dbg.reset).pm.resetPin = true ∧ base.pm.resetPin = false
    ∧ (∀ e ∈ (dbgS Dbg.reset).pps, e.2.dbg = .no) ∧ (pwrS cfgOn { pmOn with pfail := true }).pm.pfail = true
    ∧ (dbgS { Dbg.reset with fieldLock := true }).dbg.fieldLock = true ∧ (dbgS Dbg.reset).dbg.fieldLock = false
    ∧ (dbgS { Dbg.reset with lockedOut := true }).dbg.lockedOut = true ∧ (dbgS Dbg.reset).dbg.lockedOut = false ∧ (dbgS Dbg.reset).dbg.obsHash = 0
    ∧ (dbgS { Dbg.reset with obsHash := hash0 }).dbg.obsHash ≠ 0
    ∧ sha256 (leBytes 16 (0 : BitVec 128).toNat) = leBytes 32 (dbgS { Dbg.reset with obsHash := hash0 }).dbg.obsHash.toNat
    ∧ sha256 (leBytes 16 (0 : BitVec 128).toNat) ≠ leBytes 32 (dbgS { Dbg.reset with obsHash := 7 }).dbg.obsHash.toNat
    ∧ (dbgS { Dbg.reset with nonce := some (5, 6) }).dbg.nonce = some (5, 6) ∧ (dbgS Dbg.reset).dbg.nonce = none
    ∧ ((0 : Word) + 10000000000).toNat ≤ ({ base.fc with chrono := 10000000000 }).chrono.toNat := by
  repeat' apply And.intro
  all_goals decide +kernel

def dmaS (d : Dbg) (pp : Pp) : State :=
  { dbgS { d with done := true } with mem := memOf [(0x20000000, [1, 2, 3, 4, 5, 6, 7, 8])], pps := [(5, pp)] }

theorem test_w_DebugAccess : (dbgS { Dbg.reset with done := false }).dbg.done = false ∧ (dmaS { Dbg.reset with fieldLock := true } .reset).dbg.fieldLock = true
    ∧ (dmaS { Dbg.reset with fieldLock := true } .reset).dbg.scope < 1 ∧ (dmaS Dbg.reset .reset).dbg.done = true ∧ (dmaS Dbg.reset .reset).dbg.fieldLock = false
    ∧ (dmaS Dbg.reset .reset).regsQuiet ∧ 0 ∉ (dmaS Dbg.reset .reset).pm.coresDown ∧ (3#48).toNat % 4 ≠ 0
    ∧ (dmaS { Dbg.reset with fieldLock := true, scope := 2 } .reset).dbg.scope = 2 ∧ (0x20000000#48).toNat = 0x20000000 ∧ (0x100#48).toNat = 0x100 ∧ 0x20000000 % 8 = 0
    ∧ (dmaS Dbg.reset .reset).inMemory 0x20000000 ∧ region (dmaS Dbg.reset .reset) 0x20000000 ≠ .unmapped
    ∧ (dmaS Dbg.reset .reset).bad.contains (0x20000000 / 64) = false ∧ region (dmaS Dbg.reset .reset) 0x20000000 ≠ .keep
    ∧ (dmaS Dbg.reset .reset).inMemory 0x100 ∧ region (dmaS Dbg.reset .reset) 0x100 = .keep
    ∧ 0 ∈ ({ pmOn with coresDown := [0] }).coresDown ∧ 4 * ((65#48).toNat % 64) + (65#48).toNat / 64 % 4 = 5
    ∧ ((dmaS Dbg.reset .reset).pp 5).dbg = .no ∧ ((dmaS Dbg.reset { Pp.reset with dbg := .byHalt }).pp 5).dbg = .byHalt
    ∧ ((dmaS Dbg.reset { Pp.reset with dbg := .byHalt }).pp 5).running = none ∧ ((dmaS Dbg.reset { Pp.reset with dbg := .byHalt }).pp 5).dbg.stops = true
    ∧ (0x2341#48).toNat / 256 % 256 = 35 ∧ (0x1F41#48).toNat / 256 % 256 < 32 ∧ (dmaS Dbg.reset .reset).frozen = false
    ∧ (dmaS Dbg.reset .reset).sealReady = none ∧ (dmaS { Dbg.reset with obsHash := 5 } .reset).dbg.obsHash ≠ 0
    ∧ (dmaS { Dbg.reset with hashParts := [(0, 1), (1, 2), (2, 3)] } .reset).dbg.hashParts = [(0, 1), (1, 2), (2, 3)] := by
  repeat' apply And.intro
  all_goals decide +kernel

/-! ### Witnesses: the whole machine, and the forms that trap -/

theorem test_w_StepKeepsMemoryForm : Memory.wf (memOf [(0x50000000, [1, 0, 3])]) = true
    ∧ ∃ t, step { legS [] with mem := memOf [(0x50000000, [1, 0, 3])], pending := [.epochTick] } = .next t := by
  exact ⟨by decide, ⟨_, rfl⟩⟩

theorem test_w_StepRunsFrontCommand : ({ legS [] with pending := [.epochTick] }).pending = [.epochTick] := by
  all_goals decide +kernel

theorem test_w_MalformedForms : (legS []).executes 5 ∧ (⟨1, 1, 2, 3⟩ : RF).rs3 ≠ 0 ∧ (⟨1, 1, 2, 0⟩ : RF).rs2 ≠ 0 ∧ (⟨1, 1, 0, 0⟩ : RF).rs1 ≠ 0
    ∧ (⟨1, 0, 0, 0⟩ : RF).rd ≠ 0 ∧ 256 ≤ (⟨1, 1, 256⟩ : IF).imm.toNat ∧ 128 ≤ (⟨1, 1, 128⟩ : IF).imm.toNat ∧ (legS []).executes8 5
    ∧ 6 < (7#5).toNat ∧ ((legS []).ppLeg 5).isSome = true ∧ (⟨0, 0, 0, 0⟩ : RF).rs3 = 0 := by
  repeat' apply And.intro
  all_goals decide +kernel

/-! ### Ill-formed commands: one for each check -/

theorem test_ill_numbers : Instr.WellFormed (.add 256 ⟨0, 0, 0, 0⟩) = false ∧ Instr.WellFormed (.cutDone 64) = false
    ∧ Instr.WellFormed (.asaSearchStart 32) = false ∧ Instr.WellFormed (.asaScrub 0 8192) = false ∧ Instr.WellFormed (.duJobStart 16) = false
    ∧ Instr.WellFormed (.dmChannelDone 0 64) = false ∧ Instr.WellFormed (.sqFetchIssue 8192) = false ∧ Instr.WellFormed (.quiesceDone 512) = false
    ∧ Instr.WellFormed (.hostLinkDown 4) = false ∧ Instr.WellFormed (.msixUnmask 0 (.unmask 4096)) = false ∧ Instr.WellFormed (.actTableClear 16) = false
    ∧ Instr.WellFormed (.memRequestServe 0 32 [] 0 0 .none) = false ∧ Instr.WellFormed (.driveLinkDown ⟨32, false⟩) = false
    ∧ Instr.WellFormed (.ringPass 1024) = false ∧ Instr.WellFormed (.linkRetrain 8) = false ∧ Instr.WellFormed (.chainDown 16 0 0) = false
    ∧ Instr.WellFormed (.mgmtCoreStop 4) = false ∧ Instr.WellFormed (.hotChange 0 ⟨2, 0⟩) = false ∧ Instr.WellFormed (.saveDone true 0 [0x400000]) = false := by
  repeat' apply And.intro
  all_goals decide +kernel

theorem test_ill_requests : Instr.WellFormed (.registerRead (.hostPort 0) 0 24) = false ∧ Instr.WellFormed (.registerRead (.hostPort 4) 0 32) = false
    ∧ Instr.WellFormed (.registerRead (.core 4) 0 32) = false ∧ Instr.WellFormed (.registerRead (.pp 256) 0 32) = false
    ∧ Instr.WellFormed (.registerRead (.ccc 64) 0 32) = false ∧ Instr.WellFormed (.registerRead (.relay 16) 0 32) = false
    ∧ Instr.WellFormed (.hostCompletionTimeout 0 (.walk 65) 0) = false ∧ Instr.WellFormed (.hostCompletionTimeout 0 (.pp 256) 0) = false
    ∧ Instr.WellFormed (.hostCompletionTimeout 0 (.channel 0 64) 0) = false ∧ Instr.WellFormed (.hostCompletionTimeout 0 (.unit 1024) 0) = false := by
  repeat' apply And.intro
  all_goals decide +kernel

theorem test_ill_data : Instr.WellFormed (.sqFetchData 0 [1]) = false
    ∧ Instr.WellFormed (.hostCompletion 0 (.unit 0) 0 .ok (List.replicate 65 0)) = false ∧ Instr.WellFormed (.idle 0 [1]) = false := by
  repeat' apply And.intro
  all_goals decide +kernel

def bootIn : BootIn :=
  { hpcfg := 1, mgmtPort := 0, chainMode := 0, smbAddr := 0, svnA := some 1, svnB := none, commitSvn := false, hbmOk := true,
    hbmRepaired := [0, 0, 0, 0], ddr := List.replicate 12 { dimms := [], rate := 0 },
    directed := List.replicate 16 false, sparePct := 100, ksBad := [], hupReady := true }

theorem test_ill_boot : Instr.WellFormed (.bootStart bootIn) = true ∧ Instr.WellFormed (.bootStart { bootIn with mgmtPort := 4 }) = false
    ∧ Instr.WellFormed (.bootStart { bootIn with chainMode := 4 }) = false ∧ Instr.WellFormed (.bootStart { bootIn with smbAddr := 4 }) = false
    ∧ Instr.WellFormed (.bootStart { bootIn with hbmRepaired := [] }) = false ∧ Instr.WellFormed (.bootStart { bootIn with ddr := [] }) = false
    ∧ Instr.WellFormed (.bootStart { bootIn with directed := [] }) = false ∧ Instr.WellFormed (.bootStart { bootIn with sparePct := 101 }) = false
    ∧ Instr.WellFormed (.bootStart { bootIn with svnA := some 64 }) = false ∧ Instr.WellFormed (.bootStart { bootIn with svnB := some 64 }) = false
    ∧ Instr.WellFormed (.bootStart { bootIn with ddr := List.replicate 12 { dimms := [], rate := 4 } }) = false := by
  repeat' apply And.intro
  all_goals decide +kernel

/-! ### Values that the spec, or the standard it names, gives -/

/-- X[3] of PP 5 after `i`, with `x` in X1, X2, …. -/
def gives (i : Instr) (x : List Word) : Word :=
  match exec i (legS x) with
  | .next t => (t.pp 5).getX 3
  | _ => 0xDEAD

def r3 : RF := ⟨3, 1, 2, 0⟩
def u3 : RF := ⟨3, 1, 0, 0⟩

/-- R71: division by zero, and −2^63 by −1. -/
theorem test_div_corners : gives (.div 5 r3) [7, 0] = -1 ∧ gives (.divu 5 r3) [7, 0] = -1 ∧ gives (.rem 5 r3) [7, 0] = 7 ∧ gives (.remu 5 r3) [7, 0] = 7
    ∧ gives (.div 5 r3) [0x8000000000000000, -1] = 0x8000000000000000 ∧ gives (.rem 5 r3) [0x8000000000000000, -1] = 0
    ∧ gives (.div 5 r3) [-7, 2] = -3 ∧ gives (.rem 5 r3) [-7, 2] = -1 := by
  repeat' apply And.intro
  all_goals decide +kernel

/-- R70's table. -/
theorem test_scalar_values : gives (.add 5 r3) [-1, 2] = 1 ∧ gives (.sub 5 r3) [1, 2] = -1 ∧ gives (.sra 5 r3) [-16, 66] = -4
    ∧ gives (.mulh 5 r3) [-1, -1] = 0 ∧ gives (.mulhu 5 r3) [-1, -1] = -2 ∧ gives (.addw 5 r3) [0x7FFFFFFF, 1] = 0xFFFFFFFF80000000
    ∧ gives (.clz 5 u3) [1] = 63 ∧ gives (.ctz 5 u3) [8] = 3 ∧ gives (.popc 5 u3) [0xFF00FF] = 16
    ∧ gives (.bswap 5 u3) [0x0102030405060708] = 0x0807060504030201 ∧ gives (.ror 5 r3) [1, 1] = 0x8000000000000000 := by
  repeat' apply And.intro
  all_goals decide +kernel

/-- X0 reads as zero and discards a write (R64). -/
theorem test_x0 : (match exec (.add 5 ⟨0, 1, 1, 0⟩) (legS [5]) with | .next t => (t.pp 5).getX 0 | _ => 1) = 0 := by
  all_goals decide +kernel

/-- The check value of CRC-32C: "123456789". -/
theorem test_crc32c : crc32c [0x31, 0x32, 0x33, 0x34, 0x35, 0x36, 0x37, 0x38, 0x39] = 0xE3069283 := by
  all_goals decide +kernel

/-- R67: a branch to itself less one word, and JAL's link. -/
theorem test_branch : (match exec (.beq 5 ⟨1, 1, -1⟩) (legS [5]) with | .next t => (t.pp 5).pc | _ => 0) = 0x3FFFFC
    ∧ gives (.jal 5 ⟨3, 2⟩) [] = 0x400004 := by
  repeat' apply And.intro
  all_goals decide +kernel

end Sys2Proof.Tests
end

section
/-!
PROOFS. The functions of OP: how a result is written, what each function's word is as a number, and the statement about them.
-/
namespace Sys2Proof.Machine

open Sys2Proof

/-! ### The write of a result -/

/-- R64: a register after a write, X0 included. -/
theorem Pp.getX_setX_eq_ite (p : Pp) (r q : BitVec 5) (v : Word) :
    (p.setX r v).getX q = if q = 0 then 0 else if q = r then v else p.getX q := by
  split
  · next h => rw [h, Pp.getX_zero]
  · next h =>
    split
    · next hr => subst hr; exact p.getX_setX v h
    · next hr => exact p.getX_setX_other v hr

theorem State.stepDone_wr_pp (s : State) (n : Nat) (rd : BitVec 5) (v : Word) :
    ((s.wr n rd v).stepDone n).pp n = { (s.pp n).setX rd v with
      pc := (s.pp n).pc + 4, blocked := .none, hostAt := none, hostSeen := [], hostLeft := [], eltAt := 0, dbg := s.ranDbg n } := by
  rw [State.stepDone_pp, State.wr_pp]
  by_cases h : (s.pp n).dbg = .step <;> simp [State.ranDbg, h]

theorem State.onlyPp_stepDone_wr (s : State) (n : Nat) (rd : BitVec 5) (v : Word) :
    s.OnlyPp ((s.wr n rd v).stepDone n) n := by
  refine ⟨fun m hm => ?_, fun a => by rw [State.stepDone_mem, State.wr_mem], ?_⟩
  · rw [State.stepDone_pp_other _ hm, State.wr_pp_other s rd v hm]
  · exact congrArg (fun t : State => { t with pps := s.pps }) (State.stepDone_frame (s.wr n rd v) n)

/-- An instruction that ends in `wr` goes on at the next one and has changed X[rd] alone. -/
theorem State.goesOn_stepDone_wr (s : State) (n : Nat) (rd : BitVec 5) (v : Word) :
    s.GoesOn ((s.wr n rd v).stepDone n) n (s.withX n rd v) ((s.pp n).pc + 4) := by
  have hpp := s.stepDone_wr_pp n rd v
  have hx : ∀ r, (((s.wr n rd v).stepDone n).pp n).getX r = s.withX n rd v r := by
    intro r; rw [hpp]; exact (s.pp n).getX_setX_eq_ite rd r v
  refine ⟨hx, ?pc, ?still, ?dbg, ?frame, s.onlyPp_stepDone_wr n rd v⟩
  case pc => rw [hpp]
  case still => rw [hpp]; exact ⟨rfl, rfl, rfl, rfl, rfl⟩
  case dbg => rw [hpp]
  case frame =>
    rw [hpp]
    exact congrArg (fun p : Pp => { p.waitingAs (s.pp n) with pc := (s.pp n).pc, dbg := (s.pp n).dbg })
      ((s.pp n).setX_frame rd v)

theorem gives_of_exec_eq_wr {i : Instr} {s : State} {n : Nat} {rd : BitVec 5} {v : Word}
    (h : exec i s = .next ((s.wr n rd v).stepDone n)) : Gives i s n rd v := ⟨_, h, s.goesOn_stepDone_wr n rd v⟩

/-- An instruction that is the binary function `g` gives `g`'s value. -/
theorem gives_of_opBin {i : Instr} {s : State} {n fn : Nat} {f : RF} {g : Word → Word → Word} {a b v : Word}
    (hi : exec i s = .next (opBin n fn f g s)) (hs : s.executes n) (h3 : f.rs3 = 0)
    (h1 : (s.pp n).getX f.rs1 = a) (h2 : (s.pp n).getX f.rs2 = b) (hv : g a b = v) : Gives i s n f.rd v := by
  obtain ⟨hcan, hstall, hfetch, hfetched⟩ := hs
  apply gives_of_exec_eq_wr
  rw [hi, opBin_runs g hcan hstall hfetch hfetched h3, h1, h2, hv]

/-- An instruction that is the unary function `g` gives `g`'s value. -/
theorem gives_of_opUn {i : Instr} {s : State} {n fn : Nat} {f : RF} {g : Word → Word} {a v : Word}
    (hi : exec i s = .next (opUn n fn f g s)) (hs : s.executes n) (h3 : f.rs3 = 0) (h2 : f.rs2 = 0)
    (h1 : (s.pp n).getX f.rs1 = a) (hv : g a = v) : Gives i s n f.rd v := by
  obtain ⟨hcan, hstall, hfetch, hfetched⟩ := hs
  apply gives_of_exec_eq_wr
  rw [hi, opUn_runs g hcan hstall hfetch hfetched h3 h2, h1, hv]

theorem sel_gives {s : State} {n : Nat} {f : RF} (hs : s.executes n) :
    Gives (.sel n f) s n f.rd (if (s.pp n).getX f.rs3 = 0 then (s.pp n).getX f.rs2 else (s.pp n).getX f.rs1) := by
  obtain ⟨hcan, hstall, hfetch, hfetched⟩ := hs
  apply gives_of_exec_eq_wr
  show execSel n f s = _
  rw [execSel, ppRun_runs _ hcan hstall hfetch hfetched, ite_not]

/-! ### Sums, products and shifts as numbers -/

theorem sub_eq_ofInt (a b : Word) : a - b = BitVec.ofInt 64 ((a.toNat : Int) - (b.toNat : Int)) := by
  simp [Int.sub_eq_add_neg, BitVec.ofInt_add, BitVec.ofInt_neg, BitVec.sub_eq_add_neg]

theorem mul_eq_ofNat (a b : Word) : a * b = BitVec.ofNat 64 (a.toNat * b.toNat) := by
  simp [BitVec.ofNat_mul]

theorem shiftLeft_eq_ofNat (a : Word) (k : Nat) : a <<< k = BitVec.ofNat 64 (a.toNat * 2 ^ k) := by
  apply BitVec.eq_of_toNat_eq
  rw [BitVec.toNat_shiftLeft, BitVec.toNat_ofNat, Nat.shiftLeft_eq]

theorem ushiftRight_eq_ofNat (a : Word) (k : Nat) : a >>> k = BitVec.ofNat 64 (a.toNat / 2 ^ k) := by
  rw [← Nat.shiftRight_eq_div_pow, ← BitVec.toNat_ushiftRight, BitVec.ofNat_toNat, BitVec.setWidth_eq]

theorem sshiftRight_eq_ofInt (a : Word) (k : Nat) : a.sshiftRight k = BitVec.ofInt 64 (a.toInt / 2 ^ k) := by
  rw [BitVec.sshiftRight, Int.shiftRight_eq_div_pow, Nat.cast_pow, Nat.cast_ofNat]

/-- The two parts of a rotation have no bit in common, so their sum is their union. -/
theorem rotateRight_eq_ofNat (a : Word) {k : Nat} (hk : k < 64) :
    a.rotateRight k = BitVec.ofNat 64 (a.toNat / 2 ^ k + a.toNat * 2 ^ (64 - k)) := by
  have hlow : a.toNat / 2 ^ k < 2 ^ (64 - k) := by
    apply Nat.div_lt_of_lt_mul
    rw [← Nat.pow_add, Nat.add_sub_cancel' hk.le]
    exact a.isLt
  have hor : a.toNat / 2 ^ k + a.toNat * 2 ^ (64 - k) = a.toNat * 2 ^ (64 - k) ||| a.toNat / 2 ^ k := by
    rw [Nat.add_comm, Nat.mul_comm, Nat.two_pow_add_eq_or_of_lt hlow]
  rw [BitVec.rotateRight_def, Nat.mod_eq_of_lt hk, shiftLeft_eq_ofNat, ushiftRight_eq_ofNat, hor, BitVec.ofNat_or,
    BitVec.or_comm]

theorem extractLsb'_ofNat {w start len : Nat} (x : Nat) (h : start + len ≤ w) :
    (BitVec.ofNat w x).extractLsb' start len = BitVec.ofNat len (x / 2 ^ start) := by
  ext j hj
  have hbit : start + j < w := by omega
  rw [BitVec.getElem_extractLsb', ← BitVec.getLsbD_eq_getElem, BitVec.getLsbD_ofNat, BitVec.getLsbD_ofNat,
    Nat.testBit_div_two_pow, decide_eq_true hbit, decide_eq_true hj, Nat.add_comm]

theorem extractHigh_ofInt (z : Int) : (BitVec.ofInt 128 z).extractLsb' 64 64 = BitVec.ofInt 64 (z / 2 ^ 64) := by
  apply BitVec.eq_of_toNat_eq
  rw [BitVec.extractLsb'_toNat, BitVec.toNat_ofInt, BitVec.toNat_ofInt, Nat.shiftRight_eq_div_pow]
  push_cast
  omega

theorem mulHS_eq_ofInt (a b : Word) : mulHS a b = BitVec.ofInt 64 (a.toInt * b.toInt / 2 ^ 64) := by
  have hsx (c : Word) : c.signExtend 128 = BitVec.ofInt 128 c.toInt := by rw [BitVec.signExtend]
  rw [mulHS, hsx, hsx, ← BitVec.ofInt_mul, extractHigh_ofInt]

theorem mulHU_eq_ofNat (a b : Word) : mulHU a b = BitVec.ofNat 64 (a.toNat * b.toNat / 2 ^ 64) := by
  have hzx (c : Word) : c.zeroExtend 128 = BitVec.ofNat 128 c.toNat := (BitVec.ofNat_toNat 128 c).symm
  rw [mulHU, hzx, hzx, ← BitVec.ofNat_mul, extractLsb'_ofNat _ le_rfl]

/-! ### Quotients and remainders (R71) -/

/-- Of −2^63 by −1 both sides wrap. -/
theorem divS_eq_ofInt (a b : Word) :
    divS a b = if b = 0 then BitVec.allOnes 64 else BitVec.ofInt 64 (a.toInt.tdiv b.toInt) := by
  have hdiv : a.sdiv b = BitVec.ofInt 64 (a.toInt.tdiv b.toInt) :=
    BitVec.eq_of_toInt_eq (by rw [BitVec.toInt_sdiv, BitVec.toInt_ofInt])
  rw [divS, hdiv]

theorem divU_eq_ofNat (a b : Word) :
    divU a b = if b = 0 then BitVec.allOnes 64 else BitVec.ofNat 64 (a.toNat / b.toNat) := by
  rw [divU, ← BitVec.toNat_udiv, BitVec.ofNat_toNat, BitVec.setWidth_eq]

theorem remS_eq_ofInt (a b : Word) : remS a b = if b = 0 then a else BitVec.ofInt 64 (a.toInt.tmod b.toInt) := by
  rw [remS, ← BitVec.toInt_srem, BitVec.ofInt_toInt]

theorem remU_eq_ofNat (a b : Word) : remU a b = if b = 0 then a else BitVec.ofNat 64 (a.toNat % b.toNat) := by
  rw [remU, ← BitVec.toNat_umod, BitVec.ofNat_toNat, BitVec.setWidth_eq]

/-! ### Compares, minimum and maximum -/

theorem boolW_slt (a b : Word) : boolW (a.slt b) = if a.toInt < b.toInt then 1 else 0 := by
  simp only [boolW, BitVec.slt_iff_toInt_lt]

theorem boolW_ult (a b : Word) : boolW (a.ult b) = if a.toNat < b.toNat then 1 else 0 := by
  simp only [boolW, BitVec.ult_iff_toNat_lt]

/-- A choice by `<` is the choice by `≤` when equal operands make no difference. -/
theorem ite_slt_eq_ite_toInt_le {a b x y : Word} (h : a = b → x = y) :
    (if a.slt b then x else y) = if a.toInt ≤ b.toInt then x else y := by
  rcases lt_trichotomy a.toInt b.toInt with hlt | heq | hgt
  · rw [if_pos (BitVec.slt_iff_toInt_lt.mpr hlt), if_pos hlt.le]
  · rw [h (BitVec.eq_of_toInt_eq heq), ite_self, ite_self]
  · rw [if_neg (fun hlt => hgt.asymm (BitVec.slt_iff_toInt_lt.mp hlt)), if_neg (not_le.mpr hgt)]

theorem ite_ult_eq_ite_toNat_le {a b x y : Word} (h : a = b → x = y) :
    (if a.ult b then x else y) = if a.toNat ≤ b.toNat then x else y := by
  rcases lt_trichotomy a.toNat b.toNat with hlt | heq | hgt
  · rw [if_pos (BitVec.ult_iff_toNat_lt.mpr hlt), if_pos hlt.le]
  · rw [h (BitVec.eq_of_toNat_eq heq), ite_self, ite_self]
  · rw [if_neg (fun hlt => hgt.asymm (BitVec.ult_iff_toNat_lt.mp hlt)), if_neg (not_le.mpr hgt)]

/-! ### Counts of leading and trailing zeros -/

theorem find?_leadingOne {a : Word} (h : a ≠ 0) :
    (List.range 64).find? (fun i => a.getLsbD (63 - i)) = some (63 - a.toNat.log2) := by
  have hne : a.toNat ≠ 0 := fun q => h (BitVec.eq_of_toNat_eq q)
  have hlog : a.toNat.log2 < 64 := (Nat.log2_lt hne).mpr a.isLt
  rw [List.find?_range_eq_some]
  refine ⟨?_, List.mem_range.mpr (by omega), fun j hj => ?_⟩
  · rw [Nat.sub_sub_self (by omega)]
    exact Nat.testBit_log2 hne
  · rw [Bool.not_eq_true']
    exact Nat.testBit_lt_two_pow ((Nat.log2_lt hne).mp (by omega))

theorem clzW_eq_ofNat (a : Word) : clzW a = BitVec.ofNat 64 (if a = 0 then 64 else 63 - a.toNat.log2) := by
  split
  · next h => rw [h]; decide
  · next h => rw [clzW, find?_leadingOne h, Option.getD_some]

theorem exists_ctzW_eq_ofNat (a : Word) :
    ∃ k, k ≤ 64 ∧ (∀ j, j < k → a.getLsbD j = false) ∧ (k < 64 → a.getLsbD k = true) ∧ ctzW a = BitVec.ofNat 64 k := by
  unfold ctzW
  cases hf : (List.range 64).find? (fun i => a.getLsbD i) with
  | none =>
    rw [List.find?_range_eq_none] at hf
    exact ⟨64, le_rfl, fun j hj => by simpa using hf j hj, fun h => absurd h (lt_irrefl _), rfl⟩
  | some k =>
    rw [List.find?_range_eq_some] at hf
    obtain ⟨hk, hlt, hlow⟩ := hf
    exact ⟨k, (List.mem_range.mp hlt).le, fun j hj => by simpa using hlow j hj, fun _ => hk, rfl⟩

/-! ### The bytes of a word (R5) -/

theorem leBytes_eq_map_range (k v : Nat) :
    leBytes k v = (List.range k).map (fun i => BitVec.ofNat 8 (v / 256 ^ i)) := by
  induction k generalizing v with
  | zero => rfl
  | succ k ih =>
    rw [leBytes, ih, List.range_succ_eq_map, List.map_cons, List.map_map, Nat.pow_zero, Nat.div_one]
    congr 1
    exact List.map_congr_left fun i _ => by rw [Function.comp_apply, Nat.pow_succ', Nat.div_div_eq_div_mul]

theorem ofNat_leNat_div {bs : List Byte} {i : Nat} (h : i < bs.length) :
    BitVec.ofNat 8 (leNat bs / 256 ^ i) = bs[i] := by
  induction bs generalizing i with
  | nil => exact absurd h (Nat.not_lt_zero i)
  | cons b t ih =>
    have hb := b.isLt
    cases i with
    | zero =>
      apply BitVec.eq_of_toNat_eq
      rw [leNat, BitVec.toNat_ofNat, List.getElem_cons_zero]
      omega
    | succ i =>
      have hdiv : leNat (b :: t) / 256 = leNat t := by rw [leNat]; omega
      rw [Nat.pow_succ', ← Nat.div_div_eq_div_mul, hdiv, List.getElem_cons_succ, ih]

theorem extractByte_ofNat (x : Nat) {i : Nat} (hi : i < 8) :
    (BitVec.ofNat 64 x).extractLsb' (8 * i) 8 = BitVec.ofNat 8 (x / 256 ^ i) := by
  rw [extractLsb'_ofNat x (by omega), Nat.pow_mul]

theorem bswapW_extractByte (a : Word) {i : Nat} (hi : i < 8) :
    (bswapW a).extractLsb' (8 * i) 8 = a.extractLsb' (8 * (7 - i)) 8 := by
  have ha : a = BitVec.ofNat 64 a.toNat := by rw [BitVec.ofNat_toNat, BitVec.setWidth_eq]
  have hlen : i < (leBytes 8 a.toNat).reverse.length := by
    rwa [List.length_reverse, leBytes_eq_map_range, List.length_map, List.length_range]
  calc (bswapW a).extractLsb' (8 * i) 8
      = (leBytes 8 a.toNat).reverse[i] := by rw [bswapW, extractByte_ofNat _ hi, ofNat_leNat_div]
    _ = BitVec.ofNat 8 (a.toNat / 256 ^ (7 - i)) := by simp [leBytes_eq_map_range]
    _ = a.extractLsb' (8 * (7 - i)) 8 := by rw [← extractByte_ofNat _ (by omega), ← ha]

/-! ### The statement -/

/-- Settles O1: each function of OP is a write of its word (`gives_of_opBin`, `gives_of_opUn`), and the word is the number of
R70 and R71.  Each list below stands in the statement's order. -/
theorem scalarFunctions : Obligations.ScalarFunctions := by
  unfold Obligations.ScalarFunctions
  intro n f s a b hs h1 h2
  have hsh : shAmt b < 64 := Nat.mod_lt _ (by decide)
  refine ⟨fun h3 => ?binary, fun h3 hz2 => ?unary, ?sel⟩
  case binary =>
    have gives {i : Instr} {fn : Nat} {g : Word → Word → Word} {v : Word} (hi : exec i s = .next (opBin n fn f g s))
        (hv : g a b = v) : Gives i s n f.rd v := gives_of_opBin hi hs h3 h1 h2 hv
    exact ⟨gives rfl (BitVec.add_def a b), gives rfl (sub_eq_ofInt a b),
      -- AND, OR, XOR, ANDN
      gives rfl rfl, gives rfl rfl, gives rfl rfl, gives rfl rfl,
      gives rfl (shiftLeft_eq_ofNat a _), gives rfl (ushiftRight_eq_ofNat a _), gives rfl (sshiftRight_eq_ofInt a _),
      gives rfl (rotateRight_eq_ofNat a hsh),
      gives rfl (boolW_slt a b), gives rfl (boolW_ult a b),
      gives rfl (ite_slt_eq_ite_toInt_le id), gives rfl (ite_slt_eq_ite_toInt_le Eq.symm),
      gives rfl (ite_ult_eq_ite_toNat_le id), gives rfl (ite_ult_eq_ite_toNat_le Eq.symm),
      gives rfl (mul_eq_ofNat a b), gives rfl (mulHS_eq_ofInt a b), gives rfl (mulHU_eq_ofNat a b),
      gives rfl (divS_eq_ofInt a b), gives rfl (divU_eq_ofNat a b), gives rfl (remS_eq_ofInt a b), gives rfl (remU_eq_ofNat a b),
      -- CRC32C.W, CRC32C, ADDW, SUBW
      gives rfl rfl, gives rfl rfl, gives rfl rfl, gives rfl rfl⟩
  case unary =>
    have gives {i : Instr} {fn : Nat} {g : Word → Word} {v : Word} (hi : exec i s = .next (opUn n fn f g s))
        (hv : g a = v) : Gives i s n f.rd v := gives_of_opUn hi hs h3 hz2 h1 hv
    obtain ⟨k, hk, hlow, hone, hctz⟩ := exists_ctzW_eq_ofNat a
    exact ⟨gives rfl (clzW_eq_ofNat a), ⟨k, hk, hlow, hone, gives rfl hctz⟩, gives rfl rfl,
      ⟨bswapW a, fun i hi => bswapW_extractByte a hi, gives rfl rfl⟩⟩
  case sel =>
    rw [← h1, ← h2]
    exact sel_gives hs

end Sys2Proof.Machine
end

section
/-!
PROOFS. The vector permutes and the mask operations (04 R126-R128): how a vector instruction ends, the elements of a register group
after a write, the bits of a mask register after a write, and the two statements about them.
-/
namespace Sys2Proof.Machine

open Sys2Proof

/-! ### How a vector instruction ends -/

/-- Beside the register files X, V and M, `q` is `p`. -/
def Pp.sameButRegs (p q : Pp) : Prop := { q with x := p.x, v := p.v, m := p.m } = p

/-- The state behind a vector instruction that leaves `q` in its PP. -/
def State.vecNext (s : State) (n : Nat) (q : Pp) : State := (s.vecDone n q).stepDone n

/-- A vector instruction that is well formed and meets its constraints has its effect. -/
theorem vecOp_runs {s : State} {n : Nat} {w : Word} {ill : Bool} {subs : VC → List Nat} (g : VC → State → State)
    (hs : s.executes n) (hill : ill = false) (hsubs : subs (s.pp n).vc = []) :
    vecOp n w ill subs g s = (g (s.pp n).vc s).stepDone n := by
  obtain ⟨hcan, hstall, hfetch, hfetched⟩ := hs
  simp only [vecOp, ppRun_runs _ hcan hstall hfetch hfetched, hill, hsubs, Bool.false_eq_true, if_false]

theorem State.vecNext_pp (s : State) (n : Nat) (q : Pp) :
    (s.vecNext n q).pp n = { q with
      pc := q.pc + 4, blocked := .none, hostAt := none, hostSeen := [], hostLeft := [], eltAt := 0,
      dbg := if q.dbg = .step then .byHalt else q.dbg } := by
  rw [State.vecNext, State.stepDone_pp, State.vecDone, State.pp_setPp, Pp.advance]
  by_cases h : q.dbg = .step <;> simp [h]

@[simp] theorem State.vecNext_getX (s : State) (n : Nat) (q : Pp) (r : BitVec 5) : ((s.vecNext n q).pp n).getX r = q.getX r := by
  rw [State.vecNext_pp]; rfl

@[simp] theorem State.vecNext_getV (s : State) (n : Nat) (q : Pp) (r : Nat) : ((s.vecNext n q).pp n).getV r = q.getV r := by
  rw [State.vecNext_pp]; rfl

@[simp] theorem State.vecNext_getM (s : State) (n : Nat) (q : Pp) (r : Nat) : ((s.vecNext n q).pp n).getM r = q.getM r := by
  rw [State.vecNext_pp]; rfl

@[simp] theorem State.vecNext_elt (s : State) (n : Nat) (q : Pp) (base w i : Nat) :
    ((s.vecNext n q).pp n).elt base w i = q.elt base w i := by
  rw [Pp.elt, State.vecNext_getV, ← Pp.elt]

theorem State.onlyPp_vecNext (s : State) (n : Nat) (q : Pp) : s.OnlyPp (s.vecNext n q) n := by
  refine ⟨fun m hm => ?_, fun a => by rw [State.vecNext, State.stepDone_mem]; rfl, ?_⟩
  · rw [State.vecNext, State.stepDone_pp_other _ hm]
    exact State.pp_setPp_other s _ hm
  · exact congrArg (fun t : State => { t with pps := s.pps }) (State.stepDone_frame (s.vecDone n q) n)

theorem State.vecGoesOn_vecNext {s : State} {n : Nat} {q : Pp} (h : (s.pp n).sameButRegs q) : s.VecGoesOn (s.vecNext n q) n := by
  have hpc : q.pc = (s.pp n).pc := (congrArg Pp.pc h :)
  have hdbg : q.dbg = (s.pp n).dbg := (congrArg Pp.dbg h :)
  refine ⟨?pc, ?still, ?dbg, s.onlyPp_vecNext n q, ?frame⟩ <;> rw [State.vecNext_pp]
  case pc => rw [hpc]
  case still => exact ⟨rfl, rfl, rfl, rfl, rfl⟩
  case dbg => rw [hdbg]; rfl
  case frame =>
    exact congrArg (fun p : Pp => { p.waitingAs (s.pp n) with pc := (s.pp n).pc, dbg := (s.pp n).dbg }) h

/-- An instruction that writes X[rd] unless VL is 0. -/
theorem vecX_of_exec {i : Instr} {s : State} {n : Nat} {rd : BitVec 5} {v : Word}
    (h : exec i s = .next (s.vecNext n (if (s.pp n).vc.vl = 0 then s.pp n else (s.pp n).setX rd v))) : VecX i s n rd v := by
  refine ⟨_, h, State.vecGoesOn_vecNext ?_, ⟨fun j => ?_, fun j => ?_⟩, fun r => ?_⟩
  · split
    · rfl
    · exact congrArg (fun p : Pp => { p with v := (s.pp n).v, m := (s.pp n).m }) ((s.pp n).setX_frame rd v)
  · rw [State.vecNext_getV, Pp.getV, apply_ite Pp.v, Pp.setX_v, ite_self]; rfl
  · rw [State.vecNext_getM, Pp.getM, apply_ite Pp.m, Pp.setX_m, ite_self]; rfl
  · rw [State.vecNext_getX, apply_ite (fun p : Pp => p.getX r), Pp.getX_setX_eq_ite]; rfl

/-! ### Widths of elements (R100, R109) -/

theorem Pp.vc_w_dvd (p : Pp) : p.vc.w ∣ 2048 := by
  have hlog : bits p.vcfg.toNat 1 0 < 4 := Nat.mod_lt _ (by decide)
  show cfgW p.vcfg.toNat ∣ 2048
  rw [cfgW]
  split
  · decide
  · rw [cfgSew]
    exact (Nat.mul_dvd_mul_left 8 (Nat.pow_dvd_pow 2 (Nat.le_of_lt_succ hlog))).trans (by decide)

/-! ### Elements after a write -/

theorem getLsbD_putBits (v : VReg) (lo w x : Nat) {b : Nat} (hb : b < 2048) :
    (putBits v lo w x).getLsbD b = if lo ≤ b ∧ b - lo < w then x.testBit (b - lo) else v.getLsbD b := by
  simp only [putBits, BitVec.getLsbD_or, BitVec.getLsbD_and, BitVec.getLsbD_not, BitVec.getLsbD_ofNat, Nat.testBit_mul_two_pow,
    Nat.testBit_two_pow_sub_one, Nat.testBit_mod_two_pow, hb]
  by_cases hlo : lo ≤ b <;> by_cases hin : b - lo < w <;> simp [hlo, hin]

theorem Pp.testBit_elt (p : Pp) (base i j : Nat) {w : Nat} (hw : 0 < w) :
    (p.elt base w i).testBit j = (decide (j < w) && (p.getV (base + i * w / 2048)).getLsbD (i * w % 2048 + j)) := by
  have hlen : i * w % 2048 + w - 1 + 1 - i * w % 2048 = w := by omega
  rw [Pp.elt, bits, hlen, Nat.testBit_mod_two_pow, Nat.testBit_shiftRight, BitVec.testBit_toNat]

/-- No element crosses the border of a register. -/
theorem elt_bit_lt {w j : Nat} (i : Nat) (hw : w ∣ 2048) (hj : j < w) : i * w % 2048 + j < 2048 := by
  have hlt : i * w % 2048 < 2048 := Nat.mod_lt _ (by decide)
  have hdvd : w ∣ 2048 - i * w % 2048 := Nat.dvd_sub hw ((Nat.dvd_mod_iff hw).mpr (Nat.dvd_mul_left w i))
  have hle : w ≤ 2048 - i * w % 2048 := Nat.le_of_dvd (by omega) hdvd
  omega

/-- Elements of one register lie apart. -/
theorem elt_apart {w i k j : Nat} (hj : j < w) (hne : k ≠ i) (hreg : k * w / 2048 = i * w / 2048) :
    ¬ (i * w % 2048 ≤ k * w % 2048 + j ∧ k * w % 2048 + j - i * w % 2048 < w) := by
  intro ⟨hlo, hhi⟩
  rcases Nat.lt_or_gt_of_ne hne with hlt | hgt
  · have hle : k * w + w ≤ i * w := k.succ_mul w ▸ Nat.mul_le_mul_right w hlt
    omega
  · have hle : i * w + w ≤ k * w := i.succ_mul w ▸ Nat.mul_le_mul_right w hgt
    omega

theorem Pp.elt_setElt (p : Pp) (base i k x : Nat) {w : Nat} (hw : w ∣ 2048) :
    (p.setElt base w i x).elt base w k = if k = i then x % 2 ^ w else p.elt base w k := by
  have hpos : 0 < w := Nat.pos_of_dvd_of_pos hw (by decide)
  apply Nat.eq_of_testBit_eq
  intro j
  rw [apply_ite (Nat.testBit · j), Pp.testBit_elt _ _ _ _ hpos, Pp.testBit_elt _ _ _ _ hpos, Nat.testBit_mod_two_pow]
  by_cases hj : j < w
  case neg => simp [hj]
  have hb := elt_bit_lt k hw hj
  by_cases hreg : k * w / 2048 = i * w / 2048
  case neg =>
    have hne : k ≠ i := fun h => hreg (by rw [h])
    rw [if_neg hne, Pp.setElt, Pp.getV_setV_other _ _ (by omega)]
  rw [Pp.setElt, hreg, Pp.getV_setV, getLsbD_putBits _ _ _ _ hb]
  by_cases hki : k = i
  · subst hki
    simp [hj]
  · rw [if_neg (elt_apart hj hki hreg), if_neg hki]

/-! ### A group after a write -/

/-- Of `p` only V has changed in `q`, and in it only the `k` registers from `r` on. -/
def Pp.sameButV (p q : Pp) (r k : Nat) : Prop :=
  { q with v := p.v } = p ∧ ∀ j, (j < r ∨ r + k ≤ j) → q.getV j = p.getV j

theorem Pp.sameButV_refl (p : Pp) (r k : Nat) : p.sameButV p r k := ⟨rfl, fun _ _ => rfl⟩

theorem Pp.sameButV.sameButRegs {p q : Pp} {r k : Nat} (h : p.sameButV q r k) : p.sameButRegs q :=
  (congrArg (fun t : Pp => { t with x := p.x, m := p.m }) h.1 :)

theorem Pp.sameButV.onlyV {p q : Pp} {r k : Nat} (h : p.sameButV q r k) : p.onlyV q r k :=
  ⟨fun j => (congrArg (Pp.getX · j) h.1 :), fun j => (congrArg (Pp.getM · j) h.1 :), h.2⟩

theorem State.onlyV_vecNext {s : State} {n : Nat} {q : Pp} {r k : Nat} (h : (s.pp n).sameButV q r k) :
    (s.pp n).onlyV ((s.vecNext n q).pp n) r k := by
  obtain ⟨hx, hm, hv⟩ := h.onlyV
  exact ⟨fun j => (s.vecNext_getX n q j).trans (hx j), fun j => (s.vecNext_getM n q j).trans (hm j),
    fun j hj => (s.vecNext_getV n q j).trans (hv j hj)⟩

/-- A write of an element of the group keeps to the group. -/
theorem Pp.sameButV.setElt {p q : Pp} {base : Nat} {v : VC} (h : p.sameButV q base v.g) {i : Nat} (x : Nat) (hi : i < v.max) :
    p.sameButV (q.setElt base v.w i x) base v.g := by
  obtain ⟨hframe, hout⟩ := h
  have hpos : 0 < v.w := Nat.pos_of_ne_zero fun h => by simp [VC.max, h] at hi
  have hreg : i * v.w / 2048 < v.g := by
    rw [Nat.div_lt_iff_lt_mul (by decide)]
    calc i * v.w < v.max * v.w := Nat.mul_lt_mul_of_pos_right hi hpos
      _ ≤ v.g * 2048 := Nat.div_mul_le_self _ _
  refine ⟨hframe, fun j hj => ?_⟩
  rw [Pp.setElt, Pp.getV_setV_other _ _ (by omega), hout j hj]

/-- What a Rexigal-L form leaves in element `k` of its destination, where `old` stood (R107). -/
def VC.eltAfter (v : VC) (act : Nat → Bool) (res : Nat → Nat) (k old : Nat) : Nat :=
  if k < v.vl then (if act k then res k % 2 ^ v.w else if v.mz then 0 else old) else if v.tz then 0 else old

/-- One step of `vecWriteL`. -/
def VC.writeElt (v : VC) (base : Nat) (act : Nat → Bool) (res : Nat → Nat) (q : Pp) (i : Nat) : Pp :=
  if i < v.vl then
    (if act i then q.setElt base v.w i (res i) else if v.mz then q.setElt base v.w i 0 else q)
  else if v.tz then q.setElt base v.w i 0 else q

theorem vecWriteL_eq_foldl (v : VC) (base : Nat) (act : Nat → Bool) (res : Nat → Nat) (p : Pp) :
    vecWriteL v base act res p = (List.range v.max).foldl (v.writeElt base act res) p := rfl

theorem VC.elt_writeElt (v : VC) (base : Nat) (act : Nat → Bool) (res : Nat → Nat) (q : Pp) (i k : Nat) (hw : v.w ∣ 2048) :
    (v.writeElt base act res q i).elt base v.w k = if k = i then v.eltAfter act res k (q.elt base v.w k) else q.elt base v.w k := by
  unfold VC.writeElt VC.eltAfter
  by_cases hk : k = i
  · subst hk
    rw [if_pos rfl]
    split_ifs <;> simp [Pp.elt_setElt _ _ _ _ _ hw]
  · split_ifs <;> simp [Pp.elt_setElt _ _ _ _ _ hw, hk]

theorem VC.sameButV_writeElt {v : VC} {base : Nat} {act : Nat → Bool} {res : Nat → Nat} {p q : Pp} {i : Nat}
    (h : p.sameButV q base v.g) (hi : i < v.max) : p.sameButV (v.writeElt base act res q i) base v.g := by
  unfold VC.writeElt
  split_ifs
  · exact h.setElt _ hi
  · exact h.setElt _ hi
  · exact h
  · exact h.setElt _ hi
  · exact h

theorem VC.elt_foldl_writeElt (v : VC) (base : Nat) (act : Nat → Bool) (res : Nat → Nat) (p : Pp) (hw : v.w ∣ 2048) (N k : Nat) :
    ((List.range N).foldl (v.writeElt base act res) p).elt base v.w k =
      if k < N then v.eltAfter act res k (p.elt base v.w k) else p.elt base v.w k := by
  induction N with
  | zero => rfl
  | succ N ih =>
    rw [List.range_succ, List.foldl_append, List.foldl_cons, List.foldl_nil, VC.elt_writeElt _ _ _ _ _ _ _ hw, ih]
    by_cases hk : k = N
    · subst hk; simp
    · have hlt : k < N + 1 ↔ k < N := by omega
      simp only [hk, hlt, if_false]

theorem elt_vecWriteL (v : VC) (base : Nat) (act : Nat → Bool) (res : Nat → Nat) (p : Pp) (hw : v.w ∣ 2048) {k : Nat} (hk : k < v.max) :
    (vecWriteL v base act res p).elt base v.w k = v.eltAfter act res k (p.elt base v.w k) := by
  rw [vecWriteL_eq_foldl, VC.elt_foldl_writeElt _ _ _ _ _ hw, if_pos hk]

theorem sameButV_vecWriteL (v : VC) (base : Nat) (act : Nat → Bool) (res : Nat → Nat) (p : Pp) :
    p.sameButV (vecWriteL v base act res p) base v.g :=
  List.foldlRecOn (motive := fun q => p.sameButV q base v.g) _ _ (p.sameButV_refl base v.g)
    fun _ h _ hi => VC.sameButV_writeElt h (List.mem_range.mp hi)

/-- An instruction that writes its destination group, the elements from `vl` on as tail, unless VL is 0. -/
theorem vecL_of_exec {i : Instr} {s : State} {n : Nat} {vd : BitVec 5} {vl : Nat} {on : Nat → Bool} {res : Nat → Nat}
    (h : exec i s = .next (s.vecNext n (if (s.pp n).vc.vl = 0 then s.pp n
      else vecWriteL { (s.pp n).vc with vl := vl } vd.toNat on res (s.pp n)))) : VecL i s n vd vl on res := by
  have hV : (s.pp n).sameButV (if (s.pp n).vc.vl = 0 then s.pp n
      else vecWriteL { (s.pp n).vc with vl := vl } vd.toNat on res (s.pp n)) vd.toNat (s.pp n).vc.g := by
    split
    · exact (s.pp n).sameButV_refl _ _
    · exact sameButV_vecWriteL { (s.pp n).vc with vl := vl } _ _ _ _
  refine ⟨_, h, State.vecGoesOn_vecNext hV.sameButRegs, State.onlyV_vecNext hV, fun h0 j => ?none, fun h0 k hk => ?elts⟩
  case none => rw [State.vecNext_getV, if_pos h0]
  case elts =>
    rw [State.vecNext_elt, if_neg h0]
    exact elt_vecWriteL { (s.pp n).vc with vl := vl } _ _ _ _ (s.pp n).vc_w_dvd hk

/-! ### Fields and constraints of the permutes -/

theorem misGroup_of_groupOk {p : Pp} {r : BitVec 5} (h : p.groupOk r) : misGroup p.vc r = false := by
  have h0 : r.toNat % p.vc.g = 0 := h
  simp [misGroup, h0]

theorem vdMeets_of_apart {v : VC} {f : VF} (h : f.vd.toNat + v.g ≤ f.vs1.toNat ∨ f.vs1.toNat + v.g ≤ f.vd.toNat) :
    vdMeets v f = false := by
  simp only [vdMeets, rangesMeet, Bool.and_eq_false_iff, decide_eq_false_iff_not]
  omega

/-- R127: VCOMPRESS and VEXPAND, masked and with groups that lie apart, raise no VECTOR trap. -/
theorem packFaults_eq_nil {p : Pp} {f : VF} (code : Nat) (hs : f.s = false) (hmen : f.men = true) (hvd : p.groupOk f.vd)
    (hvs1 : p.groupOk f.vs1) (hapart : f.vd.toNat + p.vc.g ≤ f.vs1.toNat ∨ f.vs1.toNat + p.vc.g ≤ f.vd.toNat) :
    packFaults { packForm code with use2 := false } f p.vc = [] := by
  simp [packFaults, VForm.faults, packForm, sub, hs, hmen, misGroup_of_groupOk hvd, misGroup_of_groupOk hvs1, vdMeets_of_apart hapart]

theorem maskFields_eq_false {f : VF} (hmen : f.men = false) (hms : f.ms = 0) : maskFields f = false := by
  simp [maskFields, hmen, hms]

/-! ### Compress, expand, extract, insert (R126, R127) -/

/-- `p` once VINSERT has written X[VS1] into the element that X[VS2] names, if it lies below VL. -/
def Pp.inserted (p : Pp) (f : VF) : Pp :=
  if (p.getX f.vs2).toNat < p.vc.vl then p.setElt f.vd.toNat p.vc.w (p.getX f.vs2).toNat (p.getX f.vs1).toNat else p

theorem Pp.sameButV_inserted {p : Pp} (f : VF) (hvl : p.vc.vl ≤ p.vc.max) : p.sameButV (p.inserted f) f.vd.toNat p.vc.g := by
  unfold Pp.inserted
  split
  · next hi => exact (p.sameButV_refl _ _).setElt _ (hi.trans_le hvl)
  · exact p.sameButV_refl _ _

theorem Pp.elt_inserted (p : Pp) (f : VF) (k : Nat) :
    (p.inserted f).elt f.vd.toNat p.vc.w k =
      if k = (p.getX f.vs2).toNat ∧ (p.getX f.vs2).toNat < p.vc.vl then (p.getX f.vs1).toNat % 2 ^ p.vc.w
      else p.elt f.vd.toNat p.vc.w k := by
  unfold Pp.inserted
  split
  · next hi => simp only [Pp.elt_setElt _ _ _ _ _ p.vc_w_dvd, hi, and_true]
  · next hi => simp only [hi, and_false, if_false]

section
variable {s : State} {n : Nat} {f : VF}

theorem vcompress_vecL (he : s.executes n) (hs : f.s = false) (hx : f.x = false)
    (hfaults : packFaults { packForm 0x10 with use2 := false } f (s.pp n).vc = []) :
    VecL (.vcompress n f) s n f.vd (vecList (s.pp n).vc (s.pp n) f).length (fun _ => true)
      (fun k => (vecList (s.pp n).vc (s.pp n) f).getD k 0) := by
  apply vecL_of_exec
  show Host.Outcome.next (doVcompress n f s) = _
  rw [doVcompress, vecOp_runs _ he (by simp [hs, hx]) hfaults, State.vecNext, apply_ite (s.vecDone n)]

theorem vexpand_vecL (he : s.executes n) (hs : f.s = false) (hx : f.x = false)
    (hfaults : packFaults { packForm 0x11 with use2 := false } f (s.pp n).vc = []) :
    VecL (.vexpand n f) s n f.vd (s.pp n).vc.vl (vecActive (s.pp n) f)
      (fun k => (s.pp n).opA f ((List.range k).countP (vecActive (s.pp n) f))) := by
  apply vecL_of_exec
  show Host.Outcome.next (doVexpand n f s) = _
  rw [doVexpand, vecOp_runs _ he (by simp [hs, hx]) hfaults, State.vecNext, apply_ite (s.vecDone n)]
  rfl

theorem vextract_vecX (he : s.executes n) (hs : f.s = false) (hx : f.x = false) (hmask : maskFields f = false)
    (hdec : (s.pp n).vc.dec = false) (hvs1 : (s.pp n).groupOk f.vs1) :
    VecX (.vextract n f) s n f.vd
      (if ((s.pp n).getX f.vs2).toNat < (s.pp n).vc.vl then BitVec.ofNat 64 ((s.pp n).opA f ((s.pp n).getX f.vs2).toNat) else 0) := by
  apply vecX_of_exec
  show Host.Outcome.next (doVextract n f s) = _
  rw [doVextract, vecOp_runs _ he (by simp [hs, hx, hmask]) (by simp [sub, hdec, misGroup_of_groupOk hvs1]), State.vecNext,
    apply_ite (s.vecDone n)]
  rfl

theorem vinsert_writes (he : s.executes n) (hs : f.s = false) (hx : f.x = false) (hmask : maskFields f = false)
    (hdec : (s.pp n).vc.dec = false) (hvd : (s.pp n).groupOk f.vd) (hvl : (s.pp n).vc.vl ≤ (s.pp n).vc.max) :
    ∃ t, exec (.vinsert n f) s = .next t ∧ s.VecGoesOn t n ∧ (s.pp n).onlyV (t.pp n) f.vd.toNat (s.pp n).vc.g
      ∧ ∀ k, (t.pp n).elt f.vd.toNat (s.pp n).vc.w k = ((s.pp n).inserted f).elt f.vd.toNat (s.pp n).vc.w k := by
  have hV := Pp.sameButV_inserted f hvl
  refine ⟨s.vecNext n ((s.pp n).inserted f), ?exec, State.vecGoesOn_vecNext hV.sameButRegs, State.onlyV_vecNext hV,
    fun k => s.vecNext_elt n _ _ _ k⟩
  show Host.Outcome.next (doVinsert n f s) = _
  rw [doVinsert, vecOp_runs _ he (by simp [hs, hx, hmask]) (by simp [sub, hdec, misGroup_of_groupOk hvd])]
  rfl

end

/-- Settles O21: VCOMPRESS and VEXPAND (R127) write VD's group as a Rexigal-L form does (`vecL_of_exec`); of the element
accesses of R126's table VEXTRACT writes an X register (`vecX_of_exec`), VINSERT one element of VD (`Pp.elt_inserted`). -/
theorem vectorPermutes : Obligations.VectorPermutes := by
  unfold Obligations.VectorPermutes
  intro n f s he hs hx
  refine ⟨fun hmen hvd hvs1 hapart => ⟨?compress, ?expand⟩, fun hmen hms hdec => ?element⟩
  case compress => exact vcompress_vecL he hs hx (packFaults_eq_nil _ hs hmen hvd hvs1 hapart)
  case expand => exact vexpand_vecL he hs hx (packFaults_eq_nil _ hs hmen hvd hvs1 hapart)
  case element =>
    have hmask := maskFields_eq_false hmen hms
    refine ⟨fun hvs1 => vextract_vecX he hs hx hmask hdec hvs1, fun hvd hvl => ?_⟩
    obtain ⟨t, hexec, hgoes, honly, helts⟩ := vinsert_writes he hs hx hmask hdec hvd hvl
    exact ⟨t, hexec, hgoes, honly, fun k _ => (helts k).trans (Pp.elt_inserted _ f k)⟩

/-! ### Mask registers after a write (R128) -/

/-- The instruction writes `g` of the bits of M[VS1] and M[VS2] into the bits of M[VD] below VL, with the bits from VL on as tail. -/
def MaskWrites (i : Instr) (s : State) (n : Nat) (f : VF) (g : Bool → Bool → Bool) : Prop :=
  let p := s.pp n
  ∃ t, exec i s = .next t ∧ s.VecGoesOn t n ∧ p.onlyM (t.pp n) f.vd.toNat
    ∧ (p.vc.vl = 0 → ∀ j, (t.pp n).getM j = p.getM j)
    ∧ (p.vc.vl ≠ 0 → ∀ b, b < 2048 → ((t.pp n).getM f.vd.toNat).getLsbD b =
        if b < p.vc.vl then g ((p.getM f.vs1.toNat).getLsbD b) ((p.getM f.vs2.toNat).getLsbD b)
        else if p.vc.tz then false else (p.getM f.vd.toNat).getLsbD b)

/-- The operation of a logical form on a bit of each source. -/
def logicBit : Logic → Bool → Bool → Bool
  | .and, x, y => x && y
  | .or, x, y => x || y
  | .xor, x, y => x != y
  | .andn, x, y => x && !y

/-- What a logical form writes into M[VD] from the result `r` of its operation. -/
def VC.maskNew (v : VC) (r old : VReg) : VReg :=
  let low : VReg := BitVec.ofNat 2048 (2 ^ v.vl - 1)
  if v.tz then r &&& low else (r &&& low) ||| (old &&& ~~~ low)

theorem VC.getLsbD_maskNew (v : VC) (r old : VReg) {b : Nat} (hb : b < 2048) :
    (v.maskNew r old).getLsbD b = if b < v.vl then r.getLsbD b else if v.tz then false else old.getLsbD b := by
  have hlow : (BitVec.ofNat 2048 (2 ^ v.vl - 1)).getLsbD b = decide (b < v.vl) := by
    rw [BitVec.getLsbD_ofNat, Nat.testBit_two_pow_sub_one]; simp [hb]
  rw [VC.maskNew]
  cases v.tz
  · rw [if_neg Bool.false_ne_true, BitVec.getLsbD_or, BitVec.getLsbD_and, BitVec.getLsbD_and, BitVec.getLsbD_not, hlow]
    by_cases hvl : b < v.vl <;> simp [hvl, hb]
  · rw [if_pos rfl, BitVec.getLsbD_and, hlow]
    by_cases hvl : b < v.vl <;> simp [hvl]

/-- `p` once a logical form with the operation `op` has written M[VD], unless VL is 0. -/
def Pp.maskWritten (p : Pp) (f : VF) (op : VReg → VReg → VReg) : Pp :=
  if p.vc.vl = 0 then p
  else p.setM f.vd.toNat (p.vc.maskNew (op (p.getM f.vs1.toNat) (p.getM f.vs2.toNat)) (p.getM f.vd.toNat))

theorem Pp.maskWritten_frame (p : Pp) (f : VF) (op : VReg → VReg → VReg) : { p.maskWritten f op with m := p.m } = p := by
  unfold Pp.maskWritten
  split <;> rfl

theorem Pp.getM_maskWritten_other (p : Pp) (f : VF) (op : VReg → VReg → VReg) {j : Nat} (hj : j ≠ f.vd.toNat) :
    (p.maskWritten f op).getM j = p.getM j := by
  unfold Pp.maskWritten
  split
  · rfl
  · exact p.getM_setM_other _ hj

theorem notMask_eq_false {r : BitVec 5} (h : r.toNat < 8) : notMask r = false := by
  have h0 : r.toNat >>> 3 = 0 := by rw [Nat.shiftRight_eq_div_pow]; exact Nat.div_eq_of_lt h
  simp only [notMask, bits, h0, Nat.zero_mod, bne_self_eq_false]

section
variable {s : State} {n code : Nat} {f : VF}

theorem maskOp_writes {i : Instr} {ill : Bool} {op : VReg → VReg → VReg} {g : Bool → Bool → Bool}
    (hi : exec i s = .next (maskOp n code f ill op s)) (he : s.executes n)
    (hfields : (f.s || f.x || maskFields f || notMask f.vd || notMask f.vs1 || notMask f.vs2) = false)
    (hill : ill = false) (hdec : (s.pp n).vc.dec = false)
    (hbit : ∀ a c b, b < 2048 → (op a c).getLsbD b = g (a.getLsbD b) (c.getLsbD b)) : MaskWrites i s n f g := by
  have hexec : exec i s = .next (s.vecNext n ((s.pp n).maskWritten f op)) := by
    rw [hi, maskOp, vecOp_runs _ he (by rw [hfields, hill]; rfl) (by simp [sub, hdec]), State.vecNext, Pp.maskWritten,
      apply_ite (s.vecDone n)]
    rfl
  have hframe := (s.pp n).maskWritten_frame f op
  refine ⟨_, hexec, State.vecGoesOn_vecNext ?regs, ⟨fun j => ?getX, fun j => ?getV, fun j hj => ?getM⟩, fun h0 j => ?none, fun h0 b hb => ?bits⟩
  case regs => exact (congrArg (fun t : Pp => { t with x := (s.pp n).x, v := (s.pp n).v }) hframe :)
  case getX => exact (s.vecNext_getX n _ j).trans (congrArg (Pp.getX · j) hframe :)
  case getV => exact (s.vecNext_getV n _ j).trans (congrArg (Pp.getV · j) hframe :)
  case getM => rw [State.vecNext_getM, Pp.getM_maskWritten_other _ _ _ hj]
  case none => rw [State.vecNext_getM, Pp.maskWritten, if_pos h0]
  case bits =>
    rw [State.vecNext_getM, Pp.maskWritten, if_neg h0, Pp.getM_setM, VC.getLsbD_maskNew _ _ _ hb, hbit _ _ _ hb]

theorem mlogic_writes (k : Logic) (he : s.executes n)
    (hfields : (f.s || f.x || maskFields f || notMask f.vd || notMask f.vs1 || notMask f.vs2) = false)
    (hdec : (s.pp n).vc.dec = false) : MaskWrites (.mlogic n k f) s n f (logicBit k) := by
  refine maskOp_writes rfl he hfields rfl hdec fun a c b hb => ?_
  cases k with
  | and => exact BitVec.getLsbD_and
  | or => exact BitVec.getLsbD_or
  | xor => exact BitVec.getLsbD_xor
  | andn => simp [logicBit, hb]

theorem mnot_writes (he : s.executes n)
    (hfields : (f.s || f.x || maskFields f || notMask f.vd || notMask f.vs1 || notMask f.vs2) = false)
    (hz : f.vs2 = 0) (hdec : (s.pp n).vc.dec = false) : MaskWrites (.mnot n f) s n f (fun x _ => !x) :=
  maskOp_writes rfl he hfields (by simp [hz]) hdec fun a _ b hb => by simp [hb]

theorem maskRead_vecX {i : Instr} {g : List Nat → Word} (hi : exec i s = .next (maskRead n code f g s)) (he : s.executes n)
    (hs : f.s = false) (hx : f.x = false) (hvs1 : f.vs1.toNat < 8) (hdec : (s.pp n).vc.dec = false) :
    VecX i s n f.vd (g ((List.range (s.pp n).vc.vl).filter
      (fun k => ((s.pp n).getM f.vs1.toNat).getLsbD k && (s.pp n).on f k))) := by
  apply vecX_of_exec
  rw [hi, maskRead, vecOp_runs _ he (by simp [hs, hx, notMask_eq_false hvs1]) (by simp [sub, hdec]), State.vecNext,
    apply_ite (s.vecDone n)]
  rfl

end

/-- Settles O22: the logical forms write a mask register bit by bit (`maskOp_writes`), MPOPC and MFIRST an X register
(`maskRead_vecX`).  The fields that MPOPC and MFIRST do not use are not checked (log entry 27, the model's choice). -/
theorem vectorMasks : Obligations.VectorMasks := by
  unfold Obligations.VectorMasks
  intro n f s he hs hx hvs1 hdec
  have count := maskRead_vecX (rfl : exec (.mpopc n f) s = .next (doMpopc n f s)) he hs hx hvs1 hdec
  have lowest := maskRead_vecX (rfl : exec (.mfirst n f) s = .next (doMfirst n f s)) he hs hx hvs1 hdec
  refine ⟨fun hmen hms hvd hvs2 => ?logical, count, lowest⟩
  have hfields : (f.s || f.x || maskFields f || notMask f.vd || notMask f.vs1 || notMask f.vs2) = false := by
    simp [hs, hx, maskFields_eq_false hmen hms, notMask_eq_false hvd, notMask_eq_false hvs1, notMask_eq_false hvs2]
  have logic (k : Logic) := mlogic_writes k he hfields hdec
  exact ⟨logic .and, logic .or, logic .xor, logic .andn, fun hz => mnot_writes he hfields hz hdec⟩

end Sys2Proof.Machine
end
